-- ==== Sys2Proof/Word.lean ====
section
/-! DEFINITION. Words and bytes of the Ximund, and their plainest arithmetic (00_scope.md R5, R8). -/

namespace Sys2Proof

/-- One byte of any memory of the package. -/
abbrev Byte := BitVec 8

/-- One 32-bit word: a command word, a doorbell word, an FP32 encoding. -/
abbrev Word := BitVec 32

/-- One kibibyte (00_scope.md, Notation: sizes are binary). -/
def kib : Nat := 1024

/-- One mebibyte. -/
def mib : Nat := 1024 * 1024

/-- One gibibyte. -/
def gib : Nat := 1024 * 1024 * 1024

end Sys2Proof
end

