-- ==== Sys2Proof/Syntax.lean ====
section
/-! DEFINITION. The commands that the block takes: one constructor per row of spec/opcode_table.json, with the operands that the
spec's text gives the row. -/

namespace Sys2Proof

/-- Who makes an access (01 R37, 15 R666 to R668, 19 R786). -/
inductive Requester
  /-- The host, through the PCIe endpoint of die 0 (19 R798). -/
  | host
  /-- The Keeper of a die (15 R668: not checked by the mullions). -/
  | keeper (die : Nat)
  /-- A context of a core: its transit tag goes with the access (10 R432). -/
  | context (die core ctx : Nat)
  /-- A unit of a die: ingest, job unit, Bell, time unit or Ulsal island (15 R668). -/
  | unit (die : Nat)
deriving DecidableEq, Repr

/-- What the memory reports of a read: the physical condition the access meets (11 R500 to R503, 12 R545 to R547). -/
inductive ReadCheck
  /-- Every check passes. -/
  | ok
  /-- `n` reads of a store or vault row fail before one passes; 3 and more mean that all three reads fail (11 R500, R501). -/
  | rowFails (n : Nat)
  /-- The HBM word needed correction of one bit (12 R546). -/
  | corrected
  /-- The HBM word is uncorrectable (12 R547). -/
  | uncorrectable
deriving DecidableEq, Repr

/-- What befalls a command of a list while its unit performs it: how far it gets before a pre-emption can reach it, and what the
memory reports of the rows and words that it reads. -/
structure Course where
  /-- Rows, points, pieces or blocks done when the command stands at a pre-emption point; none: it runs to its end (10 R473). -/
  stop : Option Nat := none
  /-- Package addresses at which a read meets a check (11 R500, 12 R546). -/
  meets : List (Nat × ReadCheck) := []
deriving DecidableEq, Repr

/-- The context whose command a unit begins, and the course that the command takes. -/
structure Turn where
  /-- The context, 0 to 3. -/
  ctx : Nat
  /-- How far the command gets, and what its reads meet. -/
  course : Course := {}
deriving DecidableEq, Repr

/-- What a host access writes, and what a read of it meets. -/
structure HostWord where
  /-- The value of a write; 0 for a read. -/
  value : Nat
  /-- Package addresses at which a read meets a check (11 R500, 12 R546). -/
  meets : List (Nat × ReadCheck) := []
deriving DecidableEq, Repr

/-- What a fabric transaction asks for (12 R552, 15 R667). -/
inductive TxnOp
  /-- Read `len` bytes, 0 to 256. -/
  | read (len : Nat)
  /-- Write the bytes, at most 256. -/
  | write (bytes : List Byte)
  /-- Add elements of a format code (07 R301, 10 R443) to memory (11 R494). -/
  | add (fmt : Nat) (bytes : List Byte)
  /-- One slot operation: claim or find the slot of a key under a build (04 R174, R178). -/
  | slotOp (key build : Nat)
  /-- Add a count to a semaphore of the core whose control block the address names (10 R451). -/
  | semaphoreAdd (sem count : Nat)
  /-- A doorbell word for the Bell that the address names (14 R604). -/
  | doorbell (word : Word)
deriving DecidableEq, Repr

/-- The store error that a pass meets at one of its rows (05 R840). -/
inductive RowError
  /-- Its activation row fails its check on every read (11 R501). -/
  | activation
  /-- Its MXFP4 scale row does. -/
  | scale
  /-- Its start row is poisoned (11 R506). -/
  | startPoisoned
  /-- Its start row fails its check. -/
  | startCheck
  /-- Its output covers part of a row that fails its check (11 R502). -/
  | outputCheck
  /-- Its output covers part of a poisoned row (11 R508). -/
  | outputPoisoned
  /-- Its output meets a group that is not ON (11 R521). -/
  | outputShut
deriving DecidableEq, Repr

/-- A bank group of a core store, or a segment of a vault (11 R478, R517). -/
inductive ShutterUnit
  /-- W-store of a physical core. -/
  | wStore (core : Nat)
  /-- A-store of a physical core. -/
  | aStore (core : Nat)
  /-- P-store of a physical core. -/
  | pStore (core : Nat)
  /-- A vault of the die. -/
  | vault (k : Nat)
deriving DecidableEq, Repr

/-- Where a transom request comes from (17 R735 to R737). -/
inductive TransomSource
  /-- The host's request in TR_REQ, submitted by TR_GO. -/
  | host
  /-- A UDP datagram at the management port, protected by MACsec or not: the sender's IP version, address and UDP port, the UDP port it
  is sent to, and its payload, a Ximund header with the TR_REQ layout after it (R737). -/
  | net (secured v6 : Bool) (peer remote port : Nat) (datagram : List Byte)
deriving DecidableEq, Repr

/-- A command of the block. The die, core, context, engine and port operands say which unit the command is for. -/
inductive Instr
  -- registers (00 R7 to R23)
  | registerWrite (who : Requester) (die off width value : Nat)
  | rcRead (who : Requester) (die off width arriving : Nat)
  | lowHalfRead (who : Requester) (die off : Nat)
  -- time (02)
  | timeAdj (die : Nat) (value : Word)
  | slewEnd
  | timeSetCommit (die : Nat)
  | timeStep
  | timeServoDeclareLocked (die : Nat)
  | timeServoDeclareHoldover (die : Nat)
  | holdoverEntry
  | holdoverExpiry
  | tsfPop (die port : Nat)
  | ptpEventSend (die port : Nat) (twoStep : Bool) (seqId msgType domain : Nat)
  -- phase masters and phase events (02)
  | pmCommit (die master : Nat)
  | masterCoast (die master : Nat)
  | masterLost (die master : Nat)
  | peCommit (die : Nat)
  | phaseEventDispatch (die : Nat)
  | remoteEventDelivery (die : Nat)
  -- ingest (03)
  | ethFrameReceive (die port : Nat) (frame : List Byte)
  | packetDecode (die : Nat)
  | pointWriteError (die entry point : Nat)
  | headerWriteError (die entry : Nat)
  | frameHeaderWrite (die entry : Nat)
  | ingCommit (die : Nat)
  -- commands of a list, issued by the sequencer for a context (10)
  | cmdInvalid (die core ctx : Nat)
  | nop (die core ctx : Nat)
  | endList (die core ctx : Nat)
  | wait (die core ctx : Nat)
  | signal (die core ctx : Nat)
  | semaphoreAdd (die core : Nat)
  | waitBell (die core ctx : Nat)
  | waitTimeout (die core ctx : Nat)
  | loop (die core ctx : Nat)
  | branchCnt (die core ctx : Nat)
  | fence (die core ctx : Nat)
  | publishResult (die core ctx : Nat)
  | publishTokens (die core ctx : Nat)
  -- the engine array (05)
  | loadw (die core : Nat) (turn : Turn)
  | stream (die core : Nat) (turn : Turn)
  | gang (die core ctx : Nat)
  | passBoundary (die core engine : Nat)
  | passComplete (die core engine : Nat)
  | preemptDrainEnd (die core engine issued : Nat)
  | engineFault (die core engine kind row col issued written : Nat)
  | passStoreError (die core engine row : Nat) (what : RowError)
  -- spatial commands (04, 08)
  | gatherPillar (die core : Nat) (turn : Turn)
  | gatherRows (die core : Nat) (turn : Turn)
  | gatherNeighbour (die core : Nat) (turn : Turn)
  | scatterAddMap (die core : Nat) (turn : Turn)
  | scatterAddRows (die core : Nat) (turn : Turn)
  | mapGridOpen (die core : Nat) (turn : Turn)
  | mapGridClose (die core : Nat) (turn : Turn)
  | gridCloseDrainEnd (die core ctx : Nat)
  | mapDilate (die core : Nat) (turn : Turn)
  | mapIndex (die core : Nat) (turn : Turn)
  | mapRules (die core : Nat) (turn : Turn)
  | mapWalk (die core : Nat) (turn : Turn)
  | mapAnd (die core : Nat) (turn : Turn)
  | hashInsert (die core : Nat) (turn : Turn)
  | dist (die core : Nat) (turn : Turn)
  | topkSelect (die core : Nat) (turn : Turn)
  | topkSuppress (die core : Nat) (turn : Turn)
  -- the vector unit (06, 09)
  | vec (die core : Nat) (turn : Turn)
  | vecPredict (die core : Nat) (turn : Turn)
  | vecAudit (die core : Nat) (turn : Turn)
  | quant (die core : Nat) (turn : Turn)
  -- the mover (10, 11)
  | dmaCopy (die core : Nat) (turn : Turn)
  | dmaStridedRead (die core : Nat) (turn : Turn)
  | dmaTranspose (die core : Nat) (turn : Turn)
  | dmaFill (die core : Nat) (turn : Turn)
  | creditGet (die core ctx : Nat)
  | wicketGrant (die core : Nat)
  | creditReturn (die core ctx : Nat)
  | wicketFree (die core wicket : Nat)
  -- sequencer events (10)
  | commandComplete (die core ctx index : Nat)
  | sqStop (die core mask : Nat)
  | semSet (die core sem value : Nat)
  | listStart (die core ctx : Nat)
  | contextResume (die core ctx : Nat)
  -- shutters (11)
  | shutterOn (die : Nat) (u : ShutterUnit) (group : Nat)
  | shutterOffRetain (die : Nat) (u : ShutterUnit) (group : Nat)
  | shutterOffNoRetain (die : Nat) (u : ShutterUnit) (group : Nat)
  | shutterClosed (die : Nat) (u : ShutterUnit) (group : Nat)
  | shutterOpened (die : Nat) (u : ShutterUnit) (group : Nat)
  -- fabric, memory and links (12, 15, 19)
  | fabricTransaction (who : Requester) (addr : Nat) (op : TxnOp) (meets : List (Nat × ReadCheck))
  | hostAccess (bar off width : Nat) (write : Bool) (value : HostWord)
  | hbmScrub (die stack off : Nat) (check : ReadCheck)
  | hbmImbWindowEnd (die stack : Nat)
  | ignovBlockReceive (die port : Nat) (block : List Byte)
  | ignovNak (die port last : Nat)
  | ignovRetrain (die port : Nat)
  | ignovTrainingEnd (die port badTx badRx : Nat)
  | ignovLinkDownTimeout (die port : Nat)
  -- jobs, records and channels (09, 13)
  | jobFire (die trigger : Nat)
  | requestDeadlineExpiry (part jseq : Nat)
  | lateLimitExpiry (part jseq : Nat)
  | recordEnterRing (part : Nat)
  | recordSend (channel : Nat)
  | request (channel : Nat) (datagram : List Byte)
  | cancel (channel : Nat) (datagram : List Byte)
  | resend (channel : Nat) (datagram : List Byte)
  | jobCommit (die : Nat)
  | ethLinkUp (die port : Nat)
  | ethLinkDown (die port : Nat)
  | batchWindowExpiry (die cls : Nat)
  | bcDone (die cls value : Nat)
  | bcCommit (die cls : Nat)
  | prdCommit (die core entry : Nat)
  | prdReenable (die core entry : Nat)
  -- the Bell (14)
  | bellDoorbell (who : Requester) (die : Nat) (word : Word)
  | bellHoldSet (die w : Nat)
  | bellHoldClr (die w : Nat)
  | bellClaim (who : Requester) (die target : Nat)
  | bellComplete (die target source : Nat)
  | moderationTimerExpiry (vector : Nat)
  | msixUnmask (vector : Nat)
  | pcieD0Entry (msixEnabled : Bool) (width gen : Nat)
  | eventPinEdge (pin : Nat) (rising : Bool) (shortestNs : Nat)
  -- safety (15)
  | znNetWrite (who : Requester) (die zone value : Nat)
  | safetyHeartbeatFrame (die part : Nat)
  | proofListStart (die core : Nat)
  | proofSlackExpiry (die core : Nat)
  | proofResult (die core : Nat)
  | aliveToggle
  | islandHeartbeat (die : Nat)
  | keeperBeat (die : Nat)
  | heartbeatMissing (die : Nat)
  | ulsSafeReq (die mask : Nat)
  | ulsSafeRel (die mask : Nat)
  | ulsCommit (die : Nat)
  | mulCommit (who : Requester) (die : Nat)
  | partitionRestartTimeout (part : Nat)
  | warmRestartTimeout
  -- faults and restarts (16, 17, 18)
  | coreFail (die core : Nat)
  | clusterFail (die cluster : Nat)
  | hbmStack (die stack : Nat)
  | dieFail (die : Nat)
  | partitionRestart (part : Nat) (failing : List Nat)
  | packageWarmRestart (failing : List Nat)
  | coldStart
  | coldRstNAssert (lowNs : Nat)
  | supplyOutOfWindow (lowNs : Nat)
  | thermalTrip (die sensor : Nat)
  | temperatureSample (die : Nat) (readings : List Int)
  | powerGateUpdate (die activity : Nat)
  | louvreWindowStart (die : Nat)
  | pkgReqStandby
  | pkgReqSleep
  | pkgReqRun
  | pkgWakeAt
  | perstDeassert
  -- network ports (17, 19)
  | sakRekey (die port : Nat)
  | mkaPeerTimeout (die port : Nat)
  | arpRequest (die port : Nat) (frame : List Byte)
  | neighborSolicitation (die port : Nat) (frame : List Byte)
  | nextHopRefresh (die port : Nat) (addr : Nat) (answered : Bool)
  -- the transom (17)
  | unknownCmd (src : TransomSource)
  | getInfo (src : TransomSource)
  | getCert (src : TransomSource)
  | attest (src : TransomSource)
  | getParts (src : TransomSource)
  | readLog (src : TransomSource)
  | claim (src : TransomSource)
  | provision (src : TransomSource)
  | imageBegin (src : TransomSource)
  | imageData (src : TransomSource)
  | imageEnd (src : TransomSource)
  | imageActivate (src : TransomSource)
  | imageConfirm (src : TransomSource)
  | rollbackCommit (src : TransomSource)
  | restartPart (src : TransomSource)
  | restartWarm (src : TransomSource)
  | restartCold (src : TransomSource)
  | resaltGrid (src : TransomSource)
  | rehashHbm (src : TransomSource)
  | liftFence (src : TransomSource)
  | returnPart (src : TransomSource)
  | testChallenge (src : TransomSource)
  | testResponse (src : TransomSource)
  -- clocks and links (02, 17, 18, 19)
  | timeTick
  | perstAssert
  | pcieD3Entry (cold pmeEn : Bool)
  | mkaLivePeer (die port peers : Nat) (keyServer : Bool)
  | nextHopAnswer (die port addr mac : Nat)
deriving DecidableEq, Repr

end Sys2Proof
end

