-- ==== Sys2Proof/Config.lean ====
section
/-! DEFINITION. What the manual leaves open: free values without a body, so that no proof can see what they are.
Each is named in the assumption log (entries 4 to 9). -/

namespace Sys2Proof

/-- A fresh value of the device's random source (12 R539, 04 R180, 17 R738, SEC_RANDOM), applied to the
model's own counter `State.fresh` (log entry 4). -/
opaque Config.random : Nat → Nat

/-- A value that the manual leaves undefined or does not state, applied to the model's own counter
`State.fresh` (log entry 5). -/
opaque Config.freeValue : Nat → BitVec 64

/-- Cosine of an angle given as FP32 in turns of 2^16 units, as FP32: 03 R108 and R110 carry the conversion in FP32 and
state no accuracy for the function itself (log entry 6). -/
opaque Config.cosTurn : Word → Word

/-- Sine of an angle given as FP32 in turns of 2^16 units, as FP32 (03 R108; log entry 6). -/
opaque Config.sinTurn : Word → Word

/-- The vector unit's result for the transcendental operation with VEC code `op` on FP32 operands `a` and `b`, where 06 R292
states only an error bound (log entry 7). -/
opaque Config.vuApprox : Nat → Word → Word → Word

/-- Lane value of a mask that is set; 06 R292 names the mask and gives no value for it. A lane of 0 is not set (log entry 7). -/
opaque Config.maskSet : Word

/-- Device time of die `d` against die 0, in nanoseconds; used modulo 9, so that dies differ by at most 8 ns (02 R65; log
entry 8). -/
opaque Config.timeSkew : Nat → Nat

/-- The fields of the IP header of a datagram that the device sends which neither the spec nor the protocol's standard settles, by
the datagram's payload: service byte or traffic class, lifetime, identification or flow label, don't-fragment flag (13 R592; log
entry 157). -/
opaque Config.ipFill : List Byte → Nat

/-- The fields of the Ximund header of a transom response that the spec does not give, by the response: partition, channel, epoch,
channel sequence and sequence (17 R737; log entry 166). -/
opaque Config.replyFill : List Byte → Nat

/-- Packets that the receive queue of a die's Keeper holds beyond the first: 03 R99 names the queue and gives no size (log entry 9). -/
opaque Config.keeperQueueCap : Nat

/-- The die power in units of 0.25 W that calibration gives for an activity figure (18 R757; log entry 9). -/
opaque Config.powerCalibration : Nat → Nat → Nat

/-- The DRAM row of an HBM word, by package address: 16 R688 counts corrected words in one DRAM row, and the spec gives no row size
or row mapping (log entry 31). -/
opaque Config.dramRow : Nat → Nat

/-- SHA-384 of the published standard, uninterpreted (17 R723; log entry 10). -/
opaque Config.sha384 : List Byte → List Byte

/-- Whether an ECDSA P-384 signature over a digest verifies under a public key, uninterpreted (17 R723, R738; log entry 10):
key, digest, signature. -/
opaque Config.ecdsaVerify : List Byte → List Byte → List Byte → Bool

/-- A signature by the device identity key over a digest, uninterpreted (17 R733; log entry 10). -/
opaque Config.identitySign : List Byte → List Byte

/-- AES-256-GCM decryption, uninterpreted: key, initialisation vector, ciphertext, tag; none when the tag fails (17 R725, R727;
log entry 10). -/
opaque Config.gcmDecrypt : List Byte → List Byte → List Byte → List Byte → Option (List Byte)

/-- Opening of a secret encrypted to the device identity key under 17 R730, uninterpreted; none when the blob does not open (log
entry 10). -/
opaque Config.openProvision : List Byte → Option (List Byte)

/-- Wrapping of an owner secret under the wrap key that the device unique key and FUSE_DECOMM give (17 R729), uninterpreted: the
decommission fuse, the secret (log entry 10). -/
opaque Config.wrapSecret : Bool → List Byte → List Byte

/-- Unwrapping of an owner secret of the key area (17 R729, R747), uninterpreted: the decommission fuse, the wrapped bytes (log
entry 10). -/
opaque Config.unwrapSecret : Bool → List Byte → Option (List Byte)

/-- The public key whose SHA-384 is a given hash: the owner key that FUSE_OWNER_HASH names (17 R727, R729; log entry 10). -/
opaque Config.keyNamed : List Byte → List Byte

/-- Geinaphor's root public key, named by its hash in boot ROM (17 R729; log entry 10). -/
opaque Config.geinaphorRoot : List Byte

/-- Geinaphor's test public key, named by its hash in boot ROM (17 R729; log entry 10). -/
opaque Config.geinaphorTest : List Byte

end Sys2Proof
end

