-- ==== Sys2Proof/Machine/Sparse.lean ====
section
/-! DEFINITION. Sparse maps as lists in one canonical form: keys strictly rising, and no entry equal to what an unlisted key reads
as. The registers, the memory and the configuration store of the package are such lists. -/

namespace Sys2Proof.Machine

/-- The value under a key; `d` for a key that is not listed. -/
def sparseGet {κ ν : Type} (cmp : κ → κ → Ordering) (d : κ → ν) (k : κ) : List (κ × ν) → ν
  | [] => d k
  | (k', v) :: rest =>
    match cmp k k' with
    | .lt => d k
    | .eq => v
    | .gt => sparseGet cmp d k rest

/-- An entry in front of a map, left out when it equals what the unlisted key reads as. -/
def sparseCons {κ ν : Type} [DecidableEq ν] (d : κ → ν) (k : κ) (v : ν) (rest : List (κ × ν)) : List (κ × ν) :=
  if v = d k then rest else (k, v) :: rest

/-- The map with one key's value set. -/
def sparseSet {κ ν : Type} [DecidableEq ν] (cmp : κ → κ → Ordering) (d : κ → ν) (k : κ) (v : ν) :
    List (κ × ν) → List (κ × ν)
  | [] => sparseCons d k v []
  | (k', v') :: rest =>
    match cmp k k' with
    | .lt => sparseCons d k v ((k', v') :: rest)
    | .eq => sparseCons d k v rest
    | .gt => (k', v') :: sparseSet cmp d k v rest

/-- The map with every key of `p` back at what an unlisted key reads as. -/
def sparseDrop {κ ν : Type} (p : κ → Bool) (m : List (κ × ν)) : List (κ × ν) :=
  m.filter fun e => !p e.1

/-- The entries of values that stand at rising addresses from `a` on. -/
def sparseRun {ν : Type} [DecidableEq ν] (d : Nat → ν) : Nat → List ν → List (Nat × ν)
  | _, [] => []
  | a, v :: vs => sparseCons d a v (sparseRun d (a + 1) vs)

/-- The map with values set at rising addresses from `a` on. -/
def sparsePut {ν : Type} [DecidableEq ν] (d : Nat → ν) (a : Nat) (vs : List ν) (m : List (Nat × ν)) : List (Nat × ν) :=
  let top := a + vs.length
  (m.filter fun e => decide (e.1 < a)) ++ sparseRun d a vs ++ m.filter fun e => decide (top ≤ e.1)

/-- The `n` values from address `a` on. -/
def sparseRead {ν : Type} (d : Nat → ν) : Nat → Nat → List (Nat × ν) → List ν
  | _, 0, _ => []
  | a, n + 1, m =>
    match m.dropWhile fun e => decide (e.1 < a) with
    | [] => d a :: sparseRead d (a + 1) n []
    | (k, v) :: rest =>
      if k = a then v :: sparseRead d (a + 1) n rest else d a :: sparseRead d (a + 1) n ((k, v) :: rest)

/-- `k` lies below every key of the map. -/
def sparseBelow {κ ν : Type} (cmp : κ → κ → Ordering) (k : κ) (m : List (κ × ν)) : Bool :=
  m.all fun e => cmp k e.1 == .lt

/-- The canonical form. -/
def sparseWf {κ ν : Type} [DecidableEq ν] (cmp : κ → κ → Ordering) (d : κ → ν) : List (κ × ν) → Bool
  | [] => true
  | (k, v) :: rest => sparseBelow cmp k rest && decide (v ≠ d k) && sparseWf cmp d rest

/-! ### Tables of records

A table lists the records of units by their numbers, rising, and leaves out those that are as after reset. -/

/-- The record of a unit; `d` for one that is not listed. -/
def tableGet {ν : Type} (d : ν) (k : Nat) (m : List (Nat × ν)) : ν :=
  match m.find? fun e => e.1 == k with
  | some e => e.2
  | none => d

/-- A record put in its place. -/
def tableInsert {ν : Type} (k : Nat) (v : ν) : List (Nat × ν) → List (Nat × ν)
  | [] => [(k, v)]
  | e :: es => if k < e.1 then (k, v) :: e :: es else e :: tableInsert k v es

/-- The table with one unit's record set. -/
def tableSet {ν : Type} [DecidableEq ν] (d : ν) (k : Nat) (v : ν) (m : List (Nat × ν)) : List (Nat × ν) :=
  let rest := m.filter fun e => e.1 != k
  if v = d then rest else tableInsert k v rest

end Sys2Proof.Machine
end

