-- ==== Sys2Proof/Machine/Fields.lean ====
section
/-! DEFINITION. Every register field of the register window, by its name in the spec, with its place, width, access code, reset
value and shadow set; and, with names beginning `I_`, the state that the spec gives a unit without a register of its own. The
tables are those of the chapters' register tables and of 19_address_map.md R785. -/

namespace Sys2Proof.Machine

/-- The access codes of 00_scope.md R7; `hidden` is a field with no place in the register window. -/
inductive Access
  | rw | ro | wo | rc | wc | hidden
deriving DecidableEq, Repr

/-- The shadow sets (00_scope.md R16): each is committed by one WC register. `plain` fields have none. -/
inductive ShadowSet
  | plain | timeStep | pm | pe | ing | bc | prd | job | uls | mul
deriving DecidableEq, Repr

/-- A register field. A field of a table is indexed by the entry; a table inside a table counts row by row. -/
inductive Fld
  | TIME_NOW_SEC
  | TIME_NOW_NS
  | TIME_NOW_FRAC
  | TIME_INCR
  | TIME_ADJ
  | TIME_SET_SEC
  | TIME_SET_NS
  | TIME_SET_FRAC
  | TIME_SET_COMMIT
  | TIME_STATUS_SYNC
  | TIME_STATUS_SLEWING
  | TIME_STATUS_COMMIT_PENDING
  | TIME_WATCH_SERVO_MS
  | TIME_WATCH_HOLD_S
  | TIME_WATCH_EN
  | TIME_SERVO
  | TIME_STEP_COUNT
  | TSF_STATUS_COUNT
  | TSF_STATUS_LOST
  | TSF_SEC
  | TSF_NS
  | TSF_FRAC
  | TSF_ID_SEQ
  | TSF_ID_TYPE
  | TSF_ID_DOMAIN
  | TSF_POP
  | PM_CTRL_KIND
  | PM_CTRL_STREAM
  | PM_CTRL_OFFSET
  | PM_PERIOD_NS
  | PM_TIMEOUT_US
  | PM_TIMEOUT_REVS
  | PM_COMMIT
  | PM_STATUS_PHASE
  | PM_STATUS_STATE
  | PM_STATUS_COMMIT_PENDING
  | PM_STATUS_HOLDING
  | PM_REVS
  | PM_MEAS_PERIOD_NS
  | PM_BACKSTEPS
  | PE_VALID
  | PE_KIND
  | PE_BASE
  | PE_MASTER
  | PE_PHASE
  | PE_TARGET
  | PE_TARGET_DIE
  | PE_INSTANT
  | PE_COMMIT
  | PE_STATUS_COMMIT_PENDING
  | PE_FIRED
  | PE_PAST
  | SE_VALID
  | SE_KIND
  | SE_PORT
  | SE_IPV6
  | SE_VLAN_EN
  | SE_SRCPORT_EN
  | SE_SAFETY
  | SE_PRIORITY
  | SE_PARTITION
  | SE_VLAN_ID
  | SE_UDP_DST
  | SE_UDP_SRC
  | SE_SRC_ADDR
  | SE_STREAM_ID
  | SE_TEMPLATE
  | SE_MASTER
  | SE_POSE
  | SE_CAP
  | SE_BUF_BASE
  | SE_HDR_BASE
  | SE_LEAD_NS
  | SE_POSE_HOLD_US
  | SE_CHANNELS
  | SE_RTP_OFFSET
  | SE_CPOSE_T
  | SE_CPOSE_Q
  | TPL_GEOM
  | TPL_TIME_SRC
  | TPL_HDR_LEN
  | TPL_BLOCKS
  | TPL_BLOCK_STRIDE
  | TPL_POINTS
  | TPL_POINT_STRIDE
  | TPL_BLOCK_HDR
  | TPL_LATENCY_NS
  | TPL_BLOCK_DT_NS
  | TPL_POINT_DT_NS
  | TPL_MIN_RANGE
  | TPL_FIELD
  | TPL_SCALE
  | TPL_BEAM_ELEV
  | TPL_BEAM_AZ
  | ING_COMMIT
  | ING_STATUS_COMMIT_PENDING
  | ING_STATUS_CFG_ERR
  | ING_STATUS_ERR_ENTRY
  | ING_STATUS_ERR_CAUSE
  | ING_LOAD
  | ING_RX_UNMATCHED
  | ING_RX_BAD
  | ING_KEEPER_DROP
  | SC_STATUS_OPEN
  | SC_STATUS_BUF_WAIT
  | SC_STATUS_HELD
  | SC_STATUS_NEW_SET
  | SC_SEQ
  | SC_OPEN_COUNT
  | SC_PKTS
  | SC_DROP_UNPARSED
  | SC_DROP_DUP
  | SC_DROP_TIME
  | SC_DROP_CAP
  | SC_DROP_POSE
  | SC_DROP_BUSY
  | SC_DROP_NOBUF
  | SC_NORETURN
  | SC_REORDER
  | SC_SEAL_MERGED
  | SC_POSE_REJECT
  | SC_WRITE_ERR
  | ENG_STATUS_STATE
  | ENG_STATUS_GANGED
  | ENG_STATUS_AXIS
  | ENG_STATUS_MODE
  | ENG_STATUS_STAGED
  | ENG_STATUS_WEIGHTS
  | ENG_STATUS_SAT
  | ENG_STATUS_INFLIGHT
  | ENG_RESUME_ROW
  | ENG_PASSES
  | ENG_PREEMPTS
  | ENG_ROWS
  | ENG_LOAD_BUBBLE
  | ENG_FEED_STALL
  | ENG_DRAIN_STEPS
  | ENG_LOUVRE_GATED
  | ENG_OUT_STALL
  | ENG_FAULTS
  | ENG_RERUNS
  | ENG_FAULT_INFO_KIND
  | ENG_FAULT_INFO_ROW
  | ENG_FAULT_INFO_COL
  | VU_FLAGS_INVALID
  | VU_FLAGS_OVERFLOW
  | VU_FLAGS_SAT
  | VU_SR_STATE
  | VU_SAT_COUNT
  | VU_NAN_COUNT
  | SPX_CTRL_THRESH
  | SPX_CTRL_SKIP
  | SPX_TILES_SPARSE
  | SPX_TILES_DENSE
  | SPX_ROWS_SKIPPED
  | SPX_WR_BITMAP
  | SPX_WR_RAW
  | SPX_TILE_ERR
  | SPX_BYTES_SAVED
  | NS_SITES_OUT
  | NS_PAIRS
  | NS_PAIRS_DROPPED
  | NS_GATHER_ROWS
  | NS_SCATTER_ROWS
  | NS_DIST_ROWS
  | NS_DIST_ADMITS
  | NS_TOPK_ELEMS
  | NS_STALE
  | BC_EN
  | BC_PARTITION
  | BC_COMMIT_PENDING
  | BC_STEP_RUNNING
  | BC_TRIGGER
  | BC_WINDOW_US
  | BC_MAX_TOKENS
  | BC_DEADLINE_MS
  | BC_OCCUPIED
  | BC_WAITING
  | BC_DESC_BASE
  | BC_COMMIT
  | BC_DONE
  | BC_STEPS
  | BC_ROWS
  | BC_REFUSED
  | BC_BAD_DONE
  | PRD_VALID
  | PRD_FALLBACK
  | PRD_COMMIT_PENDING
  | PRD_REENABLE_PENDING
  | PRD_SLICE
  | PRD_WINDOW_LOG2
  | PRD_THRESH
  | PRD_EPS
  | PRD_LIMIT
  | PRD_BURST
  | PRD_AUDITED
  | PRD_MISSES
  | PRD_LAST_RATE
  | PRD_FALLBACKS
  | PRD_COMMIT
  | PRD_REENABLE
  | CORE_ID_PHYS
  | CORE_ID_LOGICAL
  | CORE_ID_DIE
  | CORE_ID_ENGINES
  | CORE_STATUS_BUSY
  | CORE_STATUS_PREEMPTED
  | CORE_STATUS_FENCED
  | SQ_STOP
  | SQ_CMDS
  | SQ_PREEMPTS
  | SQ_ERRORS
  | SQ_CONT_ERRORS
  | SEM_VALUE
  | SEM_SET_NO
  | SEM_SET_VALUE
  | CTX_STATE
  | CTX_PART
  | CTX_SAFETY
  | CTX_LOOPS
  | CTX_PC
  | CTX_BASE
  | CTX_JOB
  | CTX_CFLAGS
  | CTX_ERR_CODE
  | CTX_ERR_OPCODE
  | CTX_ERR_ADDR
  | CTX_ERR_DETAIL
  | CTX_CNT
  | CTX_CMDS
  | STG_GEOM_W_KIB
  | STG_GEOM_W_BANKS
  | STG_GEOM_W_GROUPS
  | STG_GEOM_A_KIB
  | STG_GEOM_A_BANKS
  | STG_GEOM_A_GROUPS
  | STG_GEOM_P_KIB
  | STG_GEOM_P_BANKS
  | STG_GEOM_P_GROUPS
  | STG_GEOM_ROW_BYTES
  | STG_GEOM_GROUP_BANKS
  | STG_SHUT_W
  | STG_SHUT_A
  | STG_SHUT_P
  | STG_STATE_W
  | STG_STATE_A
  | STG_STATE_P
  | STG_CONFLICT_W
  | STG_CONFLICT_A
  | STG_CONFLICT_P
  | STG_NARROW_WAIT
  | STG_NARROW_FORCED
  | STG_CRC_RETRY
  | STG_CRC_FAIL
  | STG_CRC_LAST
  | STG_POISON_READS
  | STG_SHUT_REFUSED
  | STG_WK_HELD
  | STG_WK_WAITING
  | STG_WK_GRANTS
  | STG_WK_REFUSED
  | WK_VALID
  | WK_STORE
  | WK_CORE
  | WK_DIE
  | WK_CTX
  | WK_OFFSET
  | WK_LENGTH
  | VT_GEOM_KIB
  | VT_GEOM_BANKS
  | VT_GEOM_SEGMENTS
  | VT_SHUT
  | VT_STATE
  | VT_CONFLICT
  | VT_CRC_RETRY
  | VT_CRC_FAIL
  | VT_CRC_LAST
  | VT_SHUT_REFUSED
  | VT_SLOT_OPS
  | VT_ADDS
  | FAB_RD_INFLIGHT
  | FAB_WR_INFLIGHT
  | FAB_TAG_WAIT
  | FAB_RELAYED
  | FAB_LINK_ABORTS
  | HBM_STATUS_STATE
  | HBM_STATUS_IMBALANCE
  | HBM_STATUS_SCRUB_DONE
  | HBM_HASH_M
  | HBM_IMB_SHARE
  | HBM_IMB_LIMIT
  | HBM_IMB_WINDOWS
  | HBM_CE
  | HBM_UE
  | HBM_UE_ADDR
  | HBM_CH_GRANULES
  | IGN_STATUS_STATE
  | IGN_STATUS_PEER_DIE
  | IGN_STATUS_PEER_PORT
  | IGN_STATUS_UNUSED
  | IGN_LANES_TX
  | IGN_LANES_RX
  | IGN_CRC_ERR
  | IGN_REPLAYS
  | IGN_RETRAINS
  | IGN_BLOCKS_TX
  | IGN_BLOCKS_RX
  | CH_VALID
  | CH_KIND
  | CH_PARTITION
  | CH_DIE
  | CH_PORT
  | CH_IPV6
  | CH_VLAN_EN
  | CH_VLAN_ID
  | CH_UDP_LOCAL
  | CH_UDP_PEER
  | CH_PEER_ADDR
  | CH_CLASS
  | CH_TO_CLASS
  | CH_TRIGGER
  | CH_REQ_MAX
  | CH_CHSEQ
  | CH_BAD
  | CH_REQ_EXPECT
  | PT_STATE
  | PT_SAFETY
  | PT_SLOT_LOG2
  | PT_EPOCH
  | PT_SEQ
  | PT_JSEQ
  | PT_RING_BASE
  | PT_MIRROR_BASE
  | PT_OPEN
  | PT_WITHDRAWN
  | PT_LATE
  | PT_RESENDS
  | PT_RESEND_MISS
  | PT_POST_ERRORS
  | JOB_COMMIT
  | JOB_STATUS_COMMIT_PENDING
  | JOB_STATUS_CFG_ERR
  | JOB_STATUS_ERR_PART
  | JOB_FIRE
  | JOB_FIRE_REFUSED
  | JT_VALID
  | JT_KIND
  | JT_PARTITION
  | JT_DEPTH
  | JT_CHANNEL
  | JT_HELD
  | JT_SKIPPED
  | JT_DESC
  | BELL_DOORBELL
  | BELL_HOLD_SET
  | BELL_HOLD_CLR
  | BELL_HOLDING
  | BELL_BAD
  | BELL_MERGED
  | BELL_BAD_COMPLETE
  | BELL_PEND
  | BELL_MASK
  | BELL_RAW
  | BELL_ACTIVE
  | LATCH_CFG_EDGE
  | LATCH_EDGES
  | LATCH_LEVEL
  | BELL_TGT_KIND
  | BELL_TGT_INDEX
  | BELL_TGT_PRIO
  | BELL_REC
  | BELL_CLAIM
  | BELL_COMPLETE
  | BELL_TCTL_NEST
  | BELL_TCTL_LEVEL
  | BELL_TCTL_ACTIVE
  | BELL_TCTL_DEPTH
  | BELL_MOD_US
  | BELL_MOD_COUNT
  | BELL_MOD_HELD
  | BELL_MOD_ARMED
  | ULS_SAFE_PARTS
  | ULS_SAFE_CAUSE
  | ULS_SAFE_PART
  | ULS_COMMIT
  | ULS_STATUS_COMMIT_PENDING
  | ULS_STATUS_ALIVE
  | ULS_STATUS_CFG_ERR
  | ULS_STATUS_ERR_ENTRY
  | ULS_STATUS_ERR_CAUSE
  | ULS_SAFE_REQ
  | ULS_SAFE_REL
  | ULS_KEEPER_BEAT
  | ULS_EVALS
  | ULS_DISAGREE
  | ULS_MODEL_DISAGREE
  | ULS_NET_BAD
  | SF_EN
  | SF_PORT
  | SF_IPV6
  | SF_VLAN_EN
  | SF_VLAN_ID
  | SF_UDP_LOCAL
  | SF_UDP_PEER
  | SF_PEER_ADDR
  | SF_CONN_ID
  | SF_CRC_SEED
  | SF_HEARTBEAT_MS
  | SF_SEQ
  | ZN_VALID
  | ZN_KIND
  | ZN_PARTITION
  | ZN_NVERT
  | ZN_TIME_REQ
  | ZN_GROUP
  | ZN_LEAD
  | ZN_THRESH
  | ZN_FTTI_MS
  | ZN_STREAMS
  | ZN_ZLO
  | ZN_ZHI
  | ZN_TRIG
  | ZN_TRIG_DIE
  | ZN_K
  | ZN_N
  | ZN_MISS_LIMIT
  | ZN_LOSS_MAX
  | ZN_NET_FSEQ
  | ZN_NET_OCCUPIED
  | ZN_STATUS_CLEAR
  | ZN_STATUS_DISAGREE
  | ZN_STATUS_CAUSE
  | ZN_MISSES
  | ZN_COUNT
  | ZN_FSEQ
  | ZN_HIST
  | ZN_LAST_CLEAR
  | ZN_VX
  | ZN_VY
  | PG_ENGINES_LO
  | PG_ENGINES_HI
  | PG_LIST
  | PG_PARTITION
  | PG_SLACK_US
  | PG_ROWS
  | PG_GOLDEN
  | PG_OUT
  | PRF_LAST
  | PRF_STATE
  | PRF_MISSED
  | PRF_PASSES
  | PRF_MERGED
  | BS_EN
  | BS_REF
  | BS_TEST
  | BS_PAT_N
  | BS_PAT_IN
  | BS_REF_MIN
  | BS_REF_MAX
  | BS_PAT_BASE
  | BS_STATE_OK
  | BS_STATE_WHY
  | BS_FAILS
  | BS_LAST_REF
  | MUL_VALID
  | MUL_SAFE_WRITE
  | MUL_READ
  | MUL_WRITE
  | MUL_BASE
  | MUL_LIMIT
  | MUL_COMMIT
  | MUL_STATUS_COMMIT_PENDING
  | MUL_REFUSED
  | MUL_LAST_ADDR
  | MUL_LAST_TAG
  | MUL_LAST_WRITE
  | HG_PHYS
  | HG_VALID
  | HG_PART
  | HG_MOVED
  | FLT_FENCED_ENG_LO
  | FLT_FENCED_ENG_HI
  | FLT_FENCED_CORES
  | FLT_RETIRED_SEG
  | FLT_DIE_FAILED
  | FLT_ENG_LIMIT
  | FLT_CE_ROW_LIMIT
  | FLT_SEQ
  | FLT_COUNT
  | FLT_LAST
  | FUSE_ORDER
  | FUSE_DIES
  | FUSE_SEALED
  | FUSE_OWNED
  | FUSE_DECOMM
  | FUSE_ENG_MASK
  | FUSE_DEV_HASH
  | FUSE_OWNER_HASH
  | FUSE_RB
  | SEC_SLOT
  | SEC_TRIAL
  | SEC_STATE
  | SEC_STATUS_A
  | SEC_STATUS_B
  | SEC_RANDOM
  | TR_REQ
  | TR_RSP
  | TR_GO
  | TR_STATE
  | TR_DONE
  | TR_BUSY_DROP
  | TR_NONCE
  | PWR_DOM_ON
  | PWR_EST
  | PWR_LIMIT
  | LV_FLOOR
  | LV_GATE
  | LV_POWER
  | LV_THERMAL
  | TH_SENSOR
  | TH_WARN
  | TH_CRIT
  | TH_MAX
  | PKG_REQ
  | PKG_STATE
  | PKG_REQ_ERR
  | PKG_WAKE_CAUSE
  | PKG_WAKE_LATCH
  | PKG_WAKE_AT
  | ETH_STATUS_LINK
  | ETH_STATUS_SPEED
  | ETH_STATUS_SECURE
  | ETH_STATUS_PEERS
  | ETH_RX_FRAMES
  | ETH_TX_FRAMES
  | ETH_RX_ICV_FAIL
  | ETH_RX_REPLAY
  | ETH_RX_UNPROTECTED
  | ETH_FEC_UNCORR
  | PCIE_APT_BASE
  | PCIE_STATUS_DSTATE
  | PCIE_STATUS_LINK
  | PCIE_STATUS_WIDTH
  | PCIE_STATUS_GEN
  | PCIE_ERR
  /-- 02 R45: fraction bits of device time below TIME_NOW_FRAC (the unit keeps 32) -/
  | I_TIME_LOW
  /-- 02 R66: ticks of the 500 MHz timebase counted by the die -/
  | I_TICKS
  /-- 02 R49: magnitude of the offset still to be applied, unit 2^-32 ns -/
  | I_SLEW_MAG
  /-- 02 R49: sign of the offset still to be applied -/
  | I_SLEW_NEG
  /-- 02 R66: ticks since the last write to TIME_INCR, TIME_ADJ or TIME_SERVO -/
  | I_SILENCE
  /-- 02 R67: ticks since holdover was entered -/
  | I_HOLD
  /-- 02 R53: latest instant that has fired or been passed (TS64) -/
  | I_PTP_LATEST
  /-- 02 R75: tick of the last packet of the master's stream -/
  | I_PM_PKT_TICK
  /-- 02 R75: tick at which coasting began -/
  | I_PM_COAST_TICK
  /-- 02 R76: whole revolutions advanced while coasting -/
  | I_PM_COAST_TURNS
  /-- 02 R76: part of a revolution advanced while coasting beyond the whole ones, in phase units -/
  | I_PM_COAST_PART
  /-- 02 PM_MEAS_PERIOD_NS: tick of the last wrap -/
  | I_PM_REV_TIME
  /-- 02 R75: a wrap has been seen, so that the next one completes a revolution -/
  | I_PM_WRAPPED
  /-- 02 R75: the master has completed a revolution -/
  | I_PM_HAS_REV
  /-- 02 R828: latest device time that a PTP-modulo master has reached (TS64) -/
  | I_PM_TIME
  /-- 02 R71, R829: the master has taken a phase since its active set came in force -/
  | I_PM_STARTED
  /-- 02 R57: TIME_STEP_COUNT when the entry last fired -/
  | I_PE_STEPS
  /-- 02 R53, R85, R830: the PTP-instant entry has fired or was past under the active table -/
  | I_PE_DONE
  /-- 03 R150: the entry has taken the last committed set -/
  | I_SC_TAKEN
  /-- 03 R144: highest sequence value accepted -/
  | I_SC_HIGH_SEQ
  /-- 03 R143: a sequence value has been accepted -/
  | I_SC_SEQ_SEEN
  /-- 03 R131: address at which ingest wrote the current frame of each buffer -/
  | I_SC_BUF_ADDR
  /-- 03 ING_LOAD: points decoded in the running millisecond -/
  | I_ING_DECODED
  /-- 03 ING_LOAD: millisecond of device time being counted -/
  | I_ING_MS
  /-- 10 R466: number given to the next command in flight of the package -/
  | I_NEXT_ID
  /-- 11 R527: one more than the partition that the core last served (0 = none) -/
  | I_CTX_LAST_PART
  /-- 09 R413: PREDICTs in the open window -/
  | I_PRD_PREDICTS
  /-- 09 R415: PRD_FALLBACK was set after the write to PRD_REENABLE that is pending -/
  | I_PRD_KEEP
  /-- 11 R523, R524: bit g = W-store group g was OFF without retention since it left ON -/
  | I_SHUT_LOST_W
  /-- 11 R523: as above for A-store groups -/
  | I_SHUT_LOST_A
  /-- 11 R523: as above for P-store groups -/
  | I_SHUT_LOST_P
  /-- 11 R523: as above for vault segments -/
  | I_SHUT_LOST_V
  /-- 12 R543: granules served per channel in the running window -/
  | I_HBM_CNT
  /-- 12 R544: consecutive qualifying windows above the limit -/
  | I_HBM_OVER
  /-- 12 R548: words scrubbed in the running pass -/
  | I_HBM_SCRUBBED
  /-- 12 R551: SEQ of the last block sent -/
  | I_IGN_TX_SEQ
  /-- 12 R555: SEQ of the last block acknowledged by the far end -/
  | I_IGN_ACKED
  /-- 12 R553: SEQ of the last block accepted -/
  | I_IGN_RX_SEQ
  /-- 12 R556: times the oldest unacknowledged block has been sent again -/
  | I_IGN_RESENT
  /-- 12 R554: blocks are discarded until the expected SEQ arrives -/
  | I_IGN_SKIP
  /-- 12 R561: one more than the tick at which the link went down (0 = not down since) -/
  | I_IGN_DOWN_TICK
  /-- 14 R612: held set of word w -/
  | I_BELL_HELD
  /-- 14 R621: target that claimed an active source -/
  | I_BELL_ACT_TGT
  /-- 14 R622: priority with which an active source was claimed -/
  | I_BELL_ACT_PRIO
  /-- 14 R628: arrivals on the vector since it was armed -/
  | I_MOD_SEEN
  /-- 14 R628: tick of the first such arrival -/
  | I_MOD_TICK
  /-- 14 R628: BELL_MOD_US in force since the arming -/
  | I_MOD_US
  /-- 14 R628: BELL_MOD_COUNT in force since the arming -/
  | I_MOD_COUNT
  /-- 14 R633: MSI-X enabled in the function -/
  | I_MSIX_EN
  /-- 14 R630: MSI-X function mask -/
  | I_MSIX_FMASK
  /-- 14 R630: mask bit of the vector's MSI-X table entry -/
  | I_MSIX_MASK
  /-- 14 R630: pending bit array of MSI-X -/
  | I_MSIX_PBA
  /-- 14 R632: PME_En -/
  | I_PME_EN
  /-- 14 R632: PME_Status -/
  | I_PME_STATUS
  /-- 14 R632: WAKE# is asserted -/
  | I_WAKE
  /-- 18 R752: PERST# is asserted -/
  | I_PERST
  /-- 15 R682: an evaluation with no cause other than CHECKER or NET since the safe state was entered -/
  | I_ZN_FRESH
  /-- 15 R653: points of the stream inside its reference zone since the previous check -/
  | I_BS_REF
  /-- 15 R654: number of the newest failed check while its failure is outstanding, else 0 -/
  | I_BS_FAILED
  /-- 15 R653: number of the stream's newest check -/
  | I_BS_CHECK
  /-- 15 R663: a proof of the engine is requested and has not ended -/
  | I_PRF_REQ
  /-- 15 R678: partitions held by REQUEST (kept on die 0) -/
  | I_SAFE_REQ
  /-- 15 ULS_SAFE_PARTS of the package before the die views are taken -/
  | I_SAFE
  /-- 15 R673: some exit from the safe state has happened since cold reset -/
  | I_SAFE_EXITED
  /-- 15 R671: level of ALIVE_A -/
  | I_ALIVE_A
  /-- 15 R671: level of ALIVE_B -/
  | I_ALIVE_B
  /-- 15 R672: tick of the last island heartbeat of the die -/
  | I_HEARTBEAT
  /-- 15 R672: tick of the last Keeper beat of the die -/
  | I_KEEPER_BEAT
  /-- 15 R674: tick of the last safety frame of the partition -/
  | I_SF_TICK
  /-- 15 R675 SAFE_CAUSE: last safe-state cause of the partition -/
  | I_SF_CAUSE
  /-- 15 R675 CLEAR: TS64 of the zone's newest evaluation -/
  | I_ZN_LAST_EVAL
  /-- 15 R665: TS64 of the first pass of the engine.s unbroken run of passing proofs -/
  | I_PRF_SINCE
  /-- 09 R394: number of the class's next step -/
  | I_BC_STEP
  /-- 15 ULS_COMMIT: the entry has not yet taken the pending set: zones 0 to 63, groups 64 to 127, streams 128 to 175, safety frames 176 to 183 -/
  | I_ULS_WAIT
  /-- 15 R675 HEARTBEAT: a guard zone of the partition was evaluated since the last safety frame -/
  | I_SF_EVAL
  /-- 18 R770: a restart of the partition is requested and not done -/
  | I_RESTART_PART
  /-- 15 R681: tick of its trigger -/
  | I_RESTART_PART_AT
  /-- 18 R770: a package warm restart is requested and not done -/
  | I_RESTART_WARM
  /-- 15 R681: tick of its trigger -/
  | I_RESTART_WARM_AT
  /-- 18 R770: a cold start is requested and not done -/
  | I_RESTART_COLD
  /-- 18 R778: the device is held in cold reset -/
  | I_HELD_COLD
  /-- 18 R763: stopped by a thermal trip -/
  | I_TRIPPED
  /-- 20 R811: level of THERM_TRIP_N -/
  | I_THERM_TRIP_N
  /-- 18 R760: hottest reading of the last sample (two's complement) -/
  | I_TH_HOT
  /-- 18 R760: a sample has been taken since cold reset -/
  | I_TH_SAMPLED
  /-- 17 R745: the port (2: management) stopped passing frames because its live-peer list stayed empty -/
  | I_MKA_SILENT
  /-- 19 R787: the management port has a link; it has no registers in the window -/
  | I_MG_LINK
  /-- 17 R742: a SAK is installed on the management port -/
  | I_MG_SECURE
  /-- 17 R745: MKA live peers of the management port -/
  | I_MG_PEERS
  /-- 17 R744: number of the SAK in use on the port (2: management; 0 = none) -/
  | I_ETH_SAK
  /-- 17 R710, R714: size of the configuration store in MiB, as the board fits it -/
  | I_STORE_MIB
  /-- 17 R750: failed test responses since cold start -/
  | I_TEST_LEFT
  /-- 17 R739: a slot is open for writing -/
  | I_SLOT_OPEN
  /-- 17 R739: IMAGE_END returned OK on the slot not booted -/
  | I_SLOT_OK
  /-- 17 R739: image length given by IMAGE_BEGIN -/
  | I_SLOT_LEN
  /-- 17 R741: an image is running -/
  | I_IMAGE_RUNS
  /-- 13 R602: bit t = trigger t has not yet taken the pending set -/
  | I_JT_WAIT
  /-- 13 R602: bit c = channel c has not yet taken the pending set -/
  | I_CH_WAIT
  /-- 13 R602: bit p = partition p has not yet taken the pending set -/
  | I_PT_WAIT
  /-- 17 R739 GET_PARTS: one more than the index of the selected variant (0 = none) -/
  | I_PT_VARIANT
deriving DecidableEq, Repr

/-- Where a field lies and how it behaves. -/
structure FldInfo where
  /-- Register-window offset of the first register that holds the field. -/
  base : Nat
  /-- Entries and spacing of each table level, outermost first. -/
  dims : List (Nat × Nat)
  /-- Lowest bit of the field in its register. -/
  lo : Nat
  /-- Bits of the field. -/
  width : Nat
  /-- The register is 64 bits wide (00_scope.md R8). -/
  wide : Bool
  /-- Access code (R7). -/
  acc : Access
  /-- Reset value (R15). -/
  reset : Nat
  /-- Shadow set (R16). -/
  set : ShadowSet
  /-- The field exists on die 0 only. -/
  die0 : Bool
deriving DecidableEq, Repr

/-- The field's row of its register table. -/
def Fld.info : Fld → FldInfo
  | .TIME_NOW_SEC => ⟨0x20000, [], 0, 64, true, .ro, 0, .plain, false⟩
  | .TIME_NOW_NS => ⟨0x20008, [], 0, 30, false, .ro, 0, .plain, false⟩
  | .TIME_NOW_FRAC => ⟨0x2000c, [], 0, 16, false, .ro, 0, .plain, false⟩
  | .TIME_INCR => ⟨0x20010, [], 0, 36, true, .rw, 0x200000000, .plain, false⟩
  | .TIME_ADJ => ⟨0x20018, [], 0, 32, false, .rw, 0, .plain, false⟩
  | .TIME_SET_SEC => ⟨0x20020, [], 0, 64, true, .rw, 0, .timeStep, false⟩
  | .TIME_SET_NS => ⟨0x20028, [], 0, 30, false, .rw, 0, .timeStep, false⟩
  | .TIME_SET_FRAC => ⟨0x2002c, [], 0, 16, false, .rw, 0, .timeStep, false⟩
  | .TIME_SET_COMMIT => ⟨0x20030, [], 0, 32, false, .wc, 0, .plain, false⟩
  | .TIME_STATUS_SYNC => ⟨0x20034, [], 0, 2, false, .ro, 0, .plain, false⟩
  | .TIME_STATUS_SLEWING => ⟨0x20034, [], 2, 1, false, .ro, 0, .plain, false⟩
  | .TIME_STATUS_COMMIT_PENDING => ⟨0x20034, [], 3, 1, false, .ro, 0, .plain, false⟩
  | .TIME_WATCH_SERVO_MS => ⟨0x20038, [], 0, 16, false, .rw, 0x3e8, .plain, false⟩
  | .TIME_WATCH_HOLD_S => ⟨0x20038, [], 16, 15, false, .rw, 0x12c, .plain, false⟩
  | .TIME_WATCH_EN => ⟨0x20038, [], 31, 1, false, .rw, 0, .plain, false⟩
  | .TIME_SERVO => ⟨0x2003c, [], 0, 2, false, .wo, 0, .plain, false⟩
  | .TIME_STEP_COUNT => ⟨0x20040, [], 0, 32, false, .ro, 0, .plain, false⟩
  | .TSF_STATUS_COUNT => ⟨0x20400, [(3, 0x20)], 0, 7, false, .ro, 0, .plain, false⟩
  | .TSF_STATUS_LOST => ⟨0x20400, [(3, 0x20)], 16, 16, false, .rc, 0, .plain, false⟩
  | .TSF_SEC => ⟨0x20408, [(3, 0x20)], 0, 64, true, .ro, 0, .plain, false⟩
  | .TSF_NS => ⟨0x20410, [(3, 0x20)], 0, 30, false, .ro, 0, .plain, false⟩
  | .TSF_FRAC => ⟨0x20414, [(3, 0x20)], 0, 16, false, .ro, 0, .plain, false⟩
  | .TSF_ID_SEQ => ⟨0x20418, [(3, 0x20)], 0, 16, false, .ro, 0, .plain, false⟩
  | .TSF_ID_TYPE => ⟨0x20418, [(3, 0x20)], 16, 4, false, .ro, 0, .plain, false⟩
  | .TSF_ID_DOMAIN => ⟨0x20418, [(3, 0x20)], 20, 8, false, .ro, 0, .plain, false⟩
  | .TSF_POP => ⟨0x2041c, [(3, 0x20)], 0, 32, false, .wo, 0, .plain, false⟩
  | .PM_CTRL_KIND => ⟨0x20100, [(16, 0x20)], 0, 2, false, .rw, 0, .pm, false⟩
  | .PM_CTRL_STREAM => ⟨0x20100, [(16, 0x20)], 8, 6, false, .rw, 0, .pm, false⟩
  | .PM_CTRL_OFFSET => ⟨0x20100, [(16, 0x20)], 16, 16, false, .rw, 0, .pm, false⟩
  | .PM_PERIOD_NS => ⟨0x20104, [(16, 0x20)], 0, 32, false, .rw, 0, .pm, false⟩
  | .PM_TIMEOUT_US => ⟨0x20108, [(16, 0x20)], 0, 16, false, .rw, 0, .pm, false⟩
  | .PM_TIMEOUT_REVS => ⟨0x20108, [(16, 0x20)], 16, 8, false, .rw, 0, .pm, false⟩
  | .PM_COMMIT => ⟨0x2010c, [(16, 0x20)], 0, 32, false, .wc, 0, .plain, false⟩
  | .PM_STATUS_PHASE => ⟨0x20110, [(16, 0x20)], 0, 16, false, .ro, 0, .plain, false⟩
  | .PM_STATUS_STATE => ⟨0x20110, [(16, 0x20)], 16, 2, false, .ro, 0, .plain, false⟩
  | .PM_STATUS_COMMIT_PENDING => ⟨0x20110, [(16, 0x20)], 18, 1, false, .ro, 0, .plain, false⟩
  | .PM_STATUS_HOLDING => ⟨0x20110, [(16, 0x20)], 19, 1, false, .ro, 0, .plain, false⟩
  | .PM_REVS => ⟨0x20114, [(16, 0x20)], 0, 32, false, .ro, 0, .plain, false⟩
  | .PM_MEAS_PERIOD_NS => ⟨0x20118, [(16, 0x20)], 0, 32, false, .ro, 0, .plain, false⟩
  | .PM_BACKSTEPS => ⟨0x2011c, [(16, 0x20)], 0, 32, false, .rc, 0, .plain, false⟩
  | .PE_VALID => ⟨0x21000, [(256, 0x10)], 0, 1, false, .rw, 0, .pe, false⟩
  | .PE_KIND => ⟨0x21000, [(256, 0x10)], 1, 3, false, .rw, 0, .pe, false⟩
  | .PE_BASE => ⟨0x21000, [(256, 0x10)], 4, 1, false, .rw, 0, .pe, false⟩
  | .PE_MASTER => ⟨0x21000, [(256, 0x10)], 8, 4, false, .rw, 0, .pe, false⟩
  | .PE_PHASE => ⟨0x21000, [(256, 0x10)], 16, 16, false, .rw, 0, .pe, false⟩
  | .PE_TARGET => ⟨0x21004, [(256, 0x10)], 0, 16, false, .rw, 0, .pe, false⟩
  | .PE_TARGET_DIE => ⟨0x21004, [(256, 0x10)], 16, 3, false, .rw, 0, .pe, false⟩
  | .PE_INSTANT => ⟨0x21008, [(256, 0x10)], 0, 64, true, .rw, 0, .pe, false⟩
  | .PE_COMMIT => ⟨0x20800, [], 0, 32, false, .wc, 0, .plain, false⟩
  | .PE_STATUS_COMMIT_PENDING => ⟨0x20804, [], 0, 1, false, .ro, 0, .plain, false⟩
  | .PE_FIRED => ⟨0x20a00, [(8, 0x4)], 0, 32, false, .rc, 0, .plain, false⟩
  | .PE_PAST => ⟨0x20a20, [(8, 0x4)], 0, 32, false, .rc, 0, .plain, false⟩
  | .SE_VALID => ⟨0x32000, [(48, 0x80)], 0, 1, false, .rw, 0, .ing, false⟩
  | .SE_KIND => ⟨0x32000, [(48, 0x80)], 1, 2, false, .rw, 0, .ing, false⟩
  | .SE_PORT => ⟨0x32000, [(48, 0x80)], 3, 1, false, .rw, 0, .ing, false⟩
  | .SE_IPV6 => ⟨0x32000, [(48, 0x80)], 4, 1, false, .rw, 0, .ing, false⟩
  | .SE_VLAN_EN => ⟨0x32000, [(48, 0x80)], 5, 1, false, .rw, 0, .ing, false⟩
  | .SE_SRCPORT_EN => ⟨0x32000, [(48, 0x80)], 6, 1, false, .rw, 0, .ing, false⟩
  | .SE_SAFETY => ⟨0x32000, [(48, 0x80)], 7, 1, false, .rw, 0, .ing, false⟩
  | .SE_PRIORITY => ⟨0x32000, [(48, 0x80)], 8, 3, false, .rw, 0, .ing, false⟩
  | .SE_PARTITION => ⟨0x32000, [(48, 0x80)], 12, 3, false, .rw, 0, .ing, false⟩
  | .SE_VLAN_ID => ⟨0x32000, [(48, 0x80)], 16, 12, false, .rw, 0, .ing, false⟩
  | .SE_UDP_DST => ⟨0x32004, [(48, 0x80)], 0, 16, false, .rw, 0, .ing, false⟩
  | .SE_UDP_SRC => ⟨0x32004, [(48, 0x80)], 16, 16, false, .rw, 0, .ing, false⟩
  | .SE_SRC_ADDR => ⟨0x32008, [(48, 0x80), (4, 0x4)], 0, 32, false, .rw, 0, .ing, false⟩
  | .SE_STREAM_ID => ⟨0x32018, [(48, 0x80)], 0, 8, false, .rw, 0, .ing, false⟩
  | .SE_TEMPLATE => ⟨0x32018, [(48, 0x80)], 8, 4, false, .rw, 0, .ing, false⟩
  | .SE_MASTER => ⟨0x32018, [(48, 0x80)], 12, 4, false, .rw, 0, .ing, false⟩
  | .SE_POSE => ⟨0x32018, [(48, 0x80)], 16, 6, false, .rw, 0, .ing, false⟩
  | .SE_CAP => ⟨0x3201c, [(48, 0x80)], 0, 19, false, .rw, 0, .ing, false⟩
  | .SE_BUF_BASE => ⟨0x32020, [(48, 0x80)], 0, 64, true, .rw, 0, .ing, false⟩
  | .SE_HDR_BASE => ⟨0x32028, [(48, 0x80)], 0, 64, true, .rw, 0, .ing, false⟩
  | .SE_LEAD_NS => ⟨0x32030, [(48, 0x80)], 0, 32, false, .rw, 0, .ing, false⟩
  | .SE_POSE_HOLD_US => ⟨0x32034, [(48, 0x80)], 0, 16, false, .rw, 0, .ing, false⟩
  | .SE_CHANNELS => ⟨0x32034, [(48, 0x80)], 16, 7, false, .rw, 0, .ing, false⟩
  | .SE_RTP_OFFSET => ⟨0x32038, [(48, 0x80)], 0, 32, false, .rw, 0, .ing, false⟩
  | .SE_CPOSE_T => ⟨0x32040, [(48, 0x80), (3, 0x4)], 0, 32, false, .rw, 0, .ing, false⟩
  | .SE_CPOSE_Q => ⟨0x3204c, [(48, 0x80), (4, 0x4)], 0, 32, false, .rw, 0, .ing, false⟩
  | .TPL_GEOM => ⟨0x31000, [(16, 0x80)], 0, 1, false, .rw, 0, .ing, false⟩
  | .TPL_TIME_SRC => ⟨0x31000, [(16, 0x80)], 1, 2, false, .rw, 0, .ing, false⟩
  | .TPL_HDR_LEN => ⟨0x31004, [(16, 0x80)], 0, 12, false, .rw, 0, .ing, false⟩
  | .TPL_BLOCKS => ⟨0x31004, [(16, 0x80)], 12, 8, false, .rw, 0, .ing, false⟩
  | .TPL_BLOCK_STRIDE => ⟨0x31004, [(16, 0x80)], 20, 12, false, .rw, 0, .ing, false⟩
  | .TPL_POINTS => ⟨0x31008, [(16, 0x80)], 0, 8, false, .rw, 0, .ing, false⟩
  | .TPL_POINT_STRIDE => ⟨0x31008, [(16, 0x80)], 8, 8, false, .rw, 0, .ing, false⟩
  | .TPL_BLOCK_HDR => ⟨0x31008, [(16, 0x80)], 16, 12, false, .rw, 0, .ing, false⟩
  | .TPL_LATENCY_NS => ⟨0x3100c, [(16, 0x80)], 0, 32, false, .rw, 0, .ing, false⟩
  | .TPL_BLOCK_DT_NS => ⟨0x31010, [(16, 0x80)], 0, 32, false, .rw, 0, .ing, false⟩
  | .TPL_POINT_DT_NS => ⟨0x31014, [(16, 0x80)], 0, 32, false, .rw, 0, .ing, false⟩
  | .TPL_MIN_RANGE => ⟨0x31018, [(16, 0x80)], 0, 24, false, .rw, 0, .ing, false⟩
  | .TPL_FIELD => ⟨0x31020, [(16, 0x80), (10, 0x8)], 0, 18, false, .rw, 0, .ing, false⟩
  | .TPL_SCALE => ⟨0x31024, [(16, 0x80), (10, 0x8)], 0, 32, false, .rw, 0, .ing, false⟩
  | .TPL_BEAM_ELEV => ⟨0x38000, [(16, 0x400), (256, 0x4)], 0, 16, false, .rw, 0, .ing, false⟩
  | .TPL_BEAM_AZ => ⟨0x38000, [(16, 0x400), (256, 0x4)], 16, 16, false, .rw, 0, .ing, false⟩
  | .ING_COMMIT => ⟨0x30000, [], 0, 32, false, .wc, 0, .plain, false⟩
  | .ING_STATUS_COMMIT_PENDING => ⟨0x30004, [], 0, 1, false, .ro, 0, .plain, false⟩
  | .ING_STATUS_CFG_ERR => ⟨0x30004, [], 1, 1, false, .ro, 0, .plain, false⟩
  | .ING_STATUS_ERR_ENTRY => ⟨0x30004, [], 2, 6, false, .ro, 0, .plain, false⟩
  | .ING_STATUS_ERR_CAUSE => ⟨0x30004, [], 8, 4, false, .ro, 0, .plain, false⟩
  | .ING_LOAD => ⟨0x30008, [], 0, 28, false, .ro, 0, .plain, false⟩
  | .ING_RX_UNMATCHED => ⟨0x30010, [(2, 0x8)], 0, 32, false, .rc, 0, .plain, false⟩
  | .ING_RX_BAD => ⟨0x30014, [(2, 0x8)], 0, 32, false, .rc, 0, .plain, false⟩
  | .ING_KEEPER_DROP => ⟨0x30020, [], 0, 32, false, .rc, 0, .plain, false⟩
  | .SC_STATUS_OPEN => ⟨0x34000, [(48, 0x40)], 0, 1, false, .ro, 0, .plain, false⟩
  | .SC_STATUS_BUF_WAIT => ⟨0x34000, [(48, 0x40)], 1, 1, false, .ro, 0, .plain, false⟩
  | .SC_STATUS_HELD => ⟨0x34000, [(48, 0x40)], 2, 2, false, .ro, 0, .plain, false⟩
  | .SC_STATUS_NEW_SET => ⟨0x34000, [(48, 0x40)], 4, 1, false, .ro, 0, .plain, false⟩
  | .SC_SEQ => ⟨0x34004, [(48, 0x40)], 0, 32, false, .ro, 0, .plain, false⟩
  | .SC_OPEN_COUNT => ⟨0x34008, [(48, 0x40)], 0, 19, false, .ro, 0, .plain, false⟩
  | .SC_PKTS => ⟨0x3400c, [(48, 0x40)], 0, 32, false, .rc, 0, .plain, false⟩
  | .SC_DROP_UNPARSED => ⟨0x34010, [(48, 0x40)], 0, 32, false, .rc, 0, .plain, false⟩
  | .SC_DROP_DUP => ⟨0x34014, [(48, 0x40)], 0, 32, false, .rc, 0, .plain, false⟩
  | .SC_DROP_TIME => ⟨0x34018, [(48, 0x40)], 0, 32, false, .rc, 0, .plain, false⟩
  | .SC_DROP_CAP => ⟨0x3401c, [(48, 0x40)], 0, 32, false, .rc, 0, .plain, false⟩
  | .SC_DROP_POSE => ⟨0x34020, [(48, 0x40)], 0, 32, false, .rc, 0, .plain, false⟩
  | .SC_DROP_BUSY => ⟨0x34024, [(48, 0x40)], 0, 32, false, .rc, 0, .plain, false⟩
  | .SC_DROP_NOBUF => ⟨0x34028, [(48, 0x40)], 0, 32, false, .rc, 0, .plain, false⟩
  | .SC_NORETURN => ⟨0x3402c, [(48, 0x40)], 0, 32, false, .rc, 0, .plain, false⟩
  | .SC_REORDER => ⟨0x34030, [(48, 0x40)], 0, 32, false, .rc, 0, .plain, false⟩
  | .SC_SEAL_MERGED => ⟨0x34034, [(48, 0x40)], 0, 32, false, .rc, 0, .plain, false⟩
  | .SC_POSE_REJECT => ⟨0x34038, [(48, 0x40)], 0, 32, false, .rc, 0, .plain, false⟩
  | .SC_WRITE_ERR => ⟨0x3403c, [(48, 0x40)], 0, 32, false, .rc, 0, .plain, false⟩
  | .ENG_STATUS_STATE => ⟨0x104000, [(32, 0x10000), (4, 0x100)], 0, 3, false, .ro, 0, .plain, false⟩
  | .ENG_STATUS_GANGED => ⟨0x104000, [(32, 0x10000), (4, 0x100)], 3, 1, false, .ro, 0, .plain, false⟩
  | .ENG_STATUS_AXIS => ⟨0x104000, [(32, 0x10000), (4, 0x100)], 4, 1, false, .ro, 0, .plain, false⟩
  | .ENG_STATUS_MODE => ⟨0x104000, [(32, 0x10000), (4, 0x100)], 5, 2, false, .ro, 0, .plain, false⟩
  | .ENG_STATUS_STAGED => ⟨0x104000, [(32, 0x10000), (4, 0x100)], 7, 1, false, .ro, 0, .plain, false⟩
  | .ENG_STATUS_WEIGHTS => ⟨0x104000, [(32, 0x10000), (4, 0x100)], 8, 1, false, .ro, 0, .plain, false⟩
  | .ENG_STATUS_SAT => ⟨0x104000, [(32, 0x10000), (4, 0x100)], 9, 1, false, .ro, 0, .plain, false⟩
  | .ENG_STATUS_INFLIGHT => ⟨0x104000, [(32, 0x10000), (4, 0x100)], 10, 5, false, .ro, 0, .plain, false⟩
  | .ENG_RESUME_ROW => ⟨0x104004, [(32, 0x10000), (4, 0x100)], 0, 24, false, .ro, 0, .plain, false⟩
  | .ENG_PASSES => ⟨0x104008, [(32, 0x10000), (4, 0x100)], 0, 32, false, .rc, 0, .plain, false⟩
  | .ENG_PREEMPTS => ⟨0x10400c, [(32, 0x10000), (4, 0x100)], 0, 32, false, .rc, 0, .plain, false⟩
  | .ENG_ROWS => ⟨0x104010, [(32, 0x10000), (4, 0x100)], 0, 64, true, .ro, 0, .plain, false⟩
  | .ENG_LOAD_BUBBLE => ⟨0x104018, [(32, 0x10000), (4, 0x100)], 0, 64, true, .ro, 0, .plain, false⟩
  | .ENG_FEED_STALL => ⟨0x104020, [(32, 0x10000), (4, 0x100)], 0, 64, true, .ro, 0, .plain, false⟩
  | .ENG_DRAIN_STEPS => ⟨0x104028, [(32, 0x10000), (4, 0x100)], 0, 64, true, .ro, 0, .plain, false⟩
  | .ENG_LOUVRE_GATED => ⟨0x104030, [(32, 0x10000), (4, 0x100)], 0, 64, true, .ro, 0, .plain, false⟩
  | .ENG_OUT_STALL => ⟨0x104038, [(32, 0x10000), (4, 0x100)], 0, 64, true, .ro, 0, .plain, false⟩
  | .ENG_FAULTS => ⟨0x104040, [(32, 0x10000), (4, 0x100)], 0, 16, false, .rc, 0, .plain, false⟩
  | .ENG_RERUNS => ⟨0x104040, [(32, 0x10000), (4, 0x100)], 16, 16, false, .rc, 0, .plain, false⟩
  | .ENG_FAULT_INFO_KIND => ⟨0x104044, [(32, 0x10000), (4, 0x100)], 0, 2, false, .ro, 0, .plain, false⟩
  | .ENG_FAULT_INFO_ROW => ⟨0x104044, [(32, 0x10000), (4, 0x100)], 8, 6, false, .ro, 0, .plain, false⟩
  | .ENG_FAULT_INFO_COL => ⟨0x104044, [(32, 0x10000), (4, 0x100)], 16, 6, false, .ro, 0, .plain, false⟩
  | .VU_FLAGS_INVALID => ⟨0x105000, [(32, 0x10000)], 0, 1, false, .rc, 0, .plain, false⟩
  | .VU_FLAGS_OVERFLOW => ⟨0x105000, [(32, 0x10000)], 1, 1, false, .rc, 0, .plain, false⟩
  | .VU_FLAGS_SAT => ⟨0x105000, [(32, 0x10000)], 2, 1, false, .rc, 0, .plain, false⟩
  | .VU_SR_STATE => ⟨0x105004, [(32, 0x10000)], 0, 32, false, .ro, 0x6a09e667, .plain, false⟩
  | .VU_SAT_COUNT => ⟨0x105008, [(32, 0x10000)], 0, 32, false, .rc, 0, .plain, false⟩
  | .VU_NAN_COUNT => ⟨0x10500c, [(32, 0x10000)], 0, 32, false, .rc, 0, .plain, false⟩
  | .SPX_CTRL_THRESH => ⟨0x105100, [(32, 0x10000)], 0, 13, false, .rw, 0x800, .plain, false⟩
  | .SPX_CTRL_SKIP => ⟨0x105100, [(32, 0x10000)], 16, 1, false, .rw, 0, .plain, false⟩
  | .SPX_TILES_SPARSE => ⟨0x105104, [(32, 0x10000)], 0, 32, false, .rc, 0, .plain, false⟩
  | .SPX_TILES_DENSE => ⟨0x105108, [(32, 0x10000)], 0, 32, false, .rc, 0, .plain, false⟩
  | .SPX_ROWS_SKIPPED => ⟨0x10510c, [(32, 0x10000)], 0, 32, false, .rc, 0, .plain, false⟩
  | .SPX_WR_BITMAP => ⟨0x105110, [(32, 0x10000)], 0, 32, false, .rc, 0, .plain, false⟩
  | .SPX_WR_RAW => ⟨0x105114, [(32, 0x10000)], 0, 32, false, .rc, 0, .plain, false⟩
  | .SPX_TILE_ERR => ⟨0x105118, [(32, 0x10000)], 0, 32, false, .rc, 0, .plain, false⟩
  | .SPX_BYTES_SAVED => ⟨0x105120, [(32, 0x10000)], 0, 64, true, .ro, 0, .plain, false⟩
  | .NS_SITES_OUT => ⟨0x105200, [(32, 0x10000)], 0, 32, false, .rc, 0, .plain, false⟩
  | .NS_PAIRS => ⟨0x105204, [(32, 0x10000)], 0, 32, false, .rc, 0, .plain, false⟩
  | .NS_PAIRS_DROPPED => ⟨0x105208, [(32, 0x10000)], 0, 32, false, .rc, 0, .plain, false⟩
  | .NS_GATHER_ROWS => ⟨0x10520c, [(32, 0x10000)], 0, 32, false, .rc, 0, .plain, false⟩
  | .NS_SCATTER_ROWS => ⟨0x105210, [(32, 0x10000)], 0, 32, false, .rc, 0, .plain, false⟩
  | .NS_DIST_ROWS => ⟨0x105214, [(32, 0x10000)], 0, 32, false, .rc, 0, .plain, false⟩
  | .NS_DIST_ADMITS => ⟨0x105218, [(32, 0x10000)], 0, 32, false, .rc, 0, .plain, false⟩
  | .NS_TOPK_ELEMS => ⟨0x10521c, [(32, 0x10000)], 0, 32, false, .rc, 0, .plain, false⟩
  | .NS_STALE => ⟨0x105220, [(32, 0x10000)], 0, 16, false, .rc, 0, .plain, false⟩
  | .BC_EN => ⟨0xc4000, [(8, 0x40)], 0, 1, false, .rw, 0, .bc, false⟩
  | .BC_PARTITION => ⟨0xc4000, [(8, 0x40)], 1, 3, false, .rw, 0, .bc, false⟩
  | .BC_COMMIT_PENDING => ⟨0xc4000, [(8, 0x40)], 4, 1, false, .ro, 0, .plain, false⟩
  | .BC_STEP_RUNNING => ⟨0xc4000, [(8, 0x40)], 5, 1, false, .ro, 0, .plain, false⟩
  | .BC_TRIGGER => ⟨0xc4000, [(8, 0x40)], 16, 16, false, .rw, 0, .bc, false⟩
  | .BC_WINDOW_US => ⟨0xc4004, [(8, 0x40)], 0, 16, false, .rw, 0, .bc, false⟩
  | .BC_MAX_TOKENS => ⟨0xc4004, [(8, 0x40)], 16, 16, false, .rw, 0, .bc, false⟩
  | .BC_DEADLINE_MS => ⟨0xc4008, [(8, 0x40)], 0, 16, false, .rw, 0, .bc, false⟩
  | .BC_OCCUPIED => ⟨0xc4008, [(8, 0x40)], 16, 7, false, .ro, 0, .plain, false⟩
  | .BC_WAITING => ⟨0xc4008, [(8, 0x40)], 24, 8, false, .ro, 0, .plain, false⟩
  | .BC_DESC_BASE => ⟨0xc4010, [(8, 0x40)], 0, 64, true, .rw, 0, .bc, false⟩
  | .BC_COMMIT => ⟨0xc4018, [(8, 0x40)], 0, 32, false, .wc, 0, .plain, false⟩
  | .BC_DONE => ⟨0xc401c, [(8, 0x40)], 0, 32, false, .wo, 0, .plain, false⟩
  | .BC_STEPS => ⟨0xc4020, [(8, 0x40)], 0, 32, false, .rc, 0, .plain, false⟩
  | .BC_ROWS => ⟨0xc4024, [(8, 0x40)], 0, 32, false, .rc, 0, .plain, false⟩
  | .BC_REFUSED => ⟨0xc4028, [(8, 0x40)], 0, 32, false, .rc, 0, .plain, false⟩
  | .BC_BAD_DONE => ⟨0xc402c, [(8, 0x40)], 0, 32, false, .rc, 0, .plain, false⟩
  | .PRD_VALID => ⟨0x105300, [(32, 0x10000), (16, 0x40)], 0, 1, false, .rw, 0, .prd, false⟩
  | .PRD_FALLBACK => ⟨0x105300, [(32, 0x10000), (16, 0x40)], 1, 1, false, .ro, 0, .plain, false⟩
  | .PRD_COMMIT_PENDING => ⟨0x105300, [(32, 0x10000), (16, 0x40)], 2, 1, false, .ro, 0, .plain, false⟩
  | .PRD_REENABLE_PENDING => ⟨0x105300, [(32, 0x10000), (16, 0x40)], 3, 1, false, .ro, 0, .plain, false⟩
  | .PRD_SLICE => ⟨0x105300, [(32, 0x10000), (16, 0x40)], 4, 4, false, .ro, 0, .plain, false⟩
  | .PRD_WINDOW_LOG2 => ⟨0x105300, [(32, 0x10000), (16, 0x40)], 8, 4, false, .rw, 0, .prd, false⟩
  | .PRD_THRESH => ⟨0x105304, [(32, 0x10000), (16, 0x40)], 0, 32, false, .rw, 0, .prd, false⟩
  | .PRD_EPS => ⟨0x105308, [(32, 0x10000), (16, 0x40)], 0, 32, false, .rw, 0, .prd, false⟩
  | .PRD_LIMIT => ⟨0x10530c, [(32, 0x10000), (16, 0x40)], 0, 16, false, .rw, 0, .prd, false⟩
  | .PRD_BURST => ⟨0x10530c, [(32, 0x10000), (16, 0x40)], 16, 16, false, .rw, 0, .prd, false⟩
  | .PRD_AUDITED => ⟨0x105310, [(32, 0x10000), (16, 0x40)], 0, 32, false, .ro, 0, .plain, false⟩
  | .PRD_MISSES => ⟨0x105314, [(32, 0x10000), (16, 0x40)], 0, 32, false, .ro, 0, .plain, false⟩
  | .PRD_LAST_RATE => ⟨0x105318, [(32, 0x10000), (16, 0x40)], 0, 16, false, .ro, 0, .plain, false⟩
  | .PRD_FALLBACKS => ⟨0x10531c, [(32, 0x10000), (16, 0x40)], 0, 32, false, .rc, 0, .plain, false⟩
  | .PRD_COMMIT => ⟨0x105320, [(32, 0x10000), (16, 0x40)], 0, 32, false, .wc, 0, .plain, false⟩
  | .PRD_REENABLE => ⟨0x105324, [(32, 0x10000), (16, 0x40)], 0, 32, false, .wo, 0, .plain, false⟩
  | .CORE_ID_PHYS => ⟨0x100000, [(32, 0x10000)], 0, 5, false, .ro, 0, .plain, false⟩
  | .CORE_ID_LOGICAL => ⟨0x100000, [(32, 0x10000)], 5, 5, false, .ro, 0, .plain, false⟩
  | .CORE_ID_DIE => ⟨0x100000, [(32, 0x10000)], 10, 3, false, .ro, 0, .plain, false⟩
  | .CORE_ID_ENGINES => ⟨0x100000, [(32, 0x10000)], 13, 4, false, .ro, 0, .plain, false⟩
  | .CORE_STATUS_BUSY => ⟨0x100004, [(32, 0x10000)], 0, 4, false, .ro, 0, .plain, false⟩
  | .CORE_STATUS_PREEMPTED => ⟨0x100004, [(32, 0x10000)], 4, 4, false, .ro, 0, .plain, false⟩
  | .CORE_STATUS_FENCED => ⟨0x100004, [(32, 0x10000)], 8, 1, false, .ro, 0, .plain, false⟩
  | .SQ_STOP => ⟨0x100008, [(32, 0x10000)], 0, 4, false, .wo, 0, .plain, false⟩
  | .SQ_CMDS => ⟨0x100010, [(32, 0x10000)], 0, 32, false, .rc, 0, .plain, false⟩
  | .SQ_PREEMPTS => ⟨0x100014, [(32, 0x10000)], 0, 32, false, .rc, 0, .plain, false⟩
  | .SQ_ERRORS => ⟨0x100018, [(32, 0x10000)], 0, 32, false, .rc, 0, .plain, false⟩
  | .SQ_CONT_ERRORS => ⟨0x10001c, [(32, 0x10000)], 0, 32, false, .rc, 0, .plain, false⟩
  | .SEM_VALUE => ⟨0x100100, [(32, 0x10000), (32, 0x4)], 0, 16, false, .ro, 0, .plain, false⟩
  | .SEM_SET_NO => ⟨0x100180, [(32, 0x10000)], 0, 5, false, .wo, 0, .plain, false⟩
  | .SEM_SET_VALUE => ⟨0x100180, [(32, 0x10000)], 16, 16, false, .wo, 0, .plain, false⟩
  | .CTX_STATE => ⟨0x101000, [(32, 0x10000), (4, 0x100)], 0, 3, false, .ro, 0, .plain, false⟩
  | .CTX_PART => ⟨0x101000, [(32, 0x10000), (4, 0x100)], 4, 3, false, .ro, 0, .plain, false⟩
  | .CTX_SAFETY => ⟨0x101000, [(32, 0x10000), (4, 0x100)], 7, 1, false, .ro, 0, .plain, false⟩
  | .CTX_LOOPS => ⟨0x101000, [(32, 0x10000), (4, 0x100)], 8, 3, false, .ro, 0, .plain, false⟩
  | .CTX_PC => ⟨0x101004, [(32, 0x10000), (4, 0x100)], 0, 24, false, .ro, 0, .plain, false⟩
  | .CTX_BASE => ⟨0x101008, [(32, 0x10000), (4, 0x100)], 0, 24, false, .rw, 0, .plain, false⟩
  | .CTX_JOB => ⟨0x10100c, [(32, 0x10000), (4, 0x100)], 0, 32, false, .ro, 0, .plain, false⟩
  | .CTX_CFLAGS => ⟨0x101010, [(32, 0x10000), (4, 0x100)], 0, 8, false, .rc, 0, .plain, false⟩
  | .CTX_ERR_CODE => ⟨0x101014, [(32, 0x10000), (4, 0x100)], 0, 8, false, .ro, 0, .plain, false⟩
  | .CTX_ERR_OPCODE => ⟨0x101014, [(32, 0x10000), (4, 0x100)], 8, 8, false, .ro, 0, .plain, false⟩
  | .CTX_ERR_ADDR => ⟨0x101018, [(32, 0x10000), (4, 0x100)], 0, 24, false, .ro, 0, .plain, false⟩
  | .CTX_ERR_DETAIL => ⟨0x10101c, [(32, 0x10000), (4, 0x100)], 0, 32, false, .ro, 0, .plain, false⟩
  | .CTX_CNT => ⟨0x101020, [(32, 0x10000), (4, 0x100), (8, 0x4)], 0, 32, false, .ro, 0, .plain, false⟩
  | .CTX_CMDS => ⟨0x101040, [(32, 0x10000), (4, 0x100)], 0, 32, false, .rc, 0, .plain, false⟩
  | .STG_GEOM_W_KIB => ⟨0x106000, [(32, 0x10000)], 0, 16, false, .ro, 0x800, .plain, false⟩
  | .STG_GEOM_W_BANKS => ⟨0x106000, [(32, 0x10000)], 16, 8, false, .ro, 0x20, .plain, false⟩
  | .STG_GEOM_W_GROUPS => ⟨0x106000, [(32, 0x10000)], 24, 8, false, .ro, 8, .plain, false⟩
  | .STG_GEOM_A_KIB => ⟨0x106004, [(32, 0x10000)], 0, 16, false, .ro, 0x600, .plain, false⟩
  | .STG_GEOM_A_BANKS => ⟨0x106004, [(32, 0x10000)], 16, 8, false, .ro, 0x30, .plain, false⟩
  | .STG_GEOM_A_GROUPS => ⟨0x106004, [(32, 0x10000)], 24, 8, false, .ro, 0xc, .plain, false⟩
  | .STG_GEOM_P_KIB => ⟨0x106008, [(32, 0x10000)], 0, 16, false, .ro, 0x200, .plain, false⟩
  | .STG_GEOM_P_BANKS => ⟨0x106008, [(32, 0x10000)], 16, 8, false, .ro, 0x20, .plain, false⟩
  | .STG_GEOM_P_GROUPS => ⟨0x106008, [(32, 0x10000)], 24, 8, false, .ro, 8, .plain, false⟩
  | .STG_GEOM_ROW_BYTES => ⟨0x10600c, [(32, 0x10000)], 0, 8, false, .ro, 0x40, .plain, false⟩
  | .STG_GEOM_GROUP_BANKS => ⟨0x10600c, [(32, 0x10000)], 8, 8, false, .ro, 4, .plain, false⟩
  | .STG_SHUT_W => ⟨0x106010, [(32, 0x10000)], 0, 16, false, .rw, 0, .plain, false⟩
  | .STG_SHUT_A => ⟨0x106014, [(32, 0x10000)], 0, 24, false, .rw, 0, .plain, false⟩
  | .STG_SHUT_P => ⟨0x106018, [(32, 0x10000)], 0, 16, false, .rw, 0, .plain, false⟩
  | .STG_STATE_W => ⟨0x106020, [(32, 0x10000)], 0, 16, false, .ro, 0, .plain, false⟩
  | .STG_STATE_A => ⟨0x106024, [(32, 0x10000)], 0, 24, false, .ro, 0, .plain, false⟩
  | .STG_STATE_P => ⟨0x106028, [(32, 0x10000)], 0, 16, false, .ro, 0, .plain, false⟩
  | .STG_CONFLICT_W => ⟨0x106030, [(32, 0x10000)], 0, 32, false, .rc, 0, .plain, false⟩
  | .STG_CONFLICT_A => ⟨0x106034, [(32, 0x10000)], 0, 32, false, .rc, 0, .plain, false⟩
  | .STG_CONFLICT_P => ⟨0x106038, [(32, 0x10000)], 0, 32, false, .rc, 0, .plain, false⟩
  | .STG_NARROW_WAIT => ⟨0x10603c, [(32, 0x10000)], 0, 32, false, .rc, 0, .plain, false⟩
  | .STG_NARROW_FORCED => ⟨0x106040, [(32, 0x10000)], 0, 32, false, .rc, 0, .plain, false⟩
  | .STG_CRC_RETRY => ⟨0x106044, [(32, 0x10000)], 0, 32, false, .rc, 0, .plain, false⟩
  | .STG_CRC_FAIL => ⟨0x106048, [(32, 0x10000)], 0, 32, false, .rc, 0, .plain, false⟩
  | .STG_CRC_LAST => ⟨0x10604c, [(32, 0x10000)], 0, 24, false, .ro, 0, .plain, false⟩
  | .STG_POISON_READS => ⟨0x106050, [(32, 0x10000)], 0, 32, false, .rc, 0, .plain, false⟩
  | .STG_SHUT_REFUSED => ⟨0x106054, [(32, 0x10000)], 0, 32, false, .rc, 0, .plain, false⟩
  | .STG_WK_HELD => ⟨0x106058, [(32, 0x10000)], 0, 5, false, .ro, 0, .plain, false⟩
  | .STG_WK_WAITING => ⟨0x106058, [(32, 0x10000)], 8, 8, false, .ro, 0, .plain, false⟩
  | .STG_WK_GRANTS => ⟨0x10605c, [(32, 0x10000)], 0, 32, false, .rc, 0, .plain, false⟩
  | .STG_WK_REFUSED => ⟨0x106060, [(32, 0x10000)], 0, 32, false, .rc, 0, .plain, false⟩
  | .WK_VALID => ⟨0x106100, [(32, 0x10000), (16, 0x10)], 0, 1, false, .ro, 0, .plain, false⟩
  | .WK_STORE => ⟨0x106100, [(32, 0x10000), (16, 0x10)], 1, 1, false, .ro, 0, .plain, false⟩
  | .WK_CORE => ⟨0x106100, [(32, 0x10000), (16, 0x10)], 2, 5, false, .ro, 0, .plain, false⟩
  | .WK_DIE => ⟨0x106100, [(32, 0x10000), (16, 0x10)], 7, 3, false, .ro, 0, .plain, false⟩
  | .WK_CTX => ⟨0x106100, [(32, 0x10000), (16, 0x10)], 10, 2, false, .ro, 0, .plain, false⟩
  | .WK_OFFSET => ⟨0x106104, [(32, 0x10000), (16, 0x10)], 0, 24, false, .ro, 0, .plain, false⟩
  | .WK_LENGTH => ⟨0x106108, [(32, 0x10000), (16, 0x10)], 0, 32, false, .ro, 0, .plain, false⟩
  | .VT_GEOM_KIB => ⟨0x92000, [(4, 0x100)], 0, 16, false, .ro, 0x8000, .plain, false⟩
  | .VT_GEOM_BANKS => ⟨0x92000, [(4, 0x100)], 16, 8, false, .ro, 0x40, .plain, false⟩
  | .VT_GEOM_SEGMENTS => ⟨0x92000, [(4, 0x100)], 24, 8, false, .ro, 0x10, .plain, false⟩
  | .VT_SHUT => ⟨0x92004, [(4, 0x100)], 0, 32, false, .rw, 0, .plain, false⟩
  | .VT_STATE => ⟨0x92008, [(4, 0x100)], 0, 32, false, .ro, 0, .plain, false⟩
  | .VT_CONFLICT => ⟨0x9200c, [(4, 0x100)], 0, 32, false, .rc, 0, .plain, false⟩
  | .VT_CRC_RETRY => ⟨0x92010, [(4, 0x100)], 0, 32, false, .rc, 0, .plain, false⟩
  | .VT_CRC_FAIL => ⟨0x92014, [(4, 0x100)], 0, 32, false, .rc, 0, .plain, false⟩
  | .VT_CRC_LAST => ⟨0x92018, [(4, 0x100)], 0, 25, false, .ro, 0, .plain, false⟩
  | .VT_SHUT_REFUSED => ⟨0x9201c, [(4, 0x100)], 0, 32, false, .rc, 0, .plain, false⟩
  | .VT_SLOT_OPS => ⟨0x92020, [(4, 0x100)], 0, 32, false, .rc, 0, .plain, false⟩
  | .VT_ADDS => ⟨0x92024, [(4, 0x100)], 0, 32, false, .rc, 0, .plain, false⟩
  | .FAB_RD_INFLIGHT => ⟨0x60000, [], 0, 13, false, .ro, 0, .plain, false⟩
  | .FAB_WR_INFLIGHT => ⟨0x60000, [], 16, 12, false, .ro, 0, .plain, false⟩
  | .FAB_TAG_WAIT => ⟨0x60004, [], 0, 32, false, .rc, 0, .plain, false⟩
  | .FAB_RELAYED => ⟨0x60008, [], 0, 32, false, .rc, 0, .plain, false⟩
  | .FAB_LINK_ABORTS => ⟨0x6000c, [], 0, 32, false, .rc, 0, .plain, false⟩
  | .HBM_STATUS_STATE => ⟨0x70000, [(2, 0x1000)], 0, 2, false, .ro, 0, .plain, false⟩
  | .HBM_STATUS_IMBALANCE => ⟨0x70000, [(2, 0x1000)], 2, 1, false, .ro, 0, .plain, false⟩
  | .HBM_STATUS_SCRUB_DONE => ⟨0x70000, [(2, 0x1000)], 3, 1, false, .ro, 0, .plain, false⟩
  | .HBM_HASH_M => ⟨0x70004, [(2, 0x1000), (4, 0x4)], 0, 32, false, .ro, 0, .plain, false⟩
  | .HBM_IMB_SHARE => ⟨0x70020, [(2, 0x1000)], 0, 16, false, .ro, 0, .plain, false⟩
  | .HBM_IMB_LIMIT => ⟨0x70024, [(2, 0x1000)], 0, 16, false, .rw, 0x30, .plain, false⟩
  | .HBM_IMB_WINDOWS => ⟨0x70024, [(2, 0x1000)], 16, 8, false, .rw, 0x10, .plain, false⟩
  | .HBM_CE => ⟨0x70028, [(2, 0x1000)], 0, 32, false, .rc, 0, .plain, false⟩
  | .HBM_UE => ⟨0x7002c, [(2, 0x1000)], 0, 32, false, .rc, 0, .plain, false⟩
  | .HBM_UE_ADDR => ⟨0x70030, [(2, 0x1000)], 0, 64, true, .ro, 0, .plain, false⟩
  | .HBM_CH_GRANULES => ⟨0x70040, [(2, 0x1000), (16, 0x4)], 0, 32, false, .ro, 0, .plain, false⟩
  | .IGN_STATUS_STATE => ⟨0x80000, [(4, 0x100)], 0, 2, false, .ro, 0, .plain, false⟩
  | .IGN_STATUS_PEER_DIE => ⟨0x80000, [(4, 0x100)], 4, 3, false, .ro, 0, .plain, false⟩
  | .IGN_STATUS_PEER_PORT => ⟨0x80000, [(4, 0x100)], 8, 2, false, .ro, 0, .plain, false⟩
  | .IGN_STATUS_UNUSED => ⟨0x80000, [(4, 0x100)], 16, 1, false, .ro, 0, .plain, false⟩
  | .IGN_LANES_TX => ⟨0x80008, [(4, 0x100)], 0, 34, true, .ro, 0x3ffffffff, .plain, false⟩
  | .IGN_LANES_RX => ⟨0x80010, [(4, 0x100)], 0, 34, true, .ro, 0x3ffffffff, .plain, false⟩
  | .IGN_CRC_ERR => ⟨0x80018, [(4, 0x100)], 0, 32, false, .rc, 0, .plain, false⟩
  | .IGN_REPLAYS => ⟨0x8001c, [(4, 0x100)], 0, 32, false, .rc, 0, .plain, false⟩
  | .IGN_RETRAINS => ⟨0x80020, [(4, 0x100)], 0, 16, false, .rc, 0, .plain, false⟩
  | .IGN_BLOCKS_TX => ⟨0x80028, [(4, 0x100)], 0, 64, true, .ro, 0, .plain, false⟩
  | .IGN_BLOCKS_RX => ⟨0x80030, [(4, 0x100)], 0, 64, true, .ro, 0, .plain, false⟩
  | .CH_VALID => ⟨0xc2000, [(64, 0x40)], 0, 1, false, .rw, 0, .job, true⟩
  | .CH_KIND => ⟨0xc2000, [(64, 0x40)], 1, 2, false, .rw, 0, .job, true⟩
  | .CH_PARTITION => ⟨0xc2000, [(64, 0x40)], 3, 3, false, .rw, 0, .job, true⟩
  | .CH_DIE => ⟨0xc2000, [(64, 0x40)], 6, 3, false, .rw, 0, .job, true⟩
  | .CH_PORT => ⟨0xc2000, [(64, 0x40)], 9, 1, false, .rw, 0, .job, true⟩
  | .CH_IPV6 => ⟨0xc2000, [(64, 0x40)], 10, 1, false, .rw, 0, .job, true⟩
  | .CH_VLAN_EN => ⟨0xc2000, [(64, 0x40)], 11, 1, false, .rw, 0, .job, true⟩
  | .CH_VLAN_ID => ⟨0xc2000, [(64, 0x40)], 16, 12, false, .rw, 0, .job, true⟩
  | .CH_UDP_LOCAL => ⟨0xc2004, [(64, 0x40)], 0, 16, false, .rw, 0, .job, true⟩
  | .CH_UDP_PEER => ⟨0xc2004, [(64, 0x40)], 16, 16, false, .rw, 0, .job, true⟩
  | .CH_PEER_ADDR => ⟨0xc2008, [(64, 0x40), (4, 0x4)], 0, 32, false, .rw, 0, .job, true⟩
  | .CH_CLASS => ⟨0xc2018, [(64, 0x40)], 0, 3, false, .rw, 0, .job, true⟩
  | .CH_TO_CLASS => ⟨0xc2018, [(64, 0x40)], 3, 1, false, .rw, 0, .job, true⟩
  | .CH_TRIGGER => ⟨0xc2018, [(64, 0x40)], 16, 16, false, .rw, 0, .job, true⟩
  | .CH_REQ_MAX => ⟨0xc201c, [(64, 0x40)], 0, 16, false, .rw, 0, .job, true⟩
  | .CH_CHSEQ => ⟨0xc2020, [(64, 0x40)], 0, 32, false, .ro, 0, .plain, true⟩
  | .CH_BAD => ⟨0xc2024, [(64, 0x40)], 0, 32, false, .rc, 0, .plain, true⟩
  | .CH_REQ_EXPECT => ⟨0xc2028, [(64, 0x40)], 0, 64, true, .ro, 0, .plain, true⟩
  | .PT_STATE => ⟨0xc0000, [(8, 0x80)], 0, 3, false, .ro, 0, .plain, true⟩
  | .PT_SAFETY => ⟨0xc0000, [(8, 0x80)], 3, 1, false, .rw, 0, .job, true⟩
  | .PT_SLOT_LOG2 => ⟨0xc0000, [(8, 0x80)], 8, 4, false, .rw, 0xa, .job, true⟩
  | .PT_EPOCH => ⟨0xc0004, [(8, 0x80)], 0, 32, false, .ro, 0, .plain, true⟩
  | .PT_SEQ => ⟨0xc0008, [(8, 0x80)], 0, 64, true, .ro, 0, .plain, true⟩
  | .PT_JSEQ => ⟨0xc0010, [(8, 0x80)], 0, 64, true, .ro, 0, .plain, true⟩
  | .PT_RING_BASE => ⟨0xc0018, [(8, 0x80)], 0, 64, true, .rw, 0, .job, true⟩
  | .PT_MIRROR_BASE => ⟨0xc0020, [(8, 0x80)], 0, 64, true, .rw, 0, .job, true⟩
  | .PT_OPEN => ⟨0xc0028, [(8, 0x80)], 0, 32, false, .ro, 0, .plain, true⟩
  | .PT_WITHDRAWN => ⟨0xc002c, [(8, 0x80)], 0, 32, false, .rc, 0, .plain, true⟩
  | .PT_LATE => ⟨0xc0030, [(8, 0x80)], 0, 32, false, .rc, 0, .plain, true⟩
  | .PT_RESENDS => ⟨0xc0034, [(8, 0x80)], 0, 32, false, .rc, 0, .plain, true⟩
  | .PT_RESEND_MISS => ⟨0xc0038, [(8, 0x80)], 0, 32, false, .rc, 0, .plain, true⟩
  | .PT_POST_ERRORS => ⟨0xc003c, [(8, 0x80)], 0, 32, false, .rc, 0, .plain, true⟩
  | .JOB_COMMIT => ⟨0xc0800, [], 0, 32, false, .wc, 0, .plain, false⟩
  | .JOB_STATUS_COMMIT_PENDING => ⟨0xc0804, [], 0, 1, false, .ro, 0, .plain, false⟩
  | .JOB_STATUS_CFG_ERR => ⟨0xc0804, [], 1, 1, false, .ro, 0, .plain, true⟩
  | .JOB_STATUS_ERR_PART => ⟨0xc0804, [], 8, 3, false, .ro, 0, .plain, true⟩
  | .JOB_FIRE => ⟨0xc0808, [], 0, 8, false, .wo, 0, .plain, false⟩
  | .JOB_FIRE_REFUSED => ⟨0xc080c, [], 0, 32, false, .rc, 0, .plain, false⟩
  | .JT_VALID => ⟨0xc1000, [(256, 0x10)], 0, 1, false, .rw, 0, .job, false⟩
  | .JT_KIND => ⟨0xc1000, [(256, 0x10)], 1, 2, false, .rw, 0, .job, false⟩
  | .JT_PARTITION => ⟨0xc1000, [(256, 0x10)], 3, 3, false, .rw, 0, .job, false⟩
  | .JT_DEPTH => ⟨0xc1000, [(256, 0x10)], 6, 3, false, .rw, 0, .job, false⟩
  | .JT_CHANNEL => ⟨0xc1000, [(256, 0x10)], 16, 6, false, .rw, 0, .job, false⟩
  | .JT_HELD => ⟨0xc1004, [(256, 0x10)], 0, 3, false, .ro, 0, .plain, false⟩
  | .JT_SKIPPED => ⟨0xc1004, [(256, 0x10)], 16, 16, false, .rc, 0, .plain, false⟩
  | .JT_DESC => ⟨0xc1008, [(256, 0x10)], 0, 64, true, .rw, 0, .job, false⟩
  | .BELL_DOORBELL => ⟨0x10000, [], 0, 32, false, .wo, 0, .plain, false⟩
  | .BELL_HOLD_SET => ⟨0x10004, [], 0, 5, false, .wo, 0, .plain, false⟩
  | .BELL_HOLD_CLR => ⟨0x10008, [], 0, 5, false, .wo, 0, .plain, false⟩
  | .BELL_HOLDING => ⟨0x1000c, [], 0, 32, false, .ro, 0, .plain, false⟩
  | .BELL_BAD => ⟨0x10010, [], 0, 32, false, .rc, 0, .plain, false⟩
  | .BELL_MERGED => ⟨0x10014, [], 0, 32, false, .rc, 0, .plain, false⟩
  | .BELL_BAD_COMPLETE => ⟨0x10018, [], 0, 32, false, .rc, 0, .plain, false⟩
  | .BELL_PEND => ⟨0x10100, [(32, 0x4)], 0, 32, false, .rw, 0, .plain, false⟩
  | .BELL_MASK => ⟨0x10180, [(32, 0x4)], 0, 32, false, .rw, 0xffffffff, .plain, false⟩
  | .BELL_RAW => ⟨0x10200, [(32, 0x4)], 0, 32, false, .ro, 0, .plain, false⟩
  | .BELL_ACTIVE => ⟨0x10280, [(32, 0x4)], 0, 32, false, .ro, 0, .plain, false⟩
  | .LATCH_CFG_EDGE => ⟨0x10300, [(8, 0x4)], 0, 2, false, .rw, 0, .plain, true⟩
  | .LATCH_EDGES => ⟨0x10300, [(8, 0x4)], 8, 8, false, .ro, 0, .plain, true⟩
  | .LATCH_LEVEL => ⟨0x10300, [(8, 0x4)], 16, 1, false, .ro, 0, .plain, true⟩
  | .BELL_TGT_KIND => ⟨0x11000, [(1024, 0x4)], 0, 2, false, .rw, 0, .plain, false⟩
  | .BELL_TGT_INDEX => ⟨0x11000, [(1024, 0x4)], 2, 6, false, .rw, 0, .plain, false⟩
  | .BELL_TGT_PRIO => ⟨0x11000, [(1024, 0x4)], 8, 4, false, .rw, 0, .plain, false⟩
  | .BELL_REC => ⟨0x12000, [(1024, 0x4)], 0, 32, false, .ro, 0, .plain, false⟩
  | .BELL_CLAIM => ⟨0x13000, [(97, 0x10)], 0, 32, false, .rc, 0, .plain, false⟩
  | .BELL_COMPLETE => ⟨0x13004, [(97, 0x10)], 0, 10, false, .wo, 0, .plain, false⟩
  | .BELL_TCTL_NEST => ⟨0x13008, [(97, 0x10)], 0, 1, false, .rw, 0, .plain, false⟩
  | .BELL_TCTL_LEVEL => ⟨0x13008, [(97, 0x10)], 4, 4, false, .ro, 0, .plain, false⟩
  | .BELL_TCTL_ACTIVE => ⟨0x13008, [(97, 0x10)], 8, 1, false, .ro, 0, .plain, false⟩
  | .BELL_TCTL_DEPTH => ⟨0x13008, [(97, 0x10)], 9, 5, false, .ro, 0, .plain, false⟩
  | .BELL_MOD_US => ⟨0x1300c, [(97, 0x10)], 0, 16, false, .rw, 0, .plain, false⟩
  | .BELL_MOD_COUNT => ⟨0x1300c, [(97, 0x10)], 16, 8, false, .rw, 0, .plain, false⟩
  | .BELL_MOD_HELD => ⟨0x1300c, [(97, 0x10)], 24, 1, false, .ro, 0, .plain, false⟩
  | .BELL_MOD_ARMED => ⟨0x1300c, [(97, 0x10)], 25, 1, false, .ro, 1, .plain, false⟩
  | .ULS_SAFE_PARTS => ⟨0xa0000, [], 0, 8, false, .ro, 0xff, .plain, false⟩
  | .ULS_SAFE_CAUSE => ⟨0xa0004, [], 0, 4, false, .ro, 0, .plain, false⟩
  | .ULS_SAFE_PART => ⟨0xa0004, [], 8, 3, false, .ro, 0, .plain, false⟩
  | .ULS_COMMIT => ⟨0xa0008, [], 0, 32, false, .wc, 0, .plain, false⟩
  | .ULS_STATUS_COMMIT_PENDING => ⟨0xa000c, [], 0, 1, false, .ro, 0, .plain, false⟩
  | .ULS_STATUS_ALIVE => ⟨0xa000c, [], 1, 1, false, .ro, 0, .plain, false⟩
  | .ULS_STATUS_CFG_ERR => ⟨0xa000c, [], 2, 1, false, .ro, 0, .plain, false⟩
  | .ULS_STATUS_ERR_ENTRY => ⟨0xa000c, [], 8, 8, false, .ro, 0, .plain, false⟩
  | .ULS_STATUS_ERR_CAUSE => ⟨0xa000c, [], 16, 4, false, .ro, 0, .plain, false⟩
  | .ULS_SAFE_REQ => ⟨0xa0010, [], 0, 8, false, .wo, 0, .plain, false⟩
  | .ULS_SAFE_REL => ⟨0xa0014, [], 0, 8, false, .wo, 0, .plain, false⟩
  | .ULS_KEEPER_BEAT => ⟨0xa0018, [], 0, 32, false, .wo, 0, .plain, false⟩
  | .ULS_EVALS => ⟨0xa001c, [], 0, 32, false, .rc, 0, .plain, false⟩
  | .ULS_DISAGREE => ⟨0xa0020, [], 0, 32, false, .rc, 0, .plain, false⟩
  | .ULS_MODEL_DISAGREE => ⟨0xa0024, [], 0, 32, false, .rc, 0, .plain, false⟩
  | .ULS_NET_BAD => ⟨0xa0028, [], 0, 32, false, .rc, 0, .plain, false⟩
  | .SF_EN => ⟨0xa0100, [(8, 0x40)], 0, 1, false, .rw, 0, .uls, false⟩
  | .SF_PORT => ⟨0xa0100, [(8, 0x40)], 1, 1, false, .rw, 0, .uls, false⟩
  | .SF_IPV6 => ⟨0xa0100, [(8, 0x40)], 2, 1, false, .rw, 0, .uls, false⟩
  | .SF_VLAN_EN => ⟨0xa0100, [(8, 0x40)], 3, 1, false, .rw, 0, .uls, false⟩
  | .SF_VLAN_ID => ⟨0xa0100, [(8, 0x40)], 16, 12, false, .rw, 0, .uls, false⟩
  | .SF_UDP_LOCAL => ⟨0xa0104, [(8, 0x40)], 0, 16, false, .rw, 0, .uls, false⟩
  | .SF_UDP_PEER => ⟨0xa0104, [(8, 0x40)], 16, 16, false, .rw, 0, .uls, false⟩
  | .SF_PEER_ADDR => ⟨0xa0108, [(8, 0x40), (4, 0x4)], 0, 32, false, .rw, 0, .uls, false⟩
  | .SF_CONN_ID => ⟨0xa0118, [(8, 0x40)], 0, 32, false, .rw, 0, .uls, false⟩
  | .SF_CRC_SEED => ⟨0xa011c, [(8, 0x40)], 0, 32, false, .rw, 0, .uls, false⟩
  | .SF_HEARTBEAT_MS => ⟨0xa0120, [(8, 0x40)], 0, 16, false, .rw, 0, .uls, false⟩
  | .SF_SEQ => ⟨0xa0128, [(8, 0x40)], 0, 64, true, .ro, 0, .plain, false⟩
  | .ZN_VALID => ⟨0xa1000, [(64, 0x80)], 0, 1, false, .rw, 0, .uls, false⟩
  | .ZN_KIND => ⟨0xa1000, [(64, 0x80)], 1, 2, false, .rw, 0, .uls, false⟩
  | .ZN_PARTITION => ⟨0xa1000, [(64, 0x80)], 3, 3, false, .rw, 0, .uls, false⟩
  | .ZN_NVERT => ⟨0xa1000, [(64, 0x80)], 6, 4, false, .rw, 0, .uls, false⟩
  | .ZN_TIME_REQ => ⟨0xa1000, [(64, 0x80)], 10, 2, false, .rw, 0, .uls, false⟩
  | .ZN_GROUP => ⟨0xa1000, [(64, 0x80)], 16, 6, false, .rw, 0, .uls, false⟩
  | .ZN_LEAD => ⟨0xa1000, [(64, 0x80)], 22, 6, false, .rw, 0, .uls, false⟩
  | .ZN_THRESH => ⟨0xa1004, [(64, 0x80)], 0, 16, false, .rw, 0, .uls, false⟩
  | .ZN_FTTI_MS => ⟨0xa1004, [(64, 0x80)], 16, 16, false, .rw, 0, .uls, false⟩
  | .ZN_STREAMS => ⟨0xa1008, [(64, 0x80)], 0, 48, true, .rw, 0, .uls, false⟩
  | .ZN_ZLO => ⟨0xa1010, [(64, 0x80)], 0, 24, false, .rw, 0, .uls, false⟩
  | .ZN_ZHI => ⟨0xa1014, [(64, 0x80)], 0, 24, false, .rw, 0, .uls, false⟩
  | .ZN_TRIG => ⟨0xa1018, [(64, 0x80)], 0, 8, false, .rw, 0, .uls, false⟩
  | .ZN_TRIG_DIE => ⟨0xa1018, [(64, 0x80)], 8, 3, false, .rw, 0, .uls, false⟩
  | .ZN_K => ⟨0xa1018, [(64, 0x80)], 16, 7, false, .rw, 0, .uls, false⟩
  | .ZN_N => ⟨0xa1018, [(64, 0x80)], 24, 7, false, .rw, 0, .uls, false⟩
  | .ZN_MISS_LIMIT => ⟨0xa101c, [(64, 0x80)], 0, 8, false, .rw, 0, .uls, false⟩
  | .ZN_LOSS_MAX => ⟨0xa101c, [(64, 0x80)], 16, 16, false, .rw, 0, .uls, false⟩
  | .ZN_NET_FSEQ => ⟨0xa1020, [(64, 0x80)], 0, 16, false, .rw, 0, .plain, false⟩
  | .ZN_NET_OCCUPIED => ⟨0xa1020, [(64, 0x80)], 16, 1, false, .rw, 0, .plain, false⟩
  | .ZN_STATUS_CLEAR => ⟨0xa1024, [(64, 0x80)], 0, 1, false, .ro, 0, .plain, false⟩
  | .ZN_STATUS_DISAGREE => ⟨0xa1024, [(64, 0x80)], 1, 1, false, .ro, 0, .plain, false⟩
  | .ZN_STATUS_CAUSE => ⟨0xa1024, [(64, 0x80)], 8, 8, false, .ro, 0, .plain, false⟩
  | .ZN_MISSES => ⟨0xa1024, [(64, 0x80)], 16, 8, false, .ro, 0, .plain, false⟩
  | .ZN_COUNT => ⟨0xa1028, [(64, 0x80)], 0, 32, false, .ro, 0, .plain, false⟩
  | .ZN_FSEQ => ⟨0xa102c, [(64, 0x80)], 0, 32, false, .ro, 0, .plain, false⟩
  | .ZN_HIST => ⟨0xa1030, [(64, 0x80)], 0, 64, true, .ro, 0, .plain, false⟩
  | .ZN_LAST_CLEAR => ⟨0xa1038, [(64, 0x80)], 0, 64, true, .ro, 0, .plain, false⟩
  | .ZN_VX => ⟨0xa1040, [(64, 0x80), (8, 0x8)], 0, 24, false, .rw, 0, .uls, false⟩
  | .ZN_VY => ⟨0xa1044, [(64, 0x80), (8, 0x8)], 0, 24, false, .rw, 0, .uls, false⟩
  | .PG_ENGINES_LO => ⟨0xa3000, [(64, 0x20)], 0, 64, true, .rw, 0, .uls, false⟩
  | .PG_ENGINES_HI => ⟨0xa3008, [(64, 0x20)], 0, 64, true, .rw, 0, .uls, false⟩
  | .PG_LIST => ⟨0xa3010, [(64, 0x20)], 0, 24, false, .rw, 0, .uls, false⟩
  | .PG_PARTITION => ⟨0xa3010, [(64, 0x20)], 24, 3, false, .rw, 0, .uls, false⟩
  | .PG_SLACK_US => ⟨0xa3014, [(64, 0x20)], 0, 16, false, .rw, 0, .uls, false⟩
  | .PG_ROWS => ⟨0xa3014, [(64, 0x20)], 16, 16, false, .rw, 0, .uls, false⟩
  | .PG_GOLDEN => ⟨0xa3018, [(64, 0x20)], 0, 32, false, .rw, 0, .uls, false⟩
  | .PG_OUT => ⟨0xa301c, [(64, 0x20)], 0, 24, false, .rw, 0, .uls, false⟩
  | .PRF_LAST => ⟨0xa4000, [(128, 0x10)], 0, 64, true, .ro, 0, .plain, false⟩
  | .PRF_STATE => ⟨0xa4008, [(128, 0x10)], 0, 2, false, .ro, 0, .plain, false⟩
  | .PRF_MISSED => ⟨0xa4008, [(128, 0x10)], 16, 16, false, .rc, 0, .plain, false⟩
  | .PRF_PASSES => ⟨0xa400c, [(128, 0x10)], 0, 16, false, .rc, 0, .plain, false⟩
  | .PRF_MERGED => ⟨0xa400c, [(128, 0x10)], 16, 16, false, .rc, 0, .plain, false⟩
  | .BS_EN => ⟨0xa5000, [(48, 0x40)], 0, 1, false, .rw, 0, .uls, false⟩
  | .BS_REF => ⟨0xa5000, [(48, 0x40)], 1, 6, false, .rw, 0, .uls, false⟩
  | .BS_TEST => ⟨0xa5000, [(48, 0x40)], 7, 6, false, .rw, 0, .uls, false⟩
  | .BS_PAT_N => ⟨0xa5000, [(48, 0x40)], 13, 7, false, .rw, 0, .uls, false⟩
  | .BS_PAT_IN => ⟨0xa5000, [(48, 0x40)], 20, 7, false, .rw, 0, .uls, false⟩
  | .BS_REF_MIN => ⟨0xa5004, [(48, 0x40)], 0, 16, false, .rw, 0, .uls, false⟩
  | .BS_REF_MAX => ⟨0xa5004, [(48, 0x40)], 16, 16, false, .rw, 0, .uls, false⟩
  | .BS_PAT_BASE => ⟨0xa5008, [(48, 0x40)], 0, 64, true, .rw, 0, .uls, false⟩
  | .BS_STATE_OK => ⟨0xa5010, [(48, 0x40)], 0, 1, false, .ro, 0, .plain, false⟩
  | .BS_STATE_WHY => ⟨0xa5010, [(48, 0x40)], 1, 3, false, .ro, 0, .plain, false⟩
  | .BS_FAILS => ⟨0xa5014, [(48, 0x40)], 0, 32, false, .rc, 0, .plain, false⟩
  | .BS_LAST_REF => ⟨0xa5018, [(48, 0x40)], 0, 16, false, .ro, 0, .plain, false⟩
  | .MUL_VALID => ⟨0x61000, [(64, 0x20)], 0, 1, false, .rw, 0, .mul, false⟩
  | .MUL_SAFE_WRITE => ⟨0x61000, [(64, 0x20)], 1, 1, false, .rw, 0, .mul, false⟩
  | .MUL_READ => ⟨0x61000, [(64, 0x20)], 8, 8, false, .rw, 0, .mul, false⟩
  | .MUL_WRITE => ⟨0x61000, [(64, 0x20)], 16, 8, false, .rw, 0, .mul, false⟩
  | .MUL_BASE => ⟨0x61008, [(64, 0x20)], 12, 33, true, .rw, 0, .mul, false⟩
  | .MUL_LIMIT => ⟨0x61010, [(64, 0x20)], 12, 33, true, .rw, 0, .mul, false⟩
  | .MUL_COMMIT => ⟨0x61800, [], 0, 32, false, .wc, 0, .plain, false⟩
  | .MUL_STATUS_COMMIT_PENDING => ⟨0x61804, [], 0, 1, false, .ro, 0, .plain, false⟩
  | .MUL_REFUSED => ⟨0x61808, [], 0, 32, false, .rc, 0, .plain, false⟩
  | .MUL_LAST_ADDR => ⟨0x61810, [], 0, 64, true, .ro, 0, .plain, false⟩
  | .MUL_LAST_TAG => ⟨0x61818, [], 0, 4, false, .ro, 0, .plain, false⟩
  | .MUL_LAST_WRITE => ⟨0x61818, [], 4, 1, false, .ro, 0, .plain, false⟩
  | .HG_PHYS => ⟨0xb0000, [(32, 0x4)], 0, 5, false, .ro, 0, .plain, false⟩
  | .HG_VALID => ⟨0xb0000, [(32, 0x4)], 8, 1, false, .ro, 0, .plain, false⟩
  | .HG_PART => ⟨0xb0000, [(32, 0x4)], 9, 3, false, .ro, 0, .plain, false⟩
  | .HG_MOVED => ⟨0xb0000, [(32, 0x4)], 12, 1, false, .ro, 0, .plain, false⟩
  | .FLT_FENCED_ENG_LO => ⟨0xb0100, [], 0, 64, true, .ro, 0, .plain, false⟩
  | .FLT_FENCED_ENG_HI => ⟨0xb0108, [], 0, 64, true, .ro, 0, .plain, false⟩
  | .FLT_FENCED_CORES => ⟨0xb0110, [], 0, 32, false, .ro, 0, .plain, false⟩
  | .FLT_RETIRED_SEG => ⟨0xb0118, [], 0, 64, true, .ro, 0, .plain, false⟩
  | .FLT_DIE_FAILED => ⟨0xb0120, [], 0, 8, false, .ro, 0, .plain, true⟩
  | .FLT_ENG_LIMIT => ⟨0xb0124, [], 0, 8, false, .rw, 4, .plain, false⟩
  | .FLT_CE_ROW_LIMIT => ⟨0xb0128, [], 0, 16, false, .rw, 0x10, .plain, false⟩
  | .FLT_SEQ => ⟨0xb0130, [], 0, 32, false, .ro, 0, .plain, false⟩
  | .FLT_COUNT => ⟨0xb0144, [(14, 0x4)], 0, 32, false, .ro, 0, .plain, false⟩
  | .FLT_LAST => ⟨0xb0200, [(8, 0x4)], 0, 32, false, .ro, 0, .plain, false⟩
  | .FUSE_ORDER => ⟨0xe0000, [], 0, 4, false, .ro, 1, .plain, true⟩
  | .FUSE_DIES => ⟨0xe0000, [], 4, 4, false, .ro, 2, .plain, true⟩
  | .FUSE_SEALED => ⟨0xe0000, [], 8, 1, false, .ro, 1, .plain, true⟩
  | .FUSE_OWNED => ⟨0xe0000, [], 9, 1, false, .ro, 0, .plain, true⟩
  | .FUSE_DECOMM => ⟨0xe0000, [], 10, 1, false, .ro, 0, .plain, true⟩
  | .FUSE_ENG_MASK => ⟨0xe0010, [(4, 0x4)], 0, 32, false, .ro, 0xffffffff, .plain, false⟩
  | .FUSE_DEV_HASH => ⟨0xe0020, [(12, 0x4)], 0, 32, false, .ro, 0, .plain, true⟩
  | .FUSE_OWNER_HASH => ⟨0xe0050, [(12, 0x4)], 0, 32, false, .ro, 0, .plain, true⟩
  | .FUSE_RB => ⟨0xe0080, [(16, 0x4)], 0, 32, false, .ro, 0, .plain, true⟩
  | .SEC_SLOT => ⟨0xe00c0, [], 0, 1, false, .ro, 0, .plain, true⟩
  | .SEC_TRIAL => ⟨0xe00c0, [], 1, 1, false, .ro, 0, .plain, true⟩
  | .SEC_STATE => ⟨0xe00c0, [], 2, 3, false, .ro, 0, .plain, true⟩
  | .SEC_STATUS_A => ⟨0xe00c0, [], 8, 8, false, .ro, 0, .plain, true⟩
  | .SEC_STATUS_B => ⟨0xe00c0, [], 16, 8, false, .ro, 0, .plain, true⟩
  | .SEC_RANDOM => ⟨0xe00c4, [], 0, 32, false, .ro, 0, .plain, true⟩
  | .TR_REQ => ⟨0x0, [(1024, 0x4)], 0, 32, false, .rw, 0, .plain, true⟩
  | .TR_RSP => ⟨0x1000, [(1024, 0x4)], 0, 32, false, .ro, 0, .plain, true⟩
  | .TR_GO => ⟨0x2000, [], 0, 32, false, .wo, 0, .plain, true⟩
  | .TR_STATE => ⟨0x2004, [], 0, 2, false, .ro, 0, .plain, true⟩
  | .TR_DONE => ⟨0x2008, [], 0, 32, false, .ro, 0, .plain, true⟩
  | .TR_BUSY_DROP => ⟨0x200c, [], 0, 32, false, .rc, 0, .plain, true⟩
  | .TR_NONCE => ⟨0x2010, [(12, 0x4)], 0, 32, false, .ro, 0, .plain, true⟩
  | .PWR_DOM_ON => ⟨0x90000, [], 0, 24, false, .ro, 1, .plain, false⟩
  | .PWR_EST => ⟨0x90004, [], 0, 16, false, .ro, 0, .plain, false⟩
  | .PWR_LIMIT => ⟨0x90008, [], 0, 10, false, .rw, 0xfa, .plain, false⟩
  | .LV_FLOOR => ⟨0x91000, [], 0, 6, false, .rw, 0, .plain, false⟩
  | .LV_GATE => ⟨0x91004, [], 0, 6, false, .ro, 0, .plain, false⟩
  | .LV_POWER => ⟨0x91004, [], 8, 6, false, .ro, 0, .plain, false⟩
  | .LV_THERMAL => ⟨0x91004, [], 16, 6, false, .ro, 0, .plain, false⟩
  | .TH_SENSOR => ⟨0x91100, [(16, 0x4)], 0, 12, false, .ro, 0, .plain, false⟩
  | .TH_WARN => ⟨0x91140, [], 0, 12, false, .rw, 0x2f8, .plain, false⟩
  | .TH_CRIT => ⟨0x91144, [], 0, 12, false, .rw, 0x348, .plain, false⟩
  | .TH_MAX => ⟨0x91148, [], 0, 12, false, .ro, 0, .plain, false⟩
  | .PKG_REQ => ⟨0x91200, [], 0, 2, false, .wo, 0, .plain, true⟩
  | .PKG_STATE => ⟨0x91204, [], 0, 2, false, .ro, 0, .plain, true⟩
  | .PKG_REQ_ERR => ⟨0x91204, [], 4, 2, false, .ro, 0, .plain, true⟩
  | .PKG_WAKE_CAUSE => ⟨0x91204, [], 8, 3, false, .ro, 0, .plain, true⟩
  | .PKG_WAKE_LATCH => ⟨0x91208, [], 0, 8, false, .rw, 0, .plain, true⟩
  | .PKG_WAKE_AT => ⟨0x91210, [], 0, 64, true, .rw, 0, .plain, true⟩
  | .ETH_STATUS_LINK => ⟨0x40000, [(2, 0x10000)], 0, 1, false, .ro, 0, .plain, false⟩
  | .ETH_STATUS_SPEED => ⟨0x40000, [(2, 0x10000)], 1, 1, false, .ro, 0, .plain, false⟩
  | .ETH_STATUS_SECURE => ⟨0x40000, [(2, 0x10000)], 2, 1, false, .ro, 0, .plain, false⟩
  | .ETH_STATUS_PEERS => ⟨0x40000, [(2, 0x10000)], 8, 8, false, .ro, 0, .plain, false⟩
  | .ETH_RX_FRAMES => ⟨0x40008, [(2, 0x10000)], 0, 64, true, .ro, 0, .plain, false⟩
  | .ETH_TX_FRAMES => ⟨0x40010, [(2, 0x10000)], 0, 64, true, .ro, 0, .plain, false⟩
  | .ETH_RX_ICV_FAIL => ⟨0x40018, [(2, 0x10000)], 0, 32, false, .rc, 0, .plain, false⟩
  | .ETH_RX_REPLAY => ⟨0x4001c, [(2, 0x10000)], 0, 32, false, .rc, 0, .plain, false⟩
  | .ETH_RX_UNPROTECTED => ⟨0x40020, [(2, 0x10000)], 0, 32, false, .rc, 0, .plain, false⟩
  | .ETH_FEC_UNCORR => ⟨0x40024, [(2, 0x10000)], 0, 32, false, .rc, 0, .plain, false⟩
  | .PCIE_APT_BASE => ⟨0xd0000, [], 36, 12, true, .rw, 0, .plain, true⟩
  | .PCIE_STATUS_DSTATE => ⟨0xd0008, [], 0, 2, false, .ro, 3, .plain, true⟩
  | .PCIE_STATUS_LINK => ⟨0xd0008, [], 2, 1, false, .ro, 0, .plain, true⟩
  | .PCIE_STATUS_WIDTH => ⟨0xd0008, [], 4, 4, false, .ro, 0, .plain, true⟩
  | .PCIE_STATUS_GEN => ⟨0xd0008, [], 8, 4, false, .ro, 0, .plain, true⟩
  | .PCIE_ERR => ⟨0xd000c, [], 0, 32, false, .rc, 0, .plain, true⟩
  | .I_TIME_LOW => ⟨0, [], 0, 16, false, .hidden, 0, .plain, false⟩
  | .I_TICKS => ⟨0, [], 0, 64, false, .hidden, 0, .plain, false⟩
  | .I_SLEW_MAG => ⟨0, [], 0, 64, false, .hidden, 0, .plain, false⟩
  | .I_SLEW_NEG => ⟨0, [], 0, 1, false, .hidden, 0, .plain, false⟩
  | .I_SILENCE => ⟨0, [], 0, 64, false, .hidden, 0, .plain, false⟩
  | .I_HOLD => ⟨0, [], 0, 64, false, .hidden, 0, .plain, false⟩
  | .I_PTP_LATEST => ⟨0, [], 0, 64, false, .hidden, 0, .plain, false⟩
  | .I_PM_PKT_TICK => ⟨0, [(16, 0x0)], 0, 64, false, .hidden, 0, .plain, false⟩
  | .I_PM_COAST_TICK => ⟨0, [(16, 0x0)], 0, 64, false, .hidden, 0, .plain, false⟩
  | .I_PM_COAST_TURNS => ⟨0, [(16, 0x0)], 0, 32, false, .hidden, 0, .plain, false⟩
  | .I_PM_COAST_PART => ⟨0, [(16, 0x0)], 0, 16, false, .hidden, 0, .plain, false⟩
  | .I_PM_REV_TIME => ⟨0, [(16, 0x0)], 0, 64, false, .hidden, 0, .plain, false⟩
  | .I_PM_WRAPPED => ⟨0, [(16, 0x0)], 0, 1, false, .hidden, 0, .plain, false⟩
  | .I_PM_HAS_REV => ⟨0, [(16, 0x0)], 0, 1, false, .hidden, 0, .plain, false⟩
  | .I_PM_TIME => ⟨0, [(16, 0x0)], 0, 64, false, .hidden, 0, .plain, false⟩
  | .I_PM_STARTED => ⟨0, [(16, 0x0)], 0, 1, false, .hidden, 0, .plain, false⟩
  | .I_PE_STEPS => ⟨0, [(256, 0x0)], 0, 32, false, .hidden, 0, .plain, false⟩
  | .I_PE_DONE => ⟨0, [(256, 0x0)], 0, 1, false, .hidden, 0, .plain, false⟩
  | .I_SC_TAKEN => ⟨0, [(48, 0x0)], 0, 1, false, .hidden, 0, .plain, false⟩
  | .I_SC_HIGH_SEQ => ⟨0, [(48, 0x0)], 0, 32, false, .hidden, 0, .plain, false⟩
  | .I_SC_SEQ_SEEN => ⟨0, [(48, 0x0)], 0, 1, false, .hidden, 0, .plain, false⟩
  | .I_SC_BUF_ADDR => ⟨0, [(48, 0x0), (2, 0x0)], 0, 64, false, .hidden, 0, .plain, false⟩
  | .I_ING_DECODED => ⟨0, [], 0, 28, false, .hidden, 0, .plain, false⟩
  | .I_ING_MS => ⟨0, [], 0, 64, false, .hidden, 0, .plain, false⟩
  | .I_NEXT_ID => ⟨0, [], 0, 64, false, .hidden, 0, .plain, true⟩
  | .I_CTX_LAST_PART => ⟨0, [(32, 0x0)], 0, 8, false, .hidden, 0, .plain, false⟩
  | .I_PRD_PREDICTS => ⟨0, [(32, 0x0), (16, 0x0)], 0, 32, false, .hidden, 0, .plain, false⟩
  | .I_PRD_KEEP => ⟨0, [(32, 0x0), (16, 0x0)], 0, 1, false, .hidden, 0, .plain, false⟩
  | .I_SHUT_LOST_W => ⟨0, [(32, 0x0)], 0, 8, false, .hidden, 0, .plain, false⟩
  | .I_SHUT_LOST_A => ⟨0, [(32, 0x0)], 0, 12, false, .hidden, 0, .plain, false⟩
  | .I_SHUT_LOST_P => ⟨0, [(32, 0x0)], 0, 8, false, .hidden, 0, .plain, false⟩
  | .I_SHUT_LOST_V => ⟨0, [(4, 0x0)], 0, 16, false, .hidden, 0, .plain, false⟩
  | .I_HBM_CNT => ⟨0, [(2, 0x0), (16, 0x0)], 0, 64, false, .hidden, 0, .plain, false⟩
  | .I_HBM_OVER => ⟨0, [(2, 0x0)], 0, 8, false, .hidden, 0, .plain, false⟩
  | .I_HBM_SCRUBBED => ⟨0, [(2, 0x0)], 0, 64, false, .hidden, 0, .plain, false⟩
  | .I_IGN_TX_SEQ => ⟨0, [(4, 0x0)], 0, 16, false, .hidden, 0, .plain, false⟩
  | .I_IGN_ACKED => ⟨0, [(4, 0x0)], 0, 16, false, .hidden, 0, .plain, false⟩
  | .I_IGN_RX_SEQ => ⟨0, [(4, 0x0)], 0, 16, false, .hidden, 0, .plain, false⟩
  | .I_IGN_RESENT => ⟨0, [(4, 0x0)], 0, 8, false, .hidden, 0, .plain, false⟩
  | .I_IGN_SKIP => ⟨0, [(4, 0x0)], 0, 1, false, .hidden, 0, .plain, false⟩
  | .I_IGN_DOWN_TICK => ⟨0, [(4, 0x0)], 0, 64, false, .hidden, 0, .plain, false⟩
  | .I_BELL_HELD => ⟨0, [(32, 0x0)], 0, 32, false, .hidden, 0, .plain, false⟩
  | .I_BELL_ACT_TGT => ⟨0, [(1024, 0x0)], 0, 8, false, .hidden, 0, .plain, false⟩
  | .I_BELL_ACT_PRIO => ⟨0, [(1024, 0x0)], 0, 4, false, .hidden, 0, .plain, false⟩
  | .I_MOD_SEEN => ⟨0, [(64, 0x0)], 0, 32, false, .hidden, 0, .plain, true⟩
  | .I_MOD_TICK => ⟨0, [(64, 0x0)], 0, 64, false, .hidden, 0, .plain, true⟩
  | .I_MOD_US => ⟨0, [(64, 0x0)], 0, 16, false, .hidden, 0, .plain, true⟩
  | .I_MOD_COUNT => ⟨0, [(64, 0x0)], 0, 8, false, .hidden, 0, .plain, true⟩
  | .I_MSIX_EN => ⟨0, [], 0, 1, false, .hidden, 0, .plain, true⟩
  | .I_MSIX_FMASK => ⟨0, [], 0, 1, false, .hidden, 0, .plain, true⟩
  | .I_MSIX_MASK => ⟨0, [(64, 0x0)], 0, 1, false, .hidden, 0, .plain, true⟩
  | .I_MSIX_PBA => ⟨0, [(64, 0x0)], 0, 1, false, .hidden, 0, .plain, true⟩
  | .I_PME_EN => ⟨0, [], 0, 1, false, .hidden, 0, .plain, true⟩
  | .I_PME_STATUS => ⟨0, [], 0, 1, false, .hidden, 0, .plain, true⟩
  | .I_WAKE => ⟨0, [], 0, 1, false, .hidden, 0, .plain, true⟩
  | .I_PERST => ⟨0, [], 0, 1, false, .hidden, 1, .plain, true⟩
  | .I_ZN_FRESH => ⟨0, [(64, 0x0)], 0, 1, false, .hidden, 0, .plain, false⟩
  | .I_BS_REF => ⟨0, [(48, 0x0)], 0, 32, false, .hidden, 0, .plain, false⟩
  | .I_BS_FAILED => ⟨0, [(48, 0x0)], 0, 64, false, .hidden, 0, .plain, false⟩
  | .I_BS_CHECK => ⟨0, [(48, 0x0)], 0, 64, false, .hidden, 0, .plain, false⟩
  | .I_PRF_REQ => ⟨0, [(128, 0x0)], 0, 1, false, .hidden, 0, .plain, false⟩
  | .I_SAFE_REQ => ⟨0, [], 0, 8, false, .hidden, 0, .plain, true⟩
  | .I_SAFE => ⟨0, [], 0, 8, false, .hidden, 255, .plain, true⟩
  | .I_SAFE_EXITED => ⟨0, [], 0, 1, false, .hidden, 0, .plain, true⟩
  | .I_ALIVE_A => ⟨0, [], 0, 1, false, .hidden, 0, .plain, true⟩
  | .I_ALIVE_B => ⟨0, [], 0, 1, false, .hidden, 0, .plain, true⟩
  | .I_HEARTBEAT => ⟨0, [], 0, 64, false, .hidden, 0, .plain, false⟩
  | .I_KEEPER_BEAT => ⟨0, [], 0, 64, false, .hidden, 0, .plain, false⟩
  | .I_SF_TICK => ⟨0, [(8, 0x0)], 0, 64, false, .hidden, 0, .plain, false⟩
  | .I_SF_CAUSE => ⟨0, [(8, 0x0)], 0, 4, false, .hidden, 0, .plain, false⟩
  | .I_ZN_LAST_EVAL => ⟨0, [(64, 0x0)], 0, 64, false, .hidden, 0, .plain, false⟩
  | .I_PRF_SINCE => ⟨0, [(128, 0x0)], 0, 64, false, .hidden, 0, .plain, false⟩
  | .I_BC_STEP => ⟨0, [(8, 0x0)], 0, 64, false, .hidden, 0, .plain, false⟩
  | .I_ULS_WAIT => ⟨0, [(184, 0x0)], 0, 1, false, .hidden, 0, .plain, false⟩
  | .I_SF_EVAL => ⟨0, [(8, 0x0)], 0, 1, false, .hidden, 0, .plain, false⟩
  | .I_RESTART_PART => ⟨0, [(8, 0x0)], 0, 1, false, .hidden, 0, .plain, true⟩
  | .I_RESTART_PART_AT => ⟨0, [(8, 0x0)], 0, 64, false, .hidden, 0, .plain, true⟩
  | .I_RESTART_WARM => ⟨0, [], 0, 1, false, .hidden, 0, .plain, true⟩
  | .I_RESTART_WARM_AT => ⟨0, [], 0, 64, false, .hidden, 0, .plain, true⟩
  | .I_RESTART_COLD => ⟨0, [], 0, 1, false, .hidden, 1, .plain, true⟩
  | .I_HELD_COLD => ⟨0, [], 0, 1, false, .hidden, 0, .plain, true⟩
  | .I_TRIPPED => ⟨0, [], 0, 1, false, .hidden, 0, .plain, true⟩
  | .I_THERM_TRIP_N => ⟨0, [], 0, 1, false, .hidden, 1, .plain, true⟩
  | .I_TH_HOT => ⟨0, [], 0, 12, false, .hidden, 0, .plain, false⟩
  | .I_TH_SAMPLED => ⟨0, [], 0, 1, false, .hidden, 0, .plain, false⟩
  | .I_MKA_SILENT => ⟨0, [(3, 0x0)], 0, 1, false, .hidden, 0, .plain, false⟩
  | .I_MG_LINK => ⟨0, [], 0, 1, false, .hidden, 0, .plain, true⟩
  | .I_MG_SECURE => ⟨0, [], 0, 1, false, .hidden, 0, .plain, true⟩
  | .I_MG_PEERS => ⟨0, [], 0, 8, false, .hidden, 0, .plain, true⟩
  | .I_ETH_SAK => ⟨0, [(3, 0x0)], 0, 32, false, .hidden, 0, .plain, false⟩
  | .I_STORE_MIB => ⟨0, [], 0, 32, false, .hidden, 16384, .plain, true⟩
  | .I_TEST_LEFT => ⟨0, [], 0, 8, false, .hidden, 0, .plain, true⟩
  | .I_SLOT_OPEN => ⟨0, [], 0, 1, false, .hidden, 0, .plain, true⟩
  | .I_SLOT_OK => ⟨0, [], 0, 1, false, .hidden, 0, .plain, true⟩
  | .I_SLOT_LEN => ⟨0, [], 0, 64, false, .hidden, 0, .plain, true⟩
  | .I_IMAGE_RUNS => ⟨0, [], 0, 1, false, .hidden, 0, .plain, true⟩
  | .I_JT_WAIT => ⟨0, [], 0, 256, false, .hidden, 0, .plain, false⟩
  | .I_CH_WAIT => ⟨0, [], 0, 64, false, .hidden, 0, .plain, true⟩
  | .I_PT_WAIT => ⟨0, [], 0, 8, false, .hidden, 0, .plain, true⟩
  | .I_PT_VARIANT => ⟨0, [(8, 0x0)], 0, 16, false, .hidden, 0, .plain, true⟩

/-- Fields of the register window, part 0. -/
def Fld.window0 : List Fld :=
  [.TIME_NOW_SEC, .TIME_NOW_NS, .TIME_NOW_FRAC, .TIME_INCR, .TIME_ADJ, .TIME_SET_SEC, .TIME_SET_NS, .TIME_SET_FRAC, .TIME_SET_COMMIT, .TIME_STATUS_SYNC, .TIME_STATUS_SLEWING, .TIME_STATUS_COMMIT_PENDING, .TIME_WATCH_SERVO_MS, .TIME_WATCH_HOLD_S, .TIME_WATCH_EN, .TIME_SERVO, .TIME_STEP_COUNT, .TSF_STATUS_COUNT, .TSF_STATUS_LOST, .TSF_SEC, .TSF_NS, .TSF_FRAC, .TSF_ID_SEQ, .TSF_ID_TYPE, .TSF_ID_DOMAIN, .TSF_POP, .PM_CTRL_KIND, .PM_CTRL_STREAM, .PM_CTRL_OFFSET, .PM_PERIOD_NS, .PM_TIMEOUT_US, .PM_TIMEOUT_REVS, .PM_COMMIT, .PM_STATUS_PHASE, .PM_STATUS_STATE, .PM_STATUS_COMMIT_PENDING, .PM_STATUS_HOLDING, .PM_REVS, .PM_MEAS_PERIOD_NS, .PM_BACKSTEPS, .PE_VALID, .PE_KIND, .PE_BASE, .PE_MASTER, .PE_PHASE, .PE_TARGET, .PE_TARGET_DIE, .PE_INSTANT, .PE_COMMIT, .PE_STATUS_COMMIT_PENDING, .PE_FIRED, .PE_PAST, .SE_VALID, .SE_KIND, .SE_PORT, .SE_IPV6, .SE_VLAN_EN, .SE_SRCPORT_EN, .SE_SAFETY, .SE_PRIORITY]

/-- Fields of the register window, part 1. -/
def Fld.window1 : List Fld :=
  [.SE_PARTITION, .SE_VLAN_ID, .SE_UDP_DST, .SE_UDP_SRC, .SE_SRC_ADDR, .SE_STREAM_ID, .SE_TEMPLATE, .SE_MASTER, .SE_POSE, .SE_CAP, .SE_BUF_BASE, .SE_HDR_BASE, .SE_LEAD_NS, .SE_POSE_HOLD_US, .SE_CHANNELS, .SE_RTP_OFFSET, .SE_CPOSE_T, .SE_CPOSE_Q, .TPL_GEOM, .TPL_TIME_SRC, .TPL_HDR_LEN, .TPL_BLOCKS, .TPL_BLOCK_STRIDE, .TPL_POINTS, .TPL_POINT_STRIDE, .TPL_BLOCK_HDR, .TPL_LATENCY_NS, .TPL_BLOCK_DT_NS, .TPL_POINT_DT_NS, .TPL_MIN_RANGE, .TPL_FIELD, .TPL_SCALE, .TPL_BEAM_ELEV, .TPL_BEAM_AZ, .ING_COMMIT, .ING_STATUS_COMMIT_PENDING, .ING_STATUS_CFG_ERR, .ING_STATUS_ERR_ENTRY, .ING_STATUS_ERR_CAUSE, .ING_LOAD, .ING_RX_UNMATCHED, .ING_RX_BAD, .ING_KEEPER_DROP, .SC_STATUS_OPEN, .SC_STATUS_BUF_WAIT, .SC_STATUS_HELD, .SC_STATUS_NEW_SET, .SC_SEQ, .SC_OPEN_COUNT, .SC_PKTS, .SC_DROP_UNPARSED, .SC_DROP_DUP, .SC_DROP_TIME, .SC_DROP_CAP, .SC_DROP_POSE, .SC_DROP_BUSY, .SC_DROP_NOBUF, .SC_NORETURN, .SC_REORDER, .SC_SEAL_MERGED]

/-- Fields of the register window, part 2. -/
def Fld.window2 : List Fld :=
  [.SC_POSE_REJECT, .SC_WRITE_ERR, .ENG_STATUS_STATE, .ENG_STATUS_GANGED, .ENG_STATUS_AXIS, .ENG_STATUS_MODE, .ENG_STATUS_STAGED, .ENG_STATUS_WEIGHTS, .ENG_STATUS_SAT, .ENG_STATUS_INFLIGHT, .ENG_RESUME_ROW, .ENG_PASSES, .ENG_PREEMPTS, .ENG_ROWS, .ENG_LOAD_BUBBLE, .ENG_FEED_STALL, .ENG_DRAIN_STEPS, .ENG_LOUVRE_GATED, .ENG_OUT_STALL, .ENG_FAULTS, .ENG_RERUNS, .ENG_FAULT_INFO_KIND, .ENG_FAULT_INFO_ROW, .ENG_FAULT_INFO_COL, .VU_FLAGS_INVALID, .VU_FLAGS_OVERFLOW, .VU_FLAGS_SAT, .VU_SR_STATE, .VU_SAT_COUNT, .VU_NAN_COUNT, .SPX_CTRL_THRESH, .SPX_CTRL_SKIP, .SPX_TILES_SPARSE, .SPX_TILES_DENSE, .SPX_ROWS_SKIPPED, .SPX_WR_BITMAP, .SPX_WR_RAW, .SPX_TILE_ERR, .SPX_BYTES_SAVED, .NS_SITES_OUT, .NS_PAIRS, .NS_PAIRS_DROPPED, .NS_GATHER_ROWS, .NS_SCATTER_ROWS, .NS_DIST_ROWS, .NS_DIST_ADMITS, .NS_TOPK_ELEMS, .NS_STALE, .BC_EN, .BC_PARTITION, .BC_COMMIT_PENDING, .BC_STEP_RUNNING, .BC_TRIGGER, .BC_WINDOW_US, .BC_MAX_TOKENS, .BC_DEADLINE_MS, .BC_OCCUPIED, .BC_WAITING, .BC_DESC_BASE, .BC_COMMIT]

/-- Fields of the register window, part 3. -/
def Fld.window3 : List Fld :=
  [.BC_DONE, .BC_STEPS, .BC_ROWS, .BC_REFUSED, .BC_BAD_DONE, .PRD_VALID, .PRD_FALLBACK, .PRD_COMMIT_PENDING, .PRD_REENABLE_PENDING, .PRD_SLICE, .PRD_WINDOW_LOG2, .PRD_THRESH, .PRD_EPS, .PRD_LIMIT, .PRD_BURST, .PRD_AUDITED, .PRD_MISSES, .PRD_LAST_RATE, .PRD_FALLBACKS, .PRD_COMMIT, .PRD_REENABLE, .CORE_ID_PHYS, .CORE_ID_LOGICAL, .CORE_ID_DIE, .CORE_ID_ENGINES, .CORE_STATUS_BUSY, .CORE_STATUS_PREEMPTED, .CORE_STATUS_FENCED, .SQ_STOP, .SQ_CMDS, .SQ_PREEMPTS, .SQ_ERRORS, .SQ_CONT_ERRORS, .SEM_VALUE, .SEM_SET_NO, .SEM_SET_VALUE, .CTX_STATE, .CTX_PART, .CTX_SAFETY, .CTX_LOOPS, .CTX_PC, .CTX_BASE, .CTX_JOB, .CTX_CFLAGS, .CTX_ERR_CODE, .CTX_ERR_OPCODE, .CTX_ERR_ADDR, .CTX_ERR_DETAIL, .CTX_CNT, .CTX_CMDS, .STG_GEOM_W_KIB, .STG_GEOM_W_BANKS, .STG_GEOM_W_GROUPS, .STG_GEOM_A_KIB, .STG_GEOM_A_BANKS, .STG_GEOM_A_GROUPS, .STG_GEOM_P_KIB, .STG_GEOM_P_BANKS, .STG_GEOM_P_GROUPS, .STG_GEOM_ROW_BYTES]

/-- Fields of the register window, part 4. -/
def Fld.window4 : List Fld :=
  [.STG_GEOM_GROUP_BANKS, .STG_SHUT_W, .STG_SHUT_A, .STG_SHUT_P, .STG_STATE_W, .STG_STATE_A, .STG_STATE_P, .STG_CONFLICT_W, .STG_CONFLICT_A, .STG_CONFLICT_P, .STG_NARROW_WAIT, .STG_NARROW_FORCED, .STG_CRC_RETRY, .STG_CRC_FAIL, .STG_CRC_LAST, .STG_POISON_READS, .STG_SHUT_REFUSED, .STG_WK_HELD, .STG_WK_WAITING, .STG_WK_GRANTS, .STG_WK_REFUSED, .WK_VALID, .WK_STORE, .WK_CORE, .WK_DIE, .WK_CTX, .WK_OFFSET, .WK_LENGTH, .VT_GEOM_KIB, .VT_GEOM_BANKS, .VT_GEOM_SEGMENTS, .VT_SHUT, .VT_STATE, .VT_CONFLICT, .VT_CRC_RETRY, .VT_CRC_FAIL, .VT_CRC_LAST, .VT_SHUT_REFUSED, .VT_SLOT_OPS, .VT_ADDS, .FAB_RD_INFLIGHT, .FAB_WR_INFLIGHT, .FAB_TAG_WAIT, .FAB_RELAYED, .FAB_LINK_ABORTS, .HBM_STATUS_STATE, .HBM_STATUS_IMBALANCE, .HBM_STATUS_SCRUB_DONE, .HBM_HASH_M, .HBM_IMB_SHARE, .HBM_IMB_LIMIT, .HBM_IMB_WINDOWS, .HBM_CE, .HBM_UE, .HBM_UE_ADDR, .HBM_CH_GRANULES, .IGN_STATUS_STATE, .IGN_STATUS_PEER_DIE, .IGN_STATUS_PEER_PORT, .IGN_STATUS_UNUSED]

/-- Fields of the register window, part 5. -/
def Fld.window5 : List Fld :=
  [.IGN_LANES_TX, .IGN_LANES_RX, .IGN_CRC_ERR, .IGN_REPLAYS, .IGN_RETRAINS, .IGN_BLOCKS_TX, .IGN_BLOCKS_RX, .CH_VALID, .CH_KIND, .CH_PARTITION, .CH_DIE, .CH_PORT, .CH_IPV6, .CH_VLAN_EN, .CH_VLAN_ID, .CH_UDP_LOCAL, .CH_UDP_PEER, .CH_PEER_ADDR, .CH_CLASS, .CH_TO_CLASS, .CH_TRIGGER, .CH_REQ_MAX, .CH_CHSEQ, .CH_BAD, .CH_REQ_EXPECT, .PT_STATE, .PT_SAFETY, .PT_SLOT_LOG2, .PT_EPOCH, .PT_SEQ, .PT_JSEQ, .PT_RING_BASE, .PT_MIRROR_BASE, .PT_OPEN, .PT_WITHDRAWN, .PT_LATE, .PT_RESENDS, .PT_RESEND_MISS, .PT_POST_ERRORS, .JOB_COMMIT, .JOB_STATUS_COMMIT_PENDING, .JOB_STATUS_CFG_ERR, .JOB_STATUS_ERR_PART, .JOB_FIRE, .JOB_FIRE_REFUSED, .JT_VALID, .JT_KIND, .JT_PARTITION, .JT_DEPTH, .JT_CHANNEL, .JT_HELD, .JT_SKIPPED, .JT_DESC, .BELL_DOORBELL, .BELL_HOLD_SET, .BELL_HOLD_CLR, .BELL_HOLDING, .BELL_BAD, .BELL_MERGED, .BELL_BAD_COMPLETE]

/-- Fields of the register window, part 6. -/
def Fld.window6 : List Fld :=
  [.BELL_PEND, .BELL_MASK, .BELL_RAW, .BELL_ACTIVE, .LATCH_CFG_EDGE, .LATCH_EDGES, .LATCH_LEVEL, .BELL_TGT_KIND, .BELL_TGT_INDEX, .BELL_TGT_PRIO, .BELL_REC, .BELL_CLAIM, .BELL_COMPLETE, .BELL_TCTL_NEST, .BELL_TCTL_LEVEL, .BELL_TCTL_ACTIVE, .BELL_TCTL_DEPTH, .BELL_MOD_US, .BELL_MOD_COUNT, .BELL_MOD_HELD, .BELL_MOD_ARMED, .ULS_SAFE_PARTS, .ULS_SAFE_CAUSE, .ULS_SAFE_PART, .ULS_COMMIT, .ULS_STATUS_COMMIT_PENDING, .ULS_STATUS_ALIVE, .ULS_STATUS_CFG_ERR, .ULS_STATUS_ERR_ENTRY, .ULS_STATUS_ERR_CAUSE, .ULS_SAFE_REQ, .ULS_SAFE_REL, .ULS_KEEPER_BEAT, .ULS_EVALS, .ULS_DISAGREE, .ULS_MODEL_DISAGREE, .ULS_NET_BAD, .SF_EN, .SF_PORT, .SF_IPV6, .SF_VLAN_EN, .SF_VLAN_ID, .SF_UDP_LOCAL, .SF_UDP_PEER, .SF_PEER_ADDR, .SF_CONN_ID, .SF_CRC_SEED, .SF_HEARTBEAT_MS, .SF_SEQ, .ZN_VALID, .ZN_KIND, .ZN_PARTITION, .ZN_NVERT, .ZN_TIME_REQ, .ZN_GROUP, .ZN_LEAD, .ZN_THRESH, .ZN_FTTI_MS, .ZN_STREAMS, .ZN_ZLO]

/-- Fields of the register window, part 7. -/
def Fld.window7 : List Fld :=
  [.ZN_ZHI, .ZN_TRIG, .ZN_TRIG_DIE, .ZN_K, .ZN_N, .ZN_MISS_LIMIT, .ZN_LOSS_MAX, .ZN_NET_FSEQ, .ZN_NET_OCCUPIED, .ZN_STATUS_CLEAR, .ZN_STATUS_DISAGREE, .ZN_STATUS_CAUSE, .ZN_MISSES, .ZN_COUNT, .ZN_FSEQ, .ZN_HIST, .ZN_LAST_CLEAR, .ZN_VX, .ZN_VY, .PG_ENGINES_LO, .PG_ENGINES_HI, .PG_LIST, .PG_PARTITION, .PG_SLACK_US, .PG_ROWS, .PG_GOLDEN, .PG_OUT, .PRF_LAST, .PRF_STATE, .PRF_MISSED, .PRF_PASSES, .PRF_MERGED, .BS_EN, .BS_REF, .BS_TEST, .BS_PAT_N, .BS_PAT_IN, .BS_REF_MIN, .BS_REF_MAX, .BS_PAT_BASE, .BS_STATE_OK, .BS_STATE_WHY, .BS_FAILS, .BS_LAST_REF, .MUL_VALID, .MUL_SAFE_WRITE, .MUL_READ, .MUL_WRITE, .MUL_BASE, .MUL_LIMIT, .MUL_COMMIT, .MUL_STATUS_COMMIT_PENDING, .MUL_REFUSED, .MUL_LAST_ADDR, .MUL_LAST_TAG, .MUL_LAST_WRITE, .HG_PHYS, .HG_VALID, .HG_PART, .HG_MOVED]

/-- Fields of the register window, part 8. -/
def Fld.window8 : List Fld :=
  [.FLT_FENCED_ENG_LO, .FLT_FENCED_ENG_HI, .FLT_FENCED_CORES, .FLT_RETIRED_SEG, .FLT_DIE_FAILED, .FLT_ENG_LIMIT, .FLT_CE_ROW_LIMIT, .FLT_SEQ, .FLT_COUNT, .FLT_LAST, .FUSE_ORDER, .FUSE_DIES, .FUSE_SEALED, .FUSE_OWNED, .FUSE_DECOMM, .FUSE_ENG_MASK, .FUSE_DEV_HASH, .FUSE_OWNER_HASH, .FUSE_RB, .SEC_SLOT, .SEC_TRIAL, .SEC_STATE, .SEC_STATUS_A, .SEC_STATUS_B, .SEC_RANDOM, .TR_REQ, .TR_RSP, .TR_GO, .TR_STATE, .TR_DONE, .TR_BUSY_DROP, .TR_NONCE, .PWR_DOM_ON, .PWR_EST, .PWR_LIMIT, .LV_FLOOR, .LV_GATE, .LV_POWER, .LV_THERMAL, .TH_SENSOR, .TH_WARN, .TH_CRIT, .TH_MAX, .PKG_REQ, .PKG_STATE, .PKG_REQ_ERR, .PKG_WAKE_CAUSE, .PKG_WAKE_LATCH, .PKG_WAKE_AT, .ETH_STATUS_LINK, .ETH_STATUS_SPEED, .ETH_STATUS_SECURE, .ETH_STATUS_PEERS, .ETH_RX_FRAMES, .ETH_TX_FRAMES, .ETH_RX_ICV_FAIL, .ETH_RX_REPLAY, .ETH_RX_UNPROTECTED, .ETH_FEC_UNCORR, .PCIE_APT_BASE]

/-- Fields of the register window, part 9. -/
def Fld.window9 : List Fld :=
  [.PCIE_STATUS_DSTATE, .PCIE_STATUS_LINK, .PCIE_STATUS_WIDTH, .PCIE_STATUS_GEN, .PCIE_ERR]

/-- Every field of the register window. -/
def Fld.window : List Fld :=
  Fld.window0 ++ Fld.window1 ++ Fld.window2 ++ Fld.window3 ++ Fld.window4 ++ Fld.window5 ++ Fld.window6 ++ Fld.window7 ++ Fld.window8 ++ Fld.window9

/-- Entries of a field: the product of its table levels. -/
def Fld.count (f : Fld) : Nat := f.info.dims.foldl (fun a p => a * p.1) 1

end Sys2Proof.Machine
end

