-- ==== Sys2Proof/Machine/Types.lean ====
section
/-! DEFINITION. The records that the units keep beside their registers: commands in flight, passes, jobs, records on their way to
a ring. -/

namespace Sys2Proof.Machine

/-- A transaction, or its answer, as it crosses a die link: the fields of its header flit, and its data flits (12 R552). -/
structure LinkTxn where
  /-- Package address. -/
  addr : Nat
  /-- Transit tag. -/
  tag : Nat
  /-- OP: 1 read, 2 write, 3 add, 4 slot operation, 5 semaphore add, 6 doorbell, 7 read data, 8 completion. -/
  op : Nat
  /-- Tag of the issuing die. -/
  id : Nat
  /-- Issuing die. -/
  die : Nat
  /-- Length in flits. -/
  flits : Nat
  /-- Status of a completion or of read data. -/
  status : Nat
  /-- Operation detail, 5 bytes. -/
  detail : List Byte
  /-- The data flits. -/
  data : List Byte
deriving DecidableEq, Repr

/-- The link layer of an Ignov port (12 R551 to R556). -/
structure LinkPort where
  /-- Replay buffer: SEQ and flits of the blocks sent and not acknowledged, oldest first. -/
  replay : List (Nat × List Byte) := []
  /-- Flits that wait to leave in the next block. -/
  open_ : List Byte := []
  /-- Flits received of a transaction that the next block continues. -/
  rest : List Byte := []
  /-- Receive buffers that the far end has freed: for requests, and for responses. -/
  credit : Nat × Nat := (0, 0)
deriving DecidableEq, Repr

/-- What leaves the package, in the order in which it leaves: the model's own log for the outside to see (log entry 11). -/
inductive Output
  /-- The value a register or host read returns. -/
  | readData (who : Requester) (value : Nat)
  /-- An access that completes with an error response; `code` as in 10 R472. -/
  | accessError (who : Requester) (code : Nat)
  /-- The bytes a memory read returns. -/
  | readBytes (who : Requester) (bytes : List Byte)
  /-- An MSI-X message of a host vector (14 R628). -/
  | msix (vector : Nat)
  /-- A PME message (14 R632). -/
  | pme
  /-- A UDP datagram from a port: die, port, IP version 6, VLAN tag, peer address, ports and payload, and the Ethernet frame that
  carries it, without its FCS and before MACsec protection (00 R6, 13 R592). -/
  | datagram (die port : Nat) (v6 : Bool) (vlan : Option Nat) (peer local_ remote : Nat) (payload frame : List Byte)
  /-- An Ethernet frame from a port. -/
  | frame (die port : Nat) (bytes : List Byte)
  /-- An Ignov block from a port. -/
  | block (die port : Nat) (bytes : List Byte)
  /-- A transaction or answer that an Ignov port has received whole and hands to its die's mesh (12 R552). -/
  | linkTxn (die port : Nat) (txn : LinkTxn)
  /-- The answer to a transom request that came over the network: the IP version, address and UDP port to which it goes, and the UDP
  payload (17 R737). -/
  | transomNet (v6 : Bool) (peer remote : Nat) (datagram : List Byte)
  /-- A PTP event message sent from a port: its egress stamp as a full timestamp (02 R55, R58), and the message's fields that the
  device or the command fixes, each at its byte offset. -/
  | ptpMessage (die port : Nat) (stamp : List Byte) (fields : List (Nat × List Byte))
  /-- A PTP message handed to the Keeper's instance with its ingress stamp as a full timestamp (02 R55, R58, 03 R98). -/
  | ptpHandoff (die port : Nat) (stamp bytes : List Byte)
deriving DecidableEq, Repr

/-- A half of a 64-bit register captured for a requester (00 R10, 02 R47). -/
structure Capture where
  /-- Who read the low half. -/
  who : Requester
  /-- Die of the register. -/
  die : Nat
  /-- Offset at which the captured value is read. -/
  off : Nat
  /-- Captured value. -/
  value : Nat
deriving DecidableEq, Repr

/-- A frame in a Keeper's receive queue (03 R98, R99). -/
structure KeptFrame where
  /-- Die of the Keeper. -/
  die : Nat
  /-- The frame. -/
  frame : List Byte
  /-- Its UDP payload; empty where it carries none. -/
  payload : List Byte
  /-- Its ingress stamp, a full timestamp (02 R55, R58). -/
  stamp : List Byte
deriving DecidableEq, Repr

/-- A stamp in a port's stamp FIFO (02 R61). -/
structure Stamp where
  /-- Die of the port. -/
  die : Nat
  /-- Port. -/
  port : Nat
  /-- Seconds. -/
  sec : Nat
  /-- Nanoseconds. -/
  ns : Nat
  /-- Fraction, unit 2⁻¹⁶ ns. -/
  frac : Nat
  /-- sequenceId. -/
  seqId : Nat
  /-- messageType. -/
  msgType : Nat
  /-- domainNumber. -/
  domain : Nat
deriving DecidableEq, Repr

/-- An active loop of a context (10 R457). -/
structure Loop where
  /-- Local offset of the first command of the body. -/
  start : Nat
  /-- Local offset after the body. -/
  stop : Nat
  /-- Iterations. -/
  count : Nat
  /-- Iteration that runs. -/
  index : Nat
  /-- Counter that receives the index. -/
  idxc : Nat
deriving DecidableEq, Repr

/-- How a command completes: error code, flags and detail (10 R466, R472). -/
structure Ending where
  /-- Error code; 0 is none. -/
  code : Nat
  /-- Flag byte. -/
  flags : Nat
  /-- Detail of the error. -/
  detail : Nat
deriving DecidableEq, Repr

/-- A command as it was issued: its place, its words and the counters that its address words use (10 R440). -/
structure Issue where
  /-- Local offset of the command. -/
  addr : Nat
  /-- Words w0 to w7. -/
  words : List Nat
  /-- Counters c[0] to c[7] at issue. -/
  cnt : List Nat
  /-- First row not yet done, for a command that resumes (R473). -/
  row : Nat
  /-- Number given at its first issue: its place in list order, and the name under which a pass poisons rows (11 R507). -/
  ord : Nat
  /-- Entries of the hinge table at issue that are not their reset value: die, logical core and physical core (R441). -/
  hinge : List (Nat × Nat × Nat) := []
  /-- The list had chained the core's engines when the command first issued (05 R230, R431). -/
  chained : Bool := false
  /-- Flags of what it did before it stopped at a pre-emption point (R466). -/
  flags : Nat := 0
deriving DecidableEq, Repr

/-- A command in flight. -/
structure Flight where
  /-- Number given at issue; rising in list order. -/
  id : Nat
  /-- The command. -/
  cmd : Issue
  /-- Units it uses: bits 3 to 0 engines, 4 vector unit, 5 mover; 0 for the sequencer. -/
  units : Nat
  /-- Tick of its issue. -/
  tick : Nat
  /-- How it ended, once it has; it still waits for its completion. -/
  ending : Option Ending
  /-- It has started: a command of the vector unit or the mover waits for the one of its context before it (10 R426). -/
  begun : Bool := true
  /-- How far it gets, and what its reads meet. -/
  course : Course := {}
deriving DecidableEq, Repr

/-- What a list belongs to. -/
inductive Owner
  /-- No list. -/
  | none
  /-- A job: partition and job sequence. -/
  | job (part jseq : Nat)
  /-- A proof list (15 R658). -/
  | proof
deriving DecidableEq, Repr

/-- What a context holds beside its registers. -/
structure Ctx where
  /-- Commands in flight, in list order. -/
  flight : List Flight := []
  /-- Active loops, innermost first. -/
  loops : List Loop := []
  /-- Commands to issue again after a pre-emption, in list order (10 R431). -/
  again : List Issue := []
  /-- The list has chained the core's engines (05 R230). -/
  gang : Bool := false
  /-- END has issued (10 R465). -/
  ended : Bool := false
  /-- The error that stops the list: id, code, opcode, address, detail of the earliest failing command (R470). -/
  stop : Option (Nat × Nat × Nat × Nat × Nat) := none
  /-- Whose list runs. -/
  owner : Owner := .none
  /-- VU_SR_STATE of a VEC or QUANT that a pre-emption has stopped (10 R473). -/
  sr : Option Nat := none
deriving DecidableEq, Repr

/-- A semaphore add on its way (10 R451, R452). -/
structure SemAdd where
  /-- Target die. -/
  die : Nat
  /-- Target physical core. -/
  core : Nat
  /-- Semaphore. -/
  sem : Nat
  /-- Count added. -/
  count : Nat
  /-- Sender's die, core, context and command, which the add acknowledges. -/
  sdie : Nat
  score : Nat
  sctx : Nat
  sid : Nat
deriving DecidableEq, Repr

/-- A CREDIT_GET that waits at its target (11 R513). -/
structure CreditWait where
  /-- Target die and physical core. -/
  die : Nat
  core : Nat
  /-- 0 = A-store, 1 = P-store. -/
  store : Nat
  /-- Window. -/
  off : Nat
  len : Nat
  /-- Sender's die, core, context and command. -/
  sdie : Nat
  score : Nat
  sctx : Nat
  sid : Nat
deriving DecidableEq, Repr

/-- Weights of one engine: the tile, its 2:4 header and its scales as LOADW read them (05 R224, 07 R323). -/
structure Weights where
  /-- Format code. -/
  fmt : Nat
  /-- Reduction positions of the whole pass. -/
  k : Nat
  /-- Output columns. -/
  n : Nat
  /-- 2:4 tile. -/
  sp24 : Bool
  /-- Loaded under a gang. -/
  ganged : Bool
  /-- Tile bytes. -/
  tile : List Byte
  /-- 2:4 tile header. -/
  hdr : List Byte
  /-- MXFP4 scale plane. -/
  scale : List Byte
  /-- The LOADW that read them, its context, and the slice of its gang that they are. -/
  load : Issue
  ctx : Nat
  slice : Nat
deriving DecidableEq, Repr

/-- A pass in an engine or a gang (05 R222). -/
structure Pass where
  /-- Context of the STREAM. -/
  ctx : Nat
  /-- Its command in flight. -/
  id : Nat
  /-- The STREAM. -/
  cmd : Issue
  /-- Engines it runs on. -/
  engines : List Nat
  /-- Weights of its engines at its boundary, in the order of `engines` (05 R223). -/
  ws : List Weights := []
  /-- SPX_CTRL_SKIP at its boundary (07 R318, R334). -/
  skip : Bool := false
  /-- Row that it has issued at its boundary, and what it sends to the array; none: it issues no row. -/
  head : Option (Nat × List Nat) := none
  /-- Rows below this one have been taken: issued, and written or discarded; or skipped. -/
  next : Nat := 0
  /-- Rows below this one have been written or skipped: a re-run writes none of them (05 R252, 07 R320). -/
  written : Nat := 0
  /-- It runs again after a fault (05 R252). -/
  rerun : Bool := false
  /-- It ends with this error, and takes no further row (05 R233, R243, R322, R840). -/
  fail : Option Ending := none
  /-- Flags collected so far. -/
  flags : Nat := 0
deriving DecidableEq, Repr

/-- What waits in an engine's queue (10 R838). -/
inductive Queued
  /-- A weight load that has read its tile; `ctx` and `id` name its command, `chain` the engines that load together (05 R231). -/
  | load (ctx id : Nat) (chain : List Nat) (w : Weights)
  /-- A pass. -/
  | pass (p : Pass)
deriving DecidableEq, Repr

/-- What an engine holds beside its registers. -/
structure Engine where
  /-- Loads and passes that have not begun, oldest first. -/
  queue : List Queued := []
  /-- Passes that have issued and not completed, oldest first. -/
  flight : List Pass := []
  /-- Active weights. -/
  active : Option Weights := none
  /-- Staged weights. -/
  staged : Option Weights := none
  /-- Context whose LOADW staged them. -/
  stagedCtx : Nat := 0
  /-- A pre-emption drain is under way (05 R247). -/
  drain : Bool := false
  /-- A weight load that a fault has discarded and the engine repeats, and the tick from which it does (05 R841, R842). -/
  reload : Option (Weights × Nat) := none
  /-- A repeated load has failed with this error: the pass that needs it ends with it (log entry 142). -/
  reloadFail : Option Ending := none
  /-- TS64 of the re-run faults of the last 24 h (16 R689). -/
  faults : List Nat := []
  /-- A load or pass has been queued since the core's reset: until then the counters of its stalls stand at 0 (05 R256). -/
  ran : Bool := false
deriving DecidableEq, Repr

/-- A frame of a point or audio stream, open or sealed (03 R124 to R138). -/
structure Frame where
  /-- Die of the stream. -/
  die : Nat
  /-- Stream-table entry. -/
  entry : Nat
  /-- Frame sequence. -/
  seq : Nat
  /-- Frame base, TS64. -/
  base : Nat
  /-- Sealed. -/
  isSealed : Bool := false
  /-- Seal firing time, TS64. -/
  sealTime : Nat := 0
  /-- Time quality byte of the seal. -/
  quality : Nat := 0
  /-- Epoch at the seal. -/
  epoch : Nat := 0
  /-- Buffer, once it has one. -/
  buf : Option Nat := none
  /-- Package address of that buffer. -/
  bufAddr : Nat := 0
  /-- Points written, or samples per channel. -/
  count : Nat := 0
  /-- Packets that contributed. -/
  packets : Nat := 0
  /-- Header FLAGS so far. -/
  flags : Nat := 0
  /-- Header drop counts. -/
  dropTime : Nat := 0
  dropCap : Nat := 0
  dropPose : Nat := 0
  dropBusy : Nat := 0
  dropNobuf : Nat := 0
  /-- Fields of the ingest set under which the frame opened. -/
  streamId : Nat := 0
  part : Nat := 0
  kind : Nat := 0
  safety : Bool := false
  cap : Nat := 0
  channels : Nat := 0
  /-- Package address of its header slot. -/
  hdrAddr : Nat := 0
  /-- Audio positions written. -/
  filled : List Nat := []
  /-- Audio: base of the frame after it, once sealed. -/
  nextBase : Nat := 0
  /-- The header has been written. -/
  hdrDone : Bool := false
  /-- Accepted: it owes a record (13 R568). -/
  accepted : Bool := false
  /-- Order of acceptance among the package's units. -/
  ord : Nat := 0
  /-- A job has bound it. -/
  bound : Bool := false
  /-- Its ending record has been handed over. -/
  ended : Bool := false
deriving DecidableEq, Repr

/-- One sample of a pose stream (03 R113). -/
structure PoseSample where
  die : Nat
  entry : Nat
  /-- TS64. -/
  time : Nat
  /-- Translation, LSB 1/1024 m. -/
  tx : Int
  ty : Int
  tz : Int
  /-- Quaternion, LSB 2⁻³⁰. -/
  qw : Int
  qx : Int
  qy : Int
  qz : Int
deriving DecidableEq, Repr

/-- A packet in a decode queue (03 R141). -/
structure Packet where
  die : Nat
  entry : Nat
  /-- Receive stamp, TS64. -/
  stamp : Nat
  /-- Frame sequence it belongs to (R125). -/
  seq : Nat
  /-- Entry is a safety stream. -/
  safety : Bool
  /-- UDP payload. -/
  payload : List Byte
deriving DecidableEq, Repr

/-- A fired phase event on its way to its target (02 R84 to R87). -/
structure Fired where
  /-- Die of the table. -/
  die : Nat
  /-- Number of the tick whose dispatch it belongs to. -/
  group : Nat
  /-- Entry of the table. -/
  entry : Nat
  /-- Kind: 0 seal, 1 blind-sector check, 2 proof pass, 3 job start, 4 publish deadline. -/
  kind : Nat
  /-- Phase based; false for a PTP instant. -/
  phased : Bool
  /-- Master and order of crossing, or the instant. -/
  master : Nat
  cross : Nat
  /-- Target and its die. -/
  target : Nat
  targetDie : Nat
  /-- Firing time, TS64, and time quality byte. -/
  time : Nat
  quality : Nat
deriving DecidableEq, Repr

/-- A frame entry of a job: none when the bind found no frame (13 R574). -/
structure Bind where
  die : Nat
  entry : Nat
  /-- Frame sequence of the bound frame. -/
  seq : Option Nat
deriving DecidableEq, Repr

/-- A list of a job (13 R573, R576): 0 waits, 1 runs, 2 has ended or stopped. -/
structure JobList where
  die : Nat
  /-- Logical core. -/
  core : Nat
  /-- Local offset of the list. -/
  off : Nat
  state : Nat
  /-- Physical core on which it runs. -/
  phys : Nat
deriving DecidableEq, Repr

/-- A job (13 R572 to R582). -/
structure Job where
  part : Nat
  jseq : Nat
  /-- Die and number of its trigger. -/
  die : Nat
  trigger : Nat
  /-- 0 = phase, 1 = step, 2 = request, 3 = host. -/
  kind : Nat
  /-- Order of acceptance. -/
  ord : Nat
  /-- TS64 of acceptance, and tick. -/
  accepted : Nat
  tick : Nat
  /-- Context of its lists. -/
  ctx : Nat
  binds : List Bind
  lists : List JobList
  deadlineUs : Nat
  lateUs : Nat
  /-- Request: channel, request sequence and slot; step job: step in `reqSeq`, die and number of its decode class. -/
  channel : Nat
  reqSeq : Nat
  slot : Nat
  clsDie : Nat
  cls : Nat
  /-- Checked against its deadline; found late; tick of the check. -/
  checked : Bool := false
  late : Bool := false
  checkTick : Nat := 0
  /-- A PUBLISH RESULT has been handed over; its record stands in the ring. -/
  published : Bool := false
  standing : Bool := false
  /-- The unit has ended with a record handed over. -/
  ended : Bool := false
  /-- Engines on which a list of the job has issued a pass: die and die engine (15 R665). -/
  engines : List (Nat × Nat) := []
deriving DecidableEq, Repr

/-- A finished job of a phase trigger that no publish-deadline event has checked (13 R580, R581). -/
structure DoneJob where
  part : Nat
  /-- Die and number of its trigger. -/
  die : Nat
  trigger : Nat
  /-- Order and TS64 of acceptance. -/
  ord : Nat
  accepted : Nat
  /-- Its RESULT stands. -/
  standing : Bool
deriving DecidableEq, Repr

/-- A decode request (09 R386 to R402). -/
structure DecReq where
  /-- Die and class of its batcher. -/
  die : Nat
  cls : Nat
  part : Nat
  channel : Nat
  reqSeq : Nat
  /-- Order of acceptance, TS64 and tick of acceptance. -/
  ord : Nat
  accepted : Nat
  tick : Nat
  /-- Slot, once it has joined. -/
  slot : Option Nat := none
  /-- Tokens produced. -/
  tokens : Nat := 0
  /-- Cancelled while its slot is in a running step. -/
  cancelled : Bool := false
  /-- Its result record has been handed over. -/
  ended : Bool := false
deriving DecidableEq, Repr

/-- A running step of a class (09 R393, R394). -/
structure StepRun where
  die : Nat
  cls : Nat
  /-- Step number. -/
  step : Nat
  /-- Slots that take part, rising. -/
  rows : List Nat
  /-- Slots whose last token this step produces. -/
  last : List Nat
  /-- Package address of the descriptor. -/
  desc : Nat
deriving DecidableEq, Repr

/-- A record on its way into its partition's ring, without SEQ and ENTERED (13 R583, R587). -/
structure Rec where
  part : Nat
  jseq : Nat
  reqSeq : Nat
  kind : Nat
  cause : Nat
  appType : Nat
  rflags : Nat
  accepted : Nat
  channel : Nat
  frames : List (List Byte)
  attach : List (List Byte)
  cflags : Nat
  trigger : Nat
  err : Nat
  detail : Nat
  payload : List Byte
  /-- Channels besides its own that get it: all of the partition for an EPOCH record. -/
  toAll : Bool := false
  /-- Epoch it is written under. -/
  epoch : Nat
  /-- The PUBLISH that handed it over: die, core, context, command. -/
  pub : Option (Nat × Nat × Nat × Nat) := none
  /-- TS64 after which it is published late (09 R401). -/
  dueBy : Option Nat := none
deriving DecidableEq, Repr

/-- A record that stands in a ring and waits to be sent on a channel (13 R591), with the die and trigger of its job. -/
structure Send where
  channel : Nat
  part : Nat
  seq : Nat
  job : Option (Nat × Nat)
deriving DecidableEq, Repr

/-- A record that a channel has sent, for RESEND and repeated requests (13 R595, R597). -/
structure Sent where
  channel : Nat
  chseq : Nat
  part : Nat
  seq : Nat
deriving DecidableEq, Repr

/-- The record first sent for a request (13 R595). -/
structure Answer where
  channel : Nat
  reqSeq : Nat
  part : Nat
  seq : Nat
deriving DecidableEq, Repr

/-- A proof of engines of one core (15 R657 to R663). -/
structure Proof where
  die : Nat
  core : Nat
  /-- Proof group. -/
  group : Nat
  /-- Requested engines of the core. -/
  engines : List Nat
  /-- Tick of the request. -/
  tick : Nat
  /-- Number of the request under R650 that it belongs to; 0 for none. -/
  model : Nat := 0
  /-- 0 = its list waits, 1 = its list runs, 2 = its list has ended, 3 = its list has stopped. -/
  state : Nat := 0
deriving DecidableEq, Repr

/-- An injection of a stream's pattern into a zone frame: the number of the check that made it, and whether that check's network test
is still to be decided (15 R653). -/
structure Injection where
  stream : Nat
  check : Nat
  undecided : Bool
deriving DecidableEq, Repr

/-- A zone frame of a zone: the two channels' counts, whether a frame of its streams lost points, the patterns injected into it, and,
once closed, the lead stream's frame sequence (15 R640, R641, R645, R653). -/
structure ZoneFrame where
  a : Nat := 0
  b : Nat := 0
  sensor : Bool := false
  injected : List Injection := []
  fseq : Nat := 0
deriving DecidableEq, Repr

/-- A section entry of an image (17 R725). -/
structure Section where
  index : Nat
  kind : Nat
  part : Nat
  sflags : Nat
  variant : Nat
  dest : Nat
  offset : Nat
  len : Nat
  iv : List Byte
  tag : List Byte
  hash : List Byte
deriving DecidableEq, Repr

/-- A die record of a variant (17 R726). -/
structure VariantDie where
  die : Nat
  lcores : Nat
  full : Nat
  vseg : Nat
  hbmBase : Nat
  hbmMib : Nat
deriving DecidableEq, Repr

/-- A variant entry (17 R726). -/
structure Variant where
  part : Nat
  index : Nat
  dies : List VariantDie
deriving DecidableEq, Repr

/-- A port entry of the network section (19 R788). -/
structure Port where
  die : Nat
  port : Nat
  mode : Nat
  flags : Nat
  vlan : Nat
  mac : Nat
  ipv4 : Nat
  prefix4 : Nat
  gateway4 : Nat
  ipv6 : Nat
  prefix6 : Nat
  gateway6 : Nat
deriving DecidableEq, Repr

/-- A neighbour entry of the network section (19 R788). -/
structure Neighbour where
  addr : Nat
  version : Nat
  die : Nat
  port : Nat
  mac : Nat
deriving DecidableEq, Repr

/-- A running image: what the Keeper took from its header, its manifest and its network section (17 R723 to R726, 19 R788). -/
structure Image where
  /-- Configuration-store offset of its slot. -/
  base : Nat
  length : Nat
  manHash : List Byte
  fwHash : List Byte
  fwSvn : Nat
  hostPart : Nat
  mgmtUdp : Nat
  partSafety : Nat
  partUsed : Nat
  /-- Anti-rollback pairs: counter and version. -/
  rb : List (Nat × Nat)
  sections : List Section
  variants : List Variant
  /-- Package addresses of grid descriptors. -/
  grids : List Nat
  ports : List Port
  peers : List Neighbour
  /-- Header of the network section: bytes 4 to 14. -/
  ptp : List Byte
  /-- The plain register-write sections, by section index, as the Keeper keeps them for restarts (18 R771). -/
  writes : List (Nat × List Byte)
deriving DecidableEq, Repr

/-- A next hop that the Keeper resolves (19 R794, R795). -/
structure Hop where
  die : Nat
  port : Nat
  v6 : Bool
  addr : Nat
  /-- MAC address, while it is resolved. -/
  mac : Option Nat
  /-- Refreshes in a row that went unanswered. -/
  misses : Nat
deriving DecidableEq, Repr

/-- What a grid keeps from its last GRID_OPEN on (04 R166, R169, R203). -/
structure GridRec where
  /-- Package address of the descriptor. -/
  addr : Nat
  /-- Bytes 0 to 79 as GRID_OPEN read them. -/
  geo : List Byte
  /-- Counts of the build. -/
  pointsIn : Nat := 0
  outOfGrid : Nat := 0
  cells : Nat := 0
  capPoints : Nat := 0
  probePoints : Nat := 0
  dupPoints : Nat := 0
  maxProbe : Nat := 0
  /-- An insert came out of order (R185). -/
  order : Bool := false
  /-- Built by MAP DILATE (08 R346). -/
  dilated : Bool := false
  /-- Slots taken in the superbrick and brick pools (07 R331). -/
  superbricks : Nat := 0
  bricks : Nat := 0
  /-- Accepted inserts: die, core, context, command. -/
  inserts : List (Nat × Nat × Nat × Nat) := []
  /-- The command that closes it: die, core, context, command. -/
  closer : Option (Nat × Nat × Nat × Nat) := none
deriving DecidableEq, Repr

end Sys2Proof.Machine
end

