-- ==== Sys2Proof/Machine/State.lean ====
section
/-! DEFINITION. The state of the package as plain data, the reasons a step can stop, and the state after reset. -/

namespace Sys2Proof.Machine

/-- The three copies of a shadowed register (00 R16 to R22): `vis` is the register itself, the shadow copy where the register is
shadowed; `pend` is the snapshot of a commit; `act` is the copy that the unit acts on. A register without a shadow uses `vis`. -/
inductive Layer
  | vis | pend | act
deriving DecidableEq, Repr

/-- One register field: which copy of which field, of which die, at which entry. -/
structure RegKey where
  /-- Field. -/
  fld : Fld
  /-- Copy. -/
  layer : Layer
  /-- Die; 0 for what the package has once. -/
  die : Nat
  /-- Entry; 0 for a field that is no table. -/
  idx : Nat
deriving DecidableEq, Repr

/-- Queues and records that are no registers; each is empty after reset. -/
structure Aux where
  /-- What has left the package, newest first (log entry 11). -/
  outputs : List Output := []
  /-- Captured register halves (00 R10). -/
  captures : List Capture := []
  /-- Stamp FIFOs of all ports, oldest first (02 R61). -/
  stamps : List Stamp := []
  /-- Contexts, by (die · 32 + core) · 4 + context. -/
  ctxs : List (Nat × Ctx) := []
  /-- Engines, by (die · 32 + core) · 4 + engine. -/
  engines : List (Nat × Engine) := []
  /-- Semaphore adds on their way, oldest first. -/
  semAdds : List SemAdd := []
  /-- CREDIT_GETs that wait at their targets, oldest first. -/
  credits : List CreditWait := []
  /-- Wickets that a CREDIT_RETURN has given back and that are not yet free: die, core, wicket (11 R514). -/
  returning : List (Nat × Nat × Nat) := []
  /-- Stored checks of store and vault rows that are not the check of the row's bytes, by package address (11 R498, R503). -/
  checks : List (Nat × Nat) := []
  /-- Rows whose next reads fail in the read path, with how many of them do, by package address (11 R500). -/
  flaky : List (Nat × Nat) := []
  /-- HBM words with one wrong bit, by package address: the next read corrects it (12 R546). -/
  weakWords : List Nat := []
  /-- Flags that the command or pass now performed has raised so far; 0 between the block's steps (10 R466). -/
  raised : Nat := 0
  /-- Package addresses of poisoned P-store rows, each with the number of a pass that poisoned it (11 R504, R507). -/
  poison : List (Nat × Nat) := []
  /-- Rows whose fault has asked for a row test at the next restart: package address and TS64 of detection (16 R696, R707). -/
  rowTests : List (Nat × Nat) := []
  /-- Package addresses of HBM words that are uncorrectable (12 R547). -/
  badWords : List Nat := []
  /-- Fired phase events that wait for their dispatch, oldest first (02 R84). -/
  fired : List Fired := []
  /-- Instants for which PTP-instant entries have fired, newest first: die · 256 + entry, and the instant (02 R53). -/
  instants : List (Nat × Nat) := []
  /-- Dispatched events on their way to another die (02 R87). -/
  remote : List Fired := []
  /-- Open and sealed frames (03 R124). -/
  frames : List Frame := []
  /-- Held pose samples, oldest first (03 R114). -/
  poses : List PoseSample := []
  /-- Last 64 sequence values accepted on each stream, newest first, by die · 48 + entry (03 R143). -/
  seqs : List (Nat × List Nat) := []
  /-- Decode queues of all dies, in order of arrival (03 R141). -/
  packets : List Packet := []
  /-- Jobs that have not ended or whose lists still run (13 R572). -/
  jobs : List Job := []
  /-- Finished jobs that a publish-deadline event has still to check (13 R580). -/
  done : List DoneJob := []
  /-- Records that wait for their ring, in order (13 R587). -/
  recs : List Rec := []
  /-- Records that stand in a ring and are not yet sent, in order (13 R591). -/
  sends : List Send := []
  /-- Records that the channels have sent (13 R597). -/
  sent : List Sent := []
  /-- The record first sent for each request (13 R595). -/
  answers : List Answer := []
  /-- Decode requests that wait or hold a slot, in acceptance order (09 R386). -/
  decs : List DecReq := []
  /-- Running steps of the decode classes (09 R390). -/
  steps : List StepRun := []
  /-- Proofs that have not ended (15 R657). -/
  proofs : List Proof := []
  /-- Requests under R650 with an engine that failed (15 R651). -/
  modelFails : List Nat := []
  /-- Open zone frames, by die · 64 + zone (15 R641). -/
  zoneOpen : List (Nat × ZoneFrame) := []
  /-- The newest closed zone frame that has not been evaluated, by die · 64 + zone (15 R644). -/
  zoneClosed : List (Nat × ZoneFrame) := []
  /-- Receive queues of the Keepers, oldest first (03 R98, R99). -/
  keeperQueue : List KeptFrame := []
  /-- Link layers of the Ignov ports, by die · 4 + port (12 R551 to R556). -/
  links : List (Nat × LinkPort) := []
  /-- The running image (17 R718). -/
  image : Option Image := none
  /-- Next hops that the Keeper resolves (19 R794). -/
  hops : List Hop := []
  /-- Indices of the image's adaptable sections that a write has reached since their last rewrite (09 R422). -/
  adapted : List Nat := []
  /-- Fault sequences whose fence or retirement is lifted at the next cold start (17 R739 LIFT_FENCE). -/
  lifts : List Nat := []
  /-- Corrected HBM words of the last 24 h: package address and TS64 (16 R688, class HBM_CE_ROW). -/
  corrected : List (Nat × Nat) := []
  /-- HBM rows that wait for their repair, in order of fault sequence: package address of the word that named the row, and the code
  of the fault's class (16 R703). -/
  repairs : List (Nat × Nat) := []
  /-- Grids that have been opened (04 R166). -/
  grids : List GridRec := []
  /-- Salts that the Keeper has drawn or replaced, by the address of their grid's descriptor; a warm or partition restart keeps them
  (04 R180, R181, 18 R771). -/
  salts : List (Nat × Nat) := []
  /-- The outstanding test challenge (17 R750). -/
  challenge : Option (List Byte) := none
deriving DecidableEq, Repr

/-- The package. -/
structure State where
  /-- Register fields that differ from their reset value, rising by `RegKey.cmp`. -/
  regs : List (RegKey × Nat)
  /-- Bytes of HBM, vaults and core stores by package address, rising; an unlisted byte reads as 0 (log entry 2). -/
  mem : List Host.Cell
  /-- Bytes of the configuration store by offset, rising; an unlisted byte reads as 0 (log entry 2). -/
  cfg : List Host.Cell
  /-- Queues and records. -/
  aux : Aux
  /-- The model's own counter of free values drawn so far (log entries 4 and 5). -/
  fresh : Nat
  /-- Commands that wait, oldest first (log entry 1). -/
  pending : List Instr
deriving DecidableEq, Repr

/-- Why the machine stops. No command of the block stops it: the spec gives every one an effect. -/
inductive Fault
  /-- Raised by no meaning; present because the interface asks for the type. Safe. -/
  | unreachable
deriving DecidableEq, Repr

/-- Why a command has no meaning here. -/
inductive Refusal
  /-- Raised by the arms of `exec` whose command is not modelled yet. Safe. -/
  | notModelled (mnemonic : String)
deriving DecidableEq, Repr

/-- The state before the first cold start: power has just come up, every register at its reset value (00 R15), nothing in any
memory, no image, and a cold start requested (18 R770; log entry 3). -/
def State.reset : State :=
  { regs := [], mem := [], cfg := [], aux := {}, fresh := 0, pending := [] }

end Sys2Proof.Machine
end

