-- ==== Sys2Proof/Machine/Ops.lean ====
section
/-! DEFINITION. Reading the state, and the primitive effects from which every command's effect is built. A command's effect is an
`Act`, plain syntax over the primitives of `Eff`; so what no primitive does, no command does. -/

namespace Sys2Proof.Machine

/-- Bits [lo + w - 1 : lo] of a number. -/
def bits (n lo w : Nat) : Nat := (n >>> lo) % 2 ^ w

/-- Bit `i` of a number. -/
def bit (n i : Nat) : Bool := bits n i 1 == 1

/-- A number whose bit `i` is set when `b` holds. -/
def bitIf (b : Bool) (i : Nat) : Nat := if b then 2 ^ i else 0

/-- A number with bit `i` set to `b`. -/
def putBit (n i : Nat) (b : Bool) : Nat := n - bitIf (bit n i) i + bitIf b i

/-- A number with `w` bits from `lo` replaced. -/
def putBits (n lo w v : Nat) : Nat := n - bits n lo w * 2 ^ lo + v % 2 ^ w * 2 ^ lo

/-- Two's complement reading of the low `w` bits. -/
def signed (w n : Nat) : Int := if bit n (w - 1) then (n % 2 ^ w : Nat) - (2 ^ w : Nat) else (n % 2 ^ w : Nat)

/-- The `w`-bit two's complement encoding of an integer. -/
def encode (w : Nat) (i : Int) : Nat := (i % (2 ^ w : Nat)).toNat

/-- 1 for true. -/
def b2n (b : Bool) : Nat := if b then 1 else 0

/-- The order of register keys. -/
def RegKey.cmp (a b : RegKey) : Ordering :=
  match compare a.fld.ctorIdx b.fld.ctorIdx with
  | .lt => .lt
  | .gt => .gt
  | .eq =>
    match compare a.layer.ctorIdx b.layer.ctorIdx with
    | .lt => .lt
    | .gt => .gt
    | .eq =>
      match compare a.die b.die with
      | .lt => .lt
      | .gt => .gt
      | .eq => compare a.idx b.idx

/-- The reset value of a field's entry (00 R15): the table's, but for the hinge entries, which map every logical core to the
physical core of its own number (16 R695). -/
def Fld.dflt (f : Fld) (idx : Nat) : Nat :=
  match f with
  | .HG_PHYS => idx % 32
  | _ => f.info.reset

/-- What an unlisted register key reads as. -/
def RegKey.dflt (k : RegKey) : Nat := k.fld.dflt k.idx % 2 ^ k.fld.info.width

/-- What an unlisted byte of a memory reads as (log entry 2). -/
def blankByte (_ : Nat) : Byte := 0

/-- A register field of a given copy. -/
def State.reg (s : State) (l : Layer) (f : Fld) (die idx : Nat) : Nat :=
  sparseGet RegKey.cmp RegKey.dflt ⟨f, l, die, idx⟩ s.regs

/-- A register field as a read of the register gives it: the shadow copy of a shadowed one (00 R22). -/
def State.rd (s : State) (f : Fld) (die : Nat) (idx : Nat := 0) : Nat := s.reg .vis f die idx

/-- The active copy of a shadowed field (00 R18). -/
def State.ac (s : State) (f : Fld) (die : Nat) (idx : Nat := 0) : Nat := s.reg .act f die idx

/-- A one-bit field. -/
def State.on (s : State) (f : Fld) (die : Nat) (idx : Nat := 0) : Bool := s.rd f die idx != 0

/-- A one-bit field of the active copy. -/
def State.acOn (s : State) (f : Fld) (die : Nat) (idx : Nat := 0) : Bool := s.ac f die idx != 0

/-- One byte of package memory. -/
def State.byte (s : State) (a : Nat) : Byte := sparseGet compare blankByte a s.mem

/-- One byte of the configuration store. -/
def State.cfgByte (s : State) (a : Nat) : Byte := sparseGet compare blankByte a s.cfg

/-- `n` bytes of package memory. -/
def State.bytes (s : State) (a n : Nat) : List Byte := sparseRead blankByte a n s.mem

/-- `n` bytes of the configuration store. -/
def State.cfgBytes (s : State) (a n : Nat) : List Byte := sparseRead blankByte a n s.cfg

/-- The number that bytes spell, little-endian (00 R5). -/
def leNat : List Byte → Nat
  | [] => 0
  | b :: bs => b.toNat + 256 * leNat bs

/-- The number that bytes spell, most significant first (00 R6). -/
def beNat (bs : List Byte) : Nat := bs.foldl (fun n b => n * 256 + b.toNat) 0

/-- A number as `n` bytes, little-endian. -/
def toLe : Nat → Nat → List Byte
  | 0, _ => []
  | n + 1, v => BitVec.ofNat 8 v :: toLe n (v / 256)

/-- A number as `n` bytes, most significant first. -/
def toBe (n v : Nat) : List Byte := (toLe n v).reverse

/-- A little-endian number of `n` bytes in package memory. -/
def State.le (s : State) (a n : Nat) : Nat := leNat (s.bytes a n)

/-- A little-endian number of `n` bytes in a list of bytes; absent bytes count as 0. -/
def leAt (bs : List Byte) (off n : Nat) : Nat := leNat ((bs.drop off).take n)

/-- A big-endian number of `n` bytes in a list of bytes. -/
def beAt (bs : List Byte) (off n : Nat) : Nat := beNat ((bs.drop off).take n)

/-- One byte of a list; an absent byte counts as 0. -/
def byteAt (bs : List Byte) (off : Nat) : Nat := (bs.getD off 0).toNat

/-- The primitive effects. -/
inductive Eff
  /-- Set one register field; the value is cut to the field's width. -/
  | reg (l : Layer) (f : Fld) (die idx v : Nat)
  /-- Make one copy of the chosen fields of a die equal to another copy (00 R17, R18). -/
  | copy (src dst : Layer) (die : Nat) (p : Fld → Nat → Bool)
  /-- Put the chosen register fields back at their reset values. -/
  | resetRegs (p : RegKey → Bool)
  /-- Write bytes of package memory from an address on. -/
  | mem (a : Nat) (bs : List Byte)
  /-- Put the chosen bytes of package memory back at what nothing has written. -/
  | clear (p : Nat → Bool)
  /-- Write bytes of the configuration store from an offset on. -/
  | cfg (a : Nat) (bs : List Byte)
  /-- Erase the chosen bytes of the configuration store. -/
  | erase (p : Nat → Bool)
  /-- Change the queues and records. -/
  | aux (f : Aux → Aux)
  /-- A free value has been drawn. -/
  | drawn

/-- Set one register key. -/
def State.setReg (s : State) (k : RegKey) (v : Nat) : State :=
  { s with regs := sparseSet RegKey.cmp RegKey.dflt k (v % 2 ^ k.fld.info.width) s.regs }

/-- Entries of the copy `dst` that a copy of fields gives, one by one. -/
def copyRegs (src dst : Layer) (die : Nat) (p : Fld → Nat → Bool) (regs : List (RegKey × Nat)) : List (RegKey × Nat) :=
  let cleared := sparseDrop (fun k => k.layer == dst && k.die == die && p k.fld k.idx) regs
  (regs.filter fun e => e.1.layer == src && e.1.die == die && p e.1.fld e.1.idx).foldl
    (fun m e => sparseSet RegKey.cmp RegKey.dflt { e.1 with layer := dst } e.2 m) cleared

/-- One primitive effect. -/
def Eff.apply (e : Eff) (s : State) : State :=
  match e with
  | .reg l f die idx v => s.setReg ⟨f, l, die, idx⟩ v
  | .copy src dst die p => { s with regs := copyRegs src dst die p s.regs }
  | .resetRegs p => { s with regs := sparseDrop p s.regs }
  | .mem a bs => { s with mem := sparsePut blankByte a bs s.mem }
  | .clear p => { s with mem := sparseDrop p s.mem }
  | .cfg a bs => { s with cfg := sparsePut blankByte a bs s.cfg }
  | .erase p => { s with cfg := sparseDrop p s.cfg }
  | .aux f => { s with aux := f s.aux }
  | .drawn => { s with fresh := s.fresh + 1 }

/-- A command's effect: primitives in order, each able to depend on the state it meets. -/
inductive Act
  /-- Nothing. -/
  | nop
  /-- One primitive. -/
  | eff (e : Eff)
  /-- One after the other. -/
  | seq (a b : Act)
  /-- What the state at this point says. -/
  | get (k : State → Act)

/-- The state after an effect. -/
def Act.run : Act → State → State
  | .nop, s => s
  | .eff e, s => e.apply s
  | .seq a b, s => b.run (a.run s)
  | .get k, s => (k s).run s

/-- Effects one after the other. -/
def Act.all : List Act → Act
  | [] => .nop
  | a :: as => .seq a (Act.all as)

/-- An effect for each element of a list, in order. -/
def Act.each {α : Type} (xs : List α) (f : α → Act) : Act := .all (xs.map f)

/-- An effect for each number below `n`, rising. -/
def Act.upTo (n : Nat) (f : Nat → Act) : Act := .each (List.range n) f

/-- An effect under a condition. -/
def Act.when (c : Bool) (a : Act) : Act := bif c then a else .nop

/-- Set a register field (the shadow copy of a shadowed one). -/
def Act.set (f : Fld) (die idx v : Nat) : Act := .eff (.reg .vis f die idx v)

/-- Set the active copy of a shadowed field. -/
def Act.setAc (f : Fld) (die idx v : Nat) : Act := .eff (.reg .act f die idx v)

/-- Change a register field by a function. -/
def Act.upd (f : Fld) (die idx : Nat) (g : Nat → Nat) : Act := .get fun s => .set f die idx (g (s.rd f die idx))

/-- Count up, wrapping at the field's width. -/
def Act.inc (f : Fld) (die : Nat) (idx : Nat := 0) (n : Nat := 1) : Act := .upd f die idx (· + n)

/-- Count up, staying at the field's largest value. -/
def Act.incSat (f : Fld) (die : Nat) (idx : Nat := 0) (n : Nat := 1) : Act :=
  .upd f die idx fun v => min (v + n) (2 ^ f.info.width - 1)

/-- Write bytes of package memory. -/
def Act.put (a : Nat) (bs : List Byte) : Act := .eff (.mem a bs)

/-- Write a little-endian number of `n` bytes. -/
def Act.putLe (a n v : Nat) : Act := .put a (toLe n v)

/-- Write bytes of the configuration store. -/
def Act.cfgPut (a : Nat) (bs : List Byte) : Act := .eff (.cfg a bs)

/-- Change the queues and records. -/
def Act.aux (f : Aux → Aux) : Act := .eff (.aux f)

/-- Put register fields back at their reset values, in every copy. -/
def Act.resetFlds (p : Fld → Nat → Nat → Bool) : Act := .eff (.resetRegs fun k => p k.fld k.die k.idx)

/-- Draw a value that the spec leaves open (log entry 5). -/
def Act.free (k : Nat → Act) : Act := .get fun s => .seq (.eff .drawn) (k (Config.freeValue s.fresh).toNat)

/-- Free bytes, eight for each of a number of values (log entry 5). -/
def Act.freeBytes : Nat → (List Byte → Act) → Act
  | 0, k => k []
  | n + 1, k => .free fun v => freeBytes n fun bs => k (toLe 8 v ++ bs)

/-- Draw a value of the device's random source (log entry 4). -/
def Act.random (k : Nat → Act) : Act := .get fun s => .seq (.eff .drawn) (k (Config.random s.fresh))

/-- An error that ends a command: its code and detail (10 R472). -/
structure Err where
  /-- Code. -/
  code : Nat
  /-- Detail. -/
  detail : Nat
deriving DecidableEq, Repr

/-- Effects with a result, in order, that an error ends. -/
abbrev M (α : Type) : Type := ExceptT Err (Cont Act) α

/-- Perform an effect. -/
def M.act (a : Act) : M Unit := ExceptT.lift fun k => Act.seq a (k ())

/-- The state at this point. -/
def M.state : M State := ExceptT.lift fun k => Act.get k

/-- A value that the spec leaves open (log entry 5). -/
def M.free : M Nat := ExceptT.lift fun k => Act.free k

/-- Bytes that the spec leaves open (log entry 5). -/
def M.freeBytes (n : Nat) : M (List Byte) := ExceptT.lift fun k => Act.freeBytes ((n + 7) / 8) fun bs => k (bs.take n)

/-- End with an error. -/
def M.fail {α : Type} (code : Nat) (detail : Nat := 0) : M α := throw ⟨code, detail⟩

/-- The effect of a computation, and of what follows it. -/
def M.then {α : Type} (m : M α) (k : Except Err α → Act) : Act := (ExceptT.run m : Cont Act (Except Err α)) k

/-- What an error leaves to be done, without ending. -/
def M.attempt {α : Type} (m : M α) : M (Except Err α) := ExceptT.lift fun k => m.then k

/-- One computation for each element of a list, in order. -/
def M.each {α : Type} (xs : List α) (f : α → M Unit) : M Unit :=
  match xs with
  | [] => pure ()
  | x :: xs => do f x; M.each xs f

/-- One computation for each element, with its results. -/
def M.collect {α β : Type} (xs : List α) (f : α → M β) : M (List β) :=
  match xs with
  | [] => pure []
  | x :: xs => do
    let y ← f x
    let ys ← M.collect xs f
    pure (y :: ys)

/-- One step of the CRC-32C register: bit by bit, reflected (11 R498). -/
def crcShift : Nat → Nat → Nat
  | 0, r => r
  | n + 1, r => crcShift n (if r % 2 == 1 then (r / 2) ^^^ 0x82F63B78 else r / 2)

/-- CRC-32C register after one more byte. -/
def crcByte (r : Nat) (b : Byte) : Nat := crcShift 8 (r ^^^ b.toNat)

/-- CRC-32C with a given initial register: Castagnoli polynomial, reflected, final XOR of ones (11 R498, 15 R676). -/
def crc32cFrom (init : Nat) (bs : List Byte) : Nat := bs.foldl crcByte init ^^^ 0xFFFFFFFF

/-- CRC-32C over bytes (11 R498). -/
def crc32c (bs : List Byte) : Nat := crc32cFrom 0xFFFFFFFF bs

/-- A command's outcome: its effect. -/
def Act.done (a : Act) (s : State) : Host.Outcome State Fault Refusal := .next (a.run s)

end Sys2Proof.Machine
end

