-- ==== Sys2Proof/Machine/Contexts.lean ====
section
/-! DEFINITION. Dies and time, the records of contexts and engines, and pre-emption (10 R429 to R431, R473). -/

namespace Sys2Proof.Machine

/-- Dies of the package (01 R28, 17 FUSE_DIES). -/
def State.dies (s : State) : Nat := s.rd .FUSE_DIES 0

/-- The die exists. -/
def State.dieThere (s : State) (d : Nat) : Bool := decide (d < s.dies)

/-- Dies that exist, rising. -/
def State.dieList (s : State) : List Nat := List.range s.dies

/-- Ticks of the timebase since cold reset (02 R66). -/
def State.ticks (s : State) : Nat := s.rd .I_TICKS 0

/-- Ticks of the 500 MHz timebase in a microsecond. -/
def ticksPerUs : Nat := 500

/-- Nanoseconds by which a die's device time is ahead of die 0's (02 R65; log entry 8). -/
def dieSkew (d : Nat) : Nat := bif d == 0 then 0 else Config.timeSkew d % 9

/-- Device time of a die as TS64 (02 R54). -/
def State.now (s : State) (d : Nat) : Nat :=
  (s.rd .TIME_NOW_SEC 0 * 1000000000 + s.rd .TIME_NOW_NS 0 + dieSkew d) % 2 ^ 64

/-- Device time of a die in whole nanoseconds; the seconds wrap modulo 2^64 (02 R51, R65). -/
def State.wholeNs (s : State) (d : Nat) : Nat :=
  (s.rd .TIME_NOW_SEC 0 * 1000000000 + s.rd .TIME_NOW_NS 0 + dieSkew d) % (2 ^ 64 * 1000000000)

/-- Seconds and nanoseconds of a die's device time. -/
def State.seconds (s : State) (d : Nat) : Nat := s.wholeNs d / 1000000000
def State.nanos (s : State) (d : Nat) : Nat := s.wholeNs d % 1000000000

/-- SYNC bits of a time quality byte taken now (02 R57). -/
def State.sync (s : State) : Nat := s.rd .TIME_STATUS_SYNC 0

/-- The 16 bytes of a full timestamp (02 R55). -/
def stampBytes (sec ns frac quality : Nat) : List Byte := toLe 8 sec ++ toLe 4 ns ++ toLe 2 frac ++ toLe 1 quality ++ [0]

/-- The full timestamp that a die takes now (02 R55, R57, R58). -/
def State.fullStamp (s : State) (d : Nat) : List Byte := stampBytes (s.seconds d) (s.nanos d) (s.rd .TIME_NOW_FRAC 0) s.sync

/-- Key of a context or an engine among the package's. -/
def unitKey (die core n : Nat) : Nat := (die * 32 + core) * 4 + n

/-- What a context holds. -/
def State.ctx (s : State) (die core c : Nat) : Ctx := tableGet {} (unitKey die core c) s.aux.ctxs

/-- What an engine holds. -/
def State.engine (s : State) (die core e : Nat) : Engine :=
  tableGet {} (unitKey die core e) s.aux.engines

/-- Change what a context holds. -/
def Act.ctx (die core c : Nat) (f : Ctx → Ctx) : Act :=
  .aux fun a =>
    let k := unitKey die core c
    { a with ctxs := tableSet {} k (f (tableGet {} k a.ctxs)) a.ctxs }

/-- Change what an engine holds. -/
def Act.engine (die core e : Nat) (f : Engine → Engine) : Act :=
  .aux fun a =>
    let k := unitKey die core e
    { a with engines := tableSet {} k (f (tableGet {} k a.engines)) a.engines }

/-- Index of a context's registers in a die's tables. -/
def ctxIdx (core c : Nat) : Nat := core * 4 + c

/-- CTX_STATE of a context: 0 idle, 1 running, 2 blocked, 3 pre-empted, 4 ending, 5 stopped. -/
def State.ctxState (s : State) (die core c : Nat) : Nat := s.rd .CTX_STATE die (ctxIdx core c)

/-- A context that lets lower ones issue (10 R429): a stopped one runs no list and counts as idle (log entry 19). -/
def State.givesWay (s : State) (die core c : Nat) : Bool :=
  let st := s.ctxState die core c
  st == 0 || st == 2 || st == 5

/-- Every context of higher priority is idle, stopped or blocked (10 R429). -/
def State.higherQuiet (s : State) (die core c : Nat) : Bool := (List.range c).all (s.givesWay die core)

/-- Opcode of a command. -/
def Issue.op (i : Issue) : Nat := bits (i.words.getD 0 0) 0 8

/-- MODE byte of a command. -/
def Issue.mode (i : Issue) : Nat := bits (i.words.getD 0 0) 8 8

/-- Word `n` of a command. -/
def Issue.w (i : Issue) (n : Nat) : Nat := i.words.getD n 0

/-- A wait that pre-emption withdraws: WAIT, WAIT_BELL or CREDIT_GET (10 R473). -/
def Issue.isWait (i : Issue) : Bool := i.op == 0x03 || i.op == 0x05 || i.op == 0x39

/-- A command that has a pre-emption point between its parts: GATHER, SCATTER_ADD, HASH_INSERT, DIST, TOPK, VEC, QUANT and DMA
(10 R473). -/
def Issue.pausable (i : Issue) : Bool := [0x20, 0x21, 0x23, 0x24, 0x25, 0x30, 0x31, 0x38].contains i.op

/-- A command that has started and stands at a pre-emption point, with more of it to do. -/
def Flight.underWay (f : Flight) : Bool := f.begun && f.ending.isNone && f.cmd.pausable

/-- Insert a command among those to issue again, in list order; a load already there is not repeated. -/
def insertAgain (i : Issue) : List Issue → List Issue
  | [] => [i]
  | j :: js =>
    if j.ord == i.ord && j.addr == i.addr then j :: js
    else if i.ord < j.ord then i :: j :: js
    else j :: insertAgain i js

/-- Passes and loads of a context that wait in an engine's queue, with the loads whose weights they need (10 R473). -/
def Engine.withdrawn (e : Engine) (c : Nat) (flight : List Flight) : List Issue :=
  let cmdOf := fun id => (flight.find? fun f => f.id == id).map fun f => f.cmd
  let queued := e.queue.filterMap fun q =>
    match q with
    | .load c' id _ _ => if c' == c then cmdOf id else none
    | .pass p => if p.ctx == c then some p.cmd else none
  let hasPass := e.queue.any fun q =>
    match q with
    | .load _ _ _ _ => false
    | .pass p => p.ctx == c
  let loads := (((e.staged.filter fun _ => e.stagedCtx == c).toList ++ (e.reload.map fun r => r.1).toList.filter fun w => w.ctx == c) ++
    (if hasPass then e.active.toList else [])).map fun w => w.load
  loads ++ queued

/-- Some pass of an engine runs again after a fault (05 R252). -/
def Engine.rerunning (e : Engine) : Bool := e.flight.any fun p => p.rerun

/-- A context's pre-emption reaches a pass that still issues rows: the newest in flight, or one that runs again (05 R247, R255). -/
def Engine.issuesFor (e : Engine) (c : Nat) : Bool :=
  (e.flight.getLast?.any fun p => p.ctx == c) || e.flight.any fun p => p.rerun && p.ctx == c

/-- An engine after the pre-emption of a context: its waiting commands and staged weights are gone, and a pass of the context that
has begun drains (05 R247). -/
def Engine.preempted (e : Engine) (c : Nat) : Engine :=
  { e with
    queue := e.queue.filter fun q =>
      match q with
      | .load c' _ _ _ => c' != c
      | .pass p => p.ctx != c
    staged := if e.stagedCtx == c then none else e.staged
    reload := e.reload.filter fun r => r.1.ctx != c
    drain := e.drain || e.issuesFor c }

/-- A load that has already completed loads again without a second signal (10 R431, R468). -/
def Issue.silent (i : Issue) : Issue := { i with words := putBit (i.w 0) 21 false :: i.words.drop 1 }

/-- A load's weights are staged in an engine (05 R224, 10 R446). -/
def stage (die core e ctx : Nat) (w : Weights) : Act :=
  .seq (.engine die core e fun g => { g with staged := some w, stagedCtx := ctx, reload := none, reloadFail := none })
    (.set .ENG_STATUS_STAGED die (ctxIdx core e) 1)

/-- A command in flight has ended and waits for its completion. -/
def endFlight (die core c id : Nat) (e : Ending) : Act :=
  .ctx die core c fun y => { y with flight := y.flight.map fun f => if f.id == id then { f with ending := some e } else f }

/-- An ending without error. -/
def Ending.ok (flags : Nat := 0) : Ending := ⟨0, flags, 0⟩

/-- A load completes with the flags that its reads raised (10 R838). -/
def endLoad (die core c id : Nat) : Act :=
  .ctx die core c fun y => { y with flight := y.flight.map fun f => if f.id == id then { f with ending := some (Ending.ok f.cmd.flags) } else f }

/-- A queued load of an engine. -/
def Engine.waitsFor (g : Engine) (ctx id : Nat) : Bool :=
  g.queue.any fun q =>
    match q with
    | .load c i _ _ => c == ctx && i == id
    | .pass _ => false

/-- The load at the head of an engine's queue takes place with those of its chain, once all of them head their queues: the load path is
theirs once the pass before them has issued (05 R225, R228, R231). A load completes when no engine's queue holds it any more
(10 R838). -/
def stageHead (die core e : Nat) : Act :=
  .get fun s =>
    match (s.engine die core e).queue with
    | .load c id chain w :: _ =>
      let at_ := fun i => match (s.engine die core i).queue with
        | .load c' id' _ w' :: _ => if c' == c && id' == id then some w' else none
        | _ => none
      .when (chain.all fun i => (at_ i).isSome) (.all [
        .each chain fun i => .all [
          .engine die core i fun g => { g with queue := g.queue.drop 1 },
          stage die core i c ((at_ i).getD w)],
        .get fun t => .when (!(List.range 4).any fun i => (t.engine die core i).waitsFor c id) (endLoad die core c id)])
    | _ => .nop

/-- Every load that heads the queues of its engines takes place: up to 16 of each of four engines. -/
def stageHeads (die core : Nat) : Act := .upTo 16 fun _ => .upTo 4 (stageHead die core)

/-- Pre-empt one context (10 R430): commands that wait in a queue are withdrawn, commands that have started stop at their pre-emption
points, passes that have begun drain. A context that stops issues nothing again (R469). -/
def preemptCtx (die core c : Nat) : Act :=
  .get fun s =>
    let x := s.ctx die core c
    let inArray := fun id => (List.range 4).any fun e => (s.engine die core e).flight.any fun p => p.id == id
    let loads := (List.range 4).flatMap fun e => (s.engine die core e).withdrawn c x.flight
    let inFlight := fun (i : Issue) => x.flight.any fun f => f.cmd.ord == i.ord
    let goes := fun (f : Flight) =>
      f.ending.isNone && (f.cmd.isWait || !f.begun || f.underWay || (f.units % 16 != 0 && !inArray f.id)) ||
      loads.any fun i => i.ord == f.cmd.ord
    let waits := (x.flight.filter fun f => goes f).map fun f => f.cmd
    let again := if x.stop.isSome then [] else waits ++ (loads.filter fun i => !inFlight i).map Issue.silent
    let rounds := x.flight.any fun f => f.underWay && (f.cmd.op == 0x30 || f.cmd.op == 0x31)
    .all [
      .inc .SQ_PREEMPTS die core,
      .ctx die core c fun y => { y with
        flight := y.flight.filter fun f => !goes f
        again := again.foldl (fun l i => insertAgain i l) y.again
        sr := if rounds then some (s.rd .VU_SR_STATE die core) else y.sr },
      .upTo 4 fun e => .all [
        .engine die core e fun g => g.preempted c,
        .get fun t => .when (t.engine die core e).staged.isNone (.set .ENG_STATUS_STAGED die (ctxIdx core e) 0),
        .get fun t => .when (t.engine die core e).drain (.set .ENG_STATUS_STATE die (ctxIdx core e) 3)],
      stageHeads die core,
      .aux fun a => { a with credits := a.credits.filter fun w => !(w.sdie == die && w.score == core && w.sctx == c) },
      .set .CTX_STATE die (ctxIdx core c) 3]

/-- Pre-empt every context of lower priority that runs, waits or ends (10 R430). -/
def preemptBelow (die core c : Nat) : Act :=
  .each ((List.range 4).filter fun d => decide (c < d)) fun d =>
    .get fun s =>
      let st := s.ctxState die core d
      .when (st == 1 || st == 2 || st == 4) (preemptCtx die core d)

/-- A context leaves its wait and pre-empts the lower ones (10 R430). -/
def unblock (die core c : Nat) : Act :=
  .all [.get fun s => .when (s.ctxState die core c == 2) (.set .CTX_STATE die (ctxIdx core c) 1), preemptBelow die core c]

/-- The wait in which a context is blocked. -/
def State.waiting (s : State) (die core c : Nat) : Option Flight :=
  (s.ctx die core c).flight.find? fun f => f.cmd.isWait && f.ending.isNone

/-- Counter n of a context; a counter number of 0 names none and reads as 0 (10 R438). -/
def State.counter (s : State) (die core c n : Nat) : Nat :=
  bif n == 0 then 0 else s.rd .CTX_CNT die (ctxIdx core c * 8 + n)

/-- Write a counter; number 0 names none. -/
def setCounter (die core c n v : Nat) : Act := .when (n != 0) (.set .CTX_CNT die (ctxIdx core c * 8 + n) v)

/-- Entries of the hinge table that are not their reset value: die, logical core, physical core. -/
def State.hinge (s : State) : List (Nat × Nat × Nat) :=
  s.regs.filterMap fun e => if e.1.fld == .HG_PHYS && e.1.layer == .vis then some (e.1.die, e.1.idx, e.2) else none

/-- Physical core of a logical core as the hinge table gave it at the issue of a command (10 R441). -/
def Issue.phys (i : Issue) (die lcore : Nat) : Nat :=
  ((i.hinge.find? fun q => q.1 == die && q.2.1 == lcore).map fun q => q.2.2).getD (lcore % 32)

/-- Physical core of a logical core (16 R698). -/
def State.physCore (s : State) (die lcore : Nat) : Nat := s.rd .HG_PHYS die lcore

/-- A context that waits for semaphore `sem` with a value that it now holds (10 R450). -/
def State.semWaiter (s : State) (die core sem c : Nat) : Option Flight :=
  (s.waiting die core c).bind fun f =>
    if f.cmd.op == 0x03 && bits (f.cmd.w 1) 0 5 == sem && bits (f.cmd.w 2) 0 16 ≤ s.rd .SEM_VALUE die (core * 32 + sem)
      && s.ctxState die core c == 2
    then some f else none

/-- One waiter takes its count from the semaphore. -/
def semTake (die core sem c : Nat) : Act :=
  .get fun s =>
    match s.semWaiter die core sem c with
    | none => .nop
    | some f => .all [
        .upd .SEM_VALUE die (core * 32 + sem) (· - bits (f.cmd.w 2) 0 16),
        endFlight die core c f.id (Ending.ok),
        .set .CTX_STATE die (ctxIdx core c) 1]

/-- The waiters of a semaphore are served, highest priority first (R454); those that leave their wait pre-empt lower contexts. -/
def semServe (die core sem : Nat) : Act :=
  .get fun s =>
    let woken := fun (t : State) => (List.range 4).filter fun c => s.ctxState die core c == 2 && t.ctxState die core c == 1
    .seq (.upTo 4 (semTake die core sem))
      (.get fun t =>
        match woken t with
        | [] => .nop
        | c :: _ => preemptBelow die core c)

/-- An add reaches a semaphore and saturates at 65,535 (R452, R453); its waiters are served. -/
def semAdd (die core sem n : Nat) : Act := .seq (.incSat .SEM_VALUE die (core * 32 + sem) n) (semServe die core sem)

end Sys2Proof.Machine
end

