-- ==== Sys2Proof/Machine/Bell.lean ====
section
/-! DEFINITION. The Bell (14_the_bell.md): arrivals, presentation, claim and complete, moderation of host vectors. -/

namespace Sys2Proof.Machine

/-- Bit of a source in its word. -/
def bellBit (s : State) (f : Fld) (die src : Nat) : Bool := bit (s.rd f die (src / 32)) (src % 32)

/-- Set or clear the bit of a source. -/
def setBellBit (f : Fld) (die src : Nat) (b : Bool) : Act := .upd f die (src / 32) fun v => putBit v (src % 32) b

/-- Sources of a die whose bit is set in one of the word tables. -/
def bellSources (s : State) (f : Fld) (die : Nat) : List Nat :=
  (List.range 32).flatMap fun w =>
    let v := s.rd f die w
    if v == 0 then [] else ((List.range 32).filter fun b => bit v b).map fun b => w * 32 + b

/-- Target number that a source names: 0 Keeper, 1 + n sequencer of logical core n, 33 + v host vector (R615). -/
def bellTarget (s : State) (die src : Nat) : Option Nat :=
  match s.rd .BELL_TGT_KIND die src with
  | 1 => some 0
  | 2 => some (1 + s.rd .BELL_TGT_INDEX die src % 32)
  | 3 => some (33 + s.rd .BELL_TGT_INDEX die src)
  | _ => none

/-- Dies on which a target's sources lie: all of them for a host vector (R620). -/
def bellDies (s : State) (die target : Nat) : List Nat := if 33 ≤ target then s.dieList else [die]

/-- Active sources of a target with their dies (R616). -/
def bellActives (s : State) (die target : Nat) : List (Nat × Nat) :=
  (bellDies s die target).flatMap fun d =>
    ((bellSources s .BELL_ACTIVE d).filter fun n => s.rd .I_BELL_ACT_TGT d n == target).map fun n => (d, n)

/-- Level of a target: the highest priority among its active sources; none without one (R616). -/
def bellLevel (s : State) (die target : Nat) : Option Nat :=
  ((bellActives s die target).map fun p => s.rd .I_BELL_ACT_PRIO p.1 p.2).min?

/-- Die that holds a target's registers. -/
def bellHome (die target : Nat) : Nat := if 33 ≤ target then 0 else die

/-- A source is presentable to its target (R616). -/
def presentable (s : State) (die src : Nat) : Bool :=
  bellBit s .BELL_PEND die src && !bellBit s .BELL_MASK die src && !bit (s.rd .BELL_HOLDING die) (src / 32) &&
  match bellTarget s die src with
  | none => false
  | some t =>
    match bellLevel s die t with
    | none => true
    | some l => decide (s.rd .BELL_TGT_PRIO die src < l) && s.on .BELL_TCTL_NEST (bellHome die t) t

/-- Presentable sources of a target with their dies. -/
def presentables (s : State) (die target : Nat) : List (Nat × Nat) :=
  (bellDies s die target).flatMap fun d =>
    ((bellSources s .BELL_PEND d).filter fun n => bellTarget s d n == some target && presentable s d n).map fun n => (d, n)

/-- The first of two sources under R617: higher priority, then lower number, then lower die. -/
def bellFirst (s : State) (a b : Nat × Nat) : Bool :=
  let pa := s.rd .BELL_TGT_PRIO a.1 a.2
  let pb := s.rd .BELL_TGT_PRIO b.1 b.2
  decide (pa < pb) || pa == pb && (decide (a.2 < b.2) || a.2 == b.2 && decide (a.1 ≤ b.1))

/-- The source with which a target is presented (R617). -/
def presented (s : State) (die target : Nat) : Option (Nat × Nat) :=
  (presentables s die target).foldl
    (fun best p =>
      match best with
      | none => some p
      | some b => some (if bellFirst s b p then b else p)) none

/-- Something leaves the package. -/
def Act.out (o : Output) : Act := .aux fun a => { a with outputs := o :: a.outputs }

/-- The function is in D0 with MSI-X enabled (R633). -/
def State.msixReady (s : State) : Bool := s.rd .PCIE_STATUS_DSTATE 0 == 0 && s.on .PCIE_STATUS_LINK 0 && s.on .I_MSIX_EN 0

/-- A message of a vector is sent, or set pending while its mask or the function mask is set (R630). -/
def sendMsix (v : Nat) : Act :=
  .get fun s =>
    if s.on .I_MSIX_MASK 0 v || s.on .I_MSIX_FMASK 0 then .set .I_MSIX_PBA 0 v 1 else .out (.msix v)

/-- A vector's message is due: it disarms the vector, and is sent, or held with a wake of the host (R629, R632, R633). -/
def vectorDue (v : Nat) : Act :=
  .seq (.set .BELL_MOD_ARMED 0 (33 + v) 0)
    (.get fun s =>
      if s.msixReady then sendMsix v
      else .all [
        .set .BELL_MOD_HELD 0 (33 + v) 1,
        .when (s.on .I_PME_EN 0 && s.rd .PCIE_STATUS_DSTATE 0 == 2) (.all [.set .I_PME_STATUS 0 0 1, .out .pme]),
        .when (s.on .I_PME_EN 0 && s.rd .PCIE_STATUS_DSTATE 0 == 3) (.set .I_WAKE 0 0 1)])

/-- A presentable source has arrived on a host vector (R628). -/
def vectorArrival (v : Nat) : Act :=
  .get fun s =>
    .when (s.on .BELL_MOD_ARMED 0 (33 + v)) (.all [
      .when (s.rd .I_MOD_SEEN 0 v == 0) (.set .I_MOD_TICK 0 v s.ticks),
      .inc .I_MOD_SEEN 0 v,
      .get fun t =>
        let n := t.rd .I_MOD_COUNT 0 v
        .when (t.rd .I_MOD_US 0 v == 0 || n != 0 && decide (n ≤ t.rd .I_MOD_SEEN 0 v)) (vectorDue v)])

/-- A vector is armed with the moderation values of its registers (R629). -/
def armVector (v : Nat) : Act :=
  .get fun s => .all [
    .set .BELL_MOD_ARMED 0 (33 + v) 1,
    .set .I_MOD_SEEN 0 v 0,
    .set .I_MOD_US 0 v (s.rd .BELL_MOD_US 0 (33 + v)),
    .set .I_MOD_COUNT 0 v (s.rd .BELL_MOD_COUNT 0 (33 + v))]

/-- A context whose WAIT_BELL matches a source (10 R455). -/
def State.bellWaiter (s : State) (die core src word c : Nat) : Option Flight :=
  (s.waiting die core c).bind fun f =>
    let w := f.cmd.w 1
    if f.cmd.op == 0x05 && s.ctxState die core c == 2 && bits w 0 10 == src && (bit w 13 || bits w 10 3 == bits word 10 3)
    then some f else none

/-- The waiting context of highest priority claims and completes a source presented to its sequencer (10 R455, 14 R619). -/
def sequencerServe (die lcore src : Nat) : Act :=
  .get fun s =>
    let core := s.physCore die lcore
    let word := s.rd .BELL_REC die src
    match (List.range 4).filterMap fun c => (s.bellWaiter die core src word c).map fun f => (c, f) with
    | [] => .nop
    | (c, f) :: _ => .all [
        setBellBit .BELL_PEND die src false,
        setCounter die core c (bits (f.cmd.w 3) 0 3) (bits word 16 16),
        endFlight die core c f.id (Ending.ok),
        unblock die core c]

/-- A source that has just become presentable reaches its target. -/
def bellPresent (die src : Nat) : Act :=
  .get fun s =>
    match bellTarget s die src with
    | none => .nop
    | some t =>
      if t == 0 then .nop
      else if t ≤ 32 then sequencerServe die (t - 1) src
      else vectorArrival (t - 33)

/-- Do something to the Bell, then present each of the named sources that it has made presentable. -/
def bellSettle (cands : List (Nat × Nat)) (op : Act) : Act :=
  .get fun s =>
    .seq op (.each cands fun p =>
      .get fun t => .when (presentable t p.1 p.2 && !presentable s p.1 p.2) (bellPresent p.1 p.2))

/-- Sources of one word of a die. -/
def bellWord (die w : Nat) : List (Nat × Nat) := (List.range 32).map fun b => (die, w * 32 + b)

/-- A doorbell word reaches the Bell of a die (R607, R608, R612): its source becomes pending, or held, or merges. -/
def bellArrive (die from_ : Nat) (word : Nat) : Act :=
  let src := bits word 0 10
  let stamped := putBits word 10 3 from_
  .get fun s =>
    if bits word 13 3 != 0 then .inc .BELL_BAD die
    else
      let held := bit (s.rd .BELL_HOLDING die) (src / 32)
      let had := bellBit s .BELL_PEND die src || held && bellBit s .I_BELL_HELD die src
      bellSettle [(die, src)] (.all [
        if had then .inc .BELL_MERGED die else .set .BELL_REC die src stamped,
        setBellBit (if held then .I_BELL_HELD else .BELL_PEND) die src true])

/-- A hardware unit rings a source of its own die's Bell, with a tag (R606). -/
def bellRing (die src : Nat) (tag : Nat := 0) : Act := bellArrive die die (src + tag * 65536)

/-- A word is held (R612). -/
def bellHold (die w : Nat) : Act := .upd .BELL_HOLDING die 0 fun v => putBit v w true

/-- A word is released: its held set is ORed into BELL_PEND and emptied (R613). -/
def bellRelease (die w : Nat) : Act :=
  .get fun s =>
    bellSettle (bellWord die w) (.all [
      .set .BELL_PEND die w (s.rd .BELL_PEND die w ||| s.rd .I_BELL_HELD die w),
      .set .I_BELL_HELD die w 0,
      .upd .BELL_HOLDING die 0 fun v => putBit v w false])

/-- A write to one of the plain words BELL_PEND and BELL_MASK, or to a source's BELL_TGT, in steps that may make sources
presentable (R609, R621). -/
def bellPlain (cands : List (Nat × Nat)) (op : Act) : Act := bellSettle cands op

/-- The word that a claim finds no source with (R623). -/
def noneWord : Nat := 0x8000

/-- A target's presented source is claimed: pending clears, active sets (R622). -/
def claimSource (target : Nat) (p : Nat × Nat) : Act :=
  .get fun s => .all [
    setBellBit .BELL_PEND p.1 p.2 false,
    setBellBit .BELL_ACTIVE p.1 p.2 true,
    .set .I_BELL_ACT_TGT p.1 p.2 target,
    .set .I_BELL_ACT_PRIO p.1 p.2 (s.rd .BELL_TGT_PRIO p.1 p.2)]

/-- The target can be claimed at this die: the Keeper anywhere, host vectors at die 0 (R619, R620). -/
def claimable (die target : Nat) : Bool := target == 0 || decide (33 ≤ target) && die == 0

/-- The word that a claim returns (R622, R623). -/
def claimWord (s : State) (die target : Nat) : Nat :=
  if claimable die target then
    match presented s die target with
    | some p => s.rd .BELL_REC p.1 p.2
    | none => noneWord
  else noneWord

/-- A read of BELL_CLAIM (R622, R623): a claim that finds no source of a host vector arms the vector (R629). -/
def bellClaimAct (die target : Nat) : Act :=
  .get fun s =>
    .when (claimable die target)
      (match presented s die target with
       | some p => claimSource target p
       | none => .when (decide (33 ≤ target)) (armVector (target - 33)))

/-- A write to BELL_COMPLETE (R624): for a host vector the source ends on the die whose Bell holds it active there, the lowest
such die (log entry 12). -/
def bellCompleteAct (die target src : Nat) : Act :=
  .get fun s =>
    match (bellActives s die target).filter fun p => p.2 == src with
    | [] => .inc .BELL_BAD_COMPLETE die
    | p :: _ =>
      bellSettle ((bellDies s die target).flatMap fun d => (bellSources s .BELL_PEND d).map fun n => (d, n))
        (setBellBit .BELL_ACTIVE p.1 p.2 false)

/-- Sources of 0x000 to 0x0FF that firmware raises: fault reports, fences, the transom, network losses (16 R708, 17 R735, R745,
19 R795); the others belong to hardware units (R606; log entry 13). -/
def keeperOwned (src : Nat) : Bool := decide (0x090 ≤ src ∧ src < 0x0B0)

/-- The writer may ring the source (R606). -/
def mayRing (who : Requester) (src : Nat) : Bool :=
  decide (0x100 ≤ src) ||
  match who with
  | .unit _ => !keeperOwned src
  | .keeper _ => keeperOwned src
  | .host => false
  | .context _ _ _ => false

/-- Die from which a requester's writes come (01 R42). -/
def requesterDie : Requester → Nat
  | .host => 0
  | .keeper d => d
  | .context d _ _ => d
  | .unit d => d

/-- A doorbell write by a requester (R604 to R606). -/
def doorbell (who : Requester) (die word : Nat) : Act :=
  if bits word 13 3 == 0 && !mayRing who (bits word 0 10) then .inc .BELL_BAD die else bellArrive die (requesterDie who) word

/-- BELL_DOORBELL. -/
def execBellDoorbell (who : Requester) (die : Nat) (word : Word) (s : State) : Host.Outcome State Fault Refusal :=
  (Act.when (s.dieThere die) (doorbell who die word.toNat)).done s

/-- BELL_HOLD_SET (R612). -/
def execBellHoldSet (die w : Nat) (s : State) : Host.Outcome State Fault Refusal :=
  (Act.when (s.dieThere die) (bellHold die (w % 32))).done s

/-- BELL_HOLD_CLR (R613). -/
def execBellHoldClr (die w : Nat) (s : State) : Host.Outcome State Fault Refusal :=
  (Act.when (s.dieThere die) (bellRelease die (w % 32))).done s

/-- BELL_CLAIM: the read returns the record word to the requester (R622). -/
def execBellClaim (who : Requester) (die target : Nat) (s : State) : Host.Outcome State Fault Refusal :=
  (Act.when (s.dieThere die) (.get fun t =>
    .seq (bellClaimAct die target) (.out (.readData who (claimWord t die target))))).done s

/-- BELL_COMPLETE (R624). -/
def execBellComplete (die target source : Nat) (s : State) : Host.Outcome State Fault Refusal :=
  (Act.when (s.dieThere die) (bellCompleteAct die target source)).done s

/-- MODERATION_TIMER_EXPIRY: BELL_MOD_US microseconds have passed since the first arrival on an armed vector (R628). -/
def execModerationTimerExpiry (vector : Nat) (s : State) : Host.Outcome State Fault Refusal :=
  (Act.when (s.on .BELL_MOD_ARMED 0 (33 + vector) && s.rd .I_MOD_SEEN 0 vector != 0 &&
      decide (s.rd .I_MOD_TICK 0 vector + s.rd .I_MOD_US 0 vector * ticksPerUs ≤ s.ticks))
    (vectorDue vector)).done s

/-- MSIX_UNMASK: the vector's mask clears, and a pending message is sent (R630). -/
def execMsixUnmask (vector : Nat) (s : State) : Host.Outcome State Fault Refusal :=
  (Act.all [
    .set .I_MSIX_MASK 0 vector 0,
    .when (s.on .I_MSIX_PBA 0 vector && !s.on .I_MSIX_FMASK 0 && s.msixReady)
      (.all [.set .I_MSIX_PBA 0 vector 0, .out (.msix vector)])]).done s

/-- PCIE_D0_ENTRY: the function reaches D0; with MSI-X enabled each held message is sent once (R633). The link's width and
generation are those negotiated (19 R827). -/
def execPcieD0Entry (msixEnabled : Bool) (width gen : Nat) (s : State) : Host.Outcome State Fault Refusal :=
  (Act.when (!s.on .I_PERST 0) (.all [
    .set .PCIE_STATUS_DSTATE 0 0 0,
    .set .PCIE_STATUS_LINK 0 0 1,
    .set .PCIE_STATUS_WIDTH 0 0 width,
    .set .PCIE_STATUS_GEN 0 0 gen,
    .set .I_MSIX_EN 0 0 (b2n msixEnabled),
    .when msixEnabled (.upTo 64 fun v =>
      .get fun t => .when (t.on .BELL_MOD_HELD 0 (33 + v)) (.seq (.set .BELL_MOD_HELD 0 (33 + v) 0) (sendMsix v)))])).done s

/-- A latch writes the doorbell of its source with its edge count as tag, and zeroes the count (R635). -/
def latchRing (pin : Nat) : Act :=
  .get fun s =>
    .when (s.rd .LATCH_EDGES 0 pin != 0)
      (.seq (.set .LATCH_EDGES 0 pin 0) (bellArrive 0 0 (0x070 + pin + s.rd .LATCH_EDGES 0 pin * 65536)))

/-- The latch catches an edge of this kind (R634). -/
def latchCatches (s : State) (pin : Nat) (rising : Bool) : Bool :=
  let e := s.rd .LATCH_CFG_EDGE 0 pin
  if rising then e == 1 || e == 3 else e == 2 || e == 3

/-- An edge on an event pin that a latch catches is counted, and rung while the Bell is clocked (R634, R635, 20 R812). -/
def latchEdge (pin : Nat) (rising : Bool) (shortestNs : Nat) (clocked : Bool) : Act :=
  .get fun s => .all [
    .set .LATCH_LEVEL 0 pin (b2n rising),
    .when (latchCatches s pin rising && decide (10 ≤ shortestNs)) (.all [
      .incSat .LATCH_EDGES 0 pin,
      .when clocked (latchRing pin)])]

end Sys2Proof.Machine
end

