-- ==== Sys2Proof/Machine/Flags.lean ====
section
/-! DEFINITION. The flag byte with which a command completes (10 R466). -/

namespace Sys2Proof.Machine

/-- SAT: a value saturated. -/
def flagSat : Nat := 1

/-- INVALID: an invalid operation. -/
def flagInvalid : Nat := 2

/-- OVERFLOW: a result overflowed. -/
def flagOverflow : Nat := 4

/-- PARTIAL: a capacity was reached. -/
def flagPartial : Nat := 8

/-- RERUN: a pass was run again, or a store row read again. -/
def flagRerun : Nat := 16

/-- CONT_ERR: an error with CONT set. -/
def flagContErr : Nat := 32

/-- PREEMPTED: the command was pre-empted. -/
def flagPreempted : Nat := 64

/-- A flag byte that holds a flag when `c` holds. -/
def flagIf (c : Bool) (f : Nat) : Nat := if c then f else 0

/-- The flags of several parts of a command together. -/
def joinFlags (fs : List Nat) : Nat := fs.foldl (· ||| ·) 0

end Sys2Proof.Machine
end

