-- ==== Sys2Proof/Machine/Faults.lean ====
section
/-! DEFINITION. Fault records and fences (16_faults_and_repair.md), and the triggers of restarts (18 R770). -/

namespace Sys2Proof.Machine

/-- Numbers of the fault classes (16 R688). -/
inductive FaultClass
  | engineRerun | engineFail | coreFail | storeRow | vaultRow | clusterFail | hbmCeRow | hbmUe | hbmStack | ignLane
  | ignDegraded | ignDown | dieFail | noSpare
deriving DecidableEq, Repr

/-- Code of a class (16 R688). -/
def FaultClass.code (c : FaultClass) : Nat := c.ctorIdx + 1

/-- Level of a class: 1 core, 2 cluster, 3 region, 4 die, 5 package (16 R688, R707); NO_SPARE takes the level of its original. -/
def FaultClass.level : FaultClass → Nat
  | .engineRerun => 1
  | .engineFail => 1
  | .coreFail => 1
  | .storeRow => 1
  | .vaultRow => 3
  | .clusterFail => 2
  | .hbmCeRow => 4
  | .hbmUe => 4
  | .hbmStack => 4
  | .ignLane => 5
  | .ignDegraded => 5
  | .ignDown => 5
  | .dieFail => 4
  | .noSpare => 1

/-- Offset of the fault log in the configuration store (17 R712). -/
def logBase : Nat := 0x20000

/-- Records that the log holds (16 R708). -/
def logSlots : Nat := 8192

/-- Die engine number of an engine (01 R31). -/
def dieEngine (core e : Nat) : Nat := 4 * core + e

/-- Partition that holds a physical core: that of the logical core mapped to it (16 R698). -/
def State.partOfCore (s : State) (die core : Nat) : Option Nat :=
  ((List.range 32).find? fun l => s.rd .HG_PHYS die l == core && s.on .HG_VALID die l).map fun l => s.rd .HG_PART die l

/-- The selected variant of a partition (12 R563). -/
def State.variantOf (s : State) (p : Nat) : Option Variant :=
  s.aux.image.bind fun i => i.variants.find? fun v => v.part == p && v.index + 1 == s.rd .I_PT_VARIANT 0 p

/-- Partition that holds a vault segment, by its selected variant (12 R564, 16 R707). -/
def State.partOfSegment (s : State) (die k seg : Nat) : Option Nat :=
  (List.range 8).find? fun p => (s.variantOf p).any fun v => v.dies.any fun d => d.die == die && bit d.vseg (16 * k + seg)

/-- The bytes of a fault record (16 R707). -/
def faultBytes (time fseq cls level die action unit part quality detail : Nat) : List Byte :=
  let body := toLe 8 time ++ toLe 4 fseq ++ toLe 1 cls ++ toLe 1 level ++ toLe 1 die ++ toLe 1 action ++ toLe 2 unit ++
    toLe 1 part ++ toLe 1 quality ++ toLe 8 detail
  body ++ toLe 4 (crc32c body)

/-- The Keeper writes the record of a fault detected at `time` into FLT_LAST and the log, counts its class and raises source 0x090,
and 0x091 for a fence or a retirement (16 R707 to R709). `part` is 0xFF for none. -/
def faultRecordAt (time die : Nat) (cls : FaultClass) (level action unit part detail : Nat) : Act :=
  .get fun s =>
    let fseq := s.rd .FLT_SEQ 0
    let bs := faultBytes time fseq cls.code level die action unit part s.sync detail
    .all [
      .upTo 8 fun w => .set .FLT_LAST die w (leAt bs (4 * w) 4),
      .cfgPut (logBase + fseq % logSlots * 32) bs,
      .set .FLT_SEQ 0 0 (fseq + 1),
      .incSat .FLT_COUNT 0 (cls.code - 1),
      bellRing die 0x090,
      .when (decide (1 ≤ action ∧ action ≤ 4)) (bellRing die 0x091)]

/-- The record of a fault detected now. -/
def faultRecord (die : Nat) (cls : FaultClass) (level action unit part detail : Nat) : Act :=
  .get fun s => faultRecordAt (s.now die) die cls level action unit part detail

/-- A restart of a partition is requested: its jobs start no more; a wider restart absorbs it (18 R770). -/
def requestPartRestart (p : Nat) : Act :=
  .get fun s =>
    .when (!s.on .I_RESTART_COLD 0 && !s.on .I_RESTART_WARM 0 && !s.on .I_RESTART_PART 0 p && s.rd .PT_STATE 0 p != 0) (.all [
      .set .I_RESTART_PART 0 p 1,
      .set .I_RESTART_PART_AT 0 p s.ticks,
      .set .PT_STATE 0 p 3])

/-- A package warm restart is requested; it absorbs partition restarts (18 R770). -/
def requestWarmRestart : Act :=
  .get fun s =>
    .when (!s.on .I_RESTART_COLD 0 && !s.on .I_RESTART_WARM 0) (.all [
      .set .I_RESTART_WARM 0 0 1,
      .set .I_RESTART_WARM_AT 0 0 s.ticks,
      .upTo 8 fun p => .all [
        .set .I_RESTART_PART 0 p 0,
        .get fun t => .when (t.rd .PT_STATE 0 p != 0) (.set .PT_STATE 0 p 3)]])

/-- A cold start is requested; it absorbs every other restart (18 R770). -/
def requestColdStart : Act :=
  .all [
    .set .I_RESTART_COLD 0 0 1,
    .set .I_RESTART_WARM 0 0 0,
    .upTo 8 fun p => .all [
      .set .I_RESTART_PART 0 p 0,
      .get fun t => .when (t.rd .PT_STATE 0 p != 0) (.set .PT_STATE 0 p 3)]]

/-- Engines of a core that are enabled at test (01 R4). -/
def State.enabled (s : State) (die core e : Nat) : Bool :=
  bit (s.rd .FUSE_ENG_MASK die (dieEngine core e / 32)) (dieEngine core e % 32)

/-- The core is fenced. -/
def State.fencedCore (s : State) (die core : Nat) : Bool := bit (s.rd .FLT_FENCED_CORES die) core

/-- The engine is fenced by itself (16 R691). -/
def State.engineMarked (s : State) (die core e : Nat) : Bool :=
  let n := dieEngine core e
  if n < 64 then bit (s.rd .FLT_FENCED_ENG_LO die) n else bit (s.rd .FLT_FENCED_ENG_HI die) (n - 64)

/-- The engine is fenced, by itself or with its core (16 R691, R692). -/
def State.fencedEngine (s : State) (die core e : Nat) : Bool := s.fencedCore die core || s.engineMarked die core e

/-- Engines of a core that are enabled and not fenced, rising (05 R230). -/
def State.usable (s : State) (die core : Nat) : List Nat :=
  (List.range 4).filter fun e => s.enabled die core e && !s.fencedEngine die core e

/-- Error of a pass on a fenced engine (10 R472). -/
def codePassFenced : Nat := 0x14

/-- A pass has, or may have, rows in its array: it has issued a row, or runs again (05 R254). -/
def Pass.inArray (p : Pass) : Bool := p.head.isSome || p.rerun

/-- Commands with rows in an engine's array, and those that wait in its queue: context and command. -/
def Engine.begun (g : Engine) : List (Nat × Nat) := (g.flight.filter Pass.inArray).map fun p => (p.ctx, p.id)
def Engine.waiting (g : Engine) : List (Nat × Nat) :=
  g.queue.map fun q =>
    match q with
    | .load c id _ _ => (c, id)
    | .pass p => (p.ctx, p.id)

/-- An engine without some commands, which a gang shares with other engines. -/
def Engine.without (g : Engine) (ids : List Nat) : Engine :=
  { g with
    flight := g.flight.filter fun p => !ids.contains p.id
    queue := g.queue.filter fun q =>
      match q with
      | .load _ id _ _ => !ids.contains id
      | .pass p => !ids.contains p.id }

/-- Passes in flight and the state of an engine, as its registers show them. -/
def showEngine (die core e : Nat) : Act :=
  .get fun s =>
    let g := s.engine die core e
    .all [
      .set .ENG_STATUS_INFLIGHT die (ctxIdx core e) g.flight.length,
      .set .ENG_STATUS_STAGED die (ctxIdx core e) (b2n g.staged.isSome),
      .when (decide (s.rd .ENG_STATUS_STATE die (ctxIdx core e) < 5)) (.set .ENG_STATUS_STATE die (ctxIdx core e)
        (if g.drain && !g.flight.isEmpty then 3 else if g.rerunning then 4 else if !g.flight.isEmpty then 2
          else if g.reload.isSome then 1 else 0))]

/-- A pass leaves its engines and is counted as completed, and its command ends (05 R222, 06 R275). -/
def retire (die core : Nat) (p : Pass) (e : Ending) : Act :=
  .all [
    .each p.engines fun i => .all [
      .engine die core i fun g =>
        let fl := g.flight.filter fun q => q.id != p.id
        { g with flight := fl, drain := g.drain && !fl.isEmpty },
      .inc .ENG_PASSES die (ctxIdx core i),
      .set .ENG_STATUS_SAT die (ctxIdx core i) (b2n (e.flags &&& flagSat != 0)),
      showEngine die core i],
    endFlight die core p.ctx p.id e]

/-- The oldest pass in flight of an engine, when it is the oldest of all its engines (05 R222). -/
def State.oldestPass (s : State) (die core e : Nat) : Option Pass :=
  match (s.engine die core e).flight with
  | p :: _ => if p.engines.all fun i => ((s.engine die core i).flight.head?).any fun q => q.id == p.id then some p else none
  | [] => none

/-- A pass that issues no row completes at its boundary, or with the last pass before it on its engines (05 R223). -/
def retireEmpty (die core e : Nat) : Act :=
  .get fun s =>
    match s.oldestPass die core e with
    | some p => .when (!p.inArray) (retire die core p { p.fail.getD (Ending.ok) with flags := p.flags })
    | none => .nop

/-- Every such pass of a core's engines completes: up to 16 of each. -/
def retireEmpties (die core : Nat) : Act := .upTo 64 fun _ => .upTo 4 (retireEmpty die core)

/-- Error of a command that names a fenced or disabled engine (10 R447). -/
def codeEngineNone : Nat := 0x31

/-- An engine issues nothing more: the passes in it end with PASS_FENCED (05 R253), and commands that wait in its queue name a fenced
engine (10 R447). -/
def haltEngine (die core e : Nat) : Act :=
  .get fun s =>
    let n := dieEngine core e
    let g := s.engine die core e
    let cmds := g.begun ++ g.waiting
    .all [
      .set .ENG_STATUS_STATE die (ctxIdx core e) 5,
      .set .PRF_STATE die n 3,
      .each (g.flight.filter Pass.inArray) fun p => .each p.engines fun i => .inc .ENG_PASSES die (ctxIdx core i),
      .each g.begun fun q => endFlight die core q.1 q.2 ⟨codePassFenced, 0, e⟩,
      .each g.waiting fun q => endFlight die core q.1 q.2 ⟨codeEngineNone, 0, e⟩,
      .upTo 4 fun i => .engine die core i fun h => h.without (cmds.map fun q => q.2),
      retireEmpties die core,
      .engine die core e fun h => { faults := h.faults },
      stageHeads die core,
      .upTo 4 fun i => showEngine die core i]

/-- An engine is marked fenced (16 R691). -/
def markEngineFenced (die core e : Nat) : Act :=
  let n := dieEngine core e
  .seq (if n < 64 then .upd .FLT_FENCED_ENG_LO die 0 fun v => putBit v n true
    else .upd .FLT_FENCED_ENG_HI die 0 fun v => putBit v (n - 64) true)
    (haltEngine die core e)

/-- Sources active on the sequencer targets of a physical core are completed; pending ones stay so, for the core that the logical core
moves to (16 R701). -/
def completeSequencer (die core : Nat) : Act :=
  .get fun s => .each ((List.range 32).filter fun l => s.physCore die l == core) fun l =>
    .each (bellActives s die (1 + l)) fun p => setBellBit .BELL_ACTIVE p.1 p.2 false

/-- A core is marked fenced: its contexts start no list, its wicket table is emptied, and its sequencer's active sources are completed
(16 R692, R701, 11 R516). -/
def markCoreFenced (die core : Nat) : Act :=
  .all [
    completeSequencer die core,
    .upd .FLT_FENCED_CORES die 0 fun v => putBit v core true,
    .set .CORE_STATUS_FENCED die core 1,
    .upTo 16 fun w => .set .WK_VALID die (core * 16 + w) 0,
    .aux fun a => { a with returning := a.returning.filter fun r => !(r.1 == die && r.2.1 == core) }]

/-- Partitions whose lists run on a core or that hold it (16 R693). -/
def State.partsOnCore (s : State) (die core : Nat) : List Nat :=
  let running := ((List.range 4).filter fun c => s.ctxState die core c != 0).map fun c => s.rd .CTX_PART die (ctxIdx core c)
  ((s.partOfCore die core).toList ++ running).dedup

/-- A core is fenced with a record of the given class, and the partitions that held it restart (16 R688, R693). -/
def fenceCoreAt (time die core : Nat) (cls : FaultClass) (detail : Nat) : Act :=
  .get fun s => .all [
    markCoreFenced die core,
    faultRecordAt time die cls 1 2 core ((s.partOfCore die core).getD 0xFF) detail,
    .each (s.partsOnCore die core) requestPartRestart]

/-- A core is fenced for a fault detected now. -/
def fenceCore (die core : Nat) (cls : FaultClass) (detail : Nat) : Act := .get fun s => fenceCoreAt (s.now die) die core cls detail

/-- An engine is fenced: with class ENGINE_FAIL, or, when fewer than three usable engines are left, its core with class CORE_FAIL
(16 R688, R689). -/
def fenceEngine (die core e : Nat) (detail : Nat) : Act :=
  .get fun s =>
    if decide (((s.usable die core).erase e).length < 3) then .seq (haltEngine die core e) (fenceCore die core .coreFail detail)
    else .seq (markEngineFenced die core e) (.seq
      (faultRecord die .engineFail 1 1 (dieEngine core e) ((s.partOfCore die core).getD 0xFF) detail)
      (.each (s.partsOnCore die core) requestPartRestart))

/-- CORE_FAIL: a parity fault of a core's sequencer, vector unit, mover or store control (16 R688). -/
def execCoreFail (die core : Nat) (s : State) : Host.Outcome State Fault Refusal :=
  (Act.when (s.dieThere die && decide (core < 32)) (.free fun detail => fenceCore die core .coreFail detail)).done s

/-- CLUSTER_FAIL: a fault in a cluster's fabric stop or exchange fences its four cores with one record (16 R688, R690). -/
def execClusterFail (die cluster : Nat) (s : State) : Host.Outcome State Fault Refusal :=
  let cores := (List.range 4).map fun i => 4 * cluster + i
  (Act.when (s.dieThere die && decide (cluster < 8)) (.free fun detail => .all [
    .each cores (markCoreFenced die),
    faultRecord die .clusterFail 2 3 cluster ((cores.filterMap (s.partOfCore die)).head?.getD 0xFF) detail,
    .each (cores.flatMap (s.partsOnCore die)).dedup requestPartRestart])).done s

end Sys2Proof.Machine
end

