-- ==== Sys2Proof/Machine/Stores.lean ====
section
/-! DEFINITION. Where an address lies, and reads and writes of core stores, vaults and HBM with their checks
(11_scratchpads_and_vaults.md, 12 R537 to R547, 19 R781 to R783). -/

namespace Sys2Proof.Machine

/-- Error codes of commands (10 R472). -/
def codeField : Nat := 0x02
def codeNest : Nat := 0x03
def codeRange : Nat := 0x04
def codeAlign : Nat := 0x05
def codeMullion : Nat := 0x06
def codeFabric : Nat := 0x07
def codeStoreCrc : Nat := 0x08
def codeStorePoison : Nat := 0x09
def codeStoreShut : Nat := 0x0A
def codeWicketNone : Nat := 0x0B

/-- Where a die offset lies (19 R781). -/
inductive Place
  /-- Offset in HBM stack 0 or 1. -/
  | hbm (stack off : Nat)
  /-- Offset in a vault. -/
  | vault (k off : Nat)
  /-- Store offset of a physical core. -/
  | store (core off : Nat)
  /-- Offset in the register window. -/
  | regs (off : Nat)
  /-- No region. -/
  | nowhere
deriving DecidableEq, Repr

/-- Bytes of an HBM stack. -/
def stackBytes : Nat := 24 * gib

/-- Die offset of the vaults, the core stores and the register window (19 R781). -/
def vaultBase : Nat := 0x010000000000
def storeBase : Nat := 0x010100000000
def regBase : Nat := 0x010200000000

/-- Bytes of a die window (19 R781). -/
def dieWindow : Nat := 2 ^ 45

/-- The store that a store offset lies in: number (0 W, 1 A, 2 P), start, size and group size (11 R478). -/
def storeAt (off : Nat) : Option (Nat × Nat × Nat × Nat) :=
  if off < 0x200000 then some (0, 0, 0x200000, 256 * kib)
  else if 0x400000 ≤ off && off < 0x580000 then some (1, 0x400000, 0x180000, 128 * kib)
  else if 0x800000 ≤ off && off < 0x880000 then some (2, 0x800000, 0x80000, 64 * kib)
  else none

/-- Where a die offset lies. -/
def placeOf (o : Nat) : Place :=
  if o < stackBytes then .hbm 0 o
  else if o < 2 * stackBytes then .hbm 1 (o - stackBytes)
  else if vaultBase ≤ o && o < vaultBase + 128 * mib then .vault ((o - vaultBase) / (32 * mib)) ((o - vaultBase) % (32 * mib))
  else if storeBase ≤ o && o < storeBase + 512 * mib then
    let c := (o - storeBase) / (16 * mib)
    let so := (o - storeBase) % (16 * mib)
    if (storeAt so).isSome then .store c so else .nowhere
  else if regBase ≤ o && o < regBase + 16 * mib then .regs (o - regBase)
  else .nowhere

/-- Bytes from a place to the end of its store, vault, stack or register window. -/
def Place.room : Place → Nat
  | .hbm _ off => stackBytes - off
  | .vault _ off => 32 * mib - off
  | .store _ off =>
    match storeAt off with
    | some (_, start, size, _) => start + size - off
    | none => 0
  | .regs off => 16 * mib - off
  | .nowhere => 0

/-- Register block of a register-window offset: 64 KiB each, but 128 KiB for Ethernet (19 R785). -/
def regBlock (off : Nat) : Nat := if off / 0x10000 == 5 then 4 else off / 0x10000

/-- A range lies wholly in one store, one vault, HBM or one register block (10 R440). HBM is one range of both stacks. -/
def rangeOk (o len : Nat) : Bool :=
  match placeOf o with
  | .hbm _ _ => decide (o + len ≤ 2 * stackBytes)
  | .regs off => regBlock off == regBlock (off + (len - 1)) && decide (len ≤ 16 * mib - off)
  | .nowhere => false
  | p => decide (len ≤ p.room)

/-- Die of a package address (01 R28). -/
def addrDie (a : Nat) : Nat := bits a 45 3

/-- Die offset of a package address. -/
def addrOff (a : Nat) : Nat := a % dieWindow

/-- Package address of a die offset. -/
def pkgAddr (die o : Nat) : Nat := die * dieWindow + o

/-- Package address of a store offset of a physical core (19 R783). -/
def storeAddr (die core off : Nat) : Nat := pkgAddr die (storeBase + core * (16 * mib) + off)

/-- Package address of a vault offset. -/
def vaultAddr (die k off : Nat) : Nat := pkgAddr die (vaultBase + k * (32 * mib) + off)

/-- Package address of an offset in a stack. -/
def hbmAddr (die stack off : Nat) : Nat := pkgAddr die (stack * stackBytes + off)

/-- State field of a store's groups, by store number. -/
def stateFld : Nat → Fld
  | 0 => .STG_STATE_W
  | 1 => .STG_STATE_A
  | _ => .STG_STATE_P

/-- State of the group that holds a store offset: 0 ON, 1 CLOSING, 2 OFF, 3 OPENING (11 R517). -/
def State.groupState (s : State) (die core off : Nat) : Nat :=
  match storeAt off with
  | some (n, start, _, g) => bits (s.rd (stateFld n) die core) (2 * ((off - start) / g)) 2
  | none => 2

/-- Bank of a row, and the row within that bank, in a store or vault of `group` rows a group and `depth` rows a bank, four banks to a
group (11 R481). -/
def bankOf (group r : Nat) : Nat := 4 * (r / group) + r % 4
def bankRow (depth r : Nat) : Nat := r / 4 % depth

/-- Where a store or vault row lies: its bank and its row within the bank (11 R478, R481). -/
def Place.bank : Place → Option (Nat × Nat)
  | .store _ off => (storeAt off).map fun q =>
      (bankOf (q.2.2.2 / 64) ((off - q.2.1) / 64), bankRow (q.2.2.2 / 256) ((off - q.2.1) / 64))
  | .vault _ off => some (bankOf 32768 (off / 64), bankRow 8192 (off / 64))
  | _ => none

/-- State of the segment that holds a vault offset. -/
def State.segState (s : State) (die k off : Nat) : Nat := bits (s.rd .VT_STATE die k) (2 * (off / (2 * mib))) 2

/-- Package address of a section's destination: a logical-core store section lies in the physical core that now serves the
logical core (17 R725, 16 R698). -/
def State.sectionAddr (s : State) (x : Section) : Nat :=
  if x.kind == 3 then
    let d := bits x.dest 45 3
    storeAddr d (s.physCore d (bits x.dest 24 5)) (bits x.dest 0 24)
  else x.dest % 2 ^ 48

/-- Two ranges of bytes meet. -/
def rangesMeet (a la b lb : Nat) : Bool := decide (a < b + lb) && decide (b < a + la)

/-- A write marks the adaptable layers that it reaches (09 R422). -/
def noteWrite (a len : Nat) : Act :=
  .get fun s =>
    match s.aux.image with
    | none => .nop
    | some i =>
      .each (i.sections.filter fun x => bit x.sflags 0 && (x.kind == 2 || x.kind == 3) && rangesMeet a len (s.sectionAddr x) x.len)
        fun x => .aux fun y => { y with adapted := if y.adapted.contains x.index then y.adapted else x.index :: y.adapted }

/-- Rows of 64 bytes that a range touches, by their offsets. -/
def rowsOf (off len : Nat) : List Nat :=
  if len == 0 then [] else (List.range ((off + len - 1) / 64 - off / 64 + 1)).map fun i => (off / 64 + i) * 64

/-- Index of a row within its store or vault (11 R498). -/
def rowIndex (a : Nat) : Nat :=
  match placeOf (addrOff a) with
  | .store _ off => ((storeAt off).elim 0 fun q => off - q.2.1) / 64
  | .vault _ off => off / 64
  | _ => 0

/-- The check of a row: CRC-32C over its 64 bytes and its index (11 R498). -/
def State.rowCheck (s : State) (a : Nat) : Nat := crc32c (s.bytes a 64 ++ toLe 4 (rowIndex a))

/-- The check that a row carries: every write leaves the check of the row's bytes, and an unlisted row holds that (11 R499). -/
def State.storedCheck (s : State) (a : Nat) : Nat := ((s.aux.checks.find? fun p => p.1 == a).map fun p => p.2).getD (s.rowCheck a)

/-- A row fails its check on every read (11 R501, R503). -/
def State.rowFails (s : State) (a : Nat) : Bool := (s.aux.checks.any fun p => p.1 == a) && s.storedCheck a != s.rowCheck a

/-- A row is poisoned (11 R504). -/
def State.poisoned (s : State) (a : Nat) : Bool := s.aux.poison.any fun p => p.1 == a

/-- A pass has poisoned the row itself (11 R505, R507). -/
def State.ownPoison (s : State) (a owner : Nat) : Bool := owner != 0 && s.aux.poison.contains (a, owner)

/-- Stored bits of a row are upset: its check is no longer that of its bytes; which of the other values it holds is open (11 R503). -/
def upsetRow (a : Nat) : Act :=
  .free fun v => .get fun s => .aux fun x => { x with
    checks := (a, (s.rowCheck a + 1 + v % (2 ^ 32 - 1)) % 2 ^ 32) :: x.checks.filter fun p => p.1 != a }

/-- A row has been written whole: it carries the check of its bytes, and no poison (11 R499, R503, R505). -/
def soundRow (a : Nat) : Act :=
  .aux fun x => { x with checks := x.checks.filter fun p => p.1 != a, poison := x.poison.filter fun p => p.1 != a }

/-- Reads of a row that fail in the read path before one passes: each is counted, and the command has read a row again (11 R500). -/
def retryRow (a : Nat) (count : Nat → Act) : Act :=
  .get fun s =>
    match s.aux.flaky.find? fun p => p.1 == a with
    | none => .nop
    | some p => .seq (count p.2) (.aux fun x => { x with flaky := x.flaky.erase p, raised := x.raised ||| flagRerun })

/-- Low 32 bits of an address, the detail of an error response (10 R472). -/
def low32 (a : Nat) : Nat := a % 2 ^ 32

/-- A row fault: the partitions that hold the unit restart, and the row is tested in that restart, which also records the fault with
what came of it. A row that no restart will test is recorded as counted. DEDUCED: a row has one record until it is tested (16 R688,
R696, R707; log entry 42). -/
def rowFault (a : Nat) (parts : List Nat) (record : Act) : Act :=
  .get fun s =>
    if s.aux.rowTests.any fun r => r.1 == a then .nop
    else if parts.isEmpty then record
    else .seq (.aux fun x => { x with rowTests := x.rowTests ++ [(a, s.now (addrDie a))] }) (.each parts requestPartRestart)

/-- STORE_ROW (16 R688). -/
def storeRowFault (die core off : Nat) : Act :=
  .get fun s => rowFault (storeAddr die core off) (s.partsOnCore die core)
    (faultRecord die .storeRow 1 0 core ((s.partOfCore die core).getD 0xFF) off)

/-- A mullion entry of the active table reaches a range for a partition (15 R667). -/
def State.mullionReaches (s : State) (die p lo hi : Nat) : Bool :=
  (List.range 64).any fun m =>
    s.acOn .MUL_VALID die m && (bit (s.ac .MUL_READ die m) p || bit (s.ac .MUL_WRITE die m) p) &&
    decide (s.ac .MUL_BASE die m * 4096 ≤ hi) && decide (lo < s.ac .MUL_LIMIT die m * 4096 + 4096)

/-- Partitions whose mullion rights reach a vault segment (16 R697). -/
def State.partsOnSegment (s : State) (die k seg : Nat) : List Nat :=
  let lo := vaultBase + k * (32 * mib) + seg * (2 * mib)
  (List.range 8).filter fun p => s.mullionReaches die p lo (lo + 2 * mib - 1)

/-- VAULT_ROW (16 R688). -/
def vaultRowFault (die k off : Nat) : Act :=
  let seg := off / (2 * mib)
  .get fun s => rowFault (vaultAddr die k off) (s.partsOnSegment die k seg)
    (faultRecord die .vaultRow 3 0 (16 * k + seg) ((s.partOfSegment die k seg).getD 0xFF) off)

/-- Read one row's part of a core store: a group that is OFF or OPENING answers with an error, a poisoned row delivers nothing
unless its own pass reads it, a row that fails its check three times ends with STORE_CRC (11 R500, R501, R506, R507, R520). -/
def readStoreRow (die core row owner : Nat) : M Unit := do
  let s ← M.state
  let a := storeAddr die core row
  if 2 ≤ s.groupState die core row then
    M.fail codeFabric (low32 a)
  else if s.poisoned a && !s.ownPoison a owner then do
    M.act (.inc .STG_POISON_READS die core)
    M.fail codeStorePoison row
  else if s.rowFails a then do
    M.act (.all [
      .inc .STG_CRC_RETRY die core 3,
      .inc .STG_CRC_FAIL die core,
      .set .STG_CRC_LAST die core row,
      storeRowFault die core row])
    M.fail codeStoreCrc row
  else M.act (retryRow a fun n => .inc .STG_CRC_RETRY die core n)

/-- Some row of a range may fail: a quick test that lets sound ranges be read without a walk over their rows. -/
def State.suspectStore (s : State) (die core : Nat) : Bool :=
  s.rd .STG_STATE_W die core != 0 || s.rd .STG_STATE_A die core != 0 || s.rd .STG_STATE_P die core != 0 ||
  !s.aux.poison.isEmpty || !s.aux.checks.isEmpty || !s.aux.flaky.isEmpty

/-- Read bytes of a core's own stores; `owner` names the reading pass, 0 for other readers. -/
def readStore (die core off len : Nat) (owner : Nat := 0) : M (List Byte) := do
  let s ← M.state
  if s.suspectStore die core then M.each (rowsOf off len) fun r => readStoreRow die core r owner else pure ()
  let t ← M.state
  pure (t.bytes (storeAddr die core off) len)

/-- The part of a range that lies in a row. -/
def rowPart (off len row : Nat) : Nat × Nat := (max off row, min (off + len) (row + 64) - max off row)

/-- A refused write is counted and rings the core's store refusal (11 R521). -/
def refuseStore (die core : Nat) : Act := .all [.inc .STG_SHUT_REFUSED die core, bellRing die (0x020 + core)]

/-- Write the part of one row: refused unless the group is ON, and for a partial write of a row that fails its check or is poisoned;
a full-row write leaves a sound row (11 R499, R502, R503, R505, R508, R519 to R521). -/
def writeStoreRow (die core row off : Nat) (bs : List Byte) (owner : Nat) : M Unit := do
  let s ← M.state
  let a := storeAddr die core row
  let own := s.ownPoison a owner
  if s.groupState die core row != 0 then do
    M.act (refuseStore die core)
    M.fail codeStoreShut row
  else if bs.length != 64 && s.rowFails a then M.fail codeStoreCrc row
  else if bs.length != 64 && s.poisoned a && !own then M.fail codeStorePoison row
  else M.act (.all [
    .put (storeAddr die core off) bs,
    noteWrite (storeAddr die core off) bs.length,
    .when (bs.length == 64 || own) (soundRow a)])

/-- Write bytes of a core's own stores, row by row in ascending order, up to the first row that is refused. -/
def writeStore (die core off : Nat) (bs : List Byte) (owner : Nat := 0) : M Unit := do
  let s ← M.state
  if s.suspectStore die core then
    M.each (rowsOf off bs.length) fun r =>
      let p := rowPart off bs.length r
      writeStoreRow die core r p.1 ((bs.drop (p.1 - off)).take p.2) owner
  else M.act (.seq (.put (storeAddr die core off) bs) (noteWrite (storeAddr die core off) bs.length))

/-- Read one row's part of a vault (11 R500, R501, R520). -/
def readVaultRow (die k row : Nat) : M Unit := do
  let s ← M.state
  let a := vaultAddr die k row
  if 2 ≤ s.segState die k row then M.fail codeFabric (low32 a)
  else if s.rowFails a then do
    M.act (.all [
      .inc .VT_CRC_RETRY die k 3,
      .inc .VT_CRC_FAIL die k,
      .set .VT_CRC_LAST die k row,
      vaultRowFault die k row])
    M.fail codeStoreCrc row
  else M.act (retryRow a fun n => .inc .VT_CRC_RETRY die k n)

/-- Some row of a vault may fail: a quick test, as for the stores. -/
def State.suspectVault (s : State) (die k : Nat) : Bool :=
  s.rd .VT_STATE die k != 0 || !s.aux.checks.isEmpty || !s.aux.flaky.isEmpty

/-- Read bytes of a vault. -/
def readVault (die k off len : Nat) : M (List Byte) := do
  let s ← M.state
  if s.suspectVault die k then M.each (rowsOf off len) (readVaultRow die k) else pure ()
  let t ← M.state
  pure (t.bytes (vaultAddr die k off) len)

/-- A refused write is counted and rings the die's vault refusal (11 R521). -/
def refuseVault (die k : Nat) : Act := .all [.inc .VT_SHUT_REFUSED die k, bellRing die (0x040 + k)]

/-- Write the part of one row of a vault (11 R499, R502, R521). -/
def writeVaultRow (die k row off : Nat) (bs : List Byte) : M Unit := do
  let s ← M.state
  let a := vaultAddr die k row
  if s.segState die k row != 0 then do
    M.act (refuseVault die k)
    M.fail codeStoreShut row
  else if bs.length != 64 && s.rowFails a then M.fail codeStoreCrc row
  else M.act (.all [
    .put (vaultAddr die k off) bs,
    noteWrite (vaultAddr die k off) bs.length,
    .when (bs.length == 64) (soundRow a)])

/-- Write bytes of a vault, row by row. -/
def writeVault (die k off : Nat) (bs : List Byte) : M Unit := do
  let s ← M.state
  if s.suspectVault die k then
    M.each (rowsOf off bs.length) fun r =>
      let p := rowPart off bs.length r
      writeVaultRow die k r p.1 ((bs.drop (p.1 - off)).take p.2)
  else M.act (.seq (.put (vaultAddr die k off) bs) (noteWrite (vaultAddr die k off) bs.length))

/-- Every row of a range holds zero with a valid check, and no poison. -/
def zeroRange (a size : Nat) : Act :=
  .seq (.eff (.clear fun x => decide (a ≤ x) && decide (x < a + size))) (.aux fun x => { x with
    poison := x.poison.filter fun p => !(decide (a ≤ p.1) && decide (p.1 < a + size))
    checks := x.checks.filter fun p => !(decide (a ≤ p.1) && decide (p.1 < a + size)) })

/-- Groups of a core's stores: start and size of each (11 R478). -/
def storeGroups : List (Nat × Nat) :=
  (List.range 8).map (fun g => (g * (256 * kib), 256 * kib)) ++
  (List.range 12).map (fun g => (0x400000 + g * (128 * kib), 128 * kib)) ++
  (List.range 8).map fun g => (0x800000 + g * (64 * kib), 64 * kib)

/-- The Keeper zeroes the stores of a core before it serves another partition, and clears their poison; a group that is not ON refuses
the writes of its rows (11 R519 to R521, R527). -/
def zeroStores (die core : Nat) : Act :=
  .get fun s => .each storeGroups fun g =>
    if s.groupState die core g.1 == 0 then zeroRange (storeAddr die core g.1) g.2
    else .seq (.inc .STG_SHUT_REFUSED die core (g.2 / 64)) (bellRing die (0x020 + core))

/-- Parity of a number of `n` bits. -/
def parity : Nat → Nat → Bool
  | 0, _ => false
  | n + 1, v => xor (v % 2 == 1) (parity n (v / 2))

/-- Mask i as the controller uses it (12 R538). -/
def hashMask (m i : Nat) : Nat := bits m 4 23 * 16 + 2 ^ i

/-- Channel of a stack offset (12 R537). -/
def State.channel (s : State) (die stack off : Nat) : Nat :=
  (List.range 4).foldl
    (fun c i => c + bitIf (parity 27 ((off / 256) &&& hashMask (s.rd .HBM_HASH_M die (stack * 4 + i)) i)) i) 0

/-- The controller counts each granule it serves (12 R543). -/
def countGranules (die stack off len : Nat) : Act :=
  if len == 0 then .nop
  else .upTo ((off + len - 1) / 256 - off / 256 + 1) fun i =>
    .get fun s => .inc .I_HBM_CNT die (stack * 16 + s.channel die stack ((off / 256 + i) * 256))

/-- The stack answers accesses (12 HBM_STATUS_STATE). -/
def State.hbmReady (s : State) (die stack : Nat) : Bool := s.rd .HBM_STATUS_STATE die stack == 1

/-- The DRAM row of an HBM address waits for its repair, once, in order of fault sequence (16 R703). -/
def askRepair (a : Nat) (cls : FaultClass) : Act :=
  .aux fun y => if y.repairs.any fun q => Config.dramRow q.1 == Config.dramRow a then y else { y with repairs := y.repairs ++ [(a, cls.code)] }

/-- An uncorrectable word is counted, recorded and reported (12 R547, 16 R688). -/
def hbmUncorrectable (die stack off : Nat) : Act :=
  .all [
    .inc .HBM_UE die stack,
    .set .HBM_UE_ADDR die stack off,
    askRepair (hbmAddr die stack off) .hbmUe,
    faultRecord die .hbmUe 4 5 stack 0xFF off]

/-- A corrected word is counted; FLT_CE_ROW_LIMIT of them in one DRAM row within 24 h ask for the row's repair, and the count of the
row begins again (12 R546, 16 R688; log entry 31). -/
def hbmCorrected (die stack off : Nat) : Act :=
  .get fun s =>
    let now := s.now die
    let a := hbmAddr die stack off
    let sameRow := fun (p : Nat × Nat) => Config.dramRow p.1 == Config.dramRow a
    let recent := ((a, now) :: s.aux.corrected).filter fun p => decide (now < p.2 + 86400000000000)
    let limit := s.rd .FLT_CE_ROW_LIMIT die
    let full := limit != 0 && decide (limit ≤ (recent.filter sameRow).length)
    .all [
      .inc .HBM_CE die stack,
      .aux fun x => { x with corrected := if full then recent.filter fun p => !sameRow p else recent },
      .when full (.seq (askRepair a .hbmCeRow) (faultRecord die .hbmCeRow 4 5 stack 0xFF off))]

/-- Words with one wrong bit that a read meets are corrected, written back and counted (12 R546). -/
def correctWords (die stack a len : Nat) : Act :=
  .get fun s => .each (s.aux.weakWords.filter fun w => decide (a < w + 8 ∧ w < a + len)) fun w =>
    .seq (.aux fun x => { x with weakWords := x.weakWords.filter fun v => v != w }) (hbmCorrected die stack (w - hbmAddr die stack 0))

/-- Read bytes of HBM; the address of an error is that of the lowest uncorrectable word (12 R547; log entry 15). -/
def readHbm (die stack off len : Nat) : M (List Byte) := do
  let s ← M.state
  let a := hbmAddr die stack off
  if !s.hbmReady die stack then M.fail codeFabric (low32 a)
  else do
    M.act (countGranules die stack off len)
    M.act (correctWords die stack a len)
    match s.aux.badWords.filter fun w => decide (a < w + 8 ∧ w < a + len) with
    | [] => pure (s.bytes a len)
    | w :: ws => do
      let v := ws.foldl min w
      M.act (hbmUncorrectable die stack (v - hbmAddr die stack 0))
      M.fail codeFabric (low32 v)

/-- Words of HBM that a write covers are sound again (16 R704). -/
def soundWords (a len : Nat) : Act :=
  .aux fun x => { x with
    badWords := x.badWords.filter fun w => !(decide (a ≤ w ∧ w + 8 ≤ a + len))
    weakWords := x.weakWords.filter fun w => !(decide (a ≤ w ∧ w + 8 ≤ a + len)) }

/-- Write bytes of HBM. -/
def writeHbm (die stack off : Nat) (bs : List Byte) : M Unit := do
  let s ← M.state
  let a := hbmAddr die stack off
  if !s.hbmReady die stack then M.fail codeFabric (low32 a)
  else M.act (.all [
    countGranules die stack off bs.length,
    .put a bs,
    noteWrite a bs.length,
    soundWords a bs.length])

/-- Power domain that holds a place (18 R751): HBM PHY, cluster, vault; the register window is the fabric's. -/
def Place.domain : Place → Nat
  | .hbm st _ => 5 + st
  | .vault k _ => 18 + k
  | .store c _ => 10 + c / 4
  | .regs _ => 7
  | .nowhere => 7

/-- The die exists, has not failed, and its fabric and the domain of the place are on (01 R29, 18 R751, R752). -/
def State.placeOn (s : State) (die : Nat) (p : Place) : Bool :=
  s.dieThere die && !bit (s.rd .FLT_DIE_FAILED 0) die && bit (s.rd .PWR_DOM_ON die) 7 && bit (s.rd .PWR_DOM_ON die) p.domain

/-- An access to memory that cannot be reached completes with an error response (01 R29, 19 R782). -/
def needPlace (a : Nat) : M Place := do
  let s ← M.state
  if s.placeOn (addrDie a) (placeOf (addrOff a)) then pure (placeOf (addrOff a)) else M.fail codeFabric (low32 a)

/-- Read bytes of memory by package address without a requester's checks: what the units of 15 R668 read. -/
def unitRead (a len : Nat) : M (List Byte) := do
  match ← needPlace a with
  | .hbm st o => readHbm (addrDie a) st o len
  | .vault k o => readVault (addrDie a) k o len
  | .store c o => readStore (addrDie a) c o len
  | .regs _ => M.fail codeFabric (low32 a)
  | .nowhere => M.fail codeFabric (low32 a)

/-- A write from outside into an A-store or P-store without a wicket is refused and counted (11 R509). -/
def refuseWicket {α : Type} (die core off : Nat) : M α := do
  M.act (.inc .STG_WK_REFUSED die core)
  M.fail codeWicketNone (off / 64 * 64)

/-- Write bytes of memory by package address: what the units of 15 R668 write. They hold no wicket (11 R509). -/
def unitWrite (a : Nat) (bs : List Byte) : M Unit := do
  match ← needPlace a with
  | .hbm st o => writeHbm (addrDie a) st o bs
  | .vault k o => writeVault (addrDie a) k o bs
  | .store c o => if o < 0x400000 then writeStore (addrDie a) c o bs else refuseWicket (addrDie a) c o
  | .regs _ => M.fail codeFabric (low32 a)
  | .nowhere => M.fail codeFabric (low32 a)

/-- An effect that goes on whatever becomes of an access. -/
def M.anyway (m : M Unit) : Act := m.then fun _ => .nop

/-- What the memory reports at an address becomes the state of the row or word there: one that fails every read keeps failing (11 R500
to R503, 12 R545 to R547). -/
def meet (a : Nat) : ReadCheck → Act
  | .ok => .nop
  | .rowFails n =>
    match placeOf (addrOff a) with
    | .nowhere => .nop
    | .regs _ => .nop
    | .hbm _ _ => .nop
    | _ =>
      let row := a / 64 * 64
      if 3 ≤ n then upsetRow row
      else .when (n != 0) (.aux fun x => { x with flaky := (row, n) :: x.flaky.filter fun p => p.1 != row })
  | .corrected =>
    match placeOf (addrOff a) with
    | .hbm _ _ => .aux fun x => { x with weakWords := x.weakWords ++ [a / 8 * 8] }
    | _ => .nop
  | .uncorrectable =>
    match placeOf (addrOff a) with
    | .hbm _ _ => .aux fun x => { x with badWords := x.badWords ++ [a / 8 * 8] }
    | _ => .nop

/-- What the memory reports at several addresses. -/
def meetAll (ms : List (Nat × ReadCheck)) : Act := .each ms fun m => meet m.1 m.2

end Sys2Proof.Machine
end

