-- ==== Sys2Proof/Machine/Time.lean ====
section
/-! DEFINITION. The timebase, PTP stamps, phase masters and the phase-event table (02_phase_and_time.md). -/

namespace Sys2Proof.Machine

/-! ### Shadow sets (00 R16 to R22) -/

/-- A commit: the snapshot of a shadow set becomes its pending set (R17, R20). `sel` chooses the entries. -/
def snapshotSet (set : ShadowSet) (die : Nat) (sel : Nat → Bool) : Act :=
  .eff (.copy .vis .pend die fun f i => f.info.set == set && sel i)

/-- The pending set becomes active (R18). -/
def activateSet (set : ShadowSet) (die : Nat) (sel : Nat → Bool) : Act :=
  .eff (.copy .pend .act die fun f i => f.info.set == set && sel i)

/-- Row of a field's table that an index belongs to. -/
def Fld.row (f : Fld) (i : Nat) : Nat := i / (f.info.dims.drop 1).foldl (fun a p => a * p.1) 1

/-- One row of one table of a shadow set takes the pending set; the table lies at register-window offsets `lo` to `hi`. -/
def takeRow (set : ShadowSet) (die lo hi e : Nat) : Act :=
  .eff (.copy .pend .act die fun f i => f.info.set == set && decide (lo ≤ f.info.base ∧ f.info.base < hi) && f.row i == e)

/-! ### Device time -/

/-- Device time of die 0 in units of 2⁻³² ns (R45). -/
def State.fineTime (s : State) : Nat :=
  (s.rd .TIME_NOW_SEC 0 * 1000000000 + s.rd .TIME_NOW_NS 0) * 2 ^ 32 + s.rd .TIME_NOW_FRAC 0 * 2 ^ 16 + s.rd .I_TIME_LOW 0

/-- Set device time (R45, R51). -/
def setFineTime (t : Nat) : Act :=
  .all [
    .set .TIME_NOW_SEC 0 0 (t / 2 ^ 32 / 1000000000),
    .set .TIME_NOW_NS 0 0 (t / 2 ^ 32 % 1000000000),
    .set .TIME_NOW_FRAC 0 0 (t / 2 ^ 16 % 2 ^ 16),
    .set .I_TIME_LOW 0 0 (t % 2 ^ 16)]

/-- The part of a slew that one tick applies: floor(TIME_INCR / 2048) (R49). -/
def State.slewStep (s : State) : Nat := s.rd .TIME_INCR 0 / 2048

/-- The slew ends, and nothing is left of it (R50, R51). -/
def endSlew : Act := .all [.set .I_SLEW_MAG 0 0 0, .set .I_SLEW_NEG 0 0 0, .set .TIME_STATUS_SLEWING 0 0 0]

/-- A write to TIME_ADJ (R49, R50). -/
def timeAdjAct (v : Nat) : Act :=
  .get fun s =>
    let off := signed 32 v
    .all [
      .set .I_SILENCE 0 0 0,
      if off == 0 || s.slewStep == 0 then endSlew
      else .all [
        .set .I_SLEW_MAG 0 0 (off.natAbs * 2 ^ 32),
        .set .I_SLEW_NEG 0 0 (b2n (decide (off < 0))),
        .set .TIME_STATUS_SLEWING 0 0 1]]

/-- TIME_ADJ as a read gives it: the remaining offset, rounded toward zero (R49). -/
def State.timeAdj (s : State) : Nat :=
  let mag : Int := (s.rd .I_SLEW_MAG 0 / 2 ^ 32 : Nat)
  encode 32 (if s.on .I_SLEW_NEG 0 then -mag else mag)

/-- Device time at an ordinary tick: TIME_INCR, with the step or the remainder of a slew (R45, R49). -/
def advanceTime : Act :=
  .get fun s =>
    let d := s.slewStep
    let mag := s.rd .I_SLEW_MAG 0
    let neg := s.on .I_SLEW_NEG 0
    let slewing := s.on .TIME_STATUS_SLEWING 0 && d != 0
    let part := if slewing then min d mag else 0
    let t := s.fineTime + s.rd .TIME_INCR 0
    .all [
      setFineTime (if neg then t - part else t + part),
      .when (s.on .TIME_STATUS_SLEWING 0) (if slewing && decide (d ≤ mag) then .set .I_SLEW_MAG 0 0 (mag - d) else endSlew)]

/-- The pending step is loaded into device time (R51). -/
def applyStep : Act :=
  .get fun s =>
    let v := fun f => s.reg .pend f 0 0
    .all [
      setFineTime ((v .TIME_SET_SEC * 1000000000 + v .TIME_SET_NS) * 2 ^ 32 + v .TIME_SET_FRAC * 2 ^ 16),
      activateSet .timeStep 0 fun _ => true,
      .set .TIME_STATUS_COMMIT_PENDING 0 0 0,
      .inc .TIME_STEP_COUNT 0,
      endSlew]

/-- A write to TIME_SET_COMMIT (R51). -/
def timeSetCommitAct : Act := .seq (snapshotSet .timeStep 0 fun _ => true) (.set .TIME_STATUS_COMMIT_PENDING 0 0 1)

/-! ### Phase events -/

/-- Kinds of phase event (R82). -/
def kindSeal : Nat := 0
def kindBlind : Nat := 1
def kindProof : Nat := 2
def kindJob : Nat := 3
def kindDeadline : Nat := 4

/-- The entry is in use in the active table: valid and of a kind that R82 names. -/
def State.peUsed (s : State) (die e : Nat) : Bool := s.acOn .PE_VALID die e && decide (s.ac .PE_KIND die e ≤ 4)

/-- PE_INSTANT of an entry of the active table; its low 8 bits are PE_EVERY (R82). -/
def State.peInstant (s : State) (die e : Nat) : Nat := s.ac .PE_INSTANT die e

/-- A seal entry of the active table follows a master (R80). -/
def State.sealFollows (s : State) (die m : Nat) : Bool :=
  (List.range 256).any fun e =>
    s.peUsed die e && s.ac .PE_KIND die e == kindSeal && !s.acOn .PE_BASE die e && s.ac .PE_MASTER die e == m

/-- Some seal entry is active (R88). A valid seal entry counts also when it can no longer fire: one whose instant has passed or
fired, one with a PE_EVERY of zero, one of a stopped master (DEDUCED; log entry 148). -/
def State.anySeal (s : State) (die : Nat) : Bool :=
  (List.range 256).any fun e => s.peUsed die e && s.ac .PE_KIND die e == kindSeal

/-- Set or clear bit `e` of a word table of the time block. -/
def setPeBit (f : Fld) (die e : Nat) (b : Bool) : Act := .upd f die (e / 32) fun v => putBit v (e % 32) b

/-- An entry has fired for an instant since cold reset (R53). -/
def State.firedFor (s : State) (die e instant : Nat) : Bool := s.aux.instants.contains (die * 256 + e, instant)

/-- The pending phase-event table becomes active; instants already passed are marked and never fire, and an entry that has fired for
the instant it holds does not fire for it again (R18, R53, R89, R830). -/
def activatePe (die : Nat) : Act :=
  .seq (activateSet .pe die fun _ => true)
    (.seq (.set .PE_STATUS_COMMIT_PENDING die 0 0)
      (.get fun s => .upTo 256 fun e =>
        let past := s.peUsed die e && s.acOn .PE_BASE die e && decide (s.peInstant die e ≤ s.now die)
        .all [.set .I_PE_DONE die e (b2n (past || s.firedFor die e (s.peInstant die e))), .when past (setPeBit .PE_PAST die e true)]))

/-- A committed phase-event table becomes active behind a frame-seal event, after the move or the tick that fired it has fired every
entry of the old table (R88, R89); `before` is the number of events fired before. -/
def activateAtSeal (die before : Nat) : Act :=
  .get fun s => .when (s.on .PE_STATUS_COMMIT_PENDING die &&
    (s.aux.fired.drop before).any fun f => f.die == die && f.kind == kindSeal) (activatePe die)

/-- A write to PE_COMMIT (R88). -/
def peCommitAct (die : Nat) : Act :=
  .all [
    snapshotSet .pe die fun _ => true,
    .set .PE_STATUS_COMMIT_PENDING die 0 1,
    .get fun s => .when (!s.anySeal die) (activatePe die)]

/-- The phase that PTP-modulo masters take at a device time, before the offset, counted in phase units since the epoch (R72). -/
def ptpUnits (t p : Nat) : Nat := t * 65536 / p

/-- Fields of a master's active set. -/
def State.pmKind (s : State) (die m : Nat) : Nat := s.ac .PM_CTRL_KIND die m

/-- An azimuth master that a stream can move (R71). -/
def State.pmAzimuth (s : State) (die m : Nat) : Bool := s.pmKind die m == 1 && decide (s.ac .PM_CTRL_STREAM die m < 48)

/-- Length of the revolution at which a coasting master advances, in ns; 0 for a rate of zero (R75). -/
def State.coastPeriod (s : State) (die m : Nat) : Nat :=
  if s.on .I_PM_HAS_REV die m then s.rd .PM_MEAS_PERIOD_NS die m else s.ac .PM_PERIOD_NS die m

/-- The master counts as stopped (R81). -/
def State.pmStopped (s : State) (die m : Nat) : Bool :=
  match s.pmKind die m with
  | 1 => decide (48 ≤ s.ac .PM_CTRL_STREAM die m) || decide (2 ≤ s.rd .PM_STATUS_STATE die m) && s.coastPeriod die m == 0
  | 2 => s.ac .PM_PERIOD_NS die m == 0
  | _ => true

/-- A master's pending set becomes active and the master takes the phase that it gives, without a crossing (R829). -/
def activatePm (die m : Nat) : Act :=
  .get fun s =>
    let wasAzimuth := s.pmAzimuth die m
    let oldStream := s.ac .PM_CTRL_STREAM die m
    let oldOffset := s.ac .PM_CTRL_OFFSET die m
    .all [
      activateSet .pm die fun i => i == m,
      .set .PM_STATUS_COMMIT_PENDING die m 0,
      .get fun t =>
        let off := t.ac .PM_CTRL_OFFSET die m
        let p := t.ac .PM_PERIOD_NS die m
        match t.pmKind die m with
        | 1 =>
          if decide (48 ≤ t.ac .PM_CTRL_STREAM die m) then .set .PM_STATUS_STATE die m 0
          else if wasAzimuth && oldStream == t.ac .PM_CTRL_STREAM die m then .all [
            .upd .PM_STATUS_PHASE die m fun v => v + off + (65536 - oldOffset),
            .when (t.coastPeriod die m != s.coastPeriod die m) (.set .I_PM_COAST_TICK die m t.ticks)]
          else .all [
            .set .I_PM_STARTED die m 0,
            .set .PM_STATUS_STATE die m 1,
            .set .PM_STATUS_HOLDING die m 0,
            .set .I_PM_HAS_REV die m 0,
            .set .I_PM_WRAPPED die m 0,
            .set .I_PM_PKT_TICK die m t.ticks]
        | 2 =>
          .all [
            .set .PM_STATUS_STATE die m 1,
            .set .PM_STATUS_HOLDING die m 0,
            .set .I_PM_WRAPPED die m 0,
            if p == 0 then .set .I_PM_STARTED die m 0
            else .all [
              .set .PM_STATUS_PHASE die m (ptpUnits (t.now die) p + off),
              .set .I_PM_TIME die m (t.now die),
              .set .I_PM_STARTED die m 1]]
        | _ => .seq (.set .PM_STATUS_STATE die m 0) (.set .PM_STATUS_HOLDING die m 0)]

/-- A write to PM_COMMIT (R80, R81). -/
def pmCommitAct (die m : Nat) : Act :=
  .all [
    snapshotSet .pm die fun i => i == m,
    .set .PM_STATUS_COMMIT_PENDING die m 1,
    .get fun s => .when (s.pmStopped die m) (activatePm die m)]

/-- The time quality byte of an event (R57). TIME_STEPPED compares the steps applied with those applied when the entry, by its index
in the table, last fired, also under an earlier table; for an entry that has never fired, with none (DEDUCED; log entry 149). -/
def eventQuality (s : State) (die e pmState : Nat) (catchUp : Bool) : Nat :=
  s.sync + bitIf (pmState == 2) 2 + bitIf (pmState == 3) 3 + bitIf (s.rd .I_PE_STEPS die e != s.rd .TIME_STEP_COUNT 0) 4 +
    bitIf catchUp 5

/-- An entry fires: its event joins the dispatch of this tick (R84, R87). -/
def fireEntry (die e cross pmState : Nat) (catchUp : Bool) : Act :=
  .get fun s =>
    let phased := !s.acOn .PE_BASE die e
    .all [
      .aux fun a => { a with fired := a.fired ++ [{
        die := die, group := s.ticks, entry := e, kind := s.ac .PE_KIND die e, phased := phased,
        master := if phased then s.ac .PE_MASTER die e else 0, cross := cross, target := s.ac .PE_TARGET die e,
        targetDie := s.ac .PE_TARGET_DIE die e, time := s.now die, quality := eventQuality s die e pmState catchUp }] },
      .set .I_PE_STEPS die e (s.rd .TIME_STEP_COUNT 0)]

/-- The first crossing of phase `p` above `u1` and up to `u2` on a revolution that is a multiple of `every`; positions count phase
units, with the revolution in the bits above 16 (R83, R828). -/
def crossing (u1 u2 p every : Nat) : Option Nat :=
  if every == 0 then none
  else
    let first := u1 + 1 + (p + 65536 - (u1 + 1) % 65536) % 65536
    ((List.range 512).map fun j => first + j * 65536).find? fun u =>
      decide (u ≤ u2) && (u / 65536 % 2 ^ 32) % every == 0

/-- Entries that a master's move fires, each with its crossing. -/
def State.crossed (s : State) (die m u1 u2 : Nat) : List (Nat × Nat) :=
  (List.range 256).filterMap fun e =>
    if s.peUsed die e && !s.acOn .PE_BASE die e && s.ac .PE_MASTER die e == m then
      (crossing u1 u2 (s.ac .PE_PHASE die e) (bits (s.peInstant die e) 0 8)).map fun u => (e, u)
    else none

/-- A master in state `st` moves on by a number of phase units: it wraps, fires the entries crossed, and a commit that waits for a
seal of the master or for its wrap becomes active (R73, R80, R81, R83). A revolution of `jump` moves or of several wraps in one is no
complete one, and is not measured (R75, R76). Events that a return of the packets catches up carry the state before it, in which the
master passed their phases, so that a check among them that follows a lost master fails under R77 (DEDUCED; log entry 150). -/
def masterMove (die m delta st : Nat) (jump catchUp : Bool) : Act :=
  .get fun s =>
    let u1 := s.rd .PM_REVS die m * 65536 + s.rd .PM_STATUS_PHASE die m
    let u2 := u1 + delta
    let wraps := u2 / 65536 - u1 / 65536
    let fires := s.crossed die m u1 u2
    let seals := fires.any fun p => s.ac .PE_KIND die p.1 == kindSeal
    .when (delta != 0) (.all [
      .set .PM_STATUS_PHASE die m (u2 % 65536),
      .set .PM_REVS die m (u2 / 65536),
      .when (wraps != 0) (
        if jump || 1 < wraps then .set .I_PM_WRAPPED die m 0
        else .all [
          .when (s.on .I_PM_WRAPPED die m) (.all [
            .set .PM_MEAS_PERIOD_NS die m ((s.ticks - s.rd .I_PM_REV_TIME die m) * 2),
            .set .I_PM_HAS_REV die m 1]),
          .set .I_PM_REV_TIME die m s.ticks,
          .set .I_PM_WRAPPED die m 1]),
      .each fires fun p => fireEntry die p.1 p.2 st catchUp,
      .when (s.on .PM_STATUS_COMMIT_PENDING die m && (seals || wraps != 0 && !s.sealFollows die m)) (activatePm die m)])

/-- A PTP-modulo master follows device time from before a tick to after it (R72, R828). -/
def ptpAdvance (die m told : Nat) (jump : Bool) : Act :=
  .get fun s =>
    let p := s.ac .PM_PERIOD_NS die m
    let now := s.now die
    let t1 := s.rd .I_PM_TIME die m
    if s.pmKind die m != 2 || p == 0 then .nop
    else if !s.on .I_PM_STARTED die m then .all [
      .set .PM_STATUS_PHASE die m (ptpUnits now p + s.ac .PM_CTRL_OFFSET die m),
      .set .I_PM_TIME die m now,
      .set .I_PM_STARTED die m 1]
    else if now < told then .seq (.inc .PM_BACKSTEPS die m) (.set .PM_STATUS_HOLDING die m 1)
    else if now ≤ t1 then .nop
    else .all [
      .set .PM_STATUS_HOLDING die m 0,
      .set .I_PM_TIME die m now,
      masterMove die m (ptpUnits now p - ptpUnits t1 p) (s.rd .PM_STATUS_STATE die m) jump jump]

/-- Phase units that a coasting master has advanced a number of ticks after coasting began (R75; log entry 20). -/
def coastUnits (elapsed period : Nat) : Nat := if period == 0 then 0 else elapsed * 2 * 65536 / period

/-- A coasting or lost master advances at one tick, at the rate that it had when it began to coast: what it coasts is no measured
revolution (R75, R76). -/
def coastAdvance (die m : Nat) : Act :=
  .get fun s =>
    let since := s.ticks - s.rd .I_PM_COAST_TICK die m
    let p := s.coastPeriod die m
    let delta := coastUnits since p - coastUnits (since - 1) p
    let coasted := s.rd .I_PM_COAST_TURNS die m * 65536 + s.rd .I_PM_COAST_PART die m + delta
    .when (s.pmAzimuth die m && decide (2 ≤ s.rd .PM_STATUS_STATE die m) && decide (1 ≤ since)) (.all [
      .set .I_PM_COAST_TURNS die m (coasted / 65536),
      .set .I_PM_COAST_PART die m (coasted % 65536),
      masterMove die m delta (s.rd .PM_STATUS_STATE die m) true false])

/-- A packet's azimuth reaches a master of its stream (R71, R73, R74, R78). A packet at most half a turn ahead of the estimate lies
ahead of it (log entry 65). A packet behind the estimate at reacquisition, or while the master holds, is what R78 holds for and counts
no back-step in PM_BACKSTEPS (DEDUCED; log entry 151). -/
def azimuthMove (die m azimuth : Nat) : Act :=
  .get fun s =>
    let phase := (azimuth + s.ac .PM_CTRL_OFFSET die m) % 65536
    let cur := s.rd .PM_STATUS_PHASE die m
    let ahead := (phase + 65536 - cur) % 65536
    let st := s.rd .PM_STATUS_STATE die m
    let returning := decide (2 ≤ st)
    let move := fun back =>
      .all [.set .PM_STATUS_STATE die m 1, .set .PM_STATUS_HOLDING die m 0, masterMove die m ahead st back back]
    .seq (.set .I_PM_PKT_TICK die m s.ticks)
      (if !s.on .I_PM_STARTED die m then .all [
          .set .PM_STATUS_PHASE die m phase,
          .set .PM_STATUS_STATE die m 1,
          .set .PM_STATUS_HOLDING die m 0,
          .set .I_PM_STARTED die m 1]
        else if returning then
          if ahead ≤ 32768 then move true
          else .seq (.set .PM_STATUS_STATE die m 1) (.set .PM_STATUS_HOLDING die m 1)
        else if s.on .PM_STATUS_HOLDING die m then .when (decide (1 ≤ ahead ∧ ahead ≤ 32768)) (move false)
        else if phase < cur && cur - phase ≤ 32768 then .inc .PM_BACKSTEPS die m
        else move false)

/-- A packet of a stream moves the azimuth masters that follow it (R71, R79, R89). -/
def moveMasters (die stream azimuth : Nat) : Act :=
  .get fun s0 => .seq
    (.upTo 16 fun m =>
      .get fun s => .when (s.pmAzimuth die m && s.ac .PM_CTRL_STREAM die m == stream) (azimuthMove die m azimuth))
    (activateAtSeal die s0.aux.fired.length)

/-- PTP-instant entries of a die fire at the first tick at or after their instants, in instant order (R52, R53, R85). -/
def fireInstants (die told : Nat) (jump : Bool) : Act :=
  .get fun s =>
    let now := s.now die
    let due := (List.range 256).filter fun e =>
      s.peUsed die e && s.acOn .PE_BASE die e && !s.on .I_PE_DONE die e && decide (s.peInstant die e ≤ now)
    .when (decide (s.rd .I_PTP_LATEST die ≤ now)) (
      .each due fun e => .all [
        fireEntry die e (s.peInstant die e) 0 (jump && decide (told < s.peInstant die e)),
        .aux fun a => { a with instants := (die * 256 + e, s.peInstant die e) :: a.instants },
        .set .I_PE_DONE die e 1,
        setPeBit .PE_FIRED die e true,
        .upd .I_PTP_LATEST die 0 fun v => max v (s.peInstant die e)])

/-- One tick of the 500 MHz timebase (R45, R66): device time advances, or the pending step is loaded; masters advance; events fire,
all of them from the table that was active before the tick (R85, R89); the silence and holdover counts move on. -/
def tick : Act :=
  .get fun s =>
    let step := s.on .TIME_STATUS_COMMIT_PENDING 0
    .all [
      .set .I_TICKS 0 0 (s.ticks + 1),
      if step then applyStep else advanceTime,
      .inc .I_SILENCE 0,
      .inc .I_HOLD 0,
      .each s.dieList fun d => .all [
        .upTo 16 fun m => .seq (ptpAdvance d m (s.now d) step) (coastAdvance d m),
        fireInstants d (s.now d) step,
        activateAtSeal d s.aux.fired.length]]

/-- TIME_ADJ; writes on dies other than die 0 are discarded (R831). -/
def execTimeAdj (die : Nat) (value : Word) (s : State) : Host.Outcome State Fault Refusal :=
  (Act.when (die == 0) (timeAdjAct value.toNat)).done s

/-- TIME_SET_COMMIT. -/
def execTimeSetCommit (die : Nat) (s : State) : Host.Outcome State Fault Refusal :=
  (Act.when (die == 0) timeSetCommitAct).done s

/-- A write to TIME_SERVO (R66, R68). -/
def timeServoAct (v : Nat) : Act :=
  .seq (.set .I_SILENCE 0 0 0)
    (match v with
     | 1 => .set .TIME_STATUS_SYNC 0 0 1
     | 2 => .seq (.set .TIME_STATUS_SYNC 0 0 2) (.set .I_HOLD 0 0 0)
     | _ => .nop)

/-- TIME_SERVO_DECLARE_LOCKED (R68). -/
def execTimeServoDeclareLocked (die : Nat) (s : State) : Host.Outcome State Fault Refusal :=
  (Act.when (die == 0) (timeServoAct 1)).done s

/-- TIME_SERVO_DECLARE_HOLDOVER (R68). -/
def execTimeServoDeclareHoldover (die : Nat) (s : State) : Host.Outcome State Fault Refusal :=
  (Act.when (die == 0) (timeServoAct 2)).done s

/-- HOLDOVER_ENTRY: the silence has lasted TIME_WATCH_SERVO_MS while locked (R66). -/
def execHoldoverEntry (s : State) : Host.Outcome State Fault Refusal :=
  (Act.when (s.on .TIME_WATCH_EN 0 && s.sync == 1 && decide (s.rd .TIME_WATCH_SERVO_MS 0 * 500000 ≤ s.rd .I_SILENCE 0))
    (.seq (.set .TIME_STATUS_SYNC 0 0 2) (.set .I_HOLD 0 0 0))).done s

/-- HOLDOVER_EXPIRY: TIME_WATCH_HOLD_S has passed in holdover with the watch enabled (R67). -/
def execHoldoverExpiry (s : State) : Host.Outcome State Fault Refusal :=
  (Act.when (s.on .TIME_WATCH_EN 0 && s.sync == 2 && decide (s.rd .TIME_WATCH_HOLD_S 0 * 500000000 ≤ s.rd .I_HOLD 0))
    (.set .TIME_STATUS_SYNC 0 0 3)).done s

/-- PM_COMMIT. -/
def execPmCommit (die master : Nat) (s : State) : Host.Outcome State Fault Refusal :=
  (Act.when (s.dieThere die && decide (master < 16)) (pmCommitAct die master)).done s

/-- PE_COMMIT. -/
def execPeCommit (die : Nat) (s : State) : Host.Outcome State Fault Refusal :=
  (Act.when (s.dieThere die) (peCommitAct die)).done s

/-- MASTER_COAST: no packet has come for PM_TIMEOUT_US; zero means for this tick (R75). -/
def execMasterCoast (die master : Nat) (s : State) : Host.Outcome State Fault Refusal :=
  let us := s.ac .PM_TIMEOUT_US die master
  let last := s.rd .I_PM_PKT_TICK die master
  (Act.when (s.dieThere die && s.pmAzimuth die master && s.rd .PM_STATUS_STATE die master == 1 &&
      decide (last + us * ticksPerUs ≤ s.ticks) && decide (last < s.ticks)) (.all [
    .set .PM_STATUS_STATE die master 2,
    .set .PM_STATUS_HOLDING die master 0,
    .set .I_PM_STARTED die master 1,
    .set .I_PM_WRAPPED die master 0,
    .set .I_PM_COAST_TICK die master s.ticks,
    .set .I_PM_COAST_TURNS die master 0,
    .set .I_PM_COAST_PART die master 0])).done s

/-- MASTER_LOST: the master has coasted PM_TIMEOUT_REVS revolutions (R76). -/
def execMasterLost (die master : Nat) (s : State) : Host.Outcome State Fault Refusal :=
  (Act.when (s.dieThere die && s.pmAzimuth die master && s.rd .PM_STATUS_STATE die master == 2 &&
      decide (s.ac .PM_TIMEOUT_REVS die master ≤ s.rd .I_PM_COAST_TURNS die master))
    (.set .PM_STATUS_STATE die master 3)).done s

/-! ### The order of a dispatch -/

/-- Place of a kind in a dispatch (R86). -/
def kindOrder (k : Nat) : Nat := if k == kindDeadline then 0 else k + 1

/-- One event is delivered before another of its dispatch (R86). -/
def Fired.before (a b : Fired) : Bool :=
  let key := fun (f : Fired) => [kindOrder f.kind, b2n (!f.phased), f.master, f.cross, f.entry]
  decide (key a ≤ key b)

/-- Insert an event in the order of R86. -/
def insertFired (f : Fired) : List Fired → List Fired
  | [] => [f]
  | g :: gs => if f.before g then f :: g :: gs else g :: insertFired f gs

/-- Events in the order of R86. -/
def sortFired (l : List Fired) : List Fired := l.foldr insertFired []

/-- The events of a die's oldest dispatch that waits: all that fired in one tick, once that tick is over (R84). -/
def State.dispatchOf (s : State) (die : Nat) : List Fired :=
  match s.aux.fired.find? fun f => f.die == die && decide (f.group < s.ticks) with
  | none => []
  | some f => sortFired (s.aux.fired.filter fun g => g.die == die && g.group == f.group)

/-! ### Stamps -/

/-- Ports of a die (R61): 0 and 1, and port 2 on die 0. -/
def portThere (die port : Nat) : Bool := decide (port < 2) || port == 2 && die == 0

/-- Stamps in a port's FIFO. -/
def State.stampsOf (s : State) (die port : Nat) : List Stamp := s.aux.stamps.filter fun t => t.die == die && t.port == port

/-- A write to TSF_POP (R61). -/
def tsfPopAct (die port : Nat) : Act :=
  .aux fun a =>
    match a.stamps.find? fun t => t.die == die && t.port == port with
    | some t => { a with stamps := a.stamps.erase t }
    | none => a

/-- TSF_POP. -/
def execTsfPop (die port : Nat) (s : State) : Host.Outcome State Fault Refusal :=
  (Act.when (s.dieThere die) (tsfPopAct die port)).done s

/-- The fields of a PTP event message that the command fixes, each at its offset in the message, in the byte order of IEEE 1588-2019
(00 R6): messageType, domainNumber, the two-step flag, sequenceId, and in a one-step Sync message the originTimestamp with the
predicted egress stamp (R60). The rest of the message is the Keeper's instance's (log entry 152). -/
def ptpFields (twoStep : Bool) (seqId msgType domain sec ns : Nat) : List (Nat × List Byte) :=
  [(0, toBe 1 (msgType % 16)), (4, toBe 1 domain), (6, toBe 1 (bitIf twoStep 1)), (30, toBe 2 seqId)] ++
    if !twoStep && msgType % 16 == 0 then [(34, toBe 6 sec ++ toBe 4 ns)] else []

/-- PTP_EVENT_SEND: a two-step message's egress stamp goes into the port's FIFO, or is lost (R61, R62); a one-step Sync message
carries it (R60). TSF_STATUS_LOST stays at its greatest value (DESIGN CHOICE; log entry 153). -/
def execPtpEventSend (die port : Nat) (twoStep : Bool) (seqId msgType domain : Nat) (s : State) :
    Host.Outcome State Fault Refusal :=
  let stamp : Stamp := ⟨die, port, s.seconds die, s.nanos die, s.rd .TIME_NOW_FRAC 0, seqId, msgType, domain⟩
  (Act.when (s.dieThere die && portThere die port) (.all [
    .out (.ptpMessage die port (s.fullStamp die) (ptpFields twoStep seqId msgType domain stamp.sec stamp.ns)),
    .when twoStep
      (if (s.stampsOf die port).length < 64 then .aux fun a => { a with stamps := a.stamps ++ [stamp] }
       else .seq (.incSat .TSF_STATUS_LOST die port) (bellRing die (0x050 + port)))])).done s

end Sys2Proof.Machine
end

