-- ==== Sys2Proof/Machine/JobUnit.lean ====
section
/-! DEFINITION. The job unit (13_jobs_and_accounting.md): frames and their buffers, jobs and their endings, records on their way to
the rings. -/

namespace Sys2Proof.Machine

/-- The next number of the package's order of acceptance and issue. -/
def takeOrd (k : Nat → Act) : Act := .get fun s => .seq (.set .I_NEXT_ID 0 0 (s.rd .I_NEXT_ID 0 + 1)) (k (s.rd .I_NEXT_ID 0 + 1))

/-- All ones of a number of bytes: what a record holds where it has no value (13 R583, R584). -/
def ones (n : Nat) : Nat := 2 ^ (8 * n) - 1

/-- The partition is RUNNING (13 PT_STATE). -/
def State.running (s : State) (p : Nat) : Bool := s.rd .PT_STATE 0 p == 2

/-! ### Frames -/

/-- Flag bits of a frame header (03 R137, R138). -/
def frameOverflow : Nat := 0
def frameTimeDrops : Nat := 1
def framePoseGap : Nat := 2
def framePoseExtrapolated : Nat := 3
def frameBusyDrops : Nat := 4
def frameBufWait : Nat := 5
def frameReordered : Nat := 6
def frameDuplicates : Nat := 7
def frameEmpty : Nat := 8
def frameAudioGap : Nat := 9
def frameWriteErr : Nat := 10

/-- A frame with a flag set. -/
def Frame.flag (f : Frame) (i : Nat) : Frame := { f with flags := putBit f.flags i true }

/-- The 64 bytes of a frame's header (03 R137). -/
def Frame.header (f : Frame) : List Byte :=
  toLe 8 f.base ++ toLe 8 f.sealTime ++ toLe 4 f.seq ++ toLe 4 f.epoch ++ toLe 4 f.count ++ toLe 4 f.packets ++
  toLe 4 f.flags ++ toLe 4 f.dropTime ++ toLe 4 f.dropCap ++ toLe 4 f.dropPose ++ toLe 4 f.dropBusy ++ toLe 4 f.dropNobuf ++
  toLe 1 f.streamId ++ toLe 1 f.entry ++ toLe 1 f.die ++ toLe 1 f.quality ++ toLe 1 (f.buf.getD 0xFF) ++ toLe 1 f.part ++
  toLe 1 f.kind ++ toLe 1 0

/-- The frame is this one. -/
def Frame.is (f : Frame) (die entry seq : Nat) : Bool := f.die == die && f.entry == entry && f.seq == seq

/-- The open frame of a stream. -/
def State.openFrame (s : State) (die entry : Nat) : Option Frame :=
  s.aux.frames.find? fun f => f.die == die && f.entry == entry && !f.isSealed

/-- A frame by its sequence. -/
def State.frame (s : State) (die entry seq : Nat) : Option Frame := s.aux.frames.find? fun f => f.is die entry seq

/-- Change one frame. -/
def Act.frame (die entry seq : Nat) (g : Frame → Frame) : Act :=
  .aux fun a => { a with frames := a.frames.map fun f => if f.is die entry seq then g f else f }

/-- Bytes of a point, or of an audio position with its padding (03 R122, R131). -/
def rowBytes (kind channels : Nat) : Nat := if kind == 2 then (channels * 4 + 63) / 64 * 64 else 16

/-- Package address of a stream's buffer under the active set (03 R131). -/
def State.bufferAddr (s : State) (die entry b : Nat) : Nat :=
  let size := s.ac .SE_CAP die entry * rowBytes (s.ac .SE_KIND die entry) (s.ac .SE_CHANNELS die entry)
  pkgAddr die (s.ac .SE_BUF_BASE die entry + b * ((size + 4095) / 4096 * 4096))

/-- A frame takes a buffer: ingest keeps the address at which it writes it (03 R131). -/
def takeBuffer (die entry seq b : Nat) : Act :=
  .get fun s => .all [
    .frame die entry seq fun f => { f with buf := some b, bufAddr := s.bufferAddr die entry b },
    .set .I_SC_BUF_ADDR die (entry * 2 + b) (s.bufferAddr die entry b)]

/-- Buffers of a stream that no frame has. -/
def State.freeBuffers (s : State) (die entry : Nat) : List Nat :=
  [0, 1].filter fun b => !s.aux.frames.any fun f => f.die == die && f.entry == entry && f.buf == some b

/-- A sealed frame goes: its buffer is released, and the open frame takes it if it waits for one (03 R133, R134). -/
def releaseFrame (die entry seq : Nat) : Act :=
  .seq (.aux fun a => { a with frames := a.frames.filter fun f => !f.is die entry seq })
    (.get fun s =>
      match s.openFrame die entry, s.freeBuffers die entry with
      | some f, b :: _ => .when f.buf.isNone (takeBuffer die entry f.seq b)
      | _, _ => .nop)

/-- A frame has lost something (13 R583 LOSSES). -/
def Frame.losses (f : Frame) : Bool :=
  f.dropTime != 0 || f.dropCap != 0 || f.dropPose != 0 || f.dropBusy != 0 || f.dropNobuf != 0 || bit f.flags frameWriteErr

/-! ### Records -/

/-- Hand a record over to its partition's ring, in order (13 R587). -/
def handRecord (r : Rec) : Act := .aux fun a => { a with recs := a.recs ++ [r] }

/-- A record of a partition with no unit's particulars. -/
def State.blankRec (s : State) (p kind cause : Nat) : Rec :=
  { part := p, jseq := ones 8, reqSeq := ones 8, kind := kind, cause := cause, appType := 0, rflags := 0, accepted := 0, channel := 0,
    frames := [], attach := [], cflags := 0, trigger := 0, err := 0, detail := 0, payload := [], epoch := s.rd .PT_EPOCH 0 p }

/-- Record kinds and causes (13 R583). -/
def recAccept : Nat := 0x01
def recRefusal : Nat := 0x02
def recResult : Nat := 0x03
def recToken : Nat := 0x04
def recWithdrawn : Nat := 0x05
def recLateMarker : Nat := 0x06
def recEpoch : Nat := 0x07
def causeRestart : Nat := 0x01
def causeCancelled : Nat := 0x02
def causeNoEnd : Nat := 0x03
def causeNoResult : Nat := 0x04
def causeListError : Nat := 0x05
def causeOverrun : Nat := 0x06
def causeSuperseded : Nat := 0x07
def causeWriteError : Nat := 0x08
def causeQueueFull : Nat := 0x10
def causeClassOff : Nat := 0x11
def causeGap : Nat := 0x12
def causePartitionDown : Nat := 0x13
def causeJobFull : Nat := 0x14

/-- Frames bound to a job, in bind order; none for an absent entry. -/
def State.boundFrames (s : State) (j : Job) : List (Option Frame) :=
  j.binds.map fun b => b.seq.bind fun q => s.frame b.die b.entry q

/-- Frame entries of a job's records: bytes 16 to 63 of each bound frame's header, all ones for an absent entry (13 R584). -/
def State.frameEntries (s : State) (j : Job) : List (List Byte) :=
  (s.boundFrames j).map fun o =>
    match o with
    | some f => f.header.drop 16
    | none => List.replicate 48 0xFF

/-- Word TRIGGER of a job's records (13 R583). -/
def Job.triggerWord (j : Job) : Nat := j.trigger + j.die * 256

/-- RFLAGS of a job's record: LATE, LOSSES of its frames, ABSENT (13 R583). -/
def State.jobFlags (s : State) (j : Job) (late : Bool) : Nat :=
  bitIf late 0 + bitIf ((s.boundFrames j).any fun o => o.any Frame.losses) 2 + bitIf (j.binds.any fun b => b.seq.isNone) 4

/-- A record of a job. -/
def State.jobRec (s : State) (j : Job) (kind cause : Nat) (late : Bool) : Rec :=
  { s.blankRec j.part kind cause with
    jseq := j.jseq
    reqSeq := if j.kind == 2 then j.reqSeq else ones 8
    rflags := s.jobFlags j late
    accepted := j.accepted
    channel := j.channel
    frames := s.frameEntries j
    trigger := j.triggerWord }

/-! ### Jobs -/

/-- The job is this one. -/
def Job.is (j : Job) (part jseq : Nat) : Bool := j.part == part && j.jseq == jseq

/-- A job by partition and job sequence. -/
def State.job (s : State) (part jseq : Nat) : Option Job := s.aux.jobs.find? fun j => j.is part jseq

/-- Change one job. -/
def Act.job (part jseq : Nat) (g : Job → Job) : Act :=
  .aux fun a => { a with jobs := a.jobs.map fun j => if j.is part jseq then g j else j }

/-- Jobs that a trigger holds (13 R572). -/
def State.held (s : State) (die t : Nat) : List Job := s.aux.jobs.filter fun j => j.die == die && j.trigger == t

/-- Every wicket that a context holds is freed (11 R515). -/
def freeWickets (die core c : Nat) : Act :=
  .get fun s => .each s.dieList fun d => .upTo 32 fun n => .upTo 16 fun w =>
    let i := n * 16 + w
    .when (s.on .WK_VALID d i && s.rd .WK_DIE d i == die && s.rd .WK_CORE d i == core && s.rd .WK_CTX d i == c)
      (.seq (.set .WK_VALID d i 0) (.aux fun a => { a with returning := a.returning.filter fun r => r != (d, n, w) }))

/-- A context of a core has finished: its in-flight state goes, its wickets are freed, it shows the given state. -/
def leaveContext (die core c st : Nat) : Act :=
  .all [
    .set .CTX_STATE die (ctxIdx core c) st,
    .set .CTX_LOOPS die (ctxIdx core c) 0,
    .ctx die core c fun _ => {},
    .aux fun a => { a with
      credits := a.credits.filter fun w => !(w.sdie == die && w.score == core && w.sctx == c)
      semAdds := a.semAdds },
    freeWickets die core c]

/-- Error that SQ_STOP and the device's own stops give (10 R472). -/
def codeStopped : Nat := 0x30

/-- A stopped context records its error, counts it, enters the stopped state and raises the core's list error (10 R469). -/
def stopContext (die core c code opcode addr detail : Nat) : Act :=
  let i := ctxIdx core c
  .all [
    .set .CTX_ERR_CODE die i code,
    .set .CTX_ERR_OPCODE die i opcode,
    .set .CTX_ERR_ADDR die i addr,
    .set .CTX_ERR_DETAIL die i detail,
    .inc .SQ_ERRORS die core,
    leaveContext die core c 5,
    bellRing die core]

/-- Passes and loads of a context leave the engines (for a stop that does not wait). -/
def dropFromEngines (die core c : Nat) : Act :=
  .upTo 4 fun e => .all [
    .engine die core e fun g =>
      let h := g.preempted c
      { h with flight := h.flight.filter fun p => p.ctx != c, drain := g.drain && (g.flight.any fun p => p.ctx != c) },
    showEngine die core e]

/-- The device stops a list at once: it issues nothing further, a wait ends, commands that have not begun are withdrawn
(13 R579; log entry 14). -/
def haltContext (die core c : Nat) : Act :=
  .get fun s =>
    .when (s.ctxState die core c != 0 && s.ctxState die core c != 5) (.all [
      dropFromEngines die core c,
      retireEmpties die core,
      stageHeads die core,
      stopContext die core c codeStopped 0 (s.rd .CTX_PC die (ctxIdx core c)) 0])

/-- A trigger holds no job and no unsent record (R602). -/
def State.triggerFree (s : State) (die t : Nat) : Bool :=
  (s.held die t).isEmpty && !(s.aux.sends.any fun r => r.job == some (die, t)) &&
  !(s.aux.recs.any fun r => r.jseq != ones 8 && r.trigger == t + die * 256)

/-- A channel holds no job and no unsent record (R602). -/
def State.channelFree (s : State) (c : Nat) : Bool :=
  !(s.aux.jobs.any fun j => j.channel == c && j.kind != 1) && !(s.aux.decs.any fun d => d.channel == c) &&
  !(s.aux.sends.any fun r => r.channel == c) && !(s.aux.recs.any fun r => r.channel == c)

/-- Every trigger and channel of a die that is free takes the pending set (R602). -/
def jobSettle (die : Nat) : Act :=
  .get fun s => .seq
    (.when (s.rd .I_JT_WAIT die != 0) (.upTo 256 fun t =>
      .when (bit (s.rd .I_JT_WAIT die) t && s.triggerFree die t)
        (.seq (takeRow .job die 0xC1000 0xC2000 t) (.upd .I_JT_WAIT die 0 fun v => putBit v t false))))
    (.when (die == 0 && s.rd .I_CH_WAIT 0 != 0) (.upTo 64 fun c =>
      .when (bit (s.rd .I_CH_WAIT 0) c && s.channelFree c)
        (.seq (takeRow .job 0 0xC2000 0xC3000 c) (.upd .I_CH_WAIT 0 0 fun v => putBit v c false))))

/-- Every die's triggers and the channels. -/
def jobSettleAll : Act := .get fun s => .each s.dieList jobSettle

/-! ### Decode classes (09 R385 to R403) -/

/-- Requests that wait in a class, in acceptance order (09 R386). -/
def State.waitingReqs (s : State) (die cls : Nat) : List DecReq :=
  s.aux.decs.filter fun d => d.die == die && d.cls == cls && d.slot.isNone

/-- Requests that hold a slot of a class (09 R388). -/
def State.slotReqs (s : State) (die cls : Nat) : List DecReq :=
  s.aux.decs.filter fun d => d.die == die && d.cls == cls && d.slot.isSome

/-- The running step of a class. -/
def State.stepOf (s : State) (die cls : Nat) : Option StepRun := s.aux.steps.find? fun r => r.die == die && r.cls == cls

/-- The class is idle: no step runs, no slot is occupied, no request waits (09 R403). -/
def State.classIdle (s : State) (die cls : Nat) : Bool :=
  (s.stepOf die cls).isNone && (s.slotReqs die cls).isEmpty && (s.waitingReqs die cls).isEmpty

/-- The pending set changes none of the fields that only an idle class may change (09 R403). -/
def State.bcSameOwner (s : State) (die cls : Nat) : Bool :=
  [Fld.BC_PARTITION, Fld.BC_TRIGGER, Fld.BC_DESC_BASE].all fun f => s.reg .pend f die cls == s.reg .act f die cls

/-- The class takes its pending set when it may: one that changes its owner whenever the class is idle, any other at a step start, or
at its commit write when the class is idle (09 R403). -/
def bcTake (die cls : Nat) (atStart atCommit : Bool) : Act :=
  .get fun s =>
    .when (s.on .BC_COMMIT_PENDING die cls &&
        if s.bcSameOwner die cls then atStart || atCommit && s.classIdle die cls else s.classIdle die cls)
      (.seq (activateSet .bc die fun i => i == cls) (.set .BC_COMMIT_PENDING die cls 0))

/-- A record of a decode request (13 R583: bits [15:11] of its TRIGGER are zero). -/
def State.decRec (s : State) (d : DecReq) (kind cause : Nat) : Rec :=
  { s.blankRec d.part kind cause with
    reqSeq := d.reqSeq, accepted := d.accepted, channel := d.channel, trigger := s.ac .BC_TRIGGER d.die d.cls % 2 ^ 11 }

/-- TS64 after which a request's result is published late; none where its class sets no deadline (09 R401). -/
def State.dueBy (s : State) (d : DecReq) : Option Nat :=
  let limit := s.ac .BC_DEADLINE_MS d.die d.cls
  if limit == 0 then none else some (d.accepted + limit * 1000000)

/-- Slots that no request holds. -/
def State.freeSlots (s : State) (die cls : Nat) : List Nat :=
  (List.range 64).filter fun i => !(s.slotReqs die cls).any fun d => d.slot == some i

/-- Waiting requests join in acceptance order, each into a free slot; which one is left open (09 R388, R391, R392; log entry 28). -/
def joinSlots (die cls : Nat) : Nat → Act
  | 0 => .nop
  | n + 1 => .seq (.get fun s =>
      match s.waitingReqs die cls, s.freeSlots die cls with
      | d :: _, f :: fs => .free fun v => .aux fun a => { a with
          decs := a.decs.map fun e => if e == d then { e with slot := some ((f :: fs).getD (v % (fs.length + 1)) f) } else e }
      | _, _ => .nop) (joinSlots die cls n)

/-- A mask of slots. -/
def slotMask (l : List Nat) : Nat := l.foldl (fun m i => putBit m i true) 0

/-- The 64 bytes of a step descriptor (09 R394). -/
def stepBytes (step rows join last start : Nat) (count : Nat) : List Byte :=
  toLe 8 step ++ toLe 8 rows ++ toLe 8 join ++ toLe 8 last ++ toLe 8 start ++ toLe 1 count ++ List.replicate 23 0

/-! ### Endings of jobs -/

/-- A job is gone: the buffers of its bound frames are released, each behind the write of its frame's header (03 R128, 13 R578). Its
request slot is free with it. -/
def finishJob (part jseq : Nat) : Act :=
  .get fun s =>
    match s.job part jseq with
    | none => .nop
    | some j => .seq (.aux fun a => { a with
        jobs := a.jobs.filter fun k => !k.is part jseq
        done := if j.kind == 0 && !j.checked then a.done ++ [⟨part, j.die, j.trigger, j.ord, j.accepted, j.standing⟩] else a.done })
        (.seq (.each j.binds fun b =>
          match b.seq with
          | some q =>
            if (s.frame b.die b.entry q).any Frame.hdrDone then releaseFrame b.die b.entry q
            else .frame b.die b.entry q fun f => { f with ended := true }
          | none => .nop) jobSettleAll)

/-- Requests in a step whose step job ends without BC_DONE are withdrawn, and the step completes (13 R579): the next one then starts as
at any completion (09 R391, R392, R403). `start` starts it. -/
def abandonStepBy (start : Nat → Nat → Act) (die cls step cause : Nat) : Act :=
  .get fun s =>
    match s.aux.steps.find? fun r => r.die == die && r.cls == cls && r.step == step with
    | none => .nop
    | some r =>
      let mine := fun (d : DecReq) => d.die == die && d.cls == cls && d.slot.any r.rows.contains
      .all [
        .each ((s.aux.decs.filter mine).filter fun d => !d.ended) fun d =>
          .seq (.inc .PT_WITHDRAWN 0 d.part) (handRecord (s.decRec d recWithdrawn cause)),
        .aux fun a => { a with
          decs := a.decs.filter fun d => !mine d
          steps := a.steps.filter fun q => !(q.die == die && q.cls == cls) },
        .inc .BC_STEPS die cls,
        .inc .BC_ROWS die cls r.rows.length,
        .set .BC_STEP_RUNNING die cls 0,
        bcTake die cls false false,
        start die cls]

/-- A job's unit ends with a WITHDRAWN record (13 R579), and a RESULT that has not entered the ring never does (R569); a step job,
which is no unit, ends its step. -/
def withdrawJobBy (start : Nat → Nat → Act) (j : Job) (cause : Nat) (late : Bool) (err detail cflags : Nat) : Act :=
  .get fun s =>
    if j.kind == 1 then abandonStepBy start j.clsDie j.cls j.reqSeq cause
    else .when (!j.ended) (.all [
      .inc .PT_WITHDRAWN 0 j.part,
      .aux fun a => { a with recs := a.recs.filter fun r => !(r.part == j.part && r.jseq == j.jseq && r.kind == recResult) },
      handRecord (let r := s.jobRec j recWithdrawn cause late
        { r with err := err, detail := detail, cflags := cflags, rflags := r.rflags ||| bitIf (cflags &&& flagContErr != 0) 3 }),
      .job j.part j.jseq fun k => { k with ended := true }])

/-- When every list of a job has ended or stopped, the job ends, withdrawn if no PUBLISH RESULT came (13 R578, R579). -/
def settleJobBy (start : Nat → Nat → Act) (part jseq : Nat) : Act :=
  .get fun s =>
    match s.job part jseq with
    | none => .nop
    | some j =>
      .when (j.lists.all fun l => l.state == 2) (.all [
        .when (j.kind == 1 || !j.published && !j.ended) (withdrawJobBy start j causeNoResult false 0 0 0),
        finishJob part jseq])

/-- Newest sealed frame of a stream that no job has bound (13 R574). -/
def State.bindable (s : State) (die entry : Nat) : Option Frame :=
  (s.aux.frames.filter fun f => f.die == die && f.entry == entry && f.isSealed && f.accepted && !f.bound && !f.ended).getLast?

/-- Bytes at an address, or zeros when the read is refused: what a unit does with a descriptor that it cannot read (log entry 15). -/
def unitBytes (a n : Nat) (k : List Byte → Act) : Act :=
  (unitRead a n).then fun r =>
    match r with
    | .ok bs => k bs
    | .error _ => k (List.replicate n 0)

/-- Bind entries of a job descriptor (13 R573). -/
def bindEntries (desc : List Byte) : List (Nat × Nat) :=
  (List.range (min (byteAt desc 10) 16)).map fun i =>
    let w := leAt desc (24 + 2 * i) 2
    (bits w 6 3, bits w 0 6)

/-- List-table entries (13 R573). -/
def listEntries (table : List Byte) (n : Nat) : List JobList :=
  (List.range n).map fun i =>
    let w := leAt table (8 * i) 8
    { die := bits w 5 3, core := bits w 0 5, off := bits w 8 24, state := 0, phys := 0 }

/-- A firing finds its trigger valid, of its kind, and its partition RUNNING (13 R567, R571). -/
def State.triggerOk (s : State) (die t kind : Nat) : Bool := s.acOn .JT_VALID die t && s.ac .JT_KIND die t == kind

/-- Jobs that a trigger may hold: JT_DEPTH, where 5 to 7 act as 4 (13 R572). -/
def State.depth (s : State) (die t : Nat) : Nat := min (s.ac .JT_DEPTH die t) 4

/-- What a firing brings to its job. -/
structure Firing where
  die : Nat
  trigger : Nat
  kind : Nat
  /-- Channel of its records. -/
  channel : Nat
  reqSeq : Nat := 0
  slot : Nat := 0
  clsDie : Nat := 0
  cls : Nat := 0
deriving DecidableEq, Repr

/-- A job is created (13 R572 to R574): it takes the next job sequence, reads its descriptor and list table and, at a phase firing,
binds frames. A job without lists ends at once (R579). -/
def createJobBy (start : Nat → Nat → Act) (f : Firing) : Act :=
  .get fun s =>
    let p := s.ac .JT_PARTITION f.die f.trigger
    let jseq := s.rd .PT_JSEQ 0 p
    unitBytes (s.ac .JT_DESC f.die f.trigger) 64 fun desc =>
    unitBytes (leAt desc 0 8) (8 * min (byteAt desc 8) 64) fun table =>
    takeOrd fun ord =>
    .get fun t =>
      let binds := if f.kind == 0 then bindEntries desc else []
      let bound := binds.map fun b => (⟨b.1, b.2, (t.bindable b.1 b.2).map fun q => q.seq⟩ : Bind)
      let lists := listEntries table (min (byteAt desc 8) 64)
      .all [
        .set .PT_JSEQ 0 p (jseq + 1),
        .each bound fun b =>
          match b.seq with
          | some q => .frame b.die b.entry q fun x => { x with bound := true }
          | none => .nop,
        .aux fun a => { a with jobs := a.jobs ++ [{
          part := p, jseq := jseq, die := f.die, trigger := f.trigger, kind := f.kind, ord := ord, accepted := t.now f.die,
          tick := t.ticks, ctx := byteAt desc 9 % 4, binds := bound, lists := lists, deadlineUs := leAt desc 16 4,
          lateUs := leAt desc 12 4, channel := f.channel, reqSeq := f.reqSeq, slot := f.slot, clsDie := f.clsDie,
          cls := f.cls }] },
        .when lists.isEmpty (settleJobBy start p jseq)]

/-- A phase, step or host firing (13 R571, R572). -/
def fireTriggerBy (start : Nat → Nat → Act) (f : Firing) : Act :=
  .get fun s =>
    if !s.triggerOk f.die f.trigger f.kind then .inc .JOB_FIRE_REFUSED f.die
    else if !s.running (s.ac .JT_PARTITION f.die f.trigger) then .nop
    else if s.depth f.die f.trigger ≤ (s.held f.die f.trigger).length then
      .when (f.kind == 0 || f.kind == 3) (.incSat .JT_SKIPPED f.die f.trigger)
    else createJobBy start f

/-- A step starts: waiting requests join, the descriptor is written and the trigger fires (09 R391 to R395). -/
def startStepBy (start : Nat → Nat → Act) (die cls : Nat) : Act :=
  .seq (bcTake die cls true false) (.get fun s0 =>
    let before := (s0.slotReqs die cls).filterMap fun d => d.slot
    .seq (joinSlots die cls (min 64 (s0.waitingReqs die cls).length)) (.get fun s =>
      let reqs := s.slotReqs die cls
      let rows := (List.range 64).filter fun i => reqs.any fun d => d.slot == some i
      let join := rows.filter fun i => !before.contains i
      let last := rows.filter fun i => reqs.any fun d => d.slot == some i && decide (s.ac .BC_MAX_TOKENS die cls ≤ d.tokens + 1)
      let step := s.rd .I_BC_STEP die cls
      let desc := s.ac .BC_DESC_BASE die cls
      let trig := s.ac .BC_TRIGGER die cls
      .all [
        .set .I_BC_STEP die cls (step + 1),
        .set .BC_STEP_RUNNING die cls 1,
        .aux fun a => { a with steps := a.steps ++ [⟨die, cls, step, rows, last, desc⟩] },
        (unitWrite desc (stepBytes step (slotMask rows) (slotMask join) (slotMask last) (s.now die) rows.length)).anyway,
        .when (s.dieThere (bits trig 8 3)) (fireTriggerBy start {
          die := bits trig 8 3, trigger := bits trig 0 8, kind := 1,
          channel := s.ac .JT_CHANNEL (bits trig 8 3) (bits trig 0 8), reqSeq := step,
          clsDie := die, cls := cls })]))

/-- A class without a running step starts one when 09 R391 or R392 says so. -/
def maybeStartBy (start : Nat → Nat → Act) (die cls : Nat) : Act :=
  .get fun s =>
    let window := s.ac .BC_WINDOW_US die cls
    let due := match s.waitingReqs die cls with
      | [] => false
      | d :: ds => window == 0 || decide (64 ≤ ds.length + 1) || decide (d.accepted + window * 1000 ≤ s.now die)
    .when ((s.stepOf die cls).isNone && (!(s.slotReqs die cls).isEmpty || due)) (startStepBy start die cls)

/-- The same for steps that follow one another at once because their jobs end at their firing; each ends requests, of which a class
holds at most 256 (09 R386, R391). -/
def maybeStartIn : Nat → Nat → Nat → Act
  | 0, _, _ => .nop
  | n + 1, die, cls => maybeStartBy (maybeStartIn n) die cls

def maybeStart (die cls : Nat) : Act := maybeStartIn 257 die cls

/-- Jobs, with the steps that their endings start. -/
def withdrawJob (j : Job) (cause : Nat) (late : Bool) (err detail cflags : Nat) : Act :=
  withdrawJobBy maybeStart j cause late err detail cflags
def settleJob (part jseq : Nat) : Act := settleJobBy maybeStart part jseq
def createJob (f : Firing) : Act := createJobBy maybeStart f
def fireTrigger (f : Firing) : Act := fireTriggerBy maybeStart f

/-- Mark the list of a job that runs in a context as ended. -/
def markList (part jseq die core : Nat) : Act :=
  .job part jseq fun j => { j with lists := j.lists.map fun l =>
    if l.die == die && l.phys == core && l.state == 1 then { l with state := 2 } else l }

/-- The device stops the lists of a job: running ones halt, waiting ones never start (13 R579). -/
def stopJobLists (part jseq : Nat) : Act :=
  .get fun s =>
    match s.job part jseq with
    | none => .nop
    | some j => .all [
        .each (j.lists.filter fun l => l.state == 1) fun l => haltContext l.die l.phys j.ctx,
        .job part jseq fun k => { k with lists := k.lists.map fun l => { l with state := 2 } }]

/-- The running proof list of a core has ended or stopped (15 R661, R662). -/
def proofEnded (die core state : Nat) : Act :=
  .aux fun a => { a with proofs := a.proofs.map fun p =>
    if p.die == die && p.core == core && p.state == 1 then { p with state := state } else p }

/-- A list has ended (10 R465, 13 R578). -/
def listEnded (o : Owner) (die core : Nat) : Act :=
  match o with
  | .job part jseq => .seq (markList part jseq die core) (settleJob part jseq)
  | .proof => proofEnded die core 2
  | .none => .nop

/-- A list has stopped on an error: before PUBLISH RESULT the job is withdrawn with LIST_ERROR and its other lists are stopped; after
it the stop is counted (13 R579). -/
def listStopped (o : Owner) (die core : Nat) (code opcode detail cflags : Nat) : Act :=
  match o with
  | .job part jseq =>
    .seq (markList part jseq die core) (.get fun s =>
      match s.job part jseq with
      | none => .nop
      | some j =>
        if j.kind != 1 && (j.published || j.ended) then .seq (.inc .PT_POST_ERRORS 0 part) (settleJob part jseq)
        else .all [
          stopJobLists part jseq,
          withdrawJob j causeListError false (code + 256 * opcode) detail cflags,
          settleJob part jseq])
  | .proof => proofEnded die core 3
  | .none => .nop

/-- JOB_FIRE: a write fires host trigger t (13 R571). -/
def execJobFire (die trigger : Nat) (s : State) : Host.Outcome State Fault Refusal :=
  (Act.when (s.dieThere die) (.get fun t => fireTrigger
    { die := die, trigger := trigger, kind := 3, channel := t.ac .JT_CHANNEL die trigger })).done s

/-! ### Deadlines -/

/-- A job is found late or on time (13 R581, R582): a late job with no limit ends under OVERRUN, otherwise it gets a LATE_MARKER and
runs on. -/
def checkJob (j : Job) : Act :=
  .get fun s =>
    if j.standing || j.ended then
      .job j.part j.jseq fun k => { k with checked := true }
    else .all [
      .job j.part j.jseq fun k => { k with checked := true, late := true, checkTick := s.ticks },
      .inc .PT_LATE 0 j.part,
      if j.lateUs == 0 then .all [
        stopJobLists j.part j.jseq,
        withdrawJob j causeOverrun true 0 0 0,
        settleJob j.part j.jseq]
      else handRecord (s.jobRec j recLateMarker 0 true)]

/-- What a publish-deadline event finds to check: the oldest unchecked job of its trigger that started before it, still held or
finished, as its order, the job while it is held, and whether its RESULT stands (13 R580, R581). -/
def State.toCheck (s : State) (die t time : Nat) : Option (Nat × Option Job × Bool) :=
  let running := ((s.held die t).filter fun j => !j.checked && j.kind == 0 && decide (j.accepted < time)).map fun j =>
    (j.ord, some j, j.standing)
  let finished := (s.aux.done.filter fun d => d.die == die && d.trigger == t && decide (d.accepted < time)).map fun d =>
    (d.ord, (none : Option Job), d.standing)
  (finished ++ running).foldl (fun (best : Option (Nat × Option Job × Bool)) x => if best.all fun b => decide (x.1 < b.1) then some x else best) none

/-- A publish-deadline event checks one job (13 R580). The check of a job that has finished ends nothing. -/
def deadlineEvent (die t time : Nat) : Act :=
  .get fun s =>
    match s.toCheck die t time with
    | none => .nop
    | some (_, some j, _) => checkJob j
    | some (ord, none, _) => .aux fun a => { a with done := a.done.filter fun d => d.ord != ord }

/-- REQUEST_DEADLINE_EXPIRY: a request or host job is checked once, at acceptance + JD_DEADLINE_US (13 R580). -/
def execRequestDeadlineExpiry (part jseq : Nat) (s : State) : Host.Outcome State Fault Refusal :=
  (match s.job part jseq with
   | none => Act.nop
   | some j =>
     Act.when ((j.kind == 2 || j.kind == 3) && !j.checked && j.deadlineUs != 0 &&
         decide (j.tick + j.deadlineUs * ticksPerUs ≤ s.ticks)) (checkJob j)).done s

/-- LATE_LIMIT_EXPIRY: a late job not ended at check + JD_LATE_LIMIT_US ends under OVERRUN (13 R582). -/
def execLateLimitExpiry (part jseq : Nat) (s : State) : Host.Outcome State Fault Refusal :=
  (match s.job part jseq with
   | none => Act.nop
   | some j =>
     Act.when (j.late && !j.standing && !j.ended && decide (j.checkTick + j.lateUs * ticksPerUs ≤ s.ticks)) (.all [
       stopJobLists part jseq,
       withdrawJob j causeOverrun true 0 0 0,
       settleJob part jseq])).done s

/-! ### Proof of engines (15 R664, R665) -/

/-- Smallest ZN_FTTI_MS among the valid guard zones whose group contains the engine; none for an engine in no such group. -/
def State.engineInterval (s : State) (die n : Nat) : Option Nat :=
  let inGroup := fun g => if n < 64 then bit (s.ac .PG_ENGINES_LO die g) n else bit (s.ac .PG_ENGINES_HI die g) (n - 64)
  (((List.range 64).filter fun z => s.acOn .ZN_VALID die z && s.ac .ZN_KIND die z == 0 && inGroup (s.ac .ZN_GROUP die z)).map
    fun z => s.ac .ZN_FTTI_MS die z).min?

/-- The engine is unproven now. -/
def State.unproven (s : State) (die n : Nat) : Bool :=
  s.rd .PRF_STATE die n != 1 ||
  match s.engineInterval die n with
  | none => true
  | some ms => decide (s.rd .PRF_LAST die n + ms * 1000000 < s.now die)

/-- The engine has been unproven at some time since an instant. -/
def State.unprovenSince (s : State) (die n time : Nat) : Bool := s.unproven die n || decide (time < s.rd .I_PRF_SINCE die n)

end Sys2Proof.Machine
end

