-- ==== Sys2Proof/Machine/Network.lean ====
section
/-! DEFINITION. Ports, next hops and datagrams (17 R742 to R745, 19 R788 to R796). -/

namespace Sys2Proof.Machine

/-- The entry of a port in the running image's network section (19 R788). -/
def State.portEntry (s : State) (die port : Nat) : Option Port :=
  s.aux.image.bind fun i => i.ports.find? fun p => p.die == die && p.port == port

/-- The derived MAC address of a port (19 R789). -/
def State.derivedMac (s : State) (die port : Nat) : Nat :=
  beNat ([2] ++ toLe 4 (s.rd .FUSE_DEV_HASH 0 0) ++ toLe 1 (4 * die + port))

/-- MAC address of a port (19 R789). -/
def State.macOf (s : State) (die port : Nat) : Nat :=
  match s.portEntry die port with
  | some p => if p.mac == 0 then s.derivedMac die port else p.mac
  | none => s.derivedMac die port

/-- The link-local IPv6 address that a MAC address gives, by modified EUI-64 (19 R793). -/
def linkLocal (mac : Nat) : Nat :=
  let hi := mac / 2 ^ 24
  let hi' := if bit hi 17 then hi - 2 ^ 17 else hi + 2 ^ 17
  0xFE80 * 2 ^ 112 + hi' * 2 ^ 40 + 0xFFFE * 2 ^ 24 + mac % 2 ^ 24

/-- An IPv6 address of fe80::/10. -/
def isLinkLocal (a : Nat) : Bool := a / 2 ^ 118 == 0xFE80 / 64

/-- Two addresses share a prefix. -/
def samePrefix (width len a b : Nat) : Bool := a / 2 ^ (width - len) == b / 2 ^ (width - len)

/-- Source address of a port for a peer; none where the port lacks an address of the version (19 R791). -/
def State.sourceAddr (s : State) (die port : Nat) (v6 : Bool) (peer : Nat) : Option Nat :=
  (s.portEntry die port).bind fun p =>
    if v6 then
      if isLinkLocal peer then some (linkLocal (s.macOf die port)) else if bit p.flags 3 then some p.ipv6 else none
    else if bit p.flags 2 then some p.ipv4 else none

/-- Next hop of a peer: the peer itself in the port's prefix, otherwise the gateway of that version (19 R794). -/
def Port.nextHop (p : Port) (v6 : Bool) (peer : Nat) : Option Nat :=
  if v6 then
    if isLinkLocal peer || samePrefix 128 p.prefix6 p.ipv6 peer then some peer
    else if p.gateway6 == 0 then none else some p.gateway6
  else if samePrefix 32 p.prefix4 p.ipv4 peer then some peer
  else if p.gateway4 == 0 then none else some p.gateway4

/-- MAC address of a next hop, from a neighbour entry or from an answer (19 R794, R795). -/
def State.hopMac (s : State) (die port : Nat) (v6 : Bool) (addr : Nat) : Option Nat :=
  let fixed := s.aux.image.bind fun i =>
    i.peers.find? fun n => n.die == die && n.port == port && n.addr == addr && n.version == (if v6 then 6 else 4)
  match fixed with
  | some n => some n.mac
  | none => (s.aux.hops.find? fun h => h.die == die && h.port == port && h.v6 == v6 && h.addr == addr).bind fun h => h.mac

/-- A port passes protected frames (17 R742 to R745). -/
def State.portPasses (s : State) (die port : Nat) : Bool := s.on .ETH_STATUS_LINK die port && s.on .ETH_STATUS_SECURE die port

/-- A datagram for a peer can leave a port (17 R743, R745, 19 R791, R795). -/
def State.canSend (s : State) (die port : Nat) (v6 : Bool) (peer : Nat) : Bool :=
  s.dieThere die && s.portPasses die port && (s.sourceAddr die port v6 peer).isSome &&
  match (s.portEntry die port).bind fun p => p.nextHop v6 peer with
  | some h => (s.hopMac die port v6 h).isSome
  | none => false

/-- Sum of big-endian 16-bit words; an odd last byte counts as a high byte. -/
def wordSum : List Byte → Nat
  | [] => 0
  | [a] => a.toNat * 256
  | a :: b :: rest => a.toNat * 256 + b.toNat + wordSum rest

/-- The checksum field that a ones' complement sum gives. -/
def checkOf (sum : Nat) : Nat := (65535 - sum % 65535) % 65535

/-- An Ethernet frame that a port sends, without its FCS, filled up to the least length. -/
def State.frameOf (s : State) (die port dst : Nat) (vlan : Option Nat) (etype : Nat) (body : List Byte) : List Byte :=
  let tag := match vlan with
    | some v => toBe 2 0x8100 ++ toBe 2 v
    | none => []
  let f := toBe 6 dst ++ toBe 6 (s.macOf die port) ++ tag ++ toBe 2 etype ++ body
  f ++ List.replicate (60 - f.length) 0

/-- A UDP datagram with its checksum, big-endian as its standard has it (00 R6); a sum that gives 0 is sent as all ones. -/
def udpBytes (src dst : List Byte) (sport dport : Nat) (payload : List Byte) : List Byte :=
  let len := 8 + payload.length
  let head := toBe 2 sport ++ toBe 2 dport ++ toBe 2 len
  let sum := wordSum src + wordSum dst + 17 + len + wordSum (head ++ payload)
  head ++ toBe 2 (65535 - sum % 65535) ++ payload

/-- An IPv4 packet without options that carries a UDP datagram, big-endian (00 R6); `fill` gives the fields that the spec leaves open:
the service byte, the time to live, the identification and the don't-fragment flag (log entry 157). -/
def ipv4Packet (fill src dst sport dport : Nat) (payload : List Byte) : List Byte :=
  let a := toBe 4 src
  let b := toBe 4 dst
  let udp := udpBytes a b sport dport payload
  let head := toBe 1 0x45 ++ toBe 1 (bits fill 0 8) ++ toBe 2 (20 + udp.length) ++ toBe 2 (bits fill 16 16) ++
    toBe 2 (bitIf (bit fill 32) 14) ++ toBe 1 (1 + bits fill 8 8 % 255) ++ toBe 1 17
  head ++ toBe 2 (checkOf (wordSum (head ++ a ++ b))) ++ a ++ b ++ udp

/-- An IPv6 packet without extension headers that carries a UDP datagram, big-endian (00 R6); `fill` gives the traffic class, the flow
label and the hop limit, which the spec leaves open (log entry 157). -/
def ipv6Packet (fill src dst sport dport : Nat) (payload : List Byte) : List Byte :=
  let a := toBe 16 src
  let b := toBe 16 dst
  let udp := udpBytes a b sport dport payload
  toBe 4 (0x60000000 + bits fill 0 8 * 2 ^ 20 + bits fill 16 20) ++ toBe 2 udp.length ++ toBe 1 17 ++
    toBe 1 (1 + bits fill 8 8 % 255) ++ a ++ b ++ udp

/-- The frame that carries a datagram to a peer: from the port's own addresses, to the MAC address of the peer's next hop (19 R791,
R794). -/
def State.udpFrame (s : State) (die port : Nat) (v6 : Bool) (vlan : Option Nat) (peer local_ remote : Nat) (payload : List Byte) :
    List Byte :=
  let src := (s.sourceAddr die port v6 peer).getD 0
  let hop := (((s.portEntry die port).bind fun p => p.nextHop v6 peer).bind fun h => s.hopMac die port v6 h).getD 0
  let fill := Config.ipFill payload
  s.frameOf die port hop vlan (if v6 then 0x86DD else 0x0800)
    (if v6 then ipv6Packet fill src peer local_ remote payload else ipv4Packet fill src peer local_ remote payload)

/-- A datagram leaves a port. -/
def Act.datagram (die port : Nat) (v6 : Bool) (vlan : Option Nat) (peer local_ remote : Nat) (payload : List Byte) : Act :=
  .get fun s => .seq (.inc .ETH_TX_FRAMES die port)
    (.out (.datagram die port v6 vlan peer local_ remote payload (s.udpFrame die port v6 vlan peer local_ remote payload)))

/-- The Ximund header of a datagram whose body has `len` bytes (13 R592, 17 R737). -/
def ximundHeader (type flags channel len epoch chseq seq sent : Nat) : List Byte :=
  toLe 2 0x4D58 ++ toLe 1 1 ++ toLe 1 type ++ toLe 1 flags ++ toLe 1 channel ++ toLe 2 len ++ toLe 4 epoch ++ toLe 4 chseq ++
    toLe 8 seq ++ toLe 8 sent

/-- A datagram begins with a whole Ximund header, and holds the bytes that its LENGTH states (13 R592, R594). -/
def ximundOk (bs : List Byte) : Bool :=
  decide (32 ≤ bs.length) && leAt bs 0 2 == 0x4D58 && byteAt bs 2 == 1 && decide (32 + leAt bs 6 2 ≤ bs.length)

/-- An address held as four 32-bit registers, least significant first (03 SE_SRC_ADDR). -/
def State.addr4 (s : State) (f : Fld) (die e : Nat) : Nat :=
  (List.range 4).foldl (fun a w => a + s.ac f die (4 * e + w) * 2 ^ (32 * w)) 0

end Sys2Proof.Machine
end

