-- ==== Sys2Proof/Machine/Records.lean ====
section
/-! DEFINITION. Records, rings and channels (13_jobs_and_accounting.md R583 to R597), and JOB_COMMIT. -/

namespace Sys2Proof.Machine

/-! ### The shadow set (R602, R603) -/

/-- The lowest partition whose PT_SLOT_LOG2 is refused. -/
def State.badSlotLog (s : State) : Option Nat :=
  (List.range 8).find? fun p => !decide (10 ≤ s.rd .PT_SLOT_LOG2 0 p ∧ s.rd .PT_SLOT_LOG2 0 p ≤ 13)

/-- A write to JOB_COMMIT (R602, R603). A partition that is down takes its fields at its next start like any other: it does not count
as stopped under 00 R19 (DEDUCED; log entry 163). -/
def jobCommitAct (die : Nat) : Act :=
  .get fun s =>
    match if die == 0 then s.badSlotLog else none with
    | some p => .seq (.set .JOB_STATUS_CFG_ERR 0 0 1) (.set .JOB_STATUS_ERR_PART 0 0 p)
    | none => .all [
        .when (die == 0) (.set .JOB_STATUS_CFG_ERR 0 0 0),
        snapshotSet .job die fun _ => true,
        .set .I_JT_WAIT die 0 (2 ^ 256 - 1),
        .when (die == 0) (.seq (.set .I_CH_WAIT 0 0 (2 ^ 64 - 1)) (.set .I_PT_WAIT 0 0 255)),
        jobSettle die]

/-- A partition takes the pending set at its start (R602). -/
def partTake (p : Nat) : Act :=
  .get fun s => .when (bit (s.rd .I_PT_WAIT 0) p)
    (.seq (takeRow .job 0 0xC0000 0xC0400 p) (.upd .I_PT_WAIT 0 0 fun v => putBit v p false))

/-- JOB_STATUS_COMMIT_PENDING: some trigger, channel or partition has not yet taken the set. -/
def State.jobPending (s : State) (die : Nat) : Bool :=
  s.rd .I_JT_WAIT die != 0 || die == 0 && (s.rd .I_CH_WAIT 0 != 0 || s.rd .I_PT_WAIT 0 != 0)

/-- JOB_COMMIT. -/
def execJobCommit (die : Nat) (s : State) : Host.Outcome State Fault Refusal :=
  (Act.when (s.dieThere die) (jobCommitAct die)).done s

/-! ### Entry into the ring (R583 to R587) -/

/-- The bytes of a record (R583, R584). ACCEPTED and ENTERED have no time quality byte beside them: the layout of R583 has no place for
the one that 02 R57 asks (DEDUCED; log entry 164). `entered` is its entry time; `accepted`, `channel` and `trigger` are given apart, since some
records have none. -/
def Rec.bytes (r : Rec) (seq entered rflags accepted channel trigger : Nat) : List Byte :=
  toLe 8 seq ++ toLe 8 r.jseq ++ toLe 8 r.reqSeq ++ toLe 4 r.epoch ++ toLe 1 r.kind ++ toLe 1 r.cause ++ toLe 1 r.appType ++
  toLe 1 rflags ++ toLe 8 accepted ++ toLe 8 entered ++ toLe 1 channel ++ toLe 1 r.frames.length ++ toLe 1 r.attach.length ++
  toLe 1 r.cflags ++ toLe 2 trigger ++ toLe 2 r.err ++ toLe 4 r.payload.length ++ toLe 4 r.detail ++
  r.frames.flatten ++ r.attach.flatten ++ r.payload

/-- Bytes of a record (R584, R588). -/
def Rec.size (r : Rec) : Nat := 64 + 48 * r.frames.length + 64 * r.attach.length + r.payload.length

/-- Bytes of a partition's slots (R585). -/
def State.slotBytes (s : State) (p : Nat) : Nat := 2 ^ s.ac .PT_SLOT_LOG2 0 p

/-- Address of a record in a partition's ring or mirror (R585). -/
def State.slotAddr (s : State) (f : Fld) (p seq : Nat) : Nat := s.ac f 0 p + seq % 4096 * s.slotBytes p

/-- The record has an acceptance and a trigger: a refusal and an EPOCH record have none, and the record of a frame that no job
bound has no trigger (R583; log entry 25). -/
def Rec.hasUnit (r : Rec) : Bool := r.kind != recRefusal && r.kind != recEpoch
def Rec.hasTrigger (r : Rec) : Bool := r.hasUnit && r.channel != 0xFF

/-- The channels on which a record goes out: its own, and the monitors of its partition; every channel of the partition for an
EPOCH record (R591). -/
def State.recChannels (s : State) (r : Rec) : List Nat :=
  (List.range 64).filter fun c =>
    s.acOn .CH_VALID 0 c && s.ac .CH_KIND 0 c != 3 &&
    (c == r.channel && !r.toAll || s.ac .CH_PARTITION 0 c == r.part && (r.toAll || s.ac .CH_KIND 0 c == 2))

/-- The record first sent for a request is kept under its sequence (R595): its ACCEPT, or its refusal when it was expected. -/
def keepAnswer (r : Rec) (seq : Nat) : Act :=
  .get fun s =>
    .when ((r.kind == recAccept || r.kind == recRefusal) && r.cause != causeGap &&
        decide (r.reqSeq < s.rd .CH_REQ_EXPECT 0 r.channel) &&
        !s.aux.answers.any fun a => a.channel == r.channel && a.reqSeq == r.reqSeq)
      (.aux fun a => { a with answers := a.answers ++ [⟨r.channel, r.reqSeq, r.part, seq⟩] })

/-- A RESULT record that stands ends its job's unit (R569, R581). -/
def markStanding (r : Rec) : Act :=
  .when (r.kind == recResult)
    (.job r.part r.jseq fun j => if j.kind == 1 then j else { j with standing := true, ended := true })

/-- LATE of a RESULT whose job was found late before it stood, or which enters the ring after its request's deadline (R579, R581, 09
R401). -/
def State.lateBit (s : State) (r : Rec) : Nat :=
  let late := r.kind == recResult && ((s.job r.part r.jseq).any fun j => j.late && j.kind != 1) || r.dueBy.any fun t => decide (t < s.now 0)
  if late then putBit r.rflags 0 true else r.rflags

/-- A record enters the rings of its partition, and waits to be sent (R585, R587, R591). -/
def enterRing (r : Rec) : Act :=
  .free fun v => .free fun w => .get fun s =>
    let seq := s.rd .PT_SEQ 0 r.part
    let accepted := if r.hasUnit then r.accepted else v
    let trigger := if r.hasTrigger then r.trigger else w % 65536
    let channel := if r.toAll || r.channel == 0xFF then w / 65536 % 256 else r.channel
    let bs := r.bytes seq (s.now 0) (s.lateBit r) accepted channel trigger
    .all [
      .aux fun a => { a with recs := a.recs.erase r },
      .set .PT_SEQ 0 r.part (seq + 1),
      (unitWrite (s.slotAddr .PT_RING_BASE r.part seq) bs).anyway,
      (unitWrite (s.slotAddr .PT_MIRROR_BASE r.part seq) bs).anyway,
      keepAnswer r seq,
      markStanding r,
      match r.pub with
      | some (d, c, x, id) => endFlight d c x id (Ending.ok)
      | none => .nop,
      .aux fun a => { a with sends := a.sends ++ (s.recChannels r).map fun c =>
        ⟨c, r.part, seq, if r.jseq == ones 8 then none else some (r.trigger / 256, r.trigger % 256)⟩ },
      jobSettleAll]

/-- RECORD_ENTER_RING: the partition's next record takes the next SEQ (R587). -/
def execRecordEnterRing (part : Nat) (s : State) : Host.Outcome State Fault Refusal :=
  (match s.aux.recs.find? fun (r : Rec) => r.part == part with
   | none => Act.nop
   | some r => enterRing r).done s

/-! ### Sending (R591 to R593) -/

/-- The record is still in its ring (R585). -/
def State.inRing (s : State) (p seq : Nat) : Bool := decide (s.rd .PT_SEQ 0 p ≤ seq + 4096)

/-- Bytes of a record as its header counts them. -/
def recLength (h : List Byte) : Nat := 64 + 48 * byteAt h 49 + 64 * byteAt h 50 + leAt h 56 4

/-- Read a record at an address. -/
def readRecord (a : Nat) : M (List Byte) := do
  let h ← unitRead a 64
  unitRead a (min (recLength h) 8192)

/-- A record from its ring, or from the mirror when the ring cannot be read (16 R601). -/
def withRecord (p seq : Nat) (k : Option (List Byte) → Act) : Act :=
  .get fun s => (readRecord (s.slotAddr .PT_RING_BASE p seq)).then fun r =>
    match r with
    | .ok bs => k (some bs)
    | .error _ => (readRecord (s.slotAddr .PT_MIRROR_BASE p seq)).then fun q =>
      match q with
      | .ok bs => k (some bs)
      | .error _ => k none

/-- A channel's port can carry its datagrams now (R593). -/
def State.channelUp (s : State) (c : Nat) : Bool :=
  s.canSend (s.ac .CH_DIE 0 c) (s.ac .CH_PORT 0 c) (s.acOn .CH_IPV6 0 c) (s.addr4 .CH_PEER_ADDR 0 c)

/-- A datagram leaves on a channel: the Ximund header, then the body (R592). -/
def channelDatagram (c type flags epoch chseq seq : Nat) (body : List Byte) : Act :=
  .get fun s =>
    .datagram (s.ac .CH_DIE 0 c) (s.ac .CH_PORT 0 c) (s.acOn .CH_IPV6 0 c)
      (if s.acOn .CH_VLAN_EN 0 c then some (s.ac .CH_VLAN_ID 0 c) else none) (s.addr4 .CH_PEER_ADDR 0 c)
      (s.ac .CH_UDP_LOCAL 0 c) (s.ac .CH_UDP_PEER 0 c)
      (ximundHeader type flags c body.length epoch chseq seq (s.now 0) ++ body)

/-- The datagram of a record, read from a ring (R592). -/
def recordDatagram (c chseq p seq : Nat) (replay : Bool) (bs : List Byte) : Act :=
  channelDatagram c (byteAt bs 28) (p + bitIf replay 3) (leAt bs 24 4) chseq seq bs

/-- A record goes out again on a channel (R591, R592, R597). -/
def sendAgainOn (c chseq p seq : Nat) : Act :=
  withRecord p seq fun o =>
    match o with
    | none => .nop
    | some bs => recordDatagram c chseq p seq true bs

/-- RECORD_SEND: the channel's next record is sent, once, with the channel's next sequence; one that has left its ring is not sent, and
one of which no copy can be read now waits, as in STANDBY (R591, R593, R600; log entry 26). -/
def execRecordSend (channel : Nat) (s : State) : Host.Outcome State Fault Refusal :=
  (match s.aux.sends.find? fun (r : Send) => r.channel == channel with
   | none => Act.nop
   | some r =>
     let n := s.rd .CH_CHSEQ 0 channel
     let leaves := fun (sent : List Sent) (out : Act) => Act.all [
       .aux fun a => { a with
         sends := a.sends.erase r
         sent := (a.sent.filter fun (q : Sent) => s.inRing q.part q.seq) ++ sent },
       .set .CH_CHSEQ 0 channel (n + 1),
       out,
       jobSettleAll]
     if !s.inRing r.part r.seq then leaves [] .nop
     else .when (s.channelUp channel) (withRecord r.part r.seq fun o =>
       match o with
       | none => .nop
       | some bs => leaves [⟨channel, n, r.part, r.seq⟩] (recordDatagram channel n r.part r.seq false bs))).done s

/-- A RESEND_MISS leaves (R597): the count missing and the oldest channel sequence that the ring still holds. -/
def resendMiss (c count : Nat) : Act :=
  .free fun v => .get fun s =>
    let p := s.ac .CH_PARTITION 0 c
    let held := s.aux.sent.filter fun q => q.channel == c && s.inRing q.part q.seq
    let oldest := (held.head?.map fun q => q.chseq).getD (s.rd .CH_CHSEQ 0 c)
    .when (s.channelUp c) (.seq (.inc .PT_RESEND_MISS 0 p)
      (channelDatagram c 0x13 p (s.rd .PT_EPOCH 0 p) (v % 2 ^ 32) (v / 2 ^ 32) (toLe 4 count ++ toLe 4 oldest)))

/-- A record goes out again with REPLAY (R595, R597). -/
def replay (q : Sent) : Act :=
  .get fun s => .when (s.channelUp q.channel)
    (.seq (.inc .PT_RESENDS 0 q.part) (sendAgainOn q.channel q.chseq q.part q.seq))

/-! ### Receipt (R594 to R597) -/

/-- Header fields of a datagram of a channel. -/
def dgType (bs : List Byte) : Nat := byteAt bs 3
def dgLength (bs : List Byte) : Nat := leAt bs 6 2
def dgSeq (bs : List Byte) : Nat := leAt bs 16 8

/-- A datagram that the Keeper discards and counts (R594); one whose LENGTH exceeds it counts with these (log entry 27). -/
def State.badDatagram (s : State) (c : Nat) (bs : List Byte) : Bool :=
  !ximundOk bs || !([0x10, 0x11, 0x12].contains (dgType bs)) || dgType bs == 0x10 && decide (s.ac .CH_REQ_MAX 0 c < dgLength bs)

/-- The Keeper takes a datagram of a channel from its queue and checks it; `k` acts on one of the type. -/
def takeDatagram (c type : Nat) (bs : List Byte) (requestOnly : Bool) (k : Act) : Act :=
  .get fun s =>
    let isReq := s.ac .CH_KIND 0 c == 1
    .when (s.acOn .CH_VALID 0 c && s.ac .CH_KIND 0 c != 3) (.seq
      (.aux fun a =>
        match a.keeperQueue.find? fun q => q.die == s.ac .CH_DIE 0 c && q.payload == bs with
        | some q => { a with keeperQueue := a.keeperQueue.erase q }
        | none => a)
      (if s.badDatagram c bs then .when isReq (.inc .CH_BAD 0 c)
       else .when (dgType bs == type && (isReq || !requestOnly)) k))

/-- RESEND (R597). -/
def execResend (channel : Nat) (datagram : List Byte) (s : State) : Host.Outcome State Fault Refusal :=
  (takeDatagram channel 0x12 datagram false (
    let body := (datagram.drop 32).take (dgLength datagram)
    let first := leAt body 0 4
    let count := leAt body 4 4
    if decide (body.length < 8) || decide (4096 < count) then .when (s.ac .CH_KIND 0 channel == 1) (.inc .CH_BAD 0 channel)
    else
      let wanted := (List.range count).map fun i => (first + i) % 2 ^ 32
      let held := wanted.filterMap fun n =>
        s.aux.sent.find? fun q => q.channel == channel && q.chseq == n && s.inRing q.part q.seq
      .seq (.each held replay)
        (.when (count == 0 || decide (held.length < count)) (resendMiss channel (count - held.length))))).done s

end Sys2Proof.Machine
end

