-- ==== Sys2Proof/Machine/Batcher.lean ====
section
/-! DEFINITION. Decode classes (09_sequence_work.md R385 to R403), and requests on channels (13 R577, R595, R596). -/

namespace Sys2Proof.Machine

/-- A write to BC_COMMIT (R403). -/
def bcCommitAct (die cls : Nat) : Act :=
  .all [
    snapshotSet .bc die fun i => i == cls,
    .set .BC_COMMIT_PENDING die cls 1,
    bcTake die cls false true]

/-- BC_COMMIT. -/
def execBcCommit (die cls : Nat) (s : State) : Host.Outcome State Fault Refusal :=
  (Act.when (s.dieThere die) (bcCommitAct die cls)).done s

/-! ### Steps -/

/-- BATCH_WINDOW_EXPIRY (R392). -/
def execBatchWindowExpiry (die cls : Nat) (s : State) : Host.Outcome State Fault Refusal :=
  (Act.when (s.dieThere die) (maybeStart die cls)).done s

/-- A decode request ends with a WITHDRAWN record and leaves its class. -/
def withdrawDec (d : DecReq) (cause : Nat) : Act :=
  .get fun s => .all [
    .when (!d.ended) (.seq (.inc .PT_WITHDRAWN 0 d.part) (handRecord (s.decRec d recWithdrawn cause))),
    .aux fun a => { a with decs := a.decs.filter fun e => e.ord != d.ord }]

/-- A slot of a step at the step's completion (R399, R402; log entry 29). -/
def endRow (r : StepRun) (ends : Nat) (d : DecReq) : Act :=
  match d.slot with
  | none => .nop
  | some i =>
    if !r.rows.contains i then .nop
    else if bit ends i || d.ended then withdrawDec d causeNoResult
    else if r.last.contains i then withdrawDec d causeNoEnd
    else if d.cancelled then withdrawDec d causeCancelled
    else .aux fun a => { a with decs := a.decs.map fun e => if e.ord == d.ord then { e with tokens := e.tokens + 1 } else e }

/-- The step of a class completes (R396, R399); the next one starts at once when it can (R391). -/
def completeStep (r : StepRun) : Act :=
  unitBytes (r.desc + 48) 8 fun bs =>
    .get fun s => .all [
      .each (s.slotReqs r.die r.cls) (endRow r (leNat bs)),
      .aux fun a => { a with steps := a.steps.erase r },
      .set .BC_STEP_RUNNING r.die r.cls 0,
      .inc .BC_STEPS r.die r.cls,
      .inc .BC_ROWS r.die r.cls r.rows.length,
      bcTake r.die r.cls false false,
      maybeStart r.die r.cls]

/-- A write to BC_DONE (R396). -/
def bcDoneAct (die cls value : Nat) : Act :=
  .get fun s =>
    match s.stepOf die cls with
    | none => .inc .BC_BAD_DONE die cls
    | some r => if value == r.step % 2 ^ 32 then completeStep r else .inc .BC_BAD_DONE die cls

/-- BC_DONE. -/
def execBcDone (die cls value : Nat) (s : State) : Host.Outcome State Fault Refusal :=
  (Act.when (s.dieThere die) (bcDoneAct die cls value)).done s

/-! ### Requests -/

/-- A refusal of a request (R387, 13 R595). -/
def refuseRequest (c r cause detail : Nat) : Act :=
  .get fun s => handRecord { s.blankRec (s.ac .CH_PARTITION 0 c) recRefusal cause with
    reqSeq := r, channel := c, detail := detail }

/-- A decode request is accepted or refused (R386, R387, R400). -/
def decodeRequest (c r : Nat) : Act :=
  .get fun s =>
    let die := s.ac .CH_DIE 0 c
    let cls := s.ac .CH_CLASS 0 c
    if !s.acOn .BC_EN die cls || s.ac .BC_PARTITION die cls != s.ac .CH_PARTITION 0 c then
      .seq (.inc .BC_REFUSED die cls) (refuseRequest c r causeClassOff 0)
    else if 192 ≤ (s.waitingReqs die cls).length then
      .seq (.inc .BC_REFUSED die cls) (refuseRequest c r causeQueueFull 0)
    else takeOrd fun ord => .get fun t =>
      let d : DecReq := {
        die := die, cls := cls, part := t.ac .CH_PARTITION 0 c, channel := c, reqSeq := r, ord := ord, accepted := t.now die,
        tick := t.ticks }
      .seq (handRecord (t.decRec d recAccept 0))
        (if t.ac .BC_MAX_TOKENS die cls == 0 then handRecord { t.decRec d recResult 0 with dueBy := t.dueBy d }
         else .seq (.aux fun a => { a with decs := a.decs ++ [d] }) (maybeStart die cls))

/-- Lowest request slot that no held job of a trigger uses (13 R577). -/
def State.requestSlot (s : State) (die t : Nat) : Nat :=
  ((List.range 4).find? fun i => !(s.held die t).any fun j => j.slot == i).getD 0

/-- A request to a trigger is accepted, its payload written into its slot and its job created, or refused (13 R571, R572, R577). -/
def triggerRequest (c r : Nat) (payload : List Byte) : Act :=
  .get fun s =>
    let word := s.ac .CH_TRIGGER 0 c
    let die := bits word 8 3
    let t := bits word 0 8
    if !s.dieThere die || !s.triggerOk die t 2 then
      .seq (.when (s.dieThere die) (.inc .JOB_FIRE_REFUSED die)) (refuseRequest c r causeJobFull 0)
    else if !s.running (s.ac .JT_PARTITION die t) then refuseRequest c r causePartitionDown 0
    else if s.depth die t ≤ (s.held die t).length then refuseRequest c r causeJobFull 0
    else unitBytes (s.ac .JT_DESC die t) 64 fun desc => .get fun u =>
      let slot := u.requestSlot die t
      .all [
        handRecord { u.blankRec (u.ac .CH_PARTITION 0 c) recAccept 0 with
          jseq := u.rd .PT_JSEQ 0 (u.ac .JT_PARTITION die t), reqSeq := r, channel := c, accepted := u.now die,
          trigger := t + die * 256 },
        (unitWrite (leAt desc 56 8 + 4096 * slot) payload).anyway,
        createJob { die := die, trigger := t, kind := 2, channel := c, reqSeq := r, slot := slot }]

/-- A repeated request is answered by the record first sent for it, or RESEND_MISS (13 R595). -/
def repeatRequest (c r : Nat) : Act :=
  .get fun s =>
    let onItsWay := s.aux.recs.any fun (q : Rec) => q.channel == c && q.reqSeq == r && (q.kind == recAccept || q.kind == recRefusal)
    match s.aux.answers.find? fun a => a.channel == c && a.reqSeq == r with
    | none => .when (!onItsWay) (resendMiss c 1)
    | some a =>
      match s.aux.sent.find? fun q => q.channel == c && q.part == a.part && q.seq == a.seq with
      | some q => if s.inRing q.part q.seq then replay q else resendMiss c 1
      | none => .when (!(s.aux.sends.any fun q => q.channel == c && q.part == a.part && q.seq == a.seq)) (resendMiss c 1)

/-- REQUEST (13 R595). -/
def execRequest (channel : Nat) (datagram : List Byte) (s : State) : Host.Outcome State Fault Refusal :=
  (takeDatagram channel 0x10 datagram true (.get fun t =>
    let r := dgSeq datagram
    let expect := t.rd .CH_REQ_EXPECT 0 channel
    let next := Act.when (r == expect) (.set .CH_REQ_EXPECT 0 channel (expect + 1))
    if !t.running (t.ac .CH_PARTITION 0 channel) then .seq (refuseRequest channel r causePartitionDown 0) next
    else if r < expect then repeatRequest channel r
    else if expect < r then refuseRequest channel r causeGap (expect % 2 ^ 32)
    else .seq next
      (if t.acOn .CH_TO_CLASS 0 channel then decodeRequest channel r
       else triggerRequest channel r ((datagram.drop 32).take (dgLength datagram))))).done s

/-- CANCEL (13 R596, 09 R402; log entry 30). -/
def execCancel (channel : Nat) (datagram : List Byte) (s : State) : Host.Outcome State Fault Refusal :=
  (takeDatagram channel 0x11 datagram true (.get fun t =>
    let r := dgSeq datagram
    match t.aux.decs.find? fun d => d.channel == channel && d.reqSeq == r with
    | some d =>
      if d.ended then .nop
      else if d.slot.isNone then .seq (withdrawDec d causeCancelled) (bcTake d.die d.cls false false)
      else .aux fun a => { a with decs := a.decs.map fun e => if e.ord == d.ord then { e with cancelled := true } else e }
    | none => .when (!t.aux.jobs.any fun j => j.kind == 2 && j.channel == channel && j.reqSeq == r) (.inc .CH_BAD 0 channel))).done s

end Sys2Proof.Machine
end

