-- ==== Sys2Proof/Machine/Operands.lean ====
section
/-! DEFINITION. The fields of a command: reserved bits, address words, operand descriptors and formats (10 R435 to R443). -/

namespace Sys2Proof.Machine

/-- Where a command runs, and the command. -/
structure Cx where
  /-- Die. -/
  die : Nat
  /-- Physical core. -/
  core : Nat
  /-- Context. -/
  ctx : Nat
  /-- The command as issued. -/
  cmd : Issue
deriving DecidableEq, Repr

/-- The requester that a context's transactions name. -/
def Cx.who (x : Cx) : Requester := .context x.die x.core x.ctx

/-- Word `n` of the command. -/
def Cx.w (x : Cx) (n : Nat) : Nat := x.cmd.w n

/-- Bits of a word of the command. -/
def Cx.f (x : Cx) (n lo width : Nat) : Nat := bits (x.cmd.w n) lo width

/-- Counter `n` at issue (R440). -/
def Cx.c (x : Cx) (n : Nat) : Nat := if n == 0 then 0 else x.cmd.cnt.getD n 0

/-- Bits of words w0 to w7 that the encoding defines for some mode of a command (R435, R437, R444). The high word of a package
address defines bits [25:0] (R439). -/
def definedBits (op : Nat) : List Nat :=
  let full := 0xFFFFFFFF
  let hi := 0x03FFFFFF
  let h := fun mode => 0x00FF00FF + mode * 256
  match op with
  | 0x10 => [h 0x03, 0xFF, full, full, full, 0x7F07FF, 0, 0]
  | 0x11 => [h 0x7F, 0xFF7, 0xFFFFFF, 0x7F07FF, full, full, full, full]
  | 0x12 => [h 0x01, 0, 0, 0, 0, 0, 0, 0]
  | 0x20 => [h 0x03, full, hi, 0xFFFFFF, full, 0xFFFFFF, 0xFFFFFF, full]
  | 0x21 => [h 0x01, full, hi, full, full, full, 0x3F1FFF, 0xFFFFFF]
  | 0x22 => [h 0x07, full, hi, full, full, full, full, 0xFFFFFF]
  | 0x23 => [h 0x00, full, hi, full, hi, 0xFFFFFF, 0x7FFFF, 0x73F]
  | 0x24 => [h 0xFF, full, full, full, full, 0x7FFFFFFF, 0x7FFFFFFF, full]
  | 0x25 => [h 0x3F, full, full, full, full, 0x7F1FFF, 0x1FFF, full]
  | 0x30 => [h 0xFF, full, full, full, full, 0xFFFFFF, 0xFFFFF, full]
  | 0x31 => [h 0x00, full, full, full, 0xFFFFFF, 0xF07FF, full, full]
  | 0x38 => [h 0x07, full, hi, full, hi, full, 0xFFFFF, full]
  | 0x39 => [h 0x00, 0x1FF, 0xFFFFFF, full, 0x1FFFF, 0, 0, 0]
  | 0x3A => [h 0x00, 0x1FF, 0xFFFFFF, full, 0, 0, 0, 0]
  | 0x03 => [h 0x00, 0x1F, 0xFFFF, 0x1FFFF, 0, 0, 0, 0]
  | 0x04 => [h 0x00, 0x3FFF, 0xFFFF, 0x3F, 0, 0, 0, 0]
  | 0x05 => [h 0x00, 0x3FFF, 0x1FFFF, 0x7, 0, 0, 0, 0]
  | 0x06 => [h 0x00, 0xFFF, full, 0x7, 0, 0, 0, 0]
  | 0x07 => [h 0x73, 0x7, full, full, 0xFF, 0, 0, 0]
  | 0x08 => [h 0x00, 0x13F, 0, 0, 0, 0, 0, 0]
  | 0x09 => [h 0x03, full, hi, full, full, 0xFF, full, hi]
  | _ => [h 0x00, 0, 0, 0, 0, 0, 0, 0]

/-- Detail of a CMD_FIELD: word index and lowest bit of the field (R472). -/
def fieldDetail (word bit : Nat) : Nat := word * 256 + bit

/-- Lowest bit of the run of undefined bits that holds the lowest set undefined bit of a word. -/
def undefinedField (word defined : Nat) : Option Nat :=
  ((List.range 32).find? fun b => bit word b && !bit defined b).map fun b =>
    b - (((List.range b).reverse.takeWhile fun k => !bit defined k).length)

/-- Reserved bits and words must be zero (R437). -/
def checkReserved (x : Cx) : M Unit :=
  let d := definedBits x.cmd.op
  match (List.range 8).filterMap fun n => (undefinedField (x.w n) (d.getD n 0)).map fun b => (n, b) with
  | [] => pure ()
  | (n, b) :: _ => M.fail codeField (fieldDetail n b)

/-- A field that lies outside its stated range ends the command with CMD_FIELD (R437). -/
def needField (ok : Bool) (word bit : Nat) : M Unit := if ok then pure () else M.fail codeField (fieldDetail word bit)

/-- Effective offset of a local address word (R438). -/
def Cx.laOf (x : Cx) (word : Nat) : Nat := (bits word 0 24 + x.c (bits word 24 3) * 2 ^ bits word 27 5) % 2 ^ 24

/-- Effective offset of a local address word of the command. -/
def Cx.la (x : Cx) (n : Nat) : Nat := x.laOf (x.w n)

/-- A store range lies wholly inside one store (R440). -/
def storeRangeOk (off len : Nat) : Bool :=
  match storeAt off with
  | some (_, start, size, _) => decide (off + len ≤ start + size)
  | none => false

/-- A local operand: its offset, when its range and alignment hold (R440). Word `n` is named in the error. -/
def Cx.local (x : Cx) (n len align : Nat) : M Nat :=
  let off := x.la n
  if len == 0 then pure off
  else if off % align != 0 then M.fail codeAlign (n * 256)
  else if storeRangeOk off len then pure off
  else M.fail codeRange (n * 256)

/-- Package address that a PA word pair names (R439, R441). `n` is the index of its low word, or 8 and more for a descriptor. -/
def Cx.paOf (x : Cx) (lo hi n : Nat) : Except Err Nat :=
  let v := lo + hi * 2 ^ 32
  let term := x.c (bits v 48 3) * 2 ^ bits v 51 5
  let addr := bits v 0 48
  let off := (bits addr 0 24 + term) % 2 ^ 24
  if bits v 58 6 != 0 then .error ⟨codeField, fieldDetail (n + 1) 26⟩
  else
    match bits v 56 2 with
    | 0 => .ok ((addr + term) % 2 ^ 48)
    | 1 =>
      if bits addr 29 16 != 0 then .error ⟨codeField, fieldDetail n 0⟩
      else .ok (storeAddr (addrDie addr) (x.cmd.phys (addrDie addr) (bits addr 24 5)) off)
    | 2 =>
      if bits addr 24 24 != 0 then .error ⟨codeField, fieldDetail n 0⟩
      else .ok (storeAddr x.die x.core off)
    | _ => .error ⟨codeField, fieldDetail (n + 1) 24⟩

/-- A package operand in words `n` and `n + 1`: its address, when its range and alignment hold (R440). -/
def Cx.pa (x : Cx) (n len align : Nat) : M Nat :=
  match x.paOf (x.w n) (x.w (n + 1)) n with
  | .error e => throw e
  | .ok a =>
    if len == 0 then pure a
    else if a % align != 0 then M.fail codeAlign (n * 256)
    else if rangeOk (addrOff a) len then pure a
    else M.fail codeRange (n * 256)

/-- Store offset of an address in the command's own core; none for any other address. -/
def Cx.own (x : Cx) (a : Nat) : Option Nat :=
  match placeOf (addrOff a) with
  | .store c off => if addrDie a == x.die && c == x.core then some off else none
  | _ => none

/-! ### Formats (07 R301, 10 R443) -/

/-- Format codes. -/
def fmtInt4 : Nat := 0x0
def fmtInt8 : Nat := 0x1
def fmtUint8 : Nat := 0x2
def fmtInt16 : Nat := 0x3
def fmtE4M3 : Nat := 0x4
def fmtE5M2 : Nat := 0x5
def fmtMxfp4 : Nat := 0x6
def fmtFp16 : Nat := 0x7
def fmtBf16 : Nat := 0x8
def fmtInt32 : Nat := 0xA
def fmtFp32 : Nat := 0xB
def fmtXc24 : Nat := 0xC

/-- Bits of an element. -/
def fmtBits (f : Nat) : Nat :=
  if f == fmtInt4 || f == fmtMxfp4 then 4
  else if f == fmtInt16 || f == fmtFp16 || f == fmtBf16 then 16
  else if f == fmtInt32 || f == fmtFp32 then 32
  else if f == fmtXc24 then 24
  else 8

/-- The code names a format (R443). -/
def fmtOk (f : Nat) : Bool := decide (f ≤ 8) || f == fmtInt32 || f == fmtFp32 || f == fmtXc24

/-! ### Operand descriptors (R442) -/

/-- An operand descriptor. -/
structure Od where
  /-- First row, or payload base of a tiled operand. -/
  base : Nat
  rows : Nat
  rowBytes : Nat
  fmt : Nat
  tiled : Bool
  /-- Header table of a tiled operand. -/
  hdr : Nat
  cols : Nat
deriving DecidableEq, Repr

/-- A field of an operand descriptor that is wrong is named by word index 8 + its word (R472). -/
def odField (word bit : Nat) : Nat := fieldDetail (8 + word) bit

end Sys2Proof.Machine
end

