-- ==== Sys2Proof/Machine/Routes.lean ====
section
/-! DEFINITION. The way of a transaction over the die links and past the mullions (12 R559 to R561, 15 R666 to R669). -/

namespace Sys2Proof.Machine

/-! ### Topology and routes (R559 to R561) -/

/-- The far end of a port: die and port (R559). The ports of an XMD-4 are numbered by the model (log entry 32). -/
def ignPeer (dies die port : Nat) : Option (Nat × Nat) :=
  if dies ≤ die || 4 ≤ port then none
  else if dies == 2 then some (1 - die, port)
  else if dies == 4 then some (die ^^^ (if port < 2 then 1 else port), port)
  else if dies == 8 then some (die ^^^ [1, 2, 4, 7].getD port 0, port)
  else none

/-- State of a link seen from one of its ports. -/
inductive LinkState
  /-- It carries transactions; during a training they wait (R556). -/
  | up
  /-- It went down less than 100 µs ago (R561). -/
  | going
  /-- It carries nothing. -/
  | gone
deriving DecidableEq, Repr

/-- State of the link of a port. -/
def State.link (s : State) (die port : Nat) : LinkState :=
  match ignPeer s.dies die port with
  | none => .gone
  | some (d, q) =>
    if s.rd .I_IGN_DOWN_TICK die port != 0 || s.rd .I_IGN_DOWN_TICK d q != 0 then .going
    else if s.rd .IGN_STATUS_STATE die port == 0 || s.rd .IGN_STATUS_STATE d q == 0 then .gone
    else .up

/-- Ports of a die whose links to another die count for the choice of R559. -/
def State.linkPorts (s : State) (a b : Nat) : List Nat :=
  (List.range 4).filter fun p => (ignPeer s.dies a p).any (fun q => q.1 == b) && s.link a p != .gone

/-- The port that carries a granule from one die to a linked one (R559). -/
def State.portFor (s : State) (a b g : Nat) : Option Nat :=
  let ps := s.linkPorts a b
  ps[g % ps.length]?

/-- The die through which an XMD-8 reaches a die two hops away (R560). -/
def halfWay (a b : Nat) : Nat :=
  let x := a ^^^ b
  a ^^^ (if bit x 0 then 1 else if bit x 1 then 2 else 4)

/-- The path that a transaction takes while its links are up: a link, or in an XMD-8 the die half way (R559, R560). -/
def State.plainRoute (s : State) (a b g : Nat) : Option (List Nat) :=
  let m := halfWay a b
  if (s.portFor a b g).isSome then some [b]
  else if s.dies == 8 && (s.portFor a m g).isSome && (s.portFor m b g).isSome then some [m, b]
  else none

/-- The path through one die more for each step of `n`: through the lowest-numbered die that still reaches both ends (R561; log entry
160). -/
def State.routeBy (s : State) (g : Nat) : Nat → Nat → Nat → Option (List Nat)
  | 0, a, b => s.plainRoute a b g
  | n + 1, a, b =>
    let through := fun m => (s.routeBy g n a m).bind fun p => (s.routeBy g n m b).map fun q => p ++ q
    (s.routeBy g n a b).orElse fun _ =>
      s.dieList.findSome? fun m => if m == a || m == b then none else (through m).filter fun r => decide (a :: r).Nodup

/-- Dies that a transaction visits after its own, in order; none when no path exists (R559 to R561). -/
def State.route (s : State) (a b g : Nat) : Option (List Nat) := if a == b then some [] else s.routeBy g 2 a b

/-- Hops of a route: die, port, next die. -/
def State.hops (s : State) (g : Nat) : Nat → List Nat → List (Nat × Nat × Nat)
  | _, [] => []
  | a, b :: bs => (a, (s.portFor a b g).getD 0, b) :: s.hops g b bs

/-! ### Flits and blocks (R551 to R555) -/

/-- The flits of a transaction: its header flit, little-endian, and its data flits in ascending address (R552, 00 R5). -/
def LinkTxn.bytes (t : LinkTxn) : List Byte :=
  toLe 6 t.addr ++ toLe 1 (t.tag % 16 + t.op * 16) ++ toLe 2 (t.id % 2 ^ 13 + t.die * 2 ^ 13) ++ toLe 1 t.flits ++ toLe 1 t.status ++
    (t.detail ++ List.replicate 5 0).take 5 ++ t.data

/-- Data flits behind a header flit: those of a write, an add, a slot operation and read data; the length of any other is what it asks
for (R552; log entry 33). -/
def dataFlits (op flits : Nat) : Nat := if [2, 3, 4, 7].contains op then flits else 0

/-- The transaction whose flits begin here; none while data flits are missing. -/
def readTxn (bs : List Byte) : Option LinkTxn :=
  let op := byteAt bs 6 / 16
  let n := 16 * dataFlits op (byteAt bs 9)
  if bs.length < 16 + n then none
  else some ⟨leAt bs 0 6, byteAt bs 6 % 16, op, leAt bs 7 2 % 2 ^ 13, leAt bs 7 2 / 2 ^ 13, byteAt bs 9, byteAt bs 10,
    (bs.drop 11).take 5, (bs.drop 16).take n⟩

/-- A header flit that R552 allows. -/
def flitOk (bs : List Byte) : Bool := decide (1 ≤ byteAt bs 6 / 16 ∧ byteAt bs 6 / 16 ≤ 8 ∧ byteAt bs 9 ≤ 16)

/-- The transactions in a run of flits, and the flits of the one that goes on in the next block; none where a header flit is an error.
An all-zero header flit ends the content (R552). `fuel` bounds their number. -/
def readTxns : Nat → List Byte → Option (List LinkTxn × List Byte)
  | 0, _ => some ([], [])
  | fuel + 1, bs =>
    if bs.length < 16 || (bs.take 16).all (· == 0) then some ([], [])
    else if !flitOk bs then none
    else
      match readTxn bs with
      | none => some ([], bs)
      | some t => (readTxns fuel (bs.drop (16 + t.data.length))).map fun r => (t :: r.1, r.2)

/-- The bytes of a block (R551). -/
def linkBlock (seq ack kind credit : Nat) (flits : List Byte) : List Byte :=
  let body := toLe 2 seq ++ toLe 2 ack ++ toLe 1 kind ++ toLe 3 credit ++ List.replicate 4 0 ++
    (flits ++ List.replicate 240 0).take 240
  body ++ toLe 4 (crc32c body)

/-- The link layer of a port. -/
def State.linkPort (s : State) (die port : Nat) : LinkPort := tableGet {} (die * 4 + port) s.aux.links

/-- Change the link layer of a port. -/
def Act.linkPort (die port : Nat) (f : LinkPort → LinkPort) : Act :=
  .aux fun a =>
    let k := die * 4 + port
    { a with links := tableSet {} k (f (tableGet {} k a.links)) a.links }

/-- A number of the oldest blocks of a port's replay buffer are acknowledged (R553, R555). -/
def ackOldest (die port n : Nat) : Act :=
  .seq (.linkPort die port fun x => { x with replay := x.replay.drop n })
    (.get fun s => .set .I_IGN_ACKED die port (s.rd .I_IGN_TX_SEQ die port + 2 ^ 16 - (s.linkPort die port).replay.length))

/-- A new data block crosses the link, and stays in the replay buffer of 64; behind 64 unacknowledged blocks it waits for the first
acknowledgement (R553, R555). -/
def newBlock (die port d q : Nat) (flits : List Byte) : Act :=
  .get fun s =>
    let seq := (s.rd .I_IGN_TX_SEQ die port + 1) % 2 ^ 16
    .all [
      ackOldest die port ((s.linkPort die port).replay.length - 63),
      .set .I_IGN_TX_SEQ die port seq,
      .linkPort die port fun x => { x with replay := x.replay ++ [(seq, flits)] },
      .inc .IGN_BLOCKS_TX die port,
      .inc .I_IGN_RX_SEQ d q,
      .inc .IGN_BLOCKS_RX d q]

/-- Flits leave a port, behind those that wait there: in full blocks, and the last ones in a block filled with zeros or later with
other transactions; some of the blocks are acknowledged at the end. Which of the two, and how many, is left open (R552, R553; log
entry 33). -/
def sendFlits (die port : Nat) (flits : List Byte) : Act :=
  .get fun s =>
    match ignPeer s.dies die port with
    | none => .nop
    | some (d, q) => .free fun v =>
        let all := (s.linkPort die port).open_ ++ flits
        let n := if v % 2 == 0 then all.length / 240 else (all.length + 239) / 240
        .all [
          .upTo n fun i => newBlock die port d q ((all.drop (240 * i)).take 240),
          .linkPort die port fun x => { x with open_ := all.drop (240 * n) },
          .get fun t => ackOldest die port (v / 2 % ((t.linkPort die port).replay.length + 1))]

/-! ### Mullions (15 R666 to R669) -/

/-- Partition and safety bit of a requester's transit tag: the context's (10 R432), or the host's (17 R741); none for the Keeper and
the units, which carry none (R668). -/
def State.tagOf (s : State) : Requester → Option (Nat × Bool)
  | .host => some ((s.aux.image.map fun i => i.hostPart).getD 0, false)
  | .context d c x => some (s.rd .CTX_PART d (ctxIdx c x), s.on .CTX_SAFETY d (ctxIdx c x))
  | .keeper _ => none
  | .unit _ => none

/-- A transaction's tag is admitted to a die offset (15 R667). -/
def State.admits (s : State) (die off : Nat) (tag : Nat × Bool) (write : Bool) : Bool :=
  (List.range 64).any fun m =>
    s.acOn .MUL_VALID die m && decide (s.ac .MUL_BASE die m ≤ off / 4096) && decide (off / 4096 ≤ s.ac .MUL_LIMIT die m) &&
    (if write then bit (s.ac .MUL_WRITE die m) tag.1 && (!s.acOn .MUL_SAFE_WRITE die m || tag.2)
     else bit (s.ac .MUL_READ die m) tag.1)

/-- A refused transaction is counted and recorded (15 R669). -/
def refuseMullion (a : Nat) (tag : Nat × Bool) (write : Bool) : Act :=
  let die := addrDie a
  .all [
    .inc .MUL_REFUSED die,
    .set .MUL_LAST_ADDR die 0 a,
    .set .MUL_LAST_TAG die 0 (tag.1 + bitIf tag.2 3),
    .set .MUL_LAST_WRITE die 0 (b2n write),
    bellRing die 0x085]

/-- The mullions of the target die check a transaction that carries a transit tag (15 R666 to R669). -/
def checkMullion (who : Requester) (a : Nat) (write : Bool) : M Unit := do
  let s ← M.state
  match s.tagOf who with
  | none => pure ()
  | some tag =>
    if s.admits (addrDie a) (addrOff a) tag write then pure ()
    else do
      M.act (refuseMullion a tag write)
      M.fail codeMullion (low32 a)

/-! ### The way of a transaction (R533, R559 to R561) -/

/-- Bytes at an address in whole flits; what stands beside them is left open. -/
def inFlits (a : Nat) (bs fill : List Byte) : List Byte :=
  if bs.isEmpty then [] else fill.take (a % 16) ++ bs ++ (fill.drop 16).take ((15 * (a + bs.length)) % 16)

/-- The request that a transaction sends over the links. The places of the operation detail within its bytes, the data of a slot
operation and what carries no transit tag are left open (R552; log entry 33). -/
def State.linkRequest (s : State) (who : Requester) (a : Nat) (op : TxnOp) (v : Nat) (fill : List Byte) : LinkTxn :=
  let tag := match s.tagOf who with
    | some t => t.1 + bitIf t.2 3
    | none => v / 2 ^ 13 % 16
  let make := fun (code : Nat) (detail data : List Byte) =>
    LinkTxn.mk a tag code (v % 2 ^ 13) (requesterDie who) (data.length / 16) 0 detail data
  match op with
  | .read len => { make 1 [] [] with flits := (inFlits a (List.replicate len 0) fill).length / 16 }
  | .write bs => make 2 [] (inFlits a bs fill)
  | .add fmt bs => make 3 (toLe 1 fmt) (inFlits a bs fill)
  | .slotOp _ _ => make 4 [] (fill.take 16)
  | .semaphoreAdd sem count => make 5 (toLe 1 sem ++ toLe 2 count) []
  | .doorbell w => make 6 (toLe 4 w.toNat) []

/-- The answer to a request: read data, or a completion, with its status (R552). -/
def LinkTxn.answer (t : LinkTxn) (r : Except Err (List Byte)) (fill : List Byte) : LinkTxn :=
  let data := match r with
    | .ok bs => if t.op == 1 || t.op == 4 then inFlits t.addr bs fill else []
    | .error _ => []
  let status := match r with
    | .ok _ => 0
    | .error e => e.code
  { t with op := if t.op == 1 || t.op == 4 then 7 else 8, flits := data.length / 16, status := status, detail := [], data := data }

/-- A transaction travels to the die of an address, acts there, and its answer travels back: each die between relays it (01 R29, R559
to R561). -/
def overLinks (who : Requester) (a : Nat) (op : TxnOp) (act : M (List Byte)) : M (List Byte) := do
  let s ← M.state
  let src := requesterDie who
  let dst := addrDie a
  let g := addrOff a / 256
  if !s.dieThere dst || bit (s.rd .FLT_DIE_FAILED 0) dst || !bit (s.rd .PWR_DOM_ON dst) 7 then M.fail codeFabric (low32 a)
  else
    match s.route src dst g with
    | none => M.fail codeFabric (low32 a)
    | some [] => act
    | some r =>
      let hops := s.hops g src r
      if hops.any fun h => s.link h.1 h.2.1 == .going then do
        M.act (.inc .FAB_LINK_ABORTS src)
        M.fail codeFabric (low32 a)
      else do
        let v ← M.free
        let fill ← M.freeBytes 32
        let t := s.linkRequest who a op v fill
        M.act (.seq (.each r.dropLast fun m => .inc .FAB_RELAYED m) (.each hops fun h => sendFlits h.1 h.2.1 t.bytes))
        let o ← M.attempt act
        M.act (.each hops.reverse fun h =>
          match ignPeer s.dies h.1 h.2.1 with
          | some (d, q) => sendFlits d q (t.answer o fill).bytes
          | none => .nop)
        match o with
        | .ok bs => pure bs
        | .error e => throw e

/-- The transaction asks for a change. -/
def txnWrites : TxnOp → Bool
  | .read _ => false
  | _ => true

/-- A transaction acts at the place that its address names: behind the way, the mullions, the region, its power domain (R533, 15 R666,
19 R782). -/
def atPlace (who : Requester) (a : Nat) (op : TxnOp) (act : Place → M (List Byte)) : M (List Byte) :=
  overLinks who a op (do
    checkMullion who a (txnWrites op)
    let p ← needPlace a
    act p)

/-- The same for one that answers with no data. -/
def doAtPlace (who : Requester) (a : Nat) (op : TxnOp) (act : Place → M Unit) : M Unit := do
  let _ ← atPlace who a op fun p => do
    act p
    pure []
  pure ()

end Sys2Proof.Machine
end

