-- ==== Sys2Proof/Machine/Sequencer.lean ====
section
/-! DEFINITION. The sequencer (10_cores_and_command_lists.md): fetch, issue, completion and errors, and the commands that it
performs itself. -/

namespace Sys2Proof.Machine

/-! ### The next command -/

/-- A row of a store can be read by the sequencer (11 R501, R506, R520). -/
def State.rowReadable (s : State) (die core off : Nat) : Bool :=
  let row := off / 64 * 64
  let a := storeAddr die core row
  decide (s.groupState die core off < 2) && !s.rowFails a && !s.poisoned a

/-- The command at a local offset can be fetched (R433). -/
def State.fetchable (s : State) (die core pc : Nat) : Bool :=
  pc % 32 == 0 && storeRangeOk pc 32 && s.rowReadable die core pc

/-- The eight words of a command in a store (R435). -/
def State.cmdWords (s : State) (die core pc : Nat) : List Nat :=
  (List.range 8).map fun n => s.le (storeAddr die core pc + 4 * n) 4

/-- Counters c[0] to c[7] of a context. -/
def State.counters (s : State) (die core c : Nat) : List Nat := (List.range 8).map fun n => s.counter die core c n

/-- The next command that a context issues: the first of those to issue again, else the one at CTX_PC (R424, R431, R434; log entry
16). A command that cannot be fetched has no words. -/
def State.nextCmd (s : State) (die core c : Nat) : Issue :=
  match (s.ctx die core c).again with
  | i :: _ => { i with hinge := s.hinge }
  | [] =>
    let pc := s.rd .CTX_PC die (ctxIdx core c)
    { addr := pc
      words := if s.fetchable die core pc then s.cmdWords die core pc else []
      cnt := s.counters die core c
      row := 0
      ord := 0
      hinge := s.hinge
      chained := (s.ctx die core c).gang }

/-- BARRIER, CONT, SIG and SEM of a command (R435). -/
def Issue.barrier (i : Issue) : Bool := bit (i.w 0) 22
def Issue.cont (i : Issue) : Bool := bit (i.w 0) 23
def Issue.sig (i : Issue) : Bool := bit (i.w 0) 21
def Issue.sem (i : Issue) : Nat := bits (i.w 0) 16 5

/-- Mask of a list of engines. -/
def engineMask (es : List Nat) : Nat := es.foldl (fun m e => putBit m e true) 0

/-- Engines of a mask. -/
def maskEngines (m : Nat) : List Nat := (List.range 4).filter (bit m)

/-- Units that a command uses: engines in [3:0], vector unit in [4], mover in [5] (10, first table). -/
def State.unitsOf (s : State) (die core : Nat) (i : Issue) : Nat :=
  let gang := engineMask (s.usable die core)
  match i.op with
  | 0x10 => if bit i.mode 1 then gang else bits (i.w 1) 0 4
  | 0x11 => if bit (i.w 1) 2 then (if i.chained then gang else 0) else 2 ^ bits (i.w 1) 0 2
  | 0x12 => gang
  | 0x24 => gang + 16
  | 0x25 => gang + 16
  | 0x30 => 16
  | 0x31 => 16
  | 0x20 => 32
  | 0x21 => 32
  | 0x22 => 32
  | 0x23 => 32
  | 0x38 => 32
  | 0x39 => 32
  | 0x3A => 32
  | _ => 0

/-- Commands in flight of a core that use a unit. -/
def State.inQueue (s : State) (die core unit : Nat) : Nat :=
  ((List.range 4).flatMap fun c => (s.ctx die core c).flight.filter fun f => bit f.units unit).length

/-- Entries of a unit's queue (first table of chapter 10, R838). -/
def queueDepth (unit : Nat) : Nat := if unit < 4 then 16 else 8

/-- Every unit that a command uses has room (R425). -/
def State.room (s : State) (die core units : Nat) : Bool :=
  (List.range 6).all fun u => !bit units u || decide (s.inQueue die core u < queueDepth u)

/-- Some command of a context's flight uses a unit of a mask. -/
def unitsBusy (flight : List Flight) (mask : Nat) : Bool := flight.any fun f => f.units &&& mask != 0

/-- A command of these units waits for one of its context that the vector unit or the mover has not completed (R426). -/
def waitsBehind (flight : List Flight) (units : Nat) : Bool := unitsBusy flight (units &&& 0x30)

/-- No command of a flight stands before this one in list order (R435 BARRIER): one that is issued again has its number already. -/
def firstOf (flight : List Flight) (i : Issue) : Bool := flight.all fun f => i.ord != 0 && decide (i.ord < f.cmd.ord)

/-- A context has a command to issue: it runs; or it is ending after a pre-emption, and commands before its END are to be issued
again (R431, R465). -/
def State.issuing (s : State) (die core c : Nat) : Bool :=
  let x := s.ctx die core c
  s.ctxState die core c == 1 && !x.ended || s.ctxState die core c == 4 && x.ended && !x.again.isEmpty

/-- A context can issue this command now (R424, R425, R428, R429). -/
def State.canIssue (s : State) (die core c : Nat) (i : Issue) : Bool :=
  let x := s.ctx die core c
  s.dieThere die && decide (core < 32) && decide (c < 4) && s.issuing die core c && x.stop.isNone &&
  s.higherQuiet die core c && !s.fencedCore die core && (!i.barrier || firstOf x.flight i) &&
  s.room die core (s.unitsOf die core i)

/-! ### Loops -/

/-- Where the list goes on after a place, with the loops that are then active and the counter written: a loop whose body ends there
runs its next iteration or ends (R457). -/
def loopNext (pc : Nat) : List Loop → Nat × List Loop × Option (Nat × Nat)
  | [] => (pc, [], none)
  | l :: ls =>
    if l.stop == pc then
      if l.index + 1 < l.count then (l.start, { l with index := l.index + 1 } :: ls, some (l.idxc, l.index + 1))
      else loopNext pc ls
    else (pc, l :: ls, none)

/-- Set the active loops of a context. -/
def setLoops (die core c : Nat) (ls : List Loop) : Act :=
  .seq (.ctx die core c fun y => { y with loops := ls }) (.set .CTX_LOOPS die (ctxIdx core c) ls.length)

/-- The list goes on at a place. -/
def goOn (die core c pc : Nat) : Act :=
  .get fun s =>
    let (pc', ls, w) := loopNext pc (s.ctx die core c).loops
    .all [
      .set .CTX_PC die (ctxIdx core c) pc',
      setLoops die core c ls,
      match w with
      | some (n, v) => setCounter die core c n v
      | none => .nop]

/-! ### Issue -/

/-- Issue a command: it is counted, gets its numbers, stands in flight, and the list goes on after it (R424). -/
def issueCmd (die core c : Nat) (i : Issue) (course : Course) (k : Cx → Nat → Act) : Act :=
  .get fun s =>
    let first := (s.ctx die core c).again.isEmpty
    let units := s.unitsOf die core i
    takeOrd fun id =>
      let cmd := if first then { i with ord := id } else i
      .all [
        .inc .SQ_CMDS die core,
        .inc .CTX_CMDS die (ctxIdx core c),
        .ctx die core c fun y => { y with
          again := y.again.drop 1
          flight := y.flight ++ [{
            id := id, cmd := cmd, units := units, tick := s.ticks, ending := none, begun := !waitsBehind y.flight units,
            course := course }] },
        .when first (goOn die core c (i.addr + 32)),
        k ⟨die, core, c, cmd⟩ id]

/-- Flags that the running command has raised. -/
def raise (flags : Nat) : M Unit := M.act (.aux fun a => { a with raised := a.raised ||| flags })

/-- Change a flight of a context. -/
def Act.flight (die core c id : Nat) (g : Flight → Flight) : Act :=
  .ctx die core c fun y => { y with flight := y.flight.map fun f => if f.id == id then g f else f }

/-- How a command ends that a computation performs: with flags, with an error, or not yet. The flags that it has raised go with either
end; those of a command that has stopped at a pre-emption point stay with it (R466, R473). -/
def endOf (die core c id : Nat) (r : Except Err (Option Nat)) : Act :=
  .get fun s =>
    let raised := s.aux.raised
    .seq (.aux fun a => { a with raised := 0 })
      (match r with
       | .ok none => .flight die core c id fun f => { f with cmd := { f.cmd with flags := raised } }
       | .ok (some flags) => endFlight die core c id (Ending.ok (flags ||| raised))
       | .error e => endFlight die core c id ⟨e.code, raised, e.detail⟩)

/-- The flight of a command. -/
def State.flightOf (s : State) (die core c id : Nat) : Option Flight := (s.ctx die core c).flight.find? fun f => f.id == id

/-- A command starts, or goes on: its reserved bits are checked and it is performed, with what its reads meet. -/
def perform (x : Cx) (id : Nat) (body : Cx → Nat → M (Option Nat)) : Act :=
  .get fun s => .all [
    meetAll ((s.flightOf x.die x.core x.ctx id).elim [] fun f => f.course.meets),
    .flight x.die x.core x.ctx id fun f => { f with course := { f.course with meets := [] } },
    .aux fun a => { a with raised := x.cmd.flags },
    (do checkReserved x; body x id : M (Option Nat)).then (endOf x.die x.core x.ctx id)]

/-- Perform the parts of a command from the first that is not yet done, up to its end or to the pre-emption point that its course names;
there it stands in flight, with the number of parts done (R473). `go` performs a range of parts. -/
def inRange (x : Cx) (id total : Nat) (go : Nat → Nat → M Unit) : M (Option Nat) := do
  let s ← M.state
  let upto := match (s.flightOf x.die x.core x.ctx id).bind fun f => f.course.stop with
    | some k => min total (max x.cmd.row k)
    | none => total
  go x.cmd.row upto
  if upto < total then do
    M.act (.flight x.die x.core x.ctx id fun f => { f with cmd := { f.cmd with row := upto }, course := {} })
    pure none
  else pure (some 0)

/-- Perform the parts of a command one by one, as `inRange` does. -/
def inParts (x : Cx) (id total : Nat) (part : Nat → M Unit) : M (Option Nat) :=
  inRange x id total fun lo hi => M.each ((List.range hi).drop lo) part

/-- Issue the next command of a context when it is one that `mine` names and can issue; it starts at once unless one of its context
is before it on the vector unit or the mover (R426). One that waits has its reserved bits checked at issue all the same (R437). -/
def issueUnit (die core c : Nat) (mine : Issue → Bool) (body : Cx → Nat → M (Option Nat)) (course : Course := {}) : Act :=
  .get fun s =>
    let i := s.nextCmd die core c
    .when (mine i && s.canIssue die core c i)
      (issueCmd die core c i course fun x id =>
        if waitsBehind (s.ctx die core c).flight (s.unitsOf die core i) then
          (checkReserved x).then fun r =>
            match r with
            | .ok _ => .nop
            | .error e => endFlight die core c id ⟨e.code, 0, e.detail⟩
        else perform x id body)

/-- A command of an opcode and a kind field that selects its row. -/
def isOp (op : Nat) (i : Issue) : Bool := i.op == op && !i.words.isEmpty

/-! ### Completion -/

/-- Commands of a context that are to be issued again and stand before a command in list order use units of a mask. -/
def State.againBusy (s : State) (die core c ord mask : Nat) : Bool :=
  (s.ctx die core c).again.any fun i => decide (i.ord < ord) && s.unitsOf die core i &&& mask != 0

/-- SIGNALs whose earlier commands on their units have completed, those to be issued again among them, and that have not sent their
add (R431, R451); `Issue.row` 1 marks one that has. -/
def State.readySignals (s : State) (die core c : Nat) : List Flight → List Flight → List Flight
  | _, [] => []
  | before, f :: fs =>
    let mask := bits (f.cmd.w 3) 0 6
    (if f.cmd.op == 0x04 && f.cmd.row == 0 && f.ending.isNone && !unitsBusy before mask && !s.againBusy die core c f.cmd.ord mask
      then [f] else []) ++ s.readySignals die core c (before ++ [f]) fs

/-- Where a SIGNAL sends its add: die, physical core, semaphore; its logical core was translated at its issue (R441, R444). -/
def signalTarget (die core : Nat) (i : Issue) : Nat × Nat × Nat :=
  let w := i.w 1
  if bit w 13 then (die, core, bits w 0 5)
  else (bits w 10 3, i.phys (bits w 10 3) (bits w 5 5), bits w 0 5)

/-- Send the adds of the SIGNALs that are ready. -/
def releaseSignals (die core c : Nat) : Act :=
  .get fun s =>
    .each (s.readySignals die core c [] (s.ctx die core c).flight) fun f =>
      let (d, n, sem) := signalTarget die core f.cmd
      .all [
        .ctx die core c fun y => { y with
          flight := y.flight.map fun g => if g.id == f.id then { g with cmd := { g.cmd with row := 1 } } else g },
        .aux fun a => { a with semAdds := a.semAdds ++ [⟨d, n, sem, bits (f.cmd.w 2) 0 16, die, core, c, f.id⟩] }]

/-- Staged weights of a context that no pass has taken are discarded (R465). -/
def discardStaged (die core c : Nat) : Act :=
  .upTo 4 fun e =>
    .get fun s =>
      let g := s.engine die core e
      .when (g.staged.isSome && g.stagedCtx == c) (.all [
        .engine die core e fun h => { h with staged := none },
        .set .ENG_STATUS_STAGED die (ctxIdx core e) 0])

/-- A command that signals adds 1 to its semaphore (R468). -/
def signalDone (die core : Nat) (i : Issue) (code : Nat) : Act :=
  .when (i.sig && (code == 0 || i.cont)) (semAdd die core i.sem 1)

/-- END completes and the list ends (R465). -/
def endNow (die core c : Nat) (f : Flight) : Act :=
  .get fun s =>
    .all [
      discardStaged die core c,
      signalDone die core f.cmd 0,
      leaveContext die core c 0,
      listEnded (s.ctx die core c).owner die core]

/-- The list of a context stops (R469, R470). -/
def stopNow (die core c : Nat) (e : Nat × Nat × Nat × Nat × Nat) : Act :=
  .get fun s =>
    let o := (s.ctx die core c).owner
    .all [
      discardStaged die core c,
      stopContext die core c e.2.1 e.2.2.1 e.2.2.2.1 e.2.2.2.2,
      listStopped o die core e.2.1 e.2.2.1 e.2.2.2.2 (s.rd .CTX_CFLAGS die (ctxIdx core c))]

/-- What follows a completion: SIGNALs are released; a list that stops, or has come to its END, leaves its context once nothing
else is in flight. -/
def settleCtx (die core c : Nat) : Act :=
  .seq (releaseSignals die core c) (.get fun s =>
    let x := s.ctx die core c
    match x.stop with
    | some e => .when (x.flight.all fun f => f.cmd.op == 0x02) (stopNow die core c e)
    | none =>
      match x.flight with
      | [f] => .when (f.cmd.op == 0x02 && x.ended && x.again.isEmpty && s.ctxState die core c == 4) (endNow die core c f)
      | _ => .nop)

/-- The earlier of two errors of a context in list order (R470). -/
def earlierStop (a : Option (Nat × Nat × Nat × Nat × Nat)) (b : Nat × Nat × Nat × Nat × Nat) : Nat × Nat × Nat × Nat × Nat :=
  match a with
  | some x => if b.1 < x.1 then b else x
  | none => b

/-- A context stops: it issues nothing further, so commands to issue again are dropped; those in flight, a wait among them, still
complete (R469; log entry 17). -/
def beginStop (die core c : Nat) (e : Nat × Nat × Nat × Nat × Nat) : Act :=
  .ctx die core c fun y => { y with stop := some (earlierStop y.stop e), again := [] }

/-- A command completes with an error code and flags (R466 to R471). -/
def completeFlight (die core c : Nat) (f : Flight) (e : Ending) : Act :=
  let i := ctxIdx core c
  let contErr := e.code != 0 && f.cmd.cont
  .all [
    .ctx die core c fun y => { y with flight := y.flight.filter fun g => g.id != f.id },
    .upd .CTX_CFLAGS die i (· ||| (e.flags ||| flagIf contErr flagContErr)),
    .when contErr (.inc .SQ_CONT_ERRORS die core),
    signalDone die core f.cmd e.code,
    .when (e.code != 0 && !f.cmd.cont) (beginStop die core c (f.cmd.ord, e.code, f.cmd.op, f.cmd.addr, e.detail)),
    settleCtx die core c]

/-- Issue a command that the sequencer performs, and complete it in the same step when it has ended: it is the last in flight. -/
def issueSeq (die core c : Nat) (mine : Issue → Bool) (body : Cx → Nat → M (Option Nat)) : Act :=
  .get fun s =>
    let i := s.nextCmd die core c
    .when (mine i && s.canIssue die core c i) (.seq (issueUnit die core c mine body) (.get fun t =>
      match (t.ctx die core c).flight.getLast? with
      | some f =>
        match f.ending with
        | some e => completeFlight die core c f e
        | none => settleCtx die core c
      | none => .nop))

/-! ### Commands that the sequencer performs -/

/-- A command that has no row of its own: an unknown opcode or VEC operation, a reserved kind, or a command that cannot be fetched
(R433, R436, R444, R445). -/
def rowless (i : Issue) : Bool :=
  i.words.isEmpty ||
  match i.op with
  | 0x20 => bits i.mode 0 2 == 3
  | 0x22 => bits i.mode 0 3 == 7
  | 0x09 => decide (2 ≤ bits i.mode 0 2)
  | 0x30 => !(decide (i.mode ≤ 0x2B) || i.mode == 0x38 || i.mode == 0x39)
  | op => !([0x01, 0x02, 0x03, 0x04, 0x05, 0x06, 0x07, 0x08, 0x10, 0x11, 0x12, 0x21, 0x23, 0x24, 0x25, 0x31, 0x38, 0x39,
      0x3A].contains op)

/-- Why a command without a row ends (R433, R436, R444, R445). -/
def rowlessError (x : Cx) : M (Option Nat) :=
  if x.cmd.words.isEmpty then
    if x.cmd.addr % 32 != 0 then M.fail codeAlign
    else if !storeRangeOk x.cmd.addr 32 then M.fail codeRange
    else do
      let _ ← readStore x.die x.core x.cmd.addr 32
      M.fail codeFabric
  else if x.cmd.op == 0x20 || x.cmd.op == 0x22 || x.cmd.op == 0x09 then M.fail codeField (fieldDetail 0 8)
  else M.fail 0x01

/-- CMD_INVALID (R436). -/
def execCmdInvalid (die core ctx : Nat) (s : State) : Host.Outcome State Fault Refusal :=
  (Act.get fun t =>
    let i := t.nextCmd die core ctx
    Act.when (rowless i && t.canIssue die core ctx i)
      (.seq (issueCmd die core ctx i {} fun x id => (rowlessError x).then (endOf die core ctx id)) (.get fun u =>
        match (u.ctx die core ctx).flight.getLast? with
        | some f => completeFlight die core ctx f (f.ending.getD (Ending.ok))
        | none => .nop))).done s

/-- NOP (R436). -/
def execNop (die core ctx : Nat) (s : State) : Host.Outcome State Fault Refusal :=
  (issueSeq die core ctx (isOp 0x01) fun _ _ => pure (some 0)).done s

/-- END: the context shows ending, and the list ends once every earlier command has completed (R465). -/
def execEndList (die core ctx : Nat) (s : State) : Host.Outcome State Fault Refusal :=
  (issueSeq die core ctx (isOp 0x02) fun _ _ => do
    M.act (.seq (.ctx die core ctx fun y => { y with ended := true }) (.set .CTX_STATE die (ctxIdx core ctx) 4))
    pure none).done s

/-- TIMEOUT_US and NO_TIMEOUT of a wait: none without limit (R444). -/
def Issue.timeout (i : Issue) : Option Nat :=
  let w := match i.op with
    | 0x03 => i.w 3
    | 0x05 => i.w 2
    | _ => i.w 4
  if bit w 16 then none else some (bits w 0 16)

/-- The error with which a wait times out (R456, R472). -/
def timeoutError (s : State) (die core : Nat) (i : Issue) : Ending :=
  match i.op with
  | 0x03 => ⟨0x0D, 0, s.rd .SEM_VALUE die (core * 32 + bits (i.w 1) 0 5)⟩
  | 0x05 => ⟨0x0F, 0, 0⟩
  | _ => ⟨0x0C, 0, 0⟩

/-- A wait that is not met at its issue blocks its context, or times out at once when its time is zero (R449, R456). -/
def blockOn (x : Cx) : M (Option Nat) := do
  let s ← M.state
  if x.cmd.timeout == some 0 then
    let e := timeoutError s x.die x.core x.cmd
    M.fail e.code e.detail
  else do
    M.act (.set .CTX_STATE x.die (ctxIdx x.core x.ctx) 2)
    pure none

/-- WAIT (R450). -/
def execWait (die core ctx : Nat) (s : State) : Host.Outcome State Fault Refusal :=
  (issueSeq die core ctx (isOp 0x03) fun x _ => do
    let t ← M.state
    let i := core * 32 + x.f 1 0 5
    if x.f 2 0 16 ≤ t.rd .SEM_VALUE die i then do
      M.act (.upd .SEM_VALUE die i (· - x.f 2 0 16))
      pure (some 0)
    else blockOn x).done s

/-- SIGNAL: it stays in flight until its target acknowledges the add (R451). -/
def execSignal (die core ctx : Nat) (s : State) : Host.Outcome State Fault Refusal :=
  (issueSeq die core ctx (isOp 0x04) fun _ _ => pure none).done s

/-- The source of a WAIT_BELL is presentable to this core and comes from a die that matches (R455). -/
def State.bellMet (s : State) (die core : Nat) (w : Nat) : Bool :=
  let src := bits w 0 10
  presentable s die src && (bit w 13 || bits (s.rd .BELL_REC die src) 10 3 == bits w 10 3) &&
  match bellTarget s die src with
  | some t => decide (1 ≤ t ∧ t ≤ 32) && s.physCore die (t - 1) == core
  | none => false

/-- WAIT_BELL (R455). -/
def execWaitBell (die core ctx : Nat) (s : State) : Host.Outcome State Fault Refusal :=
  (issueSeq die core ctx (isOp 0x05) fun x _ => do
    let t ← M.state
    if t.bellMet die core (x.w 1) then do
      M.act (.all [
        setBellBit .BELL_PEND die (x.f 1 0 10) false,
        setCounter die core ctx (x.f 3 0 3) (bits (t.rd .BELL_REC die (x.f 1 0 10)) 16 16)])
      pure (some 0)
    else blockOn x).done s

/-- WAIT_TIMEOUT: the wait in which a context is blocked has lasted TIMEOUT_US (R456). -/
def execWaitTimeout (die core ctx : Nat) (s : State) : Host.Outcome State Fault Refusal :=
  (match s.waiting die core ctx with
   | none => Act.nop
   | some f =>
     match f.cmd.timeout with
     | none => Act.nop
     | some us =>
       Act.when (s.ctxState die core ctx == 2 && decide (f.tick + us * ticksPerUs ≤ s.ticks)) (.all [
         .aux fun a => { a with credits := a.credits.filter fun w =>
           !(w.sdie == die && w.score == core && w.sctx == ctx) },
         endFlight die core ctx f.id (timeoutError s die core f.cmd),
         unblock die core ctx])).done s

/-- A loop begins, or is skipped, or is one too many (R449, R457, R458). -/
def beginLoop (x : Cx) : M (Option Nat) := do
  let s ← M.state
  let body := x.f 1 0 12
  let start := x.cmd.addr + 32
  if body == 0 || x.w 2 == 0 then do
    M.act (goOn x.die x.core x.ctx (start + 32 * body))
    pure (some 0)
  else if 4 ≤ (s.ctx x.die x.core x.ctx).loops.length then M.fail codeNest
  else do
    M.act (.all [
      setLoops x.die x.core x.ctx (⟨start, start + 32 * body, x.w 2, 0, x.f 3 0 3⟩ :: (s.ctx x.die x.core x.ctx).loops),
      .set .CTX_PC x.die (ctxIdx x.core x.ctx) start,
      setCounter x.die x.core x.ctx (x.f 3 0 3) 0])
    pure (some 0)

/-- The place after a command, before any loop has moved on: LOOP and BRANCH_CNT choose theirs themselves. -/
def holdPlace (die core c : Nat) (k : Act → Act) : Act :=
  .get fun s =>
    let ls := (s.ctx die core c).loops
    let cnt := s.counters die core c
    k (.all [setLoops die core c ls, .upTo 8 fun n => setCounter die core c n (cnt.getD n 0)])

/-- LOOP (R457, R458). -/
def execLoop (die core ctx : Nat) (s : State) : Host.Outcome State Fault Refusal :=
  (holdPlace die core ctx fun back =>
    issueSeq die core ctx (isOp 0x06) fun x _ => do
      M.act back
      match ← M.attempt (beginLoop x) with
      | .ok r => pure r
      | .error e => do
        M.act (goOn die core ctx (x.cmd.addr + 32))
        throw e).done s

/-- The new value of the counter of a BRANCH_CNT (R460). -/
def branchValue (x : Cx) (old : Nat) : M Nat :=
  match bits x.cmd.mode 0 2 with
  | 0 => pure old
  | 1 => pure (x.w 2)
  | 2 => pure ((old + x.w 2) % 2 ^ 32)
  | _ => do
    let off := x.la 2
    if storeRangeOk off 4 then do
      let bs ← readStore x.die x.core off 4
      pure (leNat bs)
    else M.fail codeRange (2 * 256)

/-- The condition of a BRANCH_CNT (R444, R460). -/
def branchTaken (cond cnt cflags fmask : Nat) : Bool :=
  match cond with
  | 1 => true
  | 2 => cnt == 0
  | 3 => cnt != 0
  | 4 => bit cnt 31
  | 5 => cflags &&& fmask != 0
  | _ => false

/-- Clear in CTX_CFLAGS the bits that FMASK selects. -/
def clearFlags (v fmask : Nat) : Nat := (List.range 8).foldl (fun v i => putBit v i (bit v i && !bit fmask i)) v

/-- BRANCH_CNT (R459, R460). -/
def branchCmd (x : Cx) : M (Option Nat) := do
  let op := bits x.cmd.mode 0 2
  let cond := bits x.cmd.mode 4 3
  let ctr := x.f 1 0 3
  let i := ctxIdx x.core x.ctx
  needField (decide (cond ≤ 5)) 0 12
  needField (!(ctr == 0 && (op != 0 || cond == 2 || cond == 3 || cond == 4))) 1 0
  let s ← M.state
  let v ← branchValue x (s.counter x.die x.core x.ctx ctr)
  let flags := s.rd .CTX_CFLAGS x.die i
  M.act (.all [
    .when (op != 0) (setCounter x.die x.core x.ctx ctr v),
    .when (cond == 5) (.set .CTX_CFLAGS x.die i (clearFlags flags (x.f 4 0 8)))])
  if branchTaken cond v flags (x.f 4 0 8) then
    let target : Int := x.cmd.addr + 32 * signed 32 (x.w 3)
    if target < 0 || !storeRangeOk target.toNat 32 then M.fail codeRange (3 * 256)
    else do
      let pc := target.toNat
      M.act (.seq
        (setLoops x.die x.core x.ctx ((s.ctx x.die x.core x.ctx).loops.dropWhile fun l => !(decide (l.start ≤ pc ∧ pc < l.stop))))
        (.set .CTX_PC x.die i pc))
      pure (some 0)
  else do
    M.act (goOn x.die x.core x.ctx (x.cmd.addr + 32))
    pure (some 0)

/-- BRANCH_CNT. -/
def execBranchCnt (die core ctx : Nat) (s : State) : Host.Outcome State Fault Refusal :=
  (holdPlace die core ctx fun back =>
    issueSeq die core ctx (isOp 0x07) fun x _ => do
      M.act back
      match ← M.attempt (branchCmd x) with
      | .ok r => pure r
      | .error e => do
        M.act (goOn die core ctx (x.cmd.addr + 32))
        throw e).done s

/-- FENCE: it issues once every earlier command on its units has completed, and completes at once; every write that has completed is
visible to every requester in this model (R461; log entry 18). -/
def execFence (die core ctx : Nat) (s : State) : Host.Outcome State Fault Refusal :=
  (issueSeq die core ctx (fun i => isOp 0x08 i && !unitsBusy (s.ctx die core ctx).flight (bits (i.w 1) 0 6))
    fun _ _ => pure (some 0)).done s

/-! ### Semaphores and stops -/

/-- Package address of a semaphore, which the mullions check for an add (10 R452, 15 R667). -/
def semAddr (die core sem : Nat) : Nat := pkgAddr die (regBase + Fld.SEM_VALUE.info.base + core * 0x10000 + sem * 4)

/-- An add reaches its target: an add to another core is a transaction of its sender's context (R432, 15 R666). -/
def semArrive (a : SemAdd) : M Unit :=
  if a.sdie == a.die && a.score == a.core then pure ()
  else doAtPlace (.context a.sdie a.score a.sctx) (semAddr a.die a.core a.sem) (.semaphoreAdd a.sem a.count) fun _ => pure ()

/-- SEMAPHORE_ADD: the oldest add on its way to a core reaches it and is acknowledged; one that would overflow saturates (R451 to
R453), and one that is refused ends its SIGNAL with that error. -/
def execSemaphoreAdd (die core : Nat) (s : State) : Host.Outcome State Fault Refusal :=
  (match s.aux.semAdds.find? fun (a : SemAdd) => a.die == die && a.core == core with
   | none => Act.nop
   | some a => .seq (.aux fun x => { x with semAdds := x.semAdds.erase a }) ((semArrive a).then fun r =>
       match r with
       | .error e => endFlight a.sdie a.score a.sctx a.sid ⟨e.code, 0, e.detail⟩
       | .ok _ => .get fun t => .seq (semAdd die core a.sem a.count)
           (endFlight a.sdie a.score a.sctx a.sid
             ⟨if 65535 < t.rd .SEM_VALUE die (core * 32 + a.sem) + a.count then 0x0E else 0, 0, 0⟩))).done s

/-- A write to SEM_SET sets the semaphore (R475). -/
def semSetAct (die core sem value : Nat) : Act :=
  .seq (.set .SEM_VALUE die (core * 32 + sem) value) (semServe die core sem)

/-- SEM_SET (R475). -/
def execSemSet (die core sem value : Nat) (s : State) : Host.Outcome State Fault Refusal :=
  (Act.when (s.dieThere die) (semSetAct die core (sem % 32) value)).done s

/-- A write to SQ_STOP stops the named contexts with STOPPED (R469). -/
def sqStopAct (die core mask : Nat) : Act :=
  .upTo 4 fun c =>
    .get fun s =>
      let st := s.ctxState die core c
      .when (bit mask c && st != 0 && st != 5)
        (.seq (beginStop die core c (s.rd .I_NEXT_ID 0 + 1, codeStopped, 0, s.rd .CTX_PC die (ctxIdx core c), 0))
          (settleCtx die core c))

/-- SQ_STOP. -/
def execSqStop (die core mask : Nat) (s : State) : Host.Outcome State Fault Refusal :=
  (Act.when (s.dieThere die) (sqStopAct die core mask)).done s

/-! ### Lists -/

/-- A context can take a list: it is idle or stopped (R423, 13 R576; log entry 19). -/
def State.ctxFree (s : State) (die core c : Nat) : Bool :=
  (s.ctxState die core c == 0 || s.ctxState die core c == 5) && !s.fencedCore die core

/-- Headers of every frame bound to a job have been written (13 R576). -/
def State.headersWritten (s : State) (j : Job) : Bool :=
  (s.boundFrames j).all fun o =>
    match o with
    | some f => f.hdrDone || f.ended
    | none => true

/-- The list that waits first for a context: in order of acceptance, and so in job-sequence order within a partition (13 R576). -/
def State.listFor (s : State) (die core c : Nat) : Option (Job × JobList) :=
  s.aux.jobs.findSome? fun j =>
    if j.ctx == c && s.headersWritten j && s.running j.part then
      (j.lists.find? fun l => l.state == 0 && l.die == die && s.physCore die l.core == core).map fun l => (j, l)
    else none

/-- Mark the first such waiting list of a job as running. -/
def startList (lists : List JobList) (l : JobList) (core : Nat) : List JobList :=
  match lists with
  | [] => []
  | x :: xs => if x == l then { x with state := 1, phys := core } :: xs else x :: startList xs l core

/-- A list starts in a context (13 R576): its registers and counters are written, and lower contexts are pre-empted (R430). -/
def enterList (die core c off jseq part : Nat) (safety : Bool) (slot : Nat) (o : Owner) : Act :=
  let i := ctxIdx core c
  .all [
    .set .CTX_BASE die i off,
    .set .CTX_PC die i off,
    .set .CTX_JOB die i jseq,
    .set .CTX_PART die i part,
    .set .CTX_SAFETY die i (b2n safety),
    .upTo 8 fun n => setCounter die core c n (if n == 1 then slot else 0),
    .ctx die core c fun _ => { owner := o },
    .set .CTX_LOOPS die i 0,
    .set .CTX_STATE die i 1,
    preemptBelow die core c]

/-- No context of a core runs a list. -/
def State.coreIdle (s : State) (die core : Nat) : Bool :=
  (List.range 4).all fun c => s.ctxState die core c == 0 || s.ctxState die core c == 5

/-- LIST_START: a job's list starts; before a core serves another partition its stores are zeroed, which waits until the core runs
nothing (13 R576, 11 R527). -/
def execListStart (die core ctx : Nat) (s : State) : Host.Outcome State Fault Refusal :=
  (match s.listFor die core ctx with
   | none => Act.nop
   | some (j, l) =>
     let last := s.rd .I_CTX_LAST_PART die core
     let other := last != j.part + 1
     Act.when (s.dieThere die && s.ctxFree die core ctx && (!other || s.coreIdle die core)) (.all [
       .when (other && last != 0) (zeroStores die core),
       .set .I_CTX_LAST_PART die core (j.part + 1),
       .job j.part j.jseq fun k => { k with lists := startList k.lists l core },
       enterList die core ctx l.off j.jseq j.part (s.acOn .PT_SAFETY 0 j.part) (if j.kind == 2 then j.slot else 0) (.job j.part j.jseq)])).done s

/-- CONTEXT_RESUME: a pre-empted context resumes once every higher context is idle or blocked and its passes have drained (R431). -/
def execContextResume (die core ctx : Nat) (s : State) : Host.Outcome State Fault Refusal :=
  let draining := (List.range 4).any fun e =>
    (s.engine die core e).drain && (s.engine die core e).flight.any fun p => p.ctx == ctx
  (Act.when (s.ctxState die core ctx == 3 && s.higherQuiet die core ctx && !draining) (.all [
    .set .CTX_STATE die (ctxIdx core ctx) (if (s.ctx die core ctx).ended then 4 else 1),
    settleCtx die core ctx])).done s

end Sys2Proof.Machine
end

