-- ==== Sys2Proof/Machine/Shutters.lean ====
section
/-! DEFINITION. Shutters of store groups and vault segments, and the wickets of a target core
(11_scratchpads_and_vaults.md R509 to R524). -/

namespace Sys2Proof.Machine

/-! ### Shutters (R517 to R524) -/

/-- Requests of a unit: the field that holds them (STG_SHUT, VT_SHUT). -/
def shutFld : ShutterUnit → Fld
  | .wStore _ => .STG_SHUT_W
  | .aStore _ => .STG_SHUT_A
  | .pStore _ => .STG_SHUT_P
  | .vault _ => .VT_SHUT

/-- States of a unit: the field that shows them (STG_STATE, VT_STATE). -/
def shutStateFld : ShutterUnit → Fld
  | .wStore _ => .STG_STATE_W
  | .aStore _ => .STG_STATE_A
  | .pStore _ => .STG_STATE_P
  | .vault _ => .VT_STATE

/-- Groups that have been OFF without retention since they left ON. -/
def shutLostFld : ShutterUnit → Fld
  | .wStore _ => .I_SHUT_LOST_W
  | .aStore _ => .I_SHUT_LOST_A
  | .pStore _ => .I_SHUT_LOST_P
  | .vault _ => .I_SHUT_LOST_V

/-- Core or vault of a unit. -/
def shutIdx : ShutterUnit → Nat
  | .wStore c => c
  | .aStore c => c
  | .pStore c => c
  | .vault k => k

/-- Groups of a unit (R478). -/
def shutGroups : ShutterUnit → Nat
  | .aStore _ => 12
  | .vault _ => 16
  | _ => 8

/-- Package address and size of a group (R478, 19 R781). -/
def shutRange (u : ShutterUnit) (die g : Nat) : Nat × Nat :=
  match u with
  | .wStore c => (storeAddr die c (g * (256 * kib)), 256 * kib)
  | .aStore c => (storeAddr die c (0x400000 + g * (128 * kib)), 128 * kib)
  | .pStore c => (storeAddr die c (0x800000 + g * (64 * kib)), 64 * kib)
  | .vault k => (vaultAddr die k (g * (2 * mib)), 2 * mib)

/-- State of a group: 0 ON, 1 CLOSING, 2 OFF, 3 OPENING (R517). -/
def State.shutState (s : State) (die : Nat) (u : ShutterUnit) (g : Nat) : Nat := bits (s.rd (shutStateFld u) die (shutIdx u)) (2 * g) 2

/-- Request of a group: 0 on, 1 off with retention, 2 off without, 3 no change (R517). -/
def State.shutReq (s : State) (die : Nat) (u : ShutterUnit) (g : Nat) : Nat := bits (s.rd (shutFld u) die (shutIdx u)) (2 * g) 2

/-- Set the state of a group. -/
def setShutState (die : Nat) (u : ShutterUnit) (g v : Nat) : Act :=
  .upd (shutStateFld u) die (shutIdx u) fun w => putBits w (2 * g) 2 v

/-- The group is OFF without retention at some moment (R524). -/
def markLost (die : Nat) (u : ShutterUnit) (g : Nat) : Act := .upd (shutLostFld u) die (shutIdx u) fun w => putBit w g true

/-- A request acts on its group: a group in transition takes it when the transition ends (R519, R523, R524). -/
def shutterAct (die : Nat) (u : ShutterUnit) (g : Nat) : Act :=
  .get fun s =>
    match s.shutState die u g, s.shutReq die u g with
    | 0, 1 => setShutState die u g 1
    | 0, 2 => .seq (markLost die u g) (setShutState die u g 1)
    | 2, 0 => setShutState die u g 3
    | 2, 2 => markLost die u g
    | _, _ => .nop

/-- Requests are discarded: the segment is retired and held OFF (16 R694), or the package restarts warm (18 R780). -/
def State.shutHeld (s : State) (die : Nat) (u : ShutterUnit) (g : Nat) : Bool :=
  s.on .I_RESTART_WARM 0 ||
  match u with
  | .vault k => bit (s.rd .FLT_RETIRED_SEG die) (16 * k + g)
  | _ => false

/-- A write to the shutter field of a group (R517, R518). -/
def shutterWrite (die : Nat) (u : ShutterUnit) (g v : Nat) : Act :=
  .get fun s => .when (s.dieThere die && decide (g < shutGroups u) && !s.shutHeld die u g)
    (.seq (.upd (shutFld u) die (shutIdx u) fun w => putBits w (2 * g) 2 v) (shutterAct die u g))

/-- SHUTTER_ON: request 0b00 (R523). -/
def execShutterOn (die : Nat) (u : ShutterUnit) (group : Nat) (s : State) : Host.Outcome State Fault Refusal :=
  (shutterWrite die u group 0).done s

/-- SHUTTER_OFF_RETAIN: request 0b01 (R519). -/
def execShutterOffRetain (die : Nat) (u : ShutterUnit) (group : Nat) (s : State) : Host.Outcome State Fault Refusal :=
  (shutterWrite die u group 1).done s

/-- SHUTTER_OFF_NO_RETAIN: request 0b10 (R519). -/
def execShutterOffNoRetain (die : Nat) (u : ShutterUnit) (group : Nat) (s : State) : Host.Outcome State Fault Refusal :=
  (shutterWrite die u group 2).done s

/-- SHUTTER_CLOSED: every accepted write has been applied, and the group is OFF; a request written while it closed then takes
effect (R519, R524). -/
def execShutterClosed (die : Nat) (u : ShutterUnit) (group : Nat) (s : State) : Host.Outcome State Fault Refusal :=
  (Act.when (s.dieThere die && s.shutState die u group == 1)
    (.seq (setShutState die u group 2) (shutterAct die u group))).done s

/-- SHUTTER_OPENED: the group is ON again, with its contents when it stayed retained and zeroed otherwise; a request written while
it opened then takes effect (R523, R524). -/
def execShutterOpened (die : Nat) (u : ShutterUnit) (group : Nat) (s : State) : Host.Outcome State Fault Refusal :=
  (Act.when (s.dieThere die && s.shutState die u group == 3) (.all [
    .when (bit (s.rd (shutLostFld u) die (shutIdx u)) group) (zeroRange (shutRange u die group).1 (shutRange u die group).2),
    .upd (shutLostFld u) die (shutIdx u) fun w => putBit w group false,
    setShutState die u group 0,
    shutterAct die u group])).done s

/-! ### Wickets (R509 to R516) -/

/-- Index of a wicket entry in its die's table. -/
def wkIdx (core w : Nat) : Nat := core * 16 + w

/-- Wickets held in the table of a core. -/
def State.wickets (s : State) (die core : Nat) : List Nat := (List.range 16).filter fun w => s.on .WK_VALID die (wkIdx core w)

/-- The wicket is held by a context of a core. -/
def State.wicketOf (s : State) (die core w sdie score sctx : Nat) : Bool :=
  let i := wkIdx core w
  s.rd .WK_DIE die i == sdie && s.rd .WK_CORE die i == score && s.rd .WK_CTX die i == sctx

/-- Size of a target store: A-store or P-store (R478). -/
def wkStoreSize (store : Nat) : Nat := if store == 0 then 0x180000 else 0x80000

/-- Offset of a target store in the store window. -/
def wkStoreBase (store : Nat) : Nat := if store == 0 then 0x400000 else 0x800000

/-- A window overlaps a wicket. -/
def State.wicketMeets (s : State) (die core w store off len : Nat) : Bool :=
  let i := wkIdx core w
  s.rd .WK_STORE die i == store && decide (off < s.rd .WK_OFFSET die i + s.rd .WK_LENGTH die i) &&
  decide (s.rd .WK_OFFSET die i < off + len)

/-- The window of a waiting CREDIT_GET is free, and the table has room: the entry that it takes (R512). -/
def State.grantable (s : State) (c : CreditWait) : Option Nat :=
  if c.off + c.len ≤ wkStoreSize c.store &&
      !(s.wickets c.die c.core).any fun w => s.wicketMeets c.die c.core w c.store c.off c.len then
    (List.range 16).find? fun w => !s.on .WK_VALID c.die (wkIdx c.core w)
  else none

/-- A CREDIT_GET is granted: its wicket stands in the target's table, and its context goes on (R512, 10 R430). -/
def grantWicket (c : CreditWait) (w : Nat) : Act :=
  let i := wkIdx c.core w
  .all [
    .aux fun a => { a with credits := a.credits.erase c },
    .set .WK_VALID c.die i 1,
    .set .WK_STORE c.die i c.store,
    .set .WK_CORE c.die i c.score,
    .set .WK_DIE c.die i c.sdie,
    .set .WK_CTX c.die i c.sctx,
    .set .WK_OFFSET c.die i c.off,
    .set .WK_LENGTH c.die i c.len,
    .inc .STG_WK_GRANTS c.die c.core,
    endFlight c.sdie c.score c.sctx c.sid (Ending.ok),
    unblock c.sdie c.score c.sctx]

/-- The oldest CREDIT_GET that waits at a core. -/
def State.creditHead (s : State) (die core : Nat) : Option CreditWait :=
  s.aux.credits.find? fun c => c.die == die && c.core == core

/-- WICKET_GRANT: the target serves the oldest CREDIT_GET that waits, once it can be granted (R512, R513). -/
def execWicketGrant (die core : Nat) (s : State) : Host.Outcome State Fault Refusal :=
  (match s.creditHead die core with
   | none => Act.nop
   | some c =>
     match s.grantable c with
     | none => Act.nop
     | some w => Act.when (!s.fencedCore die core) (grantWicket c w)).done s

/-- WICKET_FREE: every earlier write of the holder into a window that it has returned has been applied, and the wicket is free
(R514). -/
def execWicketFree (die core wicket : Nat) (s : State) : Host.Outcome State Fault Refusal :=
  (Act.when (s.aux.returning.contains (die, core, wicket)) (.all [
    .aux fun a => { a with returning := a.returning.filter fun r => r != (die, core, wicket) },
    .set .WK_VALID die (wkIdx core wicket) 0])).done s

/-- A context's write lies wholly within a wicket that it holds on the store (R509). -/
def State.wicketCovers (s : State) (die core off len : Nat) : Requester → Bool
  | .context d c x => (s.wickets die core).any fun w =>
      let i := wkIdx core w
      let lo := wkStoreBase (s.rd .WK_STORE die i) + s.rd .WK_OFFSET die i
      s.wicketOf die core w d c x && decide (lo ≤ off) && decide (off + len ≤ lo + s.rd .WK_LENGTH die i)
  | _ => false

end Sys2Proof.Machine
end

