-- ==== Sys2Proof/Machine/Numbers.lean ====
section
/-! DEFINITION. Number formats and exact arithmetic with one rounding (06_number_formats_and_arithmetic.md). -/

namespace Sys2Proof.Machine

/-- A number before it is rounded: ±m · 2^e with the sign kept for zero, an infinity, or a NaN. -/
inductive Val
  | fin (neg : Bool) (m : Nat) (e : Int)
  | inf (neg : Bool)
  | nan
deriving DecidableEq, Repr

/-- +0. -/
def Val.zero : Val := .fin false 0 0

/-- An integer. -/
def Val.ofInt (i : Int) : Val := .fin (decide (i < 0)) i.natAbs 0

/-- An integer times a power of two. -/
def Val.scaled (i : Int) (e : Int) : Val := .fin (decide (i < 0)) i.natAbs e

/-- The number is a NaN; infinite; zero; negative. -/
def Val.isNan : Val → Bool
  | .nan => true
  | _ => false

def Val.isInf : Val → Bool
  | .inf _ => true
  | _ => false

def Val.isFinite : Val → Bool
  | .fin _ _ _ => true
  | _ => false

def Val.isZero : Val → Bool
  | .fin _ m _ => m == 0
  | _ => false

def Val.isNeg : Val → Bool
  | .fin n _ _ => n
  | .inf n => n
  | .nan => false

/-- The number with its sign changed. -/
def Val.neg : Val → Val
  | .fin n m e => .fin (!n) m e
  | .inf n => .inf (!n)
  | .nan => .nan

/-- The magnitude. -/
def Val.abs : Val → Val
  | .fin _ m e => .fin false m e
  | .inf _ => .inf false
  | .nan => .nan

/-- Signed mantissa at a lower exponent. -/
def alignTo (n : Bool) (m : Nat) (e lo : Int) : Int :=
  let v : Int := (m * 2 ^ (e - lo).toNat : Nat)
  if n then -v else v

/-- Exact sum (06 R272, R274); opposite zeros give +0. -/
def Val.add : Val → Val → Val
  | .nan, _ => .nan
  | _, .nan => .nan
  | .inf a, .inf b => if a == b then .inf a else .nan
  | .inf a, _ => .inf a
  | _, .inf b => .inf b
  | .fin a m e, .fin b n f =>
    let lo := min e f
    let s := alignTo a m e lo + alignTo b n f lo
    .fin (if s == 0 then a && b && m == 0 && n == 0 else decide (s < 0)) s.natAbs lo

/-- Exact difference. -/
def Val.sub (x y : Val) : Val := x.add y.neg

/-- Exact product (06 R270, R274). -/
def Val.mul : Val → Val → Val
  | .nan, _ => .nan
  | _, .nan => .nan
  | .inf a, .inf b => .inf (a != b)
  | .inf a, .fin b m _ => if m == 0 then .nan else .inf (a != b)
  | .fin a m _, .inf b => if m == 0 then .nan else .inf (a != b)
  | .fin a m e, .fin b n f => .fin (a != b) (m * n) (e + f)

/-- The number times a power of two. -/
def Val.shift (k : Int) : Val → Val
  | .fin n m e => .fin n m (e + k)
  | x => x

/-- Quotient with enough bits for one rounding: the last bit stands for whatever was cut off. -/
def Val.div : Val → Val → Val
  | .nan, _ => .nan
  | _, .nan => .nan
  | .inf _, .inf _ => .nan
  | .inf a, .fin b _ _ => .inf (a != b)
  | .fin a _ _, .inf b => .fin (a != b) 0 0
  | .fin a m e, .fin b n f =>
    if n == 0 then (if m == 0 then .nan else .inf (a != b))
    else
      let k := 128 + Nat.log2 n
      let q := m * 2 ^ k / n
      .fin (a != b) (2 * q + b2n (m * 2 ^ k % n != 0)) (e - f - (k : Int) - 1)

/-- Integer square root of a number below 4^n, bit by bit. -/
def isqrt : Nat → Nat → Nat
  | 0, _ => 0
  | n + 1, v =>
    let r := 2 * isqrt n (v / 4)
    if (r + 1) * (r + 1) ≤ v then r + 1 else r

/-- Square root with enough bits for one rounding. -/
def Val.sqrt : Val → Val
  | .nan => .nan
  | .inf false => .inf false
  | .inf true => .nan
  | .fin n m e =>
    if m == 0 then .fin n 0 0
    else if n then .nan
    else
      let odd := e % 2 != 0
      let m' := if odd then 2 * m else m
      let e' := if odd then e - 1 else e
      let v := m' * 2 ^ 128
      let r := isqrt (Nat.log2 v / 2 + 1) v
      .fin false (2 * r + b2n (r * r != v)) (e' / 2 - 64 - 1)

/-- Order of two numbers by value; none with a NaN (06 R280, R281). -/
def Val.cmp : Val → Val → Option Ordering
  | .nan, _ => none
  | _, .nan => none
  | .inf a, .inf b => some (compare (b2n b) (b2n a))
  | .inf a, _ => some (if a then .lt else .gt)
  | _, .inf b => some (if b then .gt else .lt)
  | .fin a m e, .fin b n f =>
    let lo := min e f
    some (compare (alignTo a m e lo) (alignTo b n f lo))

/-- One value is below another. -/
def Val.lt (x y : Val) : Bool := x.cmp y == some .lt

/-- Stochastic rounding's number for one element; none rounds to nearest, ties to even (06 R288). -/
abbrev Draw := Option Nat

/-- A magnitude divided by 2^s and rounded to an integer (06 R282, R288). -/
def roundShift (m : Nat) (s : Int) (r : Draw) : Nat :=
  if s ≤ 0 then m * 2 ^ (-s).toNat
  else
    let k := s.toNat
    let q := m / 2 ^ k
    let rem := m % 2 ^ k
    match r with
    | none => if 2 * rem > 2 ^ k || 2 * rem == 2 ^ k && q % 2 == 1 then q + 1 else q
    | some r => if rem * 2 ^ 16 / 2 ^ k + r ≥ 2 ^ 16 then q + 1 else q

/-- A finite number rounded to an integer; infinities and NaN give 0. -/
def Val.toInt (x : Val) (r : Draw := none) : Int :=
  match x with
  | .fin n m e =>
    let v : Int := (roundShift m (-e) r : Nat)
    if n then -v else v
  | _ => 0

/-- A floating-point format (06 R260). -/
structure FloatFmt where
  /-- Exponent bits, mantissa bits and bias. -/
  exp : Nat
  man : Nat
  bias : Nat
  /-- Encoding of the largest finite value. -/
  top : Nat
  /-- Encoding of +infinity, where the format has one. -/
  inf : Option Nat
  /-- Canonical NaN. -/
  nan : Nat
deriving DecidableEq, Repr

def fp32Fmt : FloatFmt := ⟨8, 23, 127, 0x7F7FFFFF, some 0x7F800000, 0x7FC00000⟩
def fp16Fmt : FloatFmt := ⟨5, 10, 15, 0x7BFF, some 0x7C00, 0x7E00⟩
def bf16Fmt : FloatFmt := ⟨8, 7, 127, 0x7F7F, some 0x7F80, 0x7FC0⟩
def e4m3Fmt : FloatFmt := ⟨4, 3, 7, 0x7E, none, 0x7F⟩
def e5m2Fmt : FloatFmt := ⟨5, 2, 15, 0x7B, some 0x7C, 0x7E⟩
def e2m1Fmt : FloatFmt := ⟨2, 1, 1, 0x7, none, 0x7⟩

/-- Bits of a format. -/
def FloatFmt.bits (f : FloatFmt) : Nat := 1 + f.exp + f.man

/-- The number that an encoding stands for (06 R260, R262). -/
def FloatFmt.decode (f : FloatFmt) (v : Nat) : Val :=
  let neg := bit v (f.exp + f.man)
  let mag := v % 2 ^ (f.exp + f.man)
  if mag ≤ f.top then
    let e := mag / 2 ^ f.man
    let m := mag % 2 ^ f.man
    if e == 0 then .fin neg m (1 - (f.bias : Int) - f.man)
    else .fin neg (m + 2 ^ f.man) ((e : Int) - f.bias - f.man)
  else if f.inf == some mag then .inf neg
  else .nan

/-- A number rounded once to a format: the encoding, and whether a finite value went beyond the format's range. Beyond it stands
infinity, or the largest finite value with `sat` or where the format has no infinity (06 R261, R282). -/
def FloatFmt.round (f : FloatFmt) (sat : Bool) (x : Val) (r : Draw := none) : Nat × Bool :=
  let sign := fun neg => bitIf neg (f.exp + f.man)
  match x with
  | .nan => (f.nan, false)
  | .inf n =>
    match f.inf with
    | some i => (i + sign n, false)
    | none => (f.nan, false)
  | .fin n m e =>
    let qmin : Int := 1 - (f.bias : Int) - f.man
    let q := max qmin (e + Nat.log2 m - f.man)
    let enc := if m == 0 then 0 else (q - qmin).toNat * 2 ^ f.man + roundShift m (q - e) r
    if enc ≤ f.top then (enc + sign n, false)
    else
      match f.inf with
      | some i => ((if sat then f.top else i) + sign n, true)
      | none => (f.top + sign n, true)

/-- A number rounded to nearest in a format, as a number. -/
def FloatFmt.fit (f : FloatFmt) (x : Val) : Val := f.decode (f.round false x).1

/-- FP32 value of an encoding. -/
def fp32 (v : Nat) : Val := fp32Fmt.decode v

/-- FP32 encoding of a number. -/
def toFp32 (x : Val) : Nat := (fp32Fmt.round false x).1

/-- A number rounded to FP32. -/
def Val.r32 (x : Val) : Val := fp32Fmt.fit x

/-- An integer limited to a range, and whether it lay outside. -/
def clampInt (lo hi v : Int) : Int × Bool := if v < lo then (lo, true) else if hi < v then (hi, true) else (v, false)

/-- INT32 limits (06 R271). -/
def int32Min : Int := -2147483648
def int32Max : Int := 2147483647

/-- XC24 limits (06 R259). -/
def xc24Min : Int := -8388608
def xc24Max : Int := 8388607

/-- A number in XC24 units rounded to XC24: the value and whether it saturated; NaN gives 0 (06 R282, 03 R110). -/
def Val.toXc24 (x : Val) (r : Draw := none) : Int × Bool :=
  match x with
  | .nan => (0, false)
  | .inf n => (if n then xc24Min else xc24Max, true)
  | y => clampInt xc24Min xc24Max (y.toInt r)

/-- Floating-point format of a format code, where it is one. -/
def floatFmtOf (fmt : Nat) : Option FloatFmt :=
  if fmt == fmtE4M3 then some e4m3Fmt
  else if fmt == fmtE5M2 then some e5m2Fmt
  else if fmt == fmtFp16 then some fp16Fmt
  else if fmt == fmtBf16 then some bf16Fmt
  else if fmt == fmtFp32 then some fp32Fmt
  else if fmt == fmtMxfp4 then some e2m1Fmt
  else none

/-- The value of an element of a format; an MXFP4 element without its block scale (06 R258 to R260). -/
def elementValue (fmt v : Nat) : Val :=
  match floatFmtOf fmt with
  | some f => f.decode v
  | none => if fmt == fmtUint8 then .ofInt v else .ofInt (signed (fmtBits fmt) v)

/-- An E8M0 scale byte (06 R265). -/
def scaleValue (e : Nat) : Val := if e == 0xFF then .nan else .fin false 1 ((e : Int) - 127)

/-- Element `i` of packed bytes, as its encoding (06 R264). -/
def elementAt (fmt : Nat) (bs : List Byte) (i : Nat) : Nat :=
  match fmtBits fmt with
  | 4 => bits (byteAt bs (i / 2)) (4 * (i % 2)) 4
  | b => leAt bs (i * (b / 8)) (b / 8)

/-- Bytes of `n` packed elements. -/
def packedBytes (fmt n : Nat) : Nat := (n * fmtBits fmt + 7) / 8

/-- Pack pairs of 4-bit encodings into bytes. -/
def packNibbles : List Nat → List Byte
  | [] => []
  | [a] => [BitVec.ofNat 8 a]
  | a :: b :: rest => BitVec.ofNat 8 (a + 16 * b) :: packNibbles rest

/-- Pack encodings of a format (06 R264). -/
def packElements (fmt : Nat) (vs : List Nat) : List Byte :=
  match fmtBits fmt with
  | 4 => packNibbles vs
  | b => vs.flatMap (toLe (b / 8))

end Sys2Proof.Machine
end

