-- ==== Sys2Proof/Machine/Transcend.lean ====
section
/-! DEFINITION. The functions of real numbers that 06 R292 and 03 R108 name, as integers in fixed point with far more places than FP32
has, and the choice of an FP32 result within a stated bound of the exact one. -/

namespace Sys2Proof.Machine

/-! ### Fixed point -/

/-- Places after the point. -/
def fixPlaces : Nat := 512

/-- One. -/
def fixOne : Int := 2 ^ fixPlaces

/-- Product and quotient. -/
def fixMul (a b : Int) : Int := a * b / fixOne
def fixDiv (a b : Int) : Int := if b == 0 then 0 else a * fixOne / b

/-- A finite number, cut to the places; an infinity or NaN as 0. -/
def fixOf : Val → Int
  | .fin n m e =>
    let k := e + fixPlaces
    let v : Int := if 0 ≤ k then (m : Int) * 2 ^ k.toNat else (m : Int) / 2 ^ (-k).toNat
    if n then -v else v
  | _ => 0

/-- The number that a fixed-point magnitude stands for, with a sign that zero has too. -/
def fixVal (neg : Bool) (v : Int) : Val := .fin neg v.natAbs (-(fixPlaces : Int))

/-! ### Series -/

/-- Sum of `n` terms, each made of the one before by `next`, from term number `k` on. -/
def series (next : Nat → Int → Int) : Nat → Nat → Int → Int
  | 0, _, _ => 0
  | n + 1, k, t => t + series next n (k + 1) (next k t)

/-- z + z³/3 + z⁵/5 + … when `plus`, else z − z³/3 + z⁵/5 − …, for |z| below 1/2: the inverse of tanh or of tan. -/
def inverseSeries (plus : Bool) (z : Int) : Int :=
  let q := if plus then fixMul z z else -fixMul z z
  let pows := fun (k : Nat) (t : Int) => fixMul (t * (2 * k + 1)) q / (2 * k + 3)
  series pows 260 0 z

/-- ln 2. -/
def fixLn2 : Int := 2 * inverseSeries true (fixOne / 3)

/-- π, by 16 arctan (1/5) − 4 arctan (1/239). -/
def fixPi : Int := 16 * inverseSeries false (fixOne / 5) - 4 * inverseSeries false (fixOne / 239)

/-- eˣ of 0 ≤ x < 1. -/
def expSmall (x : Int) : Int := series (fun k t => fixMul t x / (k + 1)) 120 0 fixOne

/-- eˣ; x is limited to ±300, beyond which FP32 results do not change. -/
def fixExp (x : Int) : Int :=
  let y := min (300 * fixOne) (max (-300 * fixOne) x)
  let n := y / fixLn2
  let r := expSmall (y - n * fixLn2)
  if 0 ≤ n then r * 2 ^ n.toNat else r / 2 ^ (-n).toNat

/-- ln of a positive number m · 2^e. -/
def fixLog (m : Nat) (e : Int) : Int :=
  let k := Nat.log2 m
  let v : Int := (m : Int) * 2 ^ fixPlaces / 2 ^ k
  let up := decide (4 * fixOne < 3 * v)
  let w := if up then v / 2 else v
  2 * inverseSeries true (fixDiv (w - fixOne) (w + fixOne)) + (e + k + if up then 1 else 0) * fixLn2

/-- Cosine when `even`, else sine, of an angle of at most a quarter turn, by its powers. -/
def trigSmall (even : Bool) (x : Int) : Int :=
  let q := fixMul x x
  let off := if even then 0 else 1
  series (fun k t => -fixMul t q / ((2 * k + 1 + off) * (2 * k + 2 + off))) 100 0 (if even then fixOne else x)

/-- Cosine, or sine, of any angle: of what is left of it after whole quarter turns. -/
def fixTrig (cosine : Bool) (x : Int) : Int :=
  let quarter := fixPi / 2
  let n := x / quarter
  let r := x - n * quarter
  let k := (n + if cosine then 1 else 0) % 4
  let v := trigSmall (k % 2 == 1) r
  if k < 2 then v else -v

/-- arctan of 0 ≤ r ≤ 1. -/
def fixAtan (r : Int) : Int :=
  if 5 * r < 2 * fixOne then inverseSeries false r
  else fixPi / 4 - inverseSeries false (fixDiv (fixOne - r) (fixOne + r))

/-- tanh of a magnitude. -/
def fixTanh (x : Int) : Int :=
  let e := fixExp (2 * min (100 * fixOne) x)
  fixDiv (e - fixOne) (e + fixOne)

/-- 1 / (1 + e^(−x)). -/
def fixSigmoid (x : Int) : Int := fixDiv fixOne (fixOne + fixExp (-x))

/-- The normal distribution function of x, limited to ±20: 1/2 + φ(x) · (x + x³/3 + x⁵/15 + …). -/
def fixPhi (x : Int) : Int :=
  let y := min (20 * fixOne) (max (-20 * fixOne) x)
  let q := fixMul y y
  let sum := series (fun k t => fixMul t q / (2 * k + 3)) 900 0 y
  let root : Int := isqrt (Nat.log2 (2 * fixPi * fixOne).natAbs / 2 + 1) (2 * fixPi * fixOne).natAbs
  fixOne / 2 + fixDiv (fixMul (fixExp (-q / 2)) sum) root

/-! ### Results within a bound -/

/-- The unit of the last place of FP32 at an exact result, subnormal range included (06 R292). -/
def ulpAt (exact : Int) : Int :=
  2 ^ (max (fixPlaces - 126) (Nat.log2 exact.natAbs) - 23)

/-- An encoding chosen freely, where it lies within a distance of the exact result and does not turn a zero's sign; else the correctly
rounded one (log entry 7). -/
def chooseNear (free : Nat) (neg : Bool) (exact dist : Int) : Val :=
  let best := fp32 (toFp32 (fixVal neg exact))
  let v := fp32 free
  if v.isFinite && best.isFinite && decide ((fixOf v - exact).natAbs ≤ dist.natAbs) && (!v.isZero || v.isNeg == neg) then v else best

/-- A result within `w` units of the last place of an exact one. -/
def withinUlps (w : Nat) (free : Nat) (neg : Bool) (exact : Int) : Val := chooseNear free neg exact (w * ulpAt exact)

/-- Cosine, or sine, of an angle in turns of 2^16 units, within one unit of the last place; exact in whole quarter turns (03 R108; log
entry 6). -/
def turnTrig (cosine : Bool) (free : Nat) (a : Val) : Val :=
  let units := fixOf a
  if !a.isFinite then .nan
  else if units % (16384 * fixOne) == 0 then
    match (units / (16384 * fixOne) + if cosine then 1 else 0) % 4 with
    | 1 => .fin false 1 0
    | 3 => .fin true 1 0
    | _ => .zero
  else
    let y := fixTrig cosine (fixMul (units / 65536) (2 * fixPi))
    withinUlps 1 free (decide (y < 0)) y

end Sys2Proof.Machine
end

