-- ==== Sys2Proof/Machine/Ulsal.lean ====
section
/-! DEFINITION. The Ulsal islands (15_safety.md): zones and the checker, evaluation, safety frames, the safe state, proofs. -/

namespace Sys2Proof.Machine

/-! ### Commit of the island's sets (R687) -/

/-- Entries of the set: zones 0 to 63, groups 64 to 127, streams 128 to 175, safety frames 176 to 183. -/
def ulsEntries : Nat := 184

/-- An entry takes the pending set. -/
def ulsTake (die e : Nat) : Act :=
  .get fun s => .when (s.on .I_ULS_WAIT die e) (.all [
    if e < 64 then takeRow .uls die 0xA1000 0xA3000 e
    else if e < 128 then takeRow .uls die 0xA3000 0xA4000 (e - 64)
    else if e < 176 then takeRow .uls die 0xA5000 0xA6000 (e - 128)
    else takeRow .uls die 0xA0100 0xA0300 (e - 176),
    .set .I_ULS_WAIT die e 0])

/-- An entry of the active set is in use, so that a commit waits for its boundary (00 R19). An engine group, which has no valid bit,
is in use when it names an engine (DEDUCED; log entry 165). -/
def State.ulsUsed (s : State) (die e : Nat) : Bool :=
  if e < 64 then s.acOn .ZN_VALID die e && s.ac .ZN_KIND die e != 3
  else if e < 128 then s.ac .PG_ENGINES_LO die (e - 64) != 0 || s.ac .PG_ENGINES_HI die (e - 64) != 0
  else if e < 176 then s.acOn .BS_EN die (e - 128)
  else s.acOn .SF_EN die (e - 176)

/-- Why a pending set is refused: the cause and its entry (R687). -/
def State.ulsRefusal (s : State) (die : Nat) : Option (Nat × Nat) :=
  let zn := fun f z => s.rd f die z
  let valid := fun z => s.on .ZN_VALID die z && zn .ZN_KIND z != 3
  let first := fun (p : Nat → Bool) n => (List.range n).find? p
  match first (fun z => valid z && decide (8 < zn .ZN_NVERT z)) 64 with
  | some z => some (1, z)
  | none =>
    match first (fun z => valid z && decide (64 < zn .ZN_K z ∨ 64 < zn .ZN_N z)) 64 with
    | some z => some (2, z)
    | none =>
      (first (fun b => s.on .BS_EN die b && decide (64 < zn .BS_PAT_N b ∨ 64 < zn .BS_PAT_IN b)) 48).map fun b => (3, b)

/-- A write to ULS_COMMIT (R687). -/
def ulsCommitAct (die : Nat) : Act :=
  .get fun s =>
    match s.ulsRefusal die with
    | some (cause, e) => .all [
        .set .ULS_STATUS_CFG_ERR die 0 1,
        .set .ULS_STATUS_ERR_ENTRY die 0 e,
        .set .ULS_STATUS_ERR_CAUSE die 0 cause,
        bellRing die 0x087]
    | none => .all [
        .set .ULS_STATUS_CFG_ERR die 0 0,
        snapshotSet .uls die fun _ => true,
        .upTo ulsEntries fun e => .seq (.set .I_ULS_WAIT die e 1) (.when (!s.ulsUsed die e) (ulsTake die e))]

/-- ULS_COMMIT. -/
def execUlsCommit (die : Nat) (s : State) : Host.Outcome State Fault Refusal :=
  (Act.when (s.dieThere die) (ulsCommitAct die)).done s

/-! ### Zones and the checker (R638 to R641) -/

/-- Vertices of a zone of the active set. -/
def State.zoneVerts (s : State) (die z : Nat) : List (Int × Int) :=
  (List.range (min (s.ac .ZN_NVERT die z) 8)).map fun v =>
    (signed 24 (s.ac .ZN_VX die (8 * z + v)), signed 24 (s.ac .ZN_VY die (8 * z + v)))

/-- The edge from `a` to `b` is crossed to the right of the point (R638). -/
def edgeCrossed (p a b : Int × Int) : Bool :=
  if decide (a.2 > p.2) != decide (b.2 > p.2) then
    let lhs := (p.1 - a.1) * (b.2 - a.2)
    let rhs := (b.1 - a.1) * (p.2 - a.2)
    decide (b.2 > a.2 ∧ lhs < rhs) || decide (b.2 < a.2 ∧ lhs > rhs)
  else false

/-- The point lies inside the polygon (R638). -/
def insidePolygon (p : Int × Int) (vs : List (Int × Int)) : Bool :=
  (vs.zip (vs.drop 1 ++ vs.take 1)).foldl (fun c e => xor c (edgeCrossed p e.1 e.2)) false

/-- The point lies inside a zone's prism (R638). -/
def State.insideZone (s : State) (die z : Nat) (x y h : Int) : Bool :=
  decide (signed 24 (s.ac .ZN_ZLO die z) ≤ h) && decide (h < signed 24 (s.ac .ZN_ZHI die z)) &&
  decide (3 ≤ s.ac .ZN_NVERT die z) && insidePolygon (x, y) (s.zoneVerts die z)

/-- The zone is in use (R637). -/
def State.zoneValid (s : State) (die z : Nat) : Bool := s.acOn .ZN_VALID die z && s.ac .ZN_KIND die z != 3

/-- A stream feeds a zone in use. -/
def State.feeds (s : State) (die stream z : Nat) : Bool := s.zoneValid die z && bit (s.ac .ZN_STREAMS die z) stream

/-- Change a zone's open frame. -/
def Act.zone (die z : Nat) (f : ZoneFrame → ZoneFrame) : Act :=
  .aux fun a =>
    let k := die * 64 + z
    { a with zoneOpen := tableSet {} k (f (tableGet {} k a.zoneOpen)) a.zoneOpen }

/-- A zone's open frame. -/
def State.zoneFrame (s : State) (die z : Nat) : ZoneFrame := tableGet {} (die * 64 + z) s.aux.zoneOpen

/-- A zone's closed frame that has not been evaluated. -/
def State.zoneDue (s : State) (die z : Nat) : Option ZoneFrame :=
  (s.aux.zoneClosed.find? fun p => p.1 == die * 64 + z).map fun p => p.2

/-! ### The safe state (R671 to R682) -/

/-- The partition's work is safety work. -/
def State.safetyPart (s : State) (p : Nat) : Bool := s.acOn .PT_SAFETY 0 p

/-- Safety partitions, as a mask. -/
def State.safetyMask (s : State) : Nat := (List.range 8).foldl (fun m p => putBit m p (s.safetyPart p)) 0

/-- The partition is in the safe state. -/
def State.inSafe (s : State) (p : Nat) : Bool := bit (s.rd .I_SAFE 0) p

/-- Valid guard zones of a partition on a die (R675 PRESENT). -/
def State.guards (s : State) (die p : Nat) : List Nat :=
  (List.range 64).filter fun z => s.zoneValid die z && s.ac .ZN_KIND die z == 0 && s.ac .ZN_PARTITION die z == p

/-- Causes of the safe state (R678). -/
def causeMisses : Nat := 1
def causeDieFault : Nat := 2
def causeSelfCheck : Nat := 3
def causeHeartbeat : Nat := 4
def causeRequest : Nat := 5
def causeEscalation : Nat := 6

/-- Bit of a zone cause in ZN_STATUS_CAUSE (R645). -/
def zoneCause (b : Nat) : Nat := b - 8

/-- Partitions enter the safe state (R678, R679): their zones are NOT_CLEAR with SAFE. `die` is where the trigger was. -/
def enterSafe (die parts cause : Nat) : Act :=
  .get fun s =>
    let named := (List.range 8).filter (bit parts)
    .when (!named.isEmpty) (.all [
      .set .I_SAFE 0 0 (s.rd .I_SAFE 0 ||| parts),
      .each [0, die].dedup fun d => .all [
        .set .ULS_SAFE_CAUSE d 0 cause,
        .set .ULS_SAFE_PART d 0 (named.headD 0)],
      .each named fun p => .all [
        .set .I_SF_CAUSE 0 p cause,
        .each s.dieList fun d => .upTo 64 fun z =>
          .when (s.zoneValid d z && s.ac .ZN_PARTITION d z == p) (.all [
            .set .ZN_STATUS_CLEAR d z 0,
            .upd .ZN_STATUS_CAUSE d z fun v => putBit v (zoneCause 15) true,
            .set .I_ZN_FRESH d z 0])],
      bellRing die 0x084])

/-- A partition leaves the safe state when it is RUNNING, held by no REQUEST, and every guard zone has had its fresh evaluation
(R682). -/
def leaveSafe (p : Nat) : Act :=
  .get fun s =>
    let fresh := s.dieList.all fun d => (s.guards d p).all fun z => s.on .I_ZN_FRESH d z
    .when (s.inSafe p && s.running p && !bit (s.rd .I_SAFE_REQ 0) p && fresh) (.all [
      .upd .I_SAFE 0 0 fun v => putBit v p false,
      .set .I_SAFE_EXITED 0 0 1])

/-- ULS_SAFE_PARTS as a die reads it: the package's on die 0; elsewhere the partitions that own a valid zone of the die (log
entry 21). -/
def State.safeParts (s : State) (die : Nat) : Nat :=
  if die == 0 then s.rd .I_SAFE 0
  else s.rd .I_SAFE 0 &&& (List.range 64).foldl
    (fun m z => if s.zoneValid die z then putBit m (s.ac .ZN_PARTITION die z) true else m) 0

/-- A write to ULS_SAFE_REQ (R678). -/
def safeReqAct (die mask : Nat) : Act :=
  .seq (.upd .I_SAFE_REQ 0 0 (· ||| mask)) (enterSafe die mask causeRequest)

/-- A write to ULS_SAFE_REL (R678). -/
def safeRelAct (mask : Nat) : Act :=
  .seq (.upd .I_SAFE_REQ 0 0 fun v => v - (v &&& mask)) (.upTo 8 fun p => .when (bit mask p) (leaveSafe p))

/-- ULS_SAFE_REQ. -/
def execUlsSafeReq (die mask : Nat) (s : State) : Host.Outcome State Fault Refusal :=
  (Act.when (s.dieThere die) (safeReqAct die mask)).done s

/-- ULS_SAFE_REL. -/
def execUlsSafeRel (die mask : Nat) (s : State) : Host.Outcome State Fault Refusal :=
  (Act.when (s.dieThere die) (safeRelAct mask)).done s

/-- The islands run: not in SLEEP, not stopped by a thermal trip, not held in cold reset (18 R751, R763, R778). -/
def State.islandsRun (s : State) : Bool := s.rd .PKG_STATE 0 != 2 && !s.on .I_TRIPPED 0 && !s.on .I_HELD_COLD 0

/-- A heartbeat of the die is missing: the island's for 1 ms, or the Keeper's for 10 ms (R672). -/
def State.beatMissing (s : State) (die : Nat) : Bool :=
  s.islandsRun &&
  (decide (s.rd .I_HEARTBEAT die + 1000 * ticksPerUs ≤ s.ticks) || decide (s.rd .I_KEEPER_BEAT die + 10000 * ticksPerUs ≤ s.ticks))

/-- A safety partition is in the safe state. -/
def State.safetySafe (s : State) : Bool := (List.range 8).any fun p => s.safetyPart p && s.inSafe p

/-- The pins toggle (R671, R673, 18 R753, R763). -/
def State.alive (s : State) : Bool :=
  s.islandsRun && s.on .I_SAFE_EXITED 0 && !s.safetySafe && s.dieList.all fun d => !decide (s.rd .I_HEARTBEAT d + 1000 * ticksPerUs ≤ s.ticks)

/-- ALIVE_TOGGLE: a 1 ms instant of die 0's island (R671, R673). -/
def execAliveToggle (s : State) : Host.Outcome State Fault Refusal :=
  (if s.alive then
    Act.all [.set .I_ALIVE_A 0 0 (b2n (!s.on .I_ALIVE_A 0)), .set .I_ALIVE_B 0 0 (s.rd .I_ALIVE_A 0)]
  else .seq (Act.set .I_ALIVE_A 0 0 0) (.set .I_ALIVE_B 0 0 0)).done s

/-- ISLAND_HEARTBEAT (R672). -/
def execIslandHeartbeat (die : Nat) (s : State) : Host.Outcome State Fault Refusal :=
  (Act.when (s.dieThere die) (.set .I_HEARTBEAT die 0 s.ticks)).done s

/-- A Keeper beat (R672). -/
def keeperBeatAct (die : Nat) : Act := .get fun s => .set .I_KEEPER_BEAT die 0 s.ticks

/-- KEEPER_BEAT. -/
def execKeeperBeat (die : Nat) (s : State) : Host.Outcome State Fault Refusal :=
  (Act.when (s.dieThere die) (keeperBeatAct die)).done s

/-- HEARTBEAT_MISSING: every safety partition enters the safe state, and the package restarts warm (R672, R678). -/
def execHeartbeatMissing (die : Nat) (s : State) : Host.Outcome State Fault Refusal :=
  (Act.when (s.dieThere die && s.on .I_IMAGE_RUNS 0 && s.beatMissing die)
    (.seq (enterSafe die s.safetyMask causeHeartbeat) requestWarmRestart)).done s

/-- PARTITION_RESTART_TIMEOUT: a partition not RUNNING 300 ms after its trigger escalates to a package warm restart (R678, R681). -/
def execPartitionRestartTimeout (part : Nat) (s : State) : Host.Outcome State Fault Refusal :=
  (Act.when (s.on .I_RESTART_PART 0 part && !s.running part &&
      decide (s.rd .I_RESTART_PART_AT 0 part + 300000 * ticksPerUs ≤ s.ticks))
    (.seq (enterSafe 0 s.safetyMask causeEscalation) requestWarmRestart)).done s

/-- WARM_RESTART_TIMEOUT: a warm restart not complete 900 ms after its trigger escalates to a cold start (R678, R681). -/
def execWarmRestartTimeout (s : State) : Host.Outcome State Fault Refusal :=
  (Act.when (s.on .I_RESTART_WARM 0 && decide (s.rd .I_RESTART_WARM_AT 0 + 900000 * ticksPerUs ≤ s.ticks))
    (.seq (enterSafe 0 s.safetyMask causeEscalation) requestColdStart)).done s

/-- A die fault: every safety partition with cores on the die enters the safe state, and the package restarts warm (R678); on a die
without one, every partition whose selected variant uses the die restarts (13 R601; log entry 161). -/
def dieFault (die : Nat) : Act :=
  .get fun s =>
    let onDie := (List.range 8).filter fun p => s.safetyPart p &&
      (List.range 32).any fun l => s.on .HG_VALID die l && s.rd .HG_PART die l == p
    if onDie.isEmpty then .each ((List.range 8).filter fun p => (s.variantOf p).any fun v => v.dies.any fun d => d.die == die)
      requestPartRestart
    else .seq (enterSafe die (onDie.foldl (fun m p => putBit m p true) 0) causeDieFault) requestWarmRestart

/-! ### Points and seals at the checker (R639 to R641, R645) -/

/-- A point of a stream reaches the checker: both channels of every zone that the stream feeds count it when it lies inside, and
the reference count of the stream does (R639, R640, R653). -/
def presentPoint (die stream : Nat) (x y h : Int) : Act :=
  .get fun s =>
    let hit := (List.range 64).filter fun z => s.feeds die stream z && s.insideZone die z x y h
    .all [
      .each (hit.filter fun z => s.ac .ZN_KIND die z != 2) fun z => .zone die z fun f => { f with a := f.a + 1, b := f.b + 1 },
      .when (hit.any fun z => s.ac .ZN_KIND die z == 2 && z == s.ac .BS_REF die stream) (.inc .I_BS_REF die stream),
      .get fun t => .when (hit.any fun z => (t.zoneFrame die z).a != (t.zoneFrame die z).b)
        (.seq (enterSafe die t.safetyMask causeSelfCheck) requestWarmRestart)]

/-- A seal of a stream reaches the checker: its losses mark the zone frames that it feeds, and the zone frames that it leads close
(R641, R645). -/
def presentSeal (die stream seq losses flags quality : Nat) : Act :=
  .get fun s => .all [
    .upTo 64 fun z => .when (s.feeds die stream z && (decide (s.ac .ZN_LOSS_MAX die z < losses) || bit flags frameEmpty ||
        bit flags frameWriteErr || bit quality 3)) (.zone die z fun f => { f with sensor := true }),
    .upTo 64 fun z => .when (s.zoneValid die z && s.ac .ZN_KIND die z != 2 && s.ac .ZN_LEAD die z == stream) (
      .aux fun a =>
        let k := die * 64 + z
        { a with
          zoneClosed := (k, { tableGet {} k a.zoneOpen with fseq := seq }) :: a.zoneClosed.filter fun p => p.1 != k
          zoneOpen := tableSet {} k {} a.zoneOpen })]

/-! ### Safety frames (R674 to R677) -/

/-- STATE of a partition's frames (R677). -/
def State.frameState (s : State) (p : Nat) : Nat :=
  if !s.inSafe p then 1 else if s.running p && !bit (s.rd .I_SAFE_REQ 0) p then 3 else 2

/-- The 60 bytes of a safety frame before its CRC (R675). -/
def State.safetyFrame (s : State) (die p : Nat) : List Byte :=
  let guards := s.guards die p
  let now := s.now die
  let clear := guards.filter fun z => s.on .ZN_STATUS_CLEAR die z &&
    decide (now ≤ s.rd .I_ZN_LAST_EVAL die z + s.ac .ZN_FTTI_MS die z * 1000000)
  let mask := fun (zs : List Nat) => zs.foldl (fun m z => putBit m z true) 0
  let st := s.frameState p
  toLe 2 0x5358 ++ toLe 1 1 ++ toLe 1 st ++ toLe 4 (s.ac .SF_CONN_ID die p) ++ toLe 8 (s.rd .SF_SEQ die p) ++
  toLe 4 (s.rd .PT_EPOCH 0 p) ++ toLe 4 0 ++ toLe 8 now ++ toLe 8 (if st == 1 then mask clear else 0) ++ toLe 8 (mask guards) ++
  toLe 1 (s.rd .I_SF_CAUSE 0 p) ++ toLe 1 die ++ toLe 1 p ++
  toLe 1 (bitIf (!s.on .I_SF_EVAL die p) 0 + bitIf (s.sync != 1) 1) ++ toLe 8 0

/-- A safety frame of a partition leaves the die, or is lost (R674, R745, R795). -/
def sendSafetyFrame (die p : Nat) : Act :=
  .seq (ulsTake die (176 + p)) (.get fun s =>
    .when (s.acOn .SF_EN die p) (
      let body := s.safetyFrame die p
      let frame := body ++ toLe 4 (crc32cFrom (s.ac .SF_CRC_SEED die p) body)
      let port := s.ac .SF_PORT die p
      let v6 := s.acOn .SF_IPV6 die p
      let peer := s.addr4 .SF_PEER_ADDR die p
      .all [
        .set .SF_SEQ die p (s.rd .SF_SEQ die p + 1),
        .set .I_SF_EVAL die p 0,
        .set .I_SF_TICK die p s.ticks,
        .when (s.canSend die port v6 peer) (.datagram die port v6
          (if s.acOn .SF_VLAN_EN die p then some (s.ac .SF_VLAN_ID die p) else none) peer (s.ac .SF_UDP_LOCAL die p)
          (s.ac .SF_UDP_PEER die p) frame)]))

/-- SAFETY_HEARTBEAT_FRAME: SF_HEARTBEAT_MS has passed without a frame (R674). -/
def execSafetyHeartbeatFrame (die part : Nat) (s : State) : Host.Outcome State Fault Refusal :=
  let ms := s.ac .SF_HEARTBEAT_MS die part
  (Act.when (s.dieThere die && s.islandsRun && s.acOn .SF_EN die part && ms != 0 && s.rd .SEC_STATE 0 != 3 &&
      decide (s.rd .I_SF_TICK die part + ms * 1000 * ticksPerUs ≤ s.ticks)) (sendSafetyFrame die part)).done s

/-! ### Proofs (R657 to R663) -/

/-- Engines of a group. -/
def State.groupEngines (s : State) (die g : Nat) : List Nat :=
  (List.range 128).filter fun n =>
    if n < 64 then bit (s.ac .PG_ENGINES_LO die g) n else bit (s.ac .PG_ENGINES_HI die g) (n - 64)

/-- A proof of a group is requested; `model` numbers a request under R650 (R650, R657, R663). -/
def requestProof (die g model : Nat) : Act :=
  .seq (ulsTake die (64 + g)) (.get fun s =>
    let engines := (s.groupEngines die g).filter fun n => s.enabled die (n / 4) (n % 4) && !s.fencedEngine die (n / 4) (n % 4)
    let merged := engines.filter fun n => s.on .I_PRF_REQ die n
    let fresh := engines.filter fun n => !s.on .I_PRF_REQ die n
    let cores := (List.range 32).filter fun c => fresh.any fun n => n / 4 == c
    .all [
      .each merged fun n => .incSat .PRF_MERGED die n,
      .each fresh fun n => .set .I_PRF_REQ die n 1,
      .aux fun a => { a with proofs := a.proofs ++ cores.map fun c =>
        { die := die, core := c, group := g, engines := (fresh.filter fun n => n / 4 == c).map fun n => n % 4, tick := s.ticks,
          model := model } }])

/-- The proof of a core that waits for its list to start. -/
def State.proofOf (s : State) (die core : Nat) (p : Proof → Bool) : Option Proof :=
  s.aux.proofs.find? fun q => q.die == die && q.core == core && p q

/-- Remove a proof, or change it. -/
def Act.proof (q : Proof) (f : Proof → Option Proof) : Act :=
  .aux fun a => { a with proofs := a.proofs.filterMap fun p => if p == q then f p else some p }

/-- PROOF_LIST_START: the list starts in context 0 once it is idle (R657, R658). -/
def execProofListStart (die core : Nat) (s : State) : Host.Outcome State Fault Refusal :=
  (match s.proofOf die core fun q => q.state == 0 with
   | none => Act.nop
   | some q =>
     Act.when (s.dieThere die && s.ctxFree die core 0 && !s.aux.proofs.any fun p => p.die == die && p.core == core && p.state != 0)
       (.seq (.proof q fun p => some { p with state := 1 })
         (enterList die core 0 (s.ac .PG_LIST die q.group) 0 (s.ac .PG_PARTITION die q.group) true (engineMask q.engines) .proof))).done s

/-- PROOF_SLACK_EXPIRY: a list not started PG_SLACK_US after its request is withdrawn (R660). -/
def execProofSlackExpiry (die core : Nat) (s : State) : Host.Outcome State Fault Refusal :=
  (match s.proofOf die core fun q =>
      q.state == 0 && decide (q.tick + s.ac .PG_SLACK_US die q.group * ticksPerUs ≤ s.ticks) with
   | none => Act.nop
   | some q => .all [
       .proof q fun _ => none,
       .each q.engines fun e => .seq (.set .I_PRF_REQ die (dieEngine core e) 0) (.incSat .PRF_MISSED die (dieEngine core e)),
       .when (q.model != 0) (.aux fun a => { a with modelFails := q.model :: a.modelFails }),
       bellRing die 0x082]).done s

/-- The golden comparison of one engine: its output rows have the golden CRC (R661, R662). -/
def proofPasses (die : Nat) (q : Proof) (e : Nat) (k : Bool → Act) : Act :=
  .get fun s =>
    let len := s.ac .PG_ROWS die q.group * 256
    if q.state == 3 then k false
    else (readStore die q.core (s.ac .PG_OUT die q.group + e * len) len).then fun r =>
      match r with
      | .ok bs => k (crc32c bs == s.ac .PG_GOLDEN die q.group)
      | .error _ => k false

/-- An engine fails its proof, and is fenced (R662). -/
def failProof (die : Nat) (q : Proof) (e detail : Nat) : Act :=
  .all [
    .set .PRF_STATE die (dieEngine q.core e) 2,
    .when (q.model != 0) (.aux fun a => { a with modelFails := q.model :: a.modelFails }),
    bellRing die 0x081,
    fenceEngine die q.core e detail]

/-- An engine fault while a proof of the engine runs fails that proof; the proof's other engines go on (16 R706). -/
def faultInProof (die : Nat) (q : Proof) (e detail : Nat) : Act :=
  .all [
    .proof q fun p => some { p with engines := p.engines.erase e },
    .set .I_PRF_REQ die (dieEngine q.core e) 0,
    failProof die q e detail]

/-- One engine's proof ends (R661, R662). -/
def endProof (die : Nat) (q : Proof) (e : Nat) : Act :=
  let n := dieEngine q.core e
  proofPasses die q e fun ok =>
    .get fun s => .seq (.set .I_PRF_REQ die n 0)
      (if ok then .all [
        .when (s.unproven die n) (.set .I_PRF_SINCE die n (s.now die)),
        .set .PRF_LAST die n (s.now die),
        .set .PRF_STATE die n 1,
        .incSat .PRF_PASSES die n]
      else failProof die q e 0)

/-- PROOF_RESULT: the list of a core's proof has ended or stopped, and its engines are judged; when every engine of a request under
R650 has passed, the disagreement is the model's (R651, R661, R662). -/
def execProofResult (die core : Nat) (s : State) : Host.Outcome State Fault Refusal :=
  (match s.proofOf die core fun q => decide (2 ≤ q.state) with
   | none => Act.nop
   | some q => .all [
       .each q.engines fun e => endProof die q e,
       .proof q fun _ => none,
       .get fun t =>
         .when (q.model != 0 && !t.aux.proofs.any fun p => p.model == q.model)
           (if t.aux.modelFails.contains q.model then
             .aux fun a => { a with modelFails := a.modelFails.filter fun m => m != q.model }
           else .seq (.inc .ULS_MODEL_DISAGREE die) (bellRing die 0x083))]).done s

/-! ### Evaluation (R644 to R652) -/

/-- A blind-sector check of a stream fails (R654). -/
def failCheck (die b check why : Nat) : Act :=
  .all [
    .upd .I_BS_FAILED die b (max check),
    .set .BS_STATE_OK die b 0,
    .set .BS_STATE_WHY die b why,
    .inc .BS_FAILS die b,
    bellRing die 0x080]

/-- A blind-sector check passes its three tests: an outstanding failure of an earlier check ends (R654). -/
def passCheck (die b check : Nat) : Act :=
  .get fun s => .when (decide (s.rd .I_BS_FAILED die b ≤ check)) (.seq (.set .I_BS_FAILED die b 0) (.set .BS_STATE_OK die b 1))

/-- The network tests of the checks whose patterns a zone frame holds are decided with its evaluation (R653, R654). -/
def decideNetTests (die : Nat) (fr : ZoneFrame) (net : Bool) : Act :=
  .each (fr.injected.filter Injection.undecided).reverse fun q =>
    if net then passCheck die q.stream q.check else failCheck die q.stream q.check 3

/-- Causes of an evaluation, bit 0 for CHECKER (R645). -/
def State.zoneCauses (s : State) (die z : Nat) (due : Option ZoneFrame) (late : Bool) : Nat :=
  let checker := match due with
    | some f => decide (s.ac .ZN_THRESH die z ≤ f.a)
    | none => s.ac .ZN_THRESH die z == 0
  let named := match due with
    | some f => s.rd .ZN_NET_FSEQ die z == f.fseq % 65536
    | none => false
  let req := s.ac .ZN_TIME_REQ die z
  let timeBad := if req == 0 then false else if req == 1 then !(s.sync == 1 || s.sync == 2) else s.sync != 1
  let blind := (List.range 48).any fun b => bit (s.ac .ZN_STREAMS die z) b && s.on .I_BS_FAILED die b
  bitIf checker 0 + bitIf (named && s.on .ZN_NET_OCCUPIED die z) 1 + bitIf (!named || late) 2 +
  bitIf ((s.groupEngines die (s.ac .ZN_GROUP die z)).any fun n => s.unproven die n) 3 +
  bitIf (blind || due.any ZoneFrame.sensor) 4 + bitIf timeBad 5 + bitIf due.isNone 6 +
  bitIf (s.inSafe (s.ac .ZN_PARTITION die z)) 7

/-- ZN_HIST after an evaluation, and whether a proof is requested (R650). -/
def histNext (hist k n : Nat) (dis : Bool) : Nat × Bool :=
  let h := (2 * hist + b2n dis) % 2 ^ 64
  let set := ((List.range (min n 64)).filter (bit h)).length
  if k != 0 && n != 0 && decide (k ≤ set) then (0, true) else (h, false)

/-- A deadline evaluates the zone: a guard zone always, a test zone when its newest zone frame holds an injection (R647). -/
def State.zoneEvaluates (s : State) (die z : Nat) : Bool :=
  let kind := s.ac .ZN_KIND die z
  s.zoneValid die z && kind != 2 && (kind == 0 || (s.zoneDue die z).any fun f => !f.injected.isEmpty)

/-- One zone is evaluated, with its committed fields (R644, R645, R649 to R653). -/
def evaluateZone (die z : Nat) (late : Bool) : Act :=
  .get fun s0 => .when (s0.zoneEvaluates die z) (.seq (ulsTake die z) (.get fun s =>
    let due := s.zoneDue die z
    let kind := s.ac .ZN_KIND die z
    let p := s.ac .ZN_PARTITION die z
    .when (s.zoneEvaluates die z) (
      let causes := s.zoneCauses die z due late
      let named := match due with
        | some f => s.rd .ZN_NET_FSEQ die z == f.fseq % 65536
        | none => false
      let dis := named && (bit causes 1 != bit causes 0)
      let hist := histNext (s.rd .ZN_HIST die z) (s.ac .ZN_K die z) (s.ac .ZN_N die z) dis
      let noNet := bit causes 2
      let misses := if noNet then min (s.rd .ZN_MISSES die z + 1) 255 else 0
      let limit := s.ac .ZN_MISS_LIMIT die z
      .all [
        .aux fun a => { a with zoneClosed := a.zoneClosed.filter fun q => q.1 != die * 64 + z },
        .inc .ULS_EVALS die,
        .when dis (.inc .ULS_DISAGREE die),
        .set .ZN_HIST die z hist.1,
        .set .ZN_MISSES die z misses,
        .set .ZN_STATUS_CLEAR die z (b2n (causes == 0)),
        .set .ZN_STATUS_DISAGREE die z (b2n dis),
        .set .ZN_STATUS_CAUSE die z causes,
        .set .I_ZN_LAST_EVAL die z (s.now die),
        .when (causes == 0) (.set .ZN_LAST_CLEAR die z (s.now die)),
        (match due with
         | some f => .all [
             .set .ZN_COUNT die z f.a,
             .set .ZN_FSEQ die z f.fseq,
             .when (kind == 1) (decideNetTests die f (bit causes 1))]
         | none => .nop),
        .when noNet (bellRing die 0x086),
        .when hist.2 (takeOrd fun model => requestProof die (s.ac .ZN_GROUP die z) model),
        .when (kind == 0) (.seq (.set .I_SF_EVAL die p 1)
          (.when (causes &&& 0x7C == 0) (.seq (.set .I_ZN_FRESH die z 1) (leaveSafe p)))),
        .when (noNet && limit != 0 && misses == limit)
          (.seq (enterSafe die (2 ^ p) causeMisses) (requestPartRestart p))])))

/-- Zones of a die that a trigger's deadline evaluates. -/
def State.zonesOf (s : State) (die trigDie t : Nat) : List Nat :=
  (List.range 64).filter fun z =>
    s.zoneValid die z && s.ac .ZN_KIND die z != 2 && s.ac .ZN_TRIG die z == t && s.ac .ZN_TRIG_DIE die z == trigDie

/-- A publish-deadline event of a trigger evaluates the zones that name it, on every die, and safety frames follow (R644, R674). -/
def evaluateTrigger (trigDie t : Nat) (late : Bool) : Act :=
  .get fun s => .each s.dieList fun d =>
    let zs := s.zonesOf d trigDie t
    let parts := ((zs.filter fun z => s.ac .ZN_KIND d z == 0).map fun z => s.ac .ZN_PARTITION d z).dedup
    .seq (.each zs fun z => evaluateZone d z late) (.each parts fun p => sendSafetyFrame d p)

/-- The check of a publish-deadline event finds the trigger's job late (13 R580 to R582). -/
def State.deadlineLate (s : State) (die t time : Nat) : Bool :=
  match s.toCheck die t time with
  | none => false
  | some (_, _, standing) => !standing

/-! ### The network's verdict -/

/-- A write of a zone's ZN_NET with a transit tag; none is the Keeper's and the units' (R643). -/
def znNetAct (die z value : Nat) (tag : Option (Nat × Bool)) : Act :=
  .get fun s =>
    let ok := match tag with
      | some (p, safety) => safety && p == s.ac .ZN_PARTITION die z
      | none => false
    if ok then .seq (.set .ZN_NET_FSEQ die z (bits value 0 16)) (.set .ZN_NET_OCCUPIED die z (bits value 16 1))
    else .inc .ULS_NET_BAD die

/-- ZN_NET_WRITE (R643). -/
def execZnNetWrite (who : Requester) (die zone value : Nat) (s : State) : Host.Outcome State Fault Refusal :=
  (Act.when (s.dieThere die) (znNetAct die zone value (s.tagOf who))).done s

end Sys2Proof.Machine
end

