-- ==== Sys2Proof/Machine/Ingest.lean ====
section
/-! DEFINITION. Ingest (03_ingest.md): receive and classification, decode and correction, frames, seals and buffers, commit. -/

namespace Sys2Proof.Machine

/-! ### Receive and classification (R93 to R98, 19 R792) -/

/-- A UDP datagram as classification sees it. -/
structure Datagram where
  v6 : Bool
  vlan : Option Nat
  src : Nat
  dst : Nat
  sport : Nat
  dport : Nat
  payload : List Byte
deriving DecidableEq, Repr

/-- What classification makes of a frame. -/
inductive RxClass
  /-- Discarded under R94. -/
  | bad
  /-- Discarded before classification (19 R792). -/
  | foreign
  /-- A PTP message (R98). -/
  | ptp
  /-- For the Keeper's queue. -/
  | other
  /-- A UDP datagram that may match a stream. -/
  | udp (d : Datagram)
deriving DecidableEq, Repr

/-- A ones' complement sum is right: it folds to all ones. -/
def checksumOk (sum : Nat) : Bool := sum != 0 && sum % 65535 == 0

/-- UDP within an IP payload (R94, R95, R98). `pseudo` is the sum of the pseudo-header without the length. Over IPv6 a checksum
field of 0 is no exception: the sum alone judges it (DEDUCED; log entry 155). -/
def parseUdp (v6 : Bool) (vlan : Option Nat) (src dst : Nat) (pseudo : Nat) (ip : List Byte) : RxClass :=
  let len := beAt ip 4 2
  let udp := ip.take len
  if ip.length < 8 || len < 8 || decide (ip.length < len) then .bad
  else if !(beAt ip 6 2 == 0 && !v6) && !checksumOk (pseudo + len + wordSum udp) then .bad
  else if beAt ip 2 2 == 319 || beAt ip 2 2 == 320 then .ptp
  else .udp ⟨v6, vlan, src, dst, beAt ip 0 2, beAt ip 2 2, udp.drop 8⟩

/-- An address that a port's IP layer passes on (19 R792). -/
def State.ipForPort (s : State) (die port : Nat) (v6 : Bool) (dst : Nat) : Bool :=
  match s.portEntry die port with
  | none => false
  | some p =>
    if v6 then dst / 2 ^ 120 == 0xFF || dst == linkLocal (s.macOf die port) || bit p.flags 3 && dst == p.ipv6
    else dst / 2 ^ 28 == 0xE || dst == 0xFFFFFFFF || bit p.flags 2 && (dst == p.ipv4 ||
      dst == p.ipv4 / 2 ^ (32 - p.prefix4) * 2 ^ (32 - p.prefix4) + (2 ^ (32 - p.prefix4) - 1))

/-- An IPv4 packet (R94). A fragment, or a wrong header checksum, is found before the address is looked at, and so counts in
ING_RX_BAD also for an address that is not the port's (19 R792; DEDUCED; log entry 156). -/
def State.parseV4 (s : State) (die port : Nat) (vlan : Option Nat) (ip : List Byte) : RxClass :=
  let hdr := 4 * bits (byteAt ip 0) 0 4
  let total := beAt ip 2 2
  let src := beAt ip 12 4
  let dst := beAt ip 16 4
  if ip.length < 20 || hdr < 20 || decide (ip.length < hdr) || total < hdr || decide (ip.length < total) then .bad
  else if beAt ip 6 2 % 0x4000 != 0 then .bad
  else if !checksumOk (wordSum (ip.take hdr)) then .bad
  else if !s.ipForPort die port false dst then .foreign
  else if byteAt ip 9 != 17 then .other
  else parseUdp false vlan src dst (wordSum (toBe 4 src ++ toBe 4 dst) + 17) ((ip.take total).drop hdr)

/-- An IPv6 packet (R94, R95). -/
def State.parseV6 (s : State) (die port : Nat) (vlan : Option Nat) (ip : List Byte) : RxClass :=
  let len := beAt ip 4 2
  let src := beAt ip 8 16
  let dst := beAt ip 24 16
  if ip.length < 40 || decide (ip.length - 40 < len) then .bad
  else if !s.ipForPort die port true dst then .foreign
  else if byteAt ip 6 != 17 then .other
  else parseUdp true vlan src dst (wordSum (toBe 16 src ++ toBe 16 dst) + 17) ((ip.drop 40).take len)

/-- The frame's destination is the port's own MAC address, or a group address (19 R792). -/
def State.macForPort (s : State) (die port : Nat) (frame : List Byte) : Bool :=
  beAt frame 0 6 == s.macOf die port || bit (byteAt frame 0) 0

/-- Classification of a frame without its FCS, after MACsec validation (R93 to R98; log entry 22). -/
def State.classify (s : State) (die port : Nat) (frame : List Byte) : RxClass :=
  let tagged := beAt frame 12 2 == 0x8100
  let vlan := if tagged then some (beAt frame 14 2 % 4096) else none
  let at_ := if tagged then 18 else 14
  let etype := beAt frame (at_ - 2) 2
  if !s.macForPort die port frame then .foreign
  else if 9216 < frame.length + 4 || frame.length < at_ then .bad
  else if etype == 0x88F7 then .ptp
  else if etype == 0x0800 then s.parseV4 die port vlan (frame.drop at_)
  else if etype == 0x86DD then s.parseV6 die port vlan (frame.drop at_)
  else .other

/-- Stream-table entry in use: valid and of a kind that R100 names. -/
def State.streamUsed (s : State) (die i : Nat) : Bool := s.acOn .SE_VALID die i && s.ac .SE_KIND die i != 3

/-- A datagram matches an entry (R96). -/
def State.matches (s : State) (die port i : Nat) (d : Datagram) : Bool :=
  s.streamUsed die i && s.ac .SE_PORT die i == port && s.acOn .SE_IPV6 die i == d.v6 && s.addr4 .SE_SRC_ADDR die i == d.src &&
  s.ac .SE_UDP_DST die i == d.dport &&
  (if s.acOn .SE_VLAN_EN die i then d.vlan == some (s.ac .SE_VLAN_ID die i) else d.vlan.isNone) &&
  (!s.acOn .SE_SRCPORT_EN die i || s.ac .SE_UDP_SRC die i == d.sport)

/-- The entry that takes a datagram: the lowest that matches (R97). -/
def State.streamOf (s : State) (die port : Nat) (d : Datagram) : Option Nat := (List.range 48).find? fun i => s.matches die port i d

/-! ### Templates (R101 to R111) -/

/-- A template field of the set that an entry acts on: the committed set once the entry has taken it (R148, R150). -/
def State.tpl (s : State) (die entry : Nat) (f : Fld) (i : Nat) : Nat :=
  if s.on .ING_STATUS_COMMIT_PENDING die && s.on .I_SC_TAKEN die entry then s.reg .pend f die i else s.ac f die i

/-- The template of a point entry. -/
structure Template where
  polar : Bool
  timeSrc : Nat
  hdrLen : Nat
  blocks : Nat
  blockStride : Nat
  points : Nat
  pointStride : Nat
  blockHdr : Nat
  latency : Nat
  blockDt : Nat
  pointDt : Nat
  minRange : Nat
  fields : List (Nat × Nat)
deriving DecidableEq, Repr

/-- Read a template through a reader of its fields. -/
def readTemplate (g : Fld → Nat → Nat) (t : Nat) : Template :=
  { polar := g .TPL_GEOM t == 1, timeSrc := g .TPL_TIME_SRC t, hdrLen := g .TPL_HDR_LEN t, blocks := g .TPL_BLOCKS t,
    blockStride := g .TPL_BLOCK_STRIDE t, points := g .TPL_POINTS t, pointStride := g .TPL_POINT_STRIDE t,
    blockHdr := g .TPL_BLOCK_HDR t, latency := g .TPL_LATENCY_NS t, blockDt := g .TPL_BLOCK_DT_NS t,
    pointDt := g .TPL_POINT_DT_NS t, minRange := g .TPL_MIN_RANGE t,
    fields := (List.range 10).map fun f => (g .TPL_FIELD (10 * t + f), g .TPL_SCALE (10 * t + f)) }

/-- The template that an entry uses now. -/
def State.template (s : State) (die entry : Nat) : Template := readTemplate (s.tpl die entry) (s.ac .SE_TEMPLATE die entry)

/-- Parts of a field descriptor (R102). -/
def Template.desc (t : Template) (f : Nat) : Nat := (t.fields.getD f (0, 0)).1
def Template.scale (t : Template) (f : Nat) : Val := fp32 (t.fields.getD f (0, 0)).2
def Template.scope (t : Template) (f : Nat) : Nat := bits (t.desc f) 12 2
def Template.bytes (t : Template) (f : Nat) : Nat := bits (t.desc f) 14 2 + 1

/-- The field takes part in decoding (R111). -/
def Template.reads (t : Template) (f : Nat) : Bool :=
  t.scope f != 0 && (if f == 2 then !t.polar else if f == 6 || f == 7 then t.timeSrc == 1 else true)

/-- Offset of a field at block `b` and point `j` (R101, R102). -/
def Template.place (t : Template) (f b j : Nat) : Nat :=
  bits (t.desc f) 0 12 +
  match t.scope f with
  | 2 => t.hdrLen + b * t.blockStride
  | 3 => t.hdrLen + b * t.blockStride + t.blockHdr + j * t.pointStride
  | _ => 0

/-- Raw value of a field (R102). -/
def Template.raw (t : Template) (payload : List Byte) (f b j : Nat) : Int :=
  let n := t.bytes f
  let v := if bit (t.desc f) 17 then beAt payload (t.place f b j) n else leAt payload (t.place f b j) n
  if bit (t.desc f) 16 then signed (8 * n) v else v

/-- A field times its scale, exactly. -/
def Template.scaled (t : Template) (payload : List Byte) (f b j : Nat) : Val := (Val.ofInt (t.raw payload f b j)).mul (t.scale f)

/-- Bytes that the template reads of a packet (R111, R833). -/
def Template.need (t : Template) : Nat :=
  (List.range 10).foldl (fun m f =>
    if !t.reads f then m
    else if 6 ≤ f then max m (t.place f 0 0 + t.bytes f)
    else if t.blocks == 0 || t.points == 0 then m
    else max m (t.place f (t.blocks - 1) (t.points - 1) + t.bytes f)) 0

/-- The packet's phase for azimuth masters; none when it moves no master (R71, R106). -/
def Template.phase (t : Template) (payload : List Byte) : Option Nat :=
  if t.scope 9 == 0 || payload.length < t.place 9 0 0 + t.bytes 9 then none
  else
    let p := t.scaled payload 9 0 0
    if p.isFinite then some (encode 16 p.toInt) else none

/-- Packet time (R832). -/
def Template.packetTime (t : Template) (payload : List Byte) (stamp : Nat) : Int :=
  if t.timeSrc != 1 then (stamp : Int) - t.latency
  else
    let sub := (t.scaled payload 7 0 0).toInt
    if t.reads 6 then t.raw payload 6 0 0 * 1000000000 + sub
    else
      let r := sub % 1000000000
      let base := (stamp : Int) - (stamp % 1000000000 : Nat) + r
      let d := base - stamp
      if d > 500000000 then base - 1000000000 else if d < -500000000 then base + 1000000000 else base

/-- Time of a point (R104). -/
def Template.pointTime (t : Template) (payload : List Byte) (packetTime : Int) (b j : Nat) : Int :=
  packetTime + (if t.reads 5 then (t.scaled payload 5 b j).toInt else 0) + b * t.blockDt + j * t.pointDt

/-- Ring of a point (R105). -/
def Template.ring (t : Template) (payload : List Byte) (b j : Nat) : Nat :=
  if t.reads 4 then encode 8 (t.raw payload 4 b j) else j % 256

/-- Intensity of a point (R103). -/
def Template.intensity (t : Template) (payload : List Byte) (b j : Nat) : Nat :=
  if t.reads 3 then
    match t.scaled payload 3 b j with
    | .nan => 0
    | .inf n => if n then 0 else 255
    | v => (clampInt 0 255 v.toInt).1.toNat
  else 0

/-- Cosine and sine of an angle in 2⁻¹⁶ turn, within one unit of the last place (R108; log entry 6). -/
def cosOf (a : Val) : Val := turnTrig true (Config.cosTurn (BitVec.ofNat 32 (toFp32 a))).toNat a
def sinOf (a : Val) : Val := turnTrig false (Config.sinTurn (BitVec.ofNat 32 (toFp32 a))).toNat a

/-- Sum, difference and product rounded to FP32 (R110; the order of operations is log entry 23). -/
def addR (x y : Val) : Val := (x.add y).r32
def subR (x y : Val) : Val := (x.sub y).r32
def mulR (x y : Val) : Val := (x.mul y).r32

/-- A field scaled in FP32; an absent field gives 0. -/
def Template.coord (t : Template) (payload : List Byte) (f b j : Nat) : Val :=
  if t.reads f then (t.scaled payload f b j).r32 else .zero

/-- A point in the sensor frame, in XC24 units; none for a no-return (R107, R108). `beam` gives elevation and azimuth offset. -/
def Template.sensorPoint (t : Template) (payload : List Byte) (b j : Nat) (beam : Nat → Int × Int) : Option (Val × Val × Val) :=
  let r := t.coord payload 0 b j
  if t.polar then
    let k := beam (t.ring payload b j)
    let elev := Val.ofInt k.1
    let theta := addR (t.coord payload 1 b j) (.ofInt k.2)
    let flat := mulR r (cosOf elev)
    if r.lt (.ofInt t.minRange) || r.isNan then none
    else some (mulR flat (cosOf theta), mulR flat (sinOf theta), mulR r (sinOf elev))
  else some (r, t.coord payload 1 b j, t.coord payload 2 b j)

/-! ### Motion correction (R112 to R118) -/

/-- A rotation, as a quaternion, and a translation. -/
structure Pose where
  q : Val × Val × Val × Val
  t : Val × Val × Val
deriving DecidableEq, Repr

/-- A quaternion divided by its norm. -/
def normalise (q : Val × Val × Val × Val) : Val × Val × Val × Val :=
  let (w, x, y, z) := q
  let n := (addR (addR (addR (mulR w w) (mulR x x)) (mulR y y)) (mulR z z)).sqrt.r32
  ((w.div n).r32, (x.div n).r32, (y.div n).r32, (z.div n).r32)

/-- Quaternion of a sample: LSB 2⁻³⁰ (R113). -/
def PoseSample.quat (p : PoseSample) : Val × Val × Val × Val :=
  ((Val.scaled p.qw (-30)).r32, (Val.scaled p.qx (-30)).r32, (Val.scaled p.qy (-30)).r32, (Val.scaled p.qz (-30)).r32)

/-- (1 − u)·a + u·b. -/
def blend (u a b : Val) : Val := addR (mulR (subR (.ofInt 1) u) a) (mulR u b)

/-- The pose at a time, from two samples (R115, R116). -/
def poseBetween (a b : PoseSample) (time : Int) : Pose :=
  let u := ((Val.ofInt (time - a.time)).div (.ofInt ((b.time : Int) - a.time))).r32
  let flip := decide (a.qw * b.qw + a.qx * b.qx + a.qy * b.qy + a.qz * b.qz < 0)
  let sgn := fun (v : Val) => if flip then v.neg else v
  let qa := a.quat
  let qb := b.quat
  { q := normalise (blend u qa.1 (sgn qb.1), blend u qa.2.1 (sgn qb.2.1), blend u qa.2.2.1 (sgn qb.2.2.1),
      blend u qa.2.2.2 (sgn qb.2.2.2))
    t := (blend u (Val.ofInt a.tx).r32 (Val.ofInt b.tx).r32, blend u (Val.ofInt a.ty).r32 (Val.ofInt b.ty).r32,
      blend u (Val.ofInt a.tz).r32 (Val.ofInt b.tz).r32) }

/-- R·p + T (R118). -/
def Pose.apply (m : Pose) (p : Val × Val × Val) : Val × Val × Val :=
  let (w, x, y, z) := m.q
  let (px, py, pz) := p
  let two := fun v => mulR (.ofInt 2) v
  let row := fun a b c t => addR (addR (addR (mulR a px) (mulR b py)) (mulR c pz)) t
  (row (subR (.ofInt 1) (two (addR (mulR y y) (mulR z z)))) (two (subR (mulR x y) (mulR w z))) (two (addR (mulR x z) (mulR w y)))
     m.t.1,
   row (two (addR (mulR x y) (mulR w z))) (subR (.ofInt 1) (two (addR (mulR x x) (mulR z z)))) (two (subR (mulR y z) (mulR w x)))
     m.t.2.1,
   row (two (subR (mulR x z) (mulR w y))) (two (addR (mulR y z) (mulR w x))) (subR (.ofInt 1) (two (addR (mulR x x) (mulR y y))))
     m.t.2.2)

/-- Held samples of a pose stream, oldest first (R114). -/
def State.samples (s : State) (die entry : Nat) : List PoseSample := s.aux.poses.filter fun p => p.die == die && p.entry == entry

/-- The two neighbouring samples around a time. -/
def around (time : Int) : List PoseSample → Option (PoseSample × PoseSample)
  | a :: b :: rest => if decide (a.time ≤ time) && decide (time ≤ b.time) then some (a, b) else around time (b :: rest)
  | _ => none

/-- The pose of a point stream at a time, and whether it is extrapolated; none when R117 discards the point. -/
def State.poseAt (s : State) (die entry : Nat) (time : Int) : Option (Pose × Bool) :=
  let src := s.ac .SE_POSE die entry
  if src == 63 then
    let q := fun i => (Val.scaled (signed 32 (s.ac .SE_CPOSE_Q die (4 * entry + i))) (-30)).r32
    let t := fun i => (Val.ofInt (signed 32 (s.ac .SE_CPOSE_T die (3 * entry + i)))).r32
    some (⟨normalise (q 0, q 1, q 2, q 3), (t 0, t 1, t 2)⟩, false)
  else
    let held := s.samples die src
    match held.reverse with
    | b :: a :: _ =>
      if decide (time > b.time) then
        if time - b.time ≤ s.ac .SE_POSE_HOLD_US die entry * 1000 then some (poseBetween a b time, true) else none
      else (around time held).map fun p => (poseBetween p.1 p.2 time, false)
    | _ => none

/-! ### Points (R90, R107, R110, R117, R126, R132, R134) -/

/-- A point record (R90). -/
structure Point where
  x : Int
  y : Int
  z : Int
  intensity : Nat
  off : Nat
  stream : Nat
  ring : Nat
  flags : Nat
deriving DecidableEq, Repr

/-- The 16 bytes of a point record. -/
def Point.bytes (p : Point) : List Byte :=
  toLe 3 (encode 24 p.x) ++ toLe 3 (encode 24 p.y) ++ toLe 3 (encode 24 p.z) ++ toLe 1 p.intensity ++ toLe 3 p.off ++
  toLe 1 p.stream ++ toLe 1 p.ring ++ toLe 1 p.flags

/-- What becomes of a point in decode and correction. -/
inductive Fate
  | noReturn | dropTime | dropPose
  | kept (p : Point)
deriving DecidableEq, Repr

/-- Decode and correct one point for a frame (R104 to R118, R126). -/
def State.decodePoint (s : State) (die entry : Nat) (t : Template) (payload : List Byte) (packetTime : Int) (base : Nat)
    (reordered : Bool) (b j : Nat) : Fate :=
  let beam := fun k =>
    let i := s.ac .SE_TEMPLATE die entry * 256 + k
    (signed 16 (s.tpl die entry .TPL_BEAM_ELEV i), signed 16 (s.tpl die entry .TPL_BEAM_AZ i))
  match t.sensorPoint payload b j beam with
  | none => .noReturn
  | some p =>
    let time := t.pointTime payload packetTime b j
    let off := (time - base) / 64
    if time < base || 2 ^ 24 - 1 < off then .dropTime
    else
      match s.poseAt die entry time with
      | none => .dropPose
      | some (pose, extrapolated) =>
        let (x, y, z) := pose.apply p
        if x.isNan || y.isNan || z.isNan then .noReturn
        else
          let (xi, cx) := x.toXc24
          let (yi, cy) := y.toXc24
          let (zi, cz) := z.toXc24
          .kept ⟨xi, yi, zi, t.intensity payload b j, off.toNat, s.ac .SE_STREAM_ID die entry, t.ring payload b j,
            bitIf (cx || cy || cz) 0 + bitIf extrapolated 1 + bitIf reordered 2⟩

/-- The write of a point record or sample row of `n` bytes has failed: what lies there has no defined value (R836; log entry 5). -/
def pointWriteError (die entry seq a n : Nat) : Act :=
  .freeBytes ((n + 7) / 8) fun bs => .all [
    .put a (bs.take n),
    .frame die entry seq fun f => f.flag frameWriteErr,
    .inc .SC_WRITE_ERR die entry,
    bellRing die 0x058]

/-- Ingest writes a point record or sample row into a frame's buffer (R836). -/
def recordWrite (die entry seq a : Nat) (bs : List Byte) : Act :=
  (unitWrite a bs).then fun r =>
    match r with
    | .ok _ => .nop
    | .error _ => pointWriteError die entry seq a bs.length

/-- A corrected point reaches its frame, and the checker when its stream is a safety stream (R91, R132, R134, R139, R836). -/
def keepPoint (die entry seq : Nat) (p : Point) : Act :=
  .get fun s =>
    match s.frame die entry seq with
    | none => .nop
    | some f => .all [
        .when f.safety (presentPoint die entry p.x p.y p.z),
        .when (bit p.flags 1) (.frame die entry seq fun g => g.flag framePoseExtrapolated),
        if f.buf.isNone then
          .seq (.inc .SC_DROP_NOBUF die entry)
            (.frame die entry seq fun g => { g.flag frameBufWait with dropNobuf := g.dropNobuf + 1 })
        else if f.cap ≤ f.count then
          .seq (.inc .SC_DROP_CAP die entry) (.frame die entry seq fun g => { g.flag frameOverflow with dropCap := g.dropCap + 1 })
        else .seq (.frame die entry seq fun g => { g with count := g.count + 1 })
          (recordWrite die entry seq (f.bufAddr + 16 * f.count) p.bytes)]

/-- What becomes of one point. -/
def applyFate (die entry seq : Nat) : Fate → Act
  | .noReturn => .inc .SC_NORETURN die entry
  | .dropTime => .seq (.inc .SC_DROP_TIME die entry)
      (.frame die entry seq fun f => { f.flag frameTimeDrops with dropTime := f.dropTime + 1 })
  | .dropPose => .seq (.inc .SC_DROP_POSE die entry)
      (.frame die entry seq fun f => { f.flag framePoseGap with dropPose := f.dropPose + 1 })
  | .kept p => keepPoint die entry seq p

/-- Points decoded in a millisecond are counted (ING_LOAD). -/
def countDecoded (die n : Nat) : Act :=
  .get fun s =>
    let ms := s.now die / 1000000
    let last := s.rd .I_ING_MS die
    if ms == last then .inc .I_ING_DECODED die 0 n
    else .all [
      .set .ING_LOAD die 0 (if ms == last + 1 then s.rd .I_ING_DECODED die else 0),
      .set .I_ING_MS die 0 ms,
      .set .I_ING_DECODED die 0 n]

/-- ING_LOAD as a read gives it: points of the last complete millisecond. -/
def State.ingLoad (s : State) (die : Nat) : Nat :=
  let ms := s.now die / 1000000
  if ms == s.rd .I_ING_MS die then s.rd .ING_LOAD die
  else if ms == s.rd .I_ING_MS die + 1 then s.rd .I_ING_DECODED die else 0

/-- Sequence values accepted last on a stream, newest first (R143). -/
def State.seqsOf (s : State) (die entry : Nat) : List Nat := tableGet [] (die * 48 + entry) s.aux.seqs

/-- Accept a sequence value (R143, R144). -/
def acceptSeq (die entry v : Nat) (newest : Bool) : Act :=
  .all [
    .aux fun a =>
      let k := die * 48 + entry
      { a with seqs := tableSet [] k ((v :: tableGet [] k a.seqs).take 64) a.seqs },
    .when newest (.set .I_SC_HIGH_SEQ die entry v),
    .set .I_SC_SEQ_SEEN die entry 1]

/-- Decode a packet of a point stream (R104 to R111, R143, R144). -/
def decodePoints (p : Packet) : Act :=
  .get fun s =>
    let t := s.template p.die p.entry
    let range := 2 ^ (8 * t.bytes 8)
    let v := encode (8 * t.bytes 8) (t.raw p.payload 8 0 0)
    let high := s.rd .I_SC_HIGH_SEQ p.die p.entry
    let behind := (high + range - v) % range
    let seen := s.on .I_SC_SEQ_SEEN p.die p.entry
    let reordered := t.reads 8 && seen && behind != 0 && decide (behind < range / 2)
    if p.payload.length < t.need then .inc .SC_DROP_UNPARSED p.die p.entry
    else if t.reads 8 && (s.seqsOf p.die p.entry).contains v then
      .seq (.inc .SC_DROP_DUP p.die p.entry) (.frame p.die p.entry p.seq fun f => f.flag frameDuplicates)
    else .all [
      .when (t.reads 8) (acceptSeq p.die p.entry v (!reordered)),
      .when reordered (.seq (.inc .SC_REORDER p.die p.entry) (.frame p.die p.entry p.seq fun f => f.flag frameReordered)),
      .frame p.die p.entry p.seq fun f => { f with packets := f.packets + 1 },
      countDecoded p.die (t.blocks * t.points),
      match s.frame p.die p.entry p.seq with
      | none => .nop
      | some f =>
        let time := t.packetTime p.payload p.stamp
        .upTo t.blocks fun b => .upTo t.points fun j =>
          .get fun u => applyFate p.die p.entry p.seq (u.decodePoint p.die p.entry t p.payload time f.base reordered b j)]

/-- Accept or reject one pose sample (R113, R114). -/
def takeSample (x : PoseSample) : Act :=
  .get fun s =>
    let held := s.samples x.die x.entry
    let norm := x.qw * x.qw + x.qx * x.qx + x.qy * x.qy + x.qz * x.qz
    let late := match held.getLast? with
      | some h => decide (x.time ≤ h.time)
      | none => false
    if late || norm < 2 ^ 59 || 2 ^ 61 < norm then .inc .SC_POSE_REJECT x.die x.entry
    else .aux fun a =>
      let drop := if held.length < 64 then a.poses else a.poses.erase (held.headD x)
      { a with poses := drop ++ [x] }

/-- Decode a packet of a pose stream (R112, R113). -/
def decodePoses (p : Packet) : Act :=
  let n := byteAt p.payload 3
  if leAt p.payload 0 2 != 0x5058 || byteAt p.payload 2 != 1 || p.payload.length < 8 + 40 * n then .inc .SC_DROP_UNPARSED p.die p.entry
  else .upTo n fun i =>
    let o := 8 + 40 * i
    let f := fun k => signed 32 (leAt p.payload (o + k) 4)
    takeSample ⟨p.die, p.entry, leAt p.payload o 8, f 8, f 12, f 16, f 20, f 24, f 28, f 32⟩

/-- Length of an RTP header with its contributing sources and extension, and of the padding (R120). -/
def rtpHeader (bs : List Byte) : Nat × Nat :=
  let b := byteAt bs 0
  let fixed := 12 + 4 * bits b 0 4
  (fixed + (if bit b 4 then 4 + 4 * beAt bs (fixed + 2) 2 else 0), if bit b 5 then byteAt bs (bs.length - 1) else 0)

/-- The TS64 time nearest a stamp of those that have a sample index (R121). -/
def nearestAt (stamp : Nat) (n : Int) : Int :=
  let here : Int := (stamp * 48000 / 1000000000 : Nat)
  let first := fun (k : Int) => -((-(k * 1000000000)) / 48000)
  if n == here then stamp else if n > here then first n else first (n + 1) - 1

/-- Time of an audio sample with an RTP timestamp: of the TS64 times whose index gives it, the nearest to the stamp, the earlier of two
equally near (R121; log entry 158). -/
def audioTime (stamp rtp offset : Nat) : Int :=
  let here : Int := (stamp * 48000 / 1000000000 : Nat)
  let n := here + signed 32 (encode 32 ((rtp : Int) - offset - here))
  let times := [n - 2 ^ 32, n, n + 2 ^ 32].map (nearestAt stamp)
  let there := times.filter fun (t : Int) => decide (0 ≤ t ∧ t < 2 ^ 64)
  (there.find? fun (t : Int) => there.all fun (u : Int) => decide ((t - stamp).natAbs ≤ (u - stamp).natAbs)).getD stamp

/-- The bytes of an audio position: one FP32 per channel, padded (R122). -/
def audioRow (channels : Nat) (samples : List Byte) : List Byte :=
  let vs := (List.range channels).flatMap fun c => toLe 4 (toFp32 (Val.scaled (signed 24 (beAt samples (3 * c) 3)) (-23)))
  vs ++ List.replicate (rowBytes 2 channels - vs.length) 0

/-- One sample group reaches its frame (R122, R123, R126, R132, R134). -/
def keepSample (die entry seq : Nat) (time : Int) (samples : List Byte) : Act :=
  .get fun s =>
    match s.frame die entry seq with
    | none => .nop
    | some f =>
      let k := ((time - f.base) * 48000 / 1000000000).toNat
      let row := rowBytes 2 f.channels
      if time < f.base || 2 ^ 24 - 1 < (time - f.base) / 64 then applyFate die entry seq .dropTime
      else if f.buf.isNone then
        .seq (.inc .SC_DROP_NOBUF die entry) (.frame die entry seq fun g => { g.flag frameBufWait with dropNobuf := g.dropNobuf + 1 })
      else if f.cap ≤ k then
        .seq (.inc .SC_DROP_CAP die entry) (.frame die entry seq fun g => { g.flag frameOverflow with dropCap := g.dropCap + 1 })
      else if f.filled.contains k then
        .seq (.inc .SC_DROP_DUP die entry) (.frame die entry seq fun g => g.flag frameDuplicates)
      else .seq (.frame die entry seq fun g => { g with count := g.count + 1, filled := k :: g.filled })
        (recordWrite die entry seq (f.bufAddr + row * k) (audioRow f.channels samples))

/-- Decode a packet of an audio stream (R120 to R123). -/
def decodeAudio (p : Packet) : Act :=
  .get fun s =>
    let ch := s.ac .SE_CHANNELS p.die p.entry
    let (hdr, pad) := rtpHeader p.payload
    let len := p.payload.length - hdr - pad
    if p.payload.length < hdr + pad || bits (byteAt p.payload 0) 6 2 != 2 || (ch == 0 && len != 0) || len % (3 * ch) != 0 then
      .inc .SC_DROP_UNPARSED p.die p.entry
    else .all [
      .frame p.die p.entry p.seq fun f => { f with packets := f.packets + 1 },
      .upTo (len / (3 * ch)) fun g =>
        keepSample p.die p.entry p.seq
          (audioTime p.stamp ((beAt p.payload 4 4 + g) % 2 ^ 32) (s.ac .SE_RTP_OFFSET p.die p.entry))
          ((p.payload.drop (hdr + 3 * ch * g)).take (3 * ch))]

/-- Decode a packet and take it from the queue. -/
def decodePacket (p : Packet) : Act :=
  .seq (.aux fun a => { a with packets := a.packets.erase p }) (.get fun s =>
    match s.ac .SE_KIND p.die p.entry with
    | 1 => decodePoses p
    | 2 => decodeAudio p
    | _ => decodePoints p)

/-! ### The decode queue (R125, R141, R142) -/

/-- Seals of a stream that have fired and are not yet dispatched: one per dispatch (R125, R127). -/
def State.sealsAhead (s : State) (die entry : Nat) : Nat :=
  (((s.aux.fired ++ s.aux.remote).filter fun f => f.kind == kindSeal && f.target == entry && f.targetDie == die).map
    fun f => (f.die, f.group)).dedup.length

/-- Frame sequence that a packet received now belongs to (R125). -/
def State.seqNow (s : State) (die entry : Nat) : Nat := (s.rd .SC_SEQ die entry + s.sealsAhead die entry) % 2 ^ 32

/-- Points of a packet, for the count of R142. -/
def State.pointsOf (s : State) (die entry : Nat) (payload : List Byte) : Nat :=
  match s.ac .SE_KIND die entry with
  | 1 => byteAt payload 3
  | 2 =>
    let (hdr, pad) := rtpHeader payload
    (payload.length - hdr - pad) / (3 * s.ac .SE_CHANNELS die entry)
  | _ =>
    let t := s.template die entry
    t.blocks * t.points

/-- A packet is discarded for lack of room: its points are counted (R142). -/
def dropBusy (die entry : Nat) (payload : List Byte) : Act :=
  .get fun s =>
    let n := s.pointsOf die entry payload
    .seq (.inc .SC_DROP_BUSY die entry n)
      (match s.openFrame die entry with
       | some f => .frame die entry f.seq fun g => { g.flag frameBusyDrops with dropBusy := g.dropBusy + n }
       | none => .nop)

/-- Bytes of packets in a die's decode queue. -/
def queueBytes (die : Nat) (l : List Packet) : Nat := ((l.filter fun p => p.die == die).map fun p => p.payload.length).sum

/-- Packets to evict for a safety packet: non-safety ones, newest first, until it fits (R142). -/
def toEvict (die need : Nat) (all : List Packet) : List Packet → List Packet
  | [] => []
  | p :: ps =>
    if queueBytes die all + need ≤ 256 * kib then []
    else p :: toEvict die need (all.erase p) ps

/-- A packet enters the decode queue of its die, or is discarded (R141, R142). -/
def queuePacket (p : Packet) : Act :=
  .get fun s =>
    let others := (s.aux.packets.filter fun q => q.die == p.die && !q.safety).reverse
    let evict := if p.safety then toEvict p.die p.payload.length s.aux.packets others else []
    .seq (.each evict fun q => .seq (.aux fun a => { a with packets := a.packets.erase q }) (dropBusy q.die q.entry q.payload))
      (.get fun t =>
        if queueBytes p.die t.aux.packets + p.payload.length ≤ 256 * kib then
          .aux fun a => { a with packets := a.packets ++ [p] }
        else dropBusy p.die p.entry p.payload)

/-- A frame waits for the Keeper, or is discarded when its queue is full (R98, R99; log entry 9). -/
def toKeeper (die : Nat) (frame payload : List Byte) : Act :=
  .get fun s =>
    if (s.aux.keeperQueue.filter fun q => q.die == die).length ≤ Config.keeperQueueCap then
      .aux fun a => { a with keeperQueue := a.keeperQueue ++ [⟨die, frame, payload, s.fullStamp die⟩] }
    else .inc .ING_KEEPER_DROP die

/-- A datagram matches a stream: it moves the masters that follow the stream, and enters the decode queue (R71, R96, R125); ingest idles in
STANDBY (18 R751). A packet that gives no phase does not end the silence after which its master coasts (02 R71, R75; DEDUCED; log
entry 154). -/
def streamPacket (die entry : Nat) (payload : List Byte) : Act :=
  .get fun s => .all [
    .inc .SC_PKTS die entry,
    (match if s.ac .SE_KIND die entry == 0 then (s.template die entry).phase payload else none with
     | some a => moveMasters die entry a
     | none => .nop),
    .get fun t => .when (t.rd .PKG_STATE 0 == 0 || t.rd .PKG_STATE 0 == 3) (queuePacket ⟨die, entry, s.now die, t.seqNow die entry, s.acOn .SE_SAFETY die entry, payload⟩)]

/-- ETH_FRAME_RECEIVE: a data port accepts a frame after MACsec validation (R93 to R99). -/
def execEthFrameReceive (die port : Nat) (frame : List Byte) (s : State) : Host.Outcome State Fault Refusal :=
  (Act.when (s.dieThere die && decide (port < 2) && s.portPasses die port && s.macForPort die port frame) (.all [
    .inc .ETH_RX_FRAMES die port,
    match s.classify die port frame with
    | .bad => .inc .ING_RX_BAD die port
    | .foreign => .nop
    | .ptp => .out (.ptpHandoff die port (s.fullStamp die) frame)
    | .other => .seq (.inc .ING_RX_UNMATCHED die port) (toKeeper die frame [])
    | .udp d =>
      match s.streamOf die port d with
      | some i => streamPacket die i d.payload
      | none => .seq (.inc .ING_RX_UNMATCHED die port) (toKeeper die frame d.payload)])).done s

/-- A packet can be decoded now: it is of a pose stream, or its frame has opened (R125). -/
def State.decodable (s : State) (p : Packet) : Bool :=
  s.ac .SE_KIND p.die p.entry == 1 || p.seq == s.rd .SC_SEQ p.die p.entry || (s.frame p.die p.entry p.seq).isSome ||
  s.sealsAhead p.die p.entry == 0

/-- PACKET_DECODE: the decoder serves safety streams first, each in order of arrival (R104, R141). -/
def execPacketDecode (die : Nat) (s : State) : Host.Outcome State Fault Refusal :=
  let ready := s.aux.packets.filter fun (p : Packet) => p.die == die && s.decodable p
  (match (ready.filter fun (p : Packet) => p.safety) ++ ready with
   | [] => Act.nop
   | p :: _ => decodePacket p).done s

/-- The frame of a stream to which a point's write belongs: the oldest that has the point and whose header is not yet written
(log entry 159). -/
def State.writtenFrame (s : State) (die entry point : Nat) : Option Frame :=
  s.aux.frames.find? fun f => f.die == die && f.entry == entry && !f.hdrDone && f.buf.isSome && decide (point < f.count)

/-- POINT_WRITE_ERROR: the write of a point record, or of an audio position, has completed with an error; its record holds no defined
value (R836). -/
def execPointWriteError (die entry point : Nat) (s : State) : Host.Outcome State Fault Refusal :=
  (match s.writtenFrame die entry point with
   | none => Act.nop
   | some f =>
     let row := rowBytes f.kind f.channels
     pointWriteError die entry f.seq (f.bufAddr + row * point) row).done s

/-! ### Seals and headers (R124 to R138) -/

/-- A frame ends with a WITHDRAWN record (13 R575, R579; log entry 24). -/
def withdrawFrame (f : Frame) (cause : Nat) : Act :=
  .get fun s => .all [
    .inc .PT_WITHDRAWN 0 f.part,
    handRecord { s.blankRec f.part recWithdrawn cause with
      accepted := f.sealTime, channel := 0xFF, frames := [f.header.drop 16], rflags := bitIf f.losses 2 },
    .frame f.die f.entry f.seq fun g => { g with ended := true }]

/-- Open a frame under the entry's active set (R124, R131, R134). -/
def openAt (die entry seq time : Nat) : Act :=
  .get fun s =>
    let f : Frame := {
      die := die, entry := entry, seq := seq, base := (time + 2 ^ 64 - s.ac .SE_LEAD_NS die entry) % 2 ^ 64,
      streamId := s.ac .SE_STREAM_ID die entry, part := s.ac .SE_PARTITION die entry, kind := s.ac .SE_KIND die entry,
      safety := s.acOn .SE_SAFETY die entry, cap := s.ac .SE_CAP die entry, channels := s.ac .SE_CHANNELS die entry,
      hdrAddr := pkgAddr die (s.ac .SE_HDR_BASE die entry + 64 * (seq % 4)) }
    .all [
      .set .SC_SEQ die entry seq,
      .aux fun a => { a with frames := a.frames ++ [f] },
      match s.freeBuffers die entry with
      | b :: _ => takeBuffer die entry seq b
      | [] => .frame die entry seq fun g => g.flag frameBufWait]

/-- The entry takes the committed set (R148, R149); when every entry has, the whole set is active (R150). -/
def ingTake (die entry : Nat) : Act :=
  .get fun s =>
    .when (s.on .ING_STATUS_COMMIT_PENDING die && !s.on .I_SC_TAKEN die entry) (.seq
      (.seq (takeRow .ing die 0x32000 0x34000 entry) (.set .I_SC_TAKEN die entry 1))
      (.get fun t => .when ((List.range 48).all fun i => t.on .I_SC_TAKEN die i)
        (.seq (activateSet .ing die fun _ => true) (.set .ING_STATUS_COMMIT_PENDING die 0 0))))

/-- Positions of a sealed audio frame, and those that no packet filled (R130). -/
def audioGaps (f : Frame) (nextBase : Nat) : Nat × List Nat :=
  let n := min ((nextBase - f.base) * 48000 / 1000000000) f.cap
  (n, (List.range n).filter fun k => !f.filled.contains k)

/-- The open frame of a stream is sealed, and then the older frame that it supersedes is withdrawn: a frame that reaches its seal
without a buffer takes none that its seal releases (R128 to R130, R134, 13 R570, R575). -/
def closeFrame (die entry time quality nextBase : Nat) : Act :=
  .get fun s =>
    match s.openFrame die entry with
    | none => .nop
    | some f =>
      let (n, gaps) := if f.kind == 2 then audioGaps f nextBase else (f.count, [])
      let empty := f.count == 0
      takeOrd fun ord => .all [
        .when f.buf.isSome (.each gaps fun k =>
          (unitWrite (f.bufAddr + rowBytes 2 f.channels * k) (List.replicate (rowBytes 2 f.channels) 0)).anyway),
        .frame die entry f.seq fun g =>
          let h := if gaps.isEmpty || g.buf.isNone then g else { g.flag frameAudioGap with dropPose := gaps.length }
          let h := if empty then h.flag frameEmpty else h
          { h with
            isSealed := true, sealTime := time, quality := quality, epoch := s.rd .PT_EPOCH 0 f.part,
            count := if g.buf.isNone then 0 else n, nextBase := nextBase, accepted := s.running f.part, ord := ord },
        .get fun t => match t.frame die entry f.seq with
          | some g => .when f.safety (presentSeal die entry f.seq (g.dropTime + g.dropPose + g.dropBusy) g.flags quality)
          | none => .nop,
        .each (s.aux.frames.filter fun g => g.die == die && g.entry == entry && g.isSealed && g.accepted && !g.bound && !g.ended) fun g =>
          .seq (withdrawFrame g causeSuperseded) (.when g.hdrDone (releaseFrame die entry g.seq))]

/-- A seal event reaches a stream: packets received before it are decoded, the frame closes, the committed set comes in force and
the next frame opens (R124, R125, R128, R148). -/
def sealStream (die entry time quality : Nat) : Act :=
  .get fun s =>
    .when (s.streamUsed die entry && s.ac .SE_KIND die entry != 1) (
      .seq (.each (s.aux.packets.filter fun p => p.die == die && p.entry == entry && p.seq == s.rd .SC_SEQ die entry) decodePacket)
        (.get fun t =>
          let lead := if t.on .ING_STATUS_COMMIT_PENDING die && !t.on .I_SC_TAKEN die entry then t.reg .pend .SE_LEAD_NS die entry
            else t.ac .SE_LEAD_NS die entry
          .all [
            closeFrame die entry time quality ((time + 2 ^ 64 - lead) % 2 ^ 64),
            ingTake die entry,
            openAt die entry ((t.rd .SC_SEQ die entry + 1) % 2 ^ 32) time]))

/-- A bind entry that names a frame that is no more holds none. -/
def Bind.unbind (f : Frame) (b : Bind) : Bind :=
  if b.die == f.die && b.entry == f.entry && b.seq == some f.seq then { b with seq := none } else b

/-- The write of a frame's header has failed: the frame is withdrawn at once, and no job binds it (R836). -/
def headerError (f : Frame) : Act :=
  .all [
    .inc .SC_WRITE_ERR f.die f.entry,
    bellRing f.die 0x058,
    .aux fun a => { a with jobs := a.jobs.map fun j => { j with binds := j.binds.map (Bind.unbind f) } },
    .when (f.accepted && !f.ended) (withdrawFrame (f.flag frameWriteErr) causeWriteError),
    releaseFrame f.die f.entry f.seq]

/-- The sealed frame of a stream whose header is to be written next. -/
def State.headerDue (s : State) (die entry : Nat) : Option Frame :=
  s.aux.frames.find? fun f => f.die == die && f.entry == entry && f.isSealed && !f.hdrDone

/-- FRAME_HEADER_WRITE: the header goes into its slot; a frame that owes nothing is then released (R128, R135, R137, 13 R570). -/
def execFrameHeaderWrite (die entry : Nat) (s : State) : Host.Outcome State Fault Refusal :=
  (match s.headerDue die entry with
   | none => Act.nop
   | some f => (unitWrite f.hdrAddr f.header).then fun r =>
       match r with
       | .error _ => headerError f
       | .ok _ => .seq (.frame die entry f.seq fun g => { g with hdrDone := true })
           (.when (!f.accepted || f.ended) (releaseFrame die entry f.seq))).done s

/-- HEADER_WRITE_ERROR (R836). -/
def execHeaderWriteError (die entry : Nat) (s : State) : Host.Outcome State Fault Refusal :=
  (match s.headerDue die entry with
   | none => Act.nop
   | some f => headerError f).done s

/-! ### Commit (R145 to R151, R834, R835) -/

/-- A buffer or header ring of an entry lies outside the die's HBM or is misaligned. -/
def State.badPlacement (s : State) (die i : Nat) : Bool :=
  let base := s.rd .SE_BUF_BASE die i
  let hdr := s.rd .SE_HDR_BASE die i
  let size := s.rd .SE_CAP die i * rowBytes (s.rd .SE_KIND die i) (s.rd .SE_CHANNELS die i)
  let pad := (size + 4095) / 4096 * 4096
  base % 4096 != 0 || hdr % 256 != 0 || decide (2 * stackBytes < base + pad + size) || decide (2 * stackBytes < hdr + 256)

/-- Why a pending set is refused: cause and entry or template (R146, ING_STATUS_ERR_CAUSE). -/
def State.ingRefusal (s : State) (die : Nat) : Option (Nat × Nat) :=
  let es := List.range 48
  let valid := fun i => s.on .SE_VALID die i
  let kind := fun i => s.rd .SE_KIND die i
  let point := fun i => valid i && kind i == 0
  let framed := fun i => valid i && (kind i == 0 || kind i == 2)
  let tpl := fun i => readTemplate (fun f k => s.rd f die k) (s.rd .SE_TEMPLATE die i)
  let tnum := fun i => s.rd .SE_TEMPLATE die i
  let norm := fun i => (List.range 4).foldl (fun (a : Int) k =>
    let q := signed 32 (s.rd .SE_CPOSE_Q die (4 * i + k))
    a + q * q) 0
  let checks : List (Option (Nat × Nat)) := [
    (es.find? fun i => valid i && kind i == 3).map fun i => (2, i),
    if 40 < (es.filter point).length then some (3, 63) else none,
    (es.find? fun i => point i && (let p := s.rd .SE_POSE die i
      !(p == 63 || decide (p < 48) && valid p && kind p == 1))).map fun i => (4, i),
    (es.find? fun i => point i && (decide (2 ≤ (tpl i).timeSrc) || (tpl i).timeSrc == 1 && (tpl i).scope 7 == 0)).map
      fun i => (5, tnum i),
    (es.find? fun i => point i && (List.range 10).any fun f => (tpl i).reads f && !((tpl i).scale f).isFinite).map
      fun i => (10, tnum i),
    (es.find? fun i => framed i && s.badPlacement die i).map fun i => (6, i),
    (es.find? fun i => framed i && decide ((if kind i == 2 then 16384 else 262144) < s.rd .SE_CAP die i)).map fun i => (7, i),
    (es.find? fun i => valid i && decide (64 < s.rd .SE_CHANNELS die i)).map fun i => (8, i),
    (es.find? fun i => point i && s.rd .SE_POSE die i == 63 && (decide (norm i < 2 ^ 59) || decide (2 ^ 61 < norm i))).map
      fun i => (9, i)]
  if s.on .ING_STATUS_COMMIT_PENDING die then some (1, 63) else checks.findSome? id

/-- One entry at an accepted commit (R148, R149, R834, R835). -/
def ingEntry (die i : Nat) : Act :=
  .get fun s =>
    let framed := fun l => s.reg l .SE_VALID die i == 1 && (s.reg l .SE_KIND die i == 0 || s.reg l .SE_KIND die i == 2)
    let was := framed .act
    let will := framed .pend
    if was && will then .nop
    else .all [
      .when was (.seq
        (.each (s.aux.packets.filter fun p => p.die == die && p.entry == i) decodePacket)
        (.seq (closeFrame die i (s.now die) s.sync (s.now die)) (.set .SC_SEQ die i (s.rd .SC_SEQ die i + 1)))),
      ingTake die i,
      .when will (.get fun t => openAt die i (t.rd .SC_SEQ die i) (t.now die))]

/-- A write to ING_COMMIT (R146, R147). -/
def ingCommitAct (die : Nat) : Act :=
  .get fun s =>
    match s.ingRefusal die with
    | some (cause, e) => .all [
        .set .ING_STATUS_CFG_ERR die 0 1,
        .set .ING_STATUS_ERR_ENTRY die 0 e,
        .set .ING_STATUS_ERR_CAUSE die 0 cause,
        bellRing die 0x058]
    | none => .all [
        .set .ING_STATUS_CFG_ERR die 0 0,
        snapshotSet .ing die fun _ => true,
        .set .ING_STATUS_COMMIT_PENDING die 0 1,
        .upTo 48 fun i => .set .I_SC_TAKEN die i 0,
        .upTo 48 (ingEntry die)]

/-- ING_COMMIT. -/
def execIngCommit (die : Nat) (s : State) : Host.Outcome State Fault Refusal :=
  (Act.when (s.dieThere die) (ingCommitAct die)).done s

end Sys2Proof.Machine
end

