-- ==== Sys2Proof/Machine/PhaseEvents.lean ====
section
/-! DEFINITION. Delivery of phase events to their targets, and blind-sector checks (02 R84 to R87, 15 R653 to R656). -/

namespace Sys2Proof.Machine

/-- TIME_OFFSET of an injected record: the event time from the frame base in units of 64 ns, clamped (15 R653). -/
def injectOffset (time base : Nat) : Nat := if time < base then 0 else min ((time - base) / 64) (2 ^ 24 - 1)

/-- The point of a pattern record, with ingest's stream and offset (03 R90, 15 R653). -/
def patternPoint (bs : List Byte) (off stream : Nat) : Point :=
  ⟨signed 24 (leAt bs 0 3), signed 24 (leAt bs 3 3), signed 24 (leAt bs 6 3), byteAt bs 9, off, stream, byteAt bs 14, byteAt bs 15⟩

/-- Ingest appends the pattern to the stream's open frame; `k` learns how many of its records the checker finds inside the test zone,
and whether the test zone's frame holds the injection (15 R653). -/
def injectPattern (die b time : Nat) (k : Nat → Bool → Act) : Act :=
  .get fun s =>
    match s.openFrame die b with
    | none => k 0 false
    | some f =>
      let n := min (s.ac .BS_PAT_N die b) 64
      let z := s.ac .BS_TEST die b
      (unitRead (s.ac .BS_PAT_BASE die b) (16 * n)).then fun r =>
        match r with
        | .error _ => k (s.ac .BS_PAT_IN die b + 1) false
        | .ok bs =>
          let ps := (List.range n).map fun i =>
            patternPoint ((bs.drop (16 * i)).take 16) (injectOffset time f.base) (s.ac .SE_STREAM_ID die b)
          let inside := (ps.filter fun p => s.feeds die b z && s.insideZone die z p.x p.y p.z).length
          .all [
            .each ps fun p => .seq (keepPoint die b f.seq p) (.when (!f.safety) (presentPoint die b p.x p.y p.z)),
            k inside (s.feeds die b z)]

/-- A blind-sector check event reaches a stream entry (15 R653, R654, R656, 02 R77). -/
def blindCheck (die b time : Nat) (masterLost : Bool) : Act :=
  .seq (ulsTake die (128 + b)) (.get fun s =>
    .when (decide (b < 48) && s.acOn .BS_EN die b) (
      let check := s.rd .I_BS_CHECK die b + 1
      let ref := s.ac .BS_REF die b
      .all [
        .set .I_BS_CHECK die b check,
        .when (s.ac .ZN_KIND die ref == 2) (ulsTake die ref),
        if masterLost then .seq (.set .I_BS_REF die b 0) (failCheck die b check 4)
        else
          let count := s.rd .I_BS_REF die b
          let refOk := decide (s.ac .BS_REF_MIN die b ≤ count ∧ count ≤ s.ac .BS_REF_MAX die b)
          injectPattern die b time fun inside held =>
            let injOk := inside == s.ac .BS_PAT_IN die b
            .all [
              .set .BS_LAST_REF die b (min count 65535),
              .set .I_BS_REF die b 0,
              .when held (.zone die (s.ac .BS_TEST die b) fun fr =>
                { fr with injected := ⟨b, check, refOk && injOk⟩ :: fr.injected }),
              .when (!(refOk && injOk)) (failCheck die b check (if refOk then 2 else 1))]]))

/-- One event reaches its target. `first` says that no earlier event of its dispatch has the same kind and target (03 R127,
15 R646). -/
def deliver (f : Fired) (first : Bool) : Act :=
  let d := f.targetDie
  .get fun s =>
    match f.kind with
    | 0 =>
      if 48 ≤ f.target then .nop
      else if first then sealStream d f.target f.time f.quality else .inc .SC_SEAL_MERGED d f.target
    | 1 => blindCheck d f.target f.time (bit f.quality 3)
    | 2 => .when (decide (f.target < 64)) (requestProof d f.target 0)
    | 3 => .when (decide (f.target < 256)) (fireTrigger
        { die := d, trigger := f.target, kind := 0, channel := s.ac .JT_CHANNEL d f.target })
    | _ => .when (decide (f.target < 256)) (
        let late := s.deadlineLate d f.target f.time
        .seq (deadlineEvent d f.target f.time) (.when first (evaluateTrigger d f.target late)))

/-- Two events have one kind and one target. -/
def Fired.sameTarget (a b : Fired) : Bool := a.kind == b.kind && a.target == b.target && a.targetDie == b.targetDie

/-- Deliver events in order; `before` lists those of the dispatch already seen. -/
def deliverAll (before : List Fired) : List Fired → List Act
  | [] => []
  | f :: fs => deliver f (!before.any f.sameTarget) :: deliverAll (f :: before) fs

/-- PHASE_EVENT_DISPATCH: the oldest dispatch of a die is delivered; events for another die go on their way (02 R84, R86, R87). -/
def execPhaseEventDispatch (die : Nat) (s : State) : Host.Outcome State Fault Refusal :=
  let fs := s.dispatchOf die
  (Act.all [
    .aux fun a => { a with
      fired := a.fired.filter fun f => !fs.contains f
      remote := a.remote ++ fs.filter fun (f : Fired) => f.targetDie != die && s.dieThere f.targetDie },
    .all (deliverAll [] (fs.filter fun (f : Fired) => f.targetDie == die))]).done s

/-- Events of the oldest dispatch on their way to a die. -/
def State.remoteOf (s : State) (die : Nat) : List Fired :=
  match s.aux.remote.find? fun f => f.targetDie == die with
  | none => []
  | some f => s.aux.remote.filter fun g => g.targetDie == die && g.die == f.die && g.group == f.group

/-- REMOTE_EVENT_DELIVERY: the events of one dispatch for a target die arrive over Ignov (02 R87). -/
def execRemoteEventDelivery (die : Nat) (s : State) : Host.Outcome State Fault Refusal :=
  let fs := s.remoteOf die
  (Act.seq (.aux fun a => { a with remote := a.remote.filter fun f => !fs.contains f }) (.all (deliverAll [] fs))).done s

end Sys2Proof.Machine
end

