-- ==== Sys2Proof/Machine/Power.lean ====
section
/-! DEFINITION. Power domains, louvre, temperature, package states, and the resets that the events of this chapter begin
(18_power_reset_and_thermal.md); the PCIe function's power states and the event pins (14 R632 to R635, 20 R810 to R812). -/

namespace Sys2Proof.Machine

/-! ### Core reset and the end of units (R770, R771, 05 R256, 10 R477, 13 R599) -/

/-- Insert by order of acceptance. -/
def insertByOrd (x : Nat × Act) : List (Nat × Act) → List (Nat × Act)
  | [] => [x]
  | y :: ys => if x.1 ≤ y.1 then x :: y :: ys else y :: insertByOrd x ys

/-- The record is a request's RESULT. -/
def DecReq.isResult (d : DecReq) (r : Rec) : Bool :=
  r.kind == recResult && r.part == d.part && r.channel == d.channel && r.reqSeq == d.reqSeq

/-- How each unit of a partition that has been accepted and has not ended is withdrawn, with its order of acceptance. -/
def State.openUnits (s : State) (p : Nat) : List (Nat × Act) :=
  ((s.aux.frames.filter fun f => f.part == p && f.accepted && !f.bound && !f.ended).map fun f =>
    (f.ord, Act.seq (withdrawFrame f causeRestart) (.when f.hdrDone (releaseFrame f.die f.entry f.seq)))) ++
  ((s.aux.jobs.filter fun j => j.part == p && j.kind != 1 && !j.ended).map fun j => (j.ord, withdrawJob j causeRestart false 0 0 0)) ++
  ((s.aux.decs.filter fun d => d.part == p).map fun d =>
    (d.ord, withdrawDec { d with ended := d.ended && !s.aux.recs.any d.isResult } causeRestart))

/-- Every unended unit of a partition is withdrawn, in acceptance order, under the epoch that ends; its jobs and steps are gone
(13 R599), and tokens and results of its occupied slots that have not entered the ring never do (09 R402). -/
def withdrawUnits (p : Nat) : Act :=
  .get fun s => .all [
    .aux fun a => { a with recs := a.recs.filter fun r =>
      !(r.part == p && (r.kind == recToken || s.aux.decs.any fun d => d.isResult r)) },
    .all (((s.openUnits p).foldl (fun l x => insertByOrd x l) []).map fun x => x.2),
    .each (s.aux.jobs.filter fun j => j.part == p) fun j => finishJob p j.jseq,
    .aux fun a => { a with done := a.done.filter fun d => d.part != p },
    .each (s.aux.steps.filter fun r => s.ac .BC_PARTITION r.die r.cls == p) fun r => .seq
      (.aux fun a => { a with steps := a.steps.erase r }) (.set .BC_STEP_RUNNING r.die r.cls 0)]

/-- Engine state after a reset: fenced and disabled engines stay so (05 R256). -/
def engineRest (die core : Nat) : Act :=
  .upTo 4 fun e =>
    .get fun s =>
      if !s.enabled die core e then .set .ENG_STATUS_STATE die (ctxIdx core e) 6
      else if s.engineMarked die core e then .set .ENG_STATUS_STATE die (ctxIdx core e) 5
      else .set .ENG_STATUS_STATE die (ctxIdx core e) 0

/-- A field of the core control, sequencer, context or engine tables (05 R256, 10 R477). -/
def Fld.ofCore (f : Fld) : Bool :=
  decide (0x100000 ≤ f.info.base ∧ f.info.base < 0x102000) || decide (0x104000 ≤ f.info.base ∧ f.info.base < 0x105000)

/-- Every wicket in the table of a core is freed (11 R516). -/
def freeTable (die core : Nat) : Act :=
  .seq (.upTo 16 fun w => .set .WK_VALID die (wkIdx core w) 0)
    (.aux fun a => { a with returning := a.returning.filter fun r => !(r.1 == die && r.2.1 == core) })

/-- A core reset (05 R256, 10 R477): contexts idle, semaphores and counters zero, engines at rest; its contexts' wickets, waits and
adds are gone with them, its own table of wickets is empty (11 R515, R516), and proofs lost to it neither pass nor fail. -/
def resetCore (die core : Nat) : Act :=
  .all [
    .upTo 4 fun c => freeWickets die core c,
    freeTable die core,
    .resetFlds fun f d i => f.ofCore && f != .CORE_STATUS_FENCED && d == die && f.row i == core,
    .aux fun a => { a with
      ctxs := a.ctxs.filter fun p => p.1 / 4 != die * 32 + core
      engines := (a.engines.filter fun p => p.1 / 4 != die * 32 + core || !p.2.faults.isEmpty).map fun p =>
        if p.1 / 4 == die * 32 + core then (p.1, { faults := p.2.faults }) else p
      semAdds := a.semAdds.filter fun x => !(x.sdie == die && x.score == core) && !(x.die == die && x.core == core)
      credits := a.credits.filter fun w => !(w.sdie == die && w.score == core)
      proofs := a.proofs.filter fun q => !(q.die == die && q.core == core && q.state != 0)
      grids := a.grids.map fun g => { g with
        inserts := g.inserts.filter fun i => !(i.1 == die && i.2.1 == core)
        closer := if g.closer.any fun i => i.1 == die && i.2.1 == core then none else g.closer } },
    engineRest die core]

/-- Every core of every die is reset. -/
def resetCores : Act := .get fun s => .each s.dieList fun d => .upTo 32 fun c => resetCore d c

/-! ### Cold reset (R770, R771, R778) -/

/-- What a cold reset keeps: the fuses, what the fault log restores, and the level of a pin (R771, 16 R695, R709). -/
def Fld.keptCold (f : Fld) : Bool :=
  [Fld.FUSE_ORDER, .FUSE_DIES, .FUSE_SEALED, .FUSE_OWNED, .FUSE_DECOMM, .FUSE_ENG_MASK, .FUSE_DEV_HASH, .FUSE_OWNER_HASH, .FUSE_RB,
    .FLT_FENCED_ENG_LO, .FLT_FENCED_ENG_HI, .FLT_FENCED_CORES, .FLT_RETIRED_SEG, .FLT_DIE_FAILED, .FLT_SEQ, .FLT_COUNT, .I_PERST,
    .I_HELD_COLD].contains f

/-- Cold reset: every register at its reset value, nothing in any memory, and a cold start to follow (R771). -/
def coldReset : Act :=
  .all [
    .resetFlds fun f _ _ => !f.keptCold,
    .eff (.clear fun _ => true),
    .aux fun a => { outputs := a.outputs, lifts := a.lifts, rowTests := a.rowTests, repairs := a.repairs },
    .get fun s => .each s.dieList fun d => .upTo 32 fun c => .all [
      .when (bit (s.rd .FLT_FENCED_CORES d) c) (.set .CORE_STATUS_FENCED d c 1),
      engineRest d c]]

/-- The device is held in cold reset until its cold start begins (R778). -/
def holdCold : Act := .seq coldReset (.set .I_HELD_COLD 0 0 1)

/-- COLD_RST_N_ASSERT: a low pulse (R778, 20 R810, R811). Of a pulse between 50 ns and 10 µs the spec leaves open whether it
acts. -/
def execColdRstNAssert (lowNs : Nat) (s : State) : Host.Outcome State Fault Refusal :=
  (if lowNs < 50 then Act.nop
   else if lowNs < 10000 then .free fun v => .when (v % 2 == 1) holdCold
   else holdCold).done s

/-- SUPPLY_OUT_OF_WINDOW: a rail outside its window for 1 µs or longer (R778). -/
def execSupplyOutOfWindow (lowNs : Nat) (s : State) : Host.Outcome State Fault Refusal :=
  (Act.when (decide (1000 ≤ lowNs)) holdCold).done s

/-! ### Domains (R751 to R753) -/

/-- What the selected variants of all partitions use on a die. -/
def State.variantDies (s : State) (die : Nat) : List VariantDie :=
  (List.range 8).flatMap fun p => ((s.variantOf p).map fun v => v.dies.filter fun d => d.die == die).getD []

/-- A selected variant uses the cluster. -/
def State.clusterUsed (s : State) (die k : Nat) : Bool :=
  (s.variantDies die).any fun d => (List.range 32).any fun l => bit d.lcores l && s.physCore die l / 4 == k

/-- A selected variant uses the vault. -/
def State.vaultUsed (s : State) (die k : Nat) : Bool := (s.variantDies die).any fun d => bits d.vseg (16 * k) 16 != 0

/-- The PCIe domain of a die (R752, R753). -/
def State.pcieDomain (s : State) (die : Nat) : Bool := die == 0 && !s.on .I_PERST 0

/-- Domains that are on in RUN (R751 to R753). -/
def State.runDomains (s : State) (die : Nat) : Nat :=
  0x1FF + bitIf (s.pcieDomain die) 9 +
  (List.range 8).foldl (fun m k => m + bitIf (s.clusterUsed die k) (10 + k)) 0 +
  (List.range 4).foldl (fun m k => m + bitIf (s.vaultUsed die k) (18 + k)) 0 +
  bitIf true 22 + bitIf (s.rd .SEC_STATE 0 == 4) 23

/-- Domains that are on in STANDBY, and in SLEEP (R751): retained and self-refreshing ones are not on. -/
def State.standbyDomains (s : State) (die : Nat) : Nat := 0x18F + bitIf (s.pcieDomain die) 9 + bitIf true 22

/-- Bytes of a cluster's stores, or of a vault, are lost when the domain is switched off without retention (R752). -/
def loseDomain (die d : Nat) : Act :=
  if 10 ≤ d && d < 18 then .upTo 4 fun i => zeroRange (storeAddr die (4 * (d - 10) + i) 0) (16 * mib)
  else if 18 ≤ d && d < 22 then zeroRange (vaultAddr die (d - 18) 0) (32 * mib)
  else .nop

/-- The domains of RUN, as a partition start leaves them: a cluster or vault that leaves use loses its contents (R752). -/
def setDomains : Act :=
  .get fun s => .each s.dieList fun die => .all [
    .upTo 24 fun d => .when (bit (s.rd .PWR_DOM_ON die) d && !bit (s.runDomains die) d) (loseDomain die d),
    .set .PWR_DOM_ON die 0 (s.runDomains die)]

/-! ### Package states (R765 to R769) -/

/-- A restart is requested or in progress. -/
def State.restarting (s : State) : Bool :=
  s.on .I_RESTART_COLD 0 || s.on .I_RESTART_WARM 0 || (List.range 8).any fun p => s.on .I_RESTART_PART 0 p

/-- Cause with which a request for STANDBY (1) or SLEEP (2) is refused; the causes are tested in their order (R766). -/
def State.pkgRefusal (s : State) (v : Nat) : Option Nat :=
  if (List.range 8).any fun p => s.safetyPart p && !(s.inSafe p && bit (s.rd .I_SAFE_REQ 0) p) then some 1
  else if v == 2 && s.on .PCIE_STATUS_LINK 0 && decide (s.rd .PCIE_STATUS_DSTATE 0 ≤ 1) then some 2
  else if s.restarting then some 3
  else none

/-- The status of a port's link reads 0 while it is down (19 R827). -/
def ethDown (die port : Nat) : Act :=
  .all [
    .set .ETH_STATUS_LINK die port 0,
    .set .ETH_STATUS_SPEED die port 0,
    .set .ETH_STATUS_SECURE die port 0,
    .set .ETH_STATUS_PEERS die port 0]

/-- The PCIe link goes down (19 R827). -/
def pcieDown : Act :=
  .all [
    .set .PCIE_STATUS_LINK 0 0 0,
    .set .PCIE_STATUS_WIDTH 0 0 0,
    .set .PCIE_STATUS_GEN 0 0 0,
    .set .PCIE_STATUS_DSTATE 0 0 3]

/-- Both alive pins are low. -/
def pinsLow : Act := .seq (.set .I_ALIVE_A 0 0 0) (.set .I_ALIVE_B 0 0 0)

/-- Entry into STANDBY (1) or SLEEP (2) (R767). -/
def enterPkg (v : Nat) : Act :=
  .get fun s => .all [
    .upTo 8 withdrawUnits,
    resetCores,
    .upTo 8 fun p => .set .PT_STATE 0 p 0,
    .aux fun a => { a with packets := [], poses := [] },
    .each s.dieList fun d => .all [
      .upTo 2 fun st => .when (s.hbmReady d st) (.set .HBM_STATUS_STATE d st 2),
      .set .PWR_DOM_ON d 0 (if v == 1 then s.standbyDomains d else 1),
      .when (v == 2) (.all [
        .upTo 2 fun p => ethDown d p,
        .upTo 4 fun p => .set .IGN_STATUS_STATE d p 0])],
    .when (v == 2) (.all [.set .I_MG_LINK 0 0 0, .set .I_MG_SECURE 0 0 0, .set .I_MG_PEERS 0 0 0, pcieDown, pinsLow]),
    .set .PKG_STATE 0 0 v]

/-- The package wakes: a package warm restart (R768, R769). From SLEEP it has 300 ms more. -/
def wakePkg (cause : Nat) : Act :=
  .get fun s =>
    .when (s.rd .PKG_STATE 0 == 1 || s.rd .PKG_STATE 0 == 2) (.all [
      .set .PKG_WAKE_CAUSE 0 0 cause,
      requestWarmRestart,
      .when (s.rd .PKG_STATE 0 == 2) (.set .I_RESTART_WARM_AT 0 0 (s.ticks + 300000 * ticksPerUs)),
      .set .PKG_STATE 0 0 3,
      bellRing 0 0x0B3])

/-- A write to PKG_REQ (R765, R766, R768). -/
def pkgReqAct (v : Nat) : Act :=
  .get fun s =>
    let st := s.rd .PKG_STATE 0
    if v == 3 then wakePkg 1
    else if v == 0 || v == st then .nop
    else
      match s.pkgRefusal v with
      | some c => .set .PKG_REQ_ERR 0 0 c
      | none => enterPkg v

/-- PKG_REQ_STANDBY (R766, R767). -/
def execPkgReqStandby (s : State) : Host.Outcome State Fault Refusal := (pkgReqAct 1).done s

/-- PKG_REQ_SLEEP (R766, R767). -/
def execPkgReqSleep (s : State) : Host.Outcome State Fault Refusal := (pkgReqAct 2).done s

/-- PKG_REQ_RUN (R768). -/
def execPkgReqRun (s : State) : Host.Outcome State Fault Refusal := (pkgReqAct 3).done s

/-- PKG_WAKE_AT: device time reaches the wake instant (R768). -/
def execPkgWakeAt (s : State) : Host.Outcome State Fault Refusal :=
  (Act.when (s.rd .PKG_WAKE_AT 0 != 0 && decide (s.rd .PKG_WAKE_AT 0 ≤ s.now 0)) (wakePkg 4)).done s

/-- PERST_DEASSERT: the PCIe domain is on, WAKE# is released and PME_Status set, and a sleeping package wakes (R752, R768, 14
R632). -/
def execPerstDeassert (s : State) : Host.Outcome State Fault Refusal :=
  (Act.when (s.on .I_PERST 0) (.all [
    .set .I_PERST 0 0 0,
    .when (s.rd .PKG_STATE 0 != 2) (.upd .PWR_DOM_ON 0 0 fun v => putBit v 9 true),
    .when (s.on .I_WAKE 0) (.seq (.set .I_WAKE 0 0 0) (.set .I_PME_STATUS 0 0 1)),
    wakePkg 3])).done s

/-- PERST_ASSERT: the PCIe domain of die 0 is off, and the link is down (R752, 19 R827). -/
def execPerstAssert (s : State) : Host.Outcome State Fault Refusal :=
  (Act.all [
    .set .I_PERST 0 0 1,
    .upd .PWR_DOM_ON 0 0 fun v => putBit v 9 false,
    pcieDown]).done s

/-- PCIE_D3_ENTRY: the function leaves D0 for D3hot, or for D3cold with its link down (14 R632, 19 R827). -/
def execPcieD3Entry (cold pmeEn : Bool) (s : State) : Host.Outcome State Fault Refusal :=
  (Act.when (s.on .PCIE_STATUS_LINK 0) (.seq (.set .I_PME_EN 0 0 (b2n pmeEn))
    (if cold then pcieDown else .set .PCIE_STATUS_DSTATE 0 0 2))).done s

/-- EVENT_PIN_EDGE: an edge on an event pin; none is caught while the device is held in cold reset (14 R634, R635, 20 R812). An edge
that a chosen latch catches wakes the package (R768). -/
def execEventPinEdge (pin : Nat) (rising : Bool) (shortestNs : Nat) (s : State) : Host.Outcome State Fault Refusal :=
  (Act.when (!s.on .I_HELD_COLD 0) (.seq (latchEdge pin rising shortestNs true)
    (.when (latchCatches s pin rising && decide (10 ≤ shortestNs) && bit (s.rd .PKG_WAKE_LATCH 0) pin) (wakePkg 2)))).done s

/-! ### Louvre and temperature (R755 to R763) -/

/-- The gate that a window samples: the largest of the three (R756). -/
def State.gateOf (s : State) (die : Nat) : Nat := max (s.rd .LV_FLOOR die) (max (s.rd .LV_POWER die) (s.rd .LV_THERMAL die))

/-- Every enabled engine whose cluster is on counts the steps that the window gates (R755, 05 R244). DEDUCED: they are counted when
the window starts (log entry 38). -/
def countGated (s : State) (die g : Nat) : Act :=
  .when (g != 0) (.upTo 32 fun core => .when (bit (s.rd .PWR_DOM_ON die) (10 + core / 4)) (.upTo 4 fun e =>
    .when (s.enabled die core e) (.inc .ENG_LOUVRE_GATED die (ctxIdx core e) g)))

/-- LOUVRE_WINDOW_START: the gate in force is the largest of the three (R755, R756). -/
def execLouvreWindowStart (die : Nat) (s : State) : Host.Outcome State Fault Refusal :=
  (Act.when (s.dieThere die) (.seq
    (.set .LV_GATE die 0 (s.gateOf die))
    (countGated s die (s.gateOf die)))).done s

/-- POWER_GATE_UPDATE: the estimate of the last microsecond moves the power gate (R757, R760). -/
def execPowerGateUpdate (die activity : Nat) (s : State) : Host.Outcome State Fault Refusal :=
  (Act.when (s.dieThere die) (
    let est := Config.powerCalibration die activity % 2 ^ 16
    let limit := 4 * s.rd .PWR_LIMIT die
    let old := s.rd .LV_POWER die
    let new := if limit < est then min (old + 4) 63 else if est * 100 < limit * 95 then old - 1 else old
    .all [
      .set .PWR_EST die 0 est,
      .set .LV_POWER die 0 new,
      .when (old == 0 && new != 0) (bellRing die 0x0B1)])).done s

/-- TH_WARN, and TH_CRIT as it acts, in 1/8 °C. -/
def State.thWarn (s : State) (die : Nat) : Int := signed 12 (s.rd .TH_WARN die)
def State.thCrit (s : State) (die : Nat) : Int :=
  let c := signed 12 (s.rd .TH_CRIT die)
  if c ≤ s.thWarn die then s.thWarn die + 8 else c

/-- The thermal gate of a reading (R759). -/
def State.thermalGate (s : State) (die : Nat) (t : Int) : Nat :=
  if t < s.thWarn die then 0
  else if s.thCrit die ≤ t then 63
  else (63 * (t - s.thWarn die) / (s.thCrit die - s.thWarn die)).toNat

/-- A reading was below a threshold at the last sample, or there was no sample. -/
def State.wasBelow (s : State) (die : Nat) (x : Int) : Bool :=
  !s.on .I_TH_SAMPLED die || decide (signed 12 (s.rd .I_TH_HOT die) < x)

/-- TEMPERATURE_SAMPLE: the readings of a die's sensors, in 1/8 °C (R759 to R762). -/
def execTemperatureSample (die : Nat) (readings : List Int) (s : State) : Host.Outcome State Fault Refusal :=
  (match (readings.take 16).max? with
   | none => Act.nop
   | some t => .when (s.dieThere die) (.all [
       .all ((readings.take 16).zipIdx.map fun (p : Int × Nat) => Act.set .TH_SENSOR die p.2 (encode 12 p.1)),
       .when (!s.on .I_TH_SAMPLED die || decide (signed 12 (s.rd .TH_MAX die) < t)) (.set .TH_MAX die 0 (encode 12 t)),
       .set .LV_THERMAL die 0 (s.thermalGate die t),
       .when (s.wasBelow die (s.thWarn die) && decide (s.thWarn die ≤ t)) (bellRing die 0x0B0),
       .when (s.wasBelow die (s.thCrit die) && decide (s.thCrit die ≤ t)) (bellRing die 0x0B2),
       .set .I_TH_HOT die 0 (encode 12 t),
       .set .I_TH_SAMPLED die 0 1])).done s

/-- THERMAL_TRIP: THERM_TRIP_N goes low, the alive pins go low, and the package stops until cold reset. Whether the Keeper can still
write the record is open, and no class names it: class, level, action and detail are free values (R763). -/
def execThermalTrip (die sensor : Nat) (s : State) : Host.Outcome State Fault Refusal :=
  (Act.when (s.dieThere die) (.all [
    .set .I_TRIPPED 0 0 1,
    .set .I_THERM_TRIP_N 0 0 0,
    pinsLow,
    .free fun can => .when (can % 2 == 1) (.free fun v => .free fun detail => .get fun t =>
      let bs := faultBytes (t.now die) (t.rd .FLT_SEQ 0) (bits v 0 8) (bits v 8 8) die (bits v 16 8) sensor 0xFF t.sync detail
      .upTo 8 fun w => .set .FLT_LAST die w (leAt bs (4 * w) 4))])).done s

/-! ### Dies and stacks (16 R688) -/

/-- A die fails: it is recorded, and what follows a die fault follows (16 R688, 15 R678, 13 R601). -/
def failDie (die : Nat) : Act :=
  .free fun detail => .all [
    .upd .FLT_DIE_FAILED 0 0 fun v => putBit v die true,
    faultRecord die .dieFail 4 10 die 0xFF detail,
    dieFault die]

/-- DIE_FAIL. -/
def execDieFail (die : Nat) (s : State) : Host.Outcome State Fault Refusal :=
  (Act.when (s.dieThere die) (failDie die)).done s

/-- HBM_STACK: a stack fails, and its die with it (16 R688). -/
def execHbmStack (die stack : Nat) (s : State) : Host.Outcome State Fault Refusal :=
  (Act.when (s.dieThere die && decide (stack < 2)) (.free fun detail => .all [
    .set .HBM_STATUS_STATE die stack 3,
    faultRecord die .hbmStack 4 10 stack 0xFF detail,
    failDie die])).done s

end Sys2Proof.Machine
end

