-- ==== Sys2Proof/Machine/Registers.lean ====
section
/-! DEFINITION. The register window: what an offset holds, what a read returns and does, what a write does (00 R7 to R22,
02 R47, R831, 15 R670, 19 R785, R786). -/

namespace Sys2Proof.Machine

/-! ### Which fields lie at an offset -/

/-- Entry of a table that a distance from the table's first entry names; none between entries and beyond the table. -/
def entryAt : List (Nat × Nat) → Nat → Option Nat
  | [], rel => if rel == 0 then some 0 else none
  | (n, pitch) :: ds, rel =>
    if rel / pitch < n then (entryAt ds (rel % pitch)).map fun i => rel / pitch * ds.foldl (fun a p => a * p.1) 1 + i else none

/-- An entry that a die lacks: the management port's stamps and the host vectors exist on die 0 only (02 R61, 14 R620). -/
def entryThere (die : Nat) (f : Fld) (i : Nat) : Bool :=
  die == 0 || (!f.info.die0 &&
    (if [Fld.TSF_STATUS_COUNT, .TSF_STATUS_LOST, .TSF_SEC, .TSF_NS, .TSF_FRAC, .TSF_ID_SEQ, .TSF_ID_TYPE, .TSF_ID_DOMAIN,
        .TSF_POP].contains f then decide (i < 2)
     else if [Fld.BELL_CLAIM, .BELL_COMPLETE, .BELL_TCTL_NEST, .BELL_TCTL_LEVEL, .BELL_TCTL_ACTIVE, .BELL_TCTL_DEPTH, .BELL_MOD_US,
        .BELL_MOD_COUNT, .BELL_MOD_HELD, .BELL_MOD_ARMED].contains f then decide (i < 33)
     else true))

/-- Entry of a field whose register holds a word of the window. -/
def fieldAt (die off : Nat) (f : Fld) : Option Nat :=
  let o := if f.info.wide then off / 8 * 8 else off
  if o < f.info.base then none
  else (entryAt f.info.dims (o - f.info.base)).bind fun i => if entryThere die f i then some i else none

/-- The fields at a word of the window; none at an unassigned one (R14). -/
def regFields (die off : Nat) : List (Fld × Nat) := Fld.window.filterMap fun f => (fieldAt die off f).map fun i => (f, i)

/-- Some field there belongs to a 32-bit register. -/
def hasNarrow (fs : List (Fld × Nat)) : Bool := fs.any fun p => !p.1.info.wide

/-- The access has a width and an alignment that the register takes (R9). -/
def accessOk (die off width : Nat) : Bool :=
  width == 32 && off % 4 == 0 ||
  width == 64 && off % 8 == 0 && !hasNarrow (regFields die off) && !hasNarrow (regFields die (off + 4))

/-! ### Reads -/

/-- Logical core that a physical core serves (10 CORE_ID_LOGICAL). -/
def State.logicalCore (s : State) (die core : Nat) : Nat :=
  ((List.range 32).find? fun l => s.rd .HG_PHYS die l == core && s.on .HG_VALID die l).getD
    (((List.range 32).find? fun l => s.rd .HG_PHYS die l == core).getD 0)

/-- Accepted units of a partition that have not ended (13 PT_OPEN). -/
def State.openCount (s : State) (p : Nat) : Nat :=
  (s.aux.frames.filter fun f => f.part == p && f.accepted && !f.bound && !f.ended).length +
  ((s.aux.jobs.filter fun j => j.part == p && j.kind != 1 && !j.ended).map fun j =>
    1 + (j.binds.filter fun b => b.seq.isSome).length).sum +
  (s.aux.decs.filter fun d => d.part == p).length

/-- Registers of the time unit that read die 0's values on every die (02 R831). -/
def Fld.timeShared (f : Fld) : Bool :=
  [Fld.TIME_INCR, .TIME_ADJ, .TIME_SET_SEC, .TIME_SET_NS, .TIME_SET_FRAC, .TIME_SET_COMMIT, .TIME_STATUS_SYNC, .TIME_STATUS_SLEWING,
    .TIME_STATUS_COMMIT_PENDING, .TIME_WATCH_SERVO_MS, .TIME_WATCH_HOLD_S, .TIME_WATCH_EN, .TIME_SERVO, .TIME_STEP_COUNT].contains f

/-- Oldest stamp of a port (02 TSF). -/
def State.stampHead (s : State) (die port : Nat) (g : Stamp → Nat) : Nat := ((s.stampsOf die port).head?.map g).getD 0

/-- The value of a field as a read gives it (R7, R22). Fields that other state determines are computed from it. -/
def State.field (s : State) (die : Nat) (f : Fld) (i : Nat) : Nat :=
  match f with
  | .TIME_NOW_SEC => if die == 0 then s.rd f 0 else s.seconds die
  | .TIME_NOW_NS => if die == 0 then s.rd f 0 else s.nanos die
  | .TIME_NOW_FRAC => s.rd f 0
  | .TIME_ADJ => s.timeAdj
  | .TSF_STATUS_COUNT => (s.stampsOf die i).length
  | .TSF_SEC => s.stampHead die i Stamp.sec
  | .TSF_NS => s.stampHead die i Stamp.ns
  | .TSF_FRAC => s.stampHead die i Stamp.frac
  | .TSF_ID_SEQ => s.stampHead die i Stamp.seqId
  | .TSF_ID_TYPE => s.stampHead die i Stamp.msgType
  | .TSF_ID_DOMAIN => s.stampHead die i Stamp.domain
  | .SC_STATUS_OPEN => b2n (s.openFrame die i).isSome
  | .SC_STATUS_BUF_WAIT => b2n ((s.openFrame die i).any fun q => q.buf.isNone)
  | .SC_STATUS_HELD =>
    let held := fun b => s.aux.frames.any fun q => q.die == die && q.entry == i && q.isSealed && q.buf == some b
    bitIf (held 0) 0 + bitIf (held 1) 1
  | .SC_STATUS_NEW_SET => b2n (!s.on .ING_STATUS_COMMIT_PENDING die || s.on .I_SC_TAKEN die i)
  | .SC_OPEN_COUNT => ((s.openFrame die i).map fun q => q.count).getD 0
  | .ING_LOAD => s.ingLoad die
  | .BC_OCCUPIED => (s.slotReqs die i).length
  | .BC_WAITING => (s.waitingReqs die i).length
  | .CORE_ID_PHYS => i
  | .CORE_ID_LOGICAL => s.logicalCore die i
  | .CORE_ID_DIE => die
  | .CORE_ID_ENGINES => (List.range 4).foldl (fun m e => m + bitIf (s.enabled die i e) e) 0
  | .CORE_STATUS_BUSY => (List.range 4).foldl (fun m c => m + bitIf (s.ctxState die i c != 0) c) 0
  | .CORE_STATUS_PREEMPTED => (List.range 4).foldl (fun m c => m + bitIf (s.ctxState die i c == 3) c) 0
  | .STG_WK_HELD => (s.wickets die i).length
  | .STG_WK_WAITING => min 255 (s.aux.credits.filter fun c => c.die == die && c.core == i).length
  | .PT_OPEN => s.openCount i
  | .JOB_STATUS_COMMIT_PENDING => b2n (s.jobPending die)
  | .JT_HELD => (s.held die i).length
  | .BELL_RAW => s.rd .BELL_PEND die i ||| s.rd .I_BELL_HELD die i
  | .BELL_TCTL_LEVEL => (bellLevel s die i).getD 0
  | .BELL_TCTL_ACTIVE => b2n (bellLevel s die i).isSome
  | .BELL_TCTL_DEPTH => (bellActives s die i).length
  | .BELL_MOD_US => if i < 33 then 0 else s.rd f die i
  | .BELL_MOD_COUNT => if i < 33 then 0 else s.rd f die i
  | .BELL_MOD_HELD => if i < 33 then 0 else s.rd f die i
  | .BELL_MOD_ARMED => if i < 33 then 0 else s.rd f die i
  | .ULS_SAFE_PARTS => s.safeParts die
  | .ULS_STATUS_COMMIT_PENDING => b2n ((List.range ulsEntries).any fun e => s.on .I_ULS_WAIT die e)
  | .ULS_STATUS_ALIVE => b2n (die == 0 && s.alive)
  | .PRF_STATE => if s.enabled die (i / 4) (i % 4) then s.rd f die i else 3
  | .FLT_SEQ => s.rd f 0
  | .FLT_COUNT => s.rd f 0 i
  | _ => if f.timeShared then s.rd f 0 i else s.rd f die i

/-- A read of a field: a write-only one reads zero (R7). -/
def State.readField (s : State) (die : Nat) (f : Fld) (i : Nat) : Nat := if f.info.acc == .wo then 0 else s.field die f i

/-- The register at an offset, whole (R13: bits of no field read zero). -/
def State.register (s : State) (die off : Nat) : Nat :=
  (regFields die off).foldl (fun v p => v + s.readField die p.1 p.2 * 2 ^ p.1.info.lo) 0

/-- A word of a 64-bit register that is its high half. -/
def highHalf (die off : Nat) : Bool := off % 8 == 4 && (regFields die off).any fun p => p.1.info.wide

/-- The low half of a 64-bit register. -/
def lowHalf (die off : Nat) : Bool := off % 8 == 0 && (regFields die off).any fun p => p.1.info.wide

/-- A capture by a requester that waits at an offset. -/
def State.capture (s : State) (who : Requester) (die off : Nat) : Option Capture :=
  s.aux.captures.find? fun c => c.who == who && c.die == die && c.off == off

/-- Replace a requester's capture at an offset. -/
def putCapture (c : Capture) : Act :=
  .aux fun a => { a with captures := c :: a.captures.filter fun d => !(d.who == c.who && d.die == c.die && d.off == c.off) }

/-- Offset of TIME_NOW_SEC (02 R47). -/
def timeNowOff : Nat := 0x20000

/-- Captures that a 32-bit read of a low half makes (R10, 02 R47). -/
def captureHigh (who : Requester) (die off : Nat) : Act :=
  .get fun s => .seq (putCapture ⟨who, die, off + 4, s.register die off / 2 ^ 32⟩)
    (.when (off == timeNowOff) (.seq
      (putCapture ⟨who, die, timeNowOff + 8, s.register die (timeNowOff + 8)⟩)
      (putCapture ⟨who, die, timeNowOff + 12, s.register die (timeNowOff + 12)⟩)))

/-- What a read does to read-clear fields: each is cleared but for what arrives in the same cycle (R7, R11). -/
def readClear (die arriving : Nat) (fs : List (Fld × Nat)) : Act :=
  .each fs fun p => .when (p.1.info.acc == .rc && p.1 != .BELL_CLAIM)
    (.set p.1 die p.2 (bits arriving p.1.info.lo p.1.info.width))

/-- Counters of cycles, and numbers of tags in use at an instant. What they hold depends on the timing of the hardware, which the
spec leaves open, so a read finds a free value in them (05 R220, R228, R229, R246, 11 R485, R486, 12 R536; log entry 39). -/
def Fld.timing (f : Fld) : Bool :=
  [Fld.ENG_LOAD_BUBBLE, .ENG_FEED_STALL, .ENG_DRAIN_STEPS, .ENG_OUT_STALL, .STG_CONFLICT_W, .STG_CONFLICT_A, .STG_CONFLICT_P,
    .STG_NARROW_WAIT, .STG_NARROW_FORCED, .VT_CONFLICT, .FAB_RD_INFLIGHT, .FAB_WR_INFLIGHT, .FAB_TAG_WAIT].contains f

/-- Values that a timing counter can show: up to all tags of a die for the tags in use (12 R535), else any of its width. -/
def Fld.timingRange (f : Fld) : Nat :=
  if f == .FAB_RD_INFLIGHT then 4097 else if f == .FAB_WR_INFLIGHT then 2049 else 2 ^ f.info.width

/-- A timing counter moves: an engine's from its first load or pass after a core reset on (05 R256). -/
def State.timingMoves (s : State) (die : Nat) (p : Fld × Nat) : Bool :=
  p.1.timing &&
  (!([Fld.ENG_LOAD_BUBBLE, .ENG_FEED_STALL, .ENG_DRAIN_STEPS, .ENG_OUT_STALL].contains p.1) || (s.engine die (p.2 / 4) (p.2 % 4)).ran)

/-- The timing counters of a register take the values that a read finds. -/
def takeTiming (die : Nat) (fs : List (Fld × Nat)) : Act :=
  .get fun s => .each (fs.filter (s.timingMoves die)) fun p => .free fun v => .set p.1 die p.2 (v % p.1.timingRange)

/-- A read of the window with its effects (R7 to R14). -/
def readReg (who : Requester) (die off width arriving : Nat) : M Nat := do
  let s ← M.state
  let fs := regFields die off
  if !accessOk die off width then M.fail codeFabric (low32 (pkgAddr die (regBase + off)))
  else
    match s.capture who die off with
    | some c =>
      if width == 32 then do
        M.act (.aux fun a => { a with captures := a.captures.erase c })
        pure c.value
      else pure (s.register die off)
    | none =>
      match fs.find? fun p => p.1 == .BELL_CLAIM || p.1 == .SEC_RANDOM with
      | some (.BELL_CLAIM, t) => do
        M.act (bellClaimAct die t)
        pure (claimWord s die t)
      | some _ => do
        let r ← (ExceptT.lift fun k => Act.random k : M Nat)
        pure (r % 2 ^ 32)
      | none => do
        M.act (takeTiming die fs)
        let t ← M.state
        let v := t.register die off
        M.act (readClear die arriving fs)
        if width == 32 && lowHalf die off then M.act (captureHigh who die off) else pure ()
        pure (if width == 64 then v else if highHalf die off then v / 2 ^ 32 else v % 2 ^ 32)

/-! ### Writes -/

/-- The requester is a Keeper (19 R786). -/
def isKeeper (who : Requester) : Bool :=
  match who with
  | .keeper _ => true
  | .host => false
  | .context _ _ _ => false
  | .unit _ => false

/-- A field that its chapter reserves to the Keeper (12 HBM_HASH_M, 15 R670, 16 hinge table). -/
def Fld.keeperOnly (f : Fld) : Bool :=
  f.info.set == .mul || [Fld.MUL_COMMIT, .HG_PHYS, .HG_VALID, .HG_PART, .HG_MOVED, .HBM_HASH_M].contains f

/-- A write takes the field's new value: read-write fields, and those of the Keeper (R7, 19 R786). -/
def Fld.takes (f : Fld) (who : Requester) : Bool :=
  if f.keeperOnly then isKeeper who else f.info.acc == .rw || f.info.acc == .wc

/-- A write to MUL_COMMIT by the Keeper: the table is active at once (15 R670). -/
def mulCommitAct (die : Nat) : Act := .seq (snapshotSet .mul die fun _ => true) (activateSet .mul die fun _ => true)

/-- A write to PRD_COMMIT (09 R416). An idle or unused entry waits for its next PREDICT like any other: it does not count as stopped
under 00 R19 (DEDUCED; log entry 162). -/
def prdCommitAct (die i : Nat) : Act := .seq (snapshotSet .prd die fun j => j == i) (.set .PRD_COMMIT_PENDING die i 1)

/-- A write to PRD_REENABLE (09 R415). -/
def prdReenableAct (die i : Nat) : Act := .seq (.set .PRD_REENABLE_PENDING die i 1) (.set .I_PRD_KEEP die i 0)

/-- A write to TR_GO: submits TR_REQ, or is discarded and counted while a request is served (17 R735, R736). -/
def trGoAct : Act :=
  .get fun s => if s.rd .TR_STATE 0 == 1 then .inc .TR_BUSY_DROP 0 else .set .TR_STATE 0 0 1

/-- A write to a shutter register: one request for each group (11 R517). -/
def shutRegAct (die : Nat) (u : ShutterUnit) (v : Nat) : Act := .upTo (shutGroups u) fun g => shutterWrite die u g (bits v (2 * g) 2)

/-- Pending sources of a target, on the dies where they lie. -/
def pendingOf (s : State) (die t : Nat) : List (Nat × Nat) :=
  (bellDies s die t).flatMap fun d => ((bellSources s .BELL_PEND d).filter fun n => bellTarget s d n == some t).map fun n => (d, n)

/-- What a write does to a field: `reg` is the register as the write leaves it, `v` the field's part of it. -/
def writeField (who : Requester) (die : Nat) (f : Fld) (i reg v : Nat) : Act :=
  let plain := Act.when (f.takes who) (.set f die i v)
  match f with
  | .TIME_INCR => .seq plain (.set .I_SILENCE 0 0 0)
  | .TIME_ADJ => timeAdjAct v
  | .TIME_SET_COMMIT => .seq plain timeSetCommitAct
  | .TIME_SERVO => timeServoAct v
  | .TSF_POP => tsfPopAct die i
  | .PM_COMMIT => .seq plain (pmCommitAct die i)
  | .PE_COMMIT => .seq plain (peCommitAct die)
  | .ING_COMMIT => .seq plain (ingCommitAct die)
  | .BC_COMMIT => .seq plain (bcCommitAct die i)
  | .BC_DONE => bcDoneAct die i v
  | .PRD_COMMIT => .seq plain (prdCommitAct die i)
  | .PRD_REENABLE => prdReenableAct die i
  | .JOB_COMMIT => .seq plain (jobCommitAct die)
  | .JOB_FIRE => .get fun t => fireTrigger { die := die, trigger := v, kind := 3, channel := t.ac .JT_CHANNEL die v }
  | .ULS_COMMIT => .seq plain (ulsCommitAct die)
  | .ULS_SAFE_REQ => safeReqAct die v
  | .ULS_SAFE_REL => safeRelAct v
  | .ULS_KEEPER_BEAT => keeperBeatAct die
  | .ZN_NET_FSEQ => .get fun s => znNetAct die i reg (s.tagOf who)
  | .ZN_NET_OCCUPIED => .nop
  | .MUL_COMMIT => .when (isKeeper who) (.seq plain (mulCommitAct die))
  | .SQ_STOP => sqStopAct die i v
  | .SEM_SET_NO => semSetAct die i v (bits reg 16 16)
  | .STG_SHUT_W => shutRegAct die (.wStore i) v
  | .STG_SHUT_A => shutRegAct die (.aStore i) v
  | .STG_SHUT_P => shutRegAct die (.pStore i) v
  | .VT_SHUT => shutRegAct die (.vault i) v
  | .BELL_DOORBELL => doorbell who die v
  | .BELL_HOLD_SET => bellHold die v
  | .BELL_HOLD_CLR => bellRelease die v
  | .BELL_COMPLETE => bellCompleteAct die i v
  | .BELL_PEND => bellPlain (bellWord die i) plain
  | .BELL_MASK => bellPlain (bellWord die i) plain
  | .BELL_TGT_KIND => bellPlain [(die, i)] (.all [plain, .set .BELL_TGT_INDEX die i (bits reg 2 6), .set .BELL_TGT_PRIO die i (bits reg 8 4)])
  | .BELL_TCTL_NEST => .get fun s => bellPlain (pendingOf s die i) plain
  | .BELL_MOD_US => .when (decide (33 ≤ i)) plain
  | .BELL_MOD_COUNT => .when (decide (33 ≤ i)) plain
  | .TR_GO => trGoAct
  | .PKG_REQ => pkgReqAct v
  | _ => plain

/-- The register's value after a write of a word or of the whole (R9). -/
def State.newRegister (s : State) (die off width value : Nat) (f : Fld) (i : Nat) : Nat :=
  if !f.info.wide || width == 64 then value
  else putBits (s.rd f die i * 2 ^ f.info.lo) (off % 8 * 8) 32 value

/-- A write to the window (R7 to R14). On dies other than die 0 the time unit's registers discard it (02 R831). -/
def writeReg (who : Requester) (die off width value : Nat) : M Unit :=
  if !accessOk die off width then M.fail codeFabric (low32 (pkgAddr die (regBase + off)))
  else M.act (.each (regFields die off) fun p =>
    .get fun s =>
      let reg := s.newRegister die off width value p.1 p.2
      .when (die == 0 || !p.1.timeShared) (writeField who die p.1 p.2 reg (bits reg p.1.info.lo p.1.info.width)))

/-- An access answers its requester: with a value, or with an error response (R9). -/
def answerRead (who : Requester) : Except Err Nat → Act
  | .ok v => .out (.readData who v)
  | .error e => .out (.accessError who e.code)

/-- A write answers only with an error. -/
def answerWrite (who : Requester) : Except Err Unit → Act
  | .ok _ => .nop
  | .error e => .out (.accessError who e.code)

/-! ### Commands -/

/-- REGISTER_WRITE: a write that the mullions have admitted (R7 to R16). -/
def execRegisterWrite (who : Requester) (die off width value : Nat) (s : State) : Host.Outcome State Fault Refusal :=
  (Act.when (s.dieThere die) ((writeReg who die off width (value % 2 ^ width)).then (answerWrite who))).done s

/-- RC_READ: a read that clears; `arriving` holds what hardware sets in the same cycle (R7, R11). -/
def execRcRead (who : Requester) (die off width arriving : Nat) (s : State) : Host.Outcome State Fault Refusal :=
  (Act.when (s.dieThere die) ((readReg who die off width arriving).then (answerRead who))).done s

/-- LOW_HALF_READ: a 32-bit read of a low half captures the high half (R10, 02 R47). -/
def execLowHalfRead (who : Requester) (die off : Nat) (s : State) : Host.Outcome State Fault Refusal :=
  (Act.when (s.dieThere die) ((readReg who die off 32 0).then (answerRead who))).done s

/-- MUL_COMMIT: only the Keeper's write acts (15 R670). -/
def execMulCommit (who : Requester) (die : Nat) (s : State) : Host.Outcome State Fault Refusal :=
  (Act.when (s.dieThere die && isKeeper who) (mulCommitAct die)).done s

/-- PRD_COMMIT (09 R416). -/
def execPrdCommit (die core entry : Nat) (s : State) : Host.Outcome State Fault Refusal :=
  (Act.when (s.dieThere die) (prdCommitAct die (core * 16 + entry))).done s

/-- PRD_REENABLE (09 R415). -/
def execPrdReenable (die core entry : Nat) (s : State) : Host.Outcome State Fault Refusal :=
  (Act.when (s.dieThere die) (prdReenableAct die (core * 16 + entry))).done s

end Sys2Proof.Machine
end

