-- ==== Sys2Proof/Machine/Fabric.lean ====
section
/-! DEFINITION. Transactions (12_fabric_memory_and_links.md, 15 R666 to R670, 19 R781 to R801): the way over the die links, the
mullions, and what a transaction does at its target; host accesses; the HBM controllers' scrub and monitor; the Ignov link layer. -/

namespace Sys2Proof.Machine

/-! ### What a transaction does -/

/-- Read bytes of the register window: one access, of a width that a register takes there (R9). -/
def readWindow (who : Requester) (die off len : Nat) : M (List Byte) := do
  let v ← readReg who die off (8 * len) 0
  pure (toLe len v)

/-- Write bytes of the register window: one access, as for a read (R9). -/
def writeWindow (who : Requester) (die off : Nat) (bs : List Byte) : M Unit := writeReg who die off (8 * bs.length) (leNat bs)

/-- One read transaction of at most a granule. -/
def txnRead (who : Requester) (a len : Nat) : M (List Byte) :=
  atPlace who a (.read len) fun p =>
  if p.room < len then M.fail codeFabric (low32 a)
  else
    match p with
    | .hbm st o => readHbm (addrDie a) st o len
    | .vault k o => readVault (addrDie a) k o len
    | .store c o => readStore (addrDie a) c o len
    | .regs o => readWindow who (addrDie a) o len
    | .nowhere => M.fail codeFabric (low32 a)

/-- A write or add from outside into an A-store or P-store needs a wicket; the Keeper's writes need none (11 R509, R510). -/
def needWicket (who : Requester) (die core off len : Nat) : M Unit := do
  let s ← M.state
  if off < 0x400000 || isKeeper who || s.wicketCovers die core off len who then pure () else refuseWicket die core off

/-- One write transaction of at most a granule. -/
def txnWrite (who : Requester) (a : Nat) (bs : List Byte) : M Unit :=
  doAtPlace who a (.write bs) fun p =>
  if p.room < bs.length then M.fail codeFabric (low32 a)
  else
    match p with
    | .hbm st o => writeHbm (addrDie a) st o bs
    | .vault k o => writeVault (addrDie a) k o bs
    | .store c o => do
      needWicket who (addrDie a) c o bs.length
      writeStore (addrDie a) c o bs
    | .regs o => writeWindow who (addrDie a) o bs
    | .nowhere => M.fail codeFabric (low32 a)

/-- Sum of two elements of a format, rounded or saturated once (04 R210, 06 R271, R272). -/
def addElement (fmt x y : Nat) : Nat :=
  match floatFmtOf fmt with
  | some f => (f.round false ((f.decode x).add (f.decode y))).1
  | none =>
    let n := fmtBits fmt
    let value := fun (v : Nat) => if fmt == fmtUint8 then (v : Int) else signed n v
    let lo : Int := if fmt == fmtUint8 then 0 else -(2 ^ (n - 1) : Nat)
    let hi : Int := if fmt == fmtUint8 then 255 else (2 ^ (n - 1) : Nat) - 1
    encode n (clampInt lo hi (value x + value y)).1

/-- Element-wise sum of packed bytes. -/
def addBytes (fmt : Nat) (old new : List Byte) : List Byte :=
  packElements fmt ((List.range (new.length * 8 / fmtBits fmt)).map fun i => addElement fmt (elementAt fmt old i) (elementAt fmt new i))

/-- Add into a core's own stores, where adders stand at P-store alone (11 R494 to R496). A group that is not ON refuses the add as it
does a write, before anything is read (11 R519 to R521). -/
def addStore (die core off fmt : Nat) (bs : List Byte) : M Unit :=
  if off < 0x800000 then M.fail codeRange
  else do
    let s ← M.state
    match (rowsOf off bs.length).find? fun r => s.groupState die core r != 0 with
    | some r => do
      M.act (refuseStore die core)
      M.fail codeStoreShut r
    | none => do
      let old ← readStore die core off bs.length
      writeStore die core off (addBytes fmt old bs)

/-- A write or add to a vault segment that is not ON is refused before anything is read (11 R519 to R521). -/
def needSegment (die k off len : Nat) : M Unit := do
  let s ← M.state
  match (rowsOf off len).find? fun r => s.segState die k r != 0 with
  | some r => do
    M.act (refuseVault die k)
    M.fail codeStoreShut r
  | none => pure ()

/-- Add into a vault by its atomic units, which count the rows added (11 R494, R496). -/
def addVault (die k off fmt : Nat) (bs : List Byte) : M Unit := do
  needSegment die k off bs.length
  let old ← readVault die k off bs.length
  writeVault die k off (addBytes fmt old bs)
  M.act (.inc .VT_ADDS die k (rowsOf off bs.length).length)

/-- One add transaction (11 R494 to R496). -/
def txnAdd (who : Requester) (a fmt : Nat) (bs : List Byte) : M Unit :=
  doAtPlace who a (.add fmt bs) fun p =>
  if p.room < bs.length then M.fail codeFabric (low32 a)
  else
    match p with
    | .vault k o => addVault (addrDie a) k o fmt bs
    | .store c o => do
      needWicket who (addrDie a) c o bs.length
      addStore (addrDie a) c o fmt bs
    | _ => M.fail codeRange

/-- One slot operation at a vault (04 R174, R178, 11 R497): a slot occupied in the build answers as it stands; any other is claimed
for the key. Answers the slot as the operation found it. -/
def vaultSlot (die k off key build index : Nat) : M (List Byte) := do
  needSegment die k off 16
  let old ← readVault die k off 16
  M.act (.inc .VT_SLOT_OPS die k)
  if leAt old 4 3 != build then writeVault die k off (toLe 4 key ++ toLe 3 build ++ toLe 1 0 ++ toLe 4 index ++ toLe 4 0) else pure ()
  pure old

/-- Granules that a range touches: offset in the range and length. -/
def granules (a len : Nat) : List (Nat × Nat) :=
  if len == 0 then []
  else (List.range ((a + len - 1) / 256 - a / 256 + 1)).map fun i =>
    let lo := max a ((a / 256 + i) * 256)
    (lo - a, min (a + len) ((a / 256 + i + 1) * 256) - lo)

/-- Read a range by package address, in transactions of a granule. -/
def fabricRead (who : Requester) (a len : Nat) : M (List Byte) := do
  let bs ← M.collect (granules a len) fun g => txnRead who (a + g.1) g.2
  pure bs.flatten

/-- Write a range by package address, in transactions of a granule. -/
def fabricWrite (who : Requester) (a : Nat) (bs : List Byte) : M Unit :=
  M.each (granules a bs.length) fun g => txnWrite who (a + g.1) ((bs.drop g.1).take g.2)

/-- Places at which a range of elements of `es` bytes is cut into adds: at each granule's end, or on both sides of an element that
lies across it, so that each element is added whole (04 R210, 11 R496). -/
def addCuts (es a len : Nat) : List Nat :=
  (granules a len).flatMap fun g =>
    let e := g.1 + g.2
    if e == len || e % es == 0 then [e] else [e - e % es, e - e % es + es]

/-- Offset and length of the adds of a range of elements. -/
def addPieces (es a len : Nat) : List (Nat × Nat) :=
  let cuts := addCuts es a len
  ((0 :: cuts).zip cuts).filterMap fun c => if c.1 < c.2 then some (c.1, c.2 - c.1) else none

/-- Add a range by package address, in transactions of a granule; an element across two granules is one of its own. -/
def fabricAdd (who : Requester) (a fmt : Nat) (bs : List Byte) : M Unit :=
  M.each (addPieces (fmtBits fmt / 8) a bs.length) fun g => txnAdd who (a + g.1) fmt ((bs.drop g.1).take g.2)

/-! ### FABRIC_TRANSACTION -/

/-- Core whose control block a register offset lies in (19 R785). -/
def coreOfReg (off : Nat) : Option Nat := if 0x100000 ≤ off && off < 0x300000 then some ((off - 0x100000) / 0x10000) else none

/-- What the memory reports of a read comes once the transaction is admitted. -/
def meetRead (who : Requester) (a len : Nat) (meets : List (Nat × ReadCheck)) : M Unit := do
  let s ← M.state
  let there := s.placeOn (addrDie a) (placeOf (addrOff a)) &&
    match s.tagOf who with
    | some t => s.admits (addrDie a) (addrOff a) t false
    | none => true
  if there && 0 < len then M.act (meetAll (meets.filter fun m => rangesMeet m.1 1 (a / 64 * 64) ((a % 64 + len + 63) / 64 * 64))) else pure ()

/-- What a transaction asks for; it answers with the bytes of a read. -/
def txn (who : Requester) (a : Nat) (op : TxnOp) (meets : List (Nat × ReadCheck)) : M (List Byte) := do
  match op with
  | .read len => do
    meetRead who a len meets
    txnRead who a len
  | .write bs => do
    txnWrite who a bs
    pure []
  | .add fmt bs => do
    txnAdd who a fmt bs
    pure []
  | .slotOp key build => atPlace who a op fun p =>
      match p with
      | .vault k o => do
        let v ← M.free
        vaultSlot (addrDie a) k o key (build % 2 ^ 24) v
      | _ => M.fail codeRange
  | .semaphoreAdd sem count => atPlace who a op fun p =>
      match p with
      | .regs o =>
        match coreOfReg o with
        | some c => do
          M.act (semAdd (addrDie a) c (sem % 32) (count % 2 ^ 16))
          pure []
        | none => M.fail codeFabric (low32 a)
      | _ => M.fail codeFabric (low32 a)
  | .doorbell w => atPlace who a op fun p =>
      match p with
      | .regs o =>
        if o / 0x10000 == 1 then do
          M.act (doorbell who (addrDie a) w.toNat)
          pure []
        else M.fail codeFabric (low32 a)
      | _ => M.fail codeFabric (low32 a)

/-- Bytes of a transaction's data. -/
def txnSize : TxnOp → Nat
  | .read len => len
  | .write bs => bs.length
  | .add _ bs => bs.length
  | .slotOp _ _ => 16
  | .semaphoreAdd _ _ => 0
  | .doorbell _ => 0

/-- Flags that an access raised go to no command. -/
def dropRaised : Act := .aux fun x => { x with raised := 0 }

/-- FABRIC_TRANSACTION: one transaction within a granule (R533, R552, 15 R666 to R669, 19 R782). -/
def execFabricTransaction (who : Requester) (addr : Nat) (op : TxnOp) (meets : List (Nat × ReadCheck)) (s : State) :
    Host.Outcome State Fault Refusal :=
  (Act.when (decide (addr % 256 + txnSize op ≤ 256)) (.seq ((txn who (addr % 2 ^ 48) op meets).then fun r =>
    match r, op with
    | .ok bs, .read _ => .out (.readBytes who bs)
    | .ok bs, .slotOp _ _ => .out (.readBytes who bs)
    | .ok _, _ => .nop
    | .error e, _ => .out (.accessError who e.code)) dropRaised)).done s

/-! ### Host accesses (19 R798 to R801) -/

/-- Package address of a host access (R798). -/
def State.hostAddr (s : State) (bar off : Nat) : Nat :=
  if bar == 0 then pkgAddr 0 (regBase + off) else (s.rd .PCIE_APT_BASE 0 * 2 ^ 36 + off) % 2 ^ 48

/-- An error that R800 counts: a mullion's refusal, an address without a region, or a die that does not exist. -/
def State.countsForHost (s : State) (a code : Nat) : Bool :=
  code == codeMullion || code == codeFabric && (!s.dieThere (addrDie a) || placeOf (addrOff a) == .nowhere)

/-- Registers are accessed whole; any other target by its bytes. -/
def hostRead (a bytes : Nat) : M Nat := do
  let bs ← fabricRead .host a bytes
  pure (leNat bs)

/-- HOST_ACCESS (R798 to R801). A refused read ends with Unsupported Request, a refused write is discarded; both count. -/
def execHostAccess (bar off width : Nat) (write : Bool) (value : HostWord) (s : State) : Host.Outcome State Fault Refusal :=
  (Act.when (s.on .PCIE_STATUS_LINK 0) (
    let a := s.hostAddr bar off
    let bytes := width / 8
    let fails := fun (e : Err) => Act.when (s.countsForHost a e.code) (.inc .PCIE_ERR 0)
    if write then
      (fabricWrite .host a (toLe bytes value.value)).then fun r =>
        match r with
        | .ok _ => .nop
        | .error e => fails e
    else
      (do meetRead .host a bytes value.meets; hostRead a bytes : M Nat).then fun r => .seq dropRaised
        (match r with
        | .ok v => .out (.readData .host v)
        | .error e => .seq (fails e) (.out (.accessError .host e.code))))).done s

/-! ### HBM controllers (R543 to R548) -/

/-- HBM_SCRUB: the controller reads one word (R548). -/
def execHbmScrub (die stack off : Nat) (check : ReadCheck) (s : State) : Host.Outcome State Fault Refusal :=
  let w := off / 8 * 8
  let a := hbmAddr die stack w
  (Act.when (s.dieThere die && decide (stack < 2) && s.hbmReady die stack && decide (w < stackBytes)) (.all [
    .when (check == .corrected || s.aux.weakWords.contains a) (.seq
      (.aux fun x => { x with weakWords := x.weakWords.filter fun v => v != a }) (hbmCorrected die stack w)),
    .when (check == .uncorrectable || s.aux.badWords.contains a) (.seq
      (.aux fun x => { x with badWords := if x.badWords.contains a then x.badWords else x.badWords ++ [a] })
      (hbmUncorrectable die stack w)),
    if s.rd .I_HBM_SCRUBBED die stack + 1 == stackBytes / 8 then
      .seq (.set .I_HBM_SCRUBBED die stack 0) (.set .HBM_STATUS_SCRUB_DONE die stack 1)
    else .inc .I_HBM_SCRUBBED die stack])).done s

/-- Granules of a stack in the running window, by channel. -/
def State.windowCounts (s : State) (die stack : Nat) : List Nat :=
  (List.range 16).map fun c => s.rd .I_HBM_CNT die (stack * 16 + c)

/-- A qualifying window ends (R543, R544). -/
def qualifying (die stack : Nat) : Act :=
  .get fun s =>
    let cs := s.windowCounts die stack
    let share := cs.foldl max 0 * 256 / cs.sum
    let above := decide (s.rd .HBM_IMB_LIMIT die stack < share)
    let n := if above then min 255 (s.rd .I_HBM_OVER die stack + 1) else 0
    let need := s.rd .HBM_IMB_WINDOWS die stack
    .all [
      .set .HBM_IMB_SHARE die stack share,
      .upTo 16 fun c => .set .HBM_CH_GRANULES die (stack * 16 + c) (cs.getD c 0),
      .set .I_HBM_OVER die stack n,
      .when (!above) (.set .HBM_STATUS_IMBALANCE die stack 0),
      .when (above && need != 0 && decide (need ≤ n) && !s.on .HBM_STATUS_IMBALANCE die stack) (.seq
        (.set .HBM_STATUS_IMBALANCE die stack 1) (bellRing die (0x048 + stack)))]

/-- HBM_IMB_WINDOW_END (R543, R544). -/
def execHbmImbWindowEnd (die stack : Nat) (s : State) : Host.Outcome State Fault Refusal :=
  (Act.when (s.dieThere die && decide (stack < 2)) (.all [
    .when (decide (65536 ≤ (s.windowCounts die stack).sum)) (qualifying die stack),
    .upTo 16 fun c => .set .I_HBM_CNT die (stack * 16 + c) 0])).done s

/-! ### Ignov (R551 to R561) -/

/-- The grade links this port (R559). -/
def State.portUsed (s : State) (die port : Nat) : Bool := (ignPeer s.dies die port).isSome

/-- A block leaves a port; how many receive buffers its CREDIT frees is left open (R551; log entry 33). -/
def outBlock (die port seq kind : Nat) (flits : List Byte) : Act :=
  .free fun v => .get fun s => .out (.block die port (linkBlock seq (s.rd .I_IGN_RX_SEQ die port) kind (v % 2 ^ 24) flits))

/-- A block of a kind without contents leaves a port: it repeats the last data SEQ (R551). -/
def plainBlock (die port kind : Nat) : Act := .get fun s => outBlock die port (s.rd .I_IGN_TX_SEQ die port) kind []

/-- Every block of a port's replay buffer is sent again, in order (R555, R556). -/
def sendAgain (die port : Nat) : Act :=
  .get fun s => .each (s.linkPort die port).replay fun b => outBlock die port b.1 0 b.2

/-- The far end has accepted every block up to this one; one that it has not been sent says nothing (R555). -/
def ignAck (die port ack : Nat) : Act :=
  .get fun s =>
    let tx := s.rd .I_IGN_TX_SEQ die port
    let old := s.rd .I_IGN_ACKED die port
    .when (decide ((ack + 2 ^ 16 - old) % 2 ^ 16 ≤ (tx + 2 ^ 16 - old) % 2 ^ 16) && ack != old) (.all [
      .linkPort die port fun x => { x with replay := x.replay.drop ((ack + 2 ^ 16 - old) % 2 ^ 16) },
      .set .I_IGN_ACKED die port ack,
      .set .I_IGN_RESENT die port 0])

/-- A NAK: every block after the one named is sent again (R555, R556). -/
def ignNakAct (die port last : Nat) : Act :=
  .all [
    ignAck die port last,
    .inc .IGN_REPLAYS die port,
    .get fun s => .when (!(s.linkPort die port).replay.isEmpty) (.incSat .I_IGN_RESENT die port),
    sendAgain die port]

/-- The port trains (R556). -/
def ignTrain (die port : Nat) : Act :=
  .all [.set .IGN_STATUS_STATE die port 1, .inc .IGN_RETRAINS die port, .set .I_IGN_RESENT die port 0]

/-- A block is discarded (R554): a NAK goes out for each failed CRC, and once for blocks out of sequence. -/
def ignDiscard (die port : Nat) (failed : Bool) : Act :=
  .get fun s => .all [
    .when failed (.inc .IGN_CRC_ERR die port),
    .when (failed || !s.on .I_IGN_SKIP die port) (plainBlock die port 2),
    .set .I_IGN_SKIP die port 1]

/-- The transactions that a data block completes at a port, and the flits that the next block continues; none where a header flit is
an error (R552). -/
def State.received (s : State) (die port : Nat) (block : List Byte) : Option (List LinkTxn × List Byte) :=
  let bs := (s.linkPort die port).rest ++ (block.drop 12).take 240
  readTxns (bs.length / 16 + 1) bs

/-- Buffers that the far end has freed count for the port (R551). -/
def takeCredit (die port credit : Nat) : Act :=
  .linkPort die port fun x => { x with credit := (x.credit.1 + bits credit 0 12, x.credit.2 + bits credit 12 12) }

/-- A port receives a block (R551 to R556). A data block with an erroneous header flit is discarded like one that fails its check. The
transactions of an accepted block go to the die's mesh; what they do there is FABRIC_TRANSACTION (log entry 33). -/
def ignReceive (die port : Nat) (block : List Byte) : Act :=
  .get fun s =>
    let credit := takeCredit die port (leAt block 5 3)
    let seq := leAt block 0 2
    let ack := leAt block 2 2
    let kind := byteAt block 4
    let last := s.rd .I_IGN_RX_SEQ die port
    if block.length != 256 || leAt block 252 4 != crc32c (block.take 252) || decide (4 ≤ kind) then ignDiscard die port true
    else
      match kind with
      | 0 =>
        if seq == (last + 1) % 2 ^ 16 then
          match s.received die port block with
          | none => ignDiscard die port true
          | some (ts, rest) => .all [
              ignAck die port ack,
              credit,
              .set .I_IGN_RX_SEQ die port seq,
              .set .I_IGN_SKIP die port 0,
              .inc .IGN_BLOCKS_RX die port,
              .linkPort die port fun x => { x with rest := rest },
              .each ts fun t => .out (.linkTxn die port t),
              plainBlock die port 1]
        else ignDiscard die port false
      | 1 => .all [ignAck die port ack, credit, .when (seq != last) (ignDiscard die port false)]
      | 2 => .seq credit (ignNakAct die port ack)
      | _ => .seq credit (ignTrain die port)

/-- IGNOV_BLOCK_RECEIVE (R553, R554). -/
def execIgnovBlockReceive (die port : Nat) (block : List Byte) (s : State) : Host.Outcome State Fault Refusal :=
  (Act.when (s.portUsed die port && decide (2 ≤ s.rd .IGN_STATUS_STATE die port)) (ignReceive die port block)).done s

/-- IGNOV_NAK (R555). -/
def execIgnovNak (die port last : Nat) (s : State) : Host.Outcome State Fault Refusal :=
  (Act.when (s.portUsed die port && decide (2 ≤ s.rd .IGN_STATUS_STATE die port)) (ignNakAct die port (last % 2 ^ 16))).done s

/-- IGNOV_RETRAIN: the oldest block has been sent again 8 times (R556). -/
def execIgnovRetrain (die port : Nat) (s : State) : Host.Outcome State Fault Refusal :=
  (Act.when (s.portUsed die port && decide (2 ≤ s.rd .IGN_STATUS_STATE die port) && decide (8 ≤ s.rd .I_IGN_RESENT die port))
    (.seq (plainBlock die port 3) (ignTrain die port))).done s

/-- All 34 lanes of a direction. -/
def allLanes : Nat := 2 ^ 34 - 1

/-- Bits set in a number of `n` bits. -/
def countOnes : Nat → Nat → Nat
  | 0, _ => 0
  | n + 1, v => v % 2 + countOnes n (v / 2)

/-- Half h, 0 or 1, of a direction can run: the good spares replace its failed lanes (R558). -/
def halfOk (bad h : Nat) : Bool := decide (countOnes 16 (bits bad (16 * h) 16) + countOnes 2 (bits bad 32 2) ≤ 2)

/-- Lanes that a direction uses after its training; none when neither half qualifies (R557, R558). `pick` chooses between two
qualifying halves. -/
def lanesAfter (bad pick : Nat) : Option Nat :=
  let good := allLanes - bad
  let spares := bits good 32 2 * 2 ^ 32
  let half := fun h => bits good (16 * h) 16 * 2 ^ (16 * h) + spares
  if countOnes 34 bad ≤ 2 then some good
  else if halfOk bad 0 && halfOk bad 1 then some (half (pick % 2))
  else if halfOk bad 0 then some (half 0)
  else if halfOk bad 1 then some (half 1)
  else none

/-- A record of a link class: which lane group it names, and its detail, are left open (16 R707). -/
def linkRecord (die port : Nat) (cls : FaultClass) (action : Nat) : Act :=
  .free fun group => .free fun detail => faultRecord die cls 5 action (4 * port + group % 4) 0xFF detail

/-- A port goes down (R558, R561). -/
def ignDown (die port : Nat) : Act :=
  .get fun s => .all [
    .set .IGN_STATUS_STATE die port 0,
    .set .I_IGN_DOWN_TICK die port (s.ticks + 1),
    linkRecord die port .ignDown 9]

/-- IGNOV_TRAINING_END: `badTx` and `badRx` are the lanes whose error rate is too high (R557, R558). -/
def execIgnovTrainingEnd (die port badTx badRx : Nat) (s : State) : Host.Outcome State Fault Refusal :=
  let bt := badTx % 2 ^ 34
  let br := badRx % 2 ^ 34
  (Act.when (s.portUsed die port && s.rd .IGN_STATUS_STATE die port == 1) (.free fun pick =>
    match lanesAfter bt pick, lanesAfter br (pick / 2) with
    | some t, some r =>
      let half := decide (2 < countOnes 34 bt) || decide (2 < countOnes 34 br)
      let spared := fun (old bad : Nat) => countOnes 32 (old &&& bad % 2 ^ 32)
      .all [
        .upTo (spared (s.rd .IGN_LANES_TX die port) bt + spared (s.rd .IGN_LANES_RX die port) br) fun _ =>
          .when (!half) (linkRecord die port .ignLane 7),
        .set .IGN_LANES_TX die port t,
        .set .IGN_LANES_RX die port r,
        .set .IGN_STATUS_STATE die port (if half then 3 else 2),
        .when half (linkRecord die port .ignDegraded 8),
        sendAgain die port]
    | _, _ => ignDown die port)).done s

/-- IGNOV_LINK_DOWN_TIMEOUT: 100 µs after the link went down, what it still held is given up, and traffic takes its new path; a pair
of dies without one is a die-level fault, of which of the two is left open (R561, 16 R688). -/
def execIgnovLinkDownTimeout (die port : Nat) (s : State) : Host.Outcome State Fault Refusal :=
  let t := s.rd .I_IGN_DOWN_TICK die port
  (Act.when (t != 0 && decide (t - 1 + 100 * ticksPerUs ≤ s.ticks)) (.all [.set .I_IGN_DOWN_TICK die port 0, .linkPort die port fun x => { x with replay := [], open_ := [], rest := [] },
    .set .I_IGN_ACKED die port (s.rd .I_IGN_TX_SEQ die port), .get fun u =>
    match ignPeer u.dies die port with
    | none => .nop
    | some (d, _) => .when ((u.route die d 0).isNone) (.free fun v => failDie (if v % 2 == 1 then die else d))])).done s

end Sys2Proof.Machine
end

