-- ==== Sys2Proof/Machine/Tiles.lean ====
section
/-! DEFINITION. What the commands of the vector unit and the mover read and write: operands by package address, operand descriptors
(10 R442), tiles and the compressor (07_sparsity.md). -/

namespace Sys2Proof.Machine

/-- Read bytes by package address: from the command's own stores directly, otherwise through the fabric under its tag (10 R432). -/
def Cx.readAt (x : Cx) (a len : Nat) : M (List Byte) :=
  match x.own a with
  | some off => readStore x.die x.core off len
  | none => fabricRead x.who a len

/-- Write bytes by package address. -/
def Cx.writeAt (x : Cx) (a : Nat) (bs : List Byte) : M Unit :=
  match x.own a with
  | some off => writeStore x.die x.core off bs
  | none => fabricWrite x.who a bs

/-- Add elements of a format by package address (11 R494). -/
def Cx.addAt (x : Cx) (a fmt : Nat) (bs : List Byte) : M Unit :=
  match x.own a with
  | some off => addStore x.die x.core off fmt bs
  | none => fabricAdd x.who a fmt bs

/-- Read a little-endian number of a local operand. -/
def Cx.localLe (x : Cx) (off n : Nat) : M Nat := do
  let bs ← readStore x.die x.core off n
  pure (leNat bs)

/-- Numbers of `k` bytes, little-endian; `i` bytes of the next one make up `acc`. -/
def groupLe (k i acc : Nat) : List Byte → List Nat
  | [] => []
  | b :: bs =>
    let v := acc + b.toNat * 256 ^ i
    if i + 1 == k then v :: groupLe k 0 0 bs else groupLe k (i + 1) v bs

/-- The encodings of packed elements (06 R264). -/
def unpackElements (fmt : Nat) (bs : List Byte) : List Nat :=
  match fmtBits fmt with
  | 4 => bs.flatMap fun b => [b.toNat % 16, b.toNat / 16]
  | n => groupLe (n / 8) 0 0 bs

/-- Lists of at most `n`, `fuel` of them. -/
def chunks {α : Type} (n : Nat) : Nat → List α → List (List α)
  | 0, _ => []
  | fuel + 1, l => l.take n :: chunks n fuel (l.drop n)

/-! ### Operand descriptors (10 R442) -/

/-- The operand descriptor at a local address word (R442). -/
def Cx.od (x : Cx) (n : Nat) : M Od := do
  let off ← x.local n 32 32
  let bs ← readStore x.die x.core off 32
  let form := byteAt bs 15
  needField (decide (form ≤ 1)) 11 24
  needField (form == 1 || leAt bs 12 2 % 64 == 0) 11 0
  needField (leAt bs 28 4 == 0) 15 0
  match x.paOf (leAt bs 0 4) (leAt bs 4 4) 8 with
  | .error e => throw e
  | .ok base =>
    let od : Od := ⟨base, leAt bs 8 4, leAt bs 12 2, byteAt bs 14, form == 1, 0, leAt bs 24 4⟩
    if form == 0 then pure od
    else
      match x.paOf (leAt bs 16 4) (leAt bs 20 4) 12 with
      | .error e => throw e
      | .ok h => pure { od with hdr := h }

/-- The descriptor's format is one of those that its form admits (10 R443, 07 R301). -/
def Od.needFmt (d : Od) : M Unit := needField (if d.tiled then decide (d.fmt ≤ 8) else fmtOk d.fmt) 11 16

/-- A range of an operand lies in one region (10 R440); word 8 + `word` is named. -/
def needRange (a len word : Nat) : M Unit :=
  if len == 0 || rangeOk (addrOff a) len then pure () else M.fail codeRange ((8 + word) * 256)

/-- Base addresses of a tiled operand are 64-byte aligned (07 R297). -/
def needAlign (a word : Nat) : M Unit := if a % 64 == 0 then pure () else M.fail codeAlign ((8 + word) * 256)

/-! ### Tiles (07 R297 to R311) -/

/-- Bytes of a row of a tile, and of a tile's slot (07 R299, R303). -/
def tileRow (fmt : Nat) : Nat := 8 * fmtBits fmt
def tileSlot (fmt : Nat) : Nat := 64 * tileRow fmt

/-- An element is a NaN or an infinity of its format (07 R309). -/
def isNonfinite (fmt v : Nat) : Bool :=
  match floatFmtOf fmt with
  | some f => !(f.decode v).isFinite
  | none => false

/-- Row bitmap of a row of elements (07 R304). -/
def rowBitmap (vs : List Nat) : Nat := (vs.zipIdx.map fun (p : Nat × Nat) => bitIf (p.1 != 0) p.2).sum

/-- The compressor's output for one tile: bitmap form, payload and header (07 R300 to R310). `rows` holds the elements of the valid
rows and positions, `data` the raw payload. -/
def compressed (thresh fmt nrows cols : Nat) (rows : List (List Nat)) (data : List Byte) : Bool × List Byte × List Byte :=
  let nz := rows.flatten.filter fun v => v != 0
  let nnz := nz.length
  let size := 512 + packedBytes fmt nnz
  let admitted := fmt != fmtMxfp4
  let bitmap := admitted && decide (nnz ≤ thresh) && decide (size ≤ tileSlot fmt)
  let fflags := (if bitmap then 0
    else bitIf (decide (thresh < nnz)) 0 + bitIf (decide (tileSlot fmt < size)) 1 + bitIf (!admitted) 2) +
    bitIf (nz.any (isNonfinite fmt)) 3
  let maps := (List.range 64).flatMap fun r => toLe 8 (rowBitmap (rows.getD r []))
  let payload := if bitmap then maps ++ packElements fmt nz else data
  (bitmap, payload, toLe 2 nnz ++ toLe 1 (b2n bitmap) ++ toLe 1 fmt ++ toLe 1 nrows ++ toLe 1 fflags ++ toLe 2 cols ++
    toLe 4 payload.length ++ toLe 4 0)

/-- The compressor writes a tile: its payload, then its header (07 R308 to R311). `data` is the raw payload of 64 rows. -/
def Cx.writeTile (x : Cx) (payload hdr fmt nrows cols : Nat) (data : List Byte) : M Unit := do
  let s ← M.state
  let rows := (chunks 64 nrows (unpackElements fmt data)).map fun r => r.take cols
  let (bitmap, bs, h) := compressed (s.rd .SPX_CTRL_THRESH x.die x.core) fmt nrows cols rows data
  x.writeAt payload bs
  x.writeAt hdr h
  M.act (.inc (if bitmap then .SPX_WR_BITMAP else .SPX_WR_RAW) x.die x.core)

end Sys2Proof.Machine
end

