-- ==== Sys2Proof/Machine/Mover.lean ====
section
/-! DEFINITION. The mover's copies (11 R490 to R493, 07 R308) and the credits of wickets (11 R512 to R514). -/

namespace Sys2Proof.Machine

/-! ### DMA -/

/-- What a DMA moves: kind, source, length, source row spacing and element bytes. -/
structure Move where
  kind : Nat
  src : Nat
  len : Nat
  stride : Nat
  esize : Nat
deriving DecidableEq, Repr

/-- 64 bytes of each of 64 rows, as elements of `es` bytes: the rows that they make in the transposed block (R493). -/
def transposed (es : Nat) (rows : List (List Byte)) : List Byte :=
  (List.range (64 / es)).flatMap fun c => rows.flatMap fun r => (r.drop (c * es)).take es

/-- Bytes of a piece of the stream that a DMA writes at its destination: 256 of a copy, a row of a strided read, and of a transpose
4 KiB, which are 64 / `esize` rows of its block. -/
def Move.piece (m : Move) : Nat :=
  match m.kind with
  | 0 => 256
  | 1 => 64
  | _ => 4096

/-- Read a piece of a DMA's stream (R490, R493): a piece of a transposed block takes 64 bytes of each of the block's source rows. -/
def Move.read (m : Move) (x : Cx) (i : Nat) : M (List Byte) :=
  match m.kind with
  | 0 => x.readAt (m.src + 256 * i) (min 256 (m.len - 256 * i))
  | 1 => x.readAt (m.src + i * m.stride) 64
  | _ => do
    let rows ← M.collect (List.range 64) fun r =>
      x.readAt (m.src + (64 * (i / m.esize) + r) * m.stride + 64 * (i % m.esize)) 64
    pure (transposed m.esize rows)

/-- Numbers of the pieces of a length. -/
def pieces (size len : Nat) : List Nat := if size == 0 then [] else List.range ((len + size - 1) / size)

/-- Bytes that a DMA's source spans, from its first to its last. -/
def Move.span (m : Move) : Nat :=
  if m.len == 0 then 0
  else
    match m.kind with
    | 0 => m.len
    | 1 => (m.len / 64 - 1) * m.stride + 64
    | _ => (m.len / (4096 * m.esize) * 64 - 1) * m.stride + 64 * m.esize

/-- Bytes whose source lies in the destination too are left open, since the spec gives no order of a DMA's reads and writes (R487;
log entry 34). `base` is the destination of the bytes. -/
def Move.blur (m : Move) (dst len base : Nat) (bs : List Byte) : M (List Byte) :=
  if m.src == dst && m.kind == 0 || !rangesMeet m.src m.span dst len then pure bs
  else if m.kind != 0 then M.freeBytes bs.length
  else do
    let fs ← M.freeBytes bs.length
    pure (bs.zipIdx.map fun (p : Byte × Nat) =>
      let from_ := m.src + (base - dst) + p.2
      if dst ≤ from_ && from_ < dst + len then fs.getD p.2 0 else p.1)

/-- Pieces of a size, of a stream of `len` bytes, that begin in a range of the stream. -/
def piecesIn (size len lo hi : Nat) : List Nat := (pieces size len).filter fun i => decide (lo ≤ i * size ∧ i * size < hi)

/-- Write part `k` of a DMA's stream, 4 KiB of it, at its destination (10 R473). -/
def Move.write (m : Move) (x : Cx) (dst k : Nat) : M Unit :=
  M.each (piecesIn m.piece m.len (4096 * k) (4096 * (k + 1))) fun i => do
    let bs ← m.read x i
    let out ← m.blur dst m.len (dst + i * m.piece) bs
    x.writeAt (dst + i * m.piece) out

/-- Write the compressed tiles that end in part `k` of a DMA's stream (10 R444 COMPRESS, 07 R308): a tile is read as it is written, so
one of 8 KiB that a pre-emption halves is read whole after it (log entry 141). A last tile that the stream does not fill holds open bytes outside its
rows. -/
def Move.compress (m : Move) (x : Cx) (fmt dst hdr k : Nat) : M Unit := do
  let slot := tileSlot fmt
  let tiles := (pieces slot m.len).filter fun t =>
    let stop := min ((t + 1) * slot) m.len
    decide (4096 * k < stop ∧ stop ≤ 4096 * (k + 1))
  M.each tiles fun t => do
    let parts ← M.collect (piecesIn m.piece m.len (t * slot) ((t + 1) * slot)) fun i => m.read x i
    let bs := parts.flatten
    let pad ← M.freeBytes (slot - bs.length)
    x.writeTile (dst + t * slot) (hdr + 16 * t) fmt ((bs.length + tileRow fmt - 1) / tileRow fmt) 64 (bs ++ pad)

/-- The source of a strided read or a transpose lies in a core store (10 R444). -/
def needStore (a : Nat) : M Unit :=
  match placeOf (addrOff a) with
  | .store _ _ => pure ()
  | _ => M.fail codeRange (1 * 256)

/-- A copying DMA: field checks, source, destination, movement (R444, R490 to R493). -/
def dmaMove (x : Cx) (id kind : Nat) : M (Option Nat) := do
  let compress := bit x.cmd.mode 2
  let len := x.w 5
  let stride := x.f 6 0 16
  let fmt := x.f 6 16 4
  let es := fmtBits fmt / 8
  needField (!(kind != 0 || compress) || len % 64 == 0) 5 0
  needField (kind == 0 || 64 ≤ stride && stride % 64 == 0) 6 0
  needField (kind != 2 || fmtOk fmt && !([fmtInt4, fmtMxfp4, fmtXc24].contains fmt)) 6 16
  needField (kind != 2 || decide (64 * es ≤ stride)) 6 0
  needField (kind != 2 || len % (4096 * es) == 0) 5 0
  needField (!compress || decide (fmt ≤ 8)) 6 16
  let src ← x.pa 1 (Move.span ⟨kind, 0, len, stride, es⟩) 1
  let m : Move := ⟨kind, src, len, stride, es⟩
  if kind != 0 && len != 0 then needStore src else pure ()
  if compress then do
    let tiles := (len + tileSlot fmt - 1) / tileSlot fmt
    let dst ← x.pa 3 (tiles * tileSlot fmt) 64
    let hdr ← x.local 7 (16 * tiles) 64
    inParts x id (pieces 4096 len).length (m.compress x fmt dst (storeAddr x.die x.core hdr))
  else do
    let dst ← x.pa 3 len 1
    inParts x id (pieces 4096 len).length (m.write x dst)

/-- A DMA of a kind. -/
def isDma (kind : Nat) (i : Issue) : Bool := isOp 0x38 i && bits i.mode 0 2 == kind

/-- What DmaCopy performs when it starts. -/
def dmaCopyBody (x : Cx) (id : Nat) : M (Option Nat) := dmaMove x id 0

/-- DMA_COPY. -/
def execDmaCopy (die core : Nat) (turn : Turn) (s : State) : Host.Outcome State Fault Refusal :=
  (issueUnit die core turn.ctx (isDma 0) dmaCopyBody turn.course).done s

/-- What DmaStridedRead performs when it starts. -/
def dmaStridedReadBody (x : Cx) (id : Nat) : M (Option Nat) := dmaMove x id 1

/-- DMA_STRIDED_READ (R490, R491). -/
def execDmaStridedRead (die core : Nat) (turn : Turn) (s : State) : Host.Outcome State Fault Refusal :=
  (issueUnit die core turn.ctx (isDma 1) dmaStridedReadBody turn.course).done s

/-- What DmaTranspose performs when it starts. -/
def dmaTransposeBody (x : Cx) (id : Nat) : M (Option Nat) := dmaMove x id 2

/-- DMA_TRANSPOSE (R492, R493). -/
def execDmaTranspose (die core : Nat) (turn : Turn) (s : State) : Host.Outcome State Fault Refusal :=
  (issueUnit die core turn.ctx (isDma 2) dmaTransposeBody turn.course).done s

/-- A fill pattern repeats from the destination's first byte. -/
def fillBytes (pattern len : Nat) : List Byte :=
  ((List.range ((len + 3) / 4)).flatMap fun _ => toLe 4 pattern).take len

/-- What DmaFill performs when it starts. -/
def dmaFillBody (x : Cx) (id : Nat) : M (Option Nat) := do
  let len := x.w 5
  let dst ← x.pa 3 len 1
  inParts x id (pieces 4096 len).length fun k =>
    M.each (piecesIn 256 len (4096 * k) (4096 * (k + 1))) fun i => x.writeAt (dst + 256 * i) (fillBytes (x.w 7) (min 256 (len - 256 * i)))

/-- DMA_FILL (10 R444). -/
def execDmaFill (die core : Nat) (turn : Turn) (s : State) : Host.Outcome State Fault Refusal :=
  (issueUnit die core turn.ctx (isDma 3) dmaFillBody turn.course).done s

/-! ### Credits (11 R512 to R514) -/

/-- Target die, physical core, store, offset and length of a credit command, when its window is of whole rows. -/
def Cx.credit (x : Cx) : M (Nat × Nat × Nat × Nat × Nat) := do
  needField (x.f 2 0 24 % 64 == 0) 2 0
  needField (x.w 3 % 64 == 0) 3 0
  pure (x.f 1 5 3, x.cmd.phys (x.f 1 5 3) (x.f 1 0 5), x.f 1 8 1, x.f 2 0 24, x.w 3)

/-- A credit command reaches its target: to another core it is a transaction of its context, which the mullions take as a write to its
window (10 R432, 15 R666; log entry 92). -/
def Cx.creditArrive (x : Cx) (d c a : Nat) : M Unit :=
  if d == x.die && c == x.core then pure ()
  else do
    let _ ← overLinks x.who a (.write []) (do
      checkMullion x.who a true
      pure [])
    pure ()

/-- What CREDIT_GET does when it starts: it waits at its target, or with a time of zero is granted at once or times out (R456, R512,
R513). -/
def creditGetBody (x : Cx) (id : Nat) : M (Option Nat) := do
  let (d, c, store, off, len) ← x.credit
  if len == 0 then pure (some 0)
  else do
    x.creditArrive d c (storeAddr d c (wkStoreBase store + off))
    let t ← M.state
    let w : CreditWait := ⟨d, c, store, off, len, x.die, x.core, x.ctx, id⟩
    let first := (t.creditHead d c).isNone && !t.fencedCore d c
    if x.cmd.timeout == some 0 then
      match t.grantable w with
      | some e =>
        if first then do
          M.act (grantWicket w e)
          pure (some 0)
        else blockOn x
      | none => blockOn x
    else do
      M.act (.aux fun a => { a with credits := a.credits ++ [w] })
      blockOn x

/-- CREDIT_GET: its context is blocked from its issue on (R449, R456). One that waits behind another command of the mover starts when
that one completes (R426). -/
def execCreditGet (die core ctx : Nat) (s : State) : Host.Outcome State Fault Refusal :=
  (Act.seq (issueSeq die core ctx (isOp 0x39) creditGetBody) (.get fun t =>
    .when ((t.ctx die core ctx).flight.any fun f => f.cmd.op == 0x39 && !f.begun) (.set .CTX_STATE die (ctxIdx core ctx) 2))).done s

/-- What CreditReturn performs when it starts. -/
def creditReturnBody (x : Cx) (_ : Nat) : M (Option Nat) := do
  let (d, c, store, off, len) ← x.credit
  if len == 0 then pure (some 0)
  else do
    x.creditArrive d c (storeAddr d c (wkStoreBase store + off))
    let t ← M.state
    let held := (t.wickets d c).find? fun w =>
      let i := wkIdx c w
      t.wicketOf d c w x.die x.core x.ctx && t.rd .WK_STORE d i == store && t.rd .WK_OFFSET d i == off && t.rd .WK_LENGTH d i == len
    match held with
    | none => M.fail codeWicketNone (wkStoreBase store + off)
    | some w => do
      M.act (.aux fun a => { a with returning := a.returning ++ [(d, c, w)] })
      pure (some 0)

/-- CREDIT_RETURN: the wicket is freed once the earlier writes have been applied (R514). -/
def execCreditReturn (die core ctx : Nat) (s : State) : Host.Outcome State Fault Refusal :=
  (issueUnit die core ctx (isOp 0x3A) creditReturnBody).done s

end Sys2Proof.Machine
end

