-- ==== Sys2Proof/Machine/PassMath.lean ====
section
/-! DEFINITION. What a pass computes (05_engine_array.md, 06 R264 to R281, 07 R313 to R328): its shape and checks, weights as the
cells hold them, activation rows, and output sums. -/

namespace Sys2Proof.Machine

/-- Error codes of passes (10 R472). -/
def codePassFormat : Nat := 0x10
def codePassShape : Nat := 0x11
def codePassMode : Nat := 0x12
def codePassNoWeights : Nat := 0x13
def codePassTile : Nat := 0x15

/-! ### Classes (05 R215, R216) -/

/-- Class of an array format, by the bits of its elements; 0 for a format that the array does not take. -/
def arrayClass (fmt : Nat) : Nat := if fmt ≤ 8 then fmtBits fmt else 0

/-- The format is floating point. -/
def isFloatFmt (fmt : Nat) : Bool := (floatFmtOf fmt).isSome

/-- Two formats may be the operands of one pass (R216). -/
def pairOk (a w : Nat) : Bool :=
  arrayClass a != 0 && (a == w || [a, w].all (fun f => f == fmtInt8 || f == fmtUint8) || [a, w].all fun f => f == fmtE4M3 || f == fmtE5M2)

/-- Largest K per engine, dense and 2:4 (R215). -/
def kMax (fmt : Nat) (sp24 : Bool) : Nat := (if arrayClass fmt == 4 then 128 else 64) * (if sp24 then 2 else 1)

/-- Bytes of a weight block (10 R444, 07 R299). -/
def blockBytes (fmt : Nat) (sp24 : Bool) : Nat :=
  if sp24 then (if arrayClass fmt == 4 then 6144 else 5120) else if arrayClass fmt == 16 then 8192 else 4096

/-- Bytes of one output column in a dense weight block. -/
def weightRow (fmt : Nat) : Nat := blockBytes fmt false / 64

/-! ### A STREAM's fields (10 R444) -/

/-- The fields of a STREAM. -/
structure StreamOp where
  kind : Nat
  pred : Nat
  axis : Bool
  acc : Bool
  tiled : Bool
  afmt : Nat
  wfmt : Nat
  m : Nat
  k : Nat
  n : Nat
  asrc : Nat
  aaux : Nat
  psrc : Nat
  pdst : Nat
deriving DecidableEq, Repr

/-- The fields of the STREAM that a context issued. -/
def Cx.stream (x : Cx) : StreamOp :=
  { kind := bits x.cmd.mode 0 2, pred := bits x.cmd.mode 2 2, axis := bit x.cmd.mode 4, acc := bit x.cmd.mode 5,
    tiled := bit x.cmd.mode 6, afmt := x.f 1 4 4, wfmt := x.f 1 8 4, m := x.f 2 0 24, k := x.f 3 0 11, n := x.f 3 16 7,
    asrc := x.la 4, aaux := x.la 5, psrc := x.la 6, pdst := x.la 7 }

/-- The pass accumulates in INT32 (05 R215, R238). -/
def StreamOp.ints (o : StreamOp) : Bool := o.kind == 2 || !isFloatFmt o.afmt

/-- Bytes from one raw activation row to the next (10 R444 ASRC). -/
def StreamOp.rowStride (o : StreamOp) : Nat := (packedBytes o.afmt o.k + 63) / 64 * 64

/-- Bytes of a row of an MXFP4 scale plane (06 R267). -/
def scaleRow (k : Nat) : Nat := ((k + 31) / 32 + 3) / 4 * 4

/-- Tiles along the reduction (07 R298). -/
def StreamOp.kt (o : StreamOp) : Nat := (o.k + 63) / 64

/-- Checks of a STREAM's mode, formats and shape on a chain of `g` engines (05 R216, R217, R233, R235, R237, R238). 2:4 weights are
known only once the pass has its weights. -/
def StreamOp.check (o : StreamOp) (g : Nat) : M Unit :=
  if o.kind == 3 then M.fail codePassMode
  else if !pairOk o.afmt o.wfmt then M.fail codePassFormat
  else if o.tiled && o.afmt == fmtMxfp4 then M.fail codePassFormat
  else if o.kind == 1 && !([o.afmt, o.wfmt].all fun f => [fmtInt8, fmtUint8, fmtInt16, fmtFp16].contains f) then M.fail codePassFormat
  else if o.kind == 2 && arrayClass o.afmt == 4 then M.fail codePassFormat
  else if o.axis && (o.kind != 0 || arrayClass o.afmt == 4 || g != 1) then M.fail codePassMode
  else if 64 < o.n || (if o.axis then 64 else g * kMax o.wfmt true) < o.k then M.fail codePassShape
  else pure ()

/-- A P-store operand of a pass: 256-byte aligned, its M rows in P-store (05 R219). -/
def needPstore (word off len : Nat) : M Unit :=
  if off % 256 != 0 then M.fail codeAlign (word * 256)
  else if 0x800000 ≤ off && off + len ≤ 0x880000 then pure ()
  else M.fail codeRange (word * 256)

/-- A range of a pass's other operands lies in one store (10 R440). -/
def needLocal (word off len align : Nat) : M Unit :=
  if len == 0 then pure ()
  else if off % align != 0 then M.fail codeAlign (word * 256)
  else if storeRangeOk off len then pure ()
  else M.fail codeRange (word * 256)

/-- Address checks of a STREAM; a pass without rows or columns reads and writes nothing (05 R242). -/
def StreamOp.checkAddr (o : StreamOp) : M Unit :=
  if o.m == 0 || o.n == 0 then pure ()
  else do
    needPstore 7 o.pdst (256 * o.m)
    if o.acc then needPstore 6 o.psrc (256 * o.m) else pure ()
    if o.k == 0 then pure ()
    else if o.tiled then do
      let tiles := (o.m + 63) / 64 * o.kt
      needLocal 4 o.asrc (tiles * tileSlot o.afmt) 64
      needLocal 5 o.aaux (16 * tiles) 64
    else do
      needLocal 4 o.asrc (o.rowStride * o.m) 1
      if o.afmt == fmtMxfp4 then needLocal 5 o.aaux (scaleRow o.k * o.m) 1 else pure ()

/-! ### Weights (05 R224, 06 R266 to R269, 07 R323 to R328) -/

/-- Value of an element under a block scale (06 R266, R269). -/
def scaledValue (fmt v scale : Nat) : Val :=
  if fmt == fmtMxfp4 then (elementValue fmt v).mul (scaleValue scale) else elementValue fmt v

/-- Bytes of a row of the scale plane of a weight block (06 R268). -/
def Weights.scaleBytes (w : Weights) : Nat := if w.sp24 then 8 else 4

/-- Scale byte of a column's position. -/
def Weights.scaleAt (w : Weights) (n p : Nat) : Nat := byteAt w.scale (n * w.scaleBytes + p / 32)

/-- The cells of output column `n`, as reduction position and encoding, in ascending position; positions at or beyond K and columns at
or beyond N hold zero (05 R837). -/
def Weights.cells (w : Weights) (n : Nat) : List (Nat × Nat) :=
  let keep := fun (p v : Nat) => (p, if p < w.k && n < w.n then v else 0)
  if w.sp24 then
    let per := if arrayClass w.fmt == 4 then 128 else 64
    let rows := leAt w.hdr 4 1
    let cols := leAt w.hdr 6 2
    (List.range per).map fun e =>
      let idx := bits (byteAt w.tile (4096 + n * (per / 4) + e / 4)) (2 * (e % 4)) 2
      let p := e / 2 * 4 + idx
      keep p (if n < rows && p < cols then elementAt w.fmt w.tile (n * per + e) else 0)
  else
    let per := kMax w.fmt false
    let row := unpackElements w.fmt ((w.tile.drop (n * weightRow w.fmt)).take (weightRow w.fmt))
    (row.take per).zipIdx.map fun (c : Nat × Nat) => keep c.2 c.1

/-- The cells of a column, as positions and values. -/
def Weights.column (w : Weights) (n : Nat) : List (Nat × Val) :=
  (w.cells n).map fun c => (c.1, scaledValue w.fmt c.2 (if n < w.n then w.scaleAt n c.1 else 127))

/-- Columns 0 to 63 of a gang's weights: engine `g` holds the slice from g × (largest K per engine) (05 R231). -/
def gangColumns (ws : List Weights) : List (List (Nat × Val)) :=
  (List.range 64).map fun n =>
    ws.zipIdx.flatMap fun (p : Weights × Nat) => (p.1.column n).map fun c => (p.2 * kMax p.1.fmt p.1.sp24 + c.1, c.2)

/-- Cells of array row `j` of one engine's weights, by column: what a transposed pass sums over (05 R234). -/
def Weights.rowCells (w : Weights) (j : Nat) : List (Nat × Val) :=
  (List.range 64).map fun n => (n, ((w.column n).find? fun c => c.1 == j).elim Val.zero fun c => c.2)

/-- Operand lists of the outputs below N. -/
def StreamOp.operands (o : StreamOp) (ws : List Weights) : List (List (Nat × Val)) :=
  let all := if o.axis then ((ws.head?.map fun w => (List.range 64).map w.rowCells).getD []) else gangColumns ws
  (all.take o.n).map fun c => c.filter fun q => decide (q.1 < o.k)

/-- A weight loaded for the pass is a NaN or an infinity, whatever shape the pass itself has (07 R313). -/
def anyNonfinite (ws : List Weights) : Bool :=
  ws.any fun w => (List.range 64).any fun n => (w.column n).any fun q => !q.2.isFinite

/-- Live set: positions below K at which some loaded weight's encoding is not zero (07 R315). -/
def liveSet (ws : List Weights) (k : Nat) : List Nat :=
  let nz := ws.zipIdx.flatMap fun (p : Weights × Nat) =>
    (List.range 64).flatMap fun n => ((p.1.cells n).filter fun c => c.2 != 0).map fun c => p.2 * kMax p.1.fmt p.1.sp24 + c.1
  (nz.filter fun p => decide (p < k)).dedup

/-! ### Sums (05 R236 to R238, 06 R270 to R281) -/

/-- Predicate of compare mode; false with a NaN (06 R280, R281). -/
def predHolds (pred : Nat) (x w : Val) : Bool :=
  match x.cmp w with
  | none => false
  | some c =>
    match pred with
    | 0 => c == .gt
    | 1 => c != .lt
    | 2 => c == .lt
    | _ => c == .eq

/-- The term that a cell adds. -/
def cellTerm (kind pred : Nat) (x w : Val) : Val :=
  match kind with
  | 0 => x.mul w
  | 1 => (x.sub w).mul (x.sub w)
  | _ => if predHolds pred x w then .ofInt 1 else .zero

/-- An output's sum before its start value: the exact integer in 64 bits, or the FP32 sum, with bit 32 set when an operand was not
finite (06 R271, R272, R275). -/
def passSum (o : StreamOp) (xs : Array Val) (ws : List (Nat × Val)) : Nat :=
  let terms := ws.map fun q => cellTerm o.kind o.pred (xs.getD q.1 Val.zero) q.2
  if o.ints then encode 64 (terms.foldl (fun (a : Int) t => a + t.toInt) 0)
  else
    let special := ws.any fun q => !q.2.isFinite || !(xs.getD q.1 Val.zero).isFinite
    toFp32 (terms.foldl (fun a t => (a.add t).r32) Val.zero) + bitIf special 32

/-- An output: the sum and the start value, and whether it saturated (06 R271, R272, R275). -/
def passOut (ints : Bool) (sum : Nat) (start : Option Nat) : Nat × Bool :=
  if ints then
    let r := clampInt int32Min int32Max (signed 64 sum + (start.elim 0 fun v => signed 32 v))
    (encode 32 r.1, r.2)
  else
    let v := ((fp32 sum).add (start.elim Val.zero fp32)).r32
    (toFp32 v, v.isInf && !bit sum 32 && (start.elim true fun u => (fp32 u).isFinite))

/-! ### Activation rows -/

/-- Values of a raw activation row (10 R444). -/
def StreamOp.rawRow (o : StreamOp) (die core m : Nat) : M (Array Val) := do
  let bs ← readStore die core (o.asrc + m * o.rowStride) (packedBytes o.afmt o.k)
  let sc ← if o.afmt == fmtMxfp4 then readStore die core (o.aaux + m * scaleRow o.k) (scaleRow o.k) else pure []
  pure (((unpackElements o.afmt bs).take o.k).zipIdx.map fun (c : Nat × Nat) =>
    scaledValue o.afmt c.1 (byteAt sc (c.2 / 32))).toArray

/-- A tile as the feeders read it: header, row bitmaps and the encodings of its 64 rows, zero outside ROWS and COLS (07 R302). -/
structure TileIn where
  bitmap : Bool
  nonfinite : Bool
  fmt : Nat
  rows : List (List Nat)
  /-- Row bitmaps; none in a raw tile. -/
  maps : List Nat
  payload : Nat
deriving DecidableEq, Repr

/-- Put packed values where a row bitmap has its bits. -/
def expandRow (bm : Nat) : Nat → List Nat → List Nat × List Nat
  | 0, vs => ([], vs)
  | n + 1, vs =>
    if bm % 2 == 1 then
      let r := expandRow (bm / 2) n (vs.drop 1)
      (vs.headD 0 :: r.1, r.2)
    else
      let r := expandRow (bm / 2) n vs
      (0 :: r.1, r.2)

/-- Expand the rows of a bitmap tile (07 R304, R305). -/
def expandRows : List Nat → List Nat → List (List Nat)
  | [], _ => []
  | bm :: bms, vs =>
    let r := expandRow bm 64 vs
    r.1 :: expandRows bms r.2

/-- A tile header passes the checks of 07 R321 but that of the bitmaps; `ok` says which formats the reader takes. -/
def tileHeadOk (ok : Nat → Bool) (h : List Byte) : Bool :=
  let form := byteAt h 2
  let fmt := byteAt h 3
  let size := leAt h 8 4
  ok fmt && decide (byteAt h 4 ≤ 64) && decide (leAt h 6 2 ≤ 64) &&
    (form == 0 && size == tileSlot fmt ||
     form == 1 && fmt != fmtMxfp4 && size == 512 + packedBytes fmt (leAt h 0 2) && decide (size ≤ tileSlot fmt))

/-- Rows as a reader takes them: zero outside the first `rows` rows and `cols` positions (07 R302). -/
def trimTile (rows cols : Nat) (r : List (List Nat)) : List (List Nat) :=
  r.zipIdx.map fun (q : List Nat × Nat) =>
    if q.2 < rows then q.1.zipIdx.map fun (c : Nat × Nat) => if c.2 < cols then c.1 else 0 else q.1.map fun _ => 0

/-- The tile that a header and its payload spell; none when its bitmaps fail 07 R306 or do not number NNZ (07 R321). -/
def tileOf (h bs : List Byte) : Option TileIn :=
  let fmt := byteAt h 3
  let rows := byteAt h 4
  let cols := leAt h 6 2
  if byteAt h 2 == 0 then
    some ⟨false, bit (byteAt h 5) 3, fmt, trimTile rows cols (chunks 64 64 (unpackElements fmt bs)), [], bs.length⟩
  else
    let maps := (List.range 64).map fun r => leAt bs (8 * r) 8
    let inside := maps.zipIdx.all fun (q : Nat × Nat) => if q.2 < rows then decide (q.1 < 2 ^ cols) else q.1 == 0
    let count := (maps.map (countOnes 64)).sum
    if !inside || count != leAt h 0 2 then none
    else some ⟨true, bit (byteAt h 5) 3, fmt, expandRows maps (unpackElements fmt (bs.drop 512)), maps, bs.length⟩

/-- The tile at a payload and a header offset of a pass's operand; none when a check of 07 R321 fails. -/
def StreamOp.tile (o : StreamOp) (die core t : Nat) : M (Option TileIn) := do
  let h ← readStore die core (o.aaux + 16 * t) 16
  if !tileHeadOk (fun fmt => arrayClass fmt == arrayClass o.afmt && pairOk fmt o.wfmt) h then pure none
  else do
    let bs ← readStore die core (o.asrc + t * tileSlot o.afmt) (leAt h 8 4)
    pure (tileOf h bs)

/-- The tiles of a row block, or the index of the first that fails (07 R322). -/
def StreamOp.block (o : StreamOp) (die core b : Nat) : M (List TileIn) :=
  M.collect (List.range o.kt) fun j => do
    match ← o.tile die core (b * o.kt + j) with
    | some t => pure t
    | none => do
      M.act (.inc .SPX_TILE_ERR die core)
      M.fail codePassTile (b * o.kt + j)

/-- Row `r` of a block across its tiles: the encodings with their formats. -/
def blockRow (ts : List TileIn) (r : Nat) : List (Nat × Nat) := ts.flatMap fun t => (t.rows.getD r []).map fun v => (t.fmt, v)

/-- The match of row `r` of a block of bitmap tiles is not zero: some position of its row bitmaps is live (07 R316). -/
def rowMatches (ts : List TileIn) (live : List Nat) (r : Nat) : Bool :=
  live.any fun p => (ts[p / 64]?).any fun t => bit (t.maps.getD r 0) (p % 64)

/-- The counters of a row block's tiles (07 SPX_TILES_SPARSE, SPX_TILES_DENSE, SPX_BYTES_SAVED). -/
def countBlock (die core : Nat) (sparse : Bool) (ts : List TileIn) : Act :=
  .all [
    .inc (if sparse then .SPX_TILES_SPARSE else .SPX_TILES_DENSE) die core ts.length,
    .inc .SPX_BYTES_SAVED die core (ts.map fun t => tileSlot t.fmt - (t.payload + 63) / 64 * 64).sum]

end Sys2Proof.Machine
end

