-- ==== Sys2Proof/Machine/Grids.lean ====
section
/-! DEFINITION. Grids (04_pillars_and_voxels.md): cell geometry, the slot table and its operations, occupancy, HASH_INSERT, GRID_OPEN
and GRID_CLOSE. -/

namespace Sys2Proof.Machine

/-- Error codes of the spatial commands (10 R472). -/
def codeNumFormat : Nat := 0x19
def codeMapGeometry : Nat := 0x20
def codeMapState : Nat := 0x21
def codeMapStale : Nat := 0x22
def codeGatherIndex : Nat := 0x23
def codeGridSource : Nat := 0x24
def codeGridPlace : Nat := 0x25

/-! ### The grid descriptor (R157) -/

/-- Bytes 0 to 79 of a grid descriptor; a pillar grid has one cell along z (08 R336). -/
structure Geo where
  kind : Nat
  edge : Nat
  edgeZ : Nat
  perCell : Nat
  ox : Int
  oy : Int
  oz : Int
  nx : Nat
  ny : Nat
  nz : Nat
  log2 : Nat
  cap : Nat
  zmin : Int
  zmax : Int
  warn : Nat
  saltLo : Nat
  saltHi : Nat
  slotBase : Nat
  resBase : Nat
  occBase : Nat
  listBase : Nat
deriving DecidableEq, Repr

/-- The geometry that a descriptor's bytes spell. -/
def geoOf (b : List Byte) : Geo :=
  let xc := fun off => signed 32 (leAt b off 4)
  { kind := byteAt b 0, edge := byteAt b 1, edgeZ := byteAt b 2, perCell := byteAt b 3,
    ox := xc 4, oy := xc 8, oz := xc 12,
    nx := leAt b 16 2, ny := leAt b 18 2, nz := if byteAt b 0 == 1 then 1 else leAt b 20 2,
    log2 := byteAt b 22, cap := leAt b 24 4, zmin := xc 28, zmax := xc 32, warn := byteAt b 36,
    saltLo := leAt b 40 4, saltHi := leAt b 44 4,
    slotBase := leAt b 48 6, resBase := leAt b 56 6, occBase := leAt b 64 6, listBase := leAt b 72 6 }

/-- The grid is a pillar grid. -/
def Geo.pillar (g : Geo) : Bool := g.kind == 1

/-- Bytes of the slot table (R160) and of the reservoir area (R162). -/
def Geo.slotBytes (g : Geo) : Nat := 16 * 2 ^ g.log2
def Geo.resBytes (g : Geo) : Nat := g.cap * g.perCell * 8

/-- Sizes of the superbrick and brick pools (07 R330). -/
def Geo.sbMax (g : Geo) : Nat := min g.cap (((g.nx + 63) / 64) * ((g.ny + 63) / 64) * ((g.nz + 63) / 64))
def Geo.brMax (g : Geo) : Nat := min g.cap (((g.nx + 7) / 8) * ((g.ny + 7) / 8) * ((g.nz + 7) / 8))

/-- Bytes of the occupancy region (R191, 07 R330). -/
def Geo.occBytes (g : Geo) : Nat := if g.pillar then 256 * g.ny else 16896 + g.sbMax * 2112 + g.brMax * 64

/-- The descriptor keeps the limits of R153. -/
def Geo.withinLimits (g : Geo) : Bool :=
  (g.kind == 1 || g.kind == 2) &&
  decide (2 ≤ g.edge ∧ g.edge ≤ 128) && (g.pillar || decide (2 ≤ g.edgeZ ∧ g.edgeZ ≤ 128)) &&
  decide (g.nx ≤ 2048 ∧ g.ny ≤ 2048) && (g.pillar || decide (g.nz ≤ 256)) &&
  decide (10 ≤ g.log2 ∧ g.log2 ≤ (if g.pillar then 17 else 19)) &&
  decide (g.cap ≤ 2 ^ (g.log2 - 1)) && decide (g.cap ≤ (if g.pillar then 65536 else 262144)) && decide (g.perCell ≤ 32)

/-- A range lies in the vaults of one die. -/
def inVaults (a len : Nat) : Bool := decide (vaultBase ≤ addrOff a) && decide (addrOff a + len ≤ vaultBase + 128 * mib)

/-- Slot table and reservoir area lie in the vaults of one die of the package (01 R28); a reservoir area of no bytes is not checked
(R158). -/
def Geo.placed (g : Geo) (s : State) : Bool :=
  s.dieThere (addrDie g.slotBase) && inVaults g.slotBase g.slotBytes &&
  (g.resBytes == 0 || inVaults g.resBase g.resBytes && addrDie g.resBase == addrDie g.slotBase)

/-! ### Cells (R152 to R156, R172, R194) -/

/-- A cell: its index along each axis. -/
structure Cell where
  x : Nat
  y : Nat
  z : Nat
deriving DecidableEq, Repr

/-- Cell index along an axis (R152): exact, rounded toward minus infinity. -/
def cellIndex (c o : Int) (edge : Nat) : Int := (c - o) * 25 / (256 * edge : Nat)

/-- An index inside its axis. -/
def inAxis (i : Int) (n : Nat) : Option Nat := if 0 ≤ i ∧ i < n then some i.toNat else none

/-- The cell with given indices, when it lies inside the grid's extent. -/
def Geo.cell (g : Geo) (x y z : Int) : Option Cell :=
  (inAxis x g.nx).bind fun a => (inAxis y g.ny).bind fun b => (inAxis z g.nz).map fun c => ⟨a, b, c⟩

/-- The cell of a point, none when it lies outside the grid (R152, R154). -/
def Geo.locate (g : Geo) (x y z : Int) : Option Cell :=
  let i := cellIndex x g.ox g.edge
  let j := cellIndex y g.oy g.edge
  if g.pillar then if z < g.zmin ∨ g.zmax ≤ z then none else g.cell i j 0
  else g.cell i j (cellIndex z g.oz g.edgeZ)

/-- Cell key (R172); a pillar has z = 0. -/
def Cell.key (c : Cell) : Nat := c.x + 2048 * c.y + 4194304 * c.z

/-- The cell that a key names. -/
def cellOf (key : Nat) : Cell := ⟨key % 2048, key / 2048 % 2048, key / 4194304⟩

/-- Bit index in a bitmap of 8 × 8 × 8 children (R193). -/
def childBit (c : Cell) (shift : Nat) : Nat := bits c.x shift 3 + 8 * bits c.y shift 3 + 64 * bits c.z shift 3

/-- Top-map bit of a cell's superbrick, bit of its brick, bit of the voxel (R193 to R195). -/
def Cell.top (c : Cell) : Nat := c.x / 64 + 32 * (c.y / 64) + 1024 * (c.z / 64)
def Cell.brick (c : Cell) : Nat := childBit c 3
def Cell.voxel (c : Cell) : Nat := childBit c 0

/-- The order of cells in the cell list (R199, R200). -/
def Geo.order (g : Geo) (c : Cell) : Nat := if g.pillar then c.key else (c.top * 512 + c.brick) * 512 + c.voxel

/-- Insert by a rising number; an equal number is replaced. -/
def insertBy {α : Type} (k : Nat) (v : α) : List (Nat × α) → List (Nat × α)
  | [] => [(k, v)]
  | (j, w) :: rest => if k < j then (k, v) :: (j, w) :: rest else if k == j then (k, v) :: rest else (j, w) :: insertBy k v rest

/-- Values in the order of rising numbers. -/
def sortBy {α : Type} (f : α → Nat) (l : List α) : List α := (l.foldr (fun v m => insertBy (f v) v m) []).map fun p => p.2

/-! ### Hash and rank (R173, R186) -/

/-- The function `mix` of R173. -/
def mix (v : Nat) : Nat :=
  let a := v * 0x9E3779B1 % 2 ^ 32
  let b := a ^^^ (a / 2 ^ 16)
  let c := b * 0xD2B74407 % 2 ^ 32
  c ^^^ (c / 2 ^ 15)

/-- Home slot of a key (R173). -/
def Geo.home (g : Geo) (key : Nat) : Nat := mix (mix (key ^^^ g.saltLo) ^^^ g.saltHi) / 2 ^ (32 - g.log2)

/-- Rank of a point (R186). -/
def Geo.rank (g : Geo) (stream seq j : Nat) : Nat :=
  mix (mix ((j + stream * 2 ^ 24) % 2 ^ 32 ^^^ g.saltHi) ^^^ seq ^^^ g.saltLo)

/-- The order of R187 as one number: rank, STREAM_ID, SEQ, point index. -/
def pointOrder (rank stream seq j : Nat) : Nat := ((rank * 2 ^ 8 + stream) * 2 ^ 32 + seq) * 2 ^ 24 + j

/-! ### What a command reads of a grid -/

/-- A grid as a command finds it. -/
structure GridView where
  addr : Nat
  geo : Geo
  build : Nat
  state : Nat
  /-- CELLS of the summary. -/
  cells : Nat
deriving DecidableEq, Repr

/-- The record of a grid. -/
def State.gridRec (s : State) (a : Nat) : Option GridRec := s.aux.grids.find? fun g => g.addr == a

/-- Change the record of a grid. -/
def updGrid (a : Nat) (f : GridRec → GridRec) : Act :=
  .aux fun x => { x with grids := x.grids.map fun g => if g.addr == a then f g else g }

/-- Read a grid's descriptor; its geometry is that of its last GRID_OPEN (R166). -/
def Cx.grid (x : Cx) (a : Nat) : M GridView := do
  let b ← x.readAt a 108
  let s ← M.state
  pure ⟨a, geoOf (((s.gridRec a).map fun g => g.geo).getD (b.take 80)), leAt b 80 3, byteAt b 84, leAt b 104 4⟩

/-- The grid is in a state, or the command ends with MAP_STATE. -/
def GridView.needState (g : GridView) (st : Nat) : M Unit := if g.state == st then pure () else M.fail codeMapState g.state

/-- Read a little-endian number by package address. -/
def Cx.le (x : Cx) (a n : Nat) : M Nat := do
  let b ← x.readAt a n
  pure (leNat b)

/-- Frame header of a source of a grid (R157, R168). -/
def Cx.sourceHeader (x : Cx) (grid s : Nat) : M (List Byte) := do
  let a ← x.le (grid + 128 + 8 * s) 6
  x.readAt a 64

/-- Address of a point record of a frame, by the frame's header (R131, R167). -/
def State.pointAddr (s : State) (h : List Byte) (j : Nat) : Nat :=
  s.rd .I_SC_BUF_ADDR (byteAt h 58) (byteAt h 57 * 2 + byteAt h 60 % 2) + 16 * j

/-! ### Occupancy (R191 to R197, 07 R329 to R332) -/

/-- Set or clear one bit of a bitmap. -/
def Cx.putBitAt (x : Cx) (base b : Nat) (v : Bool) : M Unit := do
  let old ← x.le (base + b / 8) 1
  x.writeAt (base + b / 8) (toLe 1 (putBit old (b % 8) v))

/-- Read one bit of a bitmap. -/
def Cx.bitAt (x : Cx) (base b : Nat) : M Bool := do
  let v ← x.le (base + b / 8) 1
  pure (bit v (b % 8))

/-- Places of the parts of a voxel grid's occupancy region (07 R329). -/
def Geo.dirAt (g : Geo) (top : Nat) : Nat := g.occBase + 0x200 + 4 * top
def Geo.sbAt (g : Geo) (slot : Nat) : Nat := g.occBase + 0x4200 + 2112 * slot
def Geo.brAt (g : Geo) (slot : Nat) : Nat := g.sbAt g.sbMax + 64 * slot

/-- Address of the directory entry's superbrick slot, when there is one. -/
def Cx.superbrick (x : Cx) (g : Geo) (c : Cell) : M (Option Nat) := do
  let v ← x.le (g.dirAt c.top) 4
  pure (if v == 0 then none else some (g.sbAt (v - 1)))

/-- Address of a brick's bitmap, when there is one, from its superbrick's slot. -/
def Cx.brickAt (x : Cx) (g : Geo) (sb : Nat) (c : Cell) : M (Option Nat) := do
  let v ← x.le (sb + 64 + 4 * c.brick) 4
  pure (if v == 0 then none else some (g.brAt (v - 1)))

/-- The cell's occupancy bit (R191, 07 R333). -/
def Cx.occupied (x : Cx) (g : Geo) (c : Cell) : M Bool :=
  if g.pillar then x.bitAt g.occBase c.key
  else do
    match ← x.superbrick g c with
    | none => pure false
    | some sb =>
      match ← x.brickAt g sb c with
      | none => pure false
      | some br => x.bitAt br c.voxel

/-- Set the occupancy bits of an admitted cell at every level; the first cell of a superbrick or brick takes the next free slot of its
pool (R196, 07 R331). -/
def Cx.setOccupied (x : Cx) (a : Nat) (g : Geo) (c : Cell) : M Unit :=
  if g.pillar then x.putBitAt g.occBase c.key true
  else do
    let sb ← do
      match ← x.superbrick g c with
      | some sb => pure sb
      | none => do
        let s ← M.state
        let n := ((s.gridRec a).map fun r => r.superbricks).getD 0
        x.putBitAt g.occBase c.top true
        x.writeAt (g.dirAt c.top) (toLe 4 (n + 1))
        M.act (updGrid a fun r => { r with superbricks := n + 1 })
        pure (g.sbAt n)
    let br ← do
      match ← x.brickAt g sb c with
      | some br => pure br
      | none => do
        let s ← M.state
        let n := ((s.gridRec a).map fun r => r.bricks).getD 0
        x.putBitAt sb c.brick true
        x.writeAt (sb + 64 + 4 * c.brick) (toLe 4 (n + 1))
        M.act (updGrid a fun r => { r with bricks := n + 1 })
        pure (g.brAt n)
    x.putBitAt br c.voxel true

/-- Clear the bits of cells at every level, and every pointer and directory entry (R165, 07 R332). -/
def Cx.clearOccupied (x : Cx) (g : Geo) (cs : List Cell) : M Unit :=
  if g.pillar then M.each cs fun c => x.putBitAt g.occBase c.key false
  else do
    M.each cs fun c => do
      match ← x.superbrick g c with
      | none => pure ()
      | some sb =>
        match ← x.brickAt g sb c with
        | none => pure ()
        | some br => x.putBitAt br c.voxel false
    M.each cs fun c => do
      match ← x.superbrick g c with
      | none => pure ()
      | some sb => do
        x.putBitAt sb c.brick false
        x.writeAt (sb + 64 + 4 * c.brick) (toLe 4 0)
    M.each cs fun c => do
      x.putBitAt g.occBase c.top false
      x.writeAt (g.dirAt c.top) (toLe 4 0)

/-! ### The slot table (R160, R161, R174 to R179) -/

/-- A slot: key, build of its last claim, kept points, admission index, SEEN (R160). -/
structure Slot where
  key : Nat
  build : Nat
  kept : Nat
  index : Nat
  seen : Nat
deriving DecidableEq, Repr

/-- The slot that 16 bytes spell, and its bytes. -/
def slotOf (b : List Byte) : Slot := ⟨leAt b 0 4, leAt b 4 3, byteAt b 7, leAt b 8 4, leAt b 12 4⟩
def Slot.bytes (t : Slot) : List Byte := toLe 4 t.key ++ toLe 3 t.build ++ toLe 1 t.kept ++ toLe 4 t.index ++ toLe 4 t.seen

/-- Every slot of a table. -/
def Cx.slots (x : Cx) (g : Geo) : M (List Slot) := do
  let b ← x.readAt g.slotBase g.slotBytes
  pure ((chunks 16 (2 ^ g.log2) b).map slotOf)

/-- Cells of the slots that a build claimed (R161). -/
def Cx.claimed (x : Cx) (g : Geo) (build : Nat) : M (List Slot) := do
  let ts ← x.slots g
  pure (ts.filter fun t => t.build == build)

/-- An operation at a vault's atomic unit is counted (11 R497). -/
def Cx.countOp (x : Cx) (a : Nat) : M Unit := do
  doAtPlace x.who a (.slotOp 0 0) fun p =>
    match p with
    | .vault k _ => M.act (.inc .VT_SLOT_OPS (addrDie a) k)
    | _ => M.fail codeRange

/-- What probing for a cell came to (R174 to R177): the cell stands in a slot, found or newly claimed; the grid was full; 16 probes
found nothing. -/
inductive Probed
  | found (addr : Nat) (t : Slot)
  | claimed (addr : Nat) (t : Slot)
  | full
  | dropped
deriving DecidableEq, Repr

/-- Put memory, its checks and its poison back as they were. -/
def restoreMem (s : State) : Act :=
  .all [
    .eff (.clear fun _ => true),
    .each s.mem fun e => .put e.1 [e.2],
    .aux fun a => { a with checks := s.aux.checks, poison := s.aux.poison, grids := s.aux.grids }]

/-- An operation that no other divides (R178, R331): one that meets an error leaves memory and the grids as it found them (log
entry 144). -/
def M.whole {α : Type} (m : M α) : M α := do
  let s ← M.state
  match ← M.attempt m with
  | .ok v => pure v
  | .error e => do
    M.act (restoreMem s)
    throw e

/-- Probe for a cell and claim a slot for it (R174, R175); `left` probes are left. Answers the number of probes made too. -/
def Cx.probe (x : Cx) (a : Nat) (g : Geo) (build key : Nat) : Nat → Nat → M (Probed × Nat)
  | 0, _ => pure (.dropped, 16)
  | left + 1, slot => do
    let at_ := g.slotBase + 16 * (slot % 2 ^ g.log2)
    x.countOp at_
    let b ← x.readAt at_ 16
    let t := slotOf b
    if t.build != build then do
      let s ← M.state
      let cells := ((s.gridRec a).map fun r => r.cells).getD 0
      if cells < g.cap then do
        let new : Slot := ⟨key, build, 0, cells, 0⟩
        x.writeAt at_ new.bytes
        M.act (updGrid a fun r => { r with cells := cells + 1 })
        pure (.claimed at_ new, 16 - left)
      else pure (.full, 16 - left)
    else if t.key == key then pure (.found at_ t, 16 - left)
    else x.probe a g build key left (slot + 1)

/-- Probe for the slot of a cell without claiming one (08 R351). -/
def Cx.find (x : Cx) (g : Geo) (build key : Nat) : Nat → Nat → M (Option Slot)
  | 0, _ => pure none
  | left + 1, slot => do
    let b ← x.readAt (g.slotBase + 16 * (slot % 2 ^ g.log2)) 16
    let t := slotOf b
    if t.build != build then pure none
    else if t.key == key then pure (some t)
    else x.find g build key left (slot + 1)

/-- Admit a cell under R174 to R177: its slot, whatever it took to find it, with its occupancy bits set: both or, on an error,
neither (R196, 07 R331). -/
def Cx.admitCell (x : Cx) (a : Nat) (g : Geo) (build : Nat) (c : Cell) : M Probed := M.whole do
  let (p, n) ← x.probe a g build c.key 16 (g.home c.key)
  M.act (updGrid a fun r => { r with maxProbe := max r.maxProbe n })
  match p with
  | .claimed at_ t => do
    x.setOccupied a g c
    pure (.claimed at_ t)
  | q => pure q

/-! ### HASH_INSERT (R167 to R169, R185 to R190) -/

/-- A reservoir entry: locator and rank (R162). -/
structure ResEntry where
  index : Nat
  source : Nat
  rank : Nat
deriving DecidableEq, Repr

def resEntryOf (b : List Byte) : ResEntry := ⟨leAt b 0 3, bits (byteAt b 3) 0 6, leAt b 4 4⟩
def ResEntry.bytes (e : ResEntry) : List Byte := toLe 3 e.index ++ toLe 1 e.source ++ toLe 4 e.rank

/-- Address of the reservoir of an admission index (R162). -/
def Geo.resAt (g : Geo) (index : Nat) : Nat := g.resBase + index * g.perCell * 8

/-- Kept entries of a cell. -/
def Cx.reservoir (x : Cx) (g : Geo) (index kept : Nat) : M (List ResEntry) := do
  let b ← x.readAt (g.resAt index) (8 * kept)
  pure ((chunks 8 kept b).map resEntryOf)

/-- No rank occurs twice. -/
def distinctRanks : List Nat → Bool
  | [] => true
  | r :: rs => !rs.contains r && distinctRanks rs

/-- Place of a kept entry in the order of R187; beyond the rank it takes the point's record and its source's header. -/
def Cx.entryOrder (x : Cx) (grid : Nat) (e : ResEntry) : M Nat := do
  let h ← x.sourceHeader grid e.source
  let s ← M.state
  let stream ← x.le (s.pointAddr h e.index + 13) 1
  pure (pointOrder e.rank stream (leAt h 16 4) e.index)

/-- Places of entries in the order of R187: by rank alone where that decides. -/
def Cx.entryOrders (x : Cx) (grid : Nat) (ranks : List Nat) (es : List ResEntry) : M (List Nat) :=
  if distinctRanks ranks then pure (es.map fun e => pointOrder e.rank 0 0 0) else M.collect es (x.entryOrder grid)

/-- The entry that stands last, by place. -/
def lastOf : List (Nat × Nat) → Option (Nat × Nat)
  | [] => none
  | p :: ps =>
    match lastOf ps with
    | some q => if p.1 < q.1 then some q else some p
    | none => some p

/-- A point joins a cell (R188 to R190): `mine` is its place in the order when ranks tie, `e` its entry. Each joining point is one
reservoir operation (R824); where a cell keeps no point, and so has no reservoir, it counts at the slot's vault (log entry 107). -/
def Cx.join (x : Cx) (a : Nat) (g : Geo) (at_ : Nat) (t : Slot) (e : ResEntry) (mine : Nat) : M Unit := M.whole do
  if g.perCell == 0 then do
    x.countOp at_
    x.writeAt at_ ({ t with seen := t.seen + 1 } : Slot).bytes
  else do
    x.countOp (g.resAt t.index)
    let es ← x.reservoir g t.index t.kept
    let ranks := e.rank :: es.map fun q => q.rank
    let orders ← x.entryOrders a ranks es
    let me := if distinctRanks ranks then pointOrder e.rank 0 0 0 else mine
    if orders.contains me then M.act (updGrid a fun r => { r with dupPoints := r.dupPoints + 1 })
    else if t.kept < g.perCell then do
      x.writeAt (g.resAt t.index + 8 * t.kept) e.bytes
      x.writeAt at_ ({ t with kept := t.kept + 1, seen := t.seen + 1 } : Slot).bytes
    else do
      match lastOf orders.zipIdx with
      | some (k, i) => if me < k then x.writeAt (g.resAt t.index + 8 * i) e.bytes else pure ()
      | none => pure ()
      x.writeAt at_ ({ t with seen := t.seen + 1 } : Slot).bytes

/-- One point of an insert (R152 to R155, R174 to R177). It counts in POINTS_IN together with what became of it, so that the sum of
R204 holds of an insert that an access error ends too. -/
def Cx.insertPoint (x : Cx) (v : GridView) (src seq : Nat) (h : List Byte) (j : Nat) : M Unit := do
  let s ← M.state
  let b ← x.readAt (s.pointAddr h j) 16
  let xc := fun off => signed 24 (leAt b off 3)
  match v.geo.locate (xc 0) (xc 3) (xc 6) with
  | none => M.act (updGrid v.addr fun r => { r with outOfGrid := r.outOfGrid + 1 })
  | some c => do
    let stream := byteAt b 13
    let rank := v.geo.rank stream seq j
    let mine := pointOrder rank stream seq j
    match ← x.admitCell v.addr v.geo v.build c with
    | .full => M.act (updGrid v.addr fun r => { r with capPoints := r.capPoints + 1 })
    | .dropped => M.act (updGrid v.addr fun r => { r with probePoints := r.probePoints + 1 })
    | .found at_ t => x.join v.addr v.geo at_ t ⟨j, src, rank⟩ mine
    | .claimed at_ t => x.join v.addr v.geo at_ t ⟨j, src, rank⟩ mine
  M.act (updGrid v.addr fun r => { r with pointsIn := r.pointsIn + 1 })

/-- The source-table entry of an insert (R168). -/
def Cx.takeSource (x : Cx) (grid src frame : Nat) : M Unit := do
  let old ← x.le (grid + 128 + 8 * src) 8
  if old == 0 then x.writeAt (grid + 128 + 8 * src) (toLe 8 frame)
  else if old == frame then pure ()
  else M.fail codeGridSource src

/-- The build priority of an insert (R185). -/
def Cx.takeLevel (x : Cx) (grid prio : Nat) : M Unit := do
  let level ← x.le (grid + 85) 1
  if prio < level then M.act (updGrid grid fun r => { r with order := true }) else x.writeAt (grid + 85) (toLe 1 prio)

/-- A command as the records of grids name it: die, core, context and its place in list order, which a command that is issued again
keeps (10 R431). -/
def Cx.name (x : Cx) : Nat × Nat × Nat × Nat := (x.die, x.core, x.ctx, x.cmd.ord)

/-- HASH_INSERT's effect, point by point; one that goes on after a pre-emption has been accepted already (R169, 10 R473). -/
def hashInsert (x : Cx) (id : Nat) : M (Option Nat) := do
  let first := x.f 5 0 24
  let count := x.f 6 0 19
  let src := x.f 7 0 6
  needField (decide (count ≤ 262144)) 6 0
  let a ← x.pa 1 640 64
  let frame ← x.pa 3 64 1
  let v ← x.grid a
  let s ← M.state
  if (s.gridRec a).any fun r => r.inserts.contains x.name then pure ()
  else do
    v.needState 1
    x.takeSource a src frame
    M.act (updGrid a fun r => { r with inserts := x.name :: r.inserts })
    x.takeLevel a (x.f 7 8 3)
  let h ← x.readAt frame 64
  let stop := if byteAt h 60 == 0xFF then 0 else min (first + count) (leAt h 24 4)
  inParts x id (stop - first) fun i => x.insertPoint v src (leAt h 16 4) h (first + i)

/-- HASH_INSERT. -/
def execHashInsert (die core : Nat) (turn : Turn) (s : State) : Host.Outcome State Fault Refusal :=
  (issueUnit die core turn.ctx (isOp 0x23) hashInsert turn.course).done s

/-! ### GRID_OPEN (R163 to R166) -/

/-- A MAP of a kind. -/
def isMap (kind : Nat) (i : Issue) : Bool := isOp 0x22 i && bits i.mode 0 3 == kind

/-- Zero a range by package address. -/
def Cx.zeroAt (x : Cx) (a len : Nat) : M Unit := M.each (granules a len) fun g => x.writeAt (a + g.1) (List.replicate g.2 0)

/-- Clear what the previous build left (R165). -/
def Cx.clearBuild (x : Cx) (g old : Geo) (state prev new : Nat) : M Unit :=
  if state == 0 || new == 0 then do
    x.zeroAt g.slotBase g.slotBytes
    x.zeroAt g.occBase g.occBytes
  else do
    let ts ← x.claimed old prev
    x.clearOccupied old (ts.map fun t => cellOf t.key)

/-- GRID_OPEN's effect. A close that still waited for the former build ends with MAP_STATE. -/
def gridOpen (x : Cx) : M (Option Nat) := do
  let a ← x.pa 1 640 64
  let b ← x.readAt a 88
  let g := geoOf b
  let now ← M.state
  if !g.withinLimits then M.fail codeMapGeometry
  else if !g.placed now then M.fail codeGridPlace
  else do
    let v ← x.grid a
    let build := (v.build + 1) % 2 ^ 24
    x.clearBuild g v.geo v.state v.build build
    x.writeAt (a + 96) (List.replicate 544 0)
    x.writeAt (a + 80) (toLe 4 build ++ [1, 0])
    let s ← M.state
    M.act (.aux fun y => { y with grids := { addr := a, geo := b.take 80 } :: y.grids.filter fun r => r.addr != a })
    match (s.gridRec a).bind fun r => r.closer with
    | some (d, k, c, i) => M.act (endFlight d k c i ⟨codeMapState, 0, 1⟩)
    | none => pure ()
    pure (some 0)

/-- What MapGridOpen performs when it starts. -/
def mapGridOpenBody (x : Cx) (_ : Nat) : M (Option Nat) :=
  gridOpen x

/-- MAP_GRID_OPEN. -/
def execMapGridOpen (die core : Nat) (turn : Turn) (s : State) : Host.Outcome State Fault Refusal :=
  (issueUnit die core turn.ctx (isMap 0) mapGridOpenBody turn.course).done s

/-! ### GRID_CLOSE (R170, R171, R198 to R205) -/

/-- GRID_CLOSE's first half: the grid closes to inserts, and the command waits for those accepted (R170). -/
def Cx.beginClose (x : Cx) (id a : Nat) (dilated : Bool) : M Unit := do
  x.writeAt (a + 84) [3]
  M.act (updGrid a fun r => { r with closer := some (x.die, x.core, x.ctx, id), dilated := dilated })

/-- What MapGridClose performs when it starts. -/
def mapGridCloseBody (x : Cx) (id : Nat) : M (Option Nat) := do
  let a ← x.pa 1 640 64
  let v ← x.grid a
  v.needState 1
  x.beginClose id a false
  pure none

/-- MAP_GRID_CLOSE. -/
def execMapGridClose (die core : Nat) (turn : Turn) (s : State) : Host.Outcome State Fault Refusal :=
  (issueUnit die core turn.ctx (isMap 1) mapGridCloseBody turn.course).done s

/-- The cell list's entry of a cell (R198). -/
def listEntry (t : Slot) (sources : List Nat) : List Byte :=
  let many := match sources with
    | [] => false
    | q :: qs => qs.any fun w => w != q
  toLe 4 t.key ++ toLe 4 t.seen ++ toLe 1 t.kept ++ toLe 1 (bitIf (decide (t.kept < t.seen)) 0 + bitIf many 1) ++ toLe 2 0 ++
    toLe 4 t.index

/-- Order a cell's kept entries (R201) and write its cell-list entry (R198). -/
def Cx.closeCell (x : Cx) (a : Nat) (g : Geo) (p : Nat) (t : Slot) : M Unit := do
  if t.kept == 0 then x.writeAt (g.listBase + 16 * p) (listEntry t [])
  else do
    let es ← x.reservoir g t.index t.kept
    let orders ← x.entryOrders a (es.map fun e => e.rank) es
    let sorted := (sortBy (fun (q : Nat × ResEntry) => q.1) (orders.zip es)).map fun q => q.2
    x.writeAt (g.resAt t.index) (sorted.flatMap ResEntry.bytes)
    x.writeAt (g.listBase + 16 * p) (listEntry t (sorted.map fun e => e.source))

/-- The grid summary (R203). -/
def summaryOf (r : GridRec) (warn displaced : Nat) : List Byte :=
  let warned := warn != 0 && decide (warn ≤ r.maxProbe)
  toLe 4 r.pointsIn ++ toLe 4 r.outOfGrid ++ toLe 4 r.cells ++ toLe 4 r.capPoints ++ toLe 4 r.probePoints ++ toLe 4 displaced ++
    toLe 4 r.dupPoints ++ toLe 1 r.maxProbe ++
    toLe 1 (bitIf (r.capPoints != 0) 0 + bitIf (r.probePoints != 0) 1 + bitIf (displaced != 0) 2 + bitIf r.order 3 +
      bitIf (r.dupPoints != 0) 4 + bitIf warned 5) ++ toLe 2 0

/-- The summary of a grid that MAP DILATE built (08 R346). -/
def dilatedSummary (cells : Nat) : List Byte := toLe 8 0 ++ toLe 4 cells ++ toLe 20 0

/-- A closing grid writes its cell list, its reservoirs and its summary, and is closed (R170); a grid whose summary has PROBE or
PROBE_WARN rings its partition's advisory (R205). -/
def Cx.finishClose (x : Cx) (r : GridRec) : M Unit := do
  let v ← x.grid r.addr
  v.needState 3
  let g := v.geo
  let ts ← x.claimed g v.build
  M.each (sortBy (fun (t : Slot) => g.order (cellOf t.key)) ts).zipIdx fun (q : Slot × Nat) => x.closeCell r.addr g q.2 q.1
  let sum := if r.dilated then dilatedSummary r.cells else summaryOf r g.warn (ts.map fun t => t.seen - t.kept).sum
  x.writeAt (r.addr + 96) sum
  x.writeAt (r.addr + 84) [2]
  let s ← M.state
  let flags := byteAt sum 29
  M.act (.when (bit flags 1 || bit flags 5) (bellRing x.die (0x060 + s.rd .CTX_PART x.die (ctxIdx x.core x.ctx))))

/-- An accepted insert has not completed: it is in flight, or waits to be issued again. -/
def State.insertLives (s : State) (i : Nat × Nat × Nat × Nat) : Bool :=
  let x := s.ctx i.1 i.2.1 i.2.2.1
  (x.flight.any fun f => f.cmd.ord == i.2.2.2) || x.again.any fun c => c.ord == i.2.2.2

/-- The grid that a context's command closes, with that command. -/
def State.closing (s : State) (die core c : Nat) : Option (GridRec × Flight) :=
  (s.ctx die core c).flight.findSome? fun f =>
    if f.ending.isSome then none
    else (s.aux.grids.find? fun r => r.closer == some (die, core, c, f.id)).map fun r => (r, f)

/-- Finish the close of a grid once its accepted inserts have completed. -/
def closeNow (die core c : Nat) : Act :=
  .get fun s =>
    match s.closing die core c with
    | some (r, f) => .when (!(r.inserts.any s.insertLives))
        ((Cx.finishClose ⟨die, core, c, f.cmd⟩ r).then fun e => .all [
          updGrid r.addr fun y => { y with closer := none },
          match e with
          | .ok _ => endFlight die core c f.id Ending.ok
          | .error z => endFlight die core c f.id ⟨z.code, 0, z.detail⟩])
    | none => .nop

/-- GRID_CLOSE_DRAIN_END (R170). -/
def execGridCloseDrainEnd (die core ctx : Nat) (s : State) : Host.Outcome State Fault Refusal := (closeNow die core ctx).done s

end Sys2Proof.Machine
end

