-- ==== Sys2Proof/Machine/Spatial.lean ====
section
/-! DEFINITION. GATHER, SCATTER_ADD and the MAP modes over closed grids (04 R202, R207 to R213, 08 R335 to R368). -/

namespace Sys2Proof.Machine

/-! ### Rows of feature operands (10 R442) -/

/-- Tiles across a row of a tiled operand. -/
def Od.kt (d : Od) : Nat := (d.cols + 63) / 64

/-- A tile of a tiled operand; one that fails a check of 07 R321 ends the command. -/
def Cx.tileIn (x : Cx) (d : Od) (t : Nat) : M TileIn := do
  let h ← x.readAt (d.hdr + 16 * t) 16
  let bad : M TileIn := do
    M.act (.inc .SPX_TILE_ERR x.die x.core)
    M.fail codePassTile t
  if !tileHeadOk (fun f => f == d.fmt) h then bad
  else do
    let bs ← x.readAt (d.base + t * tileSlot d.fmt) (leAt h 8 4)
    match tileOf h bs with
    | some i => pure i
    | none => bad

/-- The first `n` elements of row `r` of an operand; elements that a tiled row does not hold are zero. -/
def Cx.odRow (x : Cx) (d : Od) (r n : Nat) : M (List Nat) := do
  if d.tiled then do
    let ts ← M.collect (List.range d.kt) fun j => x.tileIn d (r / 64 * d.kt + j)
    let vs := ((ts.flatMap fun t => t.rows.getD (r % 64) []).take d.cols).take n
    pure (vs ++ List.replicate (n - vs.length) 0)
  else do
    let bs ← x.readAt (d.base + r * d.rowBytes) (packedBytes d.fmt n)
    pure ((unpackElements d.fmt bs).take n)

/-- A row of elements, filled up with zeros. -/
def padRow (n : Nat) (vs : List Nat) : List Nat := vs.take n ++ List.replicate (n - vs.length) 0

/-- The 64 positions of a tile from position 64 `j` on. -/
def tilePart (j : Nat) (row : List Nat) : List Nat := padRow 64 ((row.drop (64 * j)).take 64)

/-- Write rows of a tiled operand from the first row of block `b` on, through the compressor (07 R298, R308). -/
def Cx.writeBlock (x : Cx) (d : Od) (b : Nat) (rows : List (List Nat)) : M Unit :=
  M.each (List.range d.kt) fun j => do
    let data := rows.flatMap fun r => packElements d.fmt (tilePart j r)
    let fill := List.replicate (tileSlot d.fmt - data.length) 0
    let t := b * d.kt + j
    x.writeTile (d.base + t * tileSlot d.fmt) (d.hdr + 16 * t) d.fmt rows.length (min 64 (d.cols - 64 * j)) (data ++ fill)

/-- Rows of a block of a tiled operand as they stand, up to the ROWS of its tiles; a tile that is none holds no row. -/
def Cx.blockRows (x : Cx) (d : Od) (b : Nat) : M (List (List Nat)) := do
  let ts ← M.collect (List.range d.kt) fun j => do
    let t := b * d.kt + j
    let h ← x.readAt (d.hdr + 16 * t) 16
    if !tileHeadOk (fun f => f == d.fmt) h then pure []
    else do
      let bs ← x.readAt (d.base + t * tileSlot d.fmt) (leAt h 8 4)
      pure ((tileOf h bs).elim [] fun i => i.rows.take (byteAt h 4))
  let n := ts.foldl (fun m t => max m t.length) 0
  pure ((List.range n).map fun r => ts.flatMap fun t => padRow 64 (t.getD r []))

/-- Write rows of a block from its row `lo` on. Rows before them stay; rows after them stay too unless these are the block's last
(R361; log entry 145). -/
def Cx.writePart (x : Cx) (d : Od) (b lo : Nat) (rows : List (List Nat)) (last : Bool) : M Unit := do
  let old ← if lo == 0 && last then pure [] else x.blockRows d b
  let before := old.take lo ++ List.replicate (lo - old.length) []
  x.writeBlock d b (before ++ rows ++ if last then [] else old.drop (lo + rows.length))

/-- Write gathered rows as an output operand, in ascending row (R358 to R360). `get` gives the elements of a row or ends the
command; the rows before the one that fails stand. -/
def Cx.writeRaw (x : Cx) (d : Od) (get : Nat → M (List Nat)) (rows : List Nat) : M Unit :=
  M.each rows fun r => do
    let vs ← get r
    if d.rows ≤ r then M.fail codeGatherIndex r else pure ()
    x.writeAt (d.base + r * d.rowBytes) (packElements d.fmt vs)
    M.act (.inc .NS_GATHER_ROWS x.die x.core)

/-- Rows of a block until one fails, with its error. -/
def gatherBlock (d : Od) (get : Nat → M (List Nat)) : List Nat → M (List (List Nat) × Option Err)
  | [] => pure ([], none)
  | r :: rs => do
    match ← M.attempt (get r) with
    | .error e => pure ([], some e)
    | .ok vs =>
      if d.rows ≤ r then pure ([], some ⟨codeGatherIndex, r⟩)
      else do
        let (more, e) ← gatherBlock d get rs
        pure (vs :: more, e)

/-- Write rows `lo` to `hi` − 1, of `n` in all, as tiles, block by block: a block is its last part when it comes to its end or the
command's. -/
def Cx.writeTiled (x : Cx) (d : Od) (get : Nat → M (List Nat)) (n lo hi : Nat) : M Unit :=
  M.each ((List.range ((hi + 63) / 64)).drop (lo / 64)) fun b => do
    let start := max lo (64 * b)
    let stop := min hi (64 * b + 64)
    let (rows, e) ← gatherBlock d get ((List.range stop).drop start)
    if rows.isEmpty then pure ()
    else x.writePart d b (start - 64 * b) rows (e.isNone && (stop == n || stop == 64 * b + 64))
    M.act (.inc .NS_GATHER_ROWS x.die x.core rows.length)
    match e with
    | some z => throw z
    | none => pure ()

/-- Write rows 0 to `n` − 1 of an output operand, row by row (10 R473). -/
def Cx.writeRows (x : Cx) (id : Nat) (d : Od) (n : Nat) (get : Nat → M (List Nat)) : M (Option Nat) :=
  inRange x id n fun lo hi =>
    if d.tiled then x.writeTiled d get n lo hi else x.writeRaw d get ((List.range hi).drop lo)

/-- Bytes from an operand's base to the end of row `n` − 1 with `len` bytes in it. -/
def Od.span (d : Od) (n len : Nat) : Nat := if n == 0 then 0 else (n - 1) * d.rowBytes + len

/-- The `n` rows of an operand lie in one region, and a tiled operand is aligned (10 R440, 07 R297). -/
def Od.needRows (d : Od) (n : Nat) : M Unit :=
  if d.tiled then do
    needAlign d.base 0
    needAlign d.hdr 4
    let tiles := (n + 63) / 64 * d.kt
    needRange d.base (tiles * tileSlot d.fmt) 0
    needRange d.hdr (16 * tiles) 4
  else needRange d.base (d.span n (packedBytes d.fmt d.cols)) 0

/-! ### GATHER in pillar mode (04 R202) -/

/-- A cell-list entry (R198). -/
def Cx.listSlot (x : Cx) (g : Geo) (p : Nat) : M Slot := do
  let b ← x.readAt (g.listBase + 16 * p) 16
  pure ⟨leAt b 0 4, 0, byteAt b 8, leAt b 12 4, leAt b 4 4⟩

/-- The point records of a cell-list entry in reservoir order, then zero records up to K. -/
def Cx.pillarRow (x : Cx) (a : Nat) (g : Geo) (p : Nat) : M (List Byte) := do
  let t ← x.listSlot g p
  let es ← x.reservoir g t.index t.kept
  let recs ← M.collect es fun e => do
    let h ← x.sourceHeader a e.source
    let s ← M.state
    x.readAt (s.pointAddr h e.index) 16
  let bs := recs.flatten
  pure (bs ++ List.replicate (16 * g.perCell - bs.length) 0)

/-- A GATHER of a kind. -/
def isGather (kind : Nat) (i : Issue) : Bool := isOp 0x20 i && bits i.mode 0 2 == kind

/-- What GatherPillar performs when it starts. -/
def gatherPillarBody (x : Cx) (id : Nat) : M (Option Nat) := do
  let a ← x.pa 1 640 64
  let first := x.f 3 0 24
  let d ← x.od 7
  let v ← x.grid a
  v.needState 2
  needField (!d.tiled) 11 24
  needField (decide (16 * v.geo.perCell ≤ d.rowBytes)) 11 0
  let n := if d.rows == 0 then 0 else min (x.f 4 0 24) (v.cells - first)
  needRange d.base (d.span (min n d.rows) (16 * v.geo.perCell)) 0
  inParts x id n fun r => do
    if d.rows ≤ r then M.fail codeGatherIndex r else pure ()
    let bs ← x.pillarRow a v.geo (first + r)
    x.writeAt (d.base + r * d.rowBytes) bs
    M.act (.inc .NS_GATHER_ROWS x.die x.core)

/-- GATHER_PILLAR. -/
def execGatherPillar (die core : Nat) (turn : Turn) (s : State) : Host.Outcome State Fault Refusal :=
  (issueUnit die core turn.ctx (isGather 0) gatherPillarBody turn.course).done s

/-! ### SCATTER_ADD in map mode (04 R207 to R213) -/

/-- Formats that a SCATTER_ADD adds in (R210). -/
def addFmt (fmt : Nat) : Bool := [fmtInt8, fmtInt16, fmtInt32, fmtFp16, fmtBf16, fmtFp32].contains fmt

/-- A format that a SCATTER_ADD names: an invalid code is a wrong field, any other that it does not add in a wrong format. -/
def needAddFmt (fmt word bit : Nat) : M Unit := do
  needField (fmtOk fmt) word bit
  if addFmt fmt then pure () else M.fail codeNumFormat

/-- The target of an add lies in P-store or a vault (11 R495); `word` names it. -/
def needAdder (a word : Nat) : M Unit :=
  match placeOf (addrOff a) with
  | .vault _ _ => pure ()
  | .store _ off => if 0x800000 ≤ off then pure () else M.fail codeRange (word * 256)
  | _ => M.fail codeRange (word * 256)

/-- SCATTER_ADD in map mode. -/
def scatterMap (x : Cx) (id : Nat) : M (Option Nat) := do
  let c := x.f 6 0 13
  let fmt := x.f 6 16 4
  let dn := x.f 6 20 2
  let first := x.f 7 0 24
  needField (decide (c ≤ 4096)) 6 0
  needAddFmt fmt 6 16
  needField (decide (dn ≤ 2)) 6 20
  let a ← x.pa 1 640 64
  let d ← x.od 3
  d.needFmt
  if d.fmt == fmt then pure () else M.fail codeNumFormat
  let v ← x.grid a
  v.needState 2
  if v.geo.pillar then pure () else M.fail codeMapGeometry
  let down := fun (n : Nat) => n / 2 ^ dn
  let up := fun (n : Nat) => (n + 2 ^ dn - 1) / 2 ^ dn
  let size := packedBytes fmt c
  let stride := (size + 63) / 64 * 64
  let base ← x.pa 4 (up v.geo.nx * up v.geo.ny * stride) 1
  let n := if c == 0 then 0 else min d.rows (v.cells - first)
  d.needRows n
  if n == 0 then pure () else needAdder base 4
  inParts x id n fun r => do
    let t ← x.listSlot v.geo (first + r)
    let cell := cellOf t.key
    let row ← x.odRow d r c
    x.addAt (base + (down cell.y * up v.geo.nx + down cell.x) * stride) fmt (packElements fmt (padRow c row))

/-- A SCATTER_ADD of a mode. -/
def isScatter (rows : Bool) (i : Issue) : Bool := isOp 0x21 i && bit i.mode 0 == rows

/-- What ScatterAddMap performs when it starts. -/
def scatterAddMapBody (x : Cx) (id : Nat) : M (Option Nat) := scatterMap x id

/-- SCATTER_ADD_MAP. -/
def execScatterAddMap (die core : Nat) (turn : Turn) (s : State) : Host.Outcome State Fault Refusal :=
  (issueUnit die core turn.ctx (isScatter false) scatterAddMapBody turn.course).done s

/-! ### The convolution descriptor (R337 to R339) -/

/-- Bytes 0 to 43 of a convolution descriptor (R337). -/
structure Conv where
  addr : Nat
  kx : Nat
  ky : Nat
  kz : Nat
  stride : Nat
  px : Nat
  py : Nat
  pz : Nat
  suppress : Nat
  inGrid : Nat
  outGrid : Nat
  maskGrid : Nat
  inIndex : Nat
deriving DecidableEq, Repr

/-- The descriptor that bytes spell. -/
def convOf (a : Nat) (b : List Byte) : Conv :=
  ⟨a, byteAt b 0, byteAt b 1, byteAt b 2, byteAt b 3, byteAt b 4, byteAt b 5, byteAt b 6, byteAt b 7,
    leAt b 8 6, leAt b 16 6, leAt b 24 6, leAt b 32 6⟩

/-- Kernel volume. -/
def Conv.kv (c : Conv) : Nat := c.kx * c.ky * c.kz

/-- Kernel position of an offset number (R337). -/
def Conv.pos (c : Conv) (o : Nat) : Nat × Nat × Nat := (o % c.kx, o / c.kx % c.ky, o / (c.kx * c.ky))

/-- Bytes 0 to 7 lie within their ranges. -/
def Conv.fieldsOk (c : Conv) : Bool :=
  decide (1 ≤ c.kx ∧ c.kx ≤ 5 ∧ 1 ≤ c.ky ∧ c.ky ≤ 5 ∧ 1 ≤ c.kz ∧ c.kz ≤ 5) && (c.stride == 1 || c.stride == 2) &&
  decide (c.px < c.kx ∧ c.py < c.ky ∧ c.pz < c.kz) && decide (c.suppress ≤ 2)

/-- Two grids have equal geometry: kind, edges, origins and cell counts. -/
def Geo.same (g h : Geo) : Bool :=
  g.kind == h.kind && g.edge == h.edge && g.ox == h.ox && g.oy == h.oy && g.nx == h.nx && g.ny == h.ny &&
  (g.pillar || g.edgeZ == h.edgeZ && g.oz == h.oz && g.nz == h.nz)

/-- The grids of a descriptor fit it (R339). -/
def Conv.gridsOk (c : Conv) (i o : Geo) (mask : Option Geo) : Bool :=
  let up := fun n => (n + c.stride - 1) / c.stride
  i.kind == o.kind && (!i.pillar || c.kz == 1) &&
  o.edge == c.stride * i.edge && (i.pillar || o.edgeZ == c.stride * i.edgeZ) &&
  i.ox == o.ox && i.oy == o.oy && (i.pillar || i.oz == o.oz) &&
  o.nx == up i.nx && o.ny == up i.ny && o.nz == up i.nz &&
  (c.suppress != 1 || c.stride == 1 && c.inGrid == c.outGrid) &&
  mask.all fun m => m.same o

/-- A descriptor with the grids it names. -/
structure ConvLayer where
  conv : Conv
  inp : GridView
  out : GridView
  mask : Option GridView
deriving DecidableEq, Repr

/-- Read a convolution descriptor and its grids; one that R339 refuses ends the command. -/
def Cx.conv (x : Cx) (a : Nat) : M ConvLayer := do
  let b ← x.readAt a 44
  let c := convOf a b
  if !c.fieldsOk then M.fail codeMapGeometry
  else do
    let i ← x.grid c.inGrid
    let o ← x.grid c.outGrid
    let m ← if c.suppress == 2 then do
        let g ← x.grid c.maskGrid
        pure (some g)
      else pure none
    if c.gridsOk i.geo o.geo (m.map fun g => g.geo) then pure ⟨c, i, o, m⟩ else M.fail codeMapGeometry

/-- The input cell that R338 joins to an output cell at a kernel position. -/
def Conv.inputCell (c : Conv) (g : Geo) (u : Cell) (o : Nat) : Option Cell :=
  let k := c.pos o
  g.cell (c.stride * u.x + k.1 - c.px : Int) (c.stride * u.y + k.2.1 - c.py : Int) (c.stride * u.z + k.2.2 - c.pz : Int)

/-- Output coordinate that joins an input coordinate at a kernel coordinate (R338). -/
def joined (stride i k p : Nat) : Option Int := if (i + p - k : Int) % stride = 0 then some ((i + p - k : Int) / stride) else none

/-- The output cell that an input cell joins at a kernel position. -/
def Conv.outputCell (c : Conv) (g : Geo) (i : Cell) (o : Nat) : Option Cell :=
  let k := c.pos o
  (joined c.stride i.x k.1 c.px).bind fun a =>
    (joined c.stride i.y k.2.1 c.py).bind fun b =>
      (joined c.stride i.z k.2.2 c.pz).bind fun d => g.cell a b d

/-! ### Index tables (R348 to R351) -/

/-- A stale table or rule book (R350, R362). -/
def stale {α : Type} (x : Cx) : M α := do
  M.act (.incSat .NS_STALE x.die x.core)
  M.fail codeMapStale

/-- The header of an index table matches the grid (R350). -/
def Cx.needIndex (x : Cx) (table : Nat) (v : GridView) : M Unit := do
  let b ← x.readAt table 12
  if leAt b 0 8 == v.addr && leAt b 8 4 == v.build then pure () else stale x

/-- The grid that an index table names. -/
def Cx.indexed (x : Cx) (table : Nat) : M GridView := do
  let b ← x.readAt table 12
  x.grid (leAt b 0 6)

/-- The site of an occupied cell: probe, index table (R351). -/
def Cx.siteOf (x : Cx) (table : Nat) (v : GridView) (c : Cell) : M (Option Nat) := do
  match ← x.find v.geo v.build c.key 16 (v.geo.home c.key) with
  | some t => do
    let p ← x.le (table + 64 + 4 * t.index) 4
    pure (some p)
  | none => pure none

/-- The site of a cell: occupancy bit first (R351). -/
def Cx.site (x : Cx) (table : Nat) (v : GridView) (c : Cell) : M (Option Nat) := do
  if ← x.occupied v.geo c then x.siteOf table v c else pure none

/-- What MapIndex performs when it starts. -/
def mapIndexBody (x : Cx) (_ : Nat) : M (Option Nat) := do
  let a ← x.pa 1 640 64
  let v ← x.grid a
  let t ← x.pa 3 (64 + 4 * v.cells) 64
  v.needState 2
  M.each (List.range v.cells) fun p => do
    let e ← x.listSlot v.geo p
    x.writeAt (t + 64 + 4 * e.index) (toLe 4 p)
  x.writeAt t (toLe 8 a ++ toLe 4 v.build ++ List.replicate 52 0)
  pure (some 0)

/-- MAP_INDEX (R349). -/
def execMapIndex (die core : Nat) (turn : Turn) (s : State) : Host.Outcome State Fault Refusal :=
  (issueUnit die core turn.ctx (isMap 3) mapIndexBody turn.course).done s

/-! ### MAP DILATE (R340 to R346) -/

/-- The candidates of a layer in the order of the output grid's cell list: R200, and for a pillar grid R199, since the admission index
of each cell is to equal its site index (R335, R340, R344, R345; log entry 146). -/
def ConvLayer.candidates (l : ConvLayer) (sites : List Cell) : List Cell :=
  let us := sites.flatMap fun i => (List.range l.conv.kv).filterMap fun o => l.conv.outputCell l.out.geo i o
  sortBy l.out.geo.order us

/-- What became of the candidates: admitted, refused, dropped, masked (R344). -/
structure DilateSum where
  admitted : Nat := 0
  refused : Nat := 0
  dropped : Nat := 0
  masked : Nat := 0
deriving DecidableEq, Repr

/-- Admit candidates in order. -/
def Cx.admitAll (x : Cx) (l : ConvLayer) : List Cell → DilateSum → M DilateSum
  | [], n => pure n
  | u :: us, n => do
    let open_ ← match l.mask with
      | some m => x.occupied m.geo u
      | none => pure true
    if !open_ then x.admitAll l us { n with masked := n.masked + 1 }
    else do
      match ← x.admitCell l.out.addr l.out.geo l.out.build u with
      | .full => x.admitAll l us { n with refused := n.refused + 1 }
      | .dropped => x.admitAll l us { n with dropped := n.dropped + 1 }
      | _ => x.admitAll l us { n with admitted := n.admitted + 1 }

/-- The convolution summary (R337). -/
def DilateSum.bytes (n : DilateSum) (candidates : Nat) : List Byte :=
  toLe 4 candidates ++ toLe 4 n.admitted ++ toLe 4 n.refused ++ toLe 4 n.dropped ++ toLe 4 n.masked

/-- MAP DILATE's effect. Under 0x00 and 0x02 it closes the output grid at its end, and waits as GRID_CLOSE does. -/
def mapDilate (x : Cx) (id : Nat) : M (Option Nat) := do
  let a ← x.pa 1 64 64
  let l ← x.conv a
  if l.conv.suppress == 1 then do
    l.inp.needState 2
    x.writeAt (a + 44) (({ admitted := l.inp.cells } : DilateSum).bytes l.inp.cells)
    pure (some 0)
  else do
    l.inp.needState 2
    l.out.needState 1
    let s ← M.state
    if (s.gridRec l.out.addr).any fun r => r.cells != 0 then M.fail codeMapState 1 else pure ()
    let sites ← M.collect (List.range l.inp.cells) fun p => do
      let t ← x.listSlot l.inp.geo p
      pure (cellOf t.key)
    let us := l.candidates sites
    let n ← x.admitAll l us {}
    x.writeAt (a + 44) (n.bytes us.length)
    M.act (.inc .NS_SITES_OUT x.die x.core n.admitted)
    x.beginClose id l.out.addr true
    M.act (closeNow x.die x.core x.ctx)
    pure none

/-- MAP_DILATE. -/
def execMapDilate (die core : Nat) (turn : Turn) (s : State) : Host.Outcome State Fault Refusal :=
  (issueUnit die core turn.ctx (isMap 2) mapDilate turn.course).done s

/-! ### Rule books (R352 to R357) -/

/-- Offset of a rule book's pair area (R352). -/
def pairArea (kv : Nat) : Nat := 64 + 64 * ((kv + 7) / 8)

/-- The pairs of one offset, in ascending output site (R356). -/
def Cx.offsetPairs (x : Cx) (l : ConvLayer) (us : List (Nat × Cell)) (o : Nat) : M (List (Nat × Nat)) := do
  let ps ← M.collect us fun u => do
    match l.conv.inputCell l.inp.geo u.2 o with
    | none => pure none
    | some c => do
      match ← x.site l.conv.inIndex l.inp c with
      | some i => pure (some (i, u.1))
      | none => pure none
  pure (ps.filterMap id)

/-- Cut the pairs of the offsets at a capacity (R357). -/
def cutPairs : Nat → List (List (Nat × Nat)) → List (List (Nat × Nat))
  | _, [] => []
  | cap, ps :: rest => ps.take cap :: cutPairs (cap - ps.length) rest

/-- START and COUNT of the segments (R353). -/
def segments : Nat → List Nat → List (Nat × Nat)
  | _, [] => []
  | start, n :: ns => (start, n) :: segments (start + n) ns

/-- What MapRules performs when it starts. -/
def mapRulesBody (x : Cx) (_ : Nat) : M (Option Nat) := do
  let a ← x.pa 1 64 64
  let cap := x.w 5
  let lo := x.f 6 0 24
  let l ← x.conv a
  l.inp.needState 2
  l.out.needState 2
  x.needIndex l.conv.inIndex l.inp
  let n := min (x.f 7 0 24) (l.out.cells - lo)
  let us ← M.collect (List.range n) fun i => do
    let t ← x.listSlot l.out.geo (lo + i)
    pure (lo + i, cellOf t.key)
  let all ← M.collect (List.range l.conv.kv) (x.offsetPairs l us)
  let kept := cutPairs cap all
  let pairs := kept.flatten
  let dropped := all.flatten.length - pairs.length
  let book ← x.pa 3 (pairArea l.conv.kv + 8 * pairs.length) 64
  x.writeAt (book + pairArea l.conv.kv) (pairs.flatMap fun p => toLe 4 p.1 ++ toLe 4 p.2)
  x.writeAt (book + 64) ((segments 0 (kept.map List.length)).flatMap fun p => toLe 4 p.1 ++ toLe 4 p.2)
  x.writeAt book (toLe 4 lo ++ toLe 4 n ++ toLe 4 pairs.length ++ toLe 4 cap ++ toLe 4 dropped ++ toLe 1 l.conv.kv ++
    toLe 1 (bitIf (dropped != 0) 0) ++ toLe 2 0 ++ toLe 8 a ++ toLe 4 l.inp.build ++ toLe 4 l.out.build ++ List.replicate 24 0)
  M.act (.inc .NS_PAIRS x.die x.core pairs.length)
  M.act (.inc .NS_PAIRS_DROPPED x.die x.core dropped)
  pure (some (flagIf (dropped != 0) flagPartial))

/-- MAP_RULES (R355 to R357). -/
def execMapRules (die core : Nat) (turn : Turn) (s : State) : Host.Outcome State Fault Refusal :=
  (issueUnit die core turn.ctx (isMap 4) mapRulesBody turn.course).done s

/-- A segment of a rule book that is not stale: first output site and the pairs (R353, R354, R362). -/
def Cx.segment (x : Cx) (book o : Nat) : M (Nat × List (Nat × Nat)) := do
  let h ← x.readAt book 40
  let kv := byteAt h 20
  needField (decide (o < kv)) 3 0
  let l ← x.conv (leAt h 24 6)
  if leAt h 32 4 == l.inp.build && leAt h 36 4 == l.out.build then pure () else stale x
  let e ← x.readAt (book + 64 + 8 * o) 8
  let at_ := book + pairArea kv + 8 * leAt e 0 4
  let b ← x.readAt at_ (8 * leAt e 4 4)
  pure (leAt h 0 4, (chunks 8 (leAt e 4 4) b).map fun p => (leAt p 0 4, leAt p 4 4))

/-! ### GATHER and SCATTER_ADD over sites (R358 to R362) -/

/-- Input and output operand hold one format. -/
def sameFmt (i o : Od) : M Unit := do
  i.needFmt
  o.needFmt
  if i.fmt == o.fmt then pure () else M.fail codeNumFormat

/-- The feature row of an input site, for an output operand; an index beyond the input operand ends the command (R361). -/
def Cx.featureRow (x : Cx) (i o : Od) (p : Nat) : M (List Nat) := do
  if i.rows ≤ p then M.fail codeGatherIndex p else pure ()
  let row ← x.odRow i p (min i.cols o.cols)
  pure (padRow o.cols row)

/-- What GatherRows performs when it starts. -/
def gatherRowsBody (x : Cx) (id : Nat) : M (Option Nat) := do
  let book ← x.pa 1 64 64
  let i ← x.od 4
  let o ← x.od 7
  sameFmt i o
  let (_, pairs) ← x.segment book (x.f 3 0 7)
  i.needRows i.rows
  o.needRows (min pairs.length o.rows)
  x.writeRows id o (if i.rows == 0 || o.rows == 0 then 0 else pairs.length) fun j => x.featureRow i o (pairs.getD j (0, 0)).1

/-- GATHER_ROWS (R358). -/
def execGatherRows (die core : Nat) (turn : Turn) (s : State) : Host.Outcome State Fault Refusal :=
  (issueUnit die core turn.ctx (isGather 1) gatherRowsBody turn.course).done s

/-- What GatherNeighbour performs when it starts. -/
def gatherNeighbourBody (x : Cx) (id : Nat) : M (Option Nat) := do
  let a ← x.pa 1 64 64
  let off := x.f 3 0 7
  let i ← x.od 4
  let lo := x.f 5 0 24
  let o ← x.od 7
  sameFmt i o
  let l ← x.conv a
  needField (decide (off < l.conv.kv)) 3 0
  x.needIndex l.conv.inIndex l.inp
  let n := if i.rows == 0 || o.rows == 0 then 0 else min (x.f 6 0 24) (l.out.cells - lo)
  i.needRows i.rows
  o.needRows (min n o.rows)
  x.writeRows id o n fun r => do
    let t ← x.listSlot l.out.geo (lo + r)
    match l.conv.inputCell l.inp.geo (cellOf t.key) off with
    | none => pure (List.replicate o.cols 0)
    | some c => do
      match ← x.site l.conv.inIndex l.inp c with
      | some p => x.featureRow i o p
      | none => pure (List.replicate o.cols 0)

/-- GATHER_NEIGHBOUR (R359). -/
def execGatherNeighbour (die core : Nat) (turn : Turn) (s : State) : Host.Outcome State Fault Refusal :=
  (issueUnit die core turn.ctx (isGather 2) gatherNeighbourBody turn.course).done s

/-- What ScatterAddRows performs when it starts. -/
def scatterAddRowsBody (x : Cx) (id : Nat) : M (Option Nat) := do
  let book ← x.pa 1 64 64
  let i ← x.od 4
  let o ← x.od 5
  needField (!o.tiled) 11 24
  needAddFmt o.fmt 11 16
  i.needFmt
  if i.fmt == o.fmt then pure () else M.fail codeNumFormat
  let (lo, pairs) ← x.segment book (x.f 3 0 7)
  i.needRows i.rows
  needRange o.base (o.span o.rows (packedBytes o.fmt o.cols)) 0
  let n := if i.rows == 0 || o.rows == 0 then 0 else pairs.length
  if n == 0 then pure () else needAdder o.base 8
  inParts x id n fun j => do
    if i.rows ≤ j then M.fail codeGatherIndex j else pure ()
    let r := ((pairs.getD j (0, 0)).2 + 2 ^ 32 - lo) % 2 ^ 32
    if o.rows ≤ r then M.fail codeGatherIndex r else pure ()
    let row ← x.odRow i j (min i.cols o.cols)
    x.addAt (o.base + r * o.rowBytes) o.fmt (packElements o.fmt (padRow o.cols row))
    M.act (.inc .NS_SCATTER_ROWS x.die x.core)

/-- SCATTER_ADD_ROWS (R358, R360, R361, 11 R495). -/
def execScatterAddRows (die core : Nat) (turn : Turn) (s : State) : Host.Outcome State Fault Refusal :=
  (issueUnit die core turn.ctx (isScatter true) scatterAddRowsBody turn.course).done s

/-! ### Walking and intersecting (R366 to R368) -/

/-- Write at most `cap` entries with their counts (R368); PARTIAL when entries were found beyond those written (10 R466). -/
def Cx.writeFound (x : Cx) (word cap size : Nat) (es : List (List Byte)) : M (Option Nat) := do
  let out := es.take cap
  let off ← x.local word (8 + size * out.length) 1
  writeStore x.die x.core (off + 8) out.flatten
  writeStore x.die x.core off (toLe 4 out.length ++ toLe 4 es.length)
  pure (some (flagIf (decide (out.length < es.length)) flagPartial))

/-- Numbers of the bits that are set in a bitmap, rising. -/
def setBits (bs : List Byte) : List Nat :=
  bs.zipIdx.flatMap fun (q : Byte × Nat) => ((List.range 8).filter (bit q.1.toNat)).map fun k => 8 * q.2 + k

/-- Cells of a grid whose occupancy bits are set: each bitmap that a directory entry or pointer reaches is read once (07 R333). -/
def Cx.occupiedCells (x : Cx) (g : Geo) : M (List Cell) :=
  if g.pillar then do
    let rows ← M.collect (List.range g.ny) fun y => do
      let bs ← x.readAt (g.occBase + 256 * y) 256
      pure ((setBits bs).map fun i => (⟨i, y, 0⟩ : Cell))
    pure rows.flatten
  else do
    let top ← x.readAt g.occBase 512
    let sbs ← M.collect (setBits top) fun t => do
      let p ← x.le (g.dirAt t) 4
      if p == 0 then pure []
      else do
        let sb := g.sbAt (p - 1)
        let map ← x.readAt sb 64
        let brs ← M.collect (setBits map) fun b => do
          let q ← x.le (sb + 64 + 4 * b) 4
          if q == 0 then pure []
          else do
            let vox ← x.readAt (g.brAt (q - 1)) 64
            pure ((setBits vox).map fun v =>
              (⟨64 * (t % 32) + 8 * (b % 8) + v % 8, 64 * (t / 32 % 32) + 8 * (b / 8 % 8) + v / 8 % 8,
                64 * (t / 1024) + 8 * (b / 64) + v / 64⟩ : Cell))
        pure brs.flatten
    pure sbs.flatten

/-- The sites of a grid whose occupancy bit is set, with their cells, in ascending site index. -/
def Cx.occupiedSites (x : Cx) (v : GridView) : M (List (Nat × Cell)) := do
  let cs ← x.occupiedCells v.geo
  let ps ← M.collect (List.range v.cells) fun p => do
    let t ← x.listSlot v.geo p
    pure (p, cellOf t.key)
  pure (ps.filter fun p => cs.contains p.2)

/-- What MapWalk performs when it starts. -/
def mapWalkBody (x : Cx) (_ : Nat) : M (Option Nat) := do
  let table ← x.pa 1 64 64
  needField (decide (x.f 7 0 12 ≤ 256)) 7 0
  needField (decide (x.f 7 12 12 ≤ 256)) 7 12
  let v ← x.indexed table
  x.needIndex table v
  let inside := fun (w i : Nat) => decide (x.f w 0 12 ≤ i ∧ i < x.f w 12 12)
  let ps ← x.occupiedSites v
  let hits := ps.filter fun p => inside 5 p.2.x && inside 6 p.2.y && inside 7 p.2.z
  x.writeFound 3 (x.w 4) 4 (hits.map fun p => toLe 4 p.1)

/-- MAP_WALK (R366, R368). -/
def execMapWalk (die core : Nat) (turn : Turn) (s : State) : Host.Outcome State Fault Refusal :=
  (issueUnit die core turn.ctx (isMap 5) mapWalkBody turn.course).done s

/-- What MapAnd performs when it starts. -/
def mapAndBody (x : Cx) (_ : Nat) : M (Option Nat) := do
  let ta ← x.pa 1 64 64
  let tb ← x.pa 3 64 64
  let a ← x.indexed ta
  let b ← x.indexed tb
  if a.geo.same b.geo then pure () else M.fail codeMapGeometry
  x.needIndex ta a
  x.needIndex tb b
  let ps ← x.occupiedSites a
  let cs ← x.occupiedCells b.geo
  let hits ← M.collect ps fun p => do
    match ← if cs.contains p.2 then x.siteOf tb b p.2 else pure none with
    | some q => pure (some (toLe 4 p.1 ++ toLe 4 q))
    | none => pure none
  x.writeFound 5 (x.w 6) 8 (hits.filterMap id)

/-- MAP_AND (R367, R368). -/
def execMapAnd (die core : Nat) (turn : Turn) (s : State) : Host.Outcome State Fault Refusal :=
  (issueUnit die core turn.ctx (isMap 6) mapAndBody turn.course).done s

end Sys2Proof.Machine
end

