-- ==== Sys2Proof/Machine/Search.lean ====
section
/-! DEFINITION. DIST and TOPK (08_sparse_convolution_and_neighbours.md, R369 to R384). -/

namespace Sys2Proof.Machine

/-- Insert before the first element that the new one goes before. -/
def insertBefore {α : Type} (before : α → α → Bool) (v : α) : List α → List α
  | [] => [v]
  | w :: rest => if before v w then v :: w :: rest else w :: insertBefore before v rest

/-! ### DIST (R369 to R377) -/

/-- A candidate: reported index and distance, as they stand in the planes. -/
structure Cand where
  index : Nat
  dist : Nat
deriving DecidableEq, Repr

/-- A DIST's selection: INT32 or FP32 distances, mode, slots and radius. -/
structure DistOp where
  ints : Bool
  knn : Bool
  slots : Nat
  radius : Nat
deriving DecidableEq, Repr

/-- Distance of a slot that holds no candidate (R375). -/
def unfilledDist (ints : Bool) : Nat := if ints then 0x7FFFFFFF else 0x7F800000

/-- One distance is below another. -/
def DistOp.below (o : DistOp) (a b : Nat) : Bool := if o.ints then decide (signed 32 a < signed 32 b) else (fp32 a).lt (fp32 b)

/-- The order of a selection: by distance and index, or by index alone (R371, R372). -/
def DistOp.before (o : DistOp) (a b : Cand) : Bool :=
  if o.knn then o.below a.dist b.dist || !o.below b.dist a.dist && decide (a.index < b.index) else decide (a.index < b.index)

/-- The candidate may be selected (R371, R373). -/
def DistOp.eligible (o : DistOp) (c : Cand) : Bool :=
  (o.ints || !(fp32 c.dist).isNan) && (o.knn || (o.ints || !(fp32 o.radius).isNan) && !o.below o.radius c.dist)

/-- A selection after more candidates. -/
def DistOp.select (o : DistOp) (sel cs : List Cand) : List Cand :=
  (((cs.filter o.eligible).foldl (fun l c => insertBefore o.before c l) sel).take o.slots)

/-- A query's rows in the index and the distance plane (R375). -/
def DistOp.planes (o : DistOp) (sel : List Cand) : List Byte × List Byte :=
  let free := List.replicate (64 - sel.length) ()
  ((sel.flatMap fun c => toLe 4 c.index) ++ free.flatMap fun _ => toLe 4 0xFFFFFFFF,
   (sel.flatMap fun c => toLe 4 c.dist) ++ free.flatMap fun _ => toLe 4 (unfilledDist o.ints))

/-- Coordinate format of a DIST (10 R444 CFMT). -/
def distFmt (cfmt : Nat) : Nat :=
  match cfmt with
  | 0 => fmtInt8
  | 1 => fmtUint8
  | 2 => fmtInt16
  | _ => fmtFp16

/-- Squared distance of two rows, and whether it saturated (R370, 06 R278, R279). -/
def distance (fmt : Nat) (q c : List Nat) : Nat × Bool :=
  let o : StreamOp := { kind := 1, pred := 0, axis := false, acc := false, tiled := false, afmt := fmt, wfmt := fmt,
                        m := 0, k := q.length, n := 1, asrc := 0, aaux := 0, psrc := 0, pdst := 0 }
  let xs := (q.map (elementValue fmt)).toArray
  let ws := c.zipIdx.map fun (p : Nat × Nat) => (p.2, elementValue fmt p.1)
  passOut o.ints (passSum o xs ws) none

/-- Bytes from one row of coordinates to the next (10 R444). -/
def coordStep (d fmt : Nat) : Nat := (packedBytes fmt d + 63) / 64 * 64

/-- Place of rows of coordinates at a local address (10 R444 QRY, CAND). -/
def Cx.coordsAt (x : Cx) (word rows d fmt : Nat) : M Nat :=
  let row := packedBytes fmt d
  x.local word (if rows == 0 || row == 0 then 0 else (rows - 1) * coordStep d fmt + row) 1

/-- Read rows of coordinates, numbered from `lo`. -/
def Cx.coords (x : Cx) (off lo n d fmt : Nat) : M (List (List Nat)) :=
  M.collect (List.range n) fun r => do
    let bs ← readStore x.die x.core (off + (lo + r) * coordStep d fmt) (packedBytes fmt d)
    pure ((unpackElements fmt bs).take d)

/-- The candidates that a query's slots hold (R376). -/
def Cx.held (x : Cx) (idxp distp m slots : Nat) : M (List Cand) := do
  let is ← readStore x.die x.core (idxp + 256 * m) (4 * slots)
  let ds ← readStore x.die x.core (distp + 256 * m) (4 * slots)
  pure (((groupLe 4 0 0 is).zip (groupLe 4 0 0 ds)).filterMap fun p => if p.1 == 0xFFFFFFFF then none else some ⟨p.1, p.2⟩)

/-- The operands of a DIST: shape, EXCL, and the places of queries, candidates and planes. -/
structure DistArgs where
  op : DistOp
  fmt : Nat
  base : Nat
  m : Nat
  nc : Nat
  d : Nat
  excl : Bool
  qry : Nat
  cand : Nat
  idxp : Nat
  distp : Nat
deriving DecidableEq, Repr

/-- EXCL skips a candidate of query `m` (R374). -/
def DistArgs.skips (a : DistArgs) (m : Nat) (c : Cand) : Bool := a.excl && c.index == (m + a.base) % 2 ^ 32

/-- Block `b` of up to 64 candidates, measured from every query: the selections after it, which stand in the planes (R474). -/
def Cx.distBlock (x : Cx) (a : DistArgs) (sels : List (List Cand)) (b : Nat) : M (List (List Cand)) := do
  let qs ← x.coords a.qry 0 a.m a.d a.fmt
  let cs ← x.coords a.cand (64 * b) (min 64 (a.nc - 64 * b)) a.d a.fmt
  M.collect (qs.zip sels).zipIdx fun (q : (List Nat × List Cand) × Nat) => do
    let ds := cs.zipIdx.map fun (c : List Nat × Nat) => ((a.base + 64 * b + c.2) % 2 ^ 32, distance a.fmt q.1.1 c.1)
    let next := a.op.select q.1.2 ((ds.map fun p => (⟨p.1, p.2.1⟩ : Cand)).filter fun c => !a.skips q.2 c)
    let (is, bs) := a.op.planes next
    writeStore x.die x.core (a.idxp + 256 * q.2) is
    writeStore x.die x.core (a.distp + 256 * q.2) bs
    M.act (.when (next != q.1.2) (.inc .NS_DIST_ADMITS x.die x.core))
    raise (flagIf (ds.any fun p => p.2.2) flagSat)
    pure next

/-- Blocks of a DIST one after the other. -/
def Cx.distBlocks (x : Cx) (a : DistArgs) : List Nat → List (List Cand) → M Unit
  | [], _ => pure ()
  | b :: bs, sels => do
    let next ← x.distBlock a sels b
    x.distBlocks a bs next

/-- DIST's effect, block by block. It starts from nothing, or from what the planes hold: under MERGE, and when it goes on after a
pre-emption (R376, R474, 10 R473). Without candidates it leaves every slot unfilled, or under MERGE unchanged (R377). -/
def distSearch (x : Cx) (id : Nat) : M (Option Nat) := do
  let mode := x.cmd.mode
  let fmt := distFmt (bits mode 3 2)
  let base := x.c (bits mode 5 3)
  let m := x.f 5 0 24
  let nc := x.f 6 0 24
  let d := x.f 6 24 7
  let o : DistOp := ⟨fmt != fmtFp16, bit mode 0, x.f 5 24 7, x.w 7⟩
  needField (decide (o.slots ≤ 64)) 5 24
  needField (decide (d ≤ 64)) 6 24
  let qry ← x.coordsAt 1 m d fmt
  let cand ← x.coordsAt 2 nc d fmt
  let idxp ← x.local 3 (256 * m) 1
  let distp ← x.local 4 (256 * m) 1
  let a : DistArgs := ⟨o, fmt, base, m, nc, d, bit mode 2, qry, cand, idxp, distp⟩
  let blocks := if nc == 0 then b2n (!bit mode 1) else (nc + 63) / 64
  inRange x id blocks fun lo hi => do
    let sels ← M.collect (List.range m) fun q => do
      let old ← if (lo != 0 || bit mode 1) && lo != hi then x.held idxp distp q o.slots else pure []
      pure (o.select [] (old.filter fun c => !a.skips q c))
    x.distBlocks a ((List.range hi).drop lo) sels
    M.act (.when (hi == blocks) (.inc .NS_DIST_ROWS x.die x.core m))

/-- What Dist performs when it starts. -/
def distBody (x : Cx) (id : Nat) : M (Option Nat) := distSearch x id

/-- DIST. -/
def execDist (die core : Nat) (turn : Turn) (s : State) : Host.Outcome State Fault Refusal :=
  (issueUnit die core turn.ctx (isOp 0x24) distBody turn.course).done s

/-! ### TOPK (R378 to R384) -/

/-- Formats of scores and rows: the 8-bit and 16-bit classes (R378, R381). -/
def topkFmt (fmt : Nat) : Bool := arrayClass fmt == 8 || arrayClass fmt == 16

/-- The format field of a TOPK: an invalid code is a wrong field, a format of the 4-bit class or of none is not admitted. -/
def Cx.needTopkFmt (x : Cx) : M Nat := do
  let fmt := bits x.cmd.mode 2 4
  needField (fmtOk fmt) 0 10
  if topkFmt fmt then pure fmt else M.fail codeNumFormat

/-- One score goes before another: by value in the direction, then by index (R379). -/
def scoreBefore (fmt : Nat) (smallest : Bool) (a b : Nat × Nat) : Bool :=
  match (elementValue fmt a.1).cmp (elementValue fmt b.1) with
  | some .eq => decide (a.2 < b.2)
  | some .lt => smallest
  | some .gt => !smallest
  | none => false

/-- A score as INT32 or FP32 (R380). -/
def scoreOut (fmt v : Nat) : Nat :=
  if isFloatFmt fmt then toFp32 (elementValue fmt v) else encode 32 (elementValue fmt v).toInt

/-- TOPK in SELECT mode; it can stop before its first output write and then begins again (10 R473). -/
def topkSelect (x : Cx) (id : Nat) : M (Option Nat) := do
  let fmt ← x.needTopkFmt
  let n := x.f 4 0 24
  let k := x.f 5 0 13
  needField (decide (k ≤ 4096)) 5 0
  let src ← x.local 1 (packedBytes fmt n) 1
  let idx ← x.local 2 (4 * k) 1
  let val ← x.local 3 (4 * k) 1
  inParts x id 1 fun _ => do
    let bs ← readStore x.die x.core src (packedBytes fmt n)
    let scores := ((unpackElements fmt bs).take n).zipIdx.filter fun (p : Nat × Nat) => !(elementValue fmt p.1).isNan
    let kept := scores.foldl (fun l p => (insertBefore (scoreBefore fmt (bit x.cmd.mode 1)) p l).take k) []
    let free := List.replicate (k - kept.length) ()
    writeStore x.die x.core idx ((kept.flatMap fun p => toLe 4 p.2) ++ free.flatMap fun _ => toLe 4 0xFFFFFFFF)
    writeStore x.die x.core val ((kept.flatMap fun p => toLe 4 (scoreOut fmt p.1)) ++
      free.flatMap fun _ => toLe 4 (unfilledDist (!isFloatFmt fmt)))
    M.act (.inc .NS_TOPK_ELEMS x.die x.core n)

/-- A TOPK of a mode. -/
def isTopk (suppress : Bool) (i : Issue) : Bool := isOp 0x25 i && bit i.mode 0 == suppress

/-- What TopkSelect performs when it starts. -/
def topkSelectBody (x : Cx) (id : Nat) : M (Option Nat) := topkSelect x id

/-- TOPK_SELECT. -/
def execTopkSelect (die core : Nat) (turn : Turn) (s : State) : Host.Outcome State Fault Refusal :=
  (issueUnit die core turn.ctx (isTopk false) topkSelectBody turn.course).done s

/-- Candidate i conflicts with candidate j, by i's A row and j's B row (R382). -/
def conflicts (fmt : Nat) (a b : List Nat) : Bool :=
  (a.zip b).all fun p => predHolds 2 (elementValue fmt p.1) (elementValue fmt p.2)

/-- A candidate: rank, A row and B row. -/
structure Box where
  rank : Nat
  a : List Nat
  b : List Nat
deriving DecidableEq, Repr

/-- Visit candidates in ascending rank (R383): those kept, and how many were not conflicting but fell beyond the limit (R384). -/
def suppress (fmt limit : Nat) : List Box → List Box → Nat → List Box × Nat
  | [], kept, beyond => (kept, beyond)
  | c :: cs, kept, beyond =>
    if kept.any fun j => conflicts fmt c.a j.b then suppress fmt limit cs kept beyond
    else if kept.length < limit then suppress fmt limit cs (kept ++ [c]) beyond
    else suppress fmt limit cs kept (beyond + 1)

/-- Rows of P elements spaced by 64 or 128 bytes (10 R444). -/
def Cx.boxRows (x : Cx) (word n p fmt : Nat) : M (List (List Nat)) := do
  let row := packedBytes fmt p
  let step := tileRow fmt
  let off ← x.local word (if n == 0 || row == 0 then 0 else (n - 1) * step + row) 1
  M.collect (List.range n) fun r => do
    let bs ← readStore x.die x.core (off + r * step) row
    pure ((unpackElements fmt bs).take p)

/-- A bitmap of `n` bits in the bit order of 04 R191. -/
def bitmapBytes (n : Nat) (set : List Nat) : List Byte :=
  (List.range ((n + 7) / 8)).flatMap fun i => toLe 1 ((List.range 8).map fun b => bitIf (set.contains (8 * i + b)) b).sum

/-- TOPK in SUPPRESS mode; it can stop before its first output write and then begins again (10 R473). -/
def topkSuppress (x : Cx) (id : Nat) : M (Option Nat) := do
  let fmt ← x.needTopkFmt
  let n := x.f 5 0 13
  let p := x.f 5 16 7
  let limit := x.f 6 0 13
  needField (decide (n ≤ 4096)) 5 0
  needField (decide (p ≤ 64)) 5 16
  needField (decide (limit ≤ 4096)) 6 0
  inParts x id 1 fun _ => do
    let as ← x.boxRows 1 n p fmt
    let bs ← x.boxRows 2 n p fmt
    let map ← x.local 3 ((n + 7) / 8) 1
    let boxes := (as.zip bs).zipIdx.map fun (q : (List Nat × List Nat) × Nat) => (⟨q.2, q.1.1, q.1.2⟩ : Box)
    let (kept, beyond) := suppress fmt limit boxes [] 0
    let ranks ← x.local 4 (4 * kept.length) 1
    let count ← x.local 7 4 1
    writeStore x.die x.core map (bitmapBytes n (kept.map fun c => c.rank))
    writeStore x.die x.core ranks (kept.flatMap fun c => toLe 4 c.rank)
    writeStore x.die x.core count (toLe 4 beyond)
    M.act (.inc .NS_TOPK_ELEMS x.die x.core n)

/-- What TopkSuppress performs when it starts. -/
def topkSuppressBody (x : Cx) (id : Nat) : M (Option Nat) := topkSuppress x id

/-- TOPK_SUPPRESS. -/
def execTopkSuppress (die core : Nat) (turn : Turn) (s : State) : Host.Outcome State Fault Refusal :=
  (issueUnit die core turn.ctx (isTopk true) topkSuppressBody turn.course).done s

end Sys2Proof.Machine
end

