-- ==== Sys2Proof/Machine/Vector.lean ====
section
/-! DEFINITION. The vector unit: VEC and QUANT (06 R282 to R296, R826, 10 R444, R445) and the predictor (09 R405 to R416). -/

namespace Sys2Proof.Machine

/-! ### Results of one lane -/

/-- A lane's result: its encoding, and what it raised. -/
structure Lane where
  v : Nat
  invalid : Bool := false
  overflow : Bool := false
  sat : Bool := false
deriving DecidableEq, Repr

/-- An FP32 result from FP32 operands: a NaN from operands none of which is NaN is invalid (R293), an infinity from finite operands an
overflow. -/
def fpResult (ops : List Val) (r : Val) : Lane :=
  let v := toFp32 r
  let x := fp32 v
  { v := v, invalid := x.isNan && !(ops.any Val.isNan), overflow := x.isInf && ops.all Val.isFinite }

/-- An integer limited to the INT32 range (R296). -/
def intResult (i : Int) : Lane :=
  let r := clampInt int32Min int32Max i
  { v := encode 32 r.1, sat := r.2 }

/-! ### Conversions (R282 to R284) -/

/-- A number rounded once to a floating-point format; beyond its range stands infinity, or with `satf` the largest finite value. -/
def toFloat (f : FloatFmt) (satf : Bool) (x : Val) (r : Draw) : Lane :=
  let (e, big) := f.round satf x r
  { v := e, invalid := !x.isNan && (f.decode e).isNan, overflow := big && f.inf.isSome && !satf, sat := big && (f.inf.isNone || satf) }

/-- Limits of an integer format. -/
def intLimits (fmt : Nat) : Int × Int :=
  if fmt == fmtUint8 then (0, 255) else (-(2 ^ (fmtBits fmt - 1) : Nat), (2 ^ (fmtBits fmt - 1) : Nat) - 1)

/-- A number rounded once to an integer format: NaN gives 0, an infinity the nearer limit. -/
def toIntFmt (fmt : Nat) (x : Val) (r : Draw) : Lane :=
  let (lo, hi) := intLimits fmt
  match x with
  | .nan => { v := 0, invalid := true }
  | .inf n => { v := encode (fmtBits fmt) (if n then lo else hi), sat := true }
  | y =>
    let c := clampInt lo hi (y.toInt r)
    { v := encode (fmtBits fmt) c.1, sat := c.2 }

/-- A number in metres as XC24 (R282). -/
def toXc24Lane (x : Val) (r : Draw) : Lane :=
  let c := (x.shift 10).toXc24 r
  { v := encode 24 c.1, invalid := x.isNan, sat := c.2 }

/-- floor(log2) of a finite number that is not zero. -/
def Val.log2 : Val → Int
  | .fin _ m e => e + Nat.log2 m
  | _ => 0

/-- Scale byte of a block of finite numbers (R285). -/
def blockScale (xs : List Val) : Nat :=
  let logs := (xs.filter fun x => !x.isZero).map Val.log2
  match logs with
  | [] => 0
  | l :: ls => (min 254 (max 0 (ls.foldl max l - 2 + 127))).toNat

/-- An MXFP4 block: scale byte and elements (R285, R286). -/
def toMxfp4 (xs : List Val) (rs : List Draw) : Nat × List Lane :=
  if xs.any fun x => !x.isFinite then (0xFF, xs.map fun _ => { v := 0, invalid := true })
  else
    let e := blockScale xs
    (e, (xs.zip rs).map fun p => toFloat e2m1Fmt true (p.1.shift (127 - (e : Int))) p.2)

/-! ### Stochastic rounding (R287 to R291) -/

/-- One step of the generator (R289). -/
def xorshift (x : Nat) : Nat :=
  let a := (x ^^^ (x * 2 ^ 13)) % 2 ^ 32
  let b := a ^^^ (a / 2 ^ 17)
  (b ^^^ (b * 2 ^ 5)) % 2 ^ 32

/-- Draws for `n` elements, and the generator after them (R290). -/
def drawMany : Nat → Nat → List Draw × Nat
  | 0, x => ([], x)
  | n + 1, x =>
    let y := xorshift x
    let (rs, z) := drawMany n y
    (some (y / 2 ^ 16) :: rs, z)

/-- The generator's start for a seed. -/
def seedOf (w : Nat) : Nat := if w == 0 then 0x6A09E667 else w

/-- Draws for the elements of a row: none without stochastic rounding. The generator's state stands in VU_SR_STATE. -/
def Cx.draws (x : Cx) (sr : Bool) (n : Nat) : M (List Draw) := do
  if sr then do
    let s ← M.state
    let (rs, z) := drawMany n (s.rd .VU_SR_STATE x.die x.core)
    M.act (.set .VU_SR_STATE x.die x.core z)
    pure rs
  else pure (List.replicate n none)

/-- A stochastic command loads the generator; the safety bit of its transit tag refuses it (R289, R291). One that goes on after a
pre-emption takes the generator as its context kept it (10 R473). -/
def Cx.beginStochastic (x : Cx) (sr : Bool) (seed : Nat) : M Unit := do
  if sr then do
    let s ← M.state
    let kept := (s.ctx x.die x.core x.ctx).sr
    if s.on .CTX_SAFETY x.die (ctxIdx x.core x.ctx) then M.fail 0x18
    else M.act (.seq (.ctx x.die x.core x.ctx fun y => { y with sr := none })
      (if x.cmd.row == 0 then .set .VU_SR_STATE x.die x.core (seedOf seed)
       else match kept with
         | some v => .set .VU_SR_STATE x.die x.core v
         | none => .nop))
  else pure ()

/-! ### What a row leaves in the vector unit's registers -/

/-- Encodings of a row's lanes that are NaN in a format. -/
def nanCount (fmt : Nat) (vs : List Nat) : Nat :=
  if fmt == fmtMxfp4 then 0
  else
    match floatFmtOf fmt with
    | some f => (vs.filter fun v => (f.decode v).isNan).length
    | none => 0

/-- Set the sticky flags, the counters and the completion's flags for a row's lanes (R284, R293, R296). -/
def Cx.raise (x : Cx) (fmt : Nat) (ls : List Lane) : M Unit := do
  let inv := ls.any fun l => l.invalid
  let ovf := ls.any fun l => l.overflow
  let sat := ls.any fun l => l.sat
  M.act (.all [
    .when inv (.set .VU_FLAGS_INVALID x.die x.core 1),
    .when ovf (.set .VU_FLAGS_OVERFLOW x.die x.core 1),
    .when sat (.set .VU_FLAGS_SAT x.die x.core 1),
    .inc .VU_SAT_COUNT x.die x.core (ls.filter fun l => l.overflow || l.sat).length,
    .inc .VU_NAN_COUNT x.die x.core (nanCount fmt (ls.map fun l => l.v))])
  Sys2Proof.Machine.raise (flagIf sat flagSat ||| flagIf inv flagInvalid ||| flagIf ovf flagOverflow)

/-! ### VEC (R292 to R296, 10 R445) -/

/-- The free choice among the results that a bound of R292 admits (log entry 7). -/
def approx (op a b : Nat) : Nat := (Config.vuApprox op (BitVec.ofNat 32 a) (BitVec.ofNat 32 b)).toNat

/-- ±x by sign. -/
def signedVal (neg : Bool) (x : Val) : Val := if neg then x.neg else x

/-- One. -/
def Val.one : Val := .fin false 1 0

/-- The magnitude exceeds 2^20. -/
def beyondTurns (x : Val) : Bool := (Val.fin false 1 20).lt x.abs

/-- Results of the one-operand operations 0x06 to 0x12 with their special values (R292). -/
def vecUnary (op a : Nat) : Val :=
  let x := fp32 a
  let v := fixOf x
  let free := approx op a 0
  let near := fun (w : Nat) (exact : Int) => withinUlps w free (decide (exact < 0)) exact
  let signed := fun (w : Nat) (exact : Int) => withinUlps w free x.isNeg exact
  let ln := match x with
    | .fin _ m e => fixLog m e
    | _ => 0
  if x.isNan then .nan
  else
    match op with
    | 0x06 => x.sqrt
    | 0x07 => if x.isZero then .inf x.isNeg else if x.isInf then signedVal x.isNeg .zero else signed 1 (fixOf (Val.one.div x))
    | 0x08 =>
      if x.isZero then (if x.isNeg then fp32 free else .inf false)
      else if x.isNeg then .nan
      else if x.isInf then .zero
      else near 1 (fixOf (Val.one.div x.sqrt))
    | 0x09 => if x.isInf then (if x.isNeg then .zero else x) else near 1 (fixExp (fixMul v fixLn2))
    | 0x0A => if x.isInf then (if x.isNeg then .zero else x) else near 2 (fixExp v)
    | 0x0B => if x.isZero then .inf true else if x.isNeg then .nan else if x.isInf then x else near 1 (fixDiv ln fixLn2)
    | 0x0C => if x.isZero then .inf true else if x.isNeg then .nan else if x.isInf then x else near 2 ln
    | 0x0D => if x.isInf then signedVal x.isNeg Val.one else signed 2 (if x.isNeg then -fixTanh (-v) else fixTanh v)
    | 0x0E => if x.isInf then (if x.isNeg then .zero else Val.one) else near 3 (fixSigmoid v)
    | 0x0F => if x.isInf then (if x.isNeg then Val.zero.neg else x) else signed 4 (fixMul v (fixSigmoid v))
    | 0x10 => if x.isInf then (if x.isNeg then Val.zero.neg else x) else signed 4 (fixMul v (fixPhi v))
    | _ =>
      if x.isInf || beyondTurns x then .nan
      else chooseNear free (x.isNeg && op == 0x11) (fixTrig (op == 0x12) v) (fixOne / 2 ^ 22)

/-- The angle of a point with finite coordinates: the arctangent of its smaller coordinate over its larger, in its quadrant. -/
def angleOf (y x : Val) : Int :=
  let small := if y.abs.lt x.abs then fixAtan (fixOf (y.abs.div x.abs)) else fixPi / 2 - fixAtan (fixOf (x.abs.div y.abs))
  if x.isNeg then fixPi - small else small

/-- atan2 with its special values (R292); of an infinite operand the table states no result. -/
def vecAtan2 (a b : Nat) : Val :=
  let y := fp32 a
  let x := fp32 b
  let free := approx 0x13 a b
  if y.isNan || x.isNan then .nan
  else if y.isInf || x.isInf then fp32 free
  else if y.isZero && x.isZero then
    (if x.isNeg then withinUlps 2 free y.isNeg (if y.isNeg then -fixPi else fixPi) else y)
  else withinUlps 2 free y.isNeg (if y.isNeg then -angleOf y x else angleOf y x)

/-- The smaller of two numbers, −0 below +0; NaN with a NaN (R292). -/
def minVal (x y : Val) : Val :=
  match x.cmp y with
  | none => .nan
  | some .lt => x
  | some .gt => y
  | some .eq => if x.isNeg then x else y

/-- The larger of two numbers, −0 below +0; NaN with a NaN. -/
def maxVal (x y : Val) : Val :=
  match x.cmp y with
  | none => .nan
  | some .lt => y
  | some .gt => x
  | some .eq => if x.isNeg then y else x

/-- An integral number with the sign of the number it was made of. -/
def integral (x : Val) (i : Int) : Val := if i == 0 then .fin x.isNeg 0 0 else .ofInt i

/-- floor, ceil, trunc, rint of a number (R292). -/
def roundTo (op : Nat) (x : Val) : Val :=
  match x with
  | .fin n m e =>
    if 0 ≤ e then x
    else
      let d := 2 ^ (-e).toNat
      let i : Int := if n then -(m : Int) else m
      match op with
      | 0x16 => integral x (i / d)
      | 0x17 => integral x (-((-i) / d))
      | 0x18 => integral x (i.tdiv d)
      | _ => integral x x.toInt
  | y => y

/-- A comparison of R292: false with a NaN, but not-equal is true. -/
def compareBy (pred : Nat) (x y : Val) : Bool :=
  match x.cmp y with
  | none => pred == 5
  | some o =>
    match pred with
    | 0 => o == .gt
    | 1 => o != .lt
    | 2 => o == .lt
    | 3 => o != .gt
    | 4 => o == .eq
    | _ => o != .eq

/-- The lane value of a mask. -/
def maskLane (c : Bool) : Nat := if c then (if Config.maskSet.toNat == 0 then 1 else Config.maskSet.toNat) else 0

/-- The integer operations (R296). -/
def vecInt (op a b : Nat) : Lane :=
  let x := signed 32 a
  let y := signed 32 b
  let n := b % 32
  match op with
  | 0x20 => { v := encode 32 (x + y) }
  | 0x21 => { v := encode 32 (x - y) }
  | 0x22 => { v := encode 32 (x * y) }
  | 0x23 => intResult (x + y)
  | 0x24 => intResult (x - y)
  | 0x25 => intResult (x * y)
  | 0x26 => { v := a * 2 ^ n % 2 ^ 32 }
  | 0x27 => { v := a / 2 ^ n }
  | 0x28 => { v := encode 32 (x / (2 ^ n : Nat)) }
  | 0x29 => { v := a &&& b }
  | 0x2A => { v := a ||| b }
  | _ => { v := a ^^^ b }

/-- The result of one lane of an element-wise operation. -/
def vecLane (op pred a b c : Nat) : Lane :=
  let x := fp32 a
  let y := fp32 b
  let z := fp32 c
  match op with
  | 0x00 => fpResult [x] x
  | 0x01 => fpResult [x, y] (x.add y)
  | 0x02 => fpResult [x, y] (x.sub y)
  | 0x03 => fpResult [x, y] (x.mul y)
  | 0x04 => fpResult [x, y, z] ((x.mul y).add z)
  | 0x05 => fpResult [x, y] (x.div y)
  | 0x13 => fpResult [x, y] (vecAtan2 a b)
  | 0x14 => fpResult [x, y] (minVal x y)
  | 0x15 => fpResult [x, y] (maxVal x y)
  | 0x16 | 0x17 | 0x18 | 0x19 => fpResult [x] (roundTo op x)
  | 0x1A => { v := maskLane (compareBy pred x y) }
  | 0x1B => if c != 0 then fpResult [x] x else fpResult [y] y
  | _ => if op < 0x20 then fpResult [x] (vecUnary op a) else vecInt op a b

/-- Copy and select move INT32 lanes as they stand when the output is INT32. -/
def vecMove (op a b c : Nat) : Lane := { v := if op == 0x00 || c != 0 then a else b }

/-- One level of the reduction tree (R294). -/
def pairUp {α : Type} (f : α → α → α) : List α → List α
  | a :: b :: rest => f a b :: pairUp f rest
  | l => l

/-- The reduction tree over 64 lanes. -/
def reduceTree {α : Type} (f : α → α → α) : Nat → List α → List α
  | 0, l => l
  | n + 1, l => reduceTree f n (pairUp f l)

/-- The lowest lane that holds the largest value, or the lowest that holds NaN (R295). -/
def argmax (xs : List Val) : Nat :=
  match xs.findIdx? Val.isNan with
  | some i => i
  | none =>
    (xs.zipIdx.foldl (fun (best : Val × Nat) p => if best.1.lt p.1 then p else best) (xs.headD Val.zero, 0)).2

/-- A lane reduction: one 4-byte value (R294, R295). -/
def vecReduce (op : Nat) (row : List Nat) : Lane :=
  let xs := row.map fp32
  let tree := fun f => fpResult xs ((reduceTree f 6 xs).headD Val.zero)
  match op with
  | 0x1C => tree fun a b => (a.add b).r32
  | 0x1D => tree maxVal
  | 0x1E => tree minVal
  | _ => { v := argmax xs }

/-- What an operation does with its output: one value for a row; a mask; 64 lanes of OFMT. -/
def isReduce (op : Nat) : Bool := decide (0x1C ≤ op ∧ op ≤ 0x1F)

/-- The operation works on INT32 lanes. -/
def isIntOp (op : Nat) : Bool := decide (0x20 ≤ op)

/-- The operation reads a B operand; a C operand. -/
def usesB (op : Nat) : Bool :=
  decide (1 ≤ op ∧ op ≤ 5) || op == 0x13 || op == 0x14 || op == 0x15 || op == 0x1A || op == 0x1B || isIntOp op
def usesC (op : Nat) : Bool := op == 0x04 || op == 0x1B

/-- The output formats that a VEC converts to (R282). -/
def vecFmtOk (op ofmt : Nat) : Bool :=
  if isIntOp op then ofmt == fmtInt32 || ofmt == fmtFp32
  else if ofmt == fmtInt32 then op == 0x00 || op == 0x1B
  else [fmtE4M3, fmtE5M2, fmtMxfp4, fmtFp16, fmtBf16, fmtFp32, fmtXc24].contains ofmt

/-- The conversion to OFMT rounds once, so that stochastic rounding applies (R287). -/
def vecRounds (op ofmt : Nat) : Bool := if isIntOp op then ofmt == fmtFp32 else !(ofmt == fmtFp32 || ofmt == fmtInt32)

/-- A lane converted to OFMT, keeping what it raised before. -/
def Lane.also (l m : Lane) : Lane :=
  { v := m.v, invalid := l.invalid || m.invalid, overflow := l.overflow || m.overflow, sat := l.sat || m.sat }

/-- Lanes of a row converted to OFMT (R282, R826). -/
def vecConvert (op ofmt : Nat) (satf : Bool) (ls : List Lane) (rs : List Draw) : List Lane :=
  if isIntOp op then
    if ofmt == fmtFp32 then (ls.zip rs).map fun p => p.1.also (toFloat fp32Fmt satf (.ofInt (signed 32 p.1.v)) p.2) else ls
  else if ofmt == fmtFp32 || ofmt == fmtInt32 then ls
  else if ofmt == fmtXc24 then (ls.zip rs).map fun p => p.1.also (toXc24Lane (fp32 p.1.v) p.2)
  else if ofmt == fmtMxfp4 then
    let blocks := (chunks 32 2 (ls.map fun l => fp32 l.v)).zip (chunks 32 2 rs)
    let out := blocks.flatMap fun b => (toMxfp4 b.1 b.2).2
    (ls.zip out).map fun p => p.1.also p.2
  else
    match floatFmtOf ofmt with
    | some f => (ls.zip rs).map fun p => p.1.also (toFloat f satf (fp32 p.1.v) p.2)
    | none => ls

/-- A row of 64 lanes of 4 bytes. -/
def Cx.lanes (x : Cx) (off r : Nat) : M (List Nat) := do
  let bs ← readStore x.die x.core (off + 256 * r) 256
  pure (groupLe 4 0 0 bs)

/-- VEC's effect, row by row. -/
def vecOp (x : Cx) (id : Nat) : M (Option Nat) := do
  let op := x.cmd.mode
  let rows := x.f 5 0 24
  let ofmt := x.f 6 0 4
  let pred := x.f 6 8 3
  let plain := isReduce op || op == 0x1A
  let sr := x.f 6 4 1 == 1 && !plain
  needField (plain || fmtOk ofmt) 6 0
  needField (op != 0x1A || decide (pred ≤ 5)) 6 8
  x.beginStochastic sr (x.w 7)
  if plain || vecFmtOk op ofmt then pure () else M.fail codeNumFormat
  let size := if isReduce op then 4 else if plain then 256 else 8 * fmtBits ofmt
  let scalar := x.f 6 6 1 == 1
  let a ← x.local 1 (256 * rows) 1
  let b ← x.local 2 (if usesB op && rows != 0 then (if scalar then 4 else 256 * rows) else 0) 1
  let c ← x.local 3 (if usesC op then 256 * rows else 0) 1
  let d ← x.local 4 (size * rows) 1
  let one ← if usesB op && scalar && rows != 0 then x.localLe b 4 else pure 0
  inParts x id rows fun r => do
    let as ← x.lanes a r
    if isReduce op then do
      let l := vecReduce op as
      writeStore x.die x.core (d + 4 * r) (toLe 4 l.v)
      x.raise (if op == 0x1F then fmtInt32 else fmtFp32) [l]
    else do
      let bs ← if !usesB op then pure as else if scalar then pure (List.replicate 64 one) else x.lanes b r
      let cs ← if usesC op then x.lanes c r else pure as
      let lane := fun (p : Nat × Nat × Nat) =>
        if ofmt == fmtInt32 && !isIntOp op && !plain then vecMove op p.1 p.2.1 p.2.2 else vecLane op pred p.1 p.2.1 p.2.2
      let ls := (as.zip (bs.zip cs)).map lane
      let rs ← x.draws (sr && vecRounds op ofmt) 64
      let out := if plain then ls else vecConvert op ofmt (x.f 6 5 1 == 1) ls rs
      writeStore x.die x.core (d + size * r) (if plain then out.flatMap fun l => toLe 4 l.v else packElements ofmt (out.map fun l => l.v))
      x.raise (if plain then fmtInt32 else ofmt) out

/-- A VEC of the operation table, without PREDICT and AUDIT. -/
def isVec (i : Issue) : Bool := isOp 0x30 i && decide (i.mode ≤ 0x2B)

/-- What Vec performs when it starts. -/
def vecBody (x : Cx) (id : Nat) : M (Option Nat) := vecOp x id

/-- VEC. -/
def execVec (die core : Nat) (turn : Turn) (s : State) : Host.Outcome State Fault Refusal :=
  (issueUnit die core turn.ctx isVec vecBody turn.course).done s

/-! ### QUANT (R282 to R286) -/

/-- The way a QUANT converts one pair of formats. -/
inductive QuantWay
  /-- Exactly, without parameters. -/
  | exact
  /-- One rounding of v × s + z to an integer. -/
  | toInt
  /-- One rounding of v × s to a floating-point format. -/
  | toFp
  /-- By blocks to MXFP4. -/
  | toMx
  /-- Metres to XC24. -/
  | toXc
  /-- (c − o) / 2^sh to INT16. -/
  | xcToInt
deriving DecidableEq, Repr

/-- The rows of R282 that a QUANT performs; any other pair is not admitted. -/
def quantWay (i o : Nat) : Option QuantWay :=
  let wide := i == fmtInt32 || i == fmtFp32
  if wide && [fmtInt4, fmtInt8, fmtUint8, fmtInt16, fmtInt32].contains o then some .toInt
  else if wide && [fmtFp16, fmtBf16, fmtE4M3, fmtE5M2, fmtFp32].contains o then some .toFp
  else if i == fmtFp32 && o == fmtMxfp4 then some .toMx
  else if i == fmtFp32 && o == fmtXc24 then some .toXc
  else if i == fmtXc24 && o == fmtInt16 then some .xcToInt
  else if i == fmtXc24 && o == fmtFp32 then some .exact
  else if [fmtInt4, fmtInt8, fmtUint8, fmtInt16].contains i && (o == fmtInt32 || o == fmtFp32) then some .exact
  else if [fmtE4M3, fmtE5M2, fmtFp16, fmtBf16, fmtMxfp4].contains i && o == fmtFp32 then some .exact
  else none

/-- The value of a source element; `scale` is its MXFP4 block's, XC24 counts in metres. -/
def sourceValue (fmt v scale : Nat) : Val :=
  if fmt == fmtXc24 then .scaled (signed 24 v) (-10) else scaledValue fmt v scale

/-- An exact conversion; MXFP4 to FP32 can overflow. -/
def exactLane (o : Nat) (x : Val) : Lane :=
  if o == fmtFp32 then
    let l := toFloat fp32Fmt false x none
    { l with sat := false }
  else { v := encode 32 x.toInt }

/-- A QUANT's parameters for one column: scale; zero point or origin. -/
structure Param where
  scale : Nat
  zero : Int
deriving DecidableEq, Repr

/-- A NaN that a product or sum made from operands none of which is NaN (R293). -/
def madeNan (x s : Val) (l : Lane) : Lane := { l with invalid := l.invalid || (x.mul s).isNan && !x.isNan && !s.isNan }

/-- Convert one element other than to MXFP4. -/
def quantLane (w : QuantWay) (o : Nat) (satf : Bool) (sh : Nat) (x : Val) (v : Nat) (p : Param) (r : Draw) : Lane :=
  let s := fp32 p.scale
  match w with
  | .exact => exactLane o x
  | .toInt => madeNan x s (toIntFmt o ((x.mul s).add (.ofInt p.zero)) r)
  | .toFp =>
    match floatFmtOf o with
    | some f => madeNan x s (toFloat f satf (x.mul s) r)
    | none => { v := 0 }
  | .toXc => toXc24Lane x r
  | .xcToInt => toIntFmt fmtInt16 (.scaled (signed 24 v - p.zero) (-(sh : Int))) r
  | .toMx => { v := 0 }

/-- QUANT's effect, row by row; a tile that a pre-emption halves holds its rows up to there (log entry 145). -/
def quant (x : Cx) (id : Nat) : M (Option Nat) := do
  let rows := x.f 4 0 24
  let i := x.f 5 0 4
  let o := x.f 5 4 4
  let satf := x.f 5 8 1 == 1
  let sr := x.f 5 9 1 == 1
  let tiled := x.f 5 10 1 == 1
  let sh := x.f 5 16 4
  needField (fmtOk i) 5 0
  needField (if tiled then decide (o ≤ 8) else fmtOk o) 5 4
  x.beginStochastic sr (x.w 6)
  match quantWay i o with
  | none => M.fail codeNumFormat
  | some w => do
    if tiled && o == fmtMxfp4 then M.fail codeNumFormat else pure ()
    let irow := 8 * fmtBits i
    let orow := 8 * fmtBits o
    let blocks := (rows + 63) / 64
    let mx := i == fmtMxfp4 || o == fmtMxfp4
    let params := w == .toInt || w == .toFp || w == .xcToInt
    let src ← x.local 1 (irow * rows) 1
    let dst ← x.local 2 (if tiled then tileSlot o * blocks else orow * rows) (if tiled then 64 else 1)
    let par ← x.local 3 (if params && rows != 0 then (if w == .toFp then 256 else 512) else 0) 1
    let aux ← x.local 7 (if tiled then 16 * blocks else if mx then scaleRow 64 * rows else 0) (if tiled then 64 else 1)
    let ss ← if params && rows != 0 && w != .xcToInt then readStore x.die x.core par 256 else pure []
    let zs ← if params && rows != 0 && w != .toFp then readStore x.die x.core (par + 256) 256 else pure []
    let param := fun (n : Nat) => (⟨leAt ss (4 * n) 4, signed 32 (leAt zs (4 * n) 4)⟩ : Param)
    let row := fun (r : Nat) => do
      let bs ← readStore x.die x.core (src + irow * r) irow
      let sc ← if i == fmtMxfp4 then readStore x.die x.core (aux + scaleRow 64 * r) (scaleRow 64) else pure []
      let es := (unpackElements i bs).take 64
      let vals := es.zipIdx.map fun (e : Nat × Nat) => sourceValue i e.1 (byteAt sc (e.2 / 32))
      let rs ← x.draws (sr && w != .exact) 64
      if w == .toMx then do
        let out := ((chunks 32 2 vals).zip (chunks 32 2 rs)).map fun b => toMxfp4 b.1 b.2
        let ls := out.flatMap fun b => b.2
        x.raise o ls
        pure (ls, out.map fun b => b.1)
      else do
        let ls := ((es.zip vals).zip rs).zipIdx.map fun (q : ((Nat × Val) × Draw) × Nat) =>
          quantLane w o satf sh q.1.1.2 q.1.1.1 (param q.2) q.1.2
        x.raise o ls
        pure (ls, [])
    if tiled then
      let out : Od := ⟨storeAddr x.die x.core dst, rows, 0, o, true, storeAddr x.die x.core aux, 64⟩
      inRange x id rows fun lo hi =>
        M.each ((List.range ((hi + 63) / 64)).drop (lo / 64)) fun b => do
          let start := max lo (64 * b)
          let stop := min hi (64 * b + 64)
          let ls ← M.collect ((List.range stop).drop start) fun r => do
            let (ls, _) ← row r
            pure (ls.map fun l => l.v)
          if ls.isEmpty then pure () else x.writePart out b (start - 64 * b) ls (stop == rows || stop == 64 * b + 64)
    else inParts x id rows fun r => do
      let (ls, scales) ← row r
      writeStore x.die x.core (dst + orow * r) (packElements o (ls.map fun l => l.v))
      if w == .toMx then writeStore x.die x.core (aux + scaleRow 64 * r) (scales.flatMap (toLe 1)) else pure ()

/-- What Quant performs when it starts. -/
def quantBody (x : Cx) (id : Nat) : M (Option Nat) := quant x id

/-- QUANT. -/
def execQuant (die core : Nat) (turn : Turn) (s : State) : Host.Outcome State Fault Refusal :=
  (issueUnit die core turn.ctx (isOp 0x31) quantBody turn.course).done s

/-! ### The predictor (09 R405 to R416) -/

/-- The window of an entry begins again: its counters are zero (R413, R415, R416). -/
def clearWindow (die i : Nat) : Act :=
  .all [.set .PRD_AUDITED die i 0, .set .PRD_MISSES die i 0, .set .I_PRD_PREDICTS die i 0]

/-- What waits for an entry's next PREDICT: its committed set, and a re-enable, which leaves a fallback set after its write (R415, R416).
-/
def predictTakes (die i : Nat) : Act :=
  .get fun s => .all [
    .when (s.on .PRD_COMMIT_PENDING die i) (.all [
      activateSet .prd die fun j => j == i,
      .set .PRD_COMMIT_PENDING die i 0,
      clearWindow die i]),
    .when (s.on .PRD_REENABLE_PENDING die i) (.all [
      .when (!s.on .I_PRD_KEEP die i) (.set .PRD_FALLBACK die i 0),
      .set .PRD_REENABLE_PENDING die i 0,
      .set .I_PRD_KEEP die i 0,
      clearWindow die i])]

/-- An entry sets its fallback (R412 to R414). -/
def setFallback (die core ctx i : Nat) : Act :=
  .get fun s => .all [
    .set .I_PRD_KEEP die i 1,
    .when (!s.on .PRD_FALLBACK die i) (.all [
      .set .PRD_FALLBACK die i 1,
      .inc .PRD_FALLBACKS die i,
      bellRing die (0x068 + s.rd .CTX_PART die (ctxIdx core ctx))])]

/-- Bytes of `n` FP32 values in rows of 64 lanes. -/
def laneBytes (n : Nat) : Nat := (n + 63) / 64 * 256

/-- Neurons of a list at a local address (10 R444). -/
def Cx.neurons (x : Cx) (word : Nat) : M (List Nat) := do
  let off ← x.local word 4 1
  let n ← x.localLe off 4
  let _ ← x.local word (4 + 4 * n) 1
  let bs ← readStore x.die x.core (off + 4) (4 * n)
  pure (groupLe 4 0 0 bs)

/-- Write a neuron list. -/
def Cx.writeNeurons (x : Cx) (word : Nat) (ns : List Nat) : M Unit := do
  let off ← x.local word (4 + 4 * ns.length) 1
  writeStore x.die x.core off (toLe 4 ns.length ++ ns.flatMap (toLe 4))

/-- PREDICT (R406 to R409). -/
def predict (x : Cx) : M (Option Nat) := do
  let rows := x.f 5 0 7
  let n := x.f 6 0 16
  let i := x.core * 16 + x.f 6 16 4
  needField (decide (rows ≤ 64)) 5 0
  let s ← M.state
  if s.on .CTX_SAFETY x.die (ctxIdx x.core x.ctx) then M.fail 0x1A
  else do
    let a ← x.local 1 (rows * laneBytes n) 1
    M.act (predictTakes x.die i)
    let t ← M.state
    let thresh := fp32 (t.ac .PRD_THRESH x.die i)
    let slice := t.rd .PRD_SLICE x.die i
    let scores ← M.collect (List.range rows) fun r => do
      let bs ← readStore x.die x.core (a + r * laneBytes n) (4 * n)
      pure (groupLe 4 0 0 bs)
    let hot := fun (v : Nat) => !(fp32 v).isNan && !thresh.isNan && !(fp32 v).lt thresh
    let union := fun (j : Nat) => scores.any fun row => hot (row.getD j 0)
    let mine := fun (j : Nat) => j % 16 == slice
    let fallback := t.on .PRD_FALLBACK x.die i
    let all := List.range n
    x.writeNeurons 2 (if fallback then all else all.filter fun j => union j || mine j)
    x.writeNeurons 3 (if fallback then [] else all.filter fun j => mine j && !union j)
    M.act (.seq (.set .PRD_SLICE x.die i ((slice + 1) % 16)) (.inc .I_PRD_PREDICTS x.die i))
    pure (some 0)

/-- What VecPredict performs when it starts. -/
def vecPredictBody (x : Cx) (_ : Nat) : M (Option Nat) :=
  predict x

/-- VEC_PREDICT. -/
def execVecPredict (die core : Nat) (turn : Turn) (s : State) : Host.Outcome State Fault Refusal :=
  (issueUnit die core turn.ctx (fun i => isOp 0x30 i && i.mode == 0x38) vecPredictBody turn.course).done s

/-- What an AUDIT's counts lead to (R412 to R414). -/
def auditCounts (die core ctx i pairs misses : Nat) : Act :=
  .all [
    .inc .PRD_AUDITED die i pairs,
    .inc .PRD_MISSES die i misses,
    .get fun s =>
      let burst := decide (s.ac .PRD_BURST die i < misses)
      let span := 16 * 2 ^ min 8 (s.ac .PRD_WINDOW_LOG2 die i)
      let closes := decide (span ≤ s.rd .I_PRD_PREDICTS die i)
      let aud := s.rd .PRD_AUDITED die i
      let mis := s.rd .PRD_MISSES die i
      .all [
        .when (burst || closes && decide (s.ac .PRD_LIMIT die i * aud < mis * 65536)) (setFallback die core ctx i),
        .when closes (.seq (.set .PRD_LAST_RATE die i (if aud == 0 then 0 else min 0xFFFF (mis * 65536 / aud))) (clearWindow die i))]]

/-- AUDIT (R410 to R414). -/
def audit (x : Cx) : M (Option Nat) := do
  let rows := x.f 5 0 7
  let i := x.core * 16 + x.f 6 16 4
  needField (decide (rows ≤ 64)) 5 0
  let act ← x.neurons 2
  let aud ← x.neurons 3
  let a ← x.local 1 (rows * laneBytes act.length) 1
  let s ← M.state
  let eps := fp32 (s.ac .PRD_EPS x.die i)
  let places := aud.filterMap fun n => act.findIdx? fun m => m == n
  let misses ← M.collect (List.range rows) fun r => do
    let bs ← readStore x.die x.core (a + r * laneBytes act.length) (4 * act.length)
    let row := groupLe 4 0 0 bs
    pure ((places.filter fun p => eps.lt (fp32 (row.getD p 0)).abs).length)
  M.act (auditCounts x.die x.core x.ctx i (rows * places.length) misses.sum)
  pure (some 0)

/-- What VecAudit performs when it starts. -/
def vecAuditBody (x : Cx) (_ : Nat) : M (Option Nat) :=
  audit x

/-- VEC_AUDIT. -/
def execVecAudit (die core : Nat) (turn : Turn) (s : State) : Host.Outcome State Fault Refusal :=
  (issueUnit die core turn.ctx (fun i => isOp 0x30 i && i.mode == 0x39) vecAuditBody turn.course).done s

end Sys2Proof.Machine
end

