-- ==== Sys2Proof/Machine/Completion.lean ====
section
/-! DEFINITION. The completion of commands in flight, and the start of those that wait behind them on the vector unit and the mover
(10 R426, R466). -/

namespace Sys2Proof.Machine

/-- A flight may complete: it has ended, and the vector unit and the mover complete the commands of a context in order (R426). -/
def mayComplete (flight : List Flight) (index : Nat) : Option (Flight × Ending) :=
  (flight[index]?).bind fun f =>
    f.ending.bind fun e => if waitsBehind (flight.take index) f.units then none else some (f, e)

/-- What a command of the vector unit or the mover performs when it starts, by its opcode and the field that selects its row. -/
def unitBody (i : Issue) : Cx → Nat → M (Option Nat) :=
  match i.op with
  | 0x20 => if bits i.mode 0 2 == 0 then gatherPillarBody else if bits i.mode 0 2 == 1 then gatherRowsBody else gatherNeighbourBody
  | 0x21 => if bit i.mode 0 then scatterAddRowsBody else scatterAddMapBody
  | 0x22 =>
    match bits i.mode 0 3 with
    | 0 => mapGridOpenBody
    | 1 => mapGridCloseBody
    | 2 => mapDilate
    | 3 => mapIndexBody
    | 4 => mapRulesBody
    | 5 => mapWalkBody
    | _ => mapAndBody
  | 0x23 => hashInsert
  | 0x24 => distBody
  | 0x25 => if bit i.mode 0 then topkSuppressBody else topkSelectBody
  | 0x30 => if i.mode == 0x38 then vecPredictBody else if i.mode == 0x39 then vecAuditBody else vecBody
  | 0x31 => quantBody
  | 0x38 =>
    match bits i.mode 0 2 with
    | 0 => dmaCopyBody
    | 1 => dmaStridedReadBody
    | 2 => dmaTransposeBody
    | _ => dmaFillBody
  | 0x39 => creditGetBody
  | _ => creditReturnBody

/-- The first command of a context that waits on the vector unit or the mover and has none of its units before it any more. One that
has ended unbegun, by a time limit or at its issue, does not start (R437, R456). -/
def nextStart : List Flight → List Flight → Option Flight
  | _, [] => none
  | before, f :: fs =>
    if !f.begun && f.ending.isNone && !waitsBehind before f.units then some f else nextStart (before ++ [f]) fs

/-- Start that command. A CREDIT_GET that ends at its start leaves its context unblocked. -/
def startNext (die core c : Nat) : Act :=
  .get fun s =>
    match nextStart [] (s.ctx die core c).flight with
    | none => .nop
    | some f => .all [
        .ctx die core c fun y => { y with flight := y.flight.map fun g => if g.id == f.id then { g with begun := true } else g },
        perform ⟨die, core, c, f.cmd⟩ f.id (unitBody f.cmd),
        .get fun t => .when (f.cmd.op == 0x39 && (t.waiting die core c).isNone) (unblock die core c)]

/-- A command that stands at a pre-emption point, with no pre-emption that reached it, goes on to its end (R473). -/
def goOnToEnd (die core c index : Nat) : Act :=
  .get fun s =>
    match (s.ctx die core c).flight[index]? with
    | some f => .when f.underWay (perform ⟨die, core, c, f.cmd⟩ f.id (unitBody f.cmd))
    | none => .nop

/-- The command at a place of a context's flight completes, once it has ended; the command that waited behind it on its unit starts. -/
def completeAt (die core c index : Nat) : Act :=
  .get fun s =>
    match mayComplete (s.ctx die core c).flight index with
    | some (f, e) => Act.seq (completeFlight die core c f e) (startNext die core c)
    | none => Act.nop

/-- COMMAND_COMPLETE: the command at a place of the context's flight completes (R466). -/
def execCommandComplete (die core ctx index : Nat) (s : State) : Host.Outcome State Fault Refusal :=
  (Act.seq (goOnToEnd die core ctx index) (completeAt die core ctx index)).done s

end Sys2Proof.Machine
end

