-- ==== Sys2Proof/Machine/Engine.lean ====
section
/-! DEFINITION. The engines (05_engine_array.md): weight loads, passes from their boundary to their completion, pre-emption drains,
faults and store errors. -/

namespace Sys2Proof.Machine

/-! ### LOADW (R224, R231, R446, R837, 07 R321, R327) -/

/-- Where LOADW finds the blocks: source, headers, scales. -/
structure LoadOp where
  sp24 : Bool
  fmt : Nat
  k : Nat
  n : Nat
  src : Nat
  hdr : Nat
  scale : Nat
deriving DecidableEq, Repr

/-- The fields of a LOADW. -/
def Cx.loadOp (x : Cx) : LoadOp :=
  { sp24 := bit x.cmd.mode 0, fmt := x.f 1 4 4, k := x.f 5 0 11, n := x.f 5 16 7, src := x.la 2, hdr := x.la 3, scale := x.la 4 }

/-- Reduction positions of block `g` of a load below K (R231). -/
def LoadOp.local_ (o : LoadOp) (g : Nat) : Nat := min (o.k - g * kMax o.fmt o.sp24) (kMax o.fmt o.sp24)

/-- Read a part of a row of the load, when it is needed, and pad it with zeros. -/
def readPadded (die core off need size : Nat) : M (List Byte) := do
  let bs ← if need == 0 then pure [] else readStore die core off need
  pure (bs ++ List.replicate (size - bs.length) 0)

/-- A dense block: for each output column below N, the bytes of the positions below K (R837). -/
def LoadOp.dense (o : LoadOp) (die core g : Nat) : M (List Byte) := do
  let rows ← M.collect (List.range 64) fun n =>
    readPadded die core (o.src + g * blockBytes o.fmt false + n * weightRow o.fmt)
      (if n < o.n then packedBytes o.fmt (o.local_ g) else 0) (weightRow o.fmt)
  pure rows.flatten

/-- Columns whose index pairs lie in a store row that holds an index of a column below N: such a row is read whole (R837). -/
def LoadOp.indexRows (o : LoadOp) : Nat :=
  let cols := if arrayClass o.fmt == 4 then 2 else 4
  min 64 ((o.n + cols - 1) / cols * cols)

/-- A 2:4 block: value plane, then index plane (07 R323), read for output columns below N. -/
def LoadOp.sparse (o : LoadOp) (die core g : Nat) : M (List Byte) := do
  let at_ := o.src + g * blockBytes o.fmt true
  let per := if arrayClass o.fmt == 4 then 32 else 16
  let groups := (o.local_ g + 3) / 4
  let values ← M.collect (List.range 64) fun n =>
    readPadded die core (at_ + 64 * n) (if n < o.n then packedBytes o.fmt (2 * groups) else 0) 64
  let indices ← M.collect (List.range 64) fun n =>
    readPadded die core (at_ + 4096 + per * n) (if groups != 0 && n < o.indexRows then per else 0) per
  pure (values.flatten ++ indices.flatten)

/-- Every index pair of the index rows that a load reads is strictly ascending (07 R327). -/
def LoadOp.pairsOk (o : LoadOp) (tile : List Byte) : Bool :=
  let per := if arrayClass o.fmt == 4 then 32 else 16
  (List.range o.indexRows).all fun n => (List.range (2 * per)).all fun q =>
    let nibble := bits (byteAt tile (4096 + n * per + q / 2)) (4 * (q % 2)) 4
    decide (nibble % 4 < nibble / 4)

/-- The header of a 2:4 tile passes the checks of 07 R321. -/
def LoadOp.headerOk (o : LoadOp) (h : List Byte) : Bool :=
  byteAt h 2 == 2 && arrayClass (byteAt h 3) == arrayClass o.fmt && pairOk (byteAt h 3) o.fmt && decide (byteAt h 4 ≤ 64) &&
  decide (leAt h 6 2 ≤ kMax o.fmt true) && leAt h 8 4 == blockBytes o.fmt true

/-- A tile that fails a check of the load (07 R322, R327). -/
def badTile {α : Type} (die core t : Nat) : M α := do
  M.act (.inc .SPX_TILE_ERR die core)
  M.fail codePassTile t

/-- Read block `g` (R837, 07 R321, R327). -/
def LoadOp.read (o : LoadOp) (x : Cx) (ganged : Bool) (g : Nat) : M Weights := do
  let k := o.local_ g
  let live := k != 0
  let sb := if o.sp24 then 8 else 4
  let scale ← if o.fmt == fmtMxfp4 && live then do
      let rows ← M.collect (List.range 64) fun n =>
        readPadded x.die x.core (o.scale + g * 64 * sb + n * sb) (if n < o.n then (k + 31) / 32 else 0) sb
      pure rows.flatten
    else pure []
  let hdr ← if o.sp24 && live then readStore x.die x.core (o.hdr + 16 * g) 16 else pure []
  if o.sp24 && live && !o.headerOk hdr then badTile x.die x.core g
  else do
    let tile ← if o.sp24 then o.sparse x.die x.core g else o.dense x.die x.core g
    if o.sp24 && live && !o.pairsOk tile then badTile x.die x.core g
    else pure ⟨o.fmt, k, o.n, o.sp24, ganged, tile, hdr, scale, x.cmd, x.ctx, g⟩

/-- Engines that a command names are enabled and not fenced (10 R447). -/
def needEngines (x : Cx) (es : List Nat) : M Unit := do
  let s ← M.state
  match es.filter fun e => !(s.usable x.die x.core).contains e with
  | [] => pure ()
  | e :: _ => M.fail codeEngineNone e

/-- LOADW: its weights are read (R839) and join the queues of its engines; the engines of a gang load together (R231). -/
def loadw (x : Cx) (id : Nat) : M (Option Nat) := do
  let s ← M.state
  let o := x.loadOp
  let ganged := bit x.cmd.mode 1
  let es := if ganged then s.usable x.die x.core else maskEngines (x.f 1 0 4)
  needEngines x es
  if ganged && !x.cmd.chained then M.fail codePassMode
  else do
    needField (if o.sp24 then decide (o.fmt ≤ 8) else fmtOk o.fmt) 1 4
    needField (decide (o.k ≤ 1024)) 5 0
    needField (decide (o.n ≤ 64)) 5 16
    if arrayClass o.fmt == 0 || o.sp24 && arrayClass o.fmt == 16 then M.fail codePassFormat
    else if o.k == 0 || o.n == 0 then pure (some 0)
    else do
      let blocks := if ganged then min es.length ((o.k + kMax o.fmt o.sp24 - 1) / kMax o.fmt o.sp24) else 1
      let last := if o.sp24 then blockBytes o.fmt true else o.n * weightRow o.fmt
      needLocal 2 o.src ((blocks - 1) * blockBytes o.fmt o.sp24 + last) (if o.sp24 then 64 else 1)
      if o.sp24 then needLocal 3 o.hdr (16 * blocks) 64 else pure ()
      if o.fmt == fmtMxfp4 then needLocal 4 o.scale (blocks * (if o.sp24 then 512 else 256)) 1 else pure ()
      let ws ← M.collect (if ganged then List.range es.length else [0]) fun g => o.read x ganged g
      M.act (.all (es.zipIdx.map fun (p : Nat × Nat) =>
        match ws[if ganged then p.2 else 0]? with
        | some w => .engine x.die x.core p.1 fun g =>
            { g with ran := true, queue := g.queue ++ [.load x.ctx id (if ganged then es else [p.1]) w] }
        | none => .nop))
      M.act (stageHeads x.die x.core)
      let t ← M.state
      pure (if (List.range 4).any fun e => (t.engine x.die x.core e).waitsFor x.ctx id then none else some 0)

/-- LOADW: the tile is read at issue (R839), and the command completes when it is staged (10 R838). -/
def execLoadw (die core : Nat) (turn : Turn) (s : State) : Host.Outcome State Fault Refusal :=
  (issueUnit die core turn.ctx (isOp 0x10) loadw turn.course).done s

/-! ### GANG and STREAM -/

/-- GANG: chain or unchain the core's engines for the context (R230, 10 R448). -/
def execGang (die core ctx : Nat) (s : State) : Host.Outcome State Fault Refusal :=
  (issueUnit die core ctx (isOp 0x12) fun x _ => do
    M.act (.ctx die core ctx fun y => { y with gang := bit x.cmd.mode 0 })
    pure (some 0)).done s

/-- STREAM: the pass joins the queue of its engines (10 R447, R838). -/
def stream (x : Cx) (id : Nat) : M (Option Nat) := do
  let s ← M.state
  let ganged := bit (x.w 1) 2
  if ganged && !x.cmd.chained then M.fail codePassMode
  else do
    let es := if ganged then s.usable x.die x.core else [x.f 1 0 2]
    needEngines x es
    let o := x.stream
    needField (if o.tiled then decide (o.afmt ≤ 8) else fmtOk o.afmt) 1 4
    needField (fmtOk o.wfmt) 1 8
    o.check es.length
    o.checkAddr
    M.act (.each es fun e => .engine x.die x.core e fun g =>
      { g with ran := true, queue := g.queue ++ [.pass { ctx := x.ctx, id := id, cmd := x.cmd, engines := es }] })
    pure none

/-- STREAM. -/
def execStream (die core : Nat) (turn : Turn) (s : State) : Host.Outcome State Fault Refusal :=
  (issueUnit die core turn.ctx (isOp 0x11) stream turn.course).done s

/-! ### Repeated loads (R252, R841, R842) -/

/-- Read a pass's weights from W-store again, as their LOADW did. -/
def reread (die core : Nat) (w : Weights) : M Weights :=
  let x : Cx := ⟨die, core, w.ctx, w.load⟩
  x.loadOp.read x w.ganged w.slice

/-- Ticks that a weight load takes: 64 steps of 1 or 4 cycles at 1.5 GHz, three cycles to a tick (R224, R226). -/
def loadTicks (w : Weights) : Nat := if arrayClass w.fmt == 16 then 86 else 22

/-- A load that a fault has discarded is repeated from W-store. One that fails leaves its error to the pass that needs it (R841; log
entry 142). -/
def repeatLoad (die core e : Nat) : Act :=
  .get fun s =>
    match (s.engine die core e).reload with
    | none => .nop
    | some (w, _) => (reread die core w).then fun r => .all [
        .aux fun a => { a with raised := 0 },
        match r with
        | .ok v => stage die core e w.ctx v
        | .error z => .engine die core e fun g => { g with reload := none, reloadFail := some ⟨z.code, 0, z.detail⟩ },
        showEngine die core e]

/-- The staged weights of an engine are discarded, and their load is to be repeated (R250, R841). -/
def discardForReload (die core e : Nat) : Act :=
  .get fun s => .engine die core e fun g => { g with
    staged := none
    reload := (g.staged.map fun w => (w, s.ticks)).orElse fun _ => g.reload }

/-- A tick ends the repeated loads that have had their time, on engines that run no pass again (R224, R842). -/
def endReloads : Act :=
  .get fun s => .each (s.aux.engines.filter fun p =>
      !p.2.rerunning && p.2.reload.any fun r => decide (r.2 + loadTicks r.1 ≤ s.ticks)) fun p =>
    repeatLoad (p.1 / 128) (p.1 / 4 % 32) (p.1 % 4)

/-! ### The pass boundary (R223, R229, R232, R242, R243, R843) -/

/-- Where a pass's command runs. -/
def Pass.cx (p : Pass) (die core : Nat) : Cx := ⟨die, core, p.ctx, p.cmd⟩

/-- The fields of a pass's STREAM. -/
def Pass.op (p : Pass) (die core : Nat) : StreamOp := (p.cx die core).stream

/-- The pass at the head of an engine's queue. -/
def Engine.nextPass (g : Engine) : Option Pass :=
  match g.queue with
  | .pass p :: _ => some p
  | _ => none

/-- A pass may issue while another is in flight: they do not differ in axis, mode, operand class or gang (R229, R232). -/
def samePath (die core : Nat) (p q : Pass) : Bool :=
  let a := p.op die core
  let b := q.op die core
  a.axis == b.axis && a.kind == b.kind && arrayClass a.wfmt == arrayClass b.wfmt && p.engines == q.engines

/-- A pass can issue its first row: it heads the queue of all its engines, none of them drains or runs passes again, each has room for
it, and the pass before it has completed unless they share their path (R222, R226, R229). -/
def State.canBegin (s : State) (die core : Nat) (p : Pass) : Bool :=
  p.engines.all fun e =>
    let g := s.engine die core e
    (g.nextPass.any fun q => q.id == p.id) && !g.drain && !g.rerunning && decide (g.flight.length < 16) &&
    g.flight.getLast?.all (samePath die core p)

/-- The sash front makes the staged weights of an engine active (R226, R843). -/
def activateStaged (die core e : Nat) : Act :=
  .get fun s =>
    match (s.engine die core e).staged with
    | none => .nop
    | some w => .seq (.engine die core e fun g => { g with active := some w, staged := none })
        (.set .ENG_STATUS_WEIGHTS die (ctxIdx core e) 1)

/-- What a pass does for one row: nothing, when it skips it, or the sums of its columns. -/
abbrev RowSums := Option (List Nat)

/-- Sums of one row. -/
def rowSums (o : StreamOp) (ops : List (List (Nat × Val))) (xs : Array Val) : List Nat := ops.map (passSum o xs)

/-- A row block takes the sparse path (07 R313). -/
def sparsePath (o : StreamOp) (ws : List Weights) (ts : List TileIn) : Bool :=
  ts.all (fun t => t.bitmap && !t.nonfinite) && !o.axis && o.kind == 0 && ws.all (fun w => !w.sp24) && !anyNonfinite ws

/-- Rows `m0` to `m1` − 1 of a row block over a tiled operand; `count` says whether the block's tiles are counted (07 R313 to R322). -/
def tiledRows (o : StreamOp) (die core : Nat) (p : Pass) (ops : List (List (Nat × Val))) (m0 m1 : Nat) (count : Bool) :
    M (List (Nat × RowSums)) := do
  let b := m0 / 64
  let live := liveSet p.ws o.k
  let maySkip := p.skip && o.ints && o.acc && o.psrc == o.pdst
  let ts ← o.block die core b
  let sparse := sparsePath o p.ws ts
  M.act (.when count (countBlock die core sparse ts))
  pure (((List.range m1).drop m0).map fun m =>
    let r := m - 64 * b
    (m, if maySkip && sparse && !rowMatches ts live r then none
      else some (rowSums o ops (((blockRow ts r).take o.k).map fun q => elementValue q.1 q.2).toArray)))

/-- Checks that need the weights: 2:4 weights run in multiply mode along the normal axis, and K is within the chain's reach (R215,
R233, R235, R237, R238). -/
def StreamOp.checkWeights (o : StreamOp) (ws : List Weights) : Option Nat :=
  if ws.any (fun w => w.sp24) && (o.kind != 0 || o.axis) then some codePassMode
  else if !o.axis && decide ((ws.map fun w => kMax w.fmt w.sp24).sum < o.k) then some codePassShape
  else none

/-- Sums that stand for weights of another format than the STREAM names: open values. -/
def freeRows (o : StreamOp) (rows : List (Nat × RowSums)) : M (List (Nat × RowSums)) :=
  M.collect rows fun r =>
    match r.2 with
    | none => pure r
    | some _ => do
      let vs ← M.collect (List.range o.n) fun _ => M.free
      pure (r.1, some (vs.map fun v => v % 2 ^ 32))

/-- Rows that the feeders take together: single rows, or the rows of one block of a tiled operand (R220, 07 R298). -/
def StreamOp.chunks (o : StreamOp) (lo hi : Nat) : List (Nat × Nat) :=
  if o.tiled && o.k != 0 then
    (((List.range ((hi + 63) / 64)).drop (lo / 64)).map fun b => (max lo (64 * b), min hi (64 * b + 64))).filter fun c => decide (c.1 < c.2)
  else ((List.range hi).drop lo).map fun m => (m, m + 1)

/-- The feeders read the rows of a chunk from A-store. The row that issues at the boundary is read then, every later row in the step of
the block in which it issues (R839; log entry 143). -/
def Pass.read (p : Pass) (die core : Nat) (c : Nat × Nat) : M (List (Nat × RowSums)) := do
  let o := p.op die core
  if o.k == 0 then pure (((List.range c.2).drop c.1).map fun m => (m, some (List.replicate o.n 0)))
  else do
    let ops := o.operands p.ws
    let rows ← if o.tiled then tiledRows o die core p ops c.1 c.2 (!p.head.any fun h => h.1 / 64 == c.1 / 64)
      else M.collect ((List.range c.2).drop c.1) fun m => do
        let xs ← o.rawRow die core m
        pure (m, some (rowSums o ops xs))
    if p.ws.any fun w => w.fmt != o.wfmt then freeRows o rows else pure rows

/-- A row that the engine skips is counted (07 R318). -/
def countSkipped (die core : Nat) : Act := .inc .SPX_ROWS_SKIPPED die core

/-- Rows that a pass issues are counted in its engines. -/
def countRows (die core : Nat) (p : Pass) (n : Nat) : Act := .each p.engines fun i => .inc .ENG_ROWS die (ctxIdx core i) n

/-- The first row that a pass issues, from a chunk on: rows before it are skipped (07 R319, R843). -/
def firstRow (die core : Nat) (p : Pass) : List (Nat × Nat) → M Pass
  | [] => pure { p with next := (p.op die core).m, written := (p.op die core).m }
  | c :: cs => do
    let rows ← p.read die core c
    let skipped := rows.takeWhile fun r => r.2.isNone
    M.each skipped fun _ => M.act (countSkipped die core)
    match rows.drop skipped.length with
    | (m, some v) :: _ => pure { p with head := some (m, v), next := m + 1, written := m }
    | _ => firstRow die core p cs

/-- A pass as it stands after its boundary: with the weights that are active, and its first row (R223, R233, R242, R243). -/
def startPass (die core : Nat) (p : Pass) : M Pass := do
  let s ← M.state
  let o := p.op die core
  let first := p.cmd.row
  let p := { p with skip := s.on .SPX_CTRL_SKIP die core, next := first, written := first }
  if o.m == 0 || o.n == 0 then pure p
  else if o.k == 0 then firstRow die core p (o.chunks first o.m)
  else
    match p.engines.findSome? fun e => (s.engine die core e).reloadFail with
    | some z => M.fail z.code z.detail
    | none =>
      let active := p.engines.map fun e => (e, (s.engine die core e).active)
      match active.find? fun q => q.2.isNone with
      | some q => M.fail codePassNoWeights q.1
      | none =>
        let ws := active.filterMap fun q => q.2
        match o.checkWeights ws with
        | some c => M.fail c
        | none => firstRow die core { p with ws := ws } (o.chunks first o.m)

/-- The engines on which a list of a job has issued a pass (15 R665). -/
def noteEngines (die core c : Nat) (es : List Nat) : Act :=
  .get fun s =>
    match (s.ctx die core c).owner with
    | .job p j => .job p j fun k => { k with engines := (k.engines ++ es.map fun e => (die, dieEngine core e)).dedup }
    | _ => .nop

/-- What an engine's registers show of the pass that has issued. -/
def showPass (die core e : Nat) (o : StreamOp) (ganged : Bool) : Act :=
  .all [
    .set .ENG_STATUS_GANGED die (ctxIdx core e) (b2n ganged),
    .set .ENG_STATUS_AXIS die (ctxIdx core e) (b2n o.axis),
    .set .ENG_STATUS_MODE die (ctxIdx core e) o.kind]

/-- Perform a part of a pass and go on with what it gives, and with the flags that the pass has raised since its boundary. -/
def withFlags (flags : Nat) (m : M Pass) (k : Except Err Pass → Nat → Act) : Act :=
  .seq (.aux fun a => { a with raised := flags }) (m.then fun r => .get fun s =>
    .seq (.aux fun a => { a with raised := 0 }) (k r s.aux.raised))

/-- The first pass of a queue passes its boundary. -/
def beginPass (die core : Nat) (p : Pass) : Act :=
  let o := p.op die core
  .all [
    .each p.engines fun i => .seq (.engine die core i fun g => { g with queue := g.queue.drop 1 }) (repeatLoad die core i),
    .when (o.k != 0) (.each p.engines (activateStaged die core)),
    withFlags 0 (startPass die core p) fun r flags =>
      let q := match r with
        | .ok q => { q with flags := flags }
        | .error z => { p with fail := some ⟨z.code, 0, z.detail⟩, flags := flags }
      .all [
        .each p.engines fun i => .all [
          .engine die core i fun g => { g with flight := g.flight ++ [q], reloadFail := if o.k == 0 then g.reloadFail else none },
          showPass die core i o (bit (p.cmd.w 1) 2)],
        .when q.head.isSome (countRows die core q 1),
        noteEngines die core p.ctx p.engines],
    stageHeads die core,
    retireEmpties die core,
    .each p.engines (showEngine die core)]

/-- PASS_BOUNDARY: the pass at the head of an engine's queue issues its first row, or its empty step (R223, R843). -/
def execPassBoundary (die core engine : Nat) (s : State) : Host.Outcome State Fault Refusal :=
  (match (s.engine die core engine).nextPass with
   | some p => Act.when (s.canBegin die core p) (beginPass die core p)
   | none => Act.nop).done s

/-! ### Issuing and writing rows (R219, R222, R241, R840) -/

/-- Destination of a row of a pass. -/
def StreamOp.rowAt (o : StreamOp) (m : Nat) : Nat := o.pdst + 256 * m

/-- Write one row: the start row is read, the sums are added to it and the columns below N are written (R219, R241). Raises SAT when
an output saturated. -/
def writeRow (die core owner : Nat) (o : StreamOp) (m : Nat) (sums : List Nat) : M Unit := do
  let start ← if o.acc then readStore die core (o.psrc + 256 * m) (4 * o.n) owner else pure []
  let words := groupLe 4 0 0 start
  if o.k == 0 then writeStore die core (o.rowAt m) (if o.acc then start else List.replicate (4 * o.n) 0) owner
  else do
    let outs := sums.zipIdx.map fun (q : Nat × Nat) => passOut o.ints q.1 (if o.acc then words[q.2]? else none)
    writeStore die core (o.rowAt m) (outs.flatMap fun q => toLe 4 q.1) owner
    raise (flagIf (outs.any fun q => q.2) flagSat)

/-- What a pass has met while it issues rows: the error of the lowest row that failed, and the first row that had not issued when the
engine met it. -/
abbrev Met := Option (Err × Nat)

/-- Issue the rows of a chunk and write them, but for those that a re-run suppresses. After a row's own start read or write fails, the
rows issued by then are still written, and no others; how many had issued is left open, at most 64 · (G + 1) (R252, R840). -/
def issueRows (die core : Nat) (p : Pass) : List (Nat × RowSums) → Pass × Met → M (Pass × Met)
  | [], z => pure z
  | (m, v) :: rest, (q, met) =>
    if met.any fun z => decide (z.2 ≤ m) then pure (q, met)
    else
      let past : Pass := { q with next := max q.next (m + 1), written := if met.isSome then q.written else max q.written (m + 1) }
      match v with
      | none => do
        M.act (countSkipped die core)
        issueRows die core p rest (past, met)
      | some sums => do
        if p.head.any fun h => h.1 == m then pure () else M.act (countRows die core p 1)
        if m < p.written then issueRows die core p rest (past, met)
        else
          match ← M.attempt (writeRow die core p.cmd.ord (p.op die core) m sums) with
          | .ok _ => issueRows die core p rest (past, met)
          | .error e => do
            let f ← M.free
            issueRows die core p rest ({ q with next := max q.next (m + 1) }, some (met.getD (e, m + 1 + f % (64 * (p.engines.length + 1)))))

/-- Read, issue and write the rows of chunks, up to the first row that cannot be read or that an error keeps from issuing (07 R322,
R840). -/
def issueChunks (die core : Nat) (p : Pass) : List (Nat × Nat) → Pass × Met → M (Pass × Met)
  | [], z => pure z
  | c :: cs, (q, met) =>
    if met.any fun z => decide (z.2 ≤ c.1) then pure (q, met)
    else do
      match ← M.attempt (p.read die core c) with
      | .error e => pure (q, some (met.getD (e, 0)))
      | .ok rows => issueChunks die core p cs (← issueRows die core p rows (q, met))

/-- A pass goes on until its rows below `hi` have been issued and written; an error of a row is then the end of the pass (R840). -/
def Pass.run (p : Pass) (die core hi : Nat) : M Pass :=
  if p.fail.isSome then pure p
  else do
    let (q, met) ← match p.head.filter fun h => decide (p.written ≤ h.1 ∧ h.1 < hi) with
      | some h => issueRows die core p [(h.1, some h.2)] (p, none)
      | none => pure (p, none)
    let (q, met) ← issueChunks die core p ((p.op die core).chunks p.next hi) (q, met)
    pure (match met with
      | some (e, _) => { q with fail := some ⟨e.code, 0, e.detail⟩ }
      | none => q)

/-- How a pass ends that takes no further row. -/
def Pass.ending (p : Pass) (flags : Nat) : Ending := { p.fail.getD (Ending.ok) with flags := flags }

/-- A pass that has run to its end completes; passes without rows behind it complete with it, and loads that waited for re-runs are
repeated (R222, R223, R841). -/
def finishPass (die core : Nat) (p : Pass) (end_ : Ending) : Act :=
  .all [
    retire die core p end_,
    retireEmpties die core,
    .each p.engines fun i => .get fun s => .when (p.rerun && !(s.engine die core i).rerunning) (repeatLoad die core i)]

/-- The rest of a pass: `m` performs it, and the pass completes. -/
def endPass (die core : Nat) (p : Pass) (m : M Pass) : Act :=
  withFlags p.flags m fun r flags =>
    match r with
    | .ok q => finishPass die core p (q.ending flags)
    | .error z => finishPass die core p ⟨z.code, flags, z.detail⟩

/-- PASS_COMPLETE: the oldest pass of an engine has written its last row (R222). -/
def execPassComplete (die core engine : Nat) (s : State) : Host.Outcome State Fault Refusal :=
  (match s.oldestPass die core engine with
   | some p => endPass die core p (p.run die core (p.op die core).m)
   | none => Act.nop).done s

/-! ### Pre-emption (R247 to R249, R255, 10 R431) -/

/-- A pre-empted pass leaves its engines and completes as pre-empted, with the flags of the rows that it wrote; its command, and the
load of its weights, stand among those to issue again (R248, 10 R467, R473). A list that stops issues nothing again. -/
def suspend (die core : Nat) (p : Pass) (resume flags : Nat) : Act :=
  .get fun s =>
    let loads := p.ws.map fun w => w.load
    let flight := (s.ctx die core p.ctx).flight
    let silent := fun (i : Issue) => if flight.any fun f => f.cmd.ord == i.ord then i else i.silent
    .all [
      .each p.engines fun i => .all [
        .engine die core i fun g =>
          let fl := g.flight.filter fun q => q.id != p.id
          { g with
            flight := fl
            staged := if g.stagedCtx == p.ctx then none else g.staged
            drain := g.drain && fl.any fun q => q.rerun && s.ctxState die core q.ctx == 3 },
        .set .ENG_RESUME_ROW die (ctxIdx core i) resume,
        .set .ENG_STATUS_SAT die (ctxIdx core i) (b2n (flags &&& flagSat != 0)),
        .inc .ENG_PASSES die (ctxIdx core i),
        .inc .ENG_PREEMPTS die (ctxIdx core i),
        showEngine die core i],
      .upd .CTX_CFLAGS die (ctxIdx core p.ctx) (· ||| (flags ||| flagPreempted)),
      .ctx die core p.ctx fun y => { y with
        flight := y.flight.filter fun f => f.id != p.id
        again := if y.stop.isSome then y.again
          else insertAgain { p.cmd with row := resume } ((loads.map silent).foldl (fun l i => insertAgain i l) y.again) },
      settleCtx die core p.ctx]

/-- Passes of pre-empted contexts that were to run again, and have issued no row of their re-run, end as pre-empted too: their lowest
row not written is the first that was not (R255). -/
def suspendRest (die core e : Nat) : Act :=
  .get fun s => .each ((s.engine die core e).flight.filter fun q => q.rerun && s.ctxState die core q.ctx == 3) fun q =>
    suspend die core q q.written q.flags

/-- The rows issued before a pre-emption are written, and the pass ends as pre-empted, or completes when nothing is left of it. Rows
that a re-run suppresses count as written (R248, R255). -/
def drainPass (die core e : Nat) (p : Pass) (issued : Nat) : Act :=
  let m := (p.op die core).m
  withFlags p.flags (p.run die core (max (min issued m) (p.head.elim 0 fun h => h.1 + 1))) fun r flags =>
    match r with
    | .error z => finishPass die core p ⟨z.code, flags, z.detail⟩
    | .ok q =>
      if q.fail.isSome || decide (m ≤ q.next) then finishPass die core p (q.ending flags)
      else .all [suspend die core p (max q.written q.next) flags, suspendRest die core e, retireEmpties die core, stageHeads die core]

/-- PREEMPT_DRAIN_END: `issued` is the first row that the pass which issued when the pre-emption came has not issued (R247, R248). -/
def execPreemptDrainEnd (die core engine issued : Nat) (s : State) : Host.Outcome State Fault Refusal :=
  (match s.oldestPass die core engine with
   | some p =>
     let g := s.engine die core engine
     Act.when (g.drain && s.ctxState die core p.ctx == 3 && (p.rerun || g.flight.length == 1)) (drainPass die core engine p issued)
   | none => Act.nop).done s

/-! ### Faults (R250 to R255, R689, R841, R842) -/

/-- The P-store rows that an output row covers (R251). -/
def StreamOp.covered (o : StreamOp) (die core m : Nat) : List Nat :=
  (rowsOf (o.rowAt m) (4 * o.n)).map fun r => storeAddr die core r

/-- Mark the destinations of rows as poisoned by a pass; a row keeps the markers of every pass that has poisoned it (R251, 11 R504,
R507). -/
def poisonRows (die core : Nat) (p : Pass) (ms : List Nat) : Act :=
  .each (ms.flatMap ((p.op die core).covered die core)) fun a =>
    .aux fun x => { x with poison := if x.poison.contains (a, p.cmd.ord) then x.poison else (a, p.cmd.ord) :: x.poison }

/-- Replace a pass in the engines that run it. -/
def putPass (die core : Nat) (p : Pass) : Act :=
  .each p.engines fun i => .engine die core i fun g => { g with flight := g.flight.map fun q => if q.id == p.id then p else q }

/-- Rows below `hi` that a pass has issued and not written when a fault comes: they are counted as issued and discarded. Rows that it
skips are never poisoned (07 R320), nor are rows that a re-run suppresses (R251). -/
def discardRows (die core : Nat) (p q : Pass) (hi : Nat) : M (List Nat) := do
  let head := (q.head.filter fun h => decide (q.written ≤ h.1 ∧ h.1 < q.next)).toList.map fun h => h.1
  let more ← M.collect ((p.op die core).chunks q.next hi) fun c => do
    match ← M.attempt (q.read die core c) with
    | .error _ => pure []
    | .ok rows => pure ((rows.filter fun r => r.2.isSome).map fun r => r.1)
  M.act (countRows die core p more.flatten.length)
  pure ((head ++ more.flatten).filter fun m => decide (q.written ≤ m))

/-- A pass meets a fault: rows below `written` were written, those below `issued` were in the array and are poisoned; the pass stands as
it is to run again, from its first row (R250 to R252). -/
def abortPass (die core : Nat) (p : Pass) (written issued : Nat) : Act :=
  let m := (p.op die core).m
  withFlags p.flags (do
      let q ← p.run die core (min written m)
      if q.fail.isSome then pure q
      else do
        let lost ← discardRows die core p q (min issued m)
        M.act (poisonRows die core p lost)
        pure { q with head := none, next := p.cmd.row, rerun := decide (q.written < m) })
    fun r flags => putPass die core (match r with
      | .ok q => { q with flags := flags, head := if q.fail.isSome then none else q.head, rerun := q.rerun && q.fail.isNone }
      | .error z => { p with fail := some ⟨z.code, 0, z.detail⟩, flags := flags, head := none, rerun := false })

/-- Every pass with rows in an engine meets a fault: the oldest has written its rows below `written`, the newest has issued its rows
below `issued`, and the others all their rows; in a re-run only the oldest has issued any (R254). -/
def abortAll (die core written issued : Nat) (rerunning : Bool) : Bool → List Pass → Act
  | _, [] => .nop
  | oldest, p :: ps =>
    let w := if oldest then written else 0
    let n := if rerunning then (if oldest then issued else 0) else if ps.isEmpty then max issued (p.cmd.row + 1) else 2 ^ 24
    .seq (abortPass die core p w n) (abortAll die core written issued rerunning false ps)

/-- A pass runs again with weights read from W-store anew; one whose weights cannot be read again ends with that error (R252; log
entry 142). -/
def rerunPass (die core : Nat) (p : Pass) : Act :=
  withFlags (p.flags ||| flagRerun) (do
      let ws ← M.collect p.ws (reread die core)
      pure { p with ws := ws })
    fun r flags => .all [
      putPass die core (match r with
        | .ok q => { q with flags := flags }
        | .error z => { p with fail := some ⟨z.code, 0, z.detail⟩, flags := flags, rerun := false }),
      .each (p.engines.zipIdx) fun q => .all [
        .inc .ENG_RERUNS die (ctxIdx core q.1),
        match r with
        | .ok v => .engine die core q.1 fun g => { g with active := (v.ws[q.2]?).orElse fun _ => g.active }
        | .error _ => .nop]]

/-- The passes that a fault has aborted run again in their order, each from its first row (R252, R254), or, when their context is
pre-empted, end as pre-empted (R255). -/
def rerunAll (die core e : Nat) : Act :=
  .seq (.get fun s => .each ((s.engine die core e).flight.filter fun p => p.rerun) fun p =>
      if s.ctxState die core p.ctx == 3 then suspend die core p p.written p.flags else rerunPass die core p)
    (.seq (retireEmpties die core) (.upTo 4 (showEngine die core)))

/-- ENG_FAULT_INFO of a fault: row and column are zero for control parity. -/
def faultInfo (kind row col : Nat) : Nat := if kind == 3 then 3 else kind + row % 64 * 2 ^ 8 + col % 64 * 2 ^ 16

/-- Faults of class ENGINE_RERUN of the last 24 h of device time (R689). -/
def State.recentFaults (s : State) (die core e : Nat) : List Nat :=
  (s.engine die core e).faults.filter fun t => decide (s.now die < t + 86400000000000)

/-- The next fault of the engine fences it (R689). -/
def State.atLimit (s : State) (die core e : Nat) : Bool :=
  let limit := s.rd .FLT_ENG_LIMIT die
  limit != 0 && decide (limit - 1 ≤ (s.recentFaults die core e).length)

/-- A fault that fences nothing is counted with class ENGINE_RERUN (16 R688, R689). -/
def countFault (die core e info : Nat) : Act :=
  .get fun s => .all [
    .engine die core e fun g => { g with faults := s.now die :: s.recentFaults die core e },
    faultRecord die .engineRerun 1 0 (dieEngine core e) ((s.partOfCore die core).getD 0xFF) info]

/-- The running proof of an engine. -/
def State.provingBy (s : State) (die core e : Nat) : Option Proof := s.proofOf die core fun q => q.state == 1 && q.engines.contains e

/-- A fault with passes in the array (R250 to R254): staged weights of every engine of the chain are discarded. A fault of an engine
under proof ends as R706 of 16 says. -/
def faultInArray (die core e info written issued : Nat) : Act :=
  .get fun s =>
    let ps := (s.engine die core e).flight.filter Pass.inArray
    let again := (s.engine die core e).rerunning
    .all [
      .each (e :: ps.flatMap fun p => p.engines).dedup (discardForReload die core),
      abortAll die core written issued again true ps,
      match s.provingBy die core e with
      | some q => faultInProof die q e info
      | none =>
        if again || s.atLimit die core e then fenceEngine die core e info
        else .seq (countFault die core e info) (rerunAll die core e)]

/-- A fault with no pass in the array: staged weights are discarded and loaded again; a further fault during that load fences the
engine (R842). -/
def faultIdle (die core e info : Nat) : Act :=
  .get fun s =>
    match s.provingBy die core e with
    | some q => faultInProof die q e info
    | none =>
      if s.atLimit die core e || (s.engine die core e).reload.isSome then fenceEngine die core e info
      else .all [countFault die core e info, discardForReload die core e, showEngine die core e]

/-- ENGINE_FAULT: `kind` 1 weight parity, 2 output residue, 3 control parity; `written` and `issued` say how far the oldest and the newest
pass have come. -/
def execEngineFault (die core engine kind row col issued written : Nat) (s : State) : Host.Outcome State Fault Refusal :=
  let i := ctxIdx core engine
  let info := faultInfo kind row col
  let busy := (s.engine die core engine).flight.any Pass.inArray
  (Act.when ((s.usable die core).contains engine && decide (1 ≤ kind ∧ kind ≤ 3) && (busy || kind == 3)) (.all [
    .inc .ENG_FAULTS die i,
    .set .ENG_FAULT_INFO_KIND die i kind,
    .set .ENG_FAULT_INFO_ROW die i (bits info 8 6),
    .set .ENG_FAULT_INFO_COL die i (bits info 16 6),
    if busy then faultInArray die core engine info written issued else faultIdle die core engine info])).done s

/-! ### Store errors (R840) -/

/-- The store row at which a pass's row meets an error. -/
def errorRow (o : StreamOp) (m : Nat) : RowError → Nat
  | .activation => (o.asrc + m * o.rowStride) / 64 * 64
  | .scale => (o.aaux + m * scaleRow o.k) / 64 * 64
  | .startPoisoned => (o.psrc + 256 * m) / 64 * 64
  | .startCheck => (o.psrc + 256 * m) / 64 * 64
  | .outputCheck => (o.rowAt m + 4 * o.n) / 64 * 64
  | .outputPoisoned => (o.rowAt m + 4 * o.n) / 64 * 64
  | .outputShut => o.rowAt m / 64 * 64

/-- A pass can meet the error at a row: activation and scale rows up to the row's issue; start reads and writes of rows that are not yet
written. Poison and shutters are the store's state; a check can fail at any time. -/
def State.rowErrorMet (s : State) (die core : Nat) (p : Pass) (m : Nat) (what : RowError) : Bool :=
  let o := p.op die core
  let a := storeAddr die core (errorRow o m what)
  let partRow := 4 * o.n % 64 != 0
  p.fail.isNone && decide (m < o.m) &&
  match what with
  | .activation => o.k != 0 && !o.tiled && decide (p.next ≤ m)
  | .scale => o.k != 0 && o.afmt == fmtMxfp4 && decide (p.next ≤ m)
  | .startPoisoned => o.acc && decide (p.written ≤ m) && s.poisoned a && !s.ownPoison a p.cmd.ord
  | .startCheck => o.acc && decide (p.written ≤ m)
  | .outputCheck => partRow && decide (p.written ≤ m)
  | .outputPoisoned => partRow && decide (p.written ≤ m) && s.poisoned a && !s.ownPoison a p.cmd.ord
  | .outputShut => decide (p.written ≤ m) && s.groupState die core (errorRow o m what) != 0

/-- PASS_STORE_ERROR: the oldest pass of an engine meets a store error at a row: rows before it have been issued, the stored bits of the
row are upset where it is a check that fails, and the pass goes on to its end under R840. -/
def execPassStoreError (die core engine row : Nat) (what : RowError) (s : State) : Host.Outcome State Fault Refusal :=
  (match s.oldestPass die core engine with
   | none => Act.nop
   | some p =>
     let o := p.op die core
     let checks := what == RowError.activation || what == RowError.scale || what == RowError.startCheck || what == RowError.outputCheck
     .when (s.rowErrorMet die core p row what) (endPass die core p (do
       let q ← p.run die core row
       M.act (.when (checks && q.fail.isNone) (upsetRow (storeAddr die core (errorRow o row what))))
       q.run die core o.m))).done s

end Sys2Proof.Machine
end

