-- ==== Sys2Proof/Machine/Image.lean ====
section
/-! DEFINITION. The configuration store, its directory, the image in a slot and its checks, the key area (17 R710 to R731), and
the network section (19 R788). -/

namespace Sys2Proof.Machine

/-- `n` bytes of a list from an offset. -/
def cut (bs : List Byte) (off n : Nat) : List Byte := (bs.drop off).take n

/-- `n` bytes from an offset are zero. -/
def zeroAt (bs : List Byte) (off n : Nat) : Bool := (cut bs off n).all fun b => b == 0

/-! ### The directory (R712 to R717) -/

/-- Offsets of the configuration store (R712); the layouts of the key area and of the state area are the model's (log entry 35). -/
def keyBase : Nat := 0x2000
def secretBase : Nat := 0x3000
def stateBase : Nat := 0x10000
def slotsBase : Nat := 0x60000

/-- A directory copy (R713). -/
structure Directory where
  /-- Copy it was read from. -/
  copy : Nat
  dseq : Nat
  active : Nat
  trial : Nat
  tries : Nat
  baseA : Nat
  sizeA : Nat
  baseB : Nat
  sizeB : Nat
deriving DecidableEq, Repr

/-- Base and size of a slot. -/
def Directory.base (d : Directory) (k : Nat) : Nat := if k == 0 then d.baseA else d.baseB
def Directory.size (d : Directory) (k : Nat) : Nat := if k == 0 then d.sizeA else d.sizeB

/-- A slot lies inside the store, behind its fixed areas, 64 KiB aligned. -/
def slotOk (store base size : Nat) : Bool := base % 65536 == 0 && decide (slotsBase ≤ base) && decide (base + size ≤ store)

/-- A copy of the directory, when it is valid (R713, R714). -/
def State.directoryCopy (s : State) (copy : Nat) : Option Directory :=
  let b := s.cfgBytes (copy * 0x1000) 64
  let d : Directory := {
    copy := copy, dseq := leAt b 4 4, active := byteAt b 8, trial := byteAt b 9, tries := byteAt b 10,
    baseA := leAt b 16 8, sizeA := leAt b 24 8, baseB := leAt b 32 8, sizeB := leAt b 40 8 }
  let store := s.rd .I_STORE_MIB 0 * mib
  if leAt b 0 2 == 0x5844 && leAt b 60 4 == crc32c (b.take 60) && slotOk store d.baseA d.sizeA && slotOk store d.baseB d.sizeB &&
      !rangesMeet d.baseA d.sizeA d.baseB d.sizeB
  then some d else none

/-- The directory in use: the valid copy with the higher DSEQ (R714). -/
def State.directory (s : State) : Option Directory :=
  match s.directoryCopy 0, s.directoryCopy 1 with
  | some a, some b => if a.dseq < b.dseq then some b else some a
  | some a, none => some a
  | none, b => b

/-- The bytes of a directory. -/
def Directory.bytes (d : Directory) : List Byte :=
  let b := toLe 2 0x5844 ++ toLe 2 0 ++ toLe 4 d.dseq ++ toLe 1 d.active ++ toLe 1 d.trial ++ toLe 1 d.tries ++ toLe 5 0 ++
    toLe 8 d.baseA ++ toLe 8 d.sizeA ++ toLe 8 d.baseB ++ toLe 8 d.sizeB ++ toLe 12 0
  b ++ toLe 4 (crc32c b)

/-- A directory change goes into the copy not in use, with DSEQ one higher (R715). -/
def writeDirectory (d : Directory) : Act :=
  .cfgPut ((1 - d.copy) * 0x1000) ({ d with dseq := d.dseq + 1 } : Directory).bytes

/-! ### Keys (R729, R730) -/

/-- FUSE_DECOMM. -/
def State.decommissioned (s : State) : Bool := s.on .FUSE_DECOMM 0

/-- An owner secret of the key area: 0 the image key, 1 + i the CAK of port i. -/
def State.secret (s : State) (t : Nat) : Option (List Byte) :=
  let a := secretBase + 256 * t
  let n := leNat (s.cfgBytes a 2)
  if n == 0 then none else Config.unwrapSecret s.decommissioned (s.cfgBytes (a + 2) n)

/-- Number of a port among the package's: the data ports of the dies in order, then the management port (log entry 35). -/
def portIndex (die port : Nat) : Nat := if port == 2 then 16 else 2 * die + port

/-- A port has a CAK (R729, R742). -/
def State.hasCak (s : State) (die port : Nat) : Bool := (s.secret (1 + portIndex die port)).isSome

/-- A hash held in fuses. -/
def State.fuseHash (s : State) (f : Fld) : List Byte := (List.range 12).flatMap fun w => toLe 4 (s.rd f 0 w)

/-- The owner's public key (R729). -/
def State.ownerKey (s : State) : List Byte := Config.keyNamed (s.fuseHash .FUSE_OWNER_HASH)

/-- An anti-rollback counter (R731). -/
def State.counterRb (s : State) (c : Nat) : Nat := bits (s.rd .FUSE_RB 0 (c / 4)) (8 * (c % 4)) 8

/-! ### Statuses (R727, R728) -/

def stOk : Nat := 0x00
def stBusy : Nat := 0x01
def stUnknown : Nat := 0x02
def stBadLength : Nat := 0x03
def stBadSignature : Nat := 0x04
def stNotAllowed : Nat := 0x05
def stNoOwner : Nat := 0x06
def stOwned : Nat := 0x07
def stFormat : Nat := 0x10
def stGeinaphorSig : Nat := 0x11
def stOwnerSig : Nat := 0x12
def stDecrypt : Nat := 0x13
def stHash : Nat := 0x14
def stRollback : Nat := 0x15
def stGrade : Nat := 0x16
def stGeometry : Nat := 0x17
def stAdaptSafety : Nat := 0x18
def stPlacement : Nat := 0x19
def stNetwork : Nat := 0x1A
def stNoFit : Nat := 0x20
def stPartBusy : Nat := 0x21
def stDecommissioned : Nat := 0x22

/-! ### The image (R723 to R726) -/

/-- A section entry (R725). -/
def sectionOf (i : Nat) (e : List Byte) : Section :=
  { index := i, kind := byteAt e 0, part := byteAt e 1, sflags := byteAt e 2, variant := byteAt e 3, dest := leAt e 8 8,
    offset := leAt e 16 8, len := leAt e 24 8, iv := cut e 32 12, tag := cut e 48 16, hash := cut e 64 48 }

/-- A section entry has a kind and reserved fields as R725 gives them, and its ciphertext lies in the image. -/
def sectionFormatOk (length : Nat) (e : List Byte) : Bool :=
  decide (1 ≤ byteAt e 0 ∧ byteAt e 0 ≤ 5) && (decide (byteAt e 1 < 8) || byteAt e 1 == 0xFF) && decide (byteAt e 2 < 2) &&
  zeroAt e 4 4 && zeroAt e 44 4 && zeroAt e 112 16 && decide (leAt e 16 8 + leAt e 24 8 ≤ length)

/-- A die record of a variant (R726). -/
def variantDieOf (e : List Byte) : VariantDie :=
  { die := byteAt e 0, lcores := leAt e 4 4, full := leAt e 8 4, vseg := leAt e 16 8, hbmBase := leAt e 24 4, hbmMib := leAt e 28 4 }

/-- The variant table (R726), and what follows it. -/
def parseVariants : Nat → List Byte → Option (List Variant × List Byte)
  | 0, bs => some ([], bs)
  | n + 1, bs =>
    let c := byteAt bs 2
    let recs := (List.range c).map fun i => cut bs (8 + 32 * i) 32
    if bs.length < 8 + 32 * c || c == 0 || 8 < c || 8 ≤ byteAt bs 0 || !zeroAt bs 3 5 ||
        !recs.all (fun e => decide (byteAt e 0 < 8) && zeroAt e 1 3 && zeroAt e 12 4)
    then none
    else (parseVariants n (bs.drop (8 + 32 * c))).map fun p => (⟨byteAt bs 0, byteAt bs 1, recs.map variantDieOf⟩ :: p.1, p.2)

/-- The anti-rollback pairs of a manifest header (R724). -/
def rbPairs (m : List Byte) : List (Nat × Nat) :=
  ((List.range 64).map fun k => (byteAt m (40 + 2 * k), byteAt m (41 + 2 * k))).takeWhile fun p => p.1 != 0xFF

/-- The header's own fields (R723, R727 check 2). -/
def headerOk (h : List Byte) (size : Nat) : Bool :=
  leAt h 0 4 == 0x4D495847 && leAt h 4 2 == 1 && decide (leAt h 8 8 ≤ size) && decide (512 ≤ leAt h 8 8) &&
  decide (leAt h 16 8 + leAt h 24 8 ≤ leAt h 8 8) && decide (256 ≤ leAt h 24 8) && zeroAt h 6 2 && zeroAt h 324 188 &&
  decide (leAt h 128 4 ≤ 64)

/-- The manifest header's own fields (R724, R731). -/
def manifestOk (m : List Byte) : Bool :=
  leAt m 0 2 == 1 && decide (byteAt m 3 < 8) && zeroAt m 34 2 && zeroAt m 38 2 && zeroAt m 168 88 &&
  (rbPairs m).all fun p => decide (1 ≤ p.1 ∧ p.1 < 64 ∧ p.2 ≤ 64)

/-- What header and manifest say, when their format is right (R723 to R726). -/
def parseImage (base : Nat) (h m : List Byte) : Option Image :=
  let ns := leAt m 4 4
  let es := (List.range ns).map fun i => cut m (256 + 128 * i) 128
  if !manifestOk m || m.length < 256 + 128 * ns || !es.all (sectionFormatOk (leAt h 8 8)) then none
  else
    (parseVariants (leAt m 8 4) (m.drop (256 + 128 * ns))).bind fun p =>
      if p.2.length < 8 * leAt m 12 4 then none
      else some {
        base := base, length := leAt h 8 8, manHash := cut h 32 48, fwHash := cut h 80 48, fwSvn := leAt h 128 4,
        hostPart := byteAt m 3, mgmtUdp := leAt m 32 2, partSafety := byteAt m 36, partUsed := byteAt m 37, rb := rbPairs m,
        sections := es.zipIdx.map fun (q : List Byte × Nat) => sectionOf q.2 q.1, variants := p.1,
        grids := (List.range (leAt m 12 4)).map fun i => leAt p.2 (8 * i) 8, ports := [], peers := [], ptp := [], writes := [] }

/-- A section decrypted from the store; none when its tag fails (R725). -/
def State.plainOf (s : State) (i : Image) (x : Section) : Option (List Byte) :=
  (s.secret 0).bind fun key => Config.gcmDecrypt key x.iv (s.cfgBytes (i.base + x.offset) x.len) x.tag

/-! ### Placement (R727 check 10, 18 R772) -/

/-- Die offset of the copy of the store sections at the top of HBM stack B (18 R772). -/
def copyBase : Nat := 2 * stackBytes - 128 * mib

/-- Where a section goes, with logical cores as if they were physical ones. -/
def Section.place (x : Section) : Nat :=
  if x.kind == 3 then storeAddr (bits x.dest 45 3) (bits x.dest 24 5) (bits x.dest 0 24) else x.dest

/-- A section's destination lies inside existing memory. -/
def State.destOk (s : State) (x : Section) : Bool :=
  let a := x.place
  s.dieThere (addrDie a) &&
  if x.kind == 3 then
    bits x.dest 29 16 == 0 && x.dest / 2 ^ 48 == 0x100 && (storeAt (bits x.dest 0 24)).isSome && (x.len == 0 || rangeOk (addrOff a) x.len)
  else
    decide (a < 2 ^ 48) && (x.len == 0 || rangeOk (addrOff a) x.len) &&
    match placeOf (addrOff a) with
    | .hbm _ _ => decide (addrOff a + x.len ≤ copyBase)
    | .vault _ _ => true
    | .store _ _ => false
    | .regs _ => false
    | .nowhere => false

/-- No two ranges meet. -/
def allApart : List (Nat × Nat) → Bool
  | [] => true
  | p :: ps => (ps.all fun q => !rangesMeet p.1 p.2 q.1 q.2) && allApart ps

/-- Entries of a register-write section: package address and value (R725). -/
def regEntries (bs : List Byte) : List (Nat × Nat) := (List.range (bs.length / 16)).map fun i => (leAt bs (16 * i) 8, leAt bs (16 * i + 8) 4)

/-- A register-write section keeps off mullion entries 62 and 63. -/
def keepsOff (bs : List Byte) : Bool :=
  (regEntries bs).all fun p => !(decide (regBase + 0x617C0 ≤ addrOff p.1) && decide (addrOff p.1 < regBase + 0x61800))

/-- Check 10 of R727. -/
def State.placementOk (s : State) (i : Image) : Bool :=
  let mem := i.sections.filter fun x => x.kind == 2 || x.kind == 3
  mem.all s.destOk && allApart (mem.map fun x => (x.place, x.len)) &&
  (i.sections.filter fun x => x.kind == 4).all fun x =>
    match s.plainOf i x with
    | some bs => keepsOff bs
    | none => true

/-! ### The checks in their order (R727) -/

/-- The status of the first check that fails. -/
def firstFail (l : List (Bool × Nat)) : Option Nat := (l.find? fun p => !p.1).map fun p => p.2

/-- Checks 3 to 10, with their statuses. -/
def State.imageChecks (s : State) (h m : List Byte) (i : Image) : List (Bool × Nat) :=
  [ (Config.ecdsaVerify Config.geinaphorRoot (Config.sha384 (cut h 80 52)) (cut h 132 96), stGeinaphorSig),
    (Config.ecdsaVerify s.ownerKey (Config.sha384 (h.take 228)) (cut h 228 96), stOwnerSig),
    (Config.sha384 m == i.manHash, stHash),
    (decide (s.counterRb 0 ≤ i.fwSvn) && i.rb.all fun p => decide (s.counterRb p.1 ≤ p.2), stRollback),
    (bit (byteAt m 2) (s.rd .FUSE_ORDER 0), stGrade),
    (leAt m 16 4 == s.register 0 0x106000 && leAt m 20 4 == s.register 0 0x106004 && leAt m 24 4 == s.register 0 0x106008 &&
      leAt m 28 4 == s.register 0 0x92000, stGeometry),
    (i.sections.all fun x => !(bit x.sflags 0 && decide (x.part < 8) && bit i.partSafety x.part), stAdaptSafety),
    (s.placementOk i, stPlacement) ]

/-- Checks 1 to 10 of the image at a place of the store; the image, or the status of the first failure (R727). -/
def State.checkImage (s : State) (base size : Nat) : Except Nat Image :=
  let h := s.cfgBytes base 512
  if !s.on .FUSE_OWNED 0 then .error stNoOwner
  else if !headerOk h size then .error stFormat
  else
    let m := s.cfgBytes (base + leAt h 16 8) (leAt h 24 8)
    match parseImage base h m with
    | none => .error stFormat
    | some i =>
      match firstFail (s.imageChecks h m i) with
      | some st => .error st
      | none => .ok i

/-! ### The network section (19 R788) -/

/-- A port entry within its ranges. -/
def portEntryOk (e : List Byte) : Bool :=
  decide (byteAt e 0 < 8) && decide (byteAt e 1 < 3) && (byteAt e 1 != 2 || byteAt e 0 == 0) &&
  decide (byteAt e 2 < 4) && (byteAt e 2 != 3 || byteAt e 1 == 2) && decide (byteAt e 3 < 32) && decide (leAt e 4 2 < 4096) &&
  zeroAt e 6 2 && zeroAt e 14 2 && decide (byteAt e 20 ≤ 32) && zeroAt e 21 3 && decide (byteAt e 44 ≤ 128) && zeroAt e 45 3

/-- A port entry. -/
def portEntryOf (e : List Byte) : Port :=
  { die := byteAt e 0, port := byteAt e 1, mode := byteAt e 2, flags := byteAt e 3, vlan := leAt e 4 2, mac := leAt e 8 6,
    ipv4 := leAt e 16 4, prefix4 := byteAt e 20, gateway4 := leAt e 24 4, ipv6 := leAt e 28 16, prefix6 := byteAt e 44,
    gateway6 := leAt e 48 16 }

/-- A neighbour entry within its ranges. -/
def neighbourOk (e : List Byte) : Bool :=
  (byteAt e 16 == 6 || byteAt e 16 == 4 && zeroAt e 4 12) && bits (byteAt e 17) 3 2 != 3 && decide (byteAt e 17 < 32)

/-- A neighbour entry. -/
def neighbourOf (e : List Byte) : Neighbour :=
  { addr := leAt e 0 16, version := byteAt e 16, die := bits (byteAt e 17) 0 3, port := bits (byteAt e 17) 3 2, mac := leAt e 18 6 }

/-- A signed byte within bounds. -/
def sbyteIn (b : Nat) (lo hi : Int) : Bool := decide (lo ≤ signed 8 b ∧ signed 8 b ≤ hi)

/-- The network section, when every field is within its range: ports, neighbours and bytes 4 to 14 of its header. -/
def parseNetwork (b : List Byte) : Option (List Port × List Neighbour × List Byte) :=
  let np := byteAt b 2
  let nn := byteAt b 3
  let ps := (List.range np).map fun i => cut b (64 + 64 * i) 64
  let ns := (List.range nn).map fun i => cut b (64 + 64 * np + 24 * i) 24
  if leAt b 0 2 == 1 && decide (np ≤ 17) && decide (nn ≤ 64) && decide (byteAt b 4 < 3) && decide (byteAt b 5 < 128) &&
      decide (byteAt b 6 < 2) && decide (byteAt b 7 < 3) && decide (byteAt b 10 < 2) && sbyteIn (byteAt b 11) (-3) 4 &&
      sbyteIn (byteAt b 12) (-7) 4 && sbyteIn (byteAt b 13) (-7) 5 && decide (2 ≤ byteAt b 14 ∧ byteAt b 14 ≤ 10) && zeroAt b 15 49 &&
      b.length == 64 + 64 * np + 24 * nn && ps.all portEntryOk && ns.all neighbourOk
  then some (ps.map portEntryOf, ns.map neighbourOf, cut b 4 11) else none

/-! ### Checks 11 to 13 -/

/-- The network part of an image, from its plain sections. -/
def withNetwork (i : Image) (plain : List (Section × List Byte)) : Except Nat Image :=
  match (plain.filter fun p => p.1.kind == 5), (i.sections.filter fun x => x.kind == 5) with
  | [(x, bs)], [_] =>
    match parseNetwork bs with
    | some (ps, ns, ptp) =>
      if x.part == 0xFF then
        .ok { i with
          ports := ps, peers := ns, ptp := ptp
          writes := (plain.filter fun p => p.1.kind == 4).map fun p => (p.1.index, p.2) }
      else .error stNetwork
    | none => .error stNetwork
  | _, _ => .error stNetwork

/-- Checks 11 to 13 on the sections that are read: the whole image, or the status of the first failure. The firmware section is the
one whose hash the header states. -/
def State.finishImage (s : State) (i : Image) (needed : Section → Bool) : Except Nat Image :=
  let xs := i.sections.filter needed
  let plain := xs.filterMap fun x => (s.plainOf i x).map fun bs => (x, bs)
  if plain.length != xs.length then .error stDecrypt
  else if !(plain.all fun p => Config.sha384 p.2 == p.1.hash) || !(plain.any fun p => p.1.kind == 1 && p.1.hash == i.fwHash) then
    .error stHash
  else withNetwork i plain

end Sys2Proof.Machine
end

