-- ==== Sys2Proof/Machine/Restart.lean ====
section
/-! DEFINITION. Partition starts and the three restarts: fit and hinge table (12 R562 to R565, 16 R698 to R702), row tests and
row repair (16 R696, R703 to R705), verification (18 R771 to R775), epochs (13 R598 to R600), and the cold start (17 R716 to
R720). -/

namespace Sys2Proof.Machine

/-! ### Sections and what the Keeper writes -/

/-- The selected variants need the section (17 R720, R725). -/
def State.sectionUsed (s : State) (x : Section) : Bool :=
  x.kind == 1 || x.kind == 5 || x.part == 0xFF ||
  match s.variantOf x.part with
  | some v => x.variant == 0xFF || x.variant == v.index
  | none => false

/-- Sections of HBM, vaults and stores that the selected variants need. -/
def State.memSections (s : State) (i : Image) : List Section :=
  i.sections.filter fun x => (x.kind == 2 || x.kind == 3) && s.sectionUsed x

/-- The Keeper writes memory by package address, as every writer does: row by row into a store or vault, granule by granule into HBM
(11 R502, R508, R519 to R521, 12 R543). It holds no wicket and needs none for what this chapter has it write. -/
def keeperPut (a : Nat) (bs : List Byte) : M Unit :=
  match placeOf (addrOff a) with
  | .hbm st o => writeHbm (addrDie a) st o bs
  | .vault k o => writeVault (addrDie a) k o bs
  | .store c o => writeStore (addrDie a) c o bs
  | .regs _ => M.fail codeFabric (low32 a)
  | .nowhere => M.fail codeFabric (low32 a)

/-- The Keeper reads memory by package address. -/
def keeperGet (a len : Nat) : M (List Byte) :=
  match placeOf (addrOff a) with
  | .hbm st o => readHbm (addrDie a) st o len
  | .vault k o => readVault (addrDie a) k o len
  | .store c o => readStore (addrDie a) c o len
  | .regs _ => M.fail codeFabric (low32 a)
  | .nowhere => M.fail codeFabric (low32 a)

/-- A write of the Keeper's own, as far as the memory takes it, and what follows; it does not adapt an adaptable layer (09 R422). -/
def keeperTry (a : Nat) (bs : List Byte) (k : Bool → Act) : Act :=
  .get fun s => (keeperPut a bs).then fun r => .seq (.aux fun y => { y with adapted := s.aux.adapted }) (k r.toOption.isSome)

/-- A write of the Keeper's own, as far as the memory takes it. -/
def keeperWrite (a : Nat) (bs : List Byte) : Act := keeperTry a bs fun _ => .nop

/-- Where the copy of a store section lies (18 R772): the stores of a logical core take 4 MiB, one store after another (log entry
36). -/
def Section.copyAddr (x : Section) : Nat :=
  let off := bits x.dest 0 24
  let packed := match storeAt off with
    | some (0, _, _, _) => off
    | some (1, start, _, _) => 2 * mib + (off - start)
    | some (_, start, _, _) => 2 * mib + 0x180000 + (off - start)
    | none => 0
  pkgAddr (bits x.dest 45 3) (copyBase + bits x.dest 24 5 * (4 * mib) + packed)

/-- The bytes of a section: of a store section from its copy, once the copy's hash is checked, otherwise from the store of images (18
R772, 09 R421). -/
def sectionBytes (i : Image) (x : Section) : M (Option (List Byte)) := do
  let s ← M.state
  if x.kind == 3 && !bit x.sflags 0 then do
    match ← M.attempt (keeperGet x.copyAddr x.len) with
    | .ok copy => pure (if Config.sha384 copy == x.hash then some copy else s.plainOf i x)
    | .error _ => pure (s.plainOf i x)
  else pure (s.plainOf i x)

/-- A section is written where it belongs; an adaptable layer is then as its base copy (09 R421, R422). -/
def writeSection (i : Image) (x : Section) : Act :=
  (sectionBytes i x).then fun r => .get fun s =>
    match r with
    | .ok (some bs) => .seq (keeperWrite (s.sectionAddr x) bs) (.aux fun y => { y with adapted := y.adapted.erase x.index })
    | _ => .nop

/-- Adaptable layers of the chosen partitions are rewritten from their base copies (09 R421). -/
def rewriteAdaptable (i : Image) (part : Nat → Bool) : Act :=
  .get fun s => .each ((s.memSections i).filter fun x => bit x.sflags 0 && part x.part) (writeSection i)

/-- The Keeper's register writes of one section, in list order, at the registers that `ok` admits (17 R725). -/
def applyWrites (ok : Nat → Bool) (bs : List Byte) : Act :=
  .each (regEntries bs) fun p =>
    let off := addrOff p.1 - regBase
    .when (decide (regBase ≤ addrOff p.1) && decide (off < 16 * mib) && ok off) (.get fun s =>
      .when (s.dieThere (addrDie p.1)) (writeReg (.keeper (addrDie p.1)) (addrDie p.1) off 32 p.2).anyway)

/-- The register-write sections of the chosen partitions are applied, in section-table order (17 R725, 18 R771). -/
def applySections (i : Image) (part : Nat → Bool) (ok : Nat → Bool) : Act :=
  .get fun s => .each (i.sections.filter fun x => x.kind == 4 && s.sectionUsed x && part x.part) fun x =>
    match i.writes.find? fun w => w.1 == x.index with
    | some w => applyWrites ok w.2
    | none => .nop

/-- The Keeper's own mullion entries of die 0: 62 opens the Transom block, 63 the Fuses block to reads (17 R741). -/
def keeperMullions : Act :=
  .each [Layer.vis, .act] fun l =>
    let put := fun f m v => Act.eff (.reg l f 0 m v)
    .all [
      put .MUL_VALID 62 1, put .MUL_READ 62 255, put .MUL_WRITE 62 255, put .MUL_BASE 62 (regBase / 4096),
      put .MUL_LIMIT 62 ((regBase + 0xFFFF) / 4096),
      put .MUL_VALID 63 1, put .MUL_READ 63 255, put .MUL_WRITE 63 0, put .MUL_BASE 63 ((regBase + 0xE0000) / 4096),
      put .MUL_LIMIT 63 ((regBase + 0xEFFFF) / 4096)]

/-! ### Fit and hinge table (12 R562 to R565, 16 R698 to R702) -/

/-- The die exists and has not failed. -/
def State.dieUp (s : State) (d : Nat) : Bool := s.dieThere d && !bit (s.rd .FLT_DIE_FAILED 0) d

/-- Another partition holds the physical core. -/
def State.heldByOther (s : State) (die p core : Nat) : Bool :=
  (List.range 32).any fun l => s.on .HG_VALID die l && s.rd .HG_PART die l != p && s.rd .HG_PHYS die l == core

/-- A physical core can serve a logical core of the partition (R564, R698). -/
def State.coreQualifies (s : State) (die p core : Nat) (four : Bool) : Bool :=
  !s.fencedCore die core && decide ((if four then 4 else 3) ≤ (s.usable die core).length) && !s.heldByOther die p core

/-- Logical cores of a die record that stay on the physical core they held before (R698). -/
def State.keptCores (s : State) (p : Nat) (d : VariantDie) : List (Nat × Nat) :=
  ((List.range 32).filter (bit d.lcores)).foldl (fun m l =>
    let c := s.rd .HG_PHYS d.die l
    if s.coreQualifies d.die p c (bit d.full l) && !m.any fun q => q.2 == c then m ++ [(l, c)] else m) []

/-- The mapping of a die's logical cores: those that stay, then the others, each on the lowest-numbered physical core that qualifies
(R698); or the first logical core for which none does. -/
def State.mapCores (s : State) (p : Nat) (d : VariantDie) : Except Nat (List (Nat × Nat)) :=
  let kept := s.keptCores p d
  ((List.range 32).filter fun l => bit d.lcores l && !kept.any fun q => q.1 == l).foldl (fun o l =>
    match o with
    | .error e => .error e
    | .ok m =>
      match (List.range 32).find? fun c => s.coreQualifies d.die p c (bit d.full l) && !m.any fun q => q.2 == c with
      | some c => .ok (m ++ [(l, c)])
      | none => .error l) (.ok kept)

/-- Die records that the selected variants of the other partitions hold on a die. -/
def State.otherDies (s : State) (p die : Nat) : List VariantDie :=
  (List.range 8).flatMap fun q => if q == p then [] else ((s.variantOf q).map fun v => v.dies.filter fun e => e.die == die).getD []

/-- The vault and HBM ranges of a die record, where they hold anything, lie in enabled memory that no other partition holds, and no other partition holds its
logical cores (R564). -/
def State.rangesFit (s : State) (p : Nat) (d : VariantDie) : Bool :=
  let lo := d.hbmBase * mib
  let len := d.hbmMib * mib
  d.vseg &&& s.rd .FLT_RETIRED_SEG d.die == 0 && (len == 0 || decide (lo + len ≤ 2 * stackBytes)) &&
  ((List.range 2).all fun st =>
    !(len != 0 && s.rd .HBM_STATUS_STATE d.die st == 3 && rangesMeet lo len (st * stackBytes) stackBytes)) &&
  ((s.otherDies p d.die).all fun e =>
    d.vseg &&& e.vseg == 0 && (len == 0 || e.hbmMib == 0 || !rangesMeet lo len (e.hbmBase * mib) (e.hbmMib * mib))) &&
  (List.range 32).all fun l => !(bit d.lcores l && s.on .HG_VALID d.die l && s.rd .HG_PART d.die l != p)

/-- A logical core takes a physical one. -/
def mapCore (p die : Nat) (q : Nat × Nat) : Act :=
  .all [
    resetCore die q.2,
    .set .HG_PHYS die q.1 q.2,
    .set .HG_VALID die q.1 1,
    .set .HG_PART die q.1 p,
    .set .HG_MOVED die q.1 (b2n (q.2 != q.1))]

/-- The stores of a physical core as the image defines them for the logical core it now serves, the rest zero (R700, 11 R526). -/
def fillStores (i : Image) (die : Nat) (q : Nat × Nat) : Act :=
  .seq (zeroStores die q.2) (.get fun s =>
    .each ((s.memSections i).filter fun x => x.kind == 3 && bits x.dest 45 3 == die && bits x.dest 24 5 == q.1) (writeSection i))

/-- A partition takes a variant with a mapping of its logical cores. When `fill` says so, moved cores are written (R700), and all of
the partition's sections when the variant is another one than before. -/
def takeVariant (i : Image) (p old : Nat) (fill : Bool) (v : Variant) (m : List (Nat × List (Nat × Nat))) : Act :=
  .get fun s =>
    let fresh := old != v.index + 1
    .all [
      .set .I_PT_VARIANT 0 p (v.index + 1),
      .each m fun e => .each e.2 (mapCore p e.1),
      .when fill (.each m fun e => .each (e.2.filter fun q => fresh || s.rd .HG_PHYS e.1 q.1 != q.2) (fillStores i e.1)),
      .when (fill && fresh) (.get fun t =>
        .each ((t.memSections i).filter fun x => x.kind == 2 && x.part == p) (writeSection i))]

/-- The mapping of a variant on every die it names; or the die and logical core for which no physical core qualifies (R702). -/
def State.mapVariant (s : State) (p : Nat) : List VariantDie → Except (Nat × Nat) (List (Nat × List (Nat × Nat)))
  | [] => .ok []
  | d :: ds =>
    match s.mapCores p d, s.mapVariant p ds with
    | .error l, _ => .error (d.die, l)
    | .ok _, .error e => .error e
    | .ok m, .ok ms => .ok ((d.die, m) :: ms)

/-- Level of the fault that took a core: cluster where the fault log holds a CLUSTER_FAIL of its cluster, else core (16 R688). -/
def State.lossLevel (s : State) (die core : Nat) : Nat :=
  let hit := (List.range (min (s.rd .FLT_SEQ 0) logSlots)).any fun n =>
    let b := s.cfgBytes (logBase + n * 32) 32
    byteAt b 12 == FaultClass.code .clusterFail && byteAt b 14 == die && leAt b 16 2 == core / 4 && leAt b 28 4 == crc32c (b.take 28)
  if hit then 2 else 1

/-- The first variant that fits is selected (R563, R564); a variant for which no physical core is left is recorded with NO_SPARE, at the
level of the fault that took the core (R688, R702; its detail is left open); when none fits the partition has none (R565). -/
def fitVariants (i : Image) (p old : Nat) (fill : Bool) : List Variant → Act
  | [] => .nop
  | v :: vs => .get fun s =>
    if !v.dies.all fun d => s.dieUp d.die then fitVariants i p old fill vs
    else
      match s.mapVariant p v.dies with
      | .error (die, l) => .free fun detail =>
          .seq (faultRecord die .noSpare (s.lossLevel die (s.rd .HG_PHYS die l)) 11 (s.rd .HG_PHYS die l) p detail)
            (fitVariants i p old fill vs)
      | .ok m => if v.dies.all (s.rangesFit p) then takeVariant i p old fill v m else fitVariants i p old fill vs

/-- A partition gives up its logical cores and its variant. -/
def releaseFit (p : Nat) : Act :=
  .get fun s => .seq (.set .I_PT_VARIANT 0 p 0) (.each s.dieList fun d => .upTo 32 fun l =>
    .when (s.on .HG_VALID d l && s.rd .HG_PART d l == p) (.set .HG_VALID d l 0))

/-- A partition is fitted again. -/
def fitPartition (i : Image) (p : Nat) (fill : Bool) : Act :=
  .get fun s => .seq (releaseFit p) (fitVariants i p (s.rd .I_PT_VARIANT 0 p) fill (i.variants.filter fun v => v.part == p))

/-- Partitions that the image defines, rising. -/
def Image.parts (i : Image) : List Nat := (List.range 8).filter (bit i.partUsed)

/-- Every partition is fitted, in ascending number, with nothing held before (R563). -/
def fitAll (i : Image) (fill : Bool) : Act :=
  .get fun s => .seq (.upTo 8 releaseFit)
    (.each i.parts fun p => fitVariants i p (s.rd .I_PT_VARIANT 0 p) fill (i.variants.filter fun v => v.part == p))

/-! ### Partition start (13 R598, R600, R602, 12 R565) -/

/-- Payload of an EPOCH record (R598). -/
def epochPayload (prev cause : Nat) (lost : Bool) (lastSeq : Nat) : List Byte :=
  toLe 4 prev ++ toLe 1 cause ++ toLe 1 (b2n lost) ++ toLe 2 0 ++ toLe 8 lastSeq

/-- A partition starts: it takes the committed set, its epoch goes up and is stored, and its EPOCH record is handed over; without a
variant it is down with NO_FIT. After a cold start the device holds no last SEQ of the previous epoch: the value is left open. -/
def startPartition (p cause : Nat) : Act :=
  .free fun v => .get fun s =>
    if s.rd .I_PT_VARIANT 0 p == 0 then .set .PT_STATE 0 p 4
    else
      let stored := leNat (s.cfgBytes (stateBase + 4 * p) 4)
      let prev := if cause == 1 then stored else s.rd .PT_EPOCH 0 p
      let next := (prev + 1) % 2 ^ 32
      let waiting := (s.aux.recs.filter fun r => r.part == p).length
      let last := if cause == 1 then v else (s.rd .PT_SEQ 0 p + waiting + 2 ^ 64 - 1) % 2 ^ 64
      .all [
        partTake p,
        .set .PT_EPOCH 0 p next,
        .cfgPut (stateBase + 4 * p) (toLe 4 next),
        .get fun t => handRecord { t.blankRec p recEpoch 0 with
          epoch := next, toAll := true, payload := epochPayload prev cause (cause == 1) last },
        .set .PT_STATE 0 p 2,
        leaveSafe p]

/-! ### Row tests (16 R696, R697) -/

/-- A row with the bytes of a range laid over it. -/
def overlay (a : Nat) (row : List Byte) (at_ : Nat) (bs : List Byte) : List Byte :=
  row.zipIdx.map fun (p : Byte × Nat) => if at_ ≤ a + p.2 ∧ a + p.2 < at_ + bs.length then bs.getD (a + p.2 - at_) 0 else p.1

/-- A row as the sections that meet it define it, laid over `row`. -/
def overSections (i : Image) (a : Nat) : List Section → List Byte → M (List Byte)
  | [], row => pure row
  | x :: xs, row => do
    let s ← M.state
    let bs ← sectionBytes i x
    overSections i a xs (overlay a row (s.sectionAddr x) (bs.getD []))

/-- A row as the image defines it, zero elsewhere (R697). -/
def imageRow (a : Nat) : M (List Byte) := do
  let s ← M.state
  match s.aux.image with
  | none => pure (List.replicate 64 0)
  | some i => overSections i a ((s.memSections i).filter fun x => rangesMeet a 64 (s.sectionAddr x) x.len) (List.replicate 64 0)

/-- A vault segment is retired: it is held OFF without retention, and the partitions that reach it restart (R693, R694, R697). -/
def retireSegment (time die k off : Nat) : Act :=
  let seg := off / (2 * mib)
  .get fun s => .all [
    .upd .FLT_RETIRED_SEG die 0 fun v => putBit v (16 * k + seg) true,
    setShutState die (.vault k) seg 2,
    markLost die (.vault k) seg,
    zeroRange (vaultAddr die k (seg * (2 * mib))) (2 * mib),
    faultRecordAt time die .vaultRow 3 4 (16 * k + seg) ((s.partOfSegment die k seg).getD 0xFF) off,
    .each (s.partsOnSegment die k seg) requestPartRestart]

/-- A row that fails its test fences its core or retires its segment (R697). -/
def rowFails (time a : Nat) : Act :=
  match placeOf (addrOff a) with
  | .store c o => fenceCoreAt time (addrDie a) c .storeRow o
  | .vault k o => retireSegment time (addrDie a) k o
  | .hbm _ _ => .nop
  | .regs _ => .nop
  | .nowhere => .nop

/-- The fault of a row is recorded as counted (R697). -/
def rowCounted (time a : Nat) : Act :=
  .get fun s =>
    match placeOf (addrOff a) with
    | .store c o => faultRecordAt time (addrDie a) .storeRow 1 0 c ((s.partOfCore (addrDie a) c).getD 0xFF) o
    | .vault k o =>
      let seg := o / (2 * mib)
      faultRecordAt time (addrDie a) .vaultRow 3 0 (16 * k + seg) ((s.partOfSegment (addrDie a) k seg).getD 0xFF) o
    | .hbm _ _ => .nop
    | .regs _ => .nop
    | .nowhere => .nop

/-- A row that passes its test is written again; its fault is recorded as counted (R697). -/
def rowPasses (time a : Nat) : Act := (imageRow a).then fun row => .seq (keeperWrite a (row.toOption.getD [])) (rowCounted time a)

/-- The rows that faults have named and that the restart covers are tested; `failing` are those that fail (R696, R697). -/
def rowTests (failing : List Nat) (covers : State → Nat → Bool) : Act :=
  .get fun s => .each (s.aux.rowTests.filter fun r => covers s r.1) fun r => .seq
    (.aux fun y => { y with rowTests := y.rowTests.filter fun q => q.1 != r.1 })
    (if failing.contains r.1 then rowFails r.2 r.1 else rowPasses r.2 r.1)

/-! ### Verification (18 R773) -/

/-- A section in HBM. -/
def State.inHbm (s : State) (x : Section) : Bool :=
  match placeOf (addrOff (s.sectionAddr x)) with
  | .hbm _ _ => true
  | .vault _ _ => false
  | .store _ _ => false
  | .regs _ => false
  | .nowhere => false

/-- An HBM section is read again from the store of images (R773, 17 R720). -/
def rereadSection (i : Image) (x : Section) : Act :=
  .get fun s =>
    match s.plainOf i x with
    | some bs => keeperWrite (s.sectionAddr x) bs
    | none => requestColdStart

/-- A kept section is verified by its hash: one of a store or vault that differs starts a cold start, one of HBM is read again. What
cannot be read (a group that is OFF, a row that fails its check) is not kept, or meets its own fault. -/
def verifySection (i : Image) (x : Section) : Act :=
  .get fun s => (unitRead (s.sectionAddr x) x.len).then fun r =>
    match r with
    | .ok bs => if Config.sha384 bs == x.hash then .nop else if s.inHbm x then rereadSection i x else requestColdStart
    | .error _ => .when (s.inHbm x) (rereadSection i x)

/-- The kept sections of the chosen partitions are verified, adaptable ones excepted. -/
def verifySections (i : Image) (part : Nat → Bool) : Act :=
  .get fun s => .each ((s.memSections i).filter fun x => !bit x.sflags 0 && part x.part) (verifySection i)

/-- What follows unless a cold start has been requested: it absorbs the restart (18 R770). -/
def unlessCold (a : Act) : Act := .get fun s => .when (!s.on .I_RESTART_COLD 0) a

/-- The salts of grids are as they were before the Keeper wrote sections again (18 R771). -/
def restoreSalts : Act :=
  .get fun s => .each s.aux.salts fun q => .get fun t => .when (t.le (q.1 + 40) 8 != q.2) (keeperWrite (q.1 + 40) (toLe 8 q.2))

/-! ### Row repair (16 R703 to R705) -/

/-- A class by its code, of those that ask for a row repair. -/
def repairClass (code : Nat) : FaultClass := if code == 7 then .hbmCeRow else .hbmUe

/-- One row is repaired, or recorded with NO_SPARE when the stack has no spare row left, which the spec leaves to the stack. Words
that were uncorrectable stay so until they are written whole; granules that the image defines are written from the store of images
by the verification that follows. -/
def repairRow (q : Nat × Nat) : Act :=
  let die := addrDie q.1
  let stack := addrOff q.1 / stackBytes
  let off := addrOff q.1 % stackBytes
  .free fun v =>
    if v % 2 == 1 then faultRecord die (repairClass q.2) 4 6 stack 0xFF off
    else faultRecord die .noSpare 4 11 stack 0xFF off

/-- At most 16 rows are repaired, in order of fault sequence. -/
def repairRows : Act :=
  .get fun s => .seq (.aux fun y => { y with repairs := y.repairs.drop 16 }) (.each (s.aux.repairs.take 16) repairRow)

/-! ### Partition restart (18 R771, R775) -/

/-- Physical cores of a partition, with their dies. -/
def State.coresOf (s : State) (p : Nat) : List (Nat × Nat) :=
  s.dieList.flatMap fun d => ((List.range 32).filter fun l => s.on .HG_VALID d l && s.rd .HG_PART d l == p).map fun l => (d, s.physCore d l)

/-- A row of a core or a vault segment that the partition holds. -/
def State.rowOfPart (s : State) (p a : Nat) : Bool :=
  match placeOf (addrOff a) with
  | .store c _ => (s.coresOf p).contains (addrDie a, c)
  | .vault k o => (s.partsOnSegment (addrDie a) k (o / (2 * mib))).contains p
  | .hbm _ _ => false
  | .regs _ => false
  | .nowhere => false

/-- Register-window offsets of triggers, channels and decode classes and of the registers that commit them (18 R771). -/
def jobRegs (off : Nat) : Bool :=
  decide (0xC0800 ≤ off ∧ off < 0xC0804) || decide (0xC1000 ≤ off ∧ off < 0xC3000) || decide (0xC4000 ≤ off ∧ off < 0xC5000)

/-- A partition restart: its units are withdrawn under the old epoch, its cores reset, its rows tested, its sections verified, its
variant fitted, its adaptable layers and its job registers rewritten, and it starts again. -/
def partitionRestart (i : Image) (p : Nat) (failing : List Nat) : Act :=
  .get fun s => .all [
    withdrawUnits p,
    .each (s.coresOf p) fun q => resetCore q.1 q.2,
    rowTests failing fun t a => t.rowOfPart p a,
    verifySections i fun q => q == p,
    rowTests failing fun t a => t.rowOfPart p a,
    unlessCold (.all [
      fitPartition i p true,
      rewriteAdaptable i fun q => q == p,
      restoreSalts,
      setDomains,
      applySections i (fun q => q == p) jobRegs,
      .set .I_RESTART_PART 0 p 0,
      startPartition p 3])]

/-- PARTITION_RESTART: the requested restart of a partition; `failing` are the rows that fail their test. -/
def execPartitionRestart (part : Nat) (failing : List Nat) (s : State) : Host.Outcome State Fault Refusal :=
  (match s.aux.image with
   | none => Act.nop
   | some i => Act.when (s.on .I_RESTART_PART 0 part) (partitionRestart i part failing)).done s

/-! ### Package warm restart (18 R771, R774) -/

/-- Registers of the domains that a warm restart resets: the fabric with its mullions, and the cores; fences, shutters and the
predictors' fallback are kept (18 R751, R771, 09 R417). -/
def Fld.resetWarm (f : Fld) : Bool :=
  (decide (0x60000 ≤ f.info.base ∧ f.info.base < 0x70000) || decide (0x100000 ≤ f.info.base) ||
    [Fld.I_PRD_PREDICTS, .I_PRD_KEEP].contains f) &&
  !([Fld.CORE_STATUS_FENCED, .PRD_FALLBACK, .STG_SHUT_W, .STG_SHUT_A, .STG_SHUT_P, .STG_STATE_W, .STG_STATE_A, .STG_STATE_P].contains f)

/-- Register-window offsets of those domains. -/
def warmRegs (off : Nat) : Bool := decide (0x60000 ≤ off ∧ off < 0x70000) || decide (0x100000 ≤ off)

/-- Every Ignov port that the grade links trains (18 R751, 12 R556). -/
def retrainAll : Act :=
  .get fun s => .each s.dieList fun d => .upTo 4 fun p =>
    .when (s.portUsed d p) (.seq (ignTrain d p) (.set .I_IGN_DOWN_TICK d p 0))

/-- Domains are on again, and HBM leaves self-refresh (18 R751, R774). -/
def wakeDomains : Act :=
  .get fun s => .each s.dieList fun d => .seq (.set .PWR_DOM_ON d 0 (s.runDomains d))
    (.upTo 2 fun st => .when (s.rd .HBM_STATUS_STATE d st == 2) (.set .HBM_STATUS_STATE d st 1))

/-- A package warm restart. -/
def warmRestart (i : Image) (failing : List Nat) : Act :=
  .all [
    .upTo 8 withdrawUnits,
    .resetFlds fun f _ _ => f.resetWarm,
    .aux fun y => { y with semAdds := [], credits := [], returning := [] },
    resetCores,
    keeperMullions,
    wakeDomains,
    repairRows,
    rowTests failing fun _ _ => true,
    verifySections i fun _ => true,
    rowTests failing fun _ _ => true,
    unlessCold (.all [
      fitAll i true,
      rewriteAdaptable i fun _ => true,
      restoreSalts,
      setDomains,
      applySections i (fun _ => true) warmRegs,
      retrainAll,
      .set .PKG_STATE 0 0 0,
      .set .I_RESTART_WARM 0 0 0,
      .upTo 8 fun p => .set .I_RESTART_PART 0 p 0,
      .each i.parts fun p => startPartition p 2])]

/-- PACKAGE_WARM_RESTART: the requested warm restart; `failing` are the rows that fail their test. -/
def execPackageWarmRestart (failing : List Nat) (s : State) : Host.Outcome State Fault Refusal :=
  (match s.aux.image with
   | none => Act.nop
   | some i => Act.when (s.on .I_RESTART_WARM 0) (warmRestart i failing)).done s

/-! ### Cold start (17 R716 to R720, 18 R771) -/

/-- The fence or retirement that a record of the log names is lifted (17 R739, 16 R695). -/
def liftFence (fseq : Nat) : Act :=
  .get fun s =>
    let b := s.cfgBytes (logBase + fseq % logSlots * 32) 32
    let die := byteAt b 14
    let unit := leAt b 16 2
    .when (leAt b 8 4 == fseq && leAt b 28 4 == crc32c (b.take 28))
      (match byteAt b 15 with
       | 1 => if unit < 64 then .upd .FLT_FENCED_ENG_LO die 0 fun v => putBit v unit false
              else .upd .FLT_FENCED_ENG_HI die 0 fun v => putBit v (unit - 64) false
       | 2 => .upd .FLT_FENCED_CORES die 0 fun v => putBit v unit false
       | 3 => .upd .FLT_FENCED_CORES die 0 fun v => putBits v (4 * unit) 4 0
       | 4 => .upd .FLT_RETIRED_SEG die 0 fun v => putBit v unit false
       | _ => .nop)

/-- The lifts that the owner has asked for take effect. -/
def applyLifts : Act := .get fun s => .seq (.each s.aux.lifts liftFence) (.aux fun y => { y with lifts := [] })

/-- Retired segments are held OFF (16 R694). -/
def holdRetired : Act :=
  .get fun s => .each s.dieList fun d => .upTo 64 fun n =>
    .when (bit (s.rd .FLT_RETIRED_SEG d) n) (.seq (setShutState d (.vault (n / 16)) (n % 16) 2) (markLost d (.vault (n / 16)) (n % 16)))

/-- A fresh nonce of signed commands (17 R738). -/
def newNonce : Act := .upTo 12 fun w => .random fun v => .set .TR_NONCE 0 w v

/-- The erasure of the return procedure: key area, both directory copies, both slots, and every memory location (17 R747). -/
def eraseAll : Act :=
  .all [
    .eff (.erase fun a => decide (a < stateBase) || decide (slotsBase ≤ a)),
    .eff (.clear fun _ => true)]

/-- Rows that wait for a test when a cold start absorbs the restart that would hold it (18 R770) are tested in the cold start, before
anything is fitted; whether a row passes is the hardware's (16 R695 to R697; log entry 42). -/
def coldRowTests : Act :=
  .get fun s => .each s.aux.rowTests fun r => .free fun v => .seq
    (.aux fun y => { y with rowTests := y.rowTests.filter fun q => q.1 != r.1 })
    (if v % 2 == 1 then rowFails r.2 r.1 else rowCounted r.2 r.1)

/-- HBM is trained on every die, once, and the hash masks are drawn (12 R539, 17 R719); then the rows that wait for it are repaired
(16 R703). -/
def trainHbm : Act :=
  .get fun s => .when (s.dieList.any fun d => s.dieUp d && (List.range 2).any fun st => s.rd .HBM_STATUS_STATE d st == 0) (.seq
   (.each s.dieList fun d => .upTo 2 fun st => .when (s.dieUp d && s.rd .HBM_STATUS_STATE d st == 0)
    (.seq (.upTo 4 fun m => .random fun v => .set .HBM_HASH_M d (4 * st + m) v) (.set .HBM_STATUS_STATE d st 1)))
   repairRows)

/-- The status of a boot attempt of a slot. -/
def slotStatus (k st : Nat) : Act := .set (if k == 0 then .SEC_STATUS_A else .SEC_STATUS_B) 0 0 st

/-- Ignov ports as the grade wires them (12 R559). -/
def ignPorts : Act :=
  .get fun s => .each s.dieList fun d => .upTo 4 fun p =>
    match ignPeer s.dies d p with
    | none => .set .IGN_STATUS_UNUSED d p 1
    | some (e, q) => .all [
        .set .IGN_STATUS_STATE d p 1,
        .set .IGN_STATUS_PEER_DIE d p e,
        .set .IGN_STATUS_PEER_PORT d p q]

/-- A copy of every logical-core store section goes to the top of HBM stack B (18 R772). -/
def copyStores (i : Image) : Act :=
  .get fun s => .each ((s.memSections i).filter fun x => x.kind == 3) fun x =>
    match s.plainOf i x with
    | some bs => keeperWrite x.copyAddr bs
    | none => .nop

/-- A grid takes a salt, which the Keeper keeps over the restarts that are not cold (04 R180, R181, 18 R771). -/
def putSalt (a v : Nat) (k : Bool → Act) : Act :=
  keeperTry (a + 40) (toLe 8 v) fun ok =>
    .seq (.when ok (.aux fun y => { y with salts := (a, v % 2 ^ 64) :: y.salts.filter fun q => q.1 != a })) (k ok)

/-- The salts of the image's grids are drawn, but for those that are pinned (04 R180). -/
def saltGrids (i : Image) : Act :=
  .each i.grids fun a => (keeperGet (a + 23) 1).then fun r =>
    match r with
    | .ok b => .when (!bit (byteAt b 0) 0) (.random fun v => putSalt a v fun _ => .nop)
    | .error _ => .nop

/-- An image that has passed its checks is loaded and its partitions start. -/
def startImage (k : Nat) (i : Image) : Act :=
  .all [
    slotStatus k stOk,
    .set .SEC_SLOT 0 0 k,
    .aux fun y => { y with image := some i },
    copyStores i,
    .get fun s => .each (s.memSections i) (writeSection i),
    .upTo 8 fun p => .seq (.set .PT_SAFETY 0 p (b2n (bit i.partSafety p))) (.setAc .PT_SAFETY 0 p (b2n (bit i.partSafety p))),
    applySections i (fun _ => true) fun _ => true,
    saltGrids i,
    .set .SEC_STATE 0 0 1,
    .set .I_IMAGE_RUNS 0 0 1,
    setDomains,
    .each i.parts fun p => startPartition p 1]

/-- A slot is booted: its image is checked, its sections are read and checked, and it starts; a failure is recorded and `next`
follows (R718, R727). -/
def bootSlot (d : Directory) (k : Nat) (next : Act) : Act :=
  .get fun s =>
    match s.checkImage (d.base k) (d.size k) with
    | .error st => .seq (slotStatus k st) next
    | .ok i => .all [
        trainHbm,
        .aux fun y => { y with image := some i },
        fitAll i false,
        .get fun t =>
          match t.finishImage i t.sectionUsed with
          | .ok j => startImage k j
          | .error st => .all [
              slotStatus k st,
              .upTo 8 releaseFit,
              .aux fun y => { y with image := none },
              next]]

/-- Both slots have failed, or there is no directory: the Keeper answers the transom alone (R718). -/
def enterRecovery : Act := .seq (.set .SEC_STATE 0 0 2) setDomains

/-- The boot ROM boots a slot, and the other one when it fails. -/
def bootFrom (d : Directory) (k trial : Nat) : Act :=
  .seq (.set .SEC_TRIAL 0 0 trial) (bootSlot d k (bootSlot d (1 - k) enterRecovery))

/-- The directory decides the slot; a trial costs a try, and without one left it is over (R717). -/
def bootDirectory (d : Directory) : Act :=
  let k := if d.active == 0 then 0 else 1
  if d.trial == 0 then bootFrom d k 0
  else if d.tries == 0 then .seq (writeDirectory { d with active := 1 - k, trial := 0 }) (bootFrom d (1 - k) 0)
  else .seq (writeDirectory { d with tries := d.tries - 1 }) (bootFrom d k 1)

/-- The boot ROM (R716, R748, R749). -/
def boot : Act :=
  .get fun s =>
    if s.decommissioned then .all [eraseAll, .set .SEC_STATE 0 0 3, setDomains]
    else
      match s.directory with
      | none => enterRecovery
      | some d => bootDirectory d

/-- A cold start: cold reset, lifts, and the boot ROM. -/
def coldStart : Act :=
  .all [
    applyLifts,
    coldReset,
    .set .I_HELD_COLD 0 0 0,
    .set .I_RESTART_COLD 0 0 0,
    coldRowTests,
    holdRetired,
    newNonce,
    keeperMullions,
    ignPorts,
    boot]

/-- COLD_START: the cold start that a power-up, a cold reset, a request or an escalation has asked for (18 R770). A part stopped by a
thermal trip waits for a cold reset (18 R763). -/
def execColdStart (s : State) : Host.Outcome State Fault Refusal :=
  (Act.when (s.on .I_RESTART_COLD 0 && !s.on .I_TRIPPED 0) coldStart).done s

end Sys2Proof.Machine
end

