-- ==== Sys2Proof/Machine/Links.lean ====
section
/-! DEFINITION. Ethernet links, MACsec keys, and the Keeper's resolution and answers of link-layer addresses (13 R593, 17 R742 to
R745, 19 R787 to R797). -/

namespace Sys2Proof.Machine

/-! ### The state of a port: the management port has no registers (19 R787) -/

/-- The port has a link. -/
def State.linkOn (s : State) (die port : Nat) : Bool :=
  if port == 2 then die == 0 && s.on .I_MG_LINK 0 else s.on .ETH_STATUS_LINK die port

/-- A SAK is installed and the port passes frames. -/
def State.secureOn (s : State) (die port : Nat) : Bool :=
  if port == 2 then die == 0 && s.on .I_MG_SECURE 0 else s.on .ETH_STATUS_SECURE die port

/-- Live peers of the port. -/
def State.livePeers (s : State) (die port : Nat) : Nat := if port == 2 then s.rd .I_MG_PEERS 0 else s.rd .ETH_STATUS_PEERS die port

/-- The port's link is up or down; its other fields read 0 until they say more (R827). -/
def setLink (die port link speed : Nat) : Act :=
  .all [
    if port == 2 then .all [.set .I_MG_LINK 0 0 link, .set .I_MG_SECURE 0 0 0, .set .I_MG_PEERS 0 0 0]
    else .seq (ethDown die port) (.seq (.set .ETH_STATUS_LINK die port link) (.set .ETH_STATUS_SPEED die port speed)),
    .set .I_ETH_SAK die port 0,
    .set .I_MKA_SILENT die port 0]

/-- The port passes frames, or no longer does. -/
def setSecure (die port b : Nat) : Act := if port == 2 then .set .I_MG_SECURE 0 0 b else .set .ETH_STATUS_SECURE die port b

/-- The live-peer count of the port, which saturates (R787). -/
def setPeers (die port n : Nat) : Act :=
  if port == 2 then .set .I_MG_PEERS 0 0 (min n 255) else .set .ETH_STATUS_PEERS die port (min n 255)

/-- The port exists and runs: its network entry enables it, and without an image the management port runs alone (R790, R797). -/
def State.portRuns (s : State) (die port : Nat) : Bool :=
  s.dieThere die && portThere die port && s.rd .PKG_STATE 0 != 2 && !s.on .I_HELD_COLD 0 &&
  if s.aux.image.isSome then (s.portEntry die port).any fun p => p.mode != 2 else port == 2

/-- ETH_LINK_UP: the link runs at the rate of the port's mode; the records that wait go out once the port passes frames (13 R593,
19 R790, R827). -/
def execEthLinkUp (die port : Nat) (s : State) : Host.Outcome State Fault Refusal :=
  (Act.when (s.portRuns die port) (setLink die port 1 (b2n ((s.portEntry die port).any fun p => p.mode == 0)))).done s

/-- ETH_LINK_DOWN: records wait (13 R593, 19 R827). -/
def execEthLinkDown (die port : Nat) (s : State) : Host.Outcome State Fault Refusal :=
  (Act.when (s.dieThere die && portThere die port) (setLink die port 0 0)).done s

/-! ### MACsec (17 R742 to R745) -/

/-- A new SAK is in use on a port. -/
def nextSak (die port : Nat) : Act := .inc .I_ETH_SAK die port

/-- MKA_LIVE_PEER: the port's MKA now has this many live peers; with the first one a SAK is installed, drawn from the random source when
the device is the key server, and the port passes protected frames (R742 to R745). A port without a CAK runs no MKA (R743). -/
def execMkaLivePeer (die port peers : Nat) (keyServer : Bool) (s : State) : Host.Outcome State Fault Refusal :=
  (Act.when (s.dieThere die && s.linkOn die port && s.hasCak die port) (.all [
    setPeers die port peers,
    .when (peers != 0 && !s.secureOn die port) (.all [
      .when keyServer (.random fun _ => .nop),
      nextSak die port,
      setSecure die port 1,
      .set .I_MKA_SILENT die port 0])])).done s

/-- SAK_REKEY: the key server draws and distributes a new SAK (R744). -/
def execSakRekey (die port : Nat) (s : State) : Host.Outcome State Fault Refusal :=
  (Act.when (s.dieThere die && s.secureOn die port) (.random fun _ => nextSak die port)).done s

/-- MKA_PEER_TIMEOUT: the live-peer list has stayed empty for 6 s; the port passes no frame, and source 0x0A2 is raised (R745). -/
def execMkaPeerTimeout (die port : Nat) (s : State) : Host.Outcome State Fault Refusal :=
  (Act.when (s.dieThere die && s.linkOn die port && s.hasCak die port && s.livePeers die port == 0 && !s.on .I_MKA_SILENT die port)
    (.all [
      setSecure die port 0,
      .set .I_MKA_SILENT die port 1,
      bellRing die 0x0A2])).done s

/-! ### Frames of the port's own traffic (19 R788, R793) -/

/-- The port passes a frame of this kind of traffic: protected, or at a management port without a CAK (R742, R797). -/
def State.framesPass (s : State) (die port : Nat) : Bool :=
  s.linkOn die port && (s.secureOn die port || port == 2 && !s.hasCak die port)

/-- An Ethernet frame of the port's own traffic, with the port's VLAN tag. -/
def State.ownFrame (s : State) (die port dst etype : Nat) (body : List Byte) : List Byte :=
  s.frameOf die port dst ((s.portEntry die port).bind fun p => if bit p.flags 4 then some p.vlan else none) etype body

/-- A frame leaves a port. -/
def sendFrame (die port : Nat) (f : List Byte) : Act :=
  .seq (.when (port != 2) (.inc .ETH_TX_FRAMES die port)) (.out (.frame die port f))

/-- Offset of a frame's payload. -/
def payloadAt (f : List Byte) : Nat := if beAt f 12 2 == 0x8100 then 18 else 14

/-- The Keeper takes a frame from its queue. -/
def takeFrame (die : Nat) (frame : List Byte) : Act :=
  .aux fun a =>
    match a.keeperQueue.find? fun q => q.die == die && q.frame == frame with
    | some q => { a with keeperQueue := a.keeperQueue.erase q }
    | none => a

/-- The body of an ARP message over Ethernet and IPv4 (IETF RFC 826). -/
def arpBody (op sha spa tha tpa : Nat) : List Byte :=
  toBe 2 1 ++ toBe 2 0x0800 ++ toBe 1 6 ++ toBe 1 4 ++ toBe 2 op ++ toBe 6 sha ++ toBe 4 spa ++ toBe 6 tha ++ toBe 4 tpa

/-- The ARP request in a frame asks for an address. -/
def arpAsks (f : List Byte) (addr : Nat) : Bool :=
  let a := f.drop (payloadAt f)
  beAt f (payloadAt f - 2) 2 == 0x0806 && decide (28 ≤ a.length) && a.take 8 == toBe 2 1 ++ toBe 2 0x0800 ++ toBe 1 6 ++ toBe 1 4 ++ toBe 2 1 &&
  beAt a 24 4 == addr

/-- ARP_REQUEST: the Keeper answers for NP_IPV4 (R793). -/
def execArpRequest (die port : Nat) (frame : List Byte) (s : State) : Host.Outcome State Fault Refusal :=
  let a := frame.drop (payloadAt frame)
  (Act.when (s.dieThere die) (.seq (takeFrame die frame) (
    match s.portEntry die port with
    | none => .nop
    | some p => .when (bit p.flags 2 && s.framesPass die port && s.macForPort die port frame && arpAsks frame p.ipv4)
        (sendFrame die port (s.ownFrame die port (beAt a 8 6) 0x0806
          (arpBody 2 (s.macOf die port) p.ipv4 (beAt a 8 6) (beAt a 14 4))))))).done s

/-- An ICMPv6 message in an IPv6 packet with hop limit 255 and its checksum. -/
def icmp6Packet (src dst : Nat) (msg : List Byte) : List Byte :=
  let sum := wordSum (toBe 16 src ++ toBe 16 dst) + msg.length + 58 + wordSum msg
  let c := checkOf sum
  toBe 4 0x60000000 ++ toBe 2 msg.length ++ toBe 1 58 ++ toBe 1 255 ++ toBe 16 src ++ toBe 16 dst ++ msg.take 2 ++ toBe 2 c ++ msg.drop 4

/-- Addresses for which the port answers Neighbor Solicitations (R793). -/
def State.answersFor (s : State) (die port addr : Nat) : Bool :=
  addr == linkLocal (s.macOf die port) || (s.portEntry die port).any fun p => bit p.flags 3 && p.ipv6 == addr

/-- The target of the valid Neighbor Solicitation in a frame (IETF RFC 4861); none for any other frame. -/
def solicited (f : List Byte) : Option Nat :=
  let ip := f.drop (payloadAt f)
  let msg := (ip.drop 40).take (beAt ip 4 2)
  let sum := wordSum (cut ip 8 32) + msg.length + 58 + wordSum msg
  if beAt f (payloadAt f - 2) 2 == 0x86DD && bits (byteAt ip 0) 4 4 == 6 && byteAt ip 6 == 58 && byteAt ip 7 == 255 &&
      decide (24 ≤ msg.length) && byteAt msg 0 == 135 && byteAt msg 1 == 0 && checksumOk sum && msg.length == beAt ip 4 2
  then some (beAt msg 8 16) else none

/-- All nodes of the link. -/
def allNodes : Nat := 0xFF02 * 2 ^ 112 + 1

/-- NEIGHBOR_SOLICITATION: the Keeper answers for NP_IPV6 and the link-local address (R793): to the asker, or to all nodes when it gave
no address. -/
def execNeighborSolicitation (die port : Nat) (frame : List Byte) (s : State) : Host.Outcome State Fault Refusal :=
  let asker := beAt (frame.drop (payloadAt frame)) 8 16
  (Act.when (s.dieThere die) (.seq (takeFrame die frame) (
    match solicited frame with
    | none => .nop
    | some t =>
      let flags := if asker == 0 then 0x20000000 else 0x60000000
      let msg := toBe 1 136 ++ toBe 3 0 ++ toBe 4 flags ++ toBe 16 t ++ toBe 1 2 ++ toBe 1 1 ++ toBe 6 (s.macOf die port)
      .when (s.answersFor die port t && s.framesPass die port && s.macForPort die port frame)
        (sendFrame die port (s.ownFrame die port (if asker == 0 then 0x333300000001 else beAt frame 6 6) 0x86DD
          (icmp6Packet t (if asker == 0 then allNodes else asker) msg)))))).done s

/-! ### Next hops (R794, R795) -/

/-- A peer of the port whose next hop is an address: its IP version. Peers are those of valid channels and of safety-frame entries
(R794). -/
def State.hopVersion (s : State) (die port addr : Nat) : Option Bool :=
  let hop := fun v6 peer => ((s.portEntry die port).bind fun p => p.nextHop v6 peer) == some addr
  let chans := (List.range 64).filter fun c =>
    s.acOn .CH_VALID 0 c && s.ac .CH_DIE 0 c == die && s.ac .CH_PORT 0 c == port &&
    hop (s.acOn .CH_IPV6 0 c) (s.addr4 .CH_PEER_ADDR 0 c)
  let safety := (List.range 8).filter fun p =>
    s.acOn .SF_EN die p && s.ac .SF_PORT die p == port && hop (s.acOn .SF_IPV6 die p) (s.addr4 .SF_PEER_ADDR die p)
  match chans, safety with
  | c :: _, _ => some (s.acOn .CH_IPV6 0 c)
  | [], p :: _ => some (s.acOn .SF_IPV6 die p)
  | [], [] => none

/-- A neighbour entry gives the address (R794). -/
def State.fixedHop (s : State) (die port addr : Nat) : Bool :=
  s.aux.image.any fun i => i.peers.any fun n => n.die == die && n.port == port && n.addr == addr

/-- A hop of a port. -/
def Hop.is (h : Hop) (die port addr : Nat) : Bool := h.die == die && h.port == port && h.addr == addr

/-- NEXT_HOP_ANSWER: an answer resolves a next hop that has no neighbour entry (R794, R795). -/
def execNextHopAnswer (die port addr mac : Nat) (s : State) : Host.Outcome State Fault Refusal :=
  (match s.hopVersion die port addr with
   | none => Act.nop
   | some v6 => Act.when (s.dieThere die && s.framesPass die port && !s.fixedHop die port addr)
       (.aux fun a => { a with
         hops := ⟨die, port, v6, addr, some mac, 0⟩ :: a.hops.filter fun h => !h.is die port addr })).done s

/-- The question for a next hop's address: an ARP request, or a Neighbor Solicitation to its solicited-node group (R794). -/
def State.solicitation (s : State) (h : Hop) : List Byte :=
  let mac := s.macOf h.die h.port
  if h.v6 then
    let group := 0xFF02 * 2 ^ 112 + 0x1FF * 2 ^ 24 + h.addr % 2 ^ 24
    let msg := toBe 1 135 ++ toBe 7 0 ++ toBe 16 h.addr ++ toBe 1 1 ++ toBe 1 1 ++ toBe 6 mac
    s.ownFrame h.die h.port (0x3333 * 2 ^ 32 + group % 2 ^ 32) 0x86DD (icmp6Packet ((s.sourceAddr h.die h.port true h.addr).getD 0) group msg)
  else s.ownFrame h.die h.port (2 ^ 48 - 1) 0x0806 (arpBody 1 mac ((s.sourceAddr h.die h.port false h.addr).getD 0) 0 h.addr)

/-- A refresh of a hop: an answer keeps it, and the third miss in a row loses it. -/
def Hop.refreshed (h : Hop) (answered : Bool) : Hop :=
  if answered then { h with misses := 0 }
  else { h with misses := h.misses + 1, mac := if 2 ≤ h.misses then none else h.mac }

/-- NEXT_HOP_REFRESH: the Keeper asks again for a resolved next hop; a loss raises source 0x0A3 once (R795). -/
def execNextHopRefresh (die port addr : Nat) (answered : Bool) (s : State) : Host.Outcome State Fault Refusal :=
  (match s.aux.hops.find? fun (h : Hop) => h.is die port addr && h.mac.isSome with
   | none => Act.nop
   | some h => Act.all [
       .when (s.framesPass die port) (sendFrame die port (s.solicitation h)),
       .aux fun a => { a with hops := a.hops.map fun (k : Hop) => if k.is die port addr then k.refreshed answered else k },
       .when (h.refreshed answered).mac.isNone (bellRing die 0x0A3)]).done s

end Sys2Proof.Machine
end

