-- ==== Sys2Proof/Machine/Publish.lean ====
section
/-! DEFINITION. PUBLISH (10 R462 to R464, 13 R579, R583 to R589, 09 R397, R401). -/

namespace Sys2Proof.Machine

/-- Error codes of PUBLISH (10 R472). -/
def codePubTwice : Nat := 0x28
def codePubNoStep : Nat := 0x29

/-- Where the copy in an attachment lies in its source, as offset and length: grid descriptor in two parts, convolution descriptor,
rule book (13 R584). -/
def summaryParts : Nat → List (Nat × Nat)
  | 1 => [(80, 4), (96, 32)]
  | 2 => [(44, 20)]
  | _ => [(0, 40)]

/-- An attachment entry of 64 bytes (13 R584). -/
def Cx.attachment (x : Cx) (kind addr : Nat) : M (List Byte) := do
  let parts ← M.collect (summaryParts kind) fun p => x.readAt (addr + p.1) p.2
  let copy := parts.flatten
  pure (toLe 8 kind ++ toLe 8 addr ++ copy ++ List.replicate (48 - copy.length) 0)

/-- The attachments of a PUBLISH: a count of at most 16, then entries (10 R444). -/
def Cx.attachments (x : Cx) : M (List (List Byte)) := do
  let off ← x.local 4 4 1
  let n ← x.localLe off 4
  needField (decide (n ≤ 16)) 4 0
  let _ ← x.local 4 (4 + 8 * n) 1
  M.collect (List.range n) fun i => do
    let e ← x.localLe (off + 4 + 8 * i) 8
    let kind := bits e 48 8
    needField (decide (1 ≤ kind ∧ kind ≤ 3)) 4 0
    x.attachment kind (bits e 0 48)

/-- An attached grid summary has non-zero GFLAGS (13 R583, 04 R203). -/
def attachLosses (a : List (List Byte)) : Bool := a.any fun e => byteAt e 0 == 1 && byteAt e 49 != 0

/-- OR of the CTX_CFLAGS of a job's lists (13 R583). -/
def State.jobCflags (s : State) (j : Job) : Nat :=
  joinFlags ((j.lists.filter fun l => l.state != 0).map fun l => s.rd .CTX_CFLAGS l.die (ctxIdx l.phys j.ctx))

/-- An engine on which a list of a safety-partition job issued a pass was unproven since the job's start (15 R665). -/
def State.unverified (s : State) (j : Job) : Bool :=
  s.acOn .PT_SAFETY 0 j.part && j.engines.any fun e => s.unprovenSince e.1 e.2 j.accepted

/-- A record that a PUBLISH hands over has what every PUBLISH adds to it. -/
def publishedRec (x : Cx) (r : Rec) (cflags : Nat) (attach : List (List Byte)) (payload : List Byte) : Rec :=
  { r with
    appType := x.f 5 0 8
    cflags := cflags
    attach := attach
    payload := payload
    rflags := r.rflags ||| (bitIf (attachLosses attach) 2 + bitIf (cflags &&& flagContErr != 0) 3) }

/-- The record fits its slot (13 R588). -/
def needSlot (s : State) (r : Rec) : M Unit := needField (decide (r.size ≤ s.slotBytes r.part)) 3 0

/-- The payload of a PUBLISH. -/
def Cx.payload (x : Cx) : M (List Byte) := do
  let a ← x.pa 1 (x.w 3) 1
  x.readAt a (x.w 3)

/-- PUBLISH RESULT of a job's list. -/
def publishResult (x : Cx) (id : Nat) (j : Job) : M (Option Nat) := do
  let payload ← x.payload
  let attach ← x.attachments
  let s ← M.state
  if j.published || j.ended then M.fail codePubTwice
  else do
    let r := publishedRec x (s.jobRec j recResult 0 j.late) (s.jobCflags j) attach payload
    let r' := { r with rflags := r.rflags ||| bitIf (s.unverified j) 1, pub := some (x.die, x.core, x.ctx, id) }
    needSlot s r'
    M.act (.seq (.job j.part j.jseq fun k => { k with published := true }) (handRecord r'))
    pure none

/-- Issue a PUBLISH once every earlier command of its context has completed (10 R462). -/
def issuePublish (die core ctx kind : Nat) (body : Cx → Nat → Job → M (Option Nat)) : Act :=
  .get fun s => .when (s.ctx die core ctx).flight.isEmpty
    (issueSeq die core ctx (fun i => isOp 0x09 i && bits i.mode 0 2 == kind) fun x id => do
      let t ← M.state
      match (t.ctx die core ctx).owner with
      | .job p j =>
        match t.job p j with
        | some job => body x id job
        | none => pure (some 0)
      | _ => pure (some 0))

/-- PUBLISH_RESULT: the job's result record goes to the job unit, and the command completes when it stands in the ring (10 R462,
R463). -/
def execPublishResult (die core ctx : Nat) (s : State) : Host.Outcome State Fault Refusal :=
  (issuePublish die core ctx 0 publishResult).done s

/-- A request's record in a step: its result when END is set for its slot, else a token (09 R397, R401). -/
def tokenRec (s : State) (d : DecReq) (ends : Bool) (jseq : Nat) : Rec :=
  { s.decRec d (if ends then recResult else recToken) 0 with
    jseq := jseq
    dueBy := if ends then s.dueBy d else none }

/-- The requests of a step's batch rows, with their row numbers (09 R395). -/
def State.stepReqs (s : State) (r : StepRun) : List (Nat × DecReq) :=
  r.rows.zipIdx.filterMap fun (p : Nat × Nat) =>
    (s.aux.decs.find? fun d => d.die == r.die && d.cls == r.cls && d.slot == some p.1 && !d.ended).map fun d => (p.2, d)

/-- Hand over the records of a step, the last of which completes the command (13 R589). -/
def handTokens (x : Cx) (id : Nat) : List Rec → Act
  | [] => .nop
  | [r] => handRecord { r with pub := some (x.die, x.core, x.ctx, id) }
  | r :: rs => .seq (handRecord r) (handTokens x id rs)

/-- PUBLISH TOKENS of a step job's list. -/
def publishTokens (x : Cx) (id : Nat) (j : Job) : M (Option Nat) := do
  let payload ← x.payload
  let attach ← x.attachments
  let desc ← x.pa 6 64 1
  let s ← M.state
  match s.aux.steps.find? fun r => r.desc == desc with
  | none => M.fail codePubNoStep
  | some r => do
    let size := payload.length / r.rows.length
    needField (payload.length % r.rows.length == 0) 3 0
    let ends ← x.readAt (desc + 48) 8
    let reqs := s.stepReqs r
    let ending := fun (p : Nat × DecReq) => bit (leNat ends) (r.rows.getD p.1 0)
    let recs := reqs.map fun p =>
      publishedRec x (tokenRec s p.2 (ending p) j.jseq) (s.jobCflags j) attach ((payload.drop (p.1 * size)).take size)
    M.each recs (needSlot s)
    M.act (.seq
      (.aux fun a => { a with decs := a.decs.map fun d =>
        if (reqs.filter ending).any fun p => p.2.ord == d.ord then { d with ended := true } else d })
      (handTokens x id recs))
    pure (if recs.isEmpty then some 0 else none)

/-- PUBLISH_TOKENS: one token or result record for each batch row of a running step (09 R397, 13 R589). -/
def execPublishTokens (die core ctx : Nat) (s : State) : Host.Outcome State Fault Refusal :=
  (issuePublish die core ctx 1 publishTokens).done s

end Sys2Proof.Machine
end

