-- ==== Sys2Proof/Machine/Ticks.lean ====
section
/-! DEFINITION. The commands that run a tick of the timebase (02 R45, R49, R51). -/

namespace Sys2Proof.Machine

/-- A tick as the whole block takes it: the time unit's, and the engines' loads that end with it (05 R224, R842). -/
def wholeTick : Act := .seq tick endReloads

/-- TIME_TICK (02 R45). -/
def execTimeTick (s : State) : Host.Outcome State Fault Refusal := wholeTick.done s

/-- TIME_STEP: the tick at which a pending step is loaded (02 R51). -/
def execTimeStep (s : State) : Host.Outcome State Fault Refusal :=
  (Act.when (s.on .TIME_STATUS_COMMIT_PENDING 0) wholeTick).done s

/-- SLEW_END: the tick at which the remaining offset lies below d (02 R49). -/
def execSlewEnd (s : State) : Host.Outcome State Fault Refusal :=
  (Act.when (s.on .TIME_STATUS_SLEWING 0 && decide (s.rd .I_SLEW_MAG 0 < s.slewStep)) wholeTick).done s

end Sys2Proof.Machine
end

