-- ==== Sys2Proof/Machine/Transom.lean ====
section
/-! DEFINITION. The transom: requests, checks, responses and the effect of each command; attestation and the return procedure (17
R732 to R741, R746 to R750). -/

namespace Sys2Proof.Machine

/-! ### Requests and responses (R735 to R738) -/

/-- A request: its command code, its payload, and whether the payload has the length that the request states, of at most 4,088 bytes. -/
structure Request where
  code : Nat
  payload : List Byte
  whole : Bool
deriving DecidableEq, Repr

/-- The request that bytes in the layout of TR_REQ spell. -/
def requestOf (bs : List Byte) : Request :=
  ⟨leAt bs 0 2, cut bs 8 (leAt bs 4 4), decide (8 + leAt bs 4 4 ≤ min bs.length 4096)⟩

/-- Words of TR_REQ, as bytes. -/
def State.trReq (s : State) (words : Nat) : List Byte := (List.range (min words 1024)).flatMap fun w => toLe 4 (s.rd .TR_REQ 0 w)

/-- Words that the host's request takes: its header and its payload. -/
def State.trWords (s : State) : Nat := 2 + (s.rd .TR_REQ 0 1 + 3) / 4

/-- UDP port of the network transom (R737, 19 R797). -/
def State.mgmtUdp (s : State) : Nat := (s.aux.image.map fun i => i.mgmtUdp).getD 47072

/-- The request that a source has sent: the host's one waits in TR_REQ; a network one reaches the management port, protected, or not at
all protected where the port has no CAK, on MGMT_UDP and with a header of TYPE 0x20 (R736, R737, R742). A package in SLEEP or stopped by a trip serves none. -/
def State.request (s : State) (src : TransomSource) : Option Request :=
  if s.rd .PKG_STATE 0 == 2 || s.on .I_TRIPPED 0 then none
  else
    match src with
    | .host => if s.rd .TR_STATE 0 == 1 then some (requestOf (s.trReq s.trWords)) else none
    | .net secured _ _ _ port dg =>
      if s.on .I_MG_LINK 0 && (if secured then s.on .I_MG_SECURE 0 else !s.hasCak 0 2) && port == s.mgmtUdp && ximundOk dg &&
          byteAt dg 3 == 0x20
      then some (requestOf (cut dg 32 (leAt dg 6 2))) else none

/-- The request came unprotected. -/
def srcOpen : TransomSource → Bool
  | .host => false
  | .net secured _ _ _ _ _ => !secured

/-- The request came over the network. -/
def srcNet : TransomSource → Bool
  | .host => false
  | .net _ _ _ _ _ _ => true

/-- The datagram of a response: a Ximund header of TYPE 0x21, then the TR_RSP layout; header fields that the spec does not give are
left open (R737; log entry 166). -/
def State.replyDatagram (s : State) (code status : Nat) (payload : List Byte) : List Byte :=
  let body := toLe 2 code ++ toLe 1 status ++ toLe 1 0 ++ toLe 4 payload.length ++ payload
  let fill := Config.replyFill body
  ximundHeader 0x21 (bits fill 0 3) (bits fill 8 6) body.length (bits fill 32 32) (bits fill 64 32) (bits fill 96 64) (s.now 0) ++ body

/-- An answer to a request (R735, R737): for the host it stands in TR_RSP before TR_STATE shows it and source 0x0A0 rings; over the
network it goes to the sender's address and port. -/
def answer (src : TransomSource) (code status : Nat) (payload : List Byte) : Act :=
  match src with
  | .net _ v6 peer remote _ _ => .get fun s => .out (.transomNet v6 peer remote (s.replyDatagram code status payload))
  | .host => .all [
      .resetFlds fun f _ _ => f == .TR_RSP,
      .set .TR_RSP 0 0 (code + status * 65536),
      .set .TR_RSP 0 1 payload.length,
      .upTo ((payload.length + 3) / 4) fun w => .set .TR_RSP 0 (2 + w) (leAt payload (4 * w) 4),
      .set .TR_STATE 0 0 2,
      bellRing 0 0x0A0]

/-- The response to a request that has been served (R735). -/
def respond (src : TransomSource) (code status : Nat) (payload : List Byte) : Act :=
  .seq (.inc .TR_DONE 0) (answer src code status payload)

/-- TR_NONCE as bytes. -/
def State.nonce (s : State) : List Byte := (List.range 12).flatMap fun w => toLe 4 (s.rd .TR_NONCE 0 w)

/-- How a command is signed (R738, R739). -/
inductive Signing
  | none | owner | self
deriving DecidableEq, Repr

/-- A row of the table of R739: code, signature, served on unprotected frames, served by a decommissioned part, and the payload lengths
that it takes, without the signature. -/
structure Command where
  code : Nat
  signing : Signing
  bootstrap : Bool
  decommOk : Bool
  lengthOk : Nat → Bool

/-- Bytes of the payload before a signature. -/
def Command.body (c : Command) (payload : List Byte) : List Byte :=
  if c.signing == .none then payload else payload.take (payload.length - 96)

/-- The signature that the command needs verifies (R738). -/
def Command.verified (c : Command) (s : State) (payload : List Byte) : Bool :=
  let body := c.body payload
  let digest := Config.sha384 (toLe 2 c.code ++ body ++ s.nonce)
  let sig := payload.drop (payload.length - 96)
  match c.signing with
  | .none => true
  | .owner => s.on .FUSE_OWNED 0 && Config.ecdsaVerify s.ownerKey digest sig
  | .self => Config.ecdsaVerify body digest sig

/-- The status with which a command is turned away before it acts; the order of these tests is the model's (R739, R740, R742; log entry
37). -/
def Command.turnedAway (c : Command) (s : State) (src : TransomSource) (r : Request) : Option Nat :=
  if s.decommissioned && !c.decommOk then some stDecommissioned
  else if srcOpen src && !c.bootstrap && !s.decommissioned then some stNotAllowed
  else if !r.whole || !c.lengthOk (c.body r.payload).length || c.signing != .none && r.payload.length < 96 then some stBadLength
  else if !c.verified s r.payload then some stBadSignature
  else none

/-- What a command answers with: a status and a payload. -/
abbrev Reply : Type := Nat → List Byte → Act

/-- Serve a request of one command: while another request is served a network one is answered with BUSY (R736); a signed command is
followed by a fresh nonce, whatever its status (R738). -/
def serve (c : Command) (src : TransomSource) (act : Reply → List Byte → Act) : Act :=
  .get fun s =>
    match s.request src with
    | none => .nop
    | some r => .when (r.code == c.code) (
        if srcNet src && s.rd .TR_STATE 0 == 1 then answer src c.code stBusy []
        else .seq (
          match c.turnedAway s src r with
          | some st => respond src c.code st []
          | none => act (respond src c.code) (c.body r.payload))
          (.when (c.signing != .none) newNonce))

/-- The codes of R739. -/
def knownCodes : List Nat :=
  [0x01, 0x02, 0x03, 0x04, 0x05, 0x10, 0x11, 0x20, 0x21, 0x22, 0x23, 0x24, 0x25, 0x30, 0x31, 0x32, 0x33, 0x34, 0x35, 0x40, 0x41, 0x42]

/-- UNKNOWN_CMD: a request with no such command (R728, R739). -/
def execUnknownCmd (src : TransomSource) (s : State) : Host.Outcome State Fault Refusal :=
  (match s.request src with
   | none => Act.nop
   | some r => Act.when (!knownCodes.contains r.code) (
       if srcNet src && s.rd .TR_STATE 0 == 1 then answer src r.code stBusy [] else respond src r.code stUnknown [])).done s

/-! ### Reports (R733, R734, R739) -/

/-- GET_INFO: the Fuse block's words to +0x0C7, both directory copies and the nonce. -/
def execGetInfo (src : TransomSource) (s : State) : Host.Outcome State Fault Refusal :=
  (serve ⟨0x01, .none, true, true, fun n => n == 0⟩ src fun reply _ => .random fun v => .get fun t =>
    let fuses := ((List.range 49).flatMap fun w => toLe 4 (t.register 0 (0xE0000 + 4 * w))) ++ toLe 4 v
    reply stOk (fuses ++ t.cfgBytes 0 64 ++ t.cfgBytes 0x1000 64 ++ t.nonce)).done s

/-- GET_CERT: the device certificate of the key area (log entry 35). -/
def execGetCert (src : TransomSource) (s : State) : Host.Outcome State Fault Refusal :=
  (serve ⟨0x02, .none, true, true, fun n => n == 0⟩ src fun reply _ => .get fun t =>
    reply stOk (t.cfgBytes (keyBase + 2) (min (leNat (t.cfgBytes keyBase 2)) 4088))).done s

/-- Draw 8 · n bytes that the spec leaves open. -/
def openBytes : Nat → (List Byte → Act) → Act
  | 0, k => k []
  | n + 1, k => .free fun v => openBytes n fun bs => k (toLe 8 v ++ bs)

/-- Draw 8 · n random bytes. -/
def randomBytes : Nat → (List Byte → Act) → Act
  | 0, k => k []
  | n + 1, k => .random fun v => randomBytes n fun bs => k (toLe 8 v ++ bs)

/-- The attestation entry of a section (R734, 09 R422). -/
def State.attestEntry (s : State) (x : Section) : List Byte :=
  toLe 1 x.kind ++ toLe 1 x.part ++ toLe 1 (bitIf (s.aux.adapted.contains x.index) 0 + bitIf (s.sectionUsed x) 1) ++ toLe 1 0 ++
  toLe 4 x.index ++ toLe 8 x.dest ++ x.hash.take 48

/-- A fence or retirement is in force. -/
def State.fenced (s : State) : Bool :=
  s.dieList.any fun d => s.rd .FLT_FENCED_ENG_LO d != 0 || s.rd .FLT_FENCED_ENG_HI d != 0 || s.rd .FLT_FENCED_CORES d != 0 ||
    s.rd .FLT_RETIRED_SEG d != 0

/-- The attestation report (R733); `hashes` are MAN_HASH and FW_HASH. -/
def State.attestReport (s : State) (nonce : List Byte) (first : Nat) (hashes : List Byte) : List Byte :=
  let xs := (s.aux.image.map fun i => i.sections).getD []
  let es := (xs.drop first).take 56
  let r := toLe 2 1 ++ toLe 1 (s.rd .FUSE_ORDER 0) ++
    toLe 1 (s.rd .FUSE_SEALED 0 + 2 * s.rd .SEC_TRIAL 0 + bitIf s.fenced 2) ++ toLe 4 first ++ toLe 4 es.length ++ toLe 4 xs.length ++
    nonce ++ s.fuseHash .FUSE_DEV_HASH ++ s.fuseHash .FUSE_OWNER_HASH ++ hashes ++
    ((List.range 16).flatMap fun w => toLe 4 (s.rd .FUSE_RB 0 w)) ++ toLe 8 (s.now 0) ++ List.replicate 56 0 ++ es.flatMap s.attestEntry
  r ++ Config.identitySign (Config.sha384 r)

/-- ATTEST: a signed report (R733). Without a running image MAN_HASH and FW_HASH are left open. -/
def execAttest (src : TransomSource) (s : State) : Host.Outcome State Fault Refusal :=
  (serve ⟨0x03, .none, true, false, fun n => n == 52⟩ src fun reply body => .get fun t =>
    let send := fun hashes => .get fun u => reply stOk (u.attestReport (body.take 48) (leAt body 48 4) hashes)
    match t.aux.image with
    | some i => send (i.manHash ++ i.fwHash)
    | none => openBytes 12 send).done s

/-- GET_PARTS: state, epoch and selected variant of each partition, or NO_FIT (R728, R739; its layout is the model's, log entry 37). -/
def execGetParts (src : TransomSource) (s : State) : Host.Outcome State Fault Refusal :=
  (serve ⟨0x04, .none, false, false, fun n => n == 0⟩ src fun reply _ => .get fun t =>
    reply stOk ((List.range 8).flatMap fun p =>
      toLe 1 (t.rd .PT_STATE 0 p) ++ toLe 1 (if t.rd .PT_STATE 0 p == 4 then stNoFit else 0) ++ toLe 2 (t.rd .I_PT_VARIANT 0 p + 2 ^ 16 - 1) ++ toLe 4 (t.rd .PT_EPOCH 0 p))).done s

/-- The record of the log with a fault sequence, while the log still holds it (16 R708). -/
def State.logRecord (s : State) (fseq : Nat) : Option (List Byte) :=
  let b := s.cfgBytes (logBase + fseq % logSlots * 32) 32
  if fseq < s.rd .FLT_SEQ 0 && leAt b 8 4 == fseq && leAt b 28 4 == crc32c (b.take 28) then some b else none

/-- READ_LOG: fault records from a first sequence on (R739). -/
def execReadLog (src : TransomSource) (s : State) : Host.Outcome State Fault Refusal :=
  (serve ⟨0x05, .none, false, false, fun n => n == 8⟩ src fun reply body => .get fun t =>
    let first := leAt body 0 4
    let count := leAt body 4 4
    if 120 < count then reply stNotAllowed []
    else reply stOk (((List.range count).filterMap fun i => t.logRecord (first + i)).flatten)).done s

/-! ### Ownership (R729, R730, R739) -/

/-- CLAIM: the owner's public key, signed by itself, becomes the part's owner. -/
def execClaim (src : TransomSource) (s : State) : Host.Outcome State Fault Refusal :=
  (serve ⟨0x10, .self, true, false, fun n => n != 0⟩ src fun reply body => .get fun t =>
    if t.on .FUSE_OWNED 0 then reply stOwned []
    else
      let h := Config.sha384 body
      .all [
        .upTo 12 fun w => .set .FUSE_OWNER_HASH 0 w (leAt h (4 * w) 4),
        .set .FUSE_OWNED 0 0 1,
        reply stOk []]).done s

/-- Write a wrapped secret into its place of the key area, over the previous one (log entry 35). -/
def putSecret (t : Nat) (w : List Byte) : Act :=
  .cfgPut (secretBase + 256 * t) ((toLe 2 w.length ++ w ++ List.replicate 256 0).take 256)

/-- PROVISION: a secret encrypted to the device is wrapped into the key area. The status of a blob that does not open is left open, but
that it is not OK (R730). -/
def execProvision (src : TransomSource) (s : State) : Host.Outcome State Fault Refusal :=
  (serve ⟨0x11, .owner, true, false, fun n => decide (4 < n)⟩ src fun reply body => .get fun t =>
    if 18 ≤ leAt body 0 4 then reply stNotAllowed []
    else
      match Config.openProvision (body.drop 4) with
      | none => .free fun v => reply (if v % 256 == 0 then stBadSignature else v % 256) []
      | some k => .seq (putSecret (leAt body 0 4) (Config.wrapSecret t.decommissioned k)) (reply stOk [])).done s

/-! ### Image update (R715, R727, R732, R739) -/

/-- The slot not booted. -/
def State.spareSlot (s : State) : Nat := 1 - s.rd .SEC_SLOT 0

/-- IMAGE_BEGIN: the slot not booted is erased and opened. -/
def execImageBegin (src : TransomSource) (s : State) : Host.Outcome State Fault Refusal :=
  (serve ⟨0x20, .owner, true, false, fun n => n == 8⟩ src fun reply body => .get fun t =>
    match t.directory with
    | none => reply stNotAllowed []
    | some d =>
      let base := d.base t.spareSlot
      let size := d.size t.spareSlot
      if size < leAt body 0 8 then reply stFormat []
      else .all [
        .eff (.erase fun a => decide (base ≤ a) && decide (a < base + size)),
        .set .I_SLOT_OPEN 0 0 1,
        .set .I_SLOT_OK 0 0 0,
        .set .I_SLOT_LEN 0 0 (leAt body 0 8),
        reply stOk []]).done s

/-- IMAGE_DATA: bytes go into the open slot; the payload leaves 12 bytes for the offset. -/
def execImageData (src : TransomSource) (s : State) : Host.Outcome State Fault Refusal :=
  (serve ⟨0x21, .none, true, false, fun n => decide (12 ≤ n)⟩ src fun reply body => .get fun t =>
    let off := leAt body 0 12
    let data := body.drop 12
    match t.directory with
    | none => reply stNotAllowed []
    | some d =>
      if t.on .I_SLOT_OPEN 0 && decide (off + data.length ≤ t.rd .I_SLOT_LEN 0) then
        .seq (.cfgPut (d.base t.spareSlot + off) data) (reply stOk [])
      else reply stNotAllowed []).done s

/-- The status of all the checks of R727 on a slot. -/
def State.slotCheck (s : State) (d : Directory) (k : Nat) : Nat :=
  match s.checkImage (d.base k) (d.size k) with
  | .error st => st
  | .ok i =>
    match s.finishImage i fun _ => true with
    | .error st => st
    | .ok _ => stOk

/-- IMAGE_END: the slot is closed and checked. -/
def execImageEnd (src : TransomSource) (s : State) : Host.Outcome State Fault Refusal :=
  (serve ⟨0x22, .none, true, false, fun n => n == 0⟩ src fun reply _ => .get fun t =>
    match t.directory with
    | none => reply stNotAllowed []
    | some d =>
      if t.on .I_SLOT_OPEN 0 then
        let st := t.slotCheck d t.spareSlot
        .all [.set .I_SLOT_OPEN 0 0 0, .set .I_SLOT_OK 0 0 (b2n (st == stOk)), reply st []]
      else reply stNotAllowed []).done s

/-- IMAGE_ACTIVATE: the checked slot becomes the active one, on trial, and a cold start follows. -/
def execImageActivate (src : TransomSource) (s : State) : Host.Outcome State Fault Refusal :=
  (serve ⟨0x23, .owner, true, false, fun n => n == 4⟩ src fun reply body => .get fun t =>
    let tries := leAt body 0 4
    match t.directory with
    | none => reply stNotAllowed []
    | some d =>
      if t.on .I_SLOT_OK 0 && decide (1 ≤ tries ∧ tries ≤ 7) then .all [
        writeDirectory { d with active := t.spareSlot, trial := 1, tries := tries },
        .set .SEC_TRIAL 0 0 1,
        reply stOk [],
        requestColdStart]
      else reply stNotAllowed []).done s

/-- IMAGE_CONFIRM: TRIAL is cleared. -/
def execImageConfirm (src : TransomSource) (s : State) : Host.Outcome State Fault Refusal :=
  (serve ⟨0x24, .owner, false, false, fun n => n == 0⟩ src fun reply _ => .get fun t =>
    match t.directory with
    | none => reply stNotAllowed []
    | some d => .all [
        .when (d.trial != 0) (writeDirectory { d with trial := 0 }),
        .set .SEC_TRIAL 0 0 0,
        reply stOk []]).done s

/-- A counter is blown up to a version; it is never lowered (R732). -/
def blowCounter (p : Nat × Nat) : Act :=
  .upd .FUSE_RB 0 (p.1 / 4) fun w =>
    if bits w (8 * (p.1 % 4)) 8 < p.2 then putBits w (8 * (p.1 % 4)) 8 p.2 else w

/-- ROLLBACK_COMMIT (R732). -/
def execRollbackCommit (src : TransomSource) (s : State) : Host.Outcome State Fault Refusal :=
  (serve ⟨0x25, .owner, false, false, fun n => n == 0⟩ src fun reply _ => .get fun t =>
    match t.aux.image with
    | none => reply stNotAllowed []
    | some i =>
      if t.on .SEC_TRIAL 0 then reply stNotAllowed []
      else .seq (.each ((0, i.fwSvn) :: i.rb) blowCounter) (reply stOk [])).done s

/-! ### Restarts (18 R770) -/

/-- RESTART_PART. -/
def execRestartPart (src : TransomSource) (s : State) : Host.Outcome State Fault Refusal :=
  (serve ⟨0x30, .none, false, false, fun n => n == 4⟩ src fun reply body => .get fun t =>
    if t.aux.image.any fun i => i.parts.contains (leAt body 0 4) then
      .seq (requestPartRestart (leAt body 0 4)) (reply stOk [])
    else reply stNotAllowed []).done s

/-- RESTART_WARM. -/
def execRestartWarm (src : TransomSource) (s : State) : Host.Outcome State Fault Refusal :=
  (serve ⟨0x31, .none, false, false, fun n => n == 0⟩ src fun reply _ => .get fun t =>
    if t.aux.image.isSome then .seq requestWarmRestart (reply stOk []) else reply stNotAllowed []).done s

/-- RESTART_COLD. -/
def execRestartCold (src : TransomSource) (s : State) : Host.Outcome State Fault Refusal :=
  (serve ⟨0x32, .none, false, false, fun n => n == 0⟩ src fun reply _ => .seq requestColdStart (reply stOk [])).done s

/-! ### Salts and masks (04 R181, 12 R540) -/

/-- Partitions whose selected variant holds the HBM or the vault segment of an address. -/
def State.ownersOf (s : State) (a : Nat) : List Nat :=
  (List.range 8).filter fun p => ((s.variantOf p).map fun v => v.dies).getD [] |>.any fun d =>
    d.die == addrDie a &&
    match placeOf (addrOff a) with
    | .hbm _ _ => decide (d.hbmBase * mib ≤ addrOff a) && decide (addrOff a < (d.hbmBase + d.hbmMib) * mib)
    | .vault k o => bit d.vseg (16 * k + o / (2 * mib))
    | .store c _ => (List.range 32).any fun l => bit d.lcores l && s.physCore d.die l == c
    | .regs _ => false
    | .nowhere => false

/-- A job of a partition runs: it has been fired, and a list of it has not ended (13 R568, R578). -/
def State.jobRuns (s : State) (p : Nat) : Bool := s.aux.jobs.any fun j => j.part == p

/-- The grid is open or closing by its GD_STATE, or a job of its partition runs: of a partition that holds its descriptor's place, or,
where none does, of any (R181; log entry 37). -/
def State.gridBusy (s : State) (a st : Nat) : Bool :=
  let ps := if (s.ownersOf a).isEmpty then List.range 8 else s.ownersOf a
  st == 1 || st == 3 || ps.any s.jobRuns

/-- RESALT_GRID: the salt of a closed grid of the image, given or fresh (R181). A grid whose state the Keeper cannot read counts as
busy, and a salt that the memory does not take leaves the command without effect (log entry 37). -/
def execResaltGrid (src : TransomSource) (s : State) : Host.Outcome State Fault Refusal :=
  (serve ⟨0x33, .none, false, false, fun n => n == 16⟩ src fun reply body => .get fun t =>
    let a := leAt body 0 8
    let salt := leAt body 8 8
    if !t.aux.image.any fun i => i.grids.contains a then reply stNotAllowed []
    else (keeperGet (a + 84) 1).then fun r =>
      if t.gridBusy a (byteAt (r.toOption.getD []) 0) || r.toOption.isNone then reply stPartBusy []
      else
        let put := fun v => putSalt a v fun ok => reply (if ok then stOk else stNotAllowed) []
        if salt == 0 then .random put else put salt).done s

/-- A partition that has jobs on the die is running (R540): a job of it has a list there, or was fired there. -/
def State.dieBusy (s : State) (die : Nat) : Bool :=
  s.aux.jobs.any fun j => s.running j.part && (j.die == die || j.lists.any fun l => l.die == die)

/-- New masks for both stacks of a die; its image-defined HBM is written again from the store of images, and the rest is zero (R540). The
copy of the store sections is written again too (18 R772). -/
def rehash (i : Image) (die : Nat) : Act :=
  .all [
    .upTo 8 fun m => .random fun v => .set .HBM_HASH_M die m v,
    zeroRange (hbmAddr die 0 0) (2 * stackBytes),
    soundWords (hbmAddr die 0 0) (2 * stackBytes),
    .get fun s => .each ((s.memSections i).filter fun x => x.kind == 2 && s.inHbm x && addrDie x.dest == die) fun x =>
      .seq (rereadSection i x) (.aux fun y => { y with adapted := y.adapted.erase x.index }),
    .get fun s => .each ((s.memSections i).filter fun x => x.kind == 3 && bits x.dest 45 3 == die) fun x =>
      match s.plainOf i x with
      | some bs => keeperWrite x.copyAddr bs
      | none => .nop]

/-- REHASH_HBM (R540). -/
def execRehashHbm (src : TransomSource) (s : State) : Host.Outcome State Fault Refusal :=
  (serve ⟨0x34, .none, false, false, fun n => n == 4⟩ src fun reply body => .get fun t =>
    let die := leAt body 0 4
    match t.aux.image with
    | none => reply stNotAllowed []
    | some i =>
      if !t.dieUp die then reply stNotAllowed []
      else if t.dieBusy die then reply stPartBusy []
      else .seq (rehash i die) (reply stOk [])).done s

/-- LIFT_FENCE: the fence or retirement of a record is lifted at the next cold start (R739, 16 R695). -/
def execLiftFence (src : TransomSource) (s : State) : Host.Outcome State Fault Refusal :=
  (serve ⟨0x35, .owner, false, false, fun n => n == 4⟩ src fun reply body => .get fun t =>
    let fseq := leAt body 0 4
    match t.logRecord fseq with
    | none => reply stNotAllowed []
    | some b =>
      if decide (1 ≤ byteAt b 15 ∧ byteAt b 15 ≤ 4) then
        .seq (.aux fun y => { y with lifts := y.lifts ++ [fseq] }) (reply stOk [])
      else reply stNotAllowed []).done s

/-! ### The return procedure (R747 to R750) -/

/-- Every partition is in the safe state with cause REQUEST and is stopped; nothing of its work is left (R747). -/
def stopPartitions : Act :=
  .all [
    .set .I_SAFE_REQ 0 0 255,
    enterSafe 0 255 causeRequest,
    resetCores,
    .upTo 8 fun p => .seq (.set .PT_STATE 0 p 0) (.set .I_RESTART_PART 0 p 0),
    .set .I_RESTART_WARM 0 0 0,
    .set .I_RESTART_COLD 0 0 0,
    .set .I_IMAGE_RUNS 0 0 0,
    .aux fun a => { outputs := a.outputs, lifts := a.lifts },
    .get fun s => .each s.dieList fun d => .upTo 2 fun p => setLink d p 0 0,
    pinsLow]

/-- RETURN: partitions stop, FUSE_DECOMM blows, then everything is erased, and only then comes the response (R747, R749). -/
def execReturnPart (src : TransomSource) (s : State) : Host.Outcome State Fault Refusal :=
  (serve ⟨0x40, .owner, false, false, fun n => n == 0⟩ src fun reply _ => .all [
    stopPartitions,
    .set .FUSE_DECOMM 0 0 1,
    eraseAll,
    .set .SEC_STATE 0 0 3,
    reply stOk []]).done s

/-- Failed test responses after which the test commands are refused (R750). -/
def testLimit : Nat := 16

/-- TEST_CHALLENGE: 48 random bytes, on a decommissioned part (R750). -/
def execTestChallenge (src : TransomSource) (s : State) : Host.Outcome State Fault Refusal :=
  (serve ⟨0x41, .none, false, true, fun n => n == 0⟩ src fun reply _ => .get fun t =>
    if !t.decommissioned || decide (testLimit ≤ t.rd .I_TEST_LEFT 0) then reply stNotAllowed []
    else randomBytes 6 fun bs => .seq (.aux fun a => { a with challenge := some bs }) (reply stOk bs)).done s

/-- The response opens test access: it signs the outstanding challenge and the device's hash with Geinaphor's test key (R750). -/
def State.testOpens (s : State) (sig : List Byte) : Bool :=
  s.aux.challenge.any fun c => Config.ecdsaVerify Config.geinaphorTest (Config.sha384 (c ++ s.fuseHash .FUSE_DEV_HASH)) sig

/-- TEST_RESPONSE: a right response opens test access until the next cold start; any other discards the challenge and counts (R750). -/
def execTestResponse (src : TransomSource) (s : State) : Host.Outcome State Fault Refusal :=
  (serve ⟨0x42, .none, false, true, fun n => n == 96⟩ src fun reply body => .get fun t =>
    if !t.decommissioned || decide (testLimit ≤ t.rd .I_TEST_LEFT 0) then reply stNotAllowed []
    else if t.testOpens body then .all [
      .set .SEC_STATE 0 0 4,
      .each t.dieList fun d => .upd .PWR_DOM_ON d 0 fun v => putBit v 23 true,
      reply stOk []]
    else .all [
      .aux fun a => { a with challenge := none },
      .incSat .I_TEST_LEFT 0,
      reply stBadSignature []]).done s

end Sys2Proof.Machine
end

