-- ==== Sys2Proof/Machine/Dispatch.lean ====
section
/-! DEFINITION. One arm per command: each calls its meaning. -/

namespace Sys2Proof.Machine

/-- The effect of a command on everything but the queue of waiting commands. -/
def exec (i : Instr) (s : State) : Host.Outcome State Fault Refusal :=
  match i with
  | .registerWrite who die off width value => Sys2Proof.Machine.execRegisterWrite who die off width value s
  | .rcRead who die off width arriving => Sys2Proof.Machine.execRcRead who die off width arriving s
  | .lowHalfRead who die off => Sys2Proof.Machine.execLowHalfRead who die off s
  | .timeAdj die value => Sys2Proof.Machine.execTimeAdj die value s
  | .slewEnd => Sys2Proof.Machine.execSlewEnd s
  | .timeSetCommit die => Sys2Proof.Machine.execTimeSetCommit die s
  | .timeStep => Sys2Proof.Machine.execTimeStep s
  | .timeServoDeclareLocked die => Sys2Proof.Machine.execTimeServoDeclareLocked die s
  | .timeServoDeclareHoldover die => Sys2Proof.Machine.execTimeServoDeclareHoldover die s
  | .holdoverEntry => Sys2Proof.Machine.execHoldoverEntry s
  | .holdoverExpiry => Sys2Proof.Machine.execHoldoverExpiry s
  | .tsfPop die port => Sys2Proof.Machine.execTsfPop die port s
  | .ptpEventSend die port twoStep seqId msgType domain => Sys2Proof.Machine.execPtpEventSend die port twoStep seqId msgType domain s
  | .pmCommit die master => Sys2Proof.Machine.execPmCommit die master s
  | .masterCoast die master => Sys2Proof.Machine.execMasterCoast die master s
  | .masterLost die master => Sys2Proof.Machine.execMasterLost die master s
  | .peCommit die => Sys2Proof.Machine.execPeCommit die s
  | .phaseEventDispatch die => Sys2Proof.Machine.execPhaseEventDispatch die s
  | .remoteEventDelivery die => Sys2Proof.Machine.execRemoteEventDelivery die s
  | .ethFrameReceive die port frame => Sys2Proof.Machine.execEthFrameReceive die port frame s
  | .packetDecode die => Sys2Proof.Machine.execPacketDecode die s
  | .pointWriteError die entry point => Sys2Proof.Machine.execPointWriteError die entry point s
  | .headerWriteError die entry => Sys2Proof.Machine.execHeaderWriteError die entry s
  | .frameHeaderWrite die entry => Sys2Proof.Machine.execFrameHeaderWrite die entry s
  | .ingCommit die => Sys2Proof.Machine.execIngCommit die s
  | .cmdInvalid die core ctx => Sys2Proof.Machine.execCmdInvalid die core ctx s
  | .nop die core ctx => Sys2Proof.Machine.execNop die core ctx s
  | .endList die core ctx => Sys2Proof.Machine.execEndList die core ctx s
  | .wait die core ctx => Sys2Proof.Machine.execWait die core ctx s
  | .signal die core ctx => Sys2Proof.Machine.execSignal die core ctx s
  | .semaphoreAdd die core => Sys2Proof.Machine.execSemaphoreAdd die core s
  | .waitBell die core ctx => Sys2Proof.Machine.execWaitBell die core ctx s
  | .waitTimeout die core ctx => Sys2Proof.Machine.execWaitTimeout die core ctx s
  | .loop die core ctx => Sys2Proof.Machine.execLoop die core ctx s
  | .branchCnt die core ctx => Sys2Proof.Machine.execBranchCnt die core ctx s
  | .fence die core ctx => Sys2Proof.Machine.execFence die core ctx s
  | .publishResult die core ctx => Sys2Proof.Machine.execPublishResult die core ctx s
  | .publishTokens die core ctx => Sys2Proof.Machine.execPublishTokens die core ctx s
  | .loadw die core turn => Sys2Proof.Machine.execLoadw die core turn s
  | .stream die core turn => Sys2Proof.Machine.execStream die core turn s
  | .gang die core ctx => Sys2Proof.Machine.execGang die core ctx s
  | .passBoundary die core engine => Sys2Proof.Machine.execPassBoundary die core engine s
  | .passComplete die core engine => Sys2Proof.Machine.execPassComplete die core engine s
  | .preemptDrainEnd die core engine issued => Sys2Proof.Machine.execPreemptDrainEnd die core engine issued s
  | .engineFault die core engine kind row col issued written => Sys2Proof.Machine.execEngineFault die core engine kind row col issued written s
  | .passStoreError die core engine row what => Sys2Proof.Machine.execPassStoreError die core engine row what s
  | .gatherPillar die core turn => Sys2Proof.Machine.execGatherPillar die core turn s
  | .gatherRows die core turn => Sys2Proof.Machine.execGatherRows die core turn s
  | .gatherNeighbour die core turn => Sys2Proof.Machine.execGatherNeighbour die core turn s
  | .scatterAddMap die core turn => Sys2Proof.Machine.execScatterAddMap die core turn s
  | .scatterAddRows die core turn => Sys2Proof.Machine.execScatterAddRows die core turn s
  | .mapGridOpen die core turn => Sys2Proof.Machine.execMapGridOpen die core turn s
  | .mapGridClose die core turn => Sys2Proof.Machine.execMapGridClose die core turn s
  | .gridCloseDrainEnd die core ctx => Sys2Proof.Machine.execGridCloseDrainEnd die core ctx s
  | .mapDilate die core turn => Sys2Proof.Machine.execMapDilate die core turn s
  | .mapIndex die core turn => Sys2Proof.Machine.execMapIndex die core turn s
  | .mapRules die core turn => Sys2Proof.Machine.execMapRules die core turn s
  | .mapWalk die core turn => Sys2Proof.Machine.execMapWalk die core turn s
  | .mapAnd die core turn => Sys2Proof.Machine.execMapAnd die core turn s
  | .hashInsert die core turn => Sys2Proof.Machine.execHashInsert die core turn s
  | .dist die core turn => Sys2Proof.Machine.execDist die core turn s
  | .topkSelect die core turn => Sys2Proof.Machine.execTopkSelect die core turn s
  | .topkSuppress die core turn => Sys2Proof.Machine.execTopkSuppress die core turn s
  | .vec die core turn => Sys2Proof.Machine.execVec die core turn s
  | .vecPredict die core turn => Sys2Proof.Machine.execVecPredict die core turn s
  | .vecAudit die core turn => Sys2Proof.Machine.execVecAudit die core turn s
  | .quant die core turn => Sys2Proof.Machine.execQuant die core turn s
  | .dmaCopy die core turn => Sys2Proof.Machine.execDmaCopy die core turn s
  | .dmaStridedRead die core turn => Sys2Proof.Machine.execDmaStridedRead die core turn s
  | .dmaTranspose die core turn => Sys2Proof.Machine.execDmaTranspose die core turn s
  | .dmaFill die core turn => Sys2Proof.Machine.execDmaFill die core turn s
  | .creditGet die core ctx => Sys2Proof.Machine.execCreditGet die core ctx s
  | .wicketGrant die core => Sys2Proof.Machine.execWicketGrant die core s
  | .creditReturn die core ctx => Sys2Proof.Machine.execCreditReturn die core ctx s
  | .wicketFree die core wicket => Sys2Proof.Machine.execWicketFree die core wicket s
  | .commandComplete die core ctx index => Sys2Proof.Machine.execCommandComplete die core ctx index s
  | .sqStop die core mask => Sys2Proof.Machine.execSqStop die core mask s
  | .semSet die core sem value => Sys2Proof.Machine.execSemSet die core sem value s
  | .listStart die core ctx => Sys2Proof.Machine.execListStart die core ctx s
  | .contextResume die core ctx => Sys2Proof.Machine.execContextResume die core ctx s
  | .shutterOn die u group => Sys2Proof.Machine.execShutterOn die u group s
  | .shutterOffRetain die u group => Sys2Proof.Machine.execShutterOffRetain die u group s
  | .shutterOffNoRetain die u group => Sys2Proof.Machine.execShutterOffNoRetain die u group s
  | .shutterClosed die u group => Sys2Proof.Machine.execShutterClosed die u group s
  | .shutterOpened die u group => Sys2Proof.Machine.execShutterOpened die u group s
  | .fabricTransaction who addr op meets => Sys2Proof.Machine.execFabricTransaction who addr op meets s
  | .hostAccess bar off width write value => Sys2Proof.Machine.execHostAccess bar off width write value s
  | .hbmScrub die stack off check => Sys2Proof.Machine.execHbmScrub die stack off check s
  | .hbmImbWindowEnd die stack => Sys2Proof.Machine.execHbmImbWindowEnd die stack s
  | .ignovBlockReceive die port block => Sys2Proof.Machine.execIgnovBlockReceive die port block s
  | .ignovNak die port last => Sys2Proof.Machine.execIgnovNak die port last s
  | .ignovRetrain die port => Sys2Proof.Machine.execIgnovRetrain die port s
  | .ignovTrainingEnd die port badTx badRx => Sys2Proof.Machine.execIgnovTrainingEnd die port badTx badRx s
  | .ignovLinkDownTimeout die port => Sys2Proof.Machine.execIgnovLinkDownTimeout die port s
  | .jobFire die trigger => Sys2Proof.Machine.execJobFire die trigger s
  | .requestDeadlineExpiry part jseq => Sys2Proof.Machine.execRequestDeadlineExpiry part jseq s
  | .lateLimitExpiry part jseq => Sys2Proof.Machine.execLateLimitExpiry part jseq s
  | .recordEnterRing part => Sys2Proof.Machine.execRecordEnterRing part s
  | .recordSend channel => Sys2Proof.Machine.execRecordSend channel s
  | .request channel datagram => Sys2Proof.Machine.execRequest channel datagram s
  | .cancel channel datagram => Sys2Proof.Machine.execCancel channel datagram s
  | .resend channel datagram => Sys2Proof.Machine.execResend channel datagram s
  | .jobCommit die => Sys2Proof.Machine.execJobCommit die s
  | .ethLinkUp die port => Sys2Proof.Machine.execEthLinkUp die port s
  | .ethLinkDown die port => Sys2Proof.Machine.execEthLinkDown die port s
  | .batchWindowExpiry die cls => Sys2Proof.Machine.execBatchWindowExpiry die cls s
  | .bcDone die cls value => Sys2Proof.Machine.execBcDone die cls value s
  | .bcCommit die cls => Sys2Proof.Machine.execBcCommit die cls s
  | .prdCommit die core entry => Sys2Proof.Machine.execPrdCommit die core entry s
  | .prdReenable die core entry => Sys2Proof.Machine.execPrdReenable die core entry s
  | .bellDoorbell who die word => Sys2Proof.Machine.execBellDoorbell who die word s
  | .bellHoldSet die w => Sys2Proof.Machine.execBellHoldSet die w s
  | .bellHoldClr die w => Sys2Proof.Machine.execBellHoldClr die w s
  | .bellClaim who die target => Sys2Proof.Machine.execBellClaim who die target s
  | .bellComplete die target source => Sys2Proof.Machine.execBellComplete die target source s
  | .moderationTimerExpiry vector => Sys2Proof.Machine.execModerationTimerExpiry vector s
  | .msixUnmask vector => Sys2Proof.Machine.execMsixUnmask vector s
  | .pcieD0Entry msixEnabled width gen => Sys2Proof.Machine.execPcieD0Entry msixEnabled width gen s
  | .eventPinEdge pin rising shortestNs => Sys2Proof.Machine.execEventPinEdge pin rising shortestNs s
  | .znNetWrite who die zone value => Sys2Proof.Machine.execZnNetWrite who die zone value s
  | .safetyHeartbeatFrame die part => Sys2Proof.Machine.execSafetyHeartbeatFrame die part s
  | .proofListStart die core => Sys2Proof.Machine.execProofListStart die core s
  | .proofSlackExpiry die core => Sys2Proof.Machine.execProofSlackExpiry die core s
  | .proofResult die core => Sys2Proof.Machine.execProofResult die core s
  | .aliveToggle => Sys2Proof.Machine.execAliveToggle s
  | .islandHeartbeat die => Sys2Proof.Machine.execIslandHeartbeat die s
  | .keeperBeat die => Sys2Proof.Machine.execKeeperBeat die s
  | .heartbeatMissing die => Sys2Proof.Machine.execHeartbeatMissing die s
  | .ulsSafeReq die mask => Sys2Proof.Machine.execUlsSafeReq die mask s
  | .ulsSafeRel die mask => Sys2Proof.Machine.execUlsSafeRel die mask s
  | .ulsCommit die => Sys2Proof.Machine.execUlsCommit die s
  | .mulCommit who die => Sys2Proof.Machine.execMulCommit who die s
  | .partitionRestartTimeout part => Sys2Proof.Machine.execPartitionRestartTimeout part s
  | .warmRestartTimeout => Sys2Proof.Machine.execWarmRestartTimeout s
  | .coreFail die core => Sys2Proof.Machine.execCoreFail die core s
  | .clusterFail die cluster => Sys2Proof.Machine.execClusterFail die cluster s
  | .hbmStack die stack => Sys2Proof.Machine.execHbmStack die stack s
  | .dieFail die => Sys2Proof.Machine.execDieFail die s
  | .partitionRestart part failing => Sys2Proof.Machine.execPartitionRestart part failing s
  | .packageWarmRestart failing => Sys2Proof.Machine.execPackageWarmRestart failing s
  | .coldStart => Sys2Proof.Machine.execColdStart s
  | .coldRstNAssert lowNs => Sys2Proof.Machine.execColdRstNAssert lowNs s
  | .supplyOutOfWindow lowNs => Sys2Proof.Machine.execSupplyOutOfWindow lowNs s
  | .thermalTrip die sensor => Sys2Proof.Machine.execThermalTrip die sensor s
  | .temperatureSample die readings => Sys2Proof.Machine.execTemperatureSample die readings s
  | .powerGateUpdate die activity => Sys2Proof.Machine.execPowerGateUpdate die activity s
  | .louvreWindowStart die => Sys2Proof.Machine.execLouvreWindowStart die s
  | .pkgReqStandby => Sys2Proof.Machine.execPkgReqStandby s
  | .pkgReqSleep => Sys2Proof.Machine.execPkgReqSleep s
  | .pkgReqRun => Sys2Proof.Machine.execPkgReqRun s
  | .pkgWakeAt => Sys2Proof.Machine.execPkgWakeAt s
  | .perstDeassert => Sys2Proof.Machine.execPerstDeassert s
  | .sakRekey die port => Sys2Proof.Machine.execSakRekey die port s
  | .mkaPeerTimeout die port => Sys2Proof.Machine.execMkaPeerTimeout die port s
  | .arpRequest die port frame => Sys2Proof.Machine.execArpRequest die port frame s
  | .neighborSolicitation die port frame => Sys2Proof.Machine.execNeighborSolicitation die port frame s
  | .nextHopRefresh die port addr answered => Sys2Proof.Machine.execNextHopRefresh die port addr answered s
  | .unknownCmd src => Sys2Proof.Machine.execUnknownCmd src s
  | .getInfo src => Sys2Proof.Machine.execGetInfo src s
  | .getCert src => Sys2Proof.Machine.execGetCert src s
  | .attest src => Sys2Proof.Machine.execAttest src s
  | .getParts src => Sys2Proof.Machine.execGetParts src s
  | .readLog src => Sys2Proof.Machine.execReadLog src s
  | .claim src => Sys2Proof.Machine.execClaim src s
  | .provision src => Sys2Proof.Machine.execProvision src s
  | .imageBegin src => Sys2Proof.Machine.execImageBegin src s
  | .imageData src => Sys2Proof.Machine.execImageData src s
  | .imageEnd src => Sys2Proof.Machine.execImageEnd src s
  | .imageActivate src => Sys2Proof.Machine.execImageActivate src s
  | .imageConfirm src => Sys2Proof.Machine.execImageConfirm src s
  | .rollbackCommit src => Sys2Proof.Machine.execRollbackCommit src s
  | .restartPart src => Sys2Proof.Machine.execRestartPart src s
  | .restartWarm src => Sys2Proof.Machine.execRestartWarm src s
  | .restartCold src => Sys2Proof.Machine.execRestartCold src s
  | .resaltGrid src => Sys2Proof.Machine.execResaltGrid src s
  | .rehashHbm src => Sys2Proof.Machine.execRehashHbm src s
  | .liftFence src => Sys2Proof.Machine.execLiftFence src s
  | .returnPart src => Sys2Proof.Machine.execReturnPart src s
  | .testChallenge src => Sys2Proof.Machine.execTestChallenge src s
  | .testResponse src => Sys2Proof.Machine.execTestResponse src s
  | .timeTick => Sys2Proof.Machine.execTimeTick s
  | .perstAssert => Sys2Proof.Machine.execPerstAssert s
  | .pcieD3Entry cold pmeEn => Sys2Proof.Machine.execPcieD3Entry cold pmeEn s
  | .mkaLivePeer die port peers keyServer => Sys2Proof.Machine.execMkaLivePeer die port peers keyServer s
  | .nextHopAnswer die port addr mac => Sys2Proof.Machine.execNextHopAnswer die port addr mac s

end Sys2Proof.Machine
end

