-- ==== Sys2Proof/Safety.lean ====
section
/-! DEFINITION. What counts as a sound state of the package and as a safe run, in the terms that the statements use. -/

namespace Sys2Proof.Machine

/-- Every register entry holds a value that fits its field. -/
def regsFit (regs : List (RegKey × Nat)) : Bool := regs.all fun e => decide (e.2 < 2 ^ e.1.fld.info.width)

/-- The memory's canonical form: addresses strictly rising, and no byte listed that reads as an unlisted one. -/
def Memory.wf (m : List Host.Cell) : Bool := sparseWf compare blankByte m

/-- The registers' canonical form: keys strictly rising, no entry at its reset value, every value within its field. -/
def Registers.wf (r : List (RegKey × Nat)) : Bool := sparseWf RegKey.cmp RegKey.dflt r && regsFit r

/-- A sound state: registers, memory and configuration store in canonical form. -/
def State.Sound (s : State) : Prop :=
  Registers.wf s.regs = true ∧ Memory.wf s.mem = true ∧ Memory.wf s.cfg = true

/-- The command answers a next state of which `P` holds. -/
def Runs (c : Instr) (s : State) (P : State → Prop) : Prop := ∃ t, exec c s = .next t ∧ P t

/-- Every register field outside a list of fields, dies and entries holds what it held, in each of its copies; of the listed ones only
the register itself may differ, not its pending or active copy. -/
def State.RegsBut (s t : State) (ks : List (Fld × Nat × Nat)) : Prop :=
  ∀ l f d i, ¬ (l = .vis ∧ (f, d, i) ∈ ks) → t.reg l f d i = s.reg l f d i

/-- Every register field outside a list of fields holds what it held, in each of its copies, on every die and at every entry. -/
def State.FieldsBut (s t : State) (fs : List Fld) : Prop := ∀ l f d i, f ∉ fs → t.reg l f d i = s.reg l f d i

/-- Every register of the window outside a list of 64 KiB register blocks (19 R785) holds what it held, in each of its copies. -/
def State.BlocksBut (s t : State) (bs : List Nat) : Prop :=
  ∀ l f d i, f.info.acc ≠ .hidden → f.info.base / 0x10000 ∉ bs → t.reg l f d i = s.reg l f d i

/-- Every byte of package memory and of the configuration store is what it was. -/
def State.SameBytes (s t : State) : Prop := (∀ a, t.byte a = s.byte a) ∧ ∀ a, t.cfgByte a = s.cfgByte a

/-- Nothing has changed but the listed register fields: no other register, no byte of any memory, no queue or record. -/
def State.OnlyRegs (s t : State) (ks : List (Fld × Nat × Nat)) : Prop :=
  s.RegsBut t ks ∧ s.SameBytes t ∧ t.aux = s.aux ∧ t.pending = s.pending

end Sys2Proof.Machine
end

