-- ==== Sys2Proof/Certificates/Slice0/Obligations.lean ====
section
/-! DEFINITION. The statements about the package, for the provers. Those about a command say in which states it runs, what the next
state holds, and what it leaves unchanged. -/

open Sys2Proof Sys2Proof.Machine

/-! ### The block as a whole -/

/-- The source is shown to nobody or to the Keeper, so that nothing serves it by itself. -/
def Sys2Proof.Machine.State.quietSource (s : State) (die src : Nat) : Prop := s.rd .BELL_TGT_KIND die src ≤ 1

/-- A step takes the command at the front of the queue and runs it on the state with the queue's rest; with no command waiting the
block idles, which is the model's choice (log entry 1). -/
def Obligations.StepRunsTheFrontCommand : Prop :=
  ∀ s : State,
    (∀ c rest, s.pending = c :: rest → step s = exec c { s with pending := rest }) ∧ (s.pending = [] → step s = .next s)

/-- No command stops the block, and none touches the commands that wait behind it. -/
def Obligations.EveryCommandAnswers : Prop :=
  ∀ (c : Instr) (s : State), Runs c s fun t => t.pending = s.pending ∧ s.fresh ≤ t.fresh

/-- The state after reset is sound. -/
def Obligations.ResetIsSound : Prop := State.reset.Sound

/-- Every step keeps a sound state sound: registers, memory and configuration store stay in canonical form, and every register value
stays within its field. -/
def Obligations.EveryStepKeepsSoundness : Prop := ∀ s t : State, s.Sound → step s = .next t → t.Sound

/-- After reset a register field reads as its reset value in every copy, on every die and at every entry; a hinge entry maps its
logical core to the physical core of its own number; nothing stands in any memory. -/
def Obligations.ResetValues : Prop :=
  (∀ l f d i, f ≠ .HG_PHYS → State.reset.reg l f d i = f.info.reset % 2 ^ f.info.width) ∧
  (∀ d i, State.reset.rd .HG_PHYS d i = i % 32) ∧
  (∀ a, State.reset.byte a = 0 ∧ State.reset.cfgByte a = 0)

/-! ### Time (02_phase_and_time.md) -/

/-- A write to TIME_ADJ on die 0 starts a slew that replaces any other, and is discarded on other dies. -/
def Obligations.TimeAdjStartsASlew : Prop :=
  ∀ (s : State) (v : Word), s.Sound →
    Runs (.timeAdj 0 v) s (fun t =>
      t.rd .I_SILENCE 0 = 0 ∧
      (signed 32 v.toNat ≠ 0 ∧ 2048 ≤ s.rd .TIME_INCR 0 → t.timeAdj = v.toNat ∧ t.rd .TIME_STATUS_SLEWING 0 = 1) ∧
      (signed 32 v.toNat = 0 ∨ s.rd .TIME_INCR 0 < 2048 → t.timeAdj = 0 ∧ t.rd .TIME_STATUS_SLEWING 0 = 0) ∧
      s.OnlyRegs t [(.I_SILENCE, 0, 0), (.I_SLEW_MAG, 0, 0), (.I_SLEW_NEG, 0, 0), (.TIME_STATUS_SLEWING, 0, 0)]) ∧
    ∀ die, die ≠ 0 → exec (.timeAdj die v) s = .next s

/-- What the servo declares, and what the watch does when it is enabled and its time has passed, each on die 0; in any other state
the two events of the watch change nothing. -/
def Obligations.ServoAndHoldover : Prop :=
  ∀ s : State, s.Sound →
    Runs (.timeServoDeclareLocked 0) s (fun t =>
      t.rd .TIME_STATUS_SYNC 0 = 1 ∧ t.rd .I_SILENCE 0 = 0 ∧ s.OnlyRegs t [(.TIME_STATUS_SYNC, 0, 0), (.I_SILENCE, 0, 0)]) ∧
    Runs (.timeServoDeclareHoldover 0) s (fun t =>
      t.rd .TIME_STATUS_SYNC 0 = 2 ∧ t.rd .I_SILENCE 0 = 0 ∧ t.rd .I_HOLD 0 = 0 ∧
      s.OnlyRegs t [(.TIME_STATUS_SYNC, 0, 0), (.I_SILENCE, 0, 0), (.I_HOLD, 0, 0)]) ∧
    (s.rd .TIME_WATCH_EN 0 = 1 → s.rd .TIME_STATUS_SYNC 0 = 1 →
      s.rd .TIME_WATCH_SERVO_MS 0 * 500000 ≤ s.rd .I_SILENCE 0 →
      Runs .holdoverEntry s (fun t => t.rd .TIME_STATUS_SYNC 0 = 2 ∧ t.rd .I_HOLD 0 = 0 ∧
        s.OnlyRegs t [(.TIME_STATUS_SYNC, 0, 0), (.I_HOLD, 0, 0)])) ∧
    (s.rd .TIME_WATCH_EN 0 = 1 → s.rd .TIME_STATUS_SYNC 0 = 2 →
      s.rd .TIME_WATCH_HOLD_S 0 * 500000000 ≤ s.rd .I_HOLD 0 →
      Runs .holdoverExpiry s (fun t => t.rd .TIME_STATUS_SYNC 0 = 3 ∧ s.OnlyRegs t [(.TIME_STATUS_SYNC, 0, 0)])) ∧
    (s.rd .TIME_WATCH_EN 0 = 0 ∨ s.rd .TIME_STATUS_SYNC 0 ≠ 1 → exec .holdoverEntry s = .next s) ∧
    (s.rd .TIME_WATCH_EN 0 = 0 ∨ s.rd .TIME_STATUS_SYNC 0 ≠ 2 → exec .holdoverExpiry s = .next s)

/-- Device time under a tick. Without a pending step it advances by TIME_INCR, and by the step or the remainder of a slew; the slew
ends at the tick at which less than a step of it remains. With a pending step the committed value is loaded, and a slew ends. No
byte of any memory, no engine and no register outside the time block (19 R785) changes, but for the weight loads that engines repeat
after a fault and that end with the tick (05 R224, R842). -/
def Obligations.TickMovesDeviceTime : Prop :=
  ∀ s : State, s.Sound →
    let wrap := 2 ^ 64 * 1000000000 * 2 ^ 32
    let incr := s.rd .TIME_INCR 0
    let d := incr / 2048
    let mag := s.rd .I_SLEW_MAG 0
    let aside := fun t : State =>
      t.ticks = (s.ticks + 1) % 2 ^ 64 ∧ t.aux.engines = s.aux.engines ∧ s.SameBytes t ∧ s.BlocksBut t [2]
    let ticks := fun (c : Instr) (P : State → Prop) => Runs c s fun t => ∃ u, P u ∧ aside u ∧ t = endReloads.run u ∧
      ((∀ p ∈ s.aux.engines, p.2.reload = none) → t = u)
    (s.rd .TIME_STATUS_COMMIT_PENDING 0 = 0 → s.rd .TIME_STATUS_SLEWING 0 = 0 →
      ticks .timeTick fun t => t.fineTime = (s.fineTime + incr) % wrap ∧ t.rd .TIME_STEP_COUNT 0 = s.rd .TIME_STEP_COUNT 0) ∧
    (s.rd .TIME_STATUS_COMMIT_PENDING 0 = 0 → s.rd .TIME_STATUS_SLEWING 0 = 1 → d ≠ 0 → d ≤ mag →
      ticks .timeTick fun t =>
        t.fineTime = (if s.rd .I_SLEW_NEG 0 = 1 then s.fineTime + incr - d else s.fineTime + incr + d) % wrap ∧
        t.rd .I_SLEW_MAG 0 = mag - d ∧ t.rd .TIME_STATUS_SLEWING 0 = 1) ∧
    (s.rd .TIME_STATUS_COMMIT_PENDING 0 = 0 → s.rd .TIME_STATUS_SLEWING 0 = 1 → mag < d →
      ticks .slewEnd fun t =>
        t.fineTime = (if s.rd .I_SLEW_NEG 0 = 1 then s.fineTime + incr - mag else s.fineTime + incr + mag) % wrap ∧
        t.rd .TIME_STATUS_SLEWING 0 = 0 ∧ t.timeAdj = 0) ∧
    (s.rd .TIME_STATUS_COMMIT_PENDING 0 = 1 →
      ticks .timeStep fun t =>
        t.fineTime = ((s.reg .pend .TIME_SET_SEC 0 0 * 1000000000 + s.reg .pend .TIME_SET_NS 0 0) * 2 ^ 32 +
          s.reg .pend .TIME_SET_FRAC 0 0 * 2 ^ 16) % wrap ∧
        t.rd .TIME_STATUS_COMMIT_PENDING 0 = 0 ∧ t.rd .TIME_STEP_COUNT 0 = (s.rd .TIME_STEP_COUNT 0 + 1) % 2 ^ 32 ∧
        t.timeAdj = 0 ∧ t.rd .TIME_STATUS_SLEWING 0 = 0)

/-- Egress stamps of PTP messages, with the device time of the port's die: a two-step message's stamp joins its port's FIFO of 64 with
the message's sequence number, type and domain, or is lost and counted when the FIFO is full; a one-step Sync message carries the
stamp's seconds and nanoseconds; TSF_POP takes the oldest stamp of the port. -/
def Obligations.StampFifos : Prop :=
  ∀ (s : State) (die port seqId msgType domain : Nat), s.Sound → s.dieThere die = true → portThere die port = true →
    let sec := s.seconds die
    let ns := s.nanos die
    let frac := s.rd .TIME_NOW_FRAC 0
    let stamp : Stamp := ⟨die, port, sec, ns, frac, seqId, msgType, domain⟩
    let sent := fun (two : Bool) (t : State) => ∃ fields,
      t.aux.outputs.head? = some (.ptpMessage die port (stampBytes sec ns frac (s.rd .TIME_STATUS_SYNC 0)) fields) ∧
        (0, toBe 1 (msgType % 16)) ∈ fields ∧ (4, toBe 1 domain) ∈ fields ∧ (30, toBe 2 seqId) ∈ fields ∧
        (6, toBe 1 (bitIf two 1)) ∈ fields ∧ (∀ f ∈ fields, f.1 = 34 → two = false ∧ msgType % 16 = 0) ∧
        (two = false → msgType % 16 = 0 → (34, toBe 6 sec ++ toBe 4 ns) ∈ fields)
    let only := fun (t : State) (stamps : List Stamp) => s.RegsBut t [] ∧ s.SameBytes t ∧
      t.aux = { s.aux with outputs := t.aux.outputs, stamps := stamps } ∧ t.aux.outputs.tail = s.aux.outputs
    ns < 1000000000 ∧
    sec * 1000000000 + ns = (s.rd .TIME_NOW_SEC 0 * 1000000000 + s.rd .TIME_NOW_NS 0 + dieSkew die) % (2 ^ 64 * 1000000000) ∧
    Runs (.ptpEventSend die port false seqId msgType domain) s (fun t => sent false t ∧ only t s.aux.stamps) ∧
    ((s.stampsOf die port).length < 64 →
      Runs (.ptpEventSend die port true seqId msgType domain) s fun t => sent true t ∧ only t (s.aux.stamps ++ [stamp])) ∧
    (64 ≤ (s.stampsOf die port).length →
      Runs (.ptpEventSend die port true seqId msgType domain) s fun t =>
        t.aux.stamps = s.aux.stamps ∧ t.rd .TSF_STATUS_LOST die port = min (s.rd .TSF_STATUS_LOST die port + 1) 65535 ∧
        s.SameBytes t ∧
        (s.quietSource die (0x050 + port) → s.rd .BELL_HOLDING die = 0 → bellBit s .BELL_PEND die (0x050 + port) = false →
          sent true t ∧ bellBit t .BELL_PEND die (0x050 + port) = true)) ∧
    (∀ x, (s.stampsOf die port).head? = some x →
      Runs (.tsfPop die port) s fun t =>
        s.RegsBut t [] ∧ s.SameBytes t ∧ t.aux = { s.aux with stamps := s.aux.stamps.erase x } ∧
        t.stampsOf die port = (s.stampsOf die port).tail) ∧
    (s.stampsOf die port = [] → exec (.tsfPop die port) s = .next s)

/-- An azimuth master that follows a stream begins to coast when no packet has come for PM_TIMEOUT_US, and is lost when it has coasted
PM_TIMEOUT_REVS revolutions; in any other state of the master the two events change nothing. -/
def Obligations.MastersCoastAndAreLost : Prop :=
  ∀ (s : State) (die m : Nat), s.Sound → s.dieThere die = true →
    (s.pmAzimuth die m = true → s.rd .PM_STATUS_STATE die m = 1 → s.rd .I_PM_PKT_TICK die m < s.ticks →
      s.rd .I_PM_PKT_TICK die m + s.ac .PM_TIMEOUT_US die m * 500 ≤ s.ticks →
      Runs (.masterCoast die m) s fun t =>
        t.rd .PM_STATUS_STATE die m = 2 ∧ t.rd .PM_STATUS_HOLDING die m = 0 ∧ t.rd .I_PM_COAST_TICK die m = s.ticks ∧
        t.rd .I_PM_COAST_TURNS die m = 0 ∧ t.rd .I_PM_COAST_PART die m = 0 ∧ t.rd .PM_STATUS_PHASE die m = s.rd .PM_STATUS_PHASE die m ∧
        s.OnlyRegs t [(.PM_STATUS_STATE, die, m), (.PM_STATUS_HOLDING, die, m), (.I_PM_STARTED, die, m), (.I_PM_WRAPPED, die, m),
          (.I_PM_COAST_TICK, die, m), (.I_PM_COAST_TURNS, die, m), (.I_PM_COAST_PART, die, m)]) ∧
    (s.pmAzimuth die m = true → s.rd .PM_STATUS_STATE die m = 2 → s.ac .PM_TIMEOUT_REVS die m ≤ s.rd .I_PM_COAST_TURNS die m →
      Runs (.masterLost die m) s fun t =>
        t.rd .PM_STATUS_STATE die m = 3 ∧ s.OnlyRegs t [(.PM_STATUS_STATE, die, m)]) ∧
    (s.pmAzimuth die m = false ∨ s.rd .PM_STATUS_STATE die m ≠ 1 → exec (.masterCoast die m) s = .next s) ∧
    (s.pmAzimuth die m = false ∨ s.rd .PM_STATUS_STATE die m ≠ 2 → exec (.masterLost die m) s = .next s)

/-! ### Shadow sets (00 R16 to R22) -/

/-- The pending set of a shadow set holds, at the entries that `sel` names, what the shadow copy held. -/
def Sys2Proof.Machine.State.Snapshot (s t : State) (set : ShadowSet) (die : Nat) (sel : Nat → Prop) : Prop :=
  ∀ f i, f.info.set = set → sel i → t.reg .pend f die i = s.rd f die i

/-- Every commit makes the snapshot of its shadow set the pending set, and leaves the shadow copy as it is; a commit whose set fails
its check leaves the pending set as it is and sets the configuration error. -/
def Obligations.CommitsTakeASnapshot : Prop :=
  ∀ (s : State) (die : Nat), s.Sound → s.dieThere die = true →
    let same := fun (set : ShadowSet) (t : State) => ∀ f i, f.info.set = set → t.rd f die i = s.rd f die i
    let unpended := fun (t : State) => ∀ f d i, t.reg .pend f d i = s.reg .pend f d i
    Runs (.timeSetCommit 0) s (fun t => s.Snapshot t .timeStep 0 (fun _ => True) ∧ t.rd .TIME_STATUS_COMMIT_PENDING 0 = 1) ∧
    (∀ m < 16, Runs (.pmCommit die m) s fun t => s.Snapshot t .pm die (· = m) ∧ same .pm t) ∧
    Runs (.peCommit die) s (fun t => s.Snapshot t .pe die (fun _ => True) ∧ same .pe t) ∧
    (∀ cls, Runs (.bcCommit die cls) s fun t => s.Snapshot t .bc die (· = cls) ∧ same .bc t) ∧
    (∀ core entry, Runs (.prdCommit die core entry) s fun t =>
      s.Snapshot t .prd die (· = core * 16 + entry) ∧ same .prd t ∧ t.rd .PRD_COMMIT_PENDING die (core * 16 + entry) = 1) ∧
    Runs (.mulCommit (.keeper die) die) s (fun t => s.Snapshot t .mul die (fun _ => True) ∧ same .mul t) ∧
    (s.ingRefusal die = none → Runs (.ingCommit die) s fun t =>
      s.Snapshot t .ing die (fun _ => True) ∧ same .ing t ∧ t.rd .ING_STATUS_CFG_ERR die = 0) ∧
    (s.badSlotLog = none → Runs (.jobCommit die) s fun t => s.Snapshot t .job die (fun _ => True) ∧ same .job t) ∧
    (s.ulsRefusal die = none → Runs (.ulsCommit die) s fun t =>
      s.Snapshot t .uls die (fun _ => True) ∧ same .uls t ∧ t.rd .ULS_STATUS_CFG_ERR die = 0) ∧
    (∀ cause e, s.ingRefusal die = some (cause, e) → Runs (.ingCommit die) s fun t => unpended t ∧ t.rd .ING_STATUS_CFG_ERR die = 1) ∧
    (∀ p, s.badSlotLog = some p → Runs (.jobCommit 0) s fun t => unpended t ∧ t.rd .JOB_STATUS_CFG_ERR 0 = 1) ∧
    (∀ cause e, s.ulsRefusal die = some (cause, e) → Runs (.ulsCommit die) s fun t => unpended t ∧ t.rd .ULS_STATUS_CFG_ERR die = 1)

/-- What a commit to a unit that nothing holds back makes active at once: a stopped phase master, a phase-event table without an active
seal, the mullion table. -/
def Obligations.CommitsActiveAtOnce : Prop :=
  ∀ (s : State) (die : Nat), s.Sound → s.dieThere die = true →
    (∀ m < 16, s.pmStopped die m = true → Runs (.pmCommit die m) s fun t =>
      (∀ f, f.info.set = .pm → t.ac f die m = s.rd f die m) ∧ t.rd .PM_STATUS_COMMIT_PENDING die m = 0) ∧
    (∀ m < 16, s.pmStopped die m = false → Runs (.pmCommit die m) s fun t =>
      (∀ f d i, t.ac f d i = s.ac f d i) ∧ t.rd .PM_STATUS_COMMIT_PENDING die m = 1 ∧ s.SameBytes t ∧ t.aux = s.aux) ∧
    (s.anySeal die = false → Runs (.peCommit die) s fun t =>
      (∀ f i, f.info.set = .pe → t.ac f die i = s.rd f die i) ∧ t.rd .PE_STATUS_COMMIT_PENDING die = 0 ∧
      ∀ e < 256, (t.rd .I_PE_DONE die e = 1 ↔
        (s.rd .PE_VALID die e = 1 ∧ s.rd .PE_KIND die e ≤ 4 ∧ s.rd .PE_BASE die e = 1 ∧ s.rd .PE_INSTANT die e ≤ s.now die) ∨
          (die * 256 + e, s.rd .PE_INSTANT die e) ∈ s.aux.instants)) ∧
    (s.anySeal die = true → Runs (.peCommit die) s fun t =>
      (∀ f d i, t.ac f d i = s.ac f d i) ∧ t.rd .PE_STATUS_COMMIT_PENDING die = 1 ∧ s.SameBytes t ∧ t.aux = s.aux) ∧
    Runs (.mulCommit (.keeper die) die) s (fun t =>
      (∀ f i, f.info.set = .mul → t.ac f die i = s.rd f die i) ∧ s.SameBytes t ∧ t.aux = s.aux) ∧
    exec (.mulCommit .host die) s = .next s

/-! ### The Bell (14_the_bell.md) -/

/-- A doorbell write: a word with a reserved bit set, or from a writer that may not ring the source, is counted and dropped; a word for
a source that is already pending, or held, merges; any other sets the source pending, or held while its word is held, and records the
word with the sender's die. -/
def Obligations.DoorbellsArrive : Prop :=
  ∀ (s : State) (who : Requester) (die : Nat) (word : Word), s.Sound → s.dieThere die = true →
    let w := word.toNat
    let src := bits w 0 10
    let rung := Instr.bellDoorbell who die word
    let held := bit (s.rd .BELL_HOLDING die) (src / 32)
    let allowed := bits w 13 3 = 0 ∧ mayRing who src = true
    (¬ allowed → Runs rung s fun t => t.rd .BELL_BAD die = (s.rd .BELL_BAD die + 1) % 2 ^ 32 ∧ s.OnlyRegs t [(.BELL_BAD, die, 0)]) ∧
    (allowed → held = false → bellBit s .BELL_PEND die src = true →
      Runs rung s fun t => t.rd .BELL_MERGED die = (s.rd .BELL_MERGED die + 1) % 2 ^ 32 ∧ s.OnlyRegs t [(.BELL_MERGED, die, 0)]) ∧
    (allowed → held = true → bellBit s .BELL_PEND die src = true ∨ bellBit s .I_BELL_HELD die src = true →
      Runs rung s fun t =>
        t.rd .BELL_MERGED die = (s.rd .BELL_MERGED die + 1) % 2 ^ 32 ∧ bellBit t .I_BELL_HELD die src = true ∧
        s.OnlyRegs t [(.BELL_MERGED, die, 0), (.I_BELL_HELD, die, src / 32)]) ∧
    (allowed → held = true → bellBit s .BELL_PEND die src = false → bellBit s .I_BELL_HELD die src = false →
      Runs rung s fun t =>
        t.rd .BELL_REC die src = putBits w 10 3 (requesterDie who) ∧ bellBit t .I_BELL_HELD die src = true ∧
        s.OnlyRegs t [(.BELL_REC, die, src), (.I_BELL_HELD, die, src / 32)]) ∧
    (allowed → held = false → bellBit s .BELL_PEND die src = false →
      Runs rung s fun t =>
        t.rd .BELL_REC die src = putBits w 10 3 (requesterDie who) ∧ t.rd .BELL_MERGED die = s.rd .BELL_MERGED die ∧
        (s.quietSource die src → bellBit t .BELL_PEND die src = true ∧ s.OnlyRegs t [(.BELL_REC, die, src), (.BELL_PEND, die, src / 32)]))

/-- A word of sources is held, and released: what arrived while it was held becomes pending with what was pending already. -/
def Obligations.BellWordsAreHeldAndReleased : Prop :=
  ∀ (s : State) (die w : Nat), s.Sound → s.dieThere die = true → w < 32 →
    Runs (.bellHoldSet die w) s (fun t =>
      t.rd .BELL_HOLDING die = putBit (s.rd .BELL_HOLDING die) w true ∧ s.OnlyRegs t [(.BELL_HOLDING, die, 0)]) ∧
    ((∀ b < 32, s.quietSource die (w * 32 + b)) →
      Runs (.bellHoldClr die w) s fun t =>
        t.rd .BELL_PEND die w = s.rd .BELL_PEND die w ||| s.rd .I_BELL_HELD die w ∧ t.rd .I_BELL_HELD die w = 0 ∧
        t.rd .BELL_HOLDING die = putBit (s.rd .BELL_HOLDING die) w false ∧
        s.OnlyRegs t [(.BELL_PEND, die, w), (.I_BELL_HELD, die, w), (.BELL_HOLDING, die, 0)])

/-- A claim of the Keeper or of a host vector returns the record word of the presented source, whose pending bit clears and which
becomes active; a claim that finds none returns the none word 0x8000, and arms a host vector. A sequencer's claim register finds none. -/
def Obligations.ClaimsAndCompletions : Prop :=
  ∀ (s : State) (who : Requester) (die target : Nat), s.Sound → s.dieThere die = true →
    (∀ p, claimable die target = true → presented s die target = some p →
      Runs (.bellClaim who die target) s fun t =>
        t.aux = { s.aux with outputs := .readData who (s.rd .BELL_REC p.1 p.2) :: s.aux.outputs } ∧
        bellBit t .BELL_PEND p.1 p.2 = false ∧ bellBit t .BELL_ACTIVE p.1 p.2 = true ∧
        t.rd .I_BELL_ACT_TGT p.1 p.2 = target % 256 ∧ t.rd .I_BELL_ACT_PRIO p.1 p.2 = s.rd .BELL_TGT_PRIO p.1 p.2 ∧
        s.RegsBut t [(.BELL_PEND, p.1, p.2 / 32), (.BELL_ACTIVE, p.1, p.2 / 32), (.I_BELL_ACT_TGT, p.1, p.2),
          (.I_BELL_ACT_PRIO, p.1, p.2)] ∧ s.SameBytes t) ∧
    (claimable die target = false ∨ target = 0 ∧ presented s die 0 = none →
      Runs (.bellClaim who die target) s fun t =>
        t.aux = { s.aux with outputs := .readData who noneWord :: s.aux.outputs } ∧ s.RegsBut t [] ∧ s.SameBytes t) ∧
    (∀ v < 64, presented s 0 (33 + v) = none →
      Runs (.bellClaim who 0 (33 + v)) s fun t =>
        t.aux = { s.aux with outputs := .readData who noneWord :: s.aux.outputs } ∧ t.rd .BELL_MOD_ARMED 0 (33 + v) = 1 ∧
        t.rd .I_MOD_SEEN 0 v = 0 ∧ t.rd .I_MOD_US 0 v = s.rd .BELL_MOD_US 0 (33 + v) ∧
        t.rd .I_MOD_COUNT 0 v = s.rd .BELL_MOD_COUNT 0 (33 + v) ∧ s.SameBytes t) ∧
    (∀ src, (bellActives s die target).filter (fun p => p.2 == src) = [] →
      Runs (.bellComplete die target src) s fun t =>
        t.rd .BELL_BAD_COMPLETE die = (s.rd .BELL_BAD_COMPLETE die + 1) % 2 ^ 32 ∧ s.OnlyRegs t [(.BELL_BAD_COMPLETE, die, 0)]) ∧
    (∀ src p rest, (bellActives s die target).filter (fun p => p.2 == src) = p :: rest →
      Runs (.bellComplete die target src) s fun t => bellBit t .BELL_ACTIVE p.1 src = false ∧ s.SameBytes t)

/-- The message of a host vector: when the moderation time of an armed vector has passed it is sent, or set pending under a mask, or
held while the function cannot send; a pending message goes when its mask clears; held messages go when the function reaches D0. -/
def Obligations.VectorMessages : Prop :=
  ∀ (s : State) (v : Nat), s.Sound → v < 64 →
    (s.rd .BELL_MOD_ARMED 0 (33 + v) = 1 → s.rd .I_MOD_SEEN 0 v ≠ 0 → s.rd .I_MOD_TICK 0 v + s.rd .I_MOD_US 0 v * 500 ≤ s.ticks →
      (s.msixReady = true → s.rd .I_MSIX_MASK 0 v = 0 → s.rd .I_MSIX_FMASK 0 = 0 →
        Runs (.moderationTimerExpiry v) s fun t =>
          t.aux = { s.aux with outputs := .msix v :: s.aux.outputs } ∧ t.rd .BELL_MOD_ARMED 0 (33 + v) = 0 ∧
          s.RegsBut t [(.BELL_MOD_ARMED, 0, 33 + v)] ∧ s.SameBytes t) ∧
      (s.msixReady = true → s.rd .I_MSIX_MASK 0 v = 1 ∨ s.rd .I_MSIX_FMASK 0 = 1 →
        Runs (.moderationTimerExpiry v) s fun t => t.rd .I_MSIX_PBA 0 v = 1 ∧ t.rd .BELL_MOD_ARMED 0 (33 + v) = 0 ∧
          s.OnlyRegs t [(.BELL_MOD_ARMED, 0, 33 + v), (.I_MSIX_PBA, 0, v)]) ∧
      (s.msixReady = false → s.rd .I_PME_EN 0 = 0 →
        Runs (.moderationTimerExpiry v) s fun t => t.rd .BELL_MOD_HELD 0 (33 + v) = 1 ∧ t.rd .BELL_MOD_ARMED 0 (33 + v) = 0 ∧
          s.OnlyRegs t [(.BELL_MOD_ARMED, 0, 33 + v), (.BELL_MOD_HELD, 0, 33 + v)])) ∧
    (s.rd .I_MSIX_PBA 0 v = 1 → s.rd .I_MSIX_FMASK 0 = 0 → s.msixReady = true →
      Runs (.msixUnmask v) s fun t =>
        t.aux = { s.aux with outputs := .msix v :: s.aux.outputs } ∧ t.rd .I_MSIX_MASK 0 v = 0 ∧ t.rd .I_MSIX_PBA 0 v = 0 ∧
        s.RegsBut t [(.I_MSIX_MASK, 0, v), (.I_MSIX_PBA, 0, v)] ∧ s.SameBytes t) ∧
    (s.rd .I_MSIX_PBA 0 v = 0 → Runs (.msixUnmask v) s fun t => t.rd .I_MSIX_MASK 0 v = 0 ∧ s.OnlyRegs t [(.I_MSIX_MASK, 0, v)]) ∧
    (∀ width gen, s.rd .I_PERST 0 = 0 →
      Runs (.pcieD0Entry true width gen) s fun t =>
        t.rd .PCIE_STATUS_DSTATE 0 = 0 ∧ t.rd .PCIE_STATUS_LINK 0 = 1 ∧ t.rd .I_MSIX_EN 0 = 1 ∧ t.rd .BELL_MOD_HELD 0 (33 + v) = 0 ∧
        (s.rd .BELL_MOD_HELD 0 (33 + v) = 1 → s.rd .I_MSIX_MASK 0 v = 0 → s.rd .I_MSIX_FMASK 0 = 0 →
          .msix v ∈ t.aux.outputs) ∧
        (s.rd .BELL_MOD_HELD 0 (33 + v) = 1 → s.rd .I_MSIX_MASK 0 v = 1 ∨ s.rd .I_MSIX_FMASK 0 = 1 → t.rd .I_MSIX_PBA 0 v = 1) ∧
        s.SameBytes t)

/-- An edge of an event pin that its latch catches rings the pin's source with the edges counted since the last ring as its tag, and
zeroes the count; any other edge only moves the level. -/
def Obligations.EventPinsRing : Prop :=
  ∀ (s : State) (pin ns : Nat) (rising : Bool), s.Sound → pin < 8 → s.rd .I_HELD_COLD 0 = 0 →
    bit (s.rd .PKG_WAKE_LATCH 0) pin = false →
    let src := 0x070 + pin
    (latchCatches s pin rising = false ∨ ns < 10 →
      Runs (.eventPinEdge pin rising ns) s fun t =>
        t.rd .LATCH_LEVEL 0 pin = b2n rising ∧ s.OnlyRegs t [(.LATCH_LEVEL, 0, pin)]) ∧
    (latchCatches s pin rising = true → 10 ≤ ns → s.quietSource 0 src → bellBit s .BELL_PEND 0 src = false →
      bit (s.rd .BELL_HOLDING 0) (src / 32) = false →
      Runs (.eventPinEdge pin rising ns) s fun t =>
        t.rd .LATCH_LEVEL 0 pin = b2n rising ∧ t.rd .LATCH_EDGES 0 pin = 0 ∧ bellBit t .BELL_PEND 0 src = true ∧
        t.rd .BELL_REC 0 src = src + min (s.rd .LATCH_EDGES 0 pin + 1) 255 * 65536 ∧
        s.OnlyRegs t [(.LATCH_LEVEL, 0, pin), (.LATCH_EDGES, 0, pin), (.BELL_PEND, 0, src / 32), (.BELL_REC, 0, src)])

/-- The events of a dispatch are those that fired at one tick, now over, on one die, and they are delivered in the order of R86: publish deadlines
first, then seals, blind-sector checks, proof passes and job starts; of one kind, those of phase masters by master and crossing, then
those of instants in the order of their instants; those that tie by entry. Those for the die itself are delivered one after the other
in that order, the others go on their way to their die in it. -/
def Obligations.DispatchOrder : Prop :=
  ∀ (s : State) (die : Nat),
    let past := fun (g : Fired) => g.die == die && decide (g.group < s.ticks)
    (∀ f, s.aux.fired.find? past = some f →
      (s.dispatchOf die).Perm (s.aux.fired.filter fun g => g.die == die && g.group == f.group) ∧
      (s.dispatchOf die).Pairwise fun a b =>
        toLex (kindOrder a.kind, toLex (b2n (!a.phased), toLex (a.master, toLex (a.cross, a.entry)))) ≤
          toLex (kindOrder b.kind, toLex (b2n (!b.phased), toLex (b.master, toLex (b.cross, b.entry))))) ∧
    (s.aux.fired.find? past = none → s.dispatchOf die = []) ∧
    let fs := s.dispatchOf die
    exec (.phaseEventDispatch die) s = .next ((Act.all (deliverAll [] (fs.filter fun f => f.targetDie == die))).run
      ((Act.aux fun a => { a with
        fired := a.fired.filter fun f => !fs.contains f
        remote := a.remote ++ fs.filter fun f => f.targetDie != die && s.dieThere f.targetDie }).run s))

/-- A dispatch leaves the list of fired events; its events for another die go on their way there, in order, and those for its own die are
delivered in order. Of several seals of one stream in one dispatch the first seals and each other is counted as merged. Events that
come from another die are delivered there alike. -/
def Obligations.EventsAreDelivered : Prop :=
  ∀ (s : State) (die : Nat), s.Sound →
    let fs := s.dispatchOf die
    let left := s.aux.fired.filter fun f => !fs.contains f
    ((∀ f ∈ fs, f.targetDie ≠ die ∧ s.dieThere f.targetDie = true) →
      Runs (.phaseEventDispatch die) s fun t =>
        t.aux = { s.aux with fired := left, remote := s.aux.remote ++ fs } ∧ s.RegsBut t [] ∧ s.SameBytes t) ∧
    (∀ f, fs = [f] → f.targetDie = die →
      exec (.phaseEventDispatch die) s =
        .next ((deliver f true).run ((Act.aux fun a => { a with fired := left }).run s))) ∧
    (∀ f g, fs = [f, g] → f.targetDie = die → g.targetDie = die → f.kind = 0 → g.kind = 0 → f.target = g.target → f.target < 48 →
      Runs (.phaseEventDispatch die) s fun t =>
        t.rd .SC_SEAL_MERGED die f.target = (s.rd .SC_SEAL_MERGED die f.target + 1) % 2 ^ 32) ∧
    (∀ f, s.remoteOf die = [f] →
      exec (.remoteEventDelivery die) s =
        .next ((deliver f true).run ((Act.aux fun a => { a with remote := s.aux.remote.filter fun g => !(g == f) }).run s)))

/-! ### Ingest (03_ingest.md) -/

/-- A range of bytes lies in one HBM stack whose die, fabric and PHY are on and which answers accesses. -/
def Sys2Proof.Machine.State.openHbm (s : State) (a len : Nat) : Prop :=
  a < 2 ^ 48 ∧ ∃ st off, placeOf (addrOff a) = .hbm st off ∧ s.placeOn (addrDie a) (.hbm st off) = true ∧
    s.hbmReady (addrDie a) st = true ∧ off + len ≤ stackBytes

/-- Every byte outside a range is what it was. -/
def Sys2Proof.Machine.State.BytesBut (s t : State) (a len : Nat) : Prop :=
  (∀ j, j < a ∨ a + len ≤ j → t.byte j = s.byte j) ∧ ∀ j, t.cfgByte j = s.cfgByte j

/-- What becomes of a frame that a data port accepts: it is counted, and by its class counted as bad, left alone, handed over with its
stamp, kept for the Keeper with its stamp, or counted for its stream and queued for decoding. A frame that the port does not accept changes nothing. -/
def Obligations.FramesAreClassified : Prop :=
  ∀ (s : State) (die port : Nat) (frame : List Byte), s.Sound → s.dieThere die = true → port < 2 →
    let got := Instr.ethFrameReceive die port frame
    let counted := fun (t : State) => t.rd .ETH_RX_FRAMES die port = (s.rd .ETH_RX_FRAMES die port + 1) % 2 ^ 64
    let accepted := s.portPasses die port = true ∧ s.macForPort die port frame = true
    let room := (s.aux.keeperQueue.filter fun q => q.die == die).length ≤ Config.keeperQueueCap
    (¬ accepted → exec got s = .next s) ∧
    (accepted → s.classify die port frame = .bad → Runs got s fun t => counted t ∧
      t.rd .ING_RX_BAD die port = (s.rd .ING_RX_BAD die port + 1) % 2 ^ 32 ∧
      s.OnlyRegs t [(.ETH_RX_FRAMES, die, port), (.ING_RX_BAD, die, port)]) ∧
    (accepted → s.classify die port frame = .foreign → Runs got s fun t => counted t ∧ s.OnlyRegs t [(.ETH_RX_FRAMES, die, port)]) ∧
    (accepted → s.classify die port frame = .ptp → Runs got s fun t => counted t ∧
      t.aux = { s.aux with outputs := .ptpHandoff die port (s.fullStamp die) frame :: s.aux.outputs } ∧
      s.RegsBut t [(.ETH_RX_FRAMES, die, port)] ∧ s.SameBytes t) ∧
    (accepted → s.classify die port frame = .other → room → Runs got s fun t => counted t ∧
      t.rd .ING_RX_UNMATCHED die port = (s.rd .ING_RX_UNMATCHED die port + 1) % 2 ^ 32 ∧
      t.aux = { s.aux with keeperQueue := s.aux.keeperQueue ++ [⟨die, frame, [], s.fullStamp die⟩] } ∧ s.SameBytes t) ∧
    (accepted → s.classify die port frame = .other → ¬ room → Runs got s fun t => counted t ∧
      t.rd .ING_KEEPER_DROP die = (s.rd .ING_KEEPER_DROP die + 1) % 2 ^ 32 ∧ t.aux = s.aux ∧ s.SameBytes t) ∧
    (∀ d i, accepted → s.classify die port frame = .udp d → s.streamOf die port d = some i → s.ac .SE_KIND die i ≠ 0 →
      s.rd .PKG_STATE 0 = 0 ∨ s.rd .PKG_STATE 0 = 3 → queueBytes die s.aux.packets + d.payload.length ≤ 256 * 1024 →
      Runs got s fun t => counted t ∧ t.rd .SC_PKTS die i = (s.rd .SC_PKTS die i + 1) % 2 ^ 32 ∧
        t.aux = { s.aux with packets := s.aux.packets ++
          [⟨die, i, s.now die, s.seqNow die i, s.acOn .SE_SAFETY die i, d.payload⟩] } ∧
        s.RegsBut t [(.ETH_RX_FRAMES, die, port), (.SC_PKTS, die, i)] ∧ s.SameBytes t)

/-- The decoder takes the oldest packet that it can decode, safety streams first. A pose sample is accepted when it is newer than the
newest held and its quaternion has nearly unit length; a packet of points whose length falls short is dropped and counted; the one
point of a packet of one point is counted as no return, dropped and counted, or stored in the next place of its frame's buffer. -/
def Obligations.PacketsAreDecoded : Prop :=
  ∀ (s : State) (die : Nat) (p : Packet), s.Sound →
    let ready := s.aux.packets.filter fun q => q.die == die && s.decodable q
    let kind := s.ac .SE_KIND p.die p.entry
    let t := s.template p.die p.entry
    ((ready.filter fun q => q.safety) ++ ready).head? = some p →
    (kind = 1 → 48 ≤ p.payload.length → leAt p.payload 0 2 = 0x5058 → byteAt p.payload 2 = 1 → byteAt p.payload 3 = 1 →
      let f := fun k => signed 32 (leAt p.payload (8 + k) 4)
      let x : PoseSample := ⟨p.die, p.entry, leAt p.payload 8 8, f 8, f 12, f 16, f 20, f 24, f 28, f 32⟩
      let norm := x.qw * x.qw + x.qx * x.qx + x.qy * x.qy + x.qz * x.qz
      let good := 2 ^ 59 ≤ norm ∧ norm ≤ 2 ^ 61 ∧ ∀ h, (s.samples p.die p.entry).getLast? = some h → h.time < x.time
      (good → (s.samples p.die p.entry).length < 64 → Runs (.packetDecode die) s fun u =>
        u.aux = { s.aux with packets := s.aux.packets.erase p, poses := s.aux.poses ++ [x] } ∧ s.RegsBut u [] ∧ s.SameBytes u) ∧
      (¬ good → Runs (.packetDecode die) s fun u =>
        u.rd .SC_POSE_REJECT p.die p.entry = (s.rd .SC_POSE_REJECT p.die p.entry + 1) % 2 ^ 32 ∧
        u.aux = { s.aux with packets := s.aux.packets.erase p } ∧ s.RegsBut u [(.SC_POSE_REJECT, p.die, p.entry)] ∧ s.SameBytes u)) ∧
    (kind = 0 → p.payload.length < t.need → Runs (.packetDecode die) s fun u =>
      u.rd .SC_DROP_UNPARSED p.die p.entry = (s.rd .SC_DROP_UNPARSED p.die p.entry + 1) % 2 ^ 32 ∧
      u.aux = { s.aux with packets := s.aux.packets.erase p } ∧ s.RegsBut u [(.SC_DROP_UNPARSED, p.die, p.entry)] ∧ s.SameBytes u) ∧
    (∀ fr, kind = 0 → t.need ≤ p.payload.length → t.reads 8 = false → t.blocks = 1 → t.points = 1 →
      s.frame p.die p.entry p.seq = some fr →
      let fate := s.decodePoint p.die p.entry t p.payload (t.packetTime p.payload p.stamp) fr.base false 0 0
      (fate = .noReturn → Runs (.packetDecode die) s fun u =>
        u.rd .SC_NORETURN p.die p.entry = (s.rd .SC_NORETURN p.die p.entry + 1) % 2 ^ 32 ∧ s.SameBytes u) ∧
      (fate = .dropTime → Runs (.packetDecode die) s fun u =>
        u.rd .SC_DROP_TIME p.die p.entry = (s.rd .SC_DROP_TIME p.die p.entry + 1) % 2 ^ 32 ∧ s.SameBytes u) ∧
      (∀ q, fate = .kept q → fr.safety = false → fr.buf.isSome = true → fr.count < fr.cap → s.openHbm (fr.bufAddr + 16 * fr.count) 16 →
        Runs (.packetDecode die) s fun u =>
          u.bytes (fr.bufAddr + 16 * fr.count) 16 = q.bytes ∧ s.BytesBut u (fr.bufAddr + 16 * fr.count) 16 ∧
          ∃ g, u.frame p.die p.entry p.seq = some g ∧ g.count = fr.count + 1 ∧ g.packets = fr.packets + 1))

/-- The header of a sealed frame is written into its slot; a frame whose header cannot be written goes at once, is bound by no job from
then on, and is withdrawn with a record when it owes one; a point record or audio position whose write fails, also after the seal, marks
its frame and is counted, and no other byte of the buffer changes. With no such header or no such point nothing changes. -/
def Obligations.HeadersAndWriteErrors : Prop :=
  ∀ (s : State) (die entry : Nat), s.Sound → s.dieThere die = true →
    (∀ f, s.headerDue die entry = some f → s.openHbm f.hdrAddr 64 →
      Runs (.frameHeaderWrite die entry) s fun t =>
        t.bytes f.hdrAddr 64 = f.header ∧ s.BytesBut t f.hdrAddr 64 ∧
        (f.accepted = true → f.ended = false → { f with hdrDone := true } ∈ t.aux.frames) ∧
        (f.accepted = false → ∀ g ∈ t.aux.frames, g.is die entry f.seq = false)) ∧
    (∀ f, s.headerDue die entry = some f →
      Runs (.headerWriteError die entry) s fun t =>
        t.rd .SC_WRITE_ERR die entry = (s.rd .SC_WRITE_ERR die entry + 1) % 2 ^ 32 ∧
        (∀ g ∈ t.aux.frames, g.is die entry f.seq = false) ∧
        (∀ j ∈ t.aux.jobs, ∀ b ∈ j.binds, ¬ (b.die = f.die ∧ b.entry = f.entry ∧ b.seq = some f.seq)) ∧
        (f.accepted = true → f.ended = false →
          t.rd .PT_WITHDRAWN 0 f.part = (s.rd .PT_WITHDRAWN 0 f.part + 1) % 2 ^ Fld.PT_WITHDRAWN.info.width)) ∧
    (s.headerDue die entry = none →
      exec (.frameHeaderWrite die entry) s = .next s ∧ exec (.headerWriteError die entry) s = .next s) ∧
    ∀ point,
      let mine := fun (f : Frame) => f.die = die ∧ f.entry = entry ∧ f.hdrDone = false ∧ f.buf.isSome = true ∧ point < f.count
      (∀ f before after, s.aux.frames = before ++ f :: after → mine f → (∀ g ∈ before, ¬ mine g) →
        Runs (.pointWriteError die entry point) s fun t =>
          let row := if f.kind = 2 then (4 * f.channels + 63) / 64 * 64 else 16
          t.rd .SC_WRITE_ERR die entry = (s.rd .SC_WRITE_ERR die entry + 1) % 2 ^ 32 ∧
          bit (f.flag frameWriteErr).flags 10 = true ∧ f.flag frameWriteErr ∈ t.aux.frames ∧
          s.BytesBut t (f.bufAddr + row * point) row) ∧
      ((∀ f ∈ s.aux.frames, ¬ mine f) → exec (.pointWriteError die entry point) s = .next s)

/-! ### The sequencer (10_cores_and_command_lists.md) -/

/-- A context can issue this command now, with no other command of its in flight or to be issued again, and no reserved bit of the
command is set (10 R424, R425, R437). -/
def Sys2Proof.Machine.State.atCommand (s : State) (die core c : Nat) (i : Issue) : Prop :=
  s.nextCmd die core c = i ∧ s.canIssue die core c i = true ∧ (s.ctx die core c).again = [] ∧ (s.ctx die core c).flight = [] ∧
  i.words ≠ [] ∧ ∀ n < 8, undefinedField (i.w n) ((definedBits i.op).getD n 0) = none

/-- The command has been counted. -/
def Sys2Proof.Machine.State.Counted (s t : State) (die core c : Nat) : Prop :=
  t.rd .SQ_CMDS die core = (s.rd .SQ_CMDS die core + 1) % 2 ^ 32 ∧
  t.rd .CTX_CMDS die (ctxIdx core c) = (s.rd .CTX_CMDS die (ctxIdx core c) + 1) % 2 ^ 32

/-- The list goes on at a place: at the start of the innermost loop whose body ends there while it has iterations left, else there,
with the loops that are then active. -/
def Sys2Proof.Machine.State.GoesOn (s t : State) (die core c pc : Nat) : Prop :=
  t.rd .CTX_PC die (ctxIdx core c) = (loopNext pc (s.ctx die core c).loops).1 % 2 ^ Fld.CTX_PC.info.width ∧
  (t.ctx die core c).loops = (loopNext pc (s.ctx die core c).loops).2.1

/-- What every other context and engine of the package holds is unchanged. -/
def Sys2Proof.Machine.State.OtherContexts (s t : State) (die core c : Nat) : Prop :=
  (∀ d n x, unitKey d n x ≠ unitKey die core c → t.ctx d n x = s.ctx d n x) ∧ ∀ d n e, t.engine d n e = s.engine d n e

/-- No context of a core waits on a semaphore, in case the command signals. -/
def Sys2Proof.Machine.State.noWaiter (s : State) (die core : Nat) (i : Issue) : Prop :=
  i.sig = true → ∀ x < 4, s.ctxState die core x ≠ 2

/-- Every semaphore holds what `v` says, but that a command with SIG has added 1, saturating, to its semaphore (10 R453, R468). -/
def Sys2Proof.Machine.State.SemsAre (t : State) (die core : Nat) (i : Issue) (v : Nat → Nat → Nat) : Prop :=
  ∀ d k, t.rd .SEM_VALUE d k =
    if i.sig = true ∧ d = die ∧ k = core * 32 + i.sem then min (v d k + 1) 65535 else v d k

/-- No read of a command meets a fault of the memory, and no pre-emption stops the command on its way (the course of its `Turn`; log entries
55 and 60). -/
def Sys2Proof.Course.Smooth (k : Course) : Prop := k.stop = none ∧ ∀ m ∈ k.meets, m.2 = .ok

/-- NOP completes at once and does nothing else; FENCE does the same once no earlier command of its context on its units is in flight,
and does not issue before. SIG adds 1 to the command's semaphore when it completes. -/
def Obligations.NopAndFence : Prop :=
  ∀ (s : State) (die core c : Nat) (i : Issue), s.Sound → s.atCommand die core c i → s.noWaiter die core i →
    let after := fun (t : State) => s.Counted t die core c ∧ s.GoesOn t die core c (i.addr + 32) ∧ (t.ctx die core c).flight = [] ∧
      s.OtherContexts t die core c ∧ s.SameBytes t ∧ t.SemsAre die core i (fun d k => s.rd .SEM_VALUE d k) ∧
      s.FieldsBut t [.SQ_CMDS, .CTX_CMDS, .CTX_PC, .CTX_LOOPS, .CTX_CNT, .I_NEXT_ID, .SEM_VALUE]
    (i.op = 0x01 → Runs (.nop die core c) s after) ∧
    (i.op = 0x08 → Runs (.fence die core c) s after)

/-- A FENCE that names a unit on which an earlier command of its context is in flight does not issue. -/
def Obligations.FenceWaits : Prop :=
  ∀ (s : State) (die core c : Nat) (f : Flight),
    f ∈ (s.ctx die core c).flight → f.units &&& bits ((s.nextCmd die core c).w 1) 0 6 ≠ 0 → exec (.fence die core c) s = .next s

/-- A command without a row ends with CMD_INVALID, or with the error of the field or of the fetch that is at fault; without CONT its
list stops: the context shows the error and is stopped. -/
def Obligations.InvalidCommandsStopTheList : Prop :=
  ∀ (s : State) (die core c : Nat) (i : Issue), s.Sound → s.nextCmd die core c = i → s.canIssue die core c i = true →
    (s.ctx die core c).again = [] → (s.ctx die core c).flight = [] → (s.ctx die core c).owner = .none →
    rowless i = true → i.cont = false →
    let code := fun (t : State) => t.rd .CTX_ERR_CODE die (ctxIdx core c)
    Runs (.cmdInvalid die core c) s fun t =>
      s.Counted t die core c ∧ t.ctxState die core c = 5 ∧ t.ctx die core c = {} ∧
      (i.words ≠ [] → code t = if i.op = 0x20 ∨ i.op = 0x22 ∨ i.op = 0x09 then codeField else 0x01) ∧
      (i.words = [] → i.addr % 32 ≠ 0 → code t = codeAlign) ∧
      (i.words = [] → i.addr % 32 = 0 → storeRangeOk i.addr 32 = false → code t = codeRange) ∧
      (i.words = [] → i.addr % 32 = 0 → storeRangeOk i.addr 32 = true → code t ∈ [codeFabric, codeStoreCrc, codeStorePoison]) ∧
      t.rd .CTX_ERR_OPCODE die (ctxIdx core c) = i.op ∧
      t.rd .CTX_ERR_ADDR die (ctxIdx core c) = i.addr % 2 ^ Fld.CTX_ERR_ADDR.info.width ∧
      t.rd .SQ_ERRORS die core = (s.rd .SQ_ERRORS die core + 1) % 2 ^ Fld.SQ_ERRORS.info.width ∧ (∀ a, t.byte a = s.byte a) ∧
      (i.words ≠ [] → s.SameBytes t)

/-- END of a list with nothing else in flight ends the list: its context becomes idle and holds nothing, and weights that it staged and
no pass took are gone. -/
def Obligations.EndEndsTheList : Prop :=
  ∀ (s : State) (die core c : Nat) (i : Issue), s.Sound → s.atCommand die core c i → i.op = 0x02 → s.noWaiter die core i →
    Runs (.endList die core c) s fun t =>
      s.Counted t die core c ∧ t.ctxState die core c = 0 ∧ t.ctx die core c = {} ∧ t.SemsAre die core i (fun d k => s.rd .SEM_VALUE d k) ∧
      (∀ e < 4, (s.engine die core e).stagedCtx = c → (t.engine die core e).staged = none) ∧
      ((∀ part jseq j, (s.ctx die core c).owner = .job part jseq → s.job part jseq = some j → j.kind ≠ 1) → s.SameBytes t)

/-- WAIT takes its count from the semaphore when the semaphore holds it, and completes; else it blocks its context, or with a time of
zero ends with WAIT_TIMEOUT. SIGNAL sends its add, to its own core or to the physical core that serves its logical core, when no earlier
command on its units is in flight, and stays in flight. -/
def Obligations.SemaphoreCommands : Prop :=
  ∀ (s : State) (die core c : Nat) (i : Issue), s.Sound → s.atCommand die core c i →
    let sem := core * 32 + bits (i.w 1) 0 5
    let count := bits (i.w 2) 0 16
    let sends := fun (t : State) (d n : Nat) => s.Counted t die core c ∧ s.GoesOn t die core c (i.addr + 32) ∧
      (∃ f, (t.ctx die core c).flight = [f] ∧ f.ending = none ∧
        t.aux.semAdds = s.aux.semAdds ++ [⟨d, n, bits (i.w 1) 0 5, count, die, core, c, f.id⟩]) ∧ s.SameBytes t
    (i.op = 0x03 → count ≤ s.rd .SEM_VALUE die sem → s.noWaiter die core i →
      Runs (.wait die core c) s fun t => s.Counted t die core c ∧ s.GoesOn t die core c (i.addr + 32) ∧
        (t.ctx die core c).flight = [] ∧ s.SameBytes t ∧
        s.FieldsBut t [.SQ_CMDS, .CTX_CMDS, .CTX_PC, .CTX_LOOPS, .CTX_CNT, .I_NEXT_ID, .SEM_VALUE] ∧
        t.SemsAre die core i fun d k => if d = die ∧ k = sem then s.rd .SEM_VALUE die sem - count else s.rd .SEM_VALUE d k) ∧
    (i.op = 0x03 → s.rd .SEM_VALUE die sem < count → i.timeout ≠ some 0 →
      Runs (.wait die core c) s fun t => s.Counted t die core c ∧ s.GoesOn t die core c (i.addr + 32) ∧ t.ctxState die core c = 2 ∧
        (∃ f, (t.ctx die core c).flight = [f] ∧ f.ending = none ∧ f.cmd.words = i.words ∧ f.tick = s.ticks) ∧ s.SameBytes t ∧
        s.FieldsBut t [.SQ_CMDS, .CTX_CMDS, .CTX_PC, .CTX_LOOPS, .CTX_CNT, .I_NEXT_ID, .CTX_STATE]) ∧
    (i.op = 0x03 → s.rd .SEM_VALUE die sem < count → i.timeout = some 0 → i.cont = false → (s.ctx die core c).owner = .none →
      Runs (.wait die core c) s fun t => s.Counted t die core c ∧ t.ctxState die core c = 5 ∧
        t.rd .CTX_ERR_CODE die (ctxIdx core c) = 0x0D ∧ s.SameBytes t) ∧
    (i.op = 0x04 → bit (i.w 1) 13 = true → Runs (.signal die core c) s fun t => sends t die core) ∧
    (i.op = 0x04 → bit (i.w 1) 13 = false →
      Runs (.signal die core c) s fun t => sends t (bits (i.w 1) 10 3) (s.physCore (bits (i.w 1) 10 3) (bits (i.w 1) 5 5)))

/-- The two events that end a SIGNAL and a wait. -/
def Obligations.AddsArriveAndWaitsTimeOut : Prop :=
  ∀ (s : State) (die core c : Nat), s.Sound → core < 32 → c < 4 →
    (∀ a, s.aux.semAdds.find? (fun x => x.die == die && x.core == core) = some a → a.sdie = die → a.score = core →
      (∀ x < 4, s.ctxState die core x ≠ 2) →
      let k := core * 32 + a.sem
      Runs (.semaphoreAdd die core) s fun t =>
        t.rd .SEM_VALUE die k = min (s.rd .SEM_VALUE die k + a.count) 65535 ∧ t.aux.semAdds = s.aux.semAdds.erase a ∧
        (∀ f ∈ (t.ctx die core a.sctx).flight, f.id = a.sid →
          f.ending = some ⟨if 65535 < s.rd .SEM_VALUE die k + a.count then 0x0E else 0, 0, 0⟩) ∧
        s.RegsBut t [(.SEM_VALUE, die, k)] ∧ s.SameBytes t) ∧
    (∀ f us, s.waiting die core c = some f → f.cmd.timeout = some us → s.ctxState die core c = 2 → f.tick + us * 500 ≤ s.ticks →
      Runs (.waitTimeout die core c) s fun t =>
        t.ctxState die core c = 1 ∧ s.SameBytes t ∧
        ∀ g ∈ (t.ctx die core c).flight, g.id = f.id → g.ending = some (timeoutError s die core f.cmd))

/-- WAIT_BELL claims and completes its source when the source is presented to its core from a die that matches, and keeps the tag in its
counter; else it blocks its context. -/
def Obligations.WaitBell : Prop :=
  ∀ (s : State) (die core c : Nat) (i : Issue), s.Sound → s.atCommand die core c i → i.op = 0x05 →
    let src := bits (i.w 1) 0 10
    (s.bellMet die core (i.w 1) = true → s.noWaiter die core i →
      Runs (.waitBell die core c) s fun t => s.Counted t die core c ∧ bellBit t .BELL_PEND die src = false ∧
        t.SemsAre die core i (fun d k => s.rd .SEM_VALUE d k) ∧
        (t.ctx die core c).flight = [] ∧ (bits (i.w 3) 0 3 ≠ 0 → t.counter die core c (bits (i.w 3) 0 3) = bits (s.rd .BELL_REC die src) 16 16) ∧
        s.SameBytes t) ∧
    (s.bellMet die core (i.w 1) = false → i.timeout ≠ some 0 →
      Runs (.waitBell die core c) s fun t => s.Counted t die core c ∧ t.ctxState die core c = 2 ∧
        (∀ d n, bellBit t .BELL_PEND d n = bellBit s .BELL_PEND d n) ∧ s.SameBytes t)

/-- LOOP begins a loop at the next command, or skips its body when the body or the count is empty; a fifth loop is CMD_NEST.
BRANCH_CNT computes its counter, clears the flags that its condition tests, and goes to its target, leaving the loops that do not hold
it, or on; without a counter where its operation or condition needs one, or with a condition that no row names, it ends with CMD_FIELD,
with a target outside the store with ADDR_RANGE. -/
def Obligations.LoopsAndBranches : Prop :=
  ∀ (s : State) (die core c : Nat) (i : Issue), s.Sound → s.atCommand die core c i → s.noWaiter die core i → i.addr < 2 ^ 24 →
    let signals := fun (t : State) => t.SemsAre die core i (fun d k => s.rd .SEM_VALUE d k)
    let stops := fun (t : State) (code : Nat) => s.Counted t die core c ∧ t.ctxState die core c = 5 ∧
      t.rd .CTX_ERR_CODE die (ctxIdx core c) = code ∧ s.SameBytes t
    let loops := (s.ctx die core c).loops
    let body := bits (i.w 1) 0 12
    let start := i.addr + 32
    (i.op = 0x06 → body ≠ 0 → i.w 2 ≠ 0 → loops.length < 4 →
      Runs (.loop die core c) s fun t => s.Counted t die core c ∧ t.rd .CTX_PC die (ctxIdx core c) = start % 2 ^ Fld.CTX_PC.info.width ∧
        (t.ctx die core c).loops = ⟨start, start + 32 * body, i.w 2, 0, bits (i.w 3) 0 3⟩ :: loops ∧
        (∀ n, 1 ≤ n → n < 8 → t.counter die core c n = if n = bits (i.w 3) 0 3 then 0 else s.counter die core c n) ∧
        signals t ∧ s.SameBytes t) ∧
    (i.op = 0x06 → body = 0 ∨ i.w 2 = 0 →
      Runs (.loop die core c) s fun t => s.Counted t die core c ∧ s.GoesOn t die core c (start + 32 * body) ∧ signals t ∧
        s.SameBytes t) ∧
    (i.op = 0x06 → body ≠ 0 → i.w 2 ≠ 0 → 4 ≤ loops.length → i.cont = false → (s.ctx die core c).owner = .none →
      Runs (.loop die core c) s fun t => stops t codeNest) ∧
    (let op := bits i.mode 0 2
      let cond := bits i.mode 4 3
      let ctr := bits (i.w 1) 0 3
      i.op = 0x07 → 5 < cond ∨ (ctr = 0 ∧ (op ≠ 0 ∨ cond = 2 ∨ cond = 3 ∨ cond = 4)) → i.cont = false →
        (s.ctx die core c).owner = .none → Runs (.branchCnt die core c) s fun t => stops t codeField) ∧
    (∀ v, i.op = 0x07 → bits i.mode 4 3 ≤ 5 →
      let op := bits i.mode 0 2
      let cond := bits i.mode 4 3
      let ctr := bits (i.w 1) 0 3
      let old := s.counter die core c ctr
      let flags := s.rd .CTX_CFLAGS die (ctxIdx core c)
      let mask := bits (i.w 4) 0 8
      let target : Int := i.addr + 32 * signed 32 (i.w 3)
      (ctr = 0 → op = 0 ∧ cond ≠ 2 ∧ cond ≠ 3 ∧ cond ≠ 4) →
      v = (if op = 0 then old else if op = 1 then i.w 2 else if op = 2 then (old + i.w 2) % 2 ^ 32
        else s.le (storeAddr die core ((⟨die, core, c, i⟩ : Cx).la 2)) 4) →
      (op = 3 → s.suspectStore die core = false ∧ storeRangeOk ((⟨die, core, c, i⟩ : Cx).la 2) 4 = true) →
      (branchTaken cond v flags mask = false →
        Runs (.branchCnt die core c) s fun t => s.Counted t die core c ∧ s.SameBytes t ∧ s.GoesOn t die core c start ∧ signals t ∧
          (op ≠ 0 → (loopNext start loops).2.2 = none → t.counter die core c ctr = v % 2 ^ 32) ∧
          t.rd .CTX_CFLAGS die (ctxIdx core c) = (if cond = 5 then clearFlags flags mask else flags)) ∧
      (branchTaken cond v flags mask = true → target < 0 ∨ storeRangeOk target.toNat 32 = false → i.cont = false →
        (s.ctx die core c).owner = .none → Runs (.branchCnt die core c) s fun t => stops t codeRange) ∧
      (branchTaken cond v flags mask = true → 0 ≤ target → storeRangeOk target.toNat 32 = true →
        Runs (.branchCnt die core c) s fun t => s.Counted t die core c ∧ s.SameBytes t ∧ signals t ∧
          t.rd .CTX_PC die (ctxIdx core c) = target.toNat % 2 ^ Fld.CTX_PC.info.width ∧
          (op ≠ 0 → t.counter die core c ctr = v % 2 ^ 32) ∧
          t.rd .CTX_CFLAGS die (ctxIdx core c) = (if cond = 5 then clearFlags flags mask else flags) ∧
          (t.ctx die core c).loops = loops.dropWhile fun l => !(decide (l.start ≤ target.toNat ∧ target.toNat < l.stop))))

/-- A command that has ended completes: its flags are kept, its units go on; with an error and CONT the error is counted and the list goes
on, without CONT the list stops with the error once nothing else of it is in flight. A command that has not ended, or stands behind
another of its context on the vector unit or the mover, does not complete; one that stands at a pre-emption point goes on first. -/
def Obligations.CommandsComplete : Prop :=
  ∀ (s : State) (die core c index : Nat), s.Sound → core < 32 → c < 4 →
    let flight := (s.ctx die core c).flight
    let complete := Instr.commandComplete die core c index
    let flags := s.rd .CTX_CFLAGS die (ctxIdx core c)
    (∀ f e, mayComplete flight index = some (f, e) → s.noWaiter die core f.cmd → (s.ctx die core c).stop = none →
      (∀ g ∈ flight, g.begun = true ∧ g.cmd.op ≠ 0x02 ∧ g.cmd.op ≠ 0x04) →
      (e.code = 0 → Runs complete s fun t =>
        t.rd .CTX_CFLAGS die (ctxIdx core c) = (flags ||| e.flags) % 256 ∧
        t.ctx die core c = { s.ctx die core c with flight := flight.filter fun g => g.id != f.id } ∧
        t.SemsAre die core f.cmd (fun d k => s.rd .SEM_VALUE d k) ∧ s.OtherContexts t die core c ∧
        s.RegsBut t [(.CTX_CFLAGS, die, ctxIdx core c), (.SEM_VALUE, die, core * 32 + f.cmd.sem)] ∧ s.SameBytes t) ∧
      (e.code ≠ 0 → f.cmd.cont = true → Runs complete s fun t =>
        t.rd .SQ_CONT_ERRORS die core = (s.rd .SQ_CONT_ERRORS die core + 1) % 2 ^ 32 ∧
        bit (t.rd .CTX_CFLAGS die (ctxIdx core c)) (Nat.log2 flagContErr) = true ∧
        t.ctx die core c = { s.ctx die core c with flight := flight.filter fun g => g.id != f.id } ∧
        t.SemsAre die core f.cmd (fun d k => s.rd .SEM_VALUE d k) ∧
        s.RegsBut t [(.CTX_CFLAGS, die, ctxIdx core c), (.SQ_CONT_ERRORS, die, core), (.SEM_VALUE, die, core * 32 + f.cmd.sem)] ∧
        s.SameBytes t) ∧
      (e.code ≠ 0 → f.cmd.cont = false → flight = [f] → (s.ctx die core c).owner = .none → Runs complete s fun t =>
        t.ctxState die core c = 5 ∧ t.ctx die core c = {} ∧ t.rd .CTX_ERR_CODE die (ctxIdx core c) = e.code % 256 ∧
        t.rd .CTX_ERR_OPCODE die (ctxIdx core c) = f.cmd.op ∧
        t.rd .SQ_ERRORS die core = (s.rd .SQ_ERRORS die core + 1) % 2 ^ 32 ∧ s.SameBytes t)) ∧
    (mayComplete flight index = none → (∀ f, flight[index]? = some f → f.underWay = false) → exec complete s = .next s) ∧
    (∀ f, flight[index]? = some f → f.underWay = true →
      exec complete s = .next ((completeAt die core c index).run
        ((perform ⟨die, core, c, f.cmd⟩ f.id (unitBody f.cmd)).run s)))

/-- A write to SEM_SET sets the semaphore; a write to SQ_STOP stops the contexts that it names; a pre-empted context resumes when every
higher one has given way. -/
def Obligations.SequencerEvents : Prop :=
  ∀ (s : State) (die core : Nat), s.Sound → s.dieThere die = true → core < 32 →
    (∀ sem value, sem < 32 → (∀ x < 4, s.ctxState die core x ≠ 2) →
      Runs (.semSet die core sem value) s fun t =>
        t.rd .SEM_VALUE die (core * 32 + sem) = value % 2 ^ 16 ∧ s.OnlyRegs t [(.SEM_VALUE, die, core * 32 + sem)]) ∧
    (∀ mask c, c < 4 → bit mask c = true → s.ctxState die core c ≠ 0 → s.ctxState die core c ≠ 5 → (s.ctx die core c).flight = [] →
      (s.ctx die core c).stop = none → (s.ctx die core c).owner = .none →
      Runs (.sqStop die core mask) s fun t =>
        t.ctxState die core c = 5 ∧ t.rd .CTX_ERR_CODE die (ctxIdx core c) = codeStopped ∧ t.ctx die core c = {} ∧ s.SameBytes t) ∧
    (∀ c, c < 4 → s.ctxState die core c = 3 → s.higherQuiet die core c = true → (s.ctx die core c).flight = [] →
      (s.ctx die core c).stop = none → (∀ e < 4, (s.engine die core e).drain = false) →
      Runs (.contextResume die core c) s fun t =>
        t.ctxState die core c = (if (s.ctx die core c).ended = true then 4 else 1) ∧
        s.OnlyRegs t [(.CTX_STATE, die, ctxIdx core c)]) ∧
    (∀ c, c < 4 → s.ctxState die core c ≠ 3 ∨ s.higherQuiet die core c = false → exec (.contextResume die core c) s = .next s)

/-- A list starts in a free context: its place, its job, its partition and its counters are set, and it runs; before a core serves another
partition than the one before, its stores are zeroed, but for the groups that are not on. Counter 1 holds the slot of a request's job.
A context that is not free starts nothing. -/
def Obligations.ListsStart : Prop :=
  ∀ (s : State) (die core c : Nat) (j : Job) (l : JobList), s.Sound → s.dieThere die = true → core < 32 → c < 4 →
    s.listFor die core c = some (j, l) →
    let i := ctxIdx core c
    let last := s.rd .I_CTX_LAST_PART die core
    (s.ctxFree die core c = true → last = j.part + 1 ∨ s.coreIdle die core = true → j.part < 8 →
      Runs (.listStart die core c) s fun t =>
        t.ctxState die core c = 1 ∧ t.rd .CTX_PC die i = l.off % 2 ^ 24 ∧ t.rd .CTX_BASE die i = l.off % 2 ^ 24 ∧
        t.rd .CTX_JOB die i = j.jseq % 2 ^ 32 ∧ t.rd .CTX_PART die i = j.part ∧
        t.rd .CTX_SAFETY die i = b2n (s.acOn .PT_SAFETY 0 j.part) ∧
        (∀ n, 1 ≤ n → n < 8 → t.counter die core c n = if n = 1 ∧ j.kind = 2 then j.slot % 2 ^ 32 else 0) ∧
        t.ctx die core c = { owner := .job j.part j.jseq } ∧ t.rd .I_CTX_LAST_PART die core = j.part + 1 ∧
        (last = j.part + 1 ∨ last = 0 → s.SameBytes t) ∧
        (last ≠ j.part + 1 → last ≠ 0 → ∀ off < 16 * mib, (storeAt off).isSome = true → t.byte (storeAddr die core off) =
          if s.groupState die core off = 0 then 0 else s.byte (storeAddr die core off))) ∧
    (s.ctxFree die core c = false → exec (.listStart die core c) s = .next s)

/-! ### Registers (00 R7 to R22) -/

/-- A register access that changes nothing but the named registers and answers its requester with one output. -/
def Sys2Proof.Machine.State.Answered (s t : State) (o : Output) (ks : List (Fld × Nat × Nat)) : Prop :=
  t.aux = { s.aux with outputs := o :: s.aux.outputs } ∧ s.RegsBut t ks ∧ s.SameBytes t

/-- A write of a width or alignment that its register does not take ends with an error; one to read-only registers, or where no
register is, changes nothing; one to registers of a shadow set sets their shadow copies. A read answers with the register; its
read-clear fields then hold what arrived in the same cycle. A 32-bit read of a low half keeps the high half for its requester, whose
next read of that half takes it. -/
def Obligations.RegisterAccesses : Prop :=
  ∀ (s : State) (who : Requester) (die off value arriving : Nat), s.Sound → s.dieThere die = true →
    let fs := regFields die off
    let word := fun (n : Nat) => n % 2 ^ 32
    (∀ width, accessOk die off width = false →
      Runs (.registerWrite who die off width value) s (fun t => s.Answered t (.accessError who codeFabric) []) ∧
      Runs (.rcRead who die off width arriving) s (fun t => s.Answered t (.accessError who codeFabric) [])) ∧
    (accessOk die off 32 = true → isKeeper who = false → (∀ p ∈ fs, p.1.info.acc = .ro) →
      exec (.registerWrite who die off 32 value) s = .next s) ∧
    (accessOk die off 32 = true →
      (∀ p ∈ fs, p.1.info.set ∈ [ShadowSet.pm, .pe, .ing, .bc, .prd, .job, .uls] ∧ p.1.info.acc = .rw ∧ p.1.info.wide = false) →
      Runs (.registerWrite who die off 32 value) s fun t =>
        (∀ p ∈ fs, t.rd p.1 die p.2 = bits (word value) p.1.info.lo p.1.info.width) ∧
        s.OnlyRegs t (fs.map fun p => (p.1, die, p.2))) ∧
    (accessOk die off 32 = true → s.capture who die off = none → lowHalf die off = false → highHalf die off = false →
      (∀ p ∈ fs, p.1 ≠ .BELL_CLAIM ∧ p.1 ≠ .SEC_RANDOM ∧ p.1.timing = false) →
      Runs (.rcRead who die off 32 arriving) s fun t =>
        s.Answered t (.readData who (word (s.register die off))) ((fs.filter fun p => p.1.info.acc == .rc).map fun p => (p.1, die, p.2)) ∧
        ∀ p ∈ fs, p.1.info.acc = .rc → t.rd p.1 die p.2 = bits arriving p.1.info.lo p.1.info.width) ∧
    (accessOk die off 32 = true → s.capture who die off = none → lowHalf die off = true → off ≠ timeNowOff →
      (∀ p ∈ fs, p.1 ≠ .BELL_CLAIM ∧ p.1 ≠ .SEC_RANDOM ∧ p.1.timing = false ∧ p.1.info.acc ≠ .rc) →
      Runs (.lowHalfRead who die off) s fun t =>
        t.aux.outputs = .readData who (word (s.register die off)) :: s.aux.outputs ∧
        t.capture who die (off + 4) = some ⟨who, die, off + 4, s.register die off / 2 ^ 32⟩ ∧ s.RegsBut t [] ∧ s.SameBytes t) ∧
    (∀ c, accessOk die off 32 = true → s.capture who die off = some c →
      Runs (.rcRead who die off 32 arriving) s fun t =>
        t.aux = { s.aux with outputs := .readData who c.value :: s.aux.outputs, captures := s.aux.captures.erase c } ∧
        s.RegsBut t [] ∧ s.SameBytes t)

/-! ### The engine array (05_engine_array.md) -/

/-- A list command has been issued and has started: it is counted, the list goes on after it, and it stands in flight, ended as
given or not yet. -/
def Sys2Proof.Machine.State.Performed (s t : State) (die core c : Nat) (i : Issue) (e : Option Ending) : Prop :=
  s.Counted t die core c ∧ s.GoesOn t die core c (i.addr + 32) ∧
  ∃ f, (t.ctx die core c).flight = [f] ∧ f.begun = true ∧ f.ending = e ∧ f.cmd = { i with ord := f.id }

/-- GANG chains or unchains the engines for its context. LOADW of a dense block reads the weights of its columns and stages them in
its engine, when nothing waits before it. STREAM puts its pass last in its engine's queue. -/
def Obligations.EngineCommands : Prop :=
  ∀ (s : State) (die core c e : Nat) (course : Course) (i : Issue), s.Sound → s.atCommand die core c i → course.Smooth → e < 4 →
    (s.usable die core).contains e = true →
    let x : Cx := ⟨die, core, c, i⟩
    (i.op = 0x12 → Runs (.gang die core c) s fun t =>
      s.Performed t die core c i (some ⟨0, 0, 0⟩) ∧ (t.ctx die core c).gang = bit i.mode 0 ∧ s.OtherContexts t die core c ∧
      s.SameBytes t ∧ s.FieldsBut t [.SQ_CMDS, .CTX_CMDS, .CTX_PC, .CTX_LOOPS, .CTX_CNT, .I_NEXT_ID]) ∧
    (let o := x.loadOp
     i.op = 0x10 → bits i.mode 0 2 = 0 → bits (i.w 1) 0 4 = 2 ^ e → o.fmt ≤ 8 → o.fmt ≠ fmtMxfp4 → 1 ≤ o.k → o.k ≤ kMax o.fmt false →
      1 ≤ o.n → o.n ≤ 64 → storeRangeOk o.src (o.n * weightRow o.fmt) = true → s.suspectStore die core = false →
      (∀ n < 4, (s.engine die core n).queue = []) →
      Runs (.loadw die core ⟨c, course⟩) s fun t =>
        s.Performed t die core c i (some ⟨0, 0, 0⟩) ∧ s.SameBytes t ∧ t.rd .ENG_STATUS_STAGED die (ctxIdx core e) = 1 ∧
        (∃ w, (t.engine die core e).staged = some w ∧ w.fmt = o.fmt ∧ w.k = o.k ∧ w.n = o.n ∧ w.sp24 = false ∧
          ∀ col < o.n, ∀ b < packedBytes o.fmt o.k,
            byteAt w.tile (col * weightRow o.fmt + b) =
              (s.byte (storeAddr die core (o.src + col * weightRow o.fmt + b))).toNat) ∧
        (t.engine die core e).active = (s.engine die core e).active) ∧
    (let o := x.stream
     i.op = 0x11 → bit (i.w 1) 2 = false → bits (i.w 1) 0 2 = e → o.kind = 0 → o.axis = false → o.tiled = false → o.afmt ≤ 8 →
      o.afmt ≠ fmtMxfp4 → o.wfmt = o.afmt → o.n ≤ 64 → o.k ≤ kMax o.wfmt true →
      (o.m ≠ 0 → o.n ≠ 0 → o.pdst % 256 = 0 ∧ 0x800000 ≤ o.pdst ∧ o.pdst + 256 * o.m ≤ 0x880000 ∧
        (o.acc = true → o.psrc % 256 = 0 ∧ 0x800000 ≤ o.psrc ∧ o.psrc + 256 * o.m ≤ 0x880000) ∧
        (o.k ≠ 0 → storeRangeOk o.asrc (o.rowStride * o.m) = true)) →
      Runs (.stream die core ⟨c, course⟩) s fun t =>
        s.Performed t die core c i none ∧ s.SameBytes t ∧
        ∃ p, t.engine die core e = { s.engine die core e with ran := true, queue := (s.engine die core e).queue ++ [.pass p] } ∧
          p = { ctx := c, id := p.id, cmd := { i with ord := p.id }, engines := [e] })

/-- A pass of one engine over raw INT8 rows in multiply mode, with INT8 weights `w`, whose operands the checks of its STREAM have passed
and do not meet; in accumulate mode the start rows are the output rows or lie apart from them. -/
def Sys2Proof.Machine.Pass.Plain (p : Pass) (die core e : Nat) (w : Weights) : Prop :=
  let o := p.op die core
  let inP := fun (a : Nat) => a % 256 = 0 ∧ 0x800000 ≤ a ∧ a + 256 * o.m ≤ 0x880000
  p.engines = [e] ∧ p.cmd.row = 0 ∧ o.kind = 0 ∧ o.axis = false ∧ o.tiled = false ∧ o.afmt = fmtInt8 ∧ o.wfmt = fmtInt8 ∧
  w.fmt = fmtInt8 ∧ w.sp24 = false ∧ w.tile.length = 4096 ∧ 1 ≤ o.k ∧ o.k ≤ 64 ∧ 1 ≤ o.m ∧ 1 ≤ o.n ∧ o.n ≤ 64 ∧
  o.asrc < 0x800000 ∧ storeRangeOk o.asrc (o.rowStride * o.m) = true ∧ inP o.pdst ∧
  (o.acc = true → inP o.psrc ∧ (o.psrc = o.pdst ∨ o.psrc + 256 * o.m ≤ o.pdst ∨ o.pdst + 256 * o.m ≤ o.psrc))

/-- The exact sums of the products of activation row `r` with the weight columns. -/
def Sys2Proof.Machine.Pass.sumsOf (p : Pass) (s : State) (die core : Nat) (w : Weights) (r : Nat) : List Nat :=
  let o := p.op die core
  (List.range o.n).map fun col => encode 64 (((List.range o.k).map fun k =>
    signed 8 (s.byte (storeAddr die core (o.asrc + r * o.rowStride + k))).toNat *
      (if k < w.k ∧ col < w.n then signed 8 (byteAt w.tile (col * 64 + k)) else 0)).sum)

/-- The pass has passed its boundary with these weights, and has issued its first row, with these sums, and written none. -/
def Sys2Proof.Machine.Pass.Standing (p : Pass) (w : Weights) (first : List Nat) : Prop :=
  p.ws = [w] ∧ p.head = some (0, first) ∧ p.next = 1 ∧ p.written = 0 ∧ p.rerun = false ∧ p.fail = none ∧ p.flags = 0

/-- Sum and start value of an output, exact. -/
def Sys2Proof.Machine.Pass.output (p : Pass) (s : State) (die core : Nat) (w : Weights) (first : List Nat) (m col : Nat) : Int :=
  let o := p.op die core
  signed 64 ((if m = 0 then first else p.sumsOf s die core w m).getD col 0) +
    if o.acc then signed 32 (s.le (storeAddr die core (o.psrc + 256 * m + 4 * col)) 4) else 0

/-- The outputs of the rows below `rows` stand in their destination rows, saturated to 32 bits, and no other byte has changed. -/
def Sys2Proof.Machine.Pass.Wrote (p : Pass) (s t : State) (die core : Nat) (w : Weights) (first : List Nat) (rows : Nat) : Prop :=
  let o := p.op die core
  (∀ m < rows, ∀ col < o.n, t.le (storeAddr die core (o.pdst + 256 * m + 4 * col)) 4 =
    encode 32 (clampInt int32Min int32Max (p.output s die core w first m col)).1) ∧
  ∀ a, (∀ m < rows, a < storeAddr die core (o.pdst + 256 * m) ∨ storeAddr die core (o.pdst + 256 * m) + 4 * o.n ≤ a) →
    t.byte a = s.byte a

/-- A pass of one engine over INT8 rows in multiply mode issues its first row at its boundary, with the active weights. When it completes,
each output is the exact sum of the products of its activation row with its weight column, with its start value in accumulate mode,
saturated to 32 bits, and stands in its destination row; the pass's flags hold SAT when an output saturated. -/
def Obligations.PassesComputeTheirSums : Prop :=
  ∀ (s : State) (die core e : Nat) (p : Pass) (w : Weights), s.Sound → s.suspectStore die core = false → core < 32 → e < 4 →
    p.Plain die core e w →
    let g := s.engine die core e
    let o := p.op die core
    let i := ctxIdx core e
    (g.queue = [.pass p] → p = { ctx := p.ctx, id := p.id, cmd := p.cmd, engines := [e] } → g.flight = [] → g.drain = false →
      g.staged = none → g.reload = none → g.reloadFail = none → g.active = some w →
      Runs (.passBoundary die core e) s fun t =>
        (t.engine die core e).queue = [] ∧ s.SameBytes t ∧ t.rd .ENG_STATUS_INFLIGHT die i = 1 ∧
        t.rd .ENG_ROWS die i = (s.rd .ENG_ROWS die i + 1) % 2 ^ Fld.ENG_ROWS.info.width ∧
        ∃ q, (t.engine die core e).flight = [q] ∧ q.id = p.id ∧ q.cmd = p.cmd ∧ q.Plain die core e w ∧
          q.Standing w (p.sumsOf s die core w 0)) ∧
    (∀ f first, g.flight = [p] → p.Standing w first → first.length = o.n → f ∈ (s.ctx die core p.ctx).flight → f.id = p.id →
      Runs (.passComplete die core e) s fun t =>
        (t.engine die core e).flight = [] ∧ t.rd .ENG_PASSES die i = (s.rd .ENG_PASSES die i + 1) % 2 ^ 32 ∧
        t.rd .ENG_ROWS die i = (s.rd .ENG_ROWS die i + (o.m - 1)) % 2 ^ Fld.ENG_ROWS.info.width ∧
        p.Wrote s t die core w first o.m ∧
        ∃ flags, (flags = 0 ∨ flags = flagSat) ∧ { f with ending := some ⟨0, flags, 0⟩ } ∈ (t.ctx die core p.ctx).flight ∧
          (flags = flagSat ↔ ∃ m < o.m, ∃ col < o.n, ¬ (int32Min ≤ p.output s die core w first m col ∧
            p.output s die core w first m col ≤ int32Max)))

/-- A fault, as the log keeps it: its record stands in the next slot of the log, its class is counted, and the next fault gets the next
number (16 R707, R708). -/
def Sys2Proof.Machine.State.Recorded (s t : State) (die : Nat) (cls : FaultClass) (level action unit part detail : Nat) : Prop :=
  let fseq := s.rd .FLT_SEQ 0
  t.rd .FLT_SEQ 0 = (fseq + 1) % 2 ^ Fld.FLT_SEQ.info.width ∧
  t.rd .FLT_COUNT 0 (cls.code - 1) = min (s.rd .FLT_COUNT 0 (cls.code - 1) + 1) (2 ^ Fld.FLT_COUNT.info.width - 1) ∧
  t.cfgBytes (logBase + fseq % logSlots * 32) 32 = faultBytes (s.now die) fseq cls.code level die action unit part s.sync detail

/-- A pre-emption drain writes the rows that were issued, and ends its pass with the first row that was not as the row to resume at; a
pass that had issued all its rows completes. A fault of an engine with a pass in it poisons the rows issued and not written, and the pass
runs again from its first row with weights read again, and writes none that it had written; the fault is counted and recorded. A second
one during the re-run fences the engine. A fault of an idle engine discards its staged weights, whose load is repeated; one during that
repetition fences it. An activation row whose check fails ends its pass with STORE_CRC once the rows before it have been written. -/
def Obligations.DrainsFaultsAndStoreErrors : Prop :=
  ∀ (s : State) (die core e : Nat) (p : Pass) (w : Weights) (first : List Nat), s.Sound → core < 32 → e < 4 →
    let g := s.engine die core e
    let i := ctxIdx core e
    let o := p.op die core
    let idle := s.provingBy die core e = none ∧ s.atLimit die core e = false ∧ (s.usable die core).contains e = true
    let part := (s.partOfCore die core).getD 0xFF
    let running := s.suspectStore die core = false ∧ p.Plain die core e w ∧ g.flight = [p] ∧ p.Standing w first ∧ first.length = o.n
    let fenced := fun (t : State) (info : Nat) => t.fencedEngine die core e = true ∧ t.rd .ENG_STATUS_STATE die i = 5 ∧
      (t.engine die core e).flight = [] ∧ (t.engine die core e).reload = none ∧
      s.Recorded t die .engineFail 1 1 (dieEngine core e) part info
    (∀ issued, running → g.drain = true → s.ctxState die core p.ctx = 3 → (s.ctx die core p.ctx).stop = none →
      let rows := max 1 (min issued o.m)
      Runs (.preemptDrainEnd die core e issued) s fun t =>
        (t.engine die core e).flight = [] ∧ (t.engine die core e).drain = false ∧ p.Wrote s t die core w first rows ∧
        t.rd .ENG_PASSES die i = (s.rd .ENG_PASSES die i + 1) % 2 ^ 32 ∧
        (rows < o.m → t.rd .ENG_RESUME_ROW die i = rows % 2 ^ Fld.ENG_RESUME_ROW.info.width ∧
          t.rd .ENG_PREEMPTS die i = (s.rd .ENG_PREEMPTS die i + 1) % 2 ^ 32 ∧
          (∀ f ∈ (t.ctx die core p.ctx).flight, f.id ≠ p.id) ∧
          ((∀ j ∈ (s.ctx die core p.ctx).again, j.ord ≠ p.cmd.ord) → w.load.ord ≠ p.cmd.ord →
            { p.cmd with row := rows } ∈ (t.ctx die core p.ctx).again))) ∧
    (idle → g.flight = [] → g.reload = none → Runs (.engineFault die core e 3 0 0 0 0) s fun t =>
      t.rd .ENG_FAULTS die i = (s.rd .ENG_FAULTS die i + 1) % 2 ^ 16 ∧ t.rd .ENG_FAULT_INFO_KIND die i = 3 ∧
      (t.engine die core e).staged = none ∧ t.rd .ENG_STATUS_STAGED die i = 0 ∧
      (t.engine die core e).reload = g.staged.map (fun v => (v, s.ticks)) ∧
      s.Recorded t die .engineRerun 1 0 (dieEngine core e) part 3) ∧
    (idle → g.flight = [] → g.reload.isSome = true → 4 ≤ (s.usable die core).length →
      Runs (.engineFault die core e 3 0 0 0 0) s fun t => fenced t 3) ∧
    (∀ kind row col issued written, idle → 1 ≤ kind → kind ≤ 3 → running → written < o.m → s.ctxState die core p.ctx ≠ 3 →
      let l := (⟨die, core, w.ctx, w.load⟩ : Cx).loadOp
      l.sp24 = false → l.fmt = fmtInt8 → l.k ≤ 64 → l.n ≤ 64 → w.slice = 0 → l.src < 0x800000 →
      storeRangeOk l.src (64 * l.n) = true →
      Runs (.engineFault die core e kind row col issued written) s fun t =>
        t.rd .ENG_RERUNS die i = (s.rd .ENG_RERUNS die i + 1) % 2 ^ 16 ∧ (t.engine die core e).staged = none ∧
        (∃ q, (t.engine die core e).flight = [q] ∧ q.id = p.id ∧ q.cmd = p.cmd ∧ q.rerun = true ∧ q.head = none ∧ q.next = 0 ∧
          q.written = written) ∧
        p.Wrote s t die core w first written ∧
        (∀ a, t.poisoned a = true ↔
          ∃ r, written ≤ r ∧ r < max issued 1 ∧ r < o.m ∧ a ∈ o.covered die core r) ∧
        s.Recorded t die .engineRerun 1 0 (dieEngine core e) part (faultInfo kind row col)) ∧
    (∀ kind row col issued written, idle → 1 ≤ kind → kind ≤ 3 → g.flight = [p] → p.engines = [e] → p.rerun = true →
      s.aux.checks = [] → 4 ≤ (s.usable die core).length →
      Runs (.engineFault die core e kind row col issued written) s fun t => fenced t (faultInfo kind row col)) ∧
    (∀ kind row col issued written, kind ≠ 3 → g.flight = [] →
      exec (.engineFault die core e kind row col issued written) s = .next s) ∧
    (∀ row f, running → 1 ≤ row → row < o.m → f ∈ (s.ctx die core p.ctx).flight → f.id = p.id →
      let bad := (o.asrc + row * o.rowStride) / 64 * 64
      Runs (.passStoreError die core e row .activation) s fun t =>
        t.rd .STG_CRC_FAIL die core = (s.rd .STG_CRC_FAIL die core + 1) % 2 ^ 32 ∧
        t.rd .STG_CRC_LAST die core = bad % 2 ^ Fld.STG_CRC_LAST.info.width ∧ t.rowFails (storeAddr die core bad) = true ∧
        (t.engine die core e).flight = [] ∧ p.Wrote s t die core w first row ∧
        ∃ q ∈ (t.ctx die core p.ctx).flight, q.id = p.id ∧ ∃ flags, q.ending = some ⟨codeStoreCrc, flags, bad⟩) ∧
    (∀ row what, g.flight = [] → exec (.passStoreError die core e row what) s = .next s)

/-! ### The mover and the wickets (10 R444, 11 R490 to R493, R509 to R516) -/

/-- A range of package memory lies in one store of the command's own core. -/
def Sys2Proof.Machine.State.OwnRange (_ : State) (x : Cx) (a len : Nat) : Prop :=
  a < 2 ^ 48 ∧ addrDie a = x.die ∧ ∃ off, placeOf (addrOff a) = .store x.core off ∧ storeRangeOk off len = true

/-- What the four DMA kinds leave at their destination when source and destination lie in stores of their own core and do not meet:
the source's bytes, the first 64 bytes of each source row, the transposed 64 × 64 blocks, the repeated pattern. -/
def Obligations.DmaMovesBytes : Prop :=
  ∀ (s : State) (die core c src dst : Nat) (course : Course) (i : Issue), s.Sound → s.atCommand die core c i → i.op = 0x38 →
    course.Smooth → s.suspectStore die core = false → bit i.mode 2 = false →
    let x : Cx := ⟨die, core, c, i⟩
    let len := i.w 5
    let stride := bits (i.w 6) 0 16
    let es := fmtBits (bits (i.w 6) 16 4) / 8
    x.paOf (i.w 1) (i.w 2) 1 = .ok src → x.paOf (i.w 3) (i.w 4) 3 = .ok dst → s.OwnRange x dst len →
    let span := (⟨bits i.mode 0 2, src, len, stride, es⟩ : Move).span
    let apart := s.OwnRange x src span ∧ rangesMeet src span dst len = false
    let done := fun t : State => s.Performed t die core c i (some ⟨0, 0, 0⟩) ∧ s.BytesBut t dst len ∧
      s.FieldsBut t [.SQ_CMDS, .CTX_CMDS, .CTX_PC, .CTX_LOOPS, .CTX_CNT, .I_NEXT_ID]
    (bits i.mode 0 2 = 0 → apart → Runs (.dmaCopy die core ⟨c, course⟩) s fun t => done t ∧ t.bytes dst len = s.bytes src len) ∧
    (bits i.mode 0 2 = 1 → apart → len % 64 = 0 → 64 ≤ stride → stride % 64 = 0 →
      Runs (.dmaStridedRead die core ⟨c, course⟩) s fun t => done t ∧
        ∀ r, 64 * r < len → t.bytes (dst + 64 * r) 64 = s.bytes (src + r * stride) 64) ∧
    (bits i.mode 0 2 = 2 → apart → 1 ≤ es → fmtOk (bits (i.w 6) 16 4) = true → bits (i.w 6) 16 4 ≠ fmtXc24 → len % (4096 * es) = 0 →
      64 * es ≤ stride → stride % 64 = 0 →
      Runs (.dmaTranspose die core ⟨c, course⟩) s fun t => done t ∧
        ∀ b r k, b * (4096 * es) < len → r < 64 → k < 64 →
          t.bytes (dst + b * (4096 * es) + (k * 64 + r) * es) es = s.bytes (src + (64 * b + r) * stride + k * es) es) ∧
    (bits i.mode 0 2 = 3 → Runs (.dmaFill die core ⟨c, course⟩) s fun t => done t ∧
      ∀ j < len, (t.byte (dst + j)).toNat = i.w 7 / 256 ^ (j % 4) % 256)

/-- CREDIT_GET waits at its target, which the mullions of another core than its own admit it to, and its context is blocked; with a time of
zero it is granted at once when it is the first there and its window is free, else times out; the target grants the oldest wait once its
window is free and a wicket is left, and the context runs again. CREDIT_RETURN gives back a wicket that its context holds on exactly that window, or ends with
WICKET_NONE; the wicket is free once the earlier writes have been applied. -/
def Obligations.WicketsAreGrantedAndReturned : Prop :=
  ∀ (s : State) (die core c : Nat), s.Sound →
    (∀ i, s.atCommand die core c i → i.op = 0x39 ∨ i.op = 0x3A → bits (i.w 1) 5 3 = die → bits (i.w 2) 0 24 % 64 = 0 → i.w 3 % 64 = 0 →
      let n := s.physCore die (bits (i.w 1) 0 5)
      let store := bits (i.w 1) 8 1
      let off := bits (i.w 2) 0 24
      let holds := fun w => s.wicketOf die n w die core c = true ∧ s.rd .WK_STORE die (wkIdx n w) = store ∧
        s.rd .WK_OFFSET die (wkIdx n w) = off ∧ s.rd .WK_LENGTH die (wkIdx n w) = i.w 3
      let a := storeAddr die n (wkStoreBase store + off)
      let first := s.creditHead die n = none ∧ s.fencedCore die n = false
      let wait := fun (id : Nat) => (⟨die, n, store, off, i.w 3, die, core, c, id⟩ : CreditWait)
      (i.w 3 = 0 → i.op = 0x39 → s.noWaiter die core i → Runs (.creditGet die core c) s fun t =>
        s.Counted t die core c ∧ s.GoesOn t die core c (i.addr + 32) ∧ (t.ctx die core c).flight = [] ∧ s.SameBytes t ∧
        t.SemsAre die core i (fun d k => s.rd .SEM_VALUE d k)) ∧
      (i.w 3 = 0 → i.op = 0x3A → Runs (.creditReturn die core c) s fun t =>
        s.Performed t die core c i (some ⟨0, 0, 0⟩) ∧ s.SameBytes t) ∧
      (addrDie a = die → s.placeOn die .nowhere = true → i.w 3 ≠ 0 →
        n = core ∨ s.admits die (addrOff a) (s.rd .CTX_PART die (ctxIdx core c), s.on .CTX_SAFETY die (ctxIdx core c)) true = true →
        (i.op = 0x39 → i.timeout = some 0 → s.noWaiter die core i → ∀ e, first → (∀ id, s.grantable (wait id) = some e) →
          Runs (.creditGet die core c) s fun t => s.Counted t die core c ∧ (t.ctx die core c).flight = [] ∧
            t.rd .WK_VALID die (wkIdx n e) = 1 ∧ t.rd .WK_LENGTH die (wkIdx n e) = i.w 3 % 2 ^ Fld.WK_LENGTH.info.width ∧
            t.rd .STG_WK_GRANTS die n = (s.rd .STG_WK_GRANTS die n + 1) % 2 ^ 32 ∧ s.SameBytes t) ∧
        (i.op = 0x39 → i.timeout = some 0 → ¬ first ∨ (∀ id, s.grantable (wait id) = none) → i.cont = false →
          (s.ctx die core c).owner = .none → Runs (.creditGet die core c) s fun t => s.Counted t die core c ∧
            t.ctxState die core c = 5 ∧ t.rd .CTX_ERR_CODE die (ctxIdx core c) = 0x0C ∧ t.aux.credits = s.aux.credits.filter (fun w =>
              !(w.sdie == die && w.score == core && w.sctx == c)) ∧ s.SameBytes t) ∧
        (i.op = 0x39 → i.timeout ≠ some 0 → Runs (.creditGet die core c) s fun t =>
          s.Performed t die core c i none ∧ t.ctxState die core c = 2 ∧ s.SameBytes t ∧
          ∃ id, t.aux.credits = s.aux.credits ++ [wait id]) ∧
        (∀ w, i.op = 0x3A → (s.wickets die n).filter (fun v => decide (holds v)) = [w] →
          Runs (.creditReturn die core c) s fun t =>
            s.Performed t die core c i (some ⟨0, 0, 0⟩) ∧ t.aux.returning = s.aux.returning ++ [(die, n, w)] ∧ s.SameBytes t) ∧
        (i.op = 0x3A → (∀ w ∈ s.wickets die n, ¬ holds w) →
          Runs (.creditReturn die core c) s fun t =>
            s.Performed t die core c i (some ⟨codeWicketNone, 0, wkStoreBase store + off⟩) ∧ t.aux.returning = s.aux.returning))) ∧
    (∀ w e, s.creditHead die core = some w → s.grantable w = some e → s.fencedCore die core = false →
      Runs (.wicketGrant die core) s fun t =>
        t.rd .WK_VALID die (wkIdx core e) = 1 ∧ t.rd .WK_STORE die (wkIdx core e) = w.store % 2 ^ Fld.WK_STORE.info.width ∧
        t.rd .WK_OFFSET die (wkIdx core e) = w.off % 2 ^ Fld.WK_OFFSET.info.width ∧
        t.rd .WK_LENGTH die (wkIdx core e) = w.len % 2 ^ Fld.WK_LENGTH.info.width ∧
        t.rd .STG_WK_GRANTS die core = (s.rd .STG_WK_GRANTS die core + 1) % 2 ^ 32 ∧ s.SameBytes t ∧
        (s.ctxState w.sdie w.score w.sctx = 2 → w.sctx < 4 → t.ctxState w.sdie w.score w.sctx = 1) ∧
        ∀ f ∈ (t.ctx w.sdie w.score w.sctx).flight, f.id = w.sid → f.ending = some ⟨0, 0, 0⟩) ∧
    (s.creditHead die core = none → exec (.wicketGrant die core) s = .next s) ∧
    (∀ w, (die, core, w) ∈ s.aux.returning → Runs (.wicketFree die core w) s fun t =>
      t.rd .WK_VALID die (wkIdx core w) = 0 ∧ (die, core, w) ∉ t.aux.returning ∧
      s.RegsBut t [(.WK_VALID, die, wkIdx core w)] ∧ s.SameBytes t) ∧
    (∀ w, (die, core, w) ∉ s.aux.returning → exec (.wicketFree die core w) s = .next s)

/-! ### Jobs, records and channels (13_jobs_and_accounting.md, 09_sequence_work.md) -/

/-- A range of bytes lies in one HBM stack that answers, and holds no word with a wrong bit. -/
def Sys2Proof.Machine.State.soundHbm (s : State) (a len : Nat) : Prop :=
  s.openHbm a len ∧ ∀ w ∈ s.aux.badWords ++ s.aux.weakWords, ¬ (a < w + 8 ∧ w < a + len)

/-- PUBLISH waits for the earlier commands of its context. PUBLISH RESULT hands over the result of its list's job; PUBLISH TOKENS hands
over one record for each batch row of the step that its descriptor names, a result for a row whose END bit is set and a token for any
other, and ends with PUB_NO_STEP when no step has that descriptor. -/
def Obligations.PublishHandsOverRecords : Prop :=
  ∀ (s : State) (die core c p q a desc : Nat) (i : Issue) (j : Job), s.Sound → s.atCommand die core c i → i.op = 0x09 →
    s.suspectStore die core = false → (s.ctx die core c).owner = .job p q → s.job p q = some j →
    let x : Cx := ⟨die, core, c, i⟩
    let len := i.w 3
    x.paOf (i.w 1) (i.w 2) 1 = .ok a → s.OwnRange x a len → storeRangeOk (x.la 4) 4 = true →
    s.le (storeAddr die core (x.la 4)) 4 = 0 →
    (bits i.mode 0 2 = 0 → j.published = false → j.ended = false → 64 + 48 * j.binds.length + len ≤ s.slotBytes j.part →
      Runs (.publishResult die core c) s fun t =>
        s.Performed t die core c i none ∧ (∃ k, t.job p q = some k ∧ k.published = true) ∧ s.SameBytes t ∧
        ∃ r, t.aux.recs = s.aux.recs ++ [r] ∧ r.part = j.part ∧ r.jseq = j.jseq ∧ r.kind = recResult ∧ r.appType = bits (i.w 5) 0 8 ∧
          r.cflags = s.jobCflags j ∧ r.frames = s.frameEntries j ∧ r.attach = [] ∧ r.payload = s.bytes a len) ∧
    (bits i.mode 0 2 = 1 → x.paOf (i.w 6) (i.w 7) 6 = .ok desc → desc % 64 = 0 → s.OwnRange x desc 64 →
      (∀ st, s.aux.steps.find? (fun r => r.desc == desc) = some st →
        let reqs := s.stepReqs st
        let size := len / st.rows.length
        let ends := s.le (desc + 48) 8
        reqs ≠ [] → len % st.rows.length = 0 → (∀ r ∈ reqs, 64 + size ≤ s.slotBytes r.2.part) →
        Runs (.publishTokens die core c) s fun t =>
          s.Performed t die core c i none ∧ s.SameBytes t ∧
          ∃ l, t.aux.recs = s.aux.recs ++ l ∧
            l.map (fun r => (r.part, r.channel, r.reqSeq, r.kind, r.payload)) = reqs.map fun r =>
              (r.2.part, r.2.channel, r.2.reqSeq, if bit ends (st.rows.getD r.1 0) then recResult else recToken,
                ((s.bytes a len).drop (r.1 * size)).take size)) ∧
      (s.aux.steps.find? (fun r => r.desc == desc) = none → i.cont = true → s.noWaiter die core i →
        Runs (.publishTokens die core c) s fun t =>
          s.Counted t die core c ∧ (t.ctx die core c).flight = [] ∧ t.aux.recs = s.aux.recs ∧
          bit (t.rd .CTX_CFLAGS die (ctxIdx core c)) (Nat.log2 flagContErr) = true)) ∧
    ∀ f, f ∈ (s.ctx die core c).flight →
      exec (.publishResult die core c) s = .next s ∧ exec (.publishTokens die core c) s = .next s

/-- A host trigger creates a job when it is valid, its partition runs and it holds fewer jobs than its depth; else it is refused,
ignored or skipped. The deadline of a request or host job finds it on time, or late: with a limit it runs on under a LATE_MARKER,
without one, or at its limit, it is withdrawn under OVERRUN. -/
def Obligations.JobsFireAndRunLate : Prop :=
  ∀ (s : State) (die trigger part jseq : Nat) (j : Job), s.Sound → s.dieThere die = true → part < 8 →
    let p := s.ac .JT_PARTITION die trigger
    let held := (s.held die trigger).length
    let desc := s.ac .JT_DESC die trigger
    let n := min (s.byte (desc + 8)).toNat 64
    let table := s.le desc 8
    let overrun := fun t : State =>
      t.rd .PT_WITHDRAWN 0 part = (s.rd .PT_WITHDRAWN 0 part + 1) % 2 ^ Fld.PT_WITHDRAWN.info.width ∧ t.job part jseq = none ∧
      ∃ r ∈ t.aux.recs, r.part = part ∧ r.jseq = jseq ∧ r.kind = recWithdrawn ∧ r.cause = causeOverrun
    let still := fun l : JobList => l.state ≠ 1
    (s.triggerOk die trigger 3 = false → Runs (.jobFire die trigger) s fun t =>
      t.rd .JOB_FIRE_REFUSED die = (s.rd .JOB_FIRE_REFUSED die + 1) % 2 ^ 32 ∧ s.OnlyRegs t [(.JOB_FIRE_REFUSED, die, 0)]) ∧
    (s.triggerOk die trigger 3 = true → s.running p = false → exec (.jobFire die trigger) s = .next s) ∧
    (s.triggerOk die trigger 3 = true → s.running p = true → s.depth die trigger ≤ held → Runs (.jobFire die trigger) s fun t =>
      t.rd .JT_SKIPPED die trigger = min (s.rd .JT_SKIPPED die trigger + 1) (2 ^ Fld.JT_SKIPPED.info.width - 1) ∧
      s.OnlyRegs t [(.JT_SKIPPED, die, trigger)]) ∧
    (s.triggerOk die trigger 3 = true → s.running p = true → held < s.depth die trigger → s.soundHbm desc 64 → n ≠ 0 →
      s.soundHbm table (8 * n) → Runs (.jobFire die trigger) s fun t =>
        t.rd .PT_JSEQ 0 p = (s.rd .PT_JSEQ 0 p + 1) % 2 ^ Fld.PT_JSEQ.info.width ∧ s.SameBytes t ∧
        ∃ k, t.aux.jobs = s.aux.jobs ++ [k] ∧ k.part = p ∧ k.jseq = s.rd .PT_JSEQ 0 p ∧ k.die = die ∧ k.trigger = trigger ∧ k.kind = 3 ∧
          k.accepted = s.now die ∧ k.tick = s.ticks ∧ k.binds = [] ∧ k.lists = listEntries (s.bytes table (8 * n)) n ∧
          k.deadlineUs = s.le (desc + 16) 4 ∧ k.lateUs = s.le (desc + 12) 4) ∧
    (s.job part jseq = some j → j.kind = 2 ∨ j.kind = 3 → j.checked = false → j.deadlineUs ≠ 0 → j.tick + j.deadlineUs * 500 ≤ s.ticks →
      (j.standing = true ∨ j.ended = true → Runs (.requestDeadlineExpiry part jseq) s fun t =>
        t.job part jseq = some { j with checked := true } ∧ t.aux.recs = s.aux.recs ∧ s.RegsBut t [] ∧ s.SameBytes t) ∧
      (j.standing = false → j.ended = false → j.lateUs ≠ 0 → Runs (.requestDeadlineExpiry part jseq) s fun t =>
        t.job part jseq = some { j with checked := true, late := true, checkTick := s.ticks } ∧
        t.rd .PT_LATE 0 part = (s.rd .PT_LATE 0 part + 1) % 2 ^ Fld.PT_LATE.info.width ∧
        t.aux.recs = s.aux.recs ++ [s.jobRec j recLateMarker 0 true] ∧ s.RegsBut t [(.PT_LATE, 0, part)] ∧ s.SameBytes t) ∧
      (j.standing = false → j.ended = false → j.lateUs = 0 → (∀ l ∈ j.lists, still l) →
        Runs (.requestDeadlineExpiry part jseq) s overrun)) ∧
    (s.job part jseq = some j → j.late = true → j.standing = false → j.ended = false → j.kind ≠ 1 →
      j.checkTick + j.lateUs * 500 ≤ s.ticks → (∀ l ∈ j.lists, still l) → Runs (.lateLimitExpiry part jseq) s overrun) ∧
    (s.job part jseq = none → exec (.requestDeadlineExpiry part jseq) s = .next s ∧ exec (.lateLimitExpiry part jseq) s = .next s)

/-- A record enters the ring and the mirror of its partition under the next SEQ, and waits to be sent on its channels. The channel's
oldest record goes out as a datagram under the channel's next sequence while its port can send, and one that has left its ring is
not sent. -/
def Obligations.RecordsEnterAndLeave : Prop :=
  ∀ (s : State) (part c : Nat), s.Sound →
    (∀ r, s.aux.recs.find? (fun x => x.part == part) = some r →
      let seq := s.rd .PT_SEQ 0 part
      let ring := s.slotAddr .PT_RING_BASE part seq
      let mirror := s.slotAddr .PT_MIRROR_BASE part seq
      r.size < 2 ^ 32 → (∀ x ∈ r.frames, x.length = 48) → (∀ x ∈ r.attach, x.length = 64) → r.frames.length < 256 →
      s.openHbm ring r.size → s.openHbm mirror r.size → rangesMeet ring r.size mirror r.size = false →
      Runs (.recordEnterRing part) s fun t =>
        t.rd .PT_SEQ 0 part = (seq + 1) % 2 ^ Fld.PT_SEQ.info.width ∧ t.aux.recs = s.aux.recs.erase r ∧
        t.bytes ring r.size = t.bytes mirror r.size ∧ t.le ring 8 = seq ∧ t.le (ring + 28) 1 = r.kind % 256 ∧
        t.bytes (ring + (r.size - r.payload.length)) r.payload.length = r.payload ∧
        (∀ a, (a < ring ∨ ring + r.size ≤ a) → (a < mirror ∨ mirror + r.size ≤ a) → t.byte a = s.byte a) ∧
        (t.aux.sends.drop s.aux.sends.length).map (fun x => (x.channel, x.part, x.seq)) =
          (s.recChannels r).map fun x => (x, part, seq)) ∧
    (s.aux.recs.find? (fun x => x.part == part) = none → exec (.recordEnterRing part) s = .next s) ∧
    (∀ r, s.aux.sends.find? (fun x => x.channel == c) = some r →
      let ring := s.slotAddr .PT_RING_BASE r.part r.seq
      let n := s.rd .CH_CHSEQ 0 c
      let size := min (recLength (s.bytes ring 64)) 8192
      let left := fun t : State => t.rd .CH_CHSEQ 0 c = (n + 1) % 2 ^ 32 ∧ t.aux.sends = s.aux.sends.erase r ∧ s.SameBytes t
      (s.inRing r.part r.seq = true → s.channelUp c = true → s.soundHbm ring size →
        Runs (.recordSend c) s fun t => left t ∧ ⟨c, n, r.part, r.seq⟩ ∈ t.aux.sent ∧
          ∃ hdr, hdr.length = 32 ∧ leAt hdr 12 4 = n ∧ leAt hdr 16 8 = r.seq % 2 ^ 64 ∧
            let vlan := if s.acOn .CH_VLAN_EN 0 c then some (s.ac .CH_VLAN_ID 0 c) else none
            let body := hdr ++ s.bytes ring size
            t.aux.outputs = .datagram (s.ac .CH_DIE 0 c) (s.ac .CH_PORT 0 c) (s.acOn .CH_IPV6 0 c) vlan (s.addr4 .CH_PEER_ADDR 0 c)
              (s.ac .CH_UDP_LOCAL 0 c) (s.ac .CH_UDP_PEER 0 c) body
              (s.udpFrame (s.ac .CH_DIE 0 c) (s.ac .CH_PORT 0 c) (s.acOn .CH_IPV6 0 c) vlan (s.addr4 .CH_PEER_ADDR 0 c)
                (s.ac .CH_UDP_LOCAL 0 c) (s.ac .CH_UDP_PEER 0 c) body) :: s.aux.outputs) ∧
      (s.inRing r.part r.seq = false → Runs (.recordSend c) s fun t => left t ∧ t.aux.outputs = s.aux.outputs) ∧
      (s.inRing r.part r.seq = true → s.channelUp c = false → exec (.recordSend c) s = .next s)) ∧
    (s.aux.sends.find? (fun x => x.channel == c) = none → exec (.recordSend c) s = .next s)

/-- A datagram of a valid request channel that passes the checks of 13 R594. -/
def Sys2Proof.Machine.State.goodDatagram (s : State) (c type : Nat) (bs : List Byte) : Prop :=
  s.acOn .CH_VALID 0 c = true ∧ s.ac .CH_KIND 0 c = 1 ∧ s.badDatagram c bs = false ∧ dgType bs = type

/-- The next record handed over is one of this kind and cause, for this request. -/
def Sys2Proof.Machine.State.HandsOver (s t : State) (c kind cause reqSeq detail : Nat) : Prop :=
  ∃ r, t.aux.recs = s.aux.recs ++ [r] ∧ r.channel = c ∧ r.kind = kind ∧ r.cause = cause ∧ r.reqSeq = reqSeq ∧ r.detail = detail

/-- A request in sequence is accepted or refused and the channel expects the next one; one past the sequence is refused with what was
expected; one of a partition that does not run is refused. A decode request waits in its class, a trigger request becomes a job
with its payload in its slot. CANCEL withdraws a waiting decode request and marks one in a slot. RESEND answers what it no longer
holds with RESEND_MISS. A bad datagram is counted. -/
def Obligations.RequestsAreServed : Prop :=
  ∀ (s : State) (c : Nat) (dg : List Byte), s.Sound →
    let r := dgSeq dg
    let expect := s.rd .CH_REQ_EXPECT 0 c
    let up := s.running (s.ac .CH_PARTITION 0 c)
    let moved := fun t : State => t.rd .CH_REQ_EXPECT 0 c = (expect + 1) % 2 ^ Fld.CH_REQ_EXPECT.info.width
    let die := s.ac .CH_DIE 0 c
    let cls := s.ac .CH_CLASS 0 c
    let word := s.ac .CH_TRIGGER 0 c
    let tdie := bits word 8 3
    let trig := bits word 0 8
    (s.acOn .CH_VALID 0 c = true → s.ac .CH_KIND 0 c = 1 → s.badDatagram c dg = true →
      ∀ k ∈ [Instr.request c dg, .cancel c dg, .resend c dg], Runs k s fun t =>
        t.rd .CH_BAD 0 c = (s.rd .CH_BAD 0 c + 1) % 2 ^ 32 ∧ s.RegsBut t [(.CH_BAD, 0, c)] ∧ s.SameBytes t) ∧
    (s.goodDatagram c 0x10 dg →
      (up = false → Runs (.request c dg) s fun t => s.HandsOver t c recRefusal causePartitionDown r 0 ∧ (r = expect → moved t)) ∧
      (up = true → expect < r → Runs (.request c dg) s fun t =>
        s.HandsOver t c recRefusal causeGap r (expect % 2 ^ 32) ∧ t.rd .CH_REQ_EXPECT 0 c = expect) ∧
      (up = true → r = expect → s.acOn .CH_TO_CLASS 0 c = true → s.acOn .BC_EN die cls = false → Runs (.request c dg) s fun t =>
        s.HandsOver t c recRefusal causeClassOff r 0 ∧ moved t ∧ t.rd .BC_REFUSED die cls = (s.rd .BC_REFUSED die cls + 1) % 2 ^ 32) ∧
      (up = true → r = expect → s.acOn .CH_TO_CLASS 0 c = true → s.acOn .BC_EN die cls = true →
        s.ac .BC_PARTITION die cls = s.ac .CH_PARTITION 0 c → (s.waitingReqs die cls).length < 192 → s.ac .BC_MAX_TOKENS die cls ≠ 0 →
        (s.stepOf die cls).isSome = true → Runs (.request c dg) s fun t =>
          s.HandsOver t c recAccept 0 r 0 ∧ moved t ∧ s.SameBytes t ∧
          ∃ d, t.aux.decs = s.aux.decs ++ [d] ∧ d.die = die ∧ d.cls = cls ∧ d.channel = c ∧ d.reqSeq = r ∧ d.accepted = s.now die ∧
            d.slot = none ∧ d.tokens = 0) ∧
      (up = true → r = expect → s.acOn .CH_TO_CLASS 0 c = false → s.dieThere tdie = true → s.triggerOk tdie trig 2 = true →
        s.running (s.ac .JT_PARTITION tdie trig) = true → (s.held tdie trig).length < s.depth tdie trig →
        let desc := s.ac .JT_DESC tdie trig
        let table := s.le desc 8
        let n := min (s.byte (desc + 8)).toNat 64
        let slot := s.requestSlot tdie trig
        let dst := s.le (desc + 56) 8 + 4096 * slot
        let payload := (dg.drop 32).take (dgLength dg)
        s.soundHbm desc 64 → n ≠ 0 → s.soundHbm table (8 * n) → s.openHbm dst payload.length →
        rangesMeet desc 64 dst payload.length = false → Runs (.request c dg) s fun t =>
          s.HandsOver t c recAccept 0 r 0 ∧ moved t ∧ t.bytes dst payload.length = payload ∧ s.BytesBut t dst payload.length ∧
          ∃ j, t.aux.jobs = s.aux.jobs ++ [j] ∧ j.kind = 2 ∧ j.channel = c ∧ j.reqSeq = r ∧ j.slot = slot ∧ j.accepted = s.now tdie)) ∧
    (s.goodDatagram c 0x11 dg →
      (∀ d, s.aux.decs.find? (fun d => d.channel == c && d.reqSeq == r) = some d → d.ended = true →
        Runs (.cancel c dg) s fun t => s.RegsBut t [] ∧ t.aux.recs = s.aux.recs ∧ t.aux.decs = s.aux.decs ∧ s.SameBytes t) ∧
      (∀ d, s.aux.decs.find? (fun d => d.channel == c && d.reqSeq == r) = some d → d.ended = false → d.slot = none →
        Runs (.cancel c dg) s fun t => s.HandsOver t c recWithdrawn causeCancelled r 0 ∧
          t.rd .PT_WITHDRAWN 0 d.part = (s.rd .PT_WITHDRAWN 0 d.part + 1) % 2 ^ Fld.PT_WITHDRAWN.info.width ∧
          t.aux.decs = s.aux.decs.filter fun e => e.ord != d.ord) ∧
      (∀ d, s.aux.decs.find? (fun d => d.channel == c && d.reqSeq == r) = some d → d.ended = false → d.slot ≠ none →
        Runs (.cancel c dg) s fun t => s.RegsBut t [] ∧ t.aux.recs = s.aux.recs ∧ { d with cancelled := true } ∈ t.aux.decs)) ∧
    (s.goodDatagram c 0x12 dg →
      let first := leAt dg 32 4
      let count := leAt dg 36 4
      8 ≤ dgLength dg → 1 ≤ count → count ≤ 4096 → s.channelUp c = true →
      (∀ q ∈ s.aux.sent, q.channel = c → ∀ i < count, q.chseq ≠ (first + i) % 2 ^ 32) → Runs (.resend c dg) s fun t =>
        let p := s.ac .CH_PARTITION 0 c
        t.rd .PT_RESEND_MISS 0 p = (s.rd .PT_RESEND_MISS 0 p + 1) % 2 ^ Fld.PT_RESEND_MISS.info.width ∧ s.SameBytes t ∧
        ∃ o, t.aux.outputs = o :: s.aux.outputs)

/-- Decode steps, predictors and link events: a class whose window has passed starts a step with the requests that wait, writes its
descriptor and fires its trigger; BC_DONE with the step's number ends the step, any other is counted; PRD_REENABLE asks its predictor
to leave fallback; a data port's link comes up unsecured and without peers, and goes down. -/
def Obligations.StepsPredictorsAndLinks : Prop :=
  ∀ (s : State) (die cls core port value : Nat), s.Sound → s.dieThere die = true →
    let desc := s.ac .BC_DESC_BASE die cls
    let trig := s.ac .BC_TRIGGER die cls
    let tdie := bits trig 8 3
    let t8 := bits trig 0 8
    let job := s.ac .JT_DESC tdie t8
    let table := s.le job 8
    let n := min (s.byte (job + 8)).toNat 64
    (∀ d, s.stepOf die cls = none → s.slotReqs die cls = [] → s.waitingReqs die cls = [d] → s.on .BC_COMMIT_PENDING die cls = false →
      d.accepted + s.ac .BC_WINDOW_US die cls * 1000 ≤ s.now die → s.openHbm desc 64 → s.dieThere tdie = true →
      s.triggerOk tdie t8 1 = true → s.running (s.ac .JT_PARTITION tdie t8) = true → (s.held tdie t8).length < s.depth tdie t8 →
      s.soundHbm job 64 → n ≠ 0 → s.soundHbm table (8 * n) → rangesMeet job 64 desc 64 = false →
      rangesMeet table (8 * n) desc 64 = false →
      Runs (.batchWindowExpiry die cls) s fun t =>
        let step := s.rd .I_BC_STEP die cls
        t.rd .BC_STEP_RUNNING die cls = 1 ∧ t.rd .I_BC_STEP die cls = (step + 1) % 2 ^ Fld.I_BC_STEP.info.width ∧
        s.BytesBut t desc 64 ∧ t.le desc 8 = step % 2 ^ 64 ∧ t.le (desc + 32) 8 = s.now die ∧
        ∃ slot < 64, { d with slot := some slot } ∈ t.aux.decs ∧ t.le (desc + 8) 8 = 2 ^ slot ∧ t.le (desc + 16) 8 = 2 ^ slot ∧
          (∃ st ∈ t.aux.steps, st.die = die ∧ st.cls = cls ∧ st.step = step ∧ st.rows = [slot]) ∧
          ∃ j, t.aux.jobs = s.aux.jobs ++ [j] ∧ j.kind = 1 ∧ j.reqSeq = step ∧ j.cls = cls) ∧
    (s.stepOf die cls = none ∨ (∃ r, s.stepOf die cls = some r ∧ value ≠ r.step % 2 ^ 32) →
      Runs (.bcDone die cls value) s fun t =>
        t.rd .BC_BAD_DONE die cls = (s.rd .BC_BAD_DONE die cls + 1) % 2 ^ Fld.BC_BAD_DONE.info.width ∧
        s.OnlyRegs t [(.BC_BAD_DONE, die, cls)]) ∧
    (∀ r d n, s.stepOf die cls = some r → value = r.step % 2 ^ 32 → s.slotReqs die cls = [d] → s.waitingReqs die cls = [] →
      d.slot = some n → n ∈ r.rows → (s.aux.steps.erase r).find? (fun q => q.die == die && q.cls == cls) = none →
      s.soundHbm (r.desc + 48) 8 → (d.ended = true ∨ r.last.contains n = true ∧ bit (s.le (r.desc + 48) 8) n = false) →
      Runs (.bcDone die cls value) s fun t =>
        t.rd .BC_STEP_RUNNING die cls = 0 ∧ t.rd .BC_STEPS die cls = (s.rd .BC_STEPS die cls + 1) % 2 ^ Fld.BC_STEPS.info.width ∧
        t.rd .BC_ROWS die cls = (s.rd .BC_ROWS die cls + r.rows.length) % 2 ^ Fld.BC_ROWS.info.width ∧ s.SameBytes t ∧
        t.stepOf die cls = none ∧ t.slotReqs die cls = [] ∧
        (d.ended = true → t.aux.recs = s.aux.recs) ∧ (d.ended = false → s.HandsOver t d.channel recWithdrawn causeNoEnd d.reqSeq 0)) ∧
    (∀ entry, Runs (.prdReenable die core entry) s fun t =>
      t.rd .PRD_REENABLE_PENDING die (core * 16 + entry) = 1 ∧
      s.OnlyRegs t [(.PRD_REENABLE_PENDING, die, core * 16 + entry), (.I_PRD_KEEP, die, core * 16 + entry)]) ∧
    (s.portRuns die port = true → port < 2 → Runs (.ethLinkUp die port) s fun t =>
      t.rd .ETH_STATUS_LINK die port = 1 ∧ t.rd .ETH_STATUS_SECURE die port = 0 ∧ t.rd .ETH_STATUS_PEERS die port = 0 ∧ s.SameBytes t ∧
      t.rd .ETH_STATUS_SPEED die port = b2n ((s.portEntry die port).any fun p => p.mode == 0)) ∧
    (s.portRuns die port = false → exec (.ethLinkUp die port) s = .next s) ∧
    (port < 2 → Runs (.ethLinkDown die port) s fun t => t.rd .ETH_STATUS_LINK die port = 0 ∧ t.rd .ETH_STATUS_SECURE die port = 0 ∧
      t.portPasses die port = false ∧ s.SameBytes t)

/-! ### The vector unit and the searches (06 R282 to R296, 09 R405 to R416, 08 R369 to R384) -/

/-- A list command of the vector unit or the mover has run to its end without an error. -/
def Sys2Proof.Machine.State.Computed (s t : State) (die core c : Nat) (i : Issue) : Prop :=
  ∃ flags, s.Performed t die core c i (some ⟨0, flags, 0⟩)

/-- A number of `n` bytes at an offset of a core's own stores. -/
def Sys2Proof.Machine.State.own (s : State) (die core off n : Nat) : Nat := s.le (storeAddr die core off) n

/-- Every byte of the package's memory outside a range of a core's own stores, and all of the configuration store, is what it was. -/
def Sys2Proof.Machine.State.OwnBytesBut (s t : State) (die core off len : Nat) : Prop := s.BytesBut t (storeAddr die core off) len

/-- VEC computes each lane of each row from the lanes of its operands: the integer operations wrap in 32 bits, the FP32 sum, difference
and product are rounded once. QUANT of INT8 to INT32 keeps every value. -/
def Obligations.VectorLanes : Prop :=
  ∀ (s : State) (course : Course) (die core c : Nat) (i : Issue), s.Sound → course.Smooth → s.atCommand die core c i → s.suspectStore die core = false →
    let x : Cx := ⟨die, core, c, i⟩
    let a := x.la 1
    (let rows := bits (i.w 5) 0 24
     let b := x.la 2
     let d := x.la 4
     let lane := fun (off r k : Nat) => s.own die core (off + 256 * r + 4 * k) 4
     i.op = 0x30 → bits (i.w 6) 4 1 = 0 → bits (i.w 6) 6 1 = 0 → 1 ≤ rows → storeRangeOk a (256 * rows) = true →
      storeRangeOk b (256 * rows) = true → storeRangeOk d (256 * rows) = true → rangesMeet a (256 * rows) d (256 * rows) = false →
      rangesMeet b (256 * rows) d (256 * rows) = false →
      (i.mode ∈ [0x20, 0x21, 0x22] → bits (i.w 6) 0 4 = fmtInt32 → Runs (.vec die core ⟨c, course⟩) s fun t =>
        s.Computed t die core c i ∧ s.OwnBytesBut t die core d (256 * rows) ∧
        ∀ r k, r < rows → k < 64 →
          let p := signed 32 (lane a r k)
          let q := signed 32 (lane b r k)
          t.own die core (d + 256 * r + 4 * k) 4 =
            encode 32 (if i.mode = 0x20 then p + q else if i.mode = 0x21 then p - q else p * q)) ∧
      (i.mode ∈ [0x01, 0x02, 0x03] → bits (i.w 6) 0 4 = fmtFp32 → Runs (.vec die core ⟨c, course⟩) s fun t =>
        s.Computed t die core c i ∧ s.OwnBytesBut t die core d (256 * rows) ∧
        ∀ r k, r < rows → k < 64 →
          let p := fp32 (lane a r k)
          let q := fp32 (lane b r k)
          t.own die core (d + 256 * r + 4 * k) 4 =
            toFp32 (if i.mode = 0x01 then p.add q else if i.mode = 0x02 then p.sub q else p.mul q))) ∧
    (let rows := bits (i.w 4) 0 24
     let d := x.la 2
     i.op = 0x31 → bits (i.w 5) 0 11 = fmtInt8 + 16 * fmtInt32 → 1 ≤ rows → storeRangeOk a (64 * rows) = true →
      storeRangeOk d (256 * rows) = true → rangesMeet a (64 * rows) d (256 * rows) = false →
      Runs (.quant die core ⟨c, course⟩) s fun t =>
        s.Computed t die core c i ∧ s.OwnBytesBut t die core d (256 * rows) ∧
        ∀ r k, r < rows → k < 64 →
          t.own die core (d + 256 * r + 4 * k) 4 = encode 32 (signed 8 (s.own die core (a + 64 * r + k) 1)))

/-- PREDICT lists the neurons at or above the threshold in some row together with the slice's neurons, and apart the slice's neurons
that no row admits; in fallback every neuron and none; a safety context may not predict. AUDIT counts the audited neurons of each row
and those that miss by more than the entry's limit; more misses than its burst set the fallback. -/
def Obligations.PredictorCommands : Prop :=
  ∀ (s : State) (course : Course) (die core c : Nat) (i : Issue), s.Sound → course.Smooth → s.atCommand die core c i → s.suspectStore die core = false → i.op = 0x30 →
    let x : Cx := ⟨die, core, c, i⟩
    let a := x.la 1
    let l2 := x.la 2
    let l3 := x.la 3
    let rows := bits (i.w 5) 0 7
    let n := bits (i.w 6) 0 16
    let e := core * 16 + bits (i.w 6) 16 4
    let words := fun (t : State) (off : Nat) (ns : List Nat) =>
      t.own die core off 4 = ns.length ∧ ∀ k v, ns[k]? = some v → t.own die core (off + 4 + 4 * k) 4 = v
    rows ≤ 64 →
    (i.mode = 0x38 → s.on .CTX_SAFETY die (ctxIdx core c) = false → s.on .PRD_COMMIT_PENDING die e = false →
      s.on .PRD_REENABLE_PENDING die e = false → (rows * laneBytes n = 0 ∨ storeRangeOk a (rows * laneBytes n) = true) →
      storeRangeOk l2 (4 + 4 * n) = true → storeRangeOk l3 (4 + 4 * n) = true → rangesMeet l2 (4 + 4 * n) l3 (4 + 4 * n) = false →
      Runs (.vecPredict die core ⟨c, course⟩) s fun t =>
        let slice := s.rd .PRD_SLICE die e
        let thresh := fp32 (s.ac .PRD_THRESH die e)
        let admitted := fun j => (List.range rows).any fun r =>
          let v := fp32 (s.own die core (a + r * laneBytes n + 4 * j) 4)
          !v.isNan && !thresh.isNan && !v.lt thresh
        let back := s.on .PRD_FALLBACK die e
        s.Computed t die core c i ∧ t.rd .PRD_SLICE die e = (slice + 1) % 16 ∧
        words t l2 ((List.range n).filter fun j => back || admitted j || j % 16 == slice) ∧
        words t l3 ((List.range n).filter fun j => !back && j % 16 == slice && !admitted j)) ∧
    (i.mode = 0x38 → s.on .CTX_SAFETY die (ctxIdx core c) = true → Runs (.vecPredict die core ⟨c, course⟩) s fun t =>
      s.Performed t die core c i (some ⟨0x1A, 0, 0⟩) ∧ s.SameBytes t) ∧
    (let na := s.own die core l2 4
     let act := (List.range na).map fun k => s.own die core (l2 + 4 + 4 * k) 4
     let aud := (List.range (s.own die core l3 4)).map fun k => s.own die core (l3 + 4 + 4 * k) 4
     let places := aud.filterMap fun v => act.findIdx? fun m => m == v
     let eps := fp32 (s.ac .PRD_EPS die e)
     let misses := ((List.range rows).map fun r =>
       (places.filter fun p => eps.lt (fp32 (s.own die core (a + r * laneBytes na + 4 * p) 4)).abs).length).sum
     i.mode = 0x39 → storeRangeOk l2 (4 + 4 * na) = true → storeRangeOk l3 (4 + 4 * aud.length) = true →
      (rows * laneBytes na = 0 ∨ storeRangeOk a (rows * laneBytes na) = true) →
      s.rd .I_PRD_PREDICTS die e < 16 * 2 ^ min 8 (s.ac .PRD_WINDOW_LOG2 die e) → Runs (.vecAudit die core ⟨c, course⟩) s fun t =>
        s.Computed t die core c i ∧ s.SameBytes t ∧
        t.rd .PRD_AUDITED die e = (s.rd .PRD_AUDITED die e + rows * places.length) % 2 ^ Fld.PRD_AUDITED.info.width ∧
        t.rd .PRD_MISSES die e = (s.rd .PRD_MISSES die e + misses) % 2 ^ Fld.PRD_MISSES.info.width ∧
        (misses ≤ s.ac .PRD_BURST die e → t.rd .PRD_FALLBACK die e = s.rd .PRD_FALLBACK die e) ∧
        (s.ac .PRD_BURST die e < misses → t.rd .PRD_FALLBACK die e = 1))

/-- `sel` holds, in order, the `k` numbers below `n` that come first in an order, or all when there are fewer. -/
def FirstOf (n k : Nat) (before : Nat → Nat → Prop) (sel : List Nat) : Prop :=
  sel.length = min k n ∧ sel.Pairwise before ∧ (∀ j ∈ sel, j < n) ∧ ∀ j < n, j ∉ sel → ∀ i ∈ sel, before i j

/-- DIST over INT8 coordinates in nearest-neighbour mode gives each query the candidates at the smallest squared distances, the lower
index first of equals, and their distances. TOPK SELECT gives the largest INT8 scores with their indices, the lower index first of
equals. TOPK SUPPRESS keeps a candidate when no kept candidate before it conflicts with it and the limit is not reached. -/
def Obligations.SearchesSelect : Prop :=
  ∀ (s : State) (course : Course) (die core c : Nat) (i : Issue), s.Sound → course.Smooth → s.atCommand die core c i → s.suspectStore die core = false →
    let x : Cx := ⟨die, core, c, i⟩
    let byte := fun off => signed 8 (s.own die core off 1)
    let plane := fun (t : State) (off size free : Nat) (vs : List Nat) => ∀ k < size, t.own die core (off + 4 * k) 4 = vs.getD k free
    (let m := bits (i.w 5) 0 24
     let slots := bits (i.w 5) 24 7
     let nc := bits (i.w 6) 0 24
     let d := bits (i.w 6) 24 7
     let span := fun n => (n - 1) * 64 + d
     let sq := fun (q j : Nat) => ((List.range d).map fun k => (byte (x.la 1 + 64 * q + k) - byte (x.la 2 + 64 * j + k)) ^ 2).sum
     i.op = 0x24 → i.mode = 0x01 → slots ≤ 64 → 1 ≤ d → d ≤ 64 → 1 ≤ m → 1 ≤ nc → storeRangeOk (x.la 1) (span m) = true →
      storeRangeOk (x.la 2) (span nc) = true → storeRangeOk (x.la 3) (256 * m) = true → storeRangeOk (x.la 4) (256 * m) = true →
      rangesMeet (x.la 3) (256 * m) (x.la 4) (256 * m) = false →
      Runs (.dist die core ⟨c, course⟩) s fun t =>
        s.Computed t die core c i ∧
        t.rd .NS_DIST_ROWS die core = (s.rd .NS_DIST_ROWS die core + m) % 2 ^ Fld.NS_DIST_ROWS.info.width ∧
        ∀ q < m, ∃ sel, FirstOf nc slots (fun j k => sq q j < sq q k ∨ sq q j = sq q k ∧ j < k) sel ∧
          plane t (x.la 3 + 256 * q) 64 0xFFFFFFFF sel ∧
          plane t (x.la 4 + 256 * q) 64 0x7FFFFFFF (sel.map fun j => (sq q j).toNat)) ∧
    (let n := bits (i.w 4) 0 24
     let k := bits (i.w 5) 0 13
     let score := fun j => byte (x.la 1 + j)
     i.op = 0x25 → i.mode = 4 * fmtInt8 → 1 ≤ k → k ≤ 4096 → 1 ≤ n → storeRangeOk (x.la 1) n = true →
      storeRangeOk (x.la 2) (4 * k) = true → storeRangeOk (x.la 3) (4 * k) = true → rangesMeet (x.la 2) (4 * k) (x.la 3) (4 * k) = false →
      Runs (.topkSelect die core ⟨c, course⟩) s fun t =>
        s.Computed t die core c i ∧
        ∃ sel, FirstOf n k (fun a b => score b < score a ∨ score a = score b ∧ a < b) sel ∧
          plane t (x.la 2) k 0xFFFFFFFF sel ∧ plane t (x.la 3) k 0x7FFFFFFF (sel.map fun j => encode 32 (score j))) ∧
    (let n := bits (i.w 5) 0 13
     let p := bits (i.w 5) 16 7
     let limit := bits (i.w 6) 0 13
     let span := (n - 1) * 64 + p
     let size := (n + 7) / 8
     let conflict := fun a b => ∀ k < p, byte (x.la 1 + 64 * a + k) < byte (x.la 2 + 64 * b + k)
     i.op = 0x25 → i.mode = 1 + 4 * fmtInt8 → 1 ≤ n → n ≤ 4096 → 1 ≤ p → p ≤ 64 → limit ≤ 4096 → storeRangeOk (x.la 1) span = true →
      storeRangeOk (x.la 2) span = true → storeRangeOk (x.la 3) size = true → storeRangeOk (x.la 4) (4 * n) = true →
      storeRangeOk (x.la 7) 4 = true → rangesMeet (x.la 3) size (x.la 4) (4 * n) = false → rangesMeet (x.la 3) size (x.la 7) 4 = false →
      rangesMeet (x.la 4) (4 * n) (x.la 7) 4 = false →
      Runs (.topkSuppress die core ⟨c, course⟩) s fun t =>
        s.Computed t die core c i ∧
        ∃ kept : List Nat, kept.Pairwise (· < ·) ∧ kept.length ≤ limit ∧
          (∀ j < n, (j ∈ kept ↔ (∀ k ∈ kept, k < j → ¬ conflict j k) ∧ (kept.filter fun k => decide (k < j)).length < limit) ∧
            bit (t.own die core (x.la 3 + j / 8) 1) (j % 8) = decide (j ∈ kept)) ∧
          (∀ r v, kept[r]? = some v → t.own die core (x.la 4 + 4 * r) 4 = v) ∧
          ∃ beyond : List Nat, t.own die core (x.la 7) 4 = beyond.length ∧ beyond.Pairwise (· < ·) ∧
            ∀ j, j ∈ beyond ↔ j < n ∧ j ∉ kept ∧ ∀ k ∈ kept, k < j → ¬ conflict j k)

/-! ### Grids and sparse convolution (04_pillars_and_voxels.md, 08_sparse_convolution_and_neighbours.md) -/

/-- A range that a command can read in its own stores and that does not meet the range that it writes. -/
def Sys2Proof.Machine.State.Sees (s : State) (x : Cx) (dst len a n : Nat) : Prop :=
  n = 0 ∨ s.OwnRange x a n ∧ rangesMeet a n dst len = false

/-- A range of a vault of the command's own die, on and sound, that the mullions open to its context for reads and writes. -/
def Sys2Proof.Machine.State.vaultReady (s : State) (x : Cx) (a len : Nat) : Prop :=
  a < 2 ^ 48 ∧ addrDie a = x.die ∧ s.aux.checks = [] ∧ s.aux.flaky = [] ∧
  (∃ k off, placeOf (addrOff a) = .vault k off ∧ off + len ≤ 32 * mib ∧ s.placeOn x.die (.vault k off) = true ∧
    s.rd .VT_STATE x.die k = 0) ∧
  ∃ tag m, s.tagOf x.who = some tag ∧ m < 64 ∧ s.acOn .MUL_VALID x.die m = true ∧ s.acOn .MUL_SAFE_WRITE x.die m = false ∧
    bit (s.ac .MUL_READ x.die m) tag.1 = true ∧ bit (s.ac .MUL_WRITE x.die m) tag.1 = true ∧
    s.ac .MUL_BASE x.die m ≤ addrOff a / 4096 ∧ (addrOff a + len - 1) / 4096 ≤ s.ac .MUL_LIMIT x.die m

/-- The grid at an address. -/
def Sys2Proof.Machine.State.gridAt (s : State) (a : Nat) : GridView :=
  ⟨a, geoOf (((s.gridRec a).map fun g => g.geo).getD (s.bytes a 80)), s.le (a + 80) 3, s.le (a + 84) 1, s.le (a + 104) 4⟩

/-- The cell-list entry of a site (04 R198). -/
def Sys2Proof.Machine.State.siteEntry (s : State) (g : Geo) (p : Nat) : Slot :=
  let e := g.listBase + 16 * p
  ⟨s.le e 4, 0, s.le (e + 8) 1, s.le (e + 12) 4, s.le (e + 4) 4⟩

/-- A raw operand descriptor at a local address word of a command (10 R442). -/
def Sys2Proof.Machine.State.RawOd (s : State) (x : Cx) (word : Nat) (d : Od) : Prop :=
  let off := x.la word
  let f := fun k n => s.own x.die x.core (off + k) n
  off % 32 = 0 ∧ storeRangeOk off 32 = true ∧ x.paOf (f 0 4) (f 4 4) 8 = .ok d.base ∧ f 8 4 = d.rows ∧ f 12 2 = d.rowBytes ∧
  d.rowBytes % 64 = 0 ∧ f 14 1 = d.fmt ∧ f 15 1 = 0 ∧ f 24 4 = d.cols ∧ f 28 4 = 0 ∧ d.tiled = false ∧ d.hdr = 0

/-- GRID_OPEN of a descriptor in the unused state zeroes its slot table, its occupancy and its summary, and opens it under the next build.
HASH_INSERT enters its source and its build priority, and counts its points, those outside the grid among them; the first point of
a cell claims the cell's home slot and stands in its reservoir. GRID_CLOSE closes the grid to inserts; once those accepted have
completed, the summary is written and the grid is closed. -/
def Obligations.GridsAreBuilt : Prop :=
  ∀ (s : State) (course : Course) (die core c : Nat), s.Sound → course.Smooth → s.suspectStore die core = false →
    (∀ i a, s.atCommand die core c i → (⟨die, core, c, i⟩ : Cx).paOf (i.w 1) (i.w 2) 1 = .ok a → a % 64 = 0 →
      let x : Cx := ⟨die, core, c, i⟩
      s.OwnRange x a 640 →
      let v := s.gridAt a
      let mode := bits i.mode 0 3
      (let g := geoOf (s.bytes a 88)
       i.op = 0x22 → mode = 0 → g.withinLimits = true → g.placed s = true → v.state = 0 → s.vaultReady x g.slotBase g.slotBytes →
        s.Sees x a 640 g.occBase g.occBytes →
        (∀ r y, s.gridRec a = some r → r.closer = some y → y.2.2.2 ≤ s.rd .I_NEXT_ID 0) → Runs (.mapGridOpen die core ⟨c, course⟩) s fun t =>
          s.Computed t die core c i ∧ t.le (a + 80) 4 = (v.build + 1) % 2 ^ 24 ∧ t.le (a + 84) 1 = 1 ∧ t.le (a + 85) 1 = 0 ∧
          t.gridRec a = some { addr := a, geo := s.bytes a 80 } ∧ t.bytes (a + 96) 544 = List.replicate 544 0 ∧
          (∀ j < g.slotBytes, t.byte (g.slotBase + j) = 0) ∧ ∀ j < g.occBytes, t.byte (g.occBase + j) = 0) ∧
      (i.op = 0x22 → mode = 1 → v.state = 1 → Runs (.mapGridClose die core ⟨c, course⟩) s fun t =>
        s.Performed t die core c i none ∧ t.le (a + 84) 1 = 3 ∧ s.BytesBut t (a + 84) 1) ∧
      (∀ r frame, i.op = 0x23 → v.state = 1 → s.gridRec a = some r → x.paOf (i.w 3) (i.w 4) 3 = .ok frame → frame % 64 = 0 →
        s.Sees x a 640 frame 64 → bits (i.w 6) 0 19 ≤ 262144 → (∀ n ∈ r.inserts, n.2.2.2 ≤ s.rd .I_NEXT_ID 0) →
        let src := bits (i.w 7) 0 6
        let prio := bits (i.w 7) 8 3
        let first := bits (i.w 5) 0 24
        let h := s.bytes frame 64
        let n := min (first + bits (i.w 6) 0 19) (leAt h 24 4) - first
        let point := fun k => s.pointAddr h (first + k)
        let coord := fun k off => signed 24 (s.le (point k + off) 3)
        let at_ := a + 128 + 8 * src
        byteAt h 60 ≠ 0xFF → s.le at_ 8 = 0 ∨ s.le at_ 8 = frame → s.le (a + 85) 1 ≤ prio →
        (∀ k < n, s.Sees x a 640 (point k) 16) →
        ((∀ k < n, v.geo.locate (coord k 0) (coord k 3) (coord k 6) = none) → Runs (.hashInsert die core ⟨c, course⟩) s fun t =>
          s.Computed t die core c i ∧ t.le at_ 8 = frame ∧ t.le (a + 85) 1 = prio ∧
          ∃ q, t.gridRec a = some q ∧ q.pointsIn = r.pointsIn + n ∧ q.outOfGrid = r.outOfGrid + n ∧ q.cells = r.cells) ∧
        (∀ cell, n = 1 → v.geo.locate (coord 0 0) (coord 0 3) (coord 0 6) = some cell → v.geo.pillar = true → 1 ≤ v.geo.perCell →
          r.cells < v.geo.cap →
          let home := v.geo.slotBase + 16 * v.geo.home cell.key
          let res := v.geo.resAt r.cells
          let rank := v.geo.rank (s.le (point 0 + 13) 1) (leAt h 16 4) first
          v.geo.home cell.key < 2 ^ v.geo.log2 → s.le (home + 4) 3 ≠ v.build → s.vaultReady x home 16 →
          s.vaultReady x res (8 * v.geo.perCell) → rangesMeet home 16 res (8 * v.geo.perCell) = false →
          s.Sees x a 640 (v.geo.occBase + cell.key / 8) 1 → Runs (.hashInsert die core ⟨c, course⟩) s fun t =>
            s.Computed t die core c i ∧ slotOf (t.bytes home 16) = ⟨cell.key, v.build, 1, r.cells, 1⟩ ∧
            resEntryOf (t.bytes res 8) = ⟨first, src, rank⟩ ∧
            bit (t.le (v.geo.occBase + cell.key / 8) 1) (cell.key % 8) = true ∧
            ∃ q, t.gridRec a = some q ∧ q.pointsIn = r.pointsIn + 1 ∧ q.cells = r.cells + 1 ∧ q.maxProbe = max r.maxProbe 1))) ∧
    (∀ r f, s.closing die core c = some (r, f) →
      let x : Cx := ⟨die, core, c, f.cmd⟩
      let v := s.gridAt r.addr
      let slots := v.geo.slotBase
      (r.inserts.any s.insertLives = true → exec (.gridCloseDrainEnd die core c) s = .next s) ∧
      (f.cmd.op = 0x22 → r.inserts.any s.insertLives = false → r.dilated = false → v.state = 3 → s.OwnRange x r.addr 640 →
        s.vaultReady x slots v.geo.slotBytes → (∀ k < 2 ^ v.geo.log2, s.le (slots + 16 * k + 4) 3 ≠ v.build) →
        Runs (.gridCloseDrainEnd die core c) s fun t =>
          t.bytes (r.addr + 96) 32 = summaryOf r v.geo.warn 0 ∧ t.le (r.addr + 84) 1 = 2 ∧
          { f with ending := some ⟨0, 0, 0⟩ } ∈ (t.ctx die core c).flight ∧
          ∀ b, (b < r.addr + 96 ∨ r.addr + 128 ≤ b) → b ≠ r.addr + 84 → t.byte b = s.byte b))

/-- The convolution layer at an address (08 R337), with its grids. -/
def Sys2Proof.Machine.State.convAt (s : State) (a : Nat) : ConvLayer :=
  let k := convOf a (s.bytes a 44)
  ⟨k, s.gridAt k.inGrid, s.gridAt k.outGrid, if k.suppress == 2 then some (s.gridAt k.maskGrid) else none⟩

/-- A command can read that layer, and it fits its grids (08 R339). -/
def Sys2Proof.Machine.State.seesConv (s : State) (x : Cx) (dst len a : Nat) : Prop :=
  let l := s.convAt a
  s.Sees x dst len a 44 ∧ l.conv.fieldsOk = true ∧ s.Sees x dst len l.conv.inGrid 108 ∧ s.Sees x dst len l.conv.outGrid 108 ∧
  (l.conv.suppress = 2 → s.Sees x dst len l.conv.maskGrid 108) ∧
  l.conv.gridsOk l.inp.geo l.out.geo (l.mask.map fun g => g.geo) = true

/-- The site of a cell of a pillar grid whose slot is its home slot. -/
def Sys2Proof.Machine.State.siteAt (s : State) (table : Nat) (v : GridView) (u : Cell) : Option Nat :=
  if bit (s.le (v.geo.occBase + u.key / 8) 1) (u.key % 8) then
    some (s.le (table + 64 + 4 * (slotOf (s.bytes (v.geo.slotBase + 16 * (v.geo.home u.key % 2 ^ v.geo.log2)) 16)).index) 4)
  else none

/-- The occupancy bit of a cell of a pillar grid (04 R191). -/
def Sys2Proof.Machine.State.inPillarMap (s : State) (v : GridView) (u : Cell) : Bool :=
  decide (u.z = 0 ∧ u.y < v.geo.ny) && bit (s.le (v.geo.occBase + u.key / 8) 1) (u.key % 8)

/-- A command can look that site up. -/
def Sys2Proof.Machine.State.seesSite (s : State) (x : Cx) (dst len table : Nat) (v : GridView) (u : Cell) : Prop :=
  let home := v.geo.slotBase + 16 * (v.geo.home u.key % 2 ^ v.geo.log2)
  let t := slotOf (s.bytes home 16)
  v.geo.pillar = true ∧ s.Sees x dst len (v.geo.occBase + u.key / 8) 1 ∧
  (bit (s.le (v.geo.occBase + u.key / 8) 1) (u.key % 8) = true →
    s.vaultReady x home 16 ∧ t.build = v.build ∧ t.key = u.key ∧ s.Sees x dst len (table + 64 + 4 * t.index) 4)

/-- The header of an index table names the grid as it stands (08 R350). -/
def Sys2Proof.Machine.State.freshIndex (s : State) (x : Cx) (dst len table : Nat) (v : GridView) : Prop :=
  s.Sees x dst len table 12 ∧ s.le table 8 = v.addr ∧ s.le (table + 8) 4 = v.build

/-- A list at a local address word: how many entries stand in it, how many were found, and the entries (08 R368). -/
def Sys2Proof.Machine.State.Found (t : State) (x : Cx) (word cap size : Nat) (es : List (List Byte)) : Prop :=
  t.own x.die x.core (x.la word) 4 = min cap es.length ∧ t.own x.die x.core (x.la word + 4) 4 = es.length % 2 ^ 32 ∧
  ∀ k e, k < cap → es[k]? = some e → t.bytes (storeAddr x.die x.core (x.la word + 8 + size * k)) size = e

/-- MAP INDEX writes the site of each cell at its slot index, under the grid's address and build. MAP DILATE of a submanifold layer
reports the input's sites. MAP RULES writes, for each kernel offset, the pairs of input and output sites that it joins, up to its
capacity. MAP WALK and MAP AND list the sites inside a box, and those that two grids share. -/
def Obligations.MapsJoinSites : Prop :=
  ∀ (s : State) (course : Course) (die core c a : Nat) (i : Issue), s.Sound → course.Smooth → s.atCommand die core c i → s.suspectStore die core = false → i.op = 0x22 →
    let x : Cx := ⟨die, core, c, i⟩
    let mode := bits i.mode 0 3
    let free := s.Sees x 0 0
    x.paOf (i.w 1) (i.w 2) 1 = .ok a → a % 64 = 0 →
    (∀ tbl, mode = 3 → x.paOf (i.w 3) (i.w 4) 3 = .ok tbl → tbl % 64 = 0 →
      let v := s.gridAt a
      let len := 64 + 4 * v.cells
      let index := fun p => (s.siteEntry v.geo p).index
      v.state = 2 → s.OwnRange x a 640 → s.OwnRange x tbl len → s.Sees x tbl len a 640 → s.Sees x tbl len v.geo.listBase (16 * v.cells) →
      (∀ p q, p < v.cells → q < v.cells → index p < v.cells ∧ (index p = index q → p = q)) →
      Runs (.mapIndex die core ⟨c, course⟩) s fun t =>
        s.Computed t die core c i ∧ t.le tbl 8 = a ∧ t.le (tbl + 8) 4 = v.build ∧ s.BytesBut t tbl len ∧
        ∀ p < v.cells, t.le (tbl + 64 + 4 * index p) 4 = p) ∧
    (mode = 2 → s.OwnRange x a 64 → s.seesConv x (a + 44) 20 a → (s.convAt a).conv.suppress = 1 → (s.convAt a).inp.state = 2 →
      Runs (.mapDilate die core ⟨c, course⟩) s fun t =>
        s.Computed t die core c i ∧ t.le (a + 44) 4 = (s.convAt a).inp.cells ∧ t.le (a + 48) 4 = (s.convAt a).inp.cells ∧
        t.le (a + 52) 4 = 0 ∧ t.le (a + 56) 4 = 0 ∧ t.le (a + 60) 4 = 0 ∧ s.BytesBut t (a + 44) 20) ∧
    (∀ book, mode = 4 → s.OwnRange x a 64 → x.paOf (i.w 3) (i.w 4) 3 = .ok book → book % 64 = 0 →
      let l := s.convAt a
      let cap := i.w 5
      let lo := bits (i.w 6) 0 24
      let n := min (bits (i.w 7) 0 24) (l.out.cells - lo)
      let cell := fun p => cellOf (s.siteEntry l.out.geo p).key
      let pairs := (List.range l.conv.kv).map fun o => (List.range n).filterMap fun k =>
        ((l.conv.inputCell l.inp.geo (cell (lo + k)) o).bind (s.siteAt l.conv.inIndex l.inp)).map fun q => (q, lo + k)
      let kept := cutPairs cap pairs
      let size := pairArea l.conv.kv + 8 * kept.flatten.length
      l.inp.state = 2 → l.out.state = 2 → s.seesConv x 0 0 a → s.freshIndex x 0 0 l.conv.inIndex l.inp →
      free l.out.geo.listBase (16 * (lo + n)) → s.OwnRange x book size →
      (∀ o k u, o < l.conv.kv → k < n → l.conv.inputCell l.inp.geo (cell (lo + k)) o = some u → s.seesSite x 0 0 l.conv.inIndex l.inp u) →
      Runs (.mapRules die core ⟨c, course⟩) s fun t =>
        s.Computed t die core c i ∧ t.le book 4 = lo ∧ t.le (book + 4) 4 = n ∧ t.le (book + 8) 4 = kept.flatten.length ∧
        t.le (book + 20) 1 = l.conv.kv ∧ t.le (book + 24) 8 = a ∧ t.le (book + 32) 4 = l.inp.build ∧ t.le (book + 36) 4 = l.out.build ∧
        (∀ o seg, (segments 0 (kept.map List.length))[o]? = some seg →
          t.le (book + 64 + 8 * o) 4 = seg.1 ∧ t.le (book + 64 + 8 * o + 4) 4 = seg.2) ∧
        (∀ k p, kept.flatten[k]? = some p →
          t.le (book + pairArea l.conv.kv + 8 * k) 4 = p.1 % 2 ^ 32 ∧ t.le (book + pairArea l.conv.kv + 8 * k + 4) 4 = p.2 % 2 ^ 32) ∧
        s.BytesBut t book size) ∧
    (mode = 5 → bits (i.w 7) 0 12 ≤ 256 → bits (i.w 7) 12 12 ≤ 256 → s.OwnRange x a 64 →
      let v := s.gridAt (s.le a 6)
      let cell := fun p => cellOf (s.siteEntry v.geo p).key
      let inside := fun (w k : Nat) => decide (bits (i.w w) 0 12 ≤ k ∧ k < bits (i.w w) 12 12)
      let hits := (List.range v.cells).filter fun p => s.inPillarMap v (cell p) &&
        inside 5 (cell p).x && inside 6 (cell p).y && inside 7 (cell p).z
      s.freshIndex x 0 0 a v → free v.addr 108 → free v.geo.listBase (16 * v.cells) → v.geo.pillar = true →
      free v.geo.occBase (256 * v.geo.ny) → storeRangeOk (x.la 3) (8 + 4 * v.cells) = true →
      Runs (.mapWalk die core ⟨c, course⟩) s fun t => s.Computed t die core c i ∧ t.Found x 3 (i.w 4) 4 (hits.map fun p => toLe 4 p)) ∧
    (∀ b, mode = 6 → s.OwnRange x a 64 → x.paOf (i.w 3) (i.w 4) 3 = .ok b → b % 64 = 0 → s.OwnRange x b 64 →
      let v := s.gridAt (s.le a 6)
      let w := s.gridAt (s.le b 6)
      let cell := fun p => cellOf (s.siteEntry v.geo p).key
      let hits := (List.range v.cells).filterMap fun p =>
        if s.inPillarMap v (cell p) then
          (s.siteAt b w (cell p)).map fun q => toLe 4 p ++ toLe 4 q
        else none
      v.geo.same w.geo = true → s.freshIndex x 0 0 a v → s.freshIndex x 0 0 b w → free v.addr 108 → free w.addr 108 →
      free v.geo.listBase (16 * v.cells) → free v.geo.occBase (256 * v.geo.ny) → free w.geo.occBase (256 * w.geo.ny) →
      (∀ p < v.cells, s.seesSite x 0 0 b w (cell p)) → v.geo.pillar = true → storeRangeOk (x.la 5) (8 + 8 * v.cells) = true →
      Runs (.mapAnd die core ⟨c, course⟩) s fun t => s.Computed t die core c i ∧ t.Found x 5 (i.w 6) 8 hits)

/-- The elements of an INT8 input row that an output row takes, filled up with zeros. -/
def Sys2Proof.Machine.State.featureBytes (s : State) (i o : Od) (p : Nat) : List Byte :=
  s.bytes (i.base + p * i.rowBytes) (min i.cols o.cols) ++ List.replicate (o.cols - i.cols) 0

/-- The pairs of a segment of a rule book, input site first (08 R352 to R354). -/
def Sys2Proof.Machine.State.bookPairs (s : State) (book o : Nat) : List (Nat × Nat) :=
  let e := book + 64 + 8 * o
  let at_ := book + pairArea (s.le (book + 20) 1) + 8 * s.le e 4
  (List.range (s.le (e + 4) 4)).map fun j => (s.le (at_ + 8 * j) 4, s.le (at_ + 8 * j + 4) 4)

/-- A command can read a segment of a rule book that is not stale (08 R362). -/
def Sys2Proof.Machine.State.seesBook (s : State) (x : Cx) (book o : Nat) : Prop :=
  let l := s.convAt (s.le (book + 24) 6)
  o < s.le (book + 20) 1 ∧ book % 64 = 0 ∧ s.seesConv x 0 0 l.conv.addr ∧ s.le (book + 32) 4 = l.inp.build ∧
  s.le (book + 36) 4 = l.out.build ∧
  s.OwnRange x book (pairArea (s.le (book + 20) 1) + 8 * (s.le (book + 64 + 8 * o) 4 + s.le (book + 64 + 8 * o + 4) 4))

/-- The first `n` rows of an operand of INT8 elements lie in one region (10 R440). -/
def Sys2Proof.Machine.Od.inRegion (d : Od) (n : Nat) : Prop :=
  d.span n d.cols = 0 ∨ rangeOk (addrOff d.base) (d.span n d.cols) = true

/-- GATHER collects rows in its output operand: in pillar mode the kept points of each cell in reservoir order, then zero records; in
rows mode the input rows of a rule book's segment; in neighbour mode, for each output site, the row of the site that the layer joins
to it at the offset, or zeros where there is none. It counts the rows. -/
def Obligations.GathersCollectRows : Prop :=
  ∀ (s : State) (course : Course) (die core c a : Nat) (i : Issue) (d : Od), s.Sound → course.Smooth → s.atCommand die core c i → s.suspectStore die core = false →
    i.op = 0x20 →
    let x : Cx := ⟨die, core, c, i⟩
    let done := fun (t : State) (n : Nat) => s.Computed t die core c i ∧
      t.rd .NS_GATHER_ROWS die core = (s.rd .NS_GATHER_ROWS die core + n) % 2 ^ Fld.NS_GATHER_ROWS.info.width
    x.paOf (i.w 1) (i.w 2) 1 = .ok a → s.RawOd x 7 d →
    (let v := s.gridAt a
     let first := bits (i.w 3) 0 24
     let n := min (bits (i.w 4) 0 24) (v.cells - first)
     let len := d.span n (16 * v.geo.perCell)
     let cell := fun r => s.siteEntry v.geo (first + r)
     let entry := fun r j => resEntryOf (s.bytes (v.geo.resAt (cell r).index + 8 * j) 8)
     let head := fun e : ResEntry => s.le (a + 128 + 8 * e.source) 6
     let point := fun e : ResEntry => s.pointAddr (s.bytes (head e) 64) e.index
     bits i.mode 0 2 = 0 → a % 64 = 0 → s.OwnRange x a 640 → v.state = 2 → 16 * v.geo.perCell ≤ d.rowBytes → 1 ≤ n → n ≤ d.rows →
      s.OwnRange x d.base len → s.Sees x d.base len a 640 → s.Sees x d.base len v.geo.listBase (16 * (first + n)) →
      (∀ r < n, (cell r).kept ≤ v.geo.perCell ∧
        ((cell r).kept = 0 ∨ s.vaultReady x (v.geo.resAt (cell r).index) (8 * (cell r).kept)) ∧
        ∀ j < (cell r).kept, s.Sees x d.base len (head (entry r j)) 64 ∧ s.Sees x d.base len (point (entry r j)) 16) →
      Runs (.gatherPillar die core ⟨c, course⟩) s fun t => done t n ∧ s.BytesBut t d.base len ∧
        ∀ r < n, ∀ j < v.geo.perCell, t.bytes (d.base + r * d.rowBytes + 16 * j) 16 =
          if j < (cell r).kept then s.bytes (point (entry r j)) 16 else List.replicate 16 0) ∧
    ∀ f, s.RawOd x 4 f → f.fmt = fmtInt8 → f.inRegion f.rows → d.fmt = fmtInt8 → d.cols ≤ d.rowBytes →
      (let pairs := s.bookPairs a (bits (i.w 3) 0 7)
       let len := d.span pairs.length d.cols
       bits i.mode 0 2 = 1 → s.seesBook x a (bits (i.w 3) 0 7) → 1 ≤ pairs.length → pairs.length ≤ d.rows →
        s.OwnRange x d.base len →
        (∀ p ∈ pairs, p.1 < f.rows ∧ s.Sees x d.base len (f.base + p.1 * f.rowBytes) (min f.cols d.cols)) →
        Runs (.gatherRows die core ⟨c, course⟩) s fun t => done t pairs.length ∧ s.BytesBut t d.base len ∧
          ∀ j p, pairs[j]? = some p → t.bytes (d.base + j * d.rowBytes) d.cols = s.featureBytes f d p.1) ∧
      (let l := s.convAt a
       let off := bits (i.w 3) 0 7
       let lo := bits (i.w 5) 0 24
       let n := min (bits (i.w 6) 0 24) (l.out.cells - lo)
       let len := d.span n d.cols
       let joins := fun r => l.conv.inputCell l.inp.geo (cellOf (s.siteEntry l.out.geo (lo + r)).key) off
       let site := fun r => (joins r).bind (s.siteAt l.conv.inIndex l.inp)
       bits i.mode 0 2 = 2 → a % 64 = 0 → s.OwnRange x a 64 → off < l.conv.kv → s.OwnRange x d.base len → s.seesConv x d.base len a →
        s.freshIndex x d.base len l.conv.inIndex l.inp → s.Sees x d.base len l.out.geo.listBase (16 * (lo + n)) → 1 ≤ n → n ≤ d.rows →
        (∀ r < n, (∀ u, joins r = some u → s.seesSite x d.base len l.conv.inIndex l.inp u) ∧
          ∀ p, site r = some p → p < f.rows ∧ s.Sees x d.base len (f.base + p * f.rowBytes) (min f.cols d.cols)) →
        Runs (.gatherNeighbour die core ⟨c, course⟩) s fun t => done t n ∧ s.BytesBut t d.base len ∧
          ∀ r < n, t.bytes (d.base + r * d.rowBytes) d.cols =
            ((site r).map (s.featureBytes f d)).getD (List.replicate d.cols 0))

/-- The sum of two INT8 encodings, saturated (04 R210). -/
def addInt8 (a b : Byte) : Byte := BitVec.ofNat 8 (encode 8 (clampInt (-128) 127 (signed 8 a.toNat + signed 8 b.toNat)).1)

/-- A byte to which rows are added in order: row r lies at `src r` and is added at `dst r`, `len` bytes of each (04 R211). -/
def Sys2Proof.Machine.State.added (s : State) (n len : Nat) (src dst : Nat → Nat) (b : Nat) : Byte :=
  (List.range n).foldl (fun v r => if dst r ≤ b ∧ b < dst r + len then addInt8 v (s.byte (src r + (b - dst r))) else v) (s.byte b)

/-- SCATTER_ADD adds its input rows in order into P-store, each byte saturating: in map mode at the map position of the row's cell, in
rows mode at the output row of the segment's pair, which it counts. Every byte that no row reaches is what it was. -/
def Obligations.ScattersAddRows : Prop :=
  ∀ (s : State) (course : Course) (die core c a : Nat) (i : Issue) (d : Od), s.Sound → course.Smooth → s.atCommand die core c i → s.suspectStore die core = false →
    i.op = 0x21 →
    let x : Cx := ⟨die, core, c, i⟩
    let inP := fun b => ∃ off, x.own b = some off ∧ 0x800000 ≤ off
    x.paOf (i.w 1) (i.w 2) 1 = .ok a → d.fmt = fmtInt8 →
    (∀ base, bit i.mode 0 = false → s.RawOd x 3 d → x.paOf (i.w 4) (i.w 5) 4 = .ok base →
      let v := s.gridAt a
      let n := bits (i.w 6) 0 13
      let dn := bits (i.w 6) 20 2
      let first := bits (i.w 7) 0 24
      let down := fun k => k / 2 ^ dn
      let up := fun k => (k + 2 ^ dn - 1) / 2 ^ dn
      let stride := (n + 63) / 64 * 64
      let rows := min d.rows (v.cells - first)
      let total := up v.geo.nx * up v.geo.ny * stride
      let cell := fun r => cellOf (s.siteEntry v.geo (first + r)).key
      1 ≤ n → n ≤ 4096 → bits (i.w 6) 16 4 = fmtInt8 → dn ≤ 2 → a % 64 = 0 → s.OwnRange x a 640 → v.state = 2 → v.geo.pillar = true →
      s.OwnRange x base total → inP base → 1 ≤ rows → s.Sees x base total a 640 →
      s.Sees x base total v.geo.listBase (16 * (first + rows)) → s.OwnRange x d.base (d.span rows d.cols) →
      (∀ r < rows, (cell r).x < v.geo.nx ∧ (cell r).y < v.geo.ny ∧ s.Sees x base total (d.base + r * d.rowBytes) n) →
      Runs (.scatterAddMap die core ⟨c, course⟩) s fun t => s.Computed t die core c i ∧
        ∀ b, t.byte b = s.added rows n (fun r => d.base + r * d.rowBytes)
          (fun r => base + (down (cell r).y * up v.geo.nx + down (cell r).x) * stride) b) ∧
    (∀ o, bit i.mode 0 = true → s.RawOd x 4 d → d.inRegion d.rows → s.RawOd x 5 o → o.fmt = fmtInt8 → s.seesBook x a (bits (i.w 3) 0 7) →
      let pairs := s.bookPairs a (bits (i.w 3) 0 7)
      let lo := s.le a 4
      let row := fun j => ((pairs.getD j (0, 0)).2 + 2 ^ 32 - lo) % 2 ^ 32
      let len := o.span o.rows o.cols
      let n := min d.cols o.cols
      s.OwnRange x o.base len → inP o.base → 1 ≤ pairs.length → pairs.length ≤ d.rows →
      (∀ j < pairs.length, row j < o.rows ∧ s.Sees x o.base len (d.base + j * d.rowBytes) n) →
      Runs (.scatterAddRows die core ⟨c, course⟩) s fun t => s.Computed t die core c i ∧
        t.rd .NS_SCATTER_ROWS die core =
          (s.rd .NS_SCATTER_ROWS die core + pairs.length) % 2 ^ Fld.NS_SCATTER_ROWS.info.width ∧
        ∀ b, t.byte b = s.added pairs.length n (fun j => d.base + j * d.rowBytes) (fun j => o.base + row j * o.rowBytes) b)

/-! ### Shutters (11 R517 to R524) -/

/-- A shutter write sets its group's request, and starts the transition that the group's state allows; of a group that is held OFF or
during a warm restart it is discarded. A group that has closed is OFF, and opens at once when it is asked to; a group that has opened
is ON, zeroed when it was OFF without retention and with its bytes otherwise. -/
def Obligations.ShuttersOpenAndClose : Prop :=
  ∀ (s : State) (die g : Nat) (u : ShutterUnit), s.Sound → s.dieThere die = true → g < shutGroups u →
    let st := s.shutState die u g
    let req := s.shutReq die u g
    let lostAt := fun (t : State) (h : Nat) => bit (t.rd (shutLostFld u) die (shutIdx u)) h
    let lost := fun t : State => lostAt t g
    let keys := [(shutFld u, die, shutIdx u), (shutStateFld u, die, shutIdx u), (shutLostFld u, die, shutIdx u)]
    let becomes := fun (t : State) (r v : Nat) (l : Bool) =>
      t.shutReq die u g = r ∧ t.shutState die u g = v ∧ lost t = l ∧ (∀ h, h ≠ g → h < shutGroups u →
        t.shutReq die u h = s.shutReq die u h ∧ t.shutState die u h = s.shutState die u h ∧ lostAt t h = lostAt s h) ∧
      s.RegsBut t keys
    let kept := fun t : State => s.SameBytes t ∧ t.aux = s.aux
    let range := shutRange u die g
    (s.shutHeld die u g = true → ∀ k ∈ [Instr.shutterOn die u g, .shutterOffRetain die u g, .shutterOffNoRetain die u g],
      exec k s = .next s) ∧
    (s.shutHeld die u g = false →
      Runs (.shutterOn die u g) s (fun t => becomes t 0 (if st = 2 then 3 else st) (lost s) ∧ kept t) ∧
      Runs (.shutterOffRetain die u g) s (fun t => becomes t 1 (if st = 0 then 1 else st) (lost s) ∧ kept t) ∧
      Runs (.shutterOffNoRetain die u g) s fun t =>
        becomes t 2 (if st = 0 then 1 else st) (lost s || decide (st = 0 ∨ st = 2)) ∧ kept t) ∧
    (st = 1 → Runs (.shutterClosed die u g) s fun t =>
      becomes t req (if req = 0 then 3 else 2) (lost s || decide (req = 2)) ∧ kept t) ∧
    (st ≠ 1 → exec (.shutterClosed die u g) s = .next s) ∧
    (st = 3 → Runs (.shutterOpened die u g) s fun t =>
      becomes t req (if req = 1 ∨ req = 2 then 1 else 0) (decide (req = 2)) ∧
      (lost s = true → (∀ b < range.2, t.byte (range.1 + b) = 0) ∧ s.BytesBut t range.1 range.2 ∧
        (∀ p ∈ t.aux.checks, p.1 < range.1 ∨ range.1 + range.2 ≤ p.1) ∧ ∀ p ∈ t.aux.poison, p.1 < range.1 ∨ range.1 + range.2 ≤ p.1) ∧
      (lost s = false → kept t)) ∧
    (st ≠ 3 → exec (.shutterOpened die u g) s = .next s)

/-! ### Transactions (12 R533, R559 to R561, 15 R666 to R669, 19 R782, R798 to R801) -/

/-- A die exists, has not failed, and its fabric is on. -/
def Sys2Proof.Machine.State.dieRuns (s : State) (die : Nat) : Prop :=
  s.dieThere die = true ∧ bit (s.rd .FLT_DIE_FAILED 0) die = false ∧ bit (s.rd .PWR_DOM_ON die) 7 = true

/-- A way leads from a requester to the die of an address over links of which none went down less than 100 µs ago. -/
def Sys2Proof.Machine.State.way (s : State) (who : Requester) (a : Nat) : Prop :=
  let g := addrOff a / 256
  s.dieRuns (addrDie a) ∧ ∃ r, s.route (requesterDie who) (addrDie a) g = some r ∧
    ∀ h ∈ s.hops g (requesterDie who) r, s.link h.1 h.2.1 ≠ .going

/-- A requester's transaction reaches the place of an address: the way, the mullions, the power domain. -/
def Sys2Proof.Machine.State.reaches (s : State) (who : Requester) (a : Nat) (write : Bool) : Prop :=
  s.way who a ∧ (∀ tag, s.tagOf who = some tag → s.admits (addrDie a) (addrOff a) tag write = true) ∧
  s.placeOn (addrDie a) (placeOf (addrOff a)) = true

/-- A transaction that is admitted reads, writes or adds to the bytes at its address, or works on a slot, a semaphore or the Bell; one
that a mullion refuses is counted, shown and answered with an error, and so is one that meets no memory. Host accesses do the same
at the address that their window and APT name, while the host link is up. -/
def Obligations.TransactionsReachTheirTarget : Prop :=
  ∀ (s : State) (who : Requester) (a : Nat), s.Sound → a < 2 ^ 48 →
    let die := addrDie a
    let one := fun (f : Fld) (i : Nat) (t : State) => t.rd f die i = (s.rd f die i + 1) % 2 ^ f.info.width
    let answers := fun (o : Output) (t : State) => t.aux.outputs = o :: s.aux.outputs
    (∀ bs meets, a % 256 + bs.length ≤ 256 → s.reaches who a true → s.openHbm a bs.length →
      Runs (.fabricTransaction who a (.write bs) meets) s fun t =>
        t.bytes a bs.length = bs ∧ s.BytesBut t a bs.length ∧ t.aux.outputs = s.aux.outputs) ∧
    (∀ len, a % 256 + len ≤ 256 → s.reaches who a false → s.soundHbm a len →
      (∀ meets : List (Nat × ReadCheck), (∀ m ∈ meets, m.2 = .ok) → Runs (.fabricTransaction who a (.read len) meets) s fun t =>
        answers (.readBytes who (s.bytes a len)) t ∧ s.SameBytes t) ∧
      (1 ≤ len → Runs (.fabricTransaction who a (.read len) [(a, .corrected)]) s fun t =>
        t.aux.outputs.head? = some (.readBytes who (s.bytes a len)) ∧
        ∀ st off, placeOf (addrOff a) = .hbm st off → one .HBM_CE st t) ∧
      (1 ≤ len → Runs (.fabricTransaction who a (.read len) [(a, .uncorrectable)]) s fun t =>
        t.aux.outputs.head? = some (.accessError who codeFabric) ∧ a / 8 * 8 ∈ t.aux.badWords ∧
        ∀ st off, placeOf (addrOff a) = .hbm st off → one .HBM_UE st t)) ∧
    (∀ tag op write, (∃ len, op = .read len ∧ a % 256 + len ≤ 256) ∧ write = false ∨
        (∃ bs, op = .write bs ∧ a % 256 + bs.length ≤ 256) ∧ write = true →
      s.way who a → s.tagOf who = some tag → s.admits die (addrOff a) tag write = false →
      ∀ meets, Runs (.fabricTransaction who a op meets) s fun t =>
        t.aux.outputs.head? = some (.accessError who codeMullion) ∧ one .MUL_REFUSED 0 t ∧
        t.rd .MUL_LAST_ADDR die = a % 2 ^ Fld.MUL_LAST_ADDR.info.width ∧ t.rd .MUL_LAST_WRITE die = b2n write ∧ s.SameBytes t) ∧
    (∀ len, a % 256 + len ≤ 256 →
      s.dieThere die = false ∨ s.way who a ∧ s.tagOf who = none ∧ s.placeOn die (placeOf (addrOff a)) = false ∨
        s.reaches who a false ∧ placeOf (addrOff a) = .nowhere →
      Runs (.fabricTransaction who a (.read len) []) s fun t => answers (.accessError who codeFabric) t ∧ s.SameBytes t) ∧
    (∀ k off, placeOf (addrOff a) = .vault k off → s.rd .VT_STATE die k = 0 → s.aux.checks = [] ∧ s.aux.flaky = [] → s.reaches who a true →
      (∀ bs meets, a % 256 + bs.length ≤ 256 → Runs (.fabricTransaction who a (.add fmtInt8 bs) meets) s fun t =>
        t.bytes a bs.length = (s.bytes a bs.length).zipWith addInt8 bs ∧ s.BytesBut t a bs.length ∧
        t.rd .VT_ADDS die k = (s.rd .VT_ADDS die k + (rowsOf off bs.length).length) % 2 ^ Fld.VT_ADDS.info.width) ∧
      (∀ key build meets, a % 256 + 16 ≤ 256 → Runs (.fabricTransaction who a (.slotOp key build) meets) s fun t =>
        answers (.readBytes who (s.bytes a 16)) t ∧ one .VT_SLOT_OPS k t ∧
        (s.le (a + 4) 3 = build % 2 ^ 24 → s.SameBytes t) ∧
        (s.le (a + 4) 3 ≠ build % 2 ^ 24 → t.le a 4 = key % 2 ^ 32 ∧ t.le (a + 4) 3 = build % 2 ^ 24 ∧ t.le (a + 7) 1 = 0 ∧
          t.le (a + 12) 4 = 0 ∧ s.BytesBut t a 16))) ∧
    (∀ off, placeOf (addrOff a) = .regs off → s.reaches who a true → requesterDie who = die →
      (∀ core sem count meets, coreOfReg off = some core → (∀ x < 4, s.ctxState die core x ≠ 2) →
        let i := core * 32 + sem % 32
        Runs (.fabricTransaction who a (.semaphoreAdd sem count) meets) s fun t =>
          t.rd .SEM_VALUE die i = min (s.rd .SEM_VALUE die i + count % 2 ^ 16) 65535 ∧ s.OnlyRegs t [(.SEM_VALUE, die, i)]) ∧
      (∀ word meets, off / 0x10000 = 1 → exec (.fabricTransaction who a (.doorbell word) meets) s = exec (.bellDoorbell who die word) s)) ∧
    (∀ bar off width value, ∀ meets : List (Nat × ReadCheck), (∀ m ∈ meets, m.2 = .ok) → s.hostAddr bar off = a → let n := width / 8
      a % 256 + n ≤ 256 →
      (s.on .PCIE_STATUS_LINK 0 = false → ∀ w, exec (.hostAccess bar off width w ⟨value, meets⟩) s = .next s) ∧
      (s.on .PCIE_STATUS_LINK 0 = true →
        (s.reaches .host a true → s.openHbm a n → Runs (.hostAccess bar off width true ⟨value, meets⟩) s fun t =>
          t.bytes a n = toLe n value ∧ s.BytesBut t a n) ∧
        (s.reaches .host a false → s.soundHbm a n → Runs (.hostAccess bar off width false ⟨value, meets⟩) s fun t =>
          answers (.readData .host (s.le a n)) t ∧ s.SameBytes t) ∧
        (s.dieThere die = false → 1 ≤ n → ∀ w, Runs (.hostAccess bar off width w ⟨value, meets⟩) s fun t =>
          t.rd .PCIE_ERR 0 = (s.rd .PCIE_ERR 0 + 1) % 2 ^ Fld.PCIE_ERR.info.width ∧ s.RegsBut t [(.PCIE_ERR, 0, 0)] ∧ s.SameBytes t ∧
          (w = false → answers (.accessError .host codeFabric) t))))

/-- The HBM controllers: a scrub read of a sound word is counted, the last of a pass with the pass's end; a corrected word is counted
and written back, an uncorrectable one is counted, shown, recorded and stays so. At the end of an imbalance window the counts of the running window begin again, and a
qualifying window shows its share and its counts and sets the imbalance after enough windows above the limit. -/
def Obligations.HbmControllers : Prop :=
  ∀ (s : State) (die stack off : Nat), s.Sound → s.dieThere die = true → stack < 2 →
    let w := off / 8 * 8
    let a := hbmAddr die stack w
    let scrubbed := s.rd .I_HBM_SCRUBBED die stack
    let cs := s.windowCounts die stack
    let share := cs.foldl max 0 * 256 / cs.sum
    let excess := min 255 (s.rd .I_HBM_OVER die stack + 1)
    let need := s.rd .HBM_IMB_WINDOWS die stack
    let fresh := fun t : State => (∀ c < 16, t.rd .I_HBM_CNT die (stack * 16 + c) = 0) ∧ s.SameBytes t
    let shown := fun t : State => t.rd .HBM_IMB_SHARE die stack = share % 2 ^ Fld.HBM_IMB_SHARE.info.width ∧
      ∀ c < 16, t.rd .HBM_CH_GRANULES die (stack * 16 + c) = cs.getD c 0 % 2 ^ Fld.HBM_CH_GRANULES.info.width
    (s.hbmReady die stack = true → w < stackBytes →
      (a ∉ s.aux.badWords → a ∉ s.aux.weakWords → Runs (.hbmScrub die stack off .ok) s fun t =>
        s.OnlyRegs t [(.I_HBM_SCRUBBED, die, stack), (.HBM_STATUS_SCRUB_DONE, die, stack)] ∧
        (scrubbed + 1 = stackBytes / 8 → t.rd .I_HBM_SCRUBBED die stack = 0 ∧ t.rd .HBM_STATUS_SCRUB_DONE die stack = 1) ∧
        (scrubbed + 1 ≠ stackBytes / 8 → t.rd .I_HBM_SCRUBBED die stack = (scrubbed + 1) % 2 ^ Fld.I_HBM_SCRUBBED.info.width ∧
          t.rd .HBM_STATUS_SCRUB_DONE die stack = s.rd .HBM_STATUS_SCRUB_DONE die stack)) ∧
      (a ∉ s.aux.badWords → Runs (.hbmScrub die stack off .corrected) s fun t =>
        t.rd .HBM_CE die stack = (s.rd .HBM_CE die stack + 1) % 2 ^ Fld.HBM_CE.info.width ∧ a ∉ t.aux.weakWords) ∧
      (a ∉ s.aux.weakWords → Runs (.hbmScrub die stack off .uncorrectable) s fun t =>
        t.rd .HBM_UE die stack = (s.rd .HBM_UE die stack + 1) % 2 ^ Fld.HBM_UE.info.width ∧
        t.rd .HBM_UE_ADDR die stack = w % 2 ^ Fld.HBM_UE_ADDR.info.width ∧ a ∈ t.aux.badWords ∧
        s.Recorded t die .hbmUe 4 5 stack 0xFF w)) ∧
    (s.hbmReady die stack = false → ∀ check, exec (.hbmScrub die stack off check) s = .next s) ∧
    (cs.sum < 65536 → Runs (.hbmImbWindowEnd die stack) s fun t => fresh t ∧ s.FieldsBut t [.I_HBM_CNT] ∧ t.aux = s.aux) ∧
    (65536 ≤ cs.sum → share ≤ s.rd .HBM_IMB_LIMIT die stack → Runs (.hbmImbWindowEnd die stack) s fun t =>
      fresh t ∧ shown t ∧ t.rd .HBM_STATUS_IMBALANCE die stack = 0 ∧ t.rd .I_HBM_OVER die stack = 0) ∧
    (65536 ≤ cs.sum → s.rd .HBM_IMB_LIMIT die stack < share → Runs (.hbmImbWindowEnd die stack) s fun t =>
      fresh t ∧ shown t ∧ t.rd .I_HBM_OVER die stack = excess ∧ t.rd .HBM_STATUS_IMBALANCE die stack =
        if need ≠ 0 ∧ need ≤ excess then 1 else s.rd .HBM_STATUS_IMBALANCE die stack)

/-- A block that a port sends: its kind, and the last sequence number that the port has accepted (12 R551). -/
def SendsBlock (o : Output) (die port kind last : Nat) : Prop :=
  ∃ bs, o = .block die port bs ∧ bs.length = 256 ∧ byteAt bs 4 = kind ∧ leAt bs 2 2 = last ∧ leAt bs 252 4 = crc32c (bs.take 252)

/-- A data block that a port sends: its sequence number and its flits, filled up with zeros (12 R551, R552). -/
def SendsData (o : Output) (die port seq : Nat) (flits : List Byte) : Prop :=
  ∃ bs, o = .block die port bs ∧ bs.length = 256 ∧ byteAt bs 4 = 0 ∧ leAt bs 0 2 = seq % 2 ^ 16 ∧
    (bs.drop 12).take 240 = (flits ++ List.replicate 240 0).take 240 ∧ leAt bs 252 4 = crc32c (bs.take 252)

/-- A port has sent every block of its replay buffer, in order, after older outputs (12 R555, R556). -/
def Sys2Proof.Machine.State.SendsAgain (t : State) (die port : Nat) (older : List Output) : Prop :=
  ∃ os, t.aux.outputs = os.reverse ++ older ∧
    List.Forall₂ (fun o (b : Nat × List Byte) => SendsData o die port b.1 b.2) os (t.linkPort die port).replay

/-- An Ignov port accepts the data block that is next in sequence and acknowledges it, and its transactions go to the die's mesh; it
discards one whose check fails, with an erroneous header flit or out of sequence, and asks for it again. A block that acknowledges
frees the replay buffer and gives credit. A NAK counts a replay, and every block after the one named is sent again. A port whose oldest
block has been sent again 8 times trains. After a training it runs with its good lanes, or with half of them, and sends again, or goes
down with a record; 100 µs later what it held is given up and traffic takes another way, or a die without one has failed. -/
def Obligations.DieLinksCarryBlocks : Prop :=
  ∀ (s : State) (die port : Nat), s.Sound → s.portUsed die port = true →
    let st := s.rd .IGN_STATUS_STATE die port
    let last := s.rd .I_IGN_RX_SEQ die port
    let counts := fun (f : Fld) (t : State) => t.rd f die port = (s.rd f die port + 1) % 2 ^ f.info.width
    let said := fun ack : Nat =>
      let k := fun n => (n + 2 ^ 16 - s.rd .I_IGN_ACKED die port) % 2 ^ 16
      if k ack ≤ k (s.rd .I_IGN_TX_SEQ die port) then k ack else 0
    (∀ b : List Byte, 2 ≤ st →
      let good := b.length = 256 ∧ leAt b 252 4 = crc32c (b.take 252) ∧ byteAt b 4 < 4
      let seq := leAt b 0 2
      let flits := s.received die port b
      let credit := (s.linkPort die port).credit
      let freed := fun t : State => (t.linkPort die port).credit = (credit.1 + bits (leAt b 5 3) 0 12, credit.2 + bits (leAt b 5 3) 12 12)
      let only := fun t : State => s.SameBytes t ∧ t.aux = { s.aux with outputs := t.aux.outputs, links := t.aux.links }
      (∀ ts rest, good → byteAt b 4 = 0 → seq = (last + 1) % 2 ^ 16 → flits = some (ts, rest) →
        Runs (.ignovBlockReceive die port b) s fun t =>
          t.rd .I_IGN_RX_SEQ die port = seq ∧ t.rd .I_IGN_SKIP die port = 0 ∧ counts .IGN_BLOCKS_RX t ∧ only t ∧ freed t ∧
          (t.linkPort die port).rest = rest ∧ (t.linkPort die port).replay = (s.linkPort die port).replay.drop (said (leAt b 2 2)) ∧
          ∃ o, t.aux.outputs = o :: ((ts.map fun x => .linkTxn die port x).reverse ++ s.aux.outputs) ∧ SendsBlock o die port 1 seq) ∧
      (good → byteAt b 4 = 1 → seq = last → Runs (.ignovBlockReceive die port b) s fun t =>
        only t ∧ freed t ∧ t.aux.outputs = s.aux.outputs ∧
        (t.linkPort die port).replay = (s.linkPort die port).replay.drop (said (leAt b 2 2)) ∧
        s.RegsBut t [(.I_IGN_ACKED, die, port), (.I_IGN_RESENT, die, port)]) ∧
      (good → byteAt b 4 = 0 → seq ≠ (last + 1) % 2 ^ 16 → Runs (.ignovBlockReceive die port b) s fun t =>
        t.rd .I_IGN_SKIP die port = 1 ∧ s.RegsBut t [(.I_IGN_SKIP, die, port)] ∧ s.SameBytes t ∧
        (s.rd .I_IGN_SKIP die port = 0 → ∃ o, t.aux.outputs = o :: s.aux.outputs ∧ SendsBlock o die port 2 last) ∧
        (s.rd .I_IGN_SKIP die port = 1 → t.aux = s.aux)) ∧
      (¬ good ∨ byteAt b 4 = 0 ∧ seq = (last + 1) % 2 ^ 16 ∧ flits = none → Runs (.ignovBlockReceive die port b) s fun t =>
        counts .IGN_CRC_ERR t ∧ s.RegsBut t [(.IGN_CRC_ERR, die, port), (.I_IGN_SKIP, die, port)] ∧ s.SameBytes t ∧
        ∃ o, t.aux.outputs = o :: s.aux.outputs ∧ SendsBlock o die port 2 last)) ∧
    (st < 2 → ∀ b n, exec (.ignovBlockReceive die port b) s = .next s ∧ exec (.ignovNak die port n) s = .next s ∧
      exec (.ignovRetrain die port) s = .next s) ∧
    (∀ n, 2 ≤ st → Runs (.ignovNak die port n) s fun t => counts .IGN_REPLAYS t ∧ s.SameBytes t ∧
      t.aux = { s.aux with outputs := t.aux.outputs, links := t.aux.links } ∧
      (t.linkPort die port).replay = (s.linkPort die port).replay.drop (said (n % 2 ^ 16)) ∧ t.SendsAgain die port s.aux.outputs ∧
      s.RegsBut t [(.IGN_REPLAYS, die, port), (.I_IGN_ACKED, die, port), (.I_IGN_RESENT, die, port)]) ∧
    (2 ≤ st → s.rd .I_IGN_RESENT die port < 8 → exec (.ignovRetrain die port) s = .next s) ∧
    (2 ≤ st → 8 ≤ s.rd .I_IGN_RESENT die port → Runs (.ignovRetrain die port) s fun t =>
      t.rd .IGN_STATUS_STATE die port = 1 ∧ counts .IGN_RETRAINS t ∧ t.rd .I_IGN_RESENT die port = 0 ∧ s.SameBytes t ∧
      ∃ o, t.aux.outputs = o :: s.aux.outputs ∧ SendsBlock o die port 3 last) ∧
    (∀ tx rx, st = 1 → tx < 2 ^ 34 → rx < 2 ^ 34 →
      (countOnes 34 tx ≤ 2 → countOnes 34 rx ≤ 2 → Runs (.ignovTrainingEnd die port tx rx) s fun t =>
        t.rd .IGN_STATUS_STATE die port = 2 ∧ t.rd .IGN_LANES_TX die port = (allLanes - tx) % 2 ^ Fld.IGN_LANES_TX.info.width ∧
        t.rd .IGN_LANES_RX die port = (allLanes - rx) % 2 ^ Fld.IGN_LANES_RX.info.width ∧ ∃ older, t.SendsAgain die port older) ∧
      (2 < countOnes 34 tx ∨ 2 < countOnes 34 rx → lanesAfter tx 0 ≠ none → lanesAfter rx 0 ≠ none →
        Runs (.ignovTrainingEnd die port tx rx) s fun t => t.rd .IGN_STATUS_STATE die port = 3 ∧
          (∃ n, lanesAfter tx n = some (t.rd .IGN_LANES_TX die port)) ∧ (∃ n, lanesAfter rx n = some (t.rd .IGN_LANES_RX die port)) ∧
          ∃ older, t.SendsAgain die port older) ∧
      (lanesAfter tx 0 = none ∨ lanesAfter rx 0 = none → Runs (.ignovTrainingEnd die port tx rx) s fun t =>
        t.rd .IGN_STATUS_STATE die port = 0 ∧ t.rd .I_IGN_DOWN_TICK die port = (s.ticks + 1) % 2 ^ Fld.I_IGN_DOWN_TICK.info.width ∧
        t.rd .FLT_COUNT 0 (FaultClass.ignDown.code - 1) =
          min (s.rd .FLT_COUNT 0 (FaultClass.ignDown.code - 1) + 1) (2 ^ Fld.FLT_COUNT.info.width - 1))) ∧
    (let down := s.rd .I_IGN_DOWN_TICK die port
     (down = 0 ∨ s.ticks < down - 1 + 50000 → exec (.ignovLinkDownTimeout die port) s = .next s) ∧
     (∀ d q, down ≠ 0 → down - 1 + 50000 ≤ s.ticks → ignPeer s.dies die port = some (d, q) →
       Runs (.ignovLinkDownTimeout die port) s fun t => t.rd .I_IGN_DOWN_TICK die port = 0 ∧
        (t.linkPort die port).replay = [] ∧ (t.linkPort die port).open_ = [] ∧ (t.linkPort die port).rest = [] ∧
        t.rd .I_IGN_ACKED die port = s.rd .I_IGN_TX_SEQ die port ∧
        ((t.route die d 0).isSome = true → s.RegsBut t [(.I_IGN_DOWN_TICK, die, port), (.I_IGN_ACKED, die, port)] ∧ s.SameBytes t ∧
          t.aux = { s.aux with links := t.aux.links }) ∧
        (t.route die d 0 = none → bit (t.rd .FLT_DIE_FAILED 0) die = true ∨ bit (t.rd .FLT_DIE_FAILED 0) d = true)))

/-! ### The islands (15_safety.md) -/

/-- The islands: a zone's network verdict is taken from its own safety partition alone. A safety frame goes out when its heartbeat time
has passed. A proof's list starts in context 0 once that is free, is withdrawn when its slack has passed, and passes when the output
has the golden CRC, while a failure fences the engine. The alive pins toggle while the package lives. A missing heartbeat brings every
safety partition into the safe state and restarts the package; a request brings the partitions it names there, and a release lets out
those that run and whose guard zones have all been evaluated afresh. -/
def Obligations.IslandsWatchAndProve : Prop :=
  ∀ (s : State) (die core : Nat), s.Sound → s.dieThere die = true → core < 32 →
    (∀ who zone value,
      (s.tagOf who = some (s.ac .ZN_PARTITION die zone, true) → Runs (.znNetWrite who die zone value) s fun t =>
        t.rd .ZN_NET_FSEQ die zone = bits value 0 16 ∧ t.rd .ZN_NET_OCCUPIED die zone = bits value 16 1 ∧
        s.OnlyRegs t [(.ZN_NET_FSEQ, die, zone), (.ZN_NET_OCCUPIED, die, zone)]) ∧
      (s.tagOf who ≠ some (s.ac .ZN_PARTITION die zone, true) → Runs (.znNetWrite who die zone value) s fun t =>
        t.rd .ULS_NET_BAD die = (s.rd .ULS_NET_BAD die + 1) % 2 ^ Fld.ULS_NET_BAD.info.width ∧ s.OnlyRegs t [(.ULS_NET_BAD, die, 0)])) ∧
    (∀ p, p < 8 → s.rd .I_ULS_WAIT die (176 + p) = 0 →
      let ms := s.ac .SF_HEARTBEAT_MS die p
      let due := s.islandsRun = true ∧ s.acOn .SF_EN die p = true ∧ ms ≠ 0 ∧ s.rd .SEC_STATE 0 ≠ 3 ∧ s.rd .I_SF_TICK die p + ms * 500000 ≤ s.ticks
      let seq := s.rd .SF_SEQ die p
      let port := s.ac .SF_PORT die p
      let peer := s.addr4 .SF_PEER_ADDR die p
      let v6 := s.acOn .SF_IPV6 die p
      (¬ due → exec (.safetyHeartbeatFrame die p) s = .next s) ∧
      (due → Runs (.safetyHeartbeatFrame die p) s fun t =>
        t.rd .SF_SEQ die p = (seq + 1) % 2 ^ Fld.SF_SEQ.info.width ∧ t.rd .I_SF_TICK die p = s.ticks % 2 ^ Fld.I_SF_TICK.info.width ∧
        t.rd .I_SF_EVAL die p = 0 ∧ s.SameBytes t ∧
        (s.canSend die port v6 peer = false → t.aux = s.aux) ∧
        (s.canSend die port v6 peer = true → ∃ f vlan, f.length = 64 ∧ leAt f 0 2 = 0x5358 ∧ byteAt f 3 = s.frameState p ∧
          leAt f 4 4 = s.ac .SF_CONN_ID die p ∧ leAt f 8 8 = seq ∧
          leAt f 60 4 = crc32cFrom (s.ac .SF_CRC_SEED die p) (f.take 60) ∧
          t.aux.outputs = .datagram die port v6 vlan peer (s.ac .SF_UDP_LOCAL die p) (s.ac .SF_UDP_PEER die p) f
            (s.udpFrame die port v6 vlan peer (s.ac .SF_UDP_LOCAL die p) (s.ac .SF_UDP_PEER die p) f) :: s.aux.outputs))) ∧
    (∀ q, s.proofOf die core (fun q => q.state == 0) = some q → s.ctxFree die core 0 = true →
      (∀ r ∈ s.aux.proofs, r.die = die → r.core = core → r.state = 0) → Runs (.proofListStart die core) s fun t =>
        let i := ctxIdx core 0
        let list := s.ac .PG_LIST die q.group
        t.ctxState die core 0 = 1 ∧ t.rd .CTX_PC die i = list % 2 ^ Fld.CTX_PC.info.width ∧ t.rd .CTX_SAFETY die i = 1 ∧
        t.rd .CTX_PART die i = s.ac .PG_PARTITION die q.group % 2 ^ Fld.CTX_PART.info.width ∧
        t.counter die core 0 1 = engineMask q.engines % 2 ^ 32 ∧ t.ctx die core 0 = { owner := .proof } ∧
        { q with state := 1 } ∈ t.aux.proofs ∧ s.SameBytes t) ∧
    (s.proofOf die core (fun q => q.state == 0) = none →
      exec (.proofListStart die core) s = .next s ∧ exec (.proofSlackExpiry die core) s = .next s) ∧
    (∀ q, s.proofOf die core (fun q => q.state == 0 &&
        decide (q.tick + s.ac .PG_SLACK_US die q.group * ticksPerUs ≤ s.ticks)) = some q →
      q.engines.Nodup → (∀ e ∈ q.engines, e < 4) → Runs (.proofSlackExpiry die core) s fun t =>
        t.aux.proofs = s.aux.proofs.filter (fun p => p != q) ∧ s.SameBytes t ∧ ∀ e ∈ q.engines,
          let n := dieEngine core e
          t.rd .I_PRF_REQ die n = 0 ∧
          t.rd .PRF_MISSED die n = min (s.rd .PRF_MISSED die n + 1) (2 ^ Fld.PRF_MISSED.info.width - 1)) ∧
    (∀ q e, s.proofOf die core (fun q => decide (2 ≤ q.state)) = some q → q.engines = [e] → e < 4 → q.model = 0 → q.core = core →
      s.suspectStore die core = false →
      let n := dieEngine core e
      let len := s.ac .PG_ROWS die q.group * 256
      let golden := crc32c (s.bytes (storeAddr die core (s.ac .PG_OUT die q.group + e * len)) len) = s.ac .PG_GOLDEN die q.group
      (q.state ≠ 3 → golden → Runs (.proofResult die core) s fun t =>
        t.rd .PRF_STATE die n = 1 ∧ t.rd .PRF_LAST die n = s.now die % 2 ^ 64 ∧ t.rd .I_PRF_REQ die n = 0 ∧
        t.rd .PRF_PASSES die n = min (s.rd .PRF_PASSES die n + 1) (2 ^ Fld.PRF_PASSES.info.width - 1) ∧
        t.aux.proofs = s.aux.proofs.filter (fun p => p != q) ∧ s.SameBytes t ∧
        s.RegsBut t [(.PRF_STATE, die, n), (.PRF_LAST, die, n), (.I_PRF_REQ, die, n), (.PRF_PASSES, die, n), (.I_PRF_SINCE, die, n)]) ∧
      (q.state = 3 ∨ ¬ golden → Runs (.proofResult die core) s fun t =>
        t.fencedEngine die core e = true ∧ t.rd .PRF_STATE die n = 3 ∧ t.rd .ENG_STATUS_STATE die (ctxIdx core e) = 5)) ∧
    (s.alive = true → Runs .aliveToggle s fun t =>
      t.rd .I_ALIVE_A 0 = 1 - s.rd .I_ALIVE_A 0 ∧ t.rd .I_ALIVE_B 0 = s.rd .I_ALIVE_A 0 ∧
      s.OnlyRegs t [(.I_ALIVE_A, 0, 0), (.I_ALIVE_B, 0, 0)]) ∧
    (s.alive = false → Runs .aliveToggle s fun t => t.rd .I_ALIVE_A 0 = 0 ∧ t.rd .I_ALIVE_B 0 = 0 ∧
      s.OnlyRegs t [(.I_ALIVE_A, 0, 0), (.I_ALIVE_B, 0, 0)]) ∧
    (Runs (.islandHeartbeat die) s fun t => t.rd .I_HEARTBEAT die = s.ticks % 2 ^ 64 ∧ s.OnlyRegs t [(.I_HEARTBEAT, die, 0)]) ∧
    (Runs (.keeperBeat die) s fun t => t.rd .I_KEEPER_BEAT die = s.ticks % 2 ^ 64 ∧ s.OnlyRegs t [(.I_KEEPER_BEAT, die, 0)]) ∧
    (s.on .I_IMAGE_RUNS 0 = true → s.beatMissing die = true → Runs (.heartbeatMissing die) s fun t =>
      (∀ p < 8, s.safetyPart p = true → t.inSafe p = true) ∧
      (s.on .I_RESTART_COLD 0 = false → t.rd .I_RESTART_WARM 0 = 1 ∧
        (s.on .I_RESTART_WARM 0 = false → ∀ p < 8, s.rd .PT_STATE 0 p ≠ 0 → t.rd .PT_STATE 0 p = 3)) ∧ s.SameBytes t) ∧
    (s.on .I_IMAGE_RUNS 0 = false ∨ s.beatMissing die = false → exec (.heartbeatMissing die) s = .next s) ∧
    (∀ mask, mask < 256 →
      (mask ≠ 0 → Runs (.ulsSafeReq die mask) s fun t =>
        t.rd .I_SAFE_REQ 0 = s.rd .I_SAFE_REQ 0 ||| mask ∧ t.rd .I_SAFE 0 = s.rd .I_SAFE 0 ||| mask ∧ s.SameBytes t ∧
        ∀ p < 8, bit mask p = true → t.rd .I_SF_CAUSE 0 p = causeRequest ∧
          ∀ d z, s.dieThere d = true → z < 64 → s.zoneValid d z = true → s.ac .ZN_PARTITION d z = p →
            t.rd .ZN_STATUS_CLEAR d z = 0 ∧ bit (t.rd .ZN_STATUS_CAUSE d z) (zoneCause 15) = true) ∧
      Runs (.ulsSafeRel die mask) s fun t =>
        t.rd .I_SAFE_REQ 0 = s.rd .I_SAFE_REQ 0 - (s.rd .I_SAFE_REQ 0 &&& mask) ∧
        (∀ p < 8, (t.inSafe p = false ↔ s.inSafe p = false ∨ bit mask p = true ∧ s.running p = true ∧
          ∀ d, s.dieThere d = true → ∀ z ∈ s.guards d p, s.on .I_ZN_FRESH d z = true)) ∧
        s.OnlyRegs t [(.I_SAFE, 0, 0), (.I_SAFE_REQ, 0, 0), (.I_SAFE_EXITED, 0, 0)])

/-! ### Faults and restarts (16 R688 to R697, 15 R681, 18 R763, R770, R771, R778) -/

/-- What a cold reset leaves: the device is held, no memory holds anything, the configuration store is as it was, every register is at
its reset value but for the fuses, what the fault log restores and the level of a pin, and the queues are empty. -/
def Sys2Proof.Machine.State.ColdHeld (s t : State) : Prop :=
  t.rd .I_HELD_COLD 0 = 1 ∧ (∀ a, t.byte a = 0 ∧ t.cfgByte a = s.cfgByte a) ∧ 
  t.aux = { outputs := s.aux.outputs, lifts := s.aux.lifts, rowTests := s.aux.rowTests, repairs := s.aux.repairs } ∧
  (∀ f d i, f.keptCold = false → f ∉ [Fld.CORE_STATUS_FENCED, .ENG_STATUS_STATE] → t.rd f d i = State.reset.rd f d i) ∧
  ∀ f d i, f.keptCold = true → f ≠ .I_HELD_COLD → t.rd f d i = s.rd f d i

/-- A failed core or cluster is fenced with a record, and the partitions that held it restart; a failed stack fails its die; a failed
die is recorded, and brings its safety partitions into the safe state and restarts the package, or without one restarts the partitions
that use it. A requested restart of a partition or of
the package ends with the partition running under a stored epoch that an EPOCH record announces, or down without a variant. A restart
that takes too long escalates. A cold reset holds the device with nothing left in any memory; the cold start that follows answers
from recovery without a directory, and erases a decommissioned part. A thermal trip stops the package. -/
def Obligations.FaultsAndRestarts : Prop :=
  ∀ (s : State) (die : Nat), s.Sound → s.dieThere die = true →
    let calm := s.on .I_RESTART_COLD 0 = false ∧ s.on .I_RESTART_WARM 0 = false
    let restarts := fun (t : State) (ps : List Nat) => ∀ p ∈ ps, p < 8 → calm → s.on .I_RESTART_PART 0 p = false →
      s.rd .PT_STATE 0 p ≠ 0 → t.rd .I_RESTART_PART 0 p = 1 ∧ t.rd .PT_STATE 0 p = 3
    let warm := fun t : State => s.on .I_RESTART_COLD 0 = false → t.rd .I_RESTART_WARM 0 = 1
    let fenced := fun (t : State) (core : Nat) => t.fencedCore die core = true ∧ t.rd .CORE_STATUS_FENCED die core = 1 ∧
      ∀ w < 16, t.rd .WK_VALID die (wkIdx core w) = 0
    let started := fun (t : State) (p : Nat) =>
      t.rd .PT_STATE 0 p = 4 ∧ t.rd .I_PT_VARIANT 0 p = 0 ∨ t.rd .PT_STATE 0 p = 2 ∧
        leNat (t.cfgBytes (stateBase + 4 * p) 4) = t.rd .PT_EPOCH 0 p ∧
        ∃ r ∈ t.aux.recs, r.part = p ∧ r.kind = recEpoch ∧ r.epoch = t.rd .PT_EPOCH 0 p
    let safe := fun t : State => ∀ p < 8, s.safetyPart p = true → t.inSafe p = true
    let onDie := fun p => p < 8 ∧ s.safetyPart p = true ∧ ∃ l < 32, s.on .HG_VALID die l = true ∧ s.rd .HG_PART die l = p
    let failed := fun t : State => ((∃ p, onDie p) → warm t ∧ ∀ p, onDie p → t.inSafe p = true) ∧
      ((∀ p, ¬ onDie p) → t.rd .I_RESTART_WARM 0 = s.rd .I_RESTART_WARM 0 ∧
        restarts t ((List.range 8).filter fun p => (s.variantOf p).any fun v => v.dies.any fun d => d.die == die))
    let memory := fun t : State => ∀ a, t.byte a = s.byte a
    (∀ core < 32, Runs (.coreFail die core) s fun t => fenced t core ∧ memory t ∧ restarts t (s.partsOnCore die core) ∧
      ∃ detail, s.Recorded t die .coreFail 1 2 core ((s.partOfCore die core).getD 0xFF) detail) ∧
    (∀ k < 8, Runs (.clusterFail die k) s fun t => memory t ∧
      (∀ j < 4, fenced t (4 * k + j) ∧ restarts t (s.partsOnCore die (4 * k + j))) ∧
      ∃ part detail, s.Recorded t die .clusterFail 2 3 k part detail) ∧
    (∀ k < 2, Runs (.hbmStack die k) s fun t => t.rd .HBM_STATUS_STATE die k = 3 ∧ bit (t.rd .FLT_DIE_FAILED 0) die = true ∧
      t.rd .FLT_SEQ 0 = (s.rd .FLT_SEQ 0 + 2) % 2 ^ Fld.FLT_SEQ.info.width ∧ failed t ∧ memory t) ∧
    (Runs (.dieFail die) s fun t => bit (t.rd .FLT_DIE_FAILED 0) die = true ∧ failed t ∧ memory t ∧
      ∃ detail, s.Recorded t die .dieFail 4 10 die 0xFF detail) ∧
    (∀ p failing, p < 8 →
      (s.on .I_RESTART_PART 0 p = false ∨ s.aux.image = none → exec (.partitionRestart p failing) s = .next s) ∧
      (s.on .I_RESTART_PART 0 p = true → s.aux.image.isSome = true → Runs (.partitionRestart p failing) s fun t =>
        t.on .I_RESTART_COLD 0 = false → t.rd .I_RESTART_PART 0 p = 0 ∧ started t p)) ∧
    (∀ failing,
      (s.on .I_RESTART_WARM 0 = false ∨ s.aux.image = none → exec (.packageWarmRestart failing) s = .next s) ∧
      (∀ i, s.on .I_RESTART_WARM 0 = true → s.aux.image = some i → Runs (.packageWarmRestart failing) s fun t =>
        t.on .I_RESTART_COLD 0 = false → t.rd .PKG_STATE 0 = 0 ∧ t.rd .I_RESTART_WARM 0 = 0 ∧
          (∀ p < 8, t.rd .I_RESTART_PART 0 p = 0) ∧ ∀ p ∈ i.parts, started t p)) ∧
    (∀ p < 8,
      let due := s.on .I_RESTART_PART 0 p = true ∧ s.running p = false ∧ s.rd .I_RESTART_PART_AT 0 p + 150000000 ≤ s.ticks
      (due → Runs (.partitionRestartTimeout p) s fun t => safe t ∧ warm t ∧ s.SameBytes t) ∧
      (¬ due → exec (.partitionRestartTimeout p) s = .next s)) ∧
    (let due := s.on .I_RESTART_WARM 0 = true ∧ s.rd .I_RESTART_WARM_AT 0 + 450000000 ≤ s.ticks
     (due → Runs .warmRestartTimeout s fun t =>
       safe t ∧ t.rd .I_RESTART_COLD 0 = 1 ∧ t.rd .I_RESTART_WARM 0 = 0 ∧ s.SameBytes t) ∧
     (¬ due → exec .warmRestartTimeout s = .next s)) ∧
    (∀ ns, (ns < 50 → exec (.coldRstNAssert ns) s = .next s) ∧ (10000 ≤ ns → Runs (.coldRstNAssert ns) s s.ColdHeld) ∧
      Runs (.coldRstNAssert ns) s (fun t => s.ColdHeld t ∨ (∀ l f d i, t.reg l f d i = s.reg l f d i) ∧ s.SameBytes t ∧ t.aux = s.aux) ∧
      (ns < 1000 → exec (.supplyOutOfWindow ns) s = .next s) ∧ (1000 ≤ ns → Runs (.supplyOutOfWindow ns) s s.ColdHeld)) ∧
    (s.on .I_RESTART_COLD 0 = false ∨ s.on .I_TRIPPED 0 = true → exec .coldStart s = .next s) ∧
    (s.on .I_RESTART_COLD 0 = true → s.on .I_TRIPPED 0 = false → s.aux.rowTests = [] →
      let empty := fun t : State => (∀ a, t.byte a = 0) ∧ t.rd .I_HELD_COLD 0 = 0 ∧ t.rd .I_RESTART_COLD 0 = 0 ∧
        t.aux = { outputs := s.aux.outputs, repairs := s.aux.repairs } ∧ ∀ p < 8, t.rd .PT_STATE 0 p = 0
      (s.decommissioned = true → Runs .coldStart s fun t => empty t ∧ t.rd .SEC_STATE 0 = 3 ∧
        ∀ a, t.cfgByte a = if a < stateBase ∨ slotsBase ≤ a then 0 else s.cfgByte a) ∧
      (s.decommissioned = false → (∀ a < 0x2000, s.cfgByte a = 0) → Runs .coldStart s fun t =>
        empty t ∧ t.rd .SEC_STATE 0 = 2 ∧ ∀ a, t.cfgByte a = s.cfgByte a)) ∧
    (∀ sensor, Runs (.thermalTrip die sensor) s fun t => t.rd .I_TRIPPED 0 = 1 ∧ t.rd .I_THERM_TRIP_N 0 = 0 ∧
      t.rd .I_ALIVE_A 0 = 0 ∧ t.rd .I_ALIVE_B 0 = 0 ∧ s.SameBytes t ∧ t.aux = s.aux ∧
      s.FieldsBut t [.I_TRIPPED, .I_THERM_TRIP_N, .I_ALIVE_A, .I_ALIVE_B, .FLT_LAST])

/-! ### Power, temperature and package states (18_power_reset_and_thermal.md, 14 R632) -/

/-- A temperature sample shows each sensor and sets the thermal gate from the hottest reading; the power gate rises while the estimate
is above the limit and falls while it is below 95 % of it; a window's gate is the largest of the three, and every running engine
counts the steps that it gates. A request for STANDBY or SLEEP is refused with its first cause, or stops all work; a request for RUN,
the wake instant and the end of PERST# wake a stopped package with a warm restart. PERST# and D3 take the host's function down. -/
def Obligations.PowerAndPackageStates : Prop :=
  ∀ (s : State) (die : Nat), s.Sound → s.dieThere die = true →
    let st := s.rd .PKG_STATE 0
    let stopped := st = 1 ∨ st = 2
    let woken := fun (cause : Nat) (t : State) => t.rd .PKG_STATE 0 = 3 ∧ t.rd .PKG_WAKE_CAUSE 0 = cause ∧
      (s.on .I_RESTART_COLD 0 = false → t.rd .I_RESTART_WARM 0 = 1) ∧ s.SameBytes t
    let idle := fun t : State => (∀ p < 8, t.rd .PT_STATE 0 p = 0) ∧ t.aux.packets = [] ∧ t.aux.poses = [] ∧
      ∀ d, s.dieThere d = true → (∀ k < 2, t.hbmReady d k = false) ∧ ∀ core < 32, ∀ c < 4, t.ctxState d core c = 0
    (exec (.temperatureSample die []) s = .next s) ∧
    (∀ rs hot, (rs.take 16).max? = some hot → Runs (.temperatureSample die rs) s fun t =>
      let below := hot < s.thWarn die
      let hottest := s.thCrit die ≤ hot
      (∀ k r, (rs.take 16)[k]? = some r → t.rd .TH_SENSOR die k = encode 12 r) ∧ t.rd .I_TH_HOT die = encode 12 hot ∧
      (below → t.rd .LV_THERMAL die = 0) ∧ (hottest → t.rd .LV_THERMAL die = 63) ∧
      (¬ below → ¬ hottest →
        t.rd .LV_THERMAL die = (63 * (hot - s.thWarn die) / (s.thCrit die - s.thWarn die)).toNat) ∧
      t.rd .TH_MAX die = (if s.on .I_TH_SAMPLED die = false ∨ signed 12 (s.rd .TH_MAX die) < hot then encode 12 hot
        else s.rd .TH_MAX die) ∧ s.SameBytes t) ∧
    (∀ activity, Runs (.powerGateUpdate die activity) s fun t =>
      let est := Config.powerCalibration die activity % 2 ^ 16
      let limit := 4 * s.rd .PWR_LIMIT die
      let gate := s.rd .LV_POWER die
      t.rd .PWR_EST die = est ∧ (limit < est → t.rd .LV_POWER die = min (gate + 4) 63) ∧
      (est * 100 < limit * 95 → t.rd .LV_POWER die = gate - 1) ∧
      (est ≤ limit → limit * 95 ≤ est * 100 → t.rd .LV_POWER die = gate) ∧ s.SameBytes t) ∧
    (Runs (.louvreWindowStart die) s fun t =>
      let g := max (s.rd .LV_FLOOR die) (max (s.rd .LV_POWER die) (s.rd .LV_THERMAL die))
      t.rd .LV_GATE die = g ∧ s.FieldsBut t [.LV_GATE, .ENG_LOUVRE_GATED] ∧ s.SameBytes t ∧ t.aux = s.aux ∧
      ∀ core < 32, ∀ e < 4, t.rd .ENG_LOUVRE_GATED die (ctxIdx core e) =
        (s.rd .ENG_LOUVRE_GATED die (ctxIdx core e) +
          if s.enabled die core e = true ∧ bit (s.rd .PWR_DOM_ON die) (10 + core / 4) = true then g else 0) %
            2 ^ Fld.ENG_LOUVRE_GATED.info.width) ∧
    (∀ v c, v ∈ [(1, Instr.pkgReqStandby), (2, .pkgReqSleep)] → st ≠ v.1 → s.pkgRefusal v.1 = some c → Runs v.2 s fun t =>
      t.rd .PKG_REQ_ERR 0 = c ∧ s.OnlyRegs t [(.PKG_REQ_ERR, 0, 0)]) ∧
    (st = 1 → exec .pkgReqStandby s = .next s) ∧ (st = 2 → exec .pkgReqSleep s = .next s) ∧
    (st ≠ 1 → s.pkgRefusal 1 = none → Runs .pkgReqStandby s fun t => t.rd .PKG_STATE 0 = 1 ∧ idle t) ∧
    (st ≠ 2 → s.pkgRefusal 2 = none → Runs .pkgReqSleep s fun t => t.rd .PKG_STATE 0 = 2 ∧ idle t ∧
      t.rd .PCIE_STATUS_LINK 0 = 0 ∧ t.rd .I_ALIVE_A 0 = 0 ∧ t.rd .I_ALIVE_B 0 = 0 ∧
      ∀ d, s.dieThere d = true → t.rd .PWR_DOM_ON d = 1 ∧ ∀ p < 2, t.rd .ETH_STATUS_LINK d p = 0) ∧
    (stopped → Runs .pkgReqRun s (woken 1)) ∧ (¬ stopped → exec .pkgReqRun s = .next s) ∧
    (let due := s.rd .PKG_WAKE_AT 0 ≠ 0 ∧ s.rd .PKG_WAKE_AT 0 ≤ s.now 0
     (stopped → due → Runs .pkgWakeAt s (woken 4)) ∧ (¬ stopped ∨ ¬ due → exec .pkgWakeAt s = .next s)) ∧
    (s.rd .I_PERST 0 = 0 → exec .perstDeassert s = .next s) ∧
    (s.rd .I_PERST 0 = 1 → Runs .perstDeassert s fun t => t.rd .I_PERST 0 = 0 ∧ (stopped → woken 3 t) ∧ s.SameBytes t ∧
      (st ≠ 2 → bit (t.rd .PWR_DOM_ON 0) 9 = true) ∧ (s.rd .I_WAKE 0 = 1 → t.rd .I_PME_STATUS 0 = 1) ∧
      (¬ stopped → s.OnlyRegs t [(.I_PERST, 0, 0), (.PWR_DOM_ON, 0, 0), (.I_WAKE, 0, 0), (.I_PME_STATUS, 0, 0)])) ∧
    (Runs .perstAssert s fun t => t.rd .I_PERST 0 = 1 ∧ bit (t.rd .PWR_DOM_ON 0) 9 = false ∧ t.rd .PCIE_STATUS_LINK 0 = 0 ∧
      t.rd .PCIE_STATUS_DSTATE 0 = 3 ∧ s.OnlyRegs t [(.I_PERST, 0, 0), (.PWR_DOM_ON, 0, 0), (.PCIE_STATUS_LINK, 0, 0),
        (.PCIE_STATUS_WIDTH, 0, 0), (.PCIE_STATUS_GEN, 0, 0), (.PCIE_STATUS_DSTATE, 0, 0)]) ∧
    ∀ cold pme, (s.rd .PCIE_STATUS_LINK 0 = 0 → exec (.pcieD3Entry cold pme) s = .next s) ∧
      (s.rd .PCIE_STATUS_LINK 0 = 1 → Runs (.pcieD3Entry cold pme) s fun t => t.rd .I_PME_EN 0 = b2n pme ∧
        (cold = false → t.rd .PCIE_STATUS_DSTATE 0 = 2 ∧ s.OnlyRegs t [(.I_PME_EN, 0, 0), (.PCIE_STATUS_DSTATE, 0, 0)]) ∧
        (cold = true → t.rd .PCIE_STATUS_DSTATE 0 = 3 ∧ t.rd .PCIE_STATUS_LINK 0 = 0 ∧ s.SameBytes t ∧ t.aux = s.aux))

/-! ### Network ports (17 R742 to R745, 19 R793 to R795) -/

/-- A frame of a port's own traffic: from its MAC address to another, of a type (19 R788). -/
def Sys2Proof.Machine.State.OwnTraffic (s : State) (die port dst etype : Nat) (f : List Byte) : Prop :=
  60 ≤ f.length ∧ beAt f 0 6 = dst % 2 ^ 48 ∧ beAt f 6 6 = s.macOf die port % 2 ^ 48 ∧ beAt f (payloadAt f - 2) 2 = etype

/-- MACsec on a port with a CAK: the live peers are shown, the first one brings a SAK and lets frames pass, a rekey brings another SAK,
and a peer list that stays empty stops the frames. The Keeper answers the ARP requests and Neighbor Solicitations for the port's
addresses, takes answers for the next hops that its peers need, and asks for resolved ones again, losing one after three misses. -/
def Obligations.PortsAreSecuredAndResolved : Prop :=
  ∀ (s : State) (die port : Nat), s.Sound → s.dieThere die = true → port < 3 →
    let keyed := s.linkOn die port = true ∧ s.hasCak die port = true
    let sak := s.rd .I_ETH_SAK die port
    let next := (sak + 1) % 2 ^ Fld.I_ETH_SAK.info.width
    let status := [Fld.ETH_STATUS_PEERS, .ETH_STATUS_SECURE, .I_MG_PEERS, .I_MG_SECURE, .I_ETH_SAK, .I_MKA_SILENT]
    let sends := fun (t : State) (f : List Byte) => t.aux.outputs = .frame die port f :: s.aux.outputs
    let taken := fun t : State => t.aux = { s.aux with outputs := t.aux.outputs, keeperQueue := t.aux.keeperQueue } ∧ s.SameBytes t ∧
      s.FieldsBut t [.ETH_TX_FRAMES]
    (∀ peers key,
      (¬ keyed → exec (.mkaLivePeer die port peers key) s = .next s) ∧
      (keyed → Runs (.mkaLivePeer die port peers key) s fun t => t.livePeers die port = min peers 255 ∧ s.FieldsBut t status ∧
        s.SameBytes t ∧ t.aux = s.aux ∧
        (peers ≠ 0 → s.secureOn die port = false → t.secureOn die port = true ∧ t.rd .I_ETH_SAK die port = next) ∧
        (peers = 0 ∨ s.secureOn die port = true → t.secureOn die port = s.secureOn die port ∧ t.rd .I_ETH_SAK die port = sak))) ∧
    (s.secureOn die port = true → Runs (.sakRekey die port) s fun t =>
      t.rd .I_ETH_SAK die port = next ∧ s.OnlyRegs t [(.I_ETH_SAK, die, port)]) ∧
    (s.secureOn die port = false → exec (.sakRekey die port) s = .next s) ∧
    (keyed → s.livePeers die port = 0 → s.rd .I_MKA_SILENT die port = 0 → Runs (.mkaPeerTimeout die port) s fun t =>
      t.secureOn die port = false ∧ t.rd .I_MKA_SILENT die port = 1 ∧ s.SameBytes t) ∧
    (¬ keyed ∨ s.livePeers die port ≠ 0 ∨ s.rd .I_MKA_SILENT die port = 1 → exec (.mkaPeerTimeout die port) s = .next s) ∧
    (∀ (q : List Byte) (p : Port), s.portEntry die port = some p →
      let a := q.drop (payloadAt q)
      let asked := bit p.flags 2 = true ∧ s.framesPass die port = true ∧ s.macForPort die port q = true ∧ arpAsks q p.ipv4 = true
      (asked → Runs (.arpRequest die port q) s fun t => taken t ∧ ∃ f, sends t f ∧ s.OwnTraffic die port (beAt a 8 6) 0x0806 f ∧
        let b := f.drop (payloadAt f)
        beAt b 6 2 = 2 ∧ beAt b 8 6 = s.macOf die port % 2 ^ 48 ∧ beAt b 14 4 = p.ipv4 % 2 ^ 32 ∧ beAt b 18 6 = beAt a 8 6 ∧
        beAt b 24 4 = beAt a 14 4) ∧
      (¬ asked → Runs (.arpRequest die port q) s fun t => taken t ∧ t.aux.outputs = s.aux.outputs)) ∧
    (∀ q : List Byte,
      let asker := beAt (q.drop (payloadAt q)) 8 16
      (∀ x, solicited q = some x → s.answersFor die port x = true → s.framesPass die port = true → s.macForPort die port q = true →
        Runs (.neighborSolicitation die port q) s fun t => taken t ∧ ∃ f, sends t f ∧
          s.OwnTraffic die port (if asker = 0 then 0x333300000001 else beAt q 6 6) 0x86DD f ∧
          let b := f.drop (payloadAt f)
          beAt b 8 16 = x % 2 ^ 128 ∧ beAt b 24 16 = (if asker = 0 then allNodes else asker) ∧ byteAt b 40 = 136 ∧
          beAt b 48 16 = x % 2 ^ 128 ∧ beAt b 66 6 = s.macOf die port % 2 ^ 48) ∧
      (solicited q = none ∨ s.framesPass die port = false → Runs (.neighborSolicitation die port q) s fun t =>
        taken t ∧ t.aux.outputs = s.aux.outputs)) ∧
    (∀ addr mac,
      (∀ v6, s.hopVersion die port addr = some v6 → s.framesPass die port = true → s.fixedHop die port addr = false →
        Runs (.nextHopAnswer die port addr mac) s fun t => s.RegsBut t [] ∧ s.SameBytes t ∧ t.aux = { s.aux with
          hops := ⟨die, port, v6, addr, some mac, 0⟩ :: s.aux.hops.filter fun h => !h.is die port addr }) ∧
      (s.hopVersion die port addr = none ∨ s.framesPass die port = false ∨ s.fixedHop die port addr = true →
        exec (.nextHopAnswer die port addr mac) s = .next s)) ∧
    (∀ addr answered,
      (∀ h ∈ s.aux.hops, h.is die port addr = true → h.mac = none) → exec (.nextHopRefresh die port addr answered) s = .next s) ∧
    (∀ h addr, s.aux.hops.find? (fun k => k.is die port addr && k.mac.isSome) = some h → s.framesPass die port = true →
      let asks := fun t : State => s.SameBytes t ∧ ∃ f dst etype, .frame die port f ∈ t.aux.outputs ∧ s.OwnTraffic die port dst etype f ∧
        etype = if h.v6 then 0x86DD else 0x0806
      (Runs (.nextHopRefresh die port addr true) s fun t => asks t ∧ { h with misses := 0 } ∈ t.aux.hops) ∧
      Runs (.nextHopRefresh die port addr false) s fun t => asks t ∧
        { h with misses := h.misses + 1, mac := if 2 ≤ h.misses then none else h.mac } ∈ t.aux.hops)

/-! ### The transom (17 R727 to R750) -/

/-- A command of the transom as R739 lists it: the command, its code, whether the owner or itself signs it, whether an unprotected
frame may carry it, whether a decommissioned part serves it. -/
structure TransomRow where
  cmd : TransomSource → Instr
  code : Nat
  signing : Bool := false
  bootstrap : Bool := false
  decomm : Bool := false

/-- The table of R739. -/
def transomTable : List TransomRow :=
  [⟨.getInfo, 0x01, false, true, true⟩, ⟨.getCert, 0x02, false, true, true⟩, ⟨.attest, 0x03, false, true, false⟩,
   ⟨.getParts, 0x04, false, false, false⟩, ⟨.readLog, 0x05, false, false, false⟩, ⟨.claim, 0x10, true, true, false⟩,
   ⟨.provision, 0x11, true, true, false⟩, ⟨.imageBegin, 0x20, true, true, false⟩, ⟨.imageData, 0x21, false, true, false⟩,
   ⟨.imageEnd, 0x22, false, true, false⟩, ⟨.imageActivate, 0x23, true, true, false⟩, ⟨.imageConfirm, 0x24, true, false, false⟩,
   ⟨.rollbackCommit, 0x25, true, false, false⟩, ⟨.restartPart, 0x30, false, false, false⟩, ⟨.restartWarm, 0x31, false, false, false⟩,
   ⟨.restartCold, 0x32, false, false, false⟩, ⟨.resaltGrid, 0x33, false, false, false⟩, ⟨.rehashHbm, 0x34, false, false, false⟩,
   ⟨.liftFence, 0x35, true, false, false⟩, ⟨.returnPart, 0x40, true, false, false⟩, ⟨.testChallenge, 0x41, false, false, true⟩,
   ⟨.testResponse, 0x42, false, false, true⟩]

/-- A request has been answered: the host finds code, status, length and payload in TR_RSP; over the network a datagram with a Ximund
header of TYPE 0x21 and the same layout goes to the sender's address and port. -/
def Sys2Proof.Machine.State.Replied (s t : State) (src : TransomSource) (code st : Nat) (payload : List Byte) : Prop :=
  t.rd .TR_DONE 0 = (s.rd .TR_DONE 0 + 1) % 2 ^ Fld.TR_DONE.info.width ∧
  match src with
  | .net _ v6 peer remote _ _ =>
    let body := toLe 2 code ++ toLe 1 st ++ toLe 1 0 ++ toLe 4 payload.length ++ payload
    ∃ h, h.length = 32 ∧ leAt h 0 2 = 0x4D58 ∧ byteAt h 2 = 1 ∧ byteAt h 3 = 0x21 ∧ leAt h 6 2 = body.length % 65536 ∧
      t.aux.outputs.head? = some (.transomNet v6 peer remote (h ++ body))
  | .host =>
    t.rd .TR_STATE 0 = 2 ∧ t.rd .TR_RSP 0 0 = (code + st * 65536) % 2 ^ 32 ∧ t.rd .TR_RSP 0 1 = payload.length % 2 ^ 32 ∧
    ∀ j < payload.length, payload.length ≤ 4088 → bits (t.rd .TR_RSP 0 (2 + j / 4)) (8 * (j % 4)) 8 = byteAt payload j

/-- A request with this code and this payload before its signature waits, may be served, and its signature verifies (R736 to R742). -/
def Sys2Proof.Machine.State.served (s : State) (src : TransomSource) (code : Nat) (body : List Byte) : Prop :=
  ∃ r row, s.request src = some r ∧ r.whole = true ∧ r.code = code ∧ row ∈ transomTable ∧ row.code = code ∧
    (srcNet src = true → s.rd .TR_STATE 0 ≠ 1) ∧ (s.decommissioned = true → row.decomm = true) ∧
    (srcOpen src = true → row.bootstrap = true ∨ s.decommissioned = true) ∧
    (row.signing = false → r.payload = body) ∧
    (row.signing = true → ∃ sig, sig.length = 96 ∧ r.payload = body ++ sig ∧
      let digest := Config.sha384 (toLe 2 code ++ body ++ s.nonce)
      if code = 0x10 then Config.ecdsaVerify body digest sig = true
      else s.on .FUSE_OWNED 0 = true ∧ Config.ecdsaVerify s.ownerKey digest sig = true)

/-- Memory that the Keeper can read and write: sound HBM, a sound vault or sound stores with every group on. -/
def Sys2Proof.Machine.State.keeperMem (s : State) (a len : Nat) : Prop :=
  a < 2 ^ 48 ∧ (s.soundHbm a len ∨
    (s.aux.checks = [] ∧ s.aux.flaky = [] ∧ s.aux.poison = [] ∧ ∃ k off, placeOf (addrOff a) = .vault k off ∧ off + len ≤ 32 * mib ∧
      s.rd .VT_STATE (addrDie a) k = 0) ∨
    ∃ core off, placeOf (addrOff a) = .store core off ∧ storeRangeOk off len = true ∧ s.suspectStore (addrDie a) core = false)

/-- A request for another command changes nothing. One that no command of the table takes is answered as unknown; one that may not be
served, or whose signature is missing, is turned away. A served one is answered, with the effect that the table gives it: reports,
ownership and secrets, image update, restarts, salts and masks, lifted fences, the return of the part, and test access. -/
def Obligations.TransomCommands : Prop :=
  ∀ (s : State) (src : TransomSource), s.Sound →
    let turned := fun (k : Instr) (code st : Nat) => Runs k s fun t => s.Replied t src code st [] ∧ s.SameBytes t
    let acts := fun (k : Instr) (code : Nat) (P : State → Prop) => Runs k s fun t => s.Replied t src code stOk [] ∧ P t
    let reports := fun (k : Instr) (code : Nat) (P : List Byte → Prop) => Runs k s fun t =>
      s.SameBytes t ∧ ∃ bs, P bs ∧ s.Replied t src code stOk bs
    let calm := s.on .I_RESTART_COLD 0 = false ∧ s.on .I_RESTART_WARM 0 = false
    let spare := s.spareSlot
    (∀ row ∈ transomTable, ∀ r, s.request src = some r →
      (r.code ≠ row.code → exec (row.cmd src) s = .next s) ∧
      (r.code = row.code → (srcNet src = true → s.rd .TR_STATE 0 ≠ 1) →
        (s.decommissioned = true → row.decomm = false → turned (row.cmd src) row.code stDecommissioned) ∧
        (s.decommissioned = false → srcOpen src = true → row.bootstrap = false → turned (row.cmd src) row.code stNotAllowed) ∧
        (s.decommissioned = false → srcOpen src = false → r.whole = false ∨ row.signing = true ∧ r.payload.length < 96 →
          turned (row.cmd src) row.code stBadLength))) ∧
    (s.request src = none → exec (.unknownCmd src) s = .next s ∧ ∀ row ∈ transomTable, exec (row.cmd src) s = .next s) ∧
    (∀ r, s.request src = some r → (∀ row ∈ transomTable, r.code ≠ row.code) → (srcNet src = true → s.rd .TR_STATE 0 ≠ 1) →
      turned (.unknownCmd src) r.code stUnknown) ∧
    (s.served src 0x01 [] → reports (.getInfo src) 0x01 fun bs =>
      bs.length = 376 ∧ bs.drop 200 = s.cfgBytes 0 64 ++ s.cfgBytes 0x1000 64 ++ s.nonce ∧ leAt bs 0 4 = s.register 0 0xE0000 % 2 ^ 32) ∧
    (s.served src 0x02 [] → reports (.getCert src) 0x02 fun bs =>
      bs = s.cfgBytes (keyBase + 2) (min (leNat (s.cfgBytes keyBase 2)) 4088)) ∧
    (∀ nonce first i, s.served src 0x03 (nonce ++ toLe 4 first) → nonce.length = 48 → first < 2 ^ 32 → s.aux.image = some i →
      reports (.attest src) 0x03 fun bs => ∃ r, bs = r ++ Config.identitySign (Config.sha384 r) ∧ leAt r 0 2 = 1 ∧ leAt r 4 4 = first ∧
        leAt r 12 4 = i.sections.length % 2 ^ 32 ∧ cut r 16 48 = nonce) ∧
    (s.served src 0x04 [] → reports (.getParts src) 0x04 fun bs => bs.length = 64 ∧
      ∀ p < 8, byteAt bs (8 * p) = s.rd .PT_STATE 0 p ∧ byteAt bs (8 * p + 1) = (if s.rd .PT_STATE 0 p = 4 then stNoFit else 0) ∧
        leAt bs (8 * p + 4) 4 = s.rd .PT_EPOCH 0 p) ∧
    (∀ first n, s.served src 0x05 (toLe 4 first ++ toLe 4 n) → first < 2 ^ 32 → n ≤ 120 → reports (.readLog src) 0x05 fun bs =>
      bs = (((List.range n).filterMap fun k => s.logRecord (first + k))).flatten) ∧
    (∀ key, s.served src 0x10 key → key ≠ [] →
      (s.on .FUSE_OWNED 0 = true → turned (.claim src) 0x10 stOwned) ∧
      (s.on .FUSE_OWNED 0 = false → acts (.claim src) 0x10 fun t => t.rd .FUSE_OWNED 0 = 1 ∧
        ∀ w < 12, t.rd .FUSE_OWNER_HASH 0 w = leAt (Config.sha384 key) (4 * w) 4)) ∧
    (∀ n blob k, s.served src 0x11 (toLe 4 n ++ blob) → n < 18 → blob ≠ [] → Config.openProvision blob = some k →
      let w := Config.wrapSecret s.decommissioned k
      acts (.provision src) 0x11 fun t =>
        t.cfgBytes (secretBase + 256 * n) 256 = (toLe 2 w.length ++ w ++ List.replicate 256 0).take 256) ∧
    (∀ d, s.directory = some d →
      let base := d.base spare
      (∀ len, s.served src 0x20 (toLe 8 len) → len < 2 ^ 64 → len ≤ d.size spare → acts (.imageBegin src) 0x20 fun t =>
        t.rd .I_SLOT_OPEN 0 = 1 ∧ t.rd .I_SLOT_OK 0 = 0 ∧ t.rd .I_SLOT_LEN 0 = len ∧
        ∀ a, t.cfgByte a = if base ≤ a ∧ a < base + d.size spare then 0 else s.cfgByte a) ∧
      (∀ off data, s.served src 0x21 (toLe 12 off ++ data) → off < 2 ^ 96 → s.rd .I_SLOT_OPEN 0 = 1 →
        off + data.length ≤ s.rd .I_SLOT_LEN 0 → acts (.imageData src) 0x21 fun t =>
          t.cfgBytes (base + off) data.length = data ∧
          ∀ a, a < base + off ∨ base + off + data.length ≤ a → t.cfgByte a = s.cfgByte a) ∧
      (s.served src 0x22 [] → s.rd .I_SLOT_OPEN 0 = 1 → Runs (.imageEnd src) s fun t =>
        s.Replied t src 0x22 (s.slotCheck d spare) [] ∧ t.rd .I_SLOT_OPEN 0 = 0 ∧
        (t.rd .I_SLOT_OK 0 = 1 ↔ s.slotCheck d spare = stOk)) ∧
      (∀ tries, s.served src 0x23 (toLe 4 tries) → s.rd .I_SLOT_OK 0 = 1 → 1 ≤ tries → tries ≤ 7 → d.dseq + 1 < 2 ^ 32 →
        acts (.imageActivate src) 0x23 fun t => t.rd .I_RESTART_COLD 0 = 1 ∧ t.rd .SEC_TRIAL 0 = 1 ∧
          t.directory.map (fun e => (e.dseq, e.active, e.trial, e.tries)) = some (d.dseq + 1, spare, 1, tries)) ∧
      (s.served src 0x24 [] → d.trial ≠ 0 → d.dseq + 1 < 2 ^ 32 → acts (.imageConfirm src) 0x24 fun t => t.rd .SEC_TRIAL 0 = 0 ∧
        t.directory.map (fun e => (e.dseq, e.active, e.trial)) = some (d.dseq + 1, d.active, 0))) ∧
    (∀ i, s.aux.image = some i →
      (s.served src 0x25 [] → s.rd .SEC_TRIAL 0 = 0 → (∀ q ∈ (0, i.fwSvn) :: i.rb, q.2 < 256) →
        acts (.rollbackCommit src) 0x25 fun t =>
          (∀ q ∈ (0, i.fwSvn) :: i.rb, q.1 < 64 → q.2 ≤ t.counterRb q.1) ∧ ∀ k < 64, s.counterRb k ≤ t.counterRb k) ∧
      (∀ p, s.served src 0x30 (toLe 4 p) → p ∈ i.parts → calm → s.on .I_RESTART_PART 0 p = false → s.rd .PT_STATE 0 p ≠ 0 →
        acts (.restartPart src) 0x30 fun t => t.rd .I_RESTART_PART 0 p = 1 ∧ t.rd .PT_STATE 0 p = 3) ∧
      (s.served src 0x31 [] → calm → acts (.restartWarm src) 0x31 fun t => t.rd .I_RESTART_WARM 0 = 1) ∧
      (∀ a salt, s.served src 0x33 (toLe 8 a ++ toLe 8 salt) → a < 2 ^ 64 → salt < 2 ^ 64 → salt ≠ 0 → a ∈ i.grids → s.keeperMem a 128 →
        (s.gridBusy a (s.le (a + 84) 1) = true → turned (.resaltGrid src) 0x33 stPartBusy) ∧
        (s.gridBusy a (s.le (a + 84) 1) = false → acts (.resaltGrid src) 0x33 fun t =>
          t.le (a + 40) 8 = salt ∧ s.BytesBut t (a + 40) 8 ∧ (a, salt) ∈ t.aux.salts)) ∧
      (∀ die, s.served src 0x34 (toLe 4 die) → s.dieUp die = true →
        (s.dieBusy die = true → turned (.rehashHbm src) 0x34 stPartBusy) ∧
        (s.dieBusy die = false → i.sections = [] → acts (.rehashHbm src) 0x34 fun t =>
          (∀ off < 2 * stackBytes, t.byte (hbmAddr die 0 off) = 0) ∧ s.BytesBut t (hbmAddr die 0 0) (2 * stackBytes)))) ∧
    (s.served src 0x32 [] → acts (.restartCold src) 0x32 fun t => t.rd .I_RESTART_COLD 0 = 1 ∧ s.SameBytes t) ∧
    (∀ fseq b, s.served src 0x35 (toLe 4 fseq) → fseq < 2 ^ 32 → s.logRecord fseq = some b → 1 ≤ byteAt b 15 → byteAt b 15 ≤ 4 →
      acts (.liftFence src) 0x35 fun t => t.aux.lifts = s.aux.lifts ++ [fseq] ∧ s.SameBytes t) ∧
    (s.served src 0x40 [] → acts (.returnPart src) 0x40 fun t =>
      t.rd .FUSE_DECOMM 0 = 1 ∧ t.rd .SEC_STATE 0 = 3 ∧ (∀ p < 8, t.rd .PT_STATE 0 p = 0) ∧ (∀ a, t.byte a = 0) ∧
      ∀ a, t.cfgByte a = if a < stateBase ∨ slotsBase ≤ a then 0 else s.cfgByte a) ∧
    (s.decommissioned = true → s.rd .I_TEST_LEFT 0 < testLimit →
      (s.served src 0x41 [] → Runs (.testChallenge src) s fun t => ∃ bs, bs.length = 48 ∧ t.aux.challenge = some bs ∧
        s.Replied t src 0x41 stOk bs ∧ s.SameBytes t) ∧
      (∀ sig, s.served src 0x42 sig → sig.length = 96 →
        (s.testOpens sig = true → acts (.testResponse src) 0x42 fun t => t.rd .SEC_STATE 0 = 4) ∧
        (s.testOpens sig = false → Runs (.testResponse src) s fun t => s.Replied t src 0x42 stBadSignature [] ∧
          t.aux.challenge = none ∧ t.rd .I_TEST_LEFT 0 = s.rd .I_TEST_LEFT 0 + 1)))
end

