-- ==== Sys2Proof/Laws/Sparse.lean ====
section
/-! SUPPORT. Laws of the sparse maps: every operation keeps the canonical form, and what each key reads as after it. -/

namespace Sys2Proof.Laws

open Sys2Proof.Machine

/-- A comparison that orders its keys linearly. -/
structure LinearCmp {κ : Type} (cmp : κ → κ → Ordering) : Prop where
  eq_iff : ∀ a b, cmp a b = .eq ↔ a = b
  gt_iff : ∀ a b, cmp a b = .gt ↔ cmp b a = .lt
  trans : ∀ a b c, cmp a b = .lt → cmp b c = .lt → cmp a c = .lt

theorem linearCmp_nat : LinearCmp (compare : Nat → Nat → Ordering) where
  eq_iff a b := by simp
  gt_iff a b := by simp [Nat.compare_eq_gt, Nat.compare_eq_lt]
  trans a b c h1 h2 := by rw [Nat.compare_eq_lt] at *; omega

variable {κ ν : Type} {cmp : κ → κ → Ordering} {d : κ → ν}

theorem LinearCmp.lt_irrefl (hc : LinearCmp cmp) (a : κ) : cmp a a ≠ .lt := by
  rw [(hc.eq_iff a a).2 rfl]; decide

theorem sparseBelow_iff {k : κ} {m : List (κ × ν)} :
    sparseBelow cmp k m = true ↔ ∀ e ∈ m, cmp k e.1 = .lt := by
  simp [sparseBelow, List.all_eq_true]

theorem sparseBelow_of_lt (hc : LinearCmp cmp) {j k : κ} {m : List (κ × ν)} (hjk : cmp j k = .lt)
    (h : sparseBelow cmp k m = true) : sparseBelow cmp j m = true := by
  rw [sparseBelow_iff] at *
  exact fun e he => hc.trans _ _ _ hjk (h e he)

/-- A key below every listed key reads as unlisted. -/
theorem sparseGet_of_below {k : κ} {m : List (κ × ν)} (h : sparseBelow cmp k m = true) : sparseGet cmp d k m = d k := by
  cases m with
  | nil => rfl
  | cons e rest =>
    rw [sparseBelow_iff] at h
    simp [sparseGet, h e (List.mem_cons_self ..)]

variable [DecidableEq ν]

theorem sparseWf_cons {k : κ} {v : ν} {rest : List (κ × ν)} :
    sparseWf cmp d ((k, v) :: rest) = true ↔ sparseBelow cmp k rest = true ∧ v ≠ d k ∧ sparseWf cmp d rest = true := by
  simp [sparseWf, and_assoc]

theorem sparseWf_sparseCons {k : κ} {v : ν} {rest : List (κ × ν)} (hb : sparseBelow cmp k rest = true)
    (hw : sparseWf cmp d rest = true) : sparseWf cmp d (sparseCons d k v rest) = true := by
  unfold sparseCons
  split
  · exact hw
  · exact sparseWf_cons.2 ⟨hb, ‹_›, hw⟩

theorem sparseBelow_sparseCons {j k : κ} {v : ν} {rest : List (κ × ν)} (hjk : cmp j k = .lt)
    (hb : sparseBelow cmp j rest = true) : sparseBelow cmp j (sparseCons d k v rest) = true := by
  unfold sparseCons
  split
  · exact hb
  · rw [sparseBelow_iff] at *
    intro e he
    rcases List.mem_cons.1 he with rfl | h
    · exact hjk
    · exact hb e h

theorem sparseGet_sparseCons (hc : LinearCmp cmp) {j k : κ} {v : ν} {rest : List (κ × ν)} (hb : sparseBelow cmp k rest = true) :
    sparseGet cmp d j (sparseCons d k v rest) =
      match cmp j k with
      | .lt => d j
      | .eq => v
      | .gt => sparseGet cmp d j rest := by
  unfold sparseCons
  split
  · next h =>
    cases hjk : cmp j k with
    | lt => exact sparseGet_of_below (sparseBelow_of_lt hc hjk hb)
    | eq => rw [(hc.eq_iff _ _).1 hjk, h]; exact sparseGet_of_below hb
    | gt => rfl
  · rfl

theorem sparseBelow_sparseSet {j k : κ} {v : ν} {m : List (κ × ν)} (hjk : cmp j k = .lt)
    (hb : sparseBelow cmp j m = true) : sparseBelow cmp j (sparseSet cmp d k v m) = true := by
  induction m with
  | nil => exact sparseBelow_sparseCons hjk hb
  | cons e rest ih =>
    obtain ⟨k', v'⟩ := e
    have h' : sparseBelow cmp j rest = true := by
      rw [sparseBelow_iff] at *; exact fun e he => hb e (List.mem_cons_of_mem _ he)
    simp only [sparseSet]
    split
    · exact sparseBelow_sparseCons hjk hb
    · exact sparseBelow_sparseCons hjk h'
    · rw [sparseBelow_iff]
      intro e he
      rcases List.mem_cons.1 he with rfl | h
      · exact sparseBelow_iff.1 hb _ (List.mem_cons_self ..)
      · exact sparseBelow_iff.1 (ih h') e h

/-- Setting a key keeps the canonical form. -/
theorem sparseWf_sparseSet (hc : LinearCmp cmp) {k : κ} {v : ν} {m : List (κ × ν)} (hw : sparseWf cmp d m = true) :
    sparseWf cmp d (sparseSet cmp d k v m) = true := by
  induction m with
  | nil => exact sparseWf_sparseCons (by simp [sparseBelow]) rfl
  | cons e rest ih =>
    obtain ⟨k', v'⟩ := e
    obtain ⟨hb, hv, hr⟩ := sparseWf_cons.1 hw
    simp only [sparseSet]
    split
    · next h =>
      refine sparseWf_sparseCons ?_ hw
      rw [sparseBelow_iff]
      intro e he
      rcases List.mem_cons.1 he with rfl | h'
      · exact h
      · exact hc.trans _ _ _ h (sparseBelow_iff.1 hb e h')
    · next h => rw [(hc.eq_iff _ _).1 h]; exact sparseWf_sparseCons hb hr
    · next h => exact sparseWf_cons.2 ⟨sparseBelow_sparseSet ((hc.gt_iff _ _).1 h) hb, hv, ih hr⟩

/-- What a key reads as after one key has been set. -/
theorem sparseGet_sparseSet (hc : LinearCmp cmp) [DecidableEq κ] {j k : κ} {v : ν} {m : List (κ × ν)} (hw : sparseWf cmp d m = true) :
    sparseGet cmp d j (sparseSet cmp d k v m) = if j = k then v else sparseGet cmp d j m := by
  induction m with
  | nil =>
    rw [show sparseSet cmp d k v [] = sparseCons d k v [] from rfl, sparseGet_sparseCons hc (by simp [sparseBelow])]
    cases h : cmp j k with
    | eq => simp [(hc.eq_iff _ _).1 h]
    | lt => rw [if_neg fun e => by rw [(hc.eq_iff _ _).2 e] at h; cases h]; rfl
    | gt => rw [if_neg fun e => by rw [(hc.eq_iff _ _).2 e] at h; cases h]
  | cons e rest ih =>
    obtain ⟨k', v'⟩ := e
    obtain ⟨hb, hv, hr⟩ := sparseWf_cons.1 hw
    simp only [sparseSet]
    split
    · next h =>
      have hb' : sparseBelow cmp k ((k', v') :: rest) = true := by
        rw [sparseBelow_iff]
        intro e he
        rcases List.mem_cons.1 he with rfl | h'
        · exact h
        · exact hc.trans _ _ _ h (sparseBelow_iff.1 hb e h')
      rw [sparseGet_sparseCons hc hb']
      cases hj : cmp j k with
      | eq => simp [(hc.eq_iff _ _).1 hj]
      | gt => rw [if_neg fun e => by rw [(hc.eq_iff _ _).2 e] at hj; cases hj]
      | lt =>
        rw [if_neg fun e => by rw [(hc.eq_iff _ _).2 e] at hj; cases hj]
        exact (sparseGet_of_below (sparseBelow_of_lt hc hj hb')).symm
    · next h =>
      have hk := (hc.eq_iff _ _).1 h
      subst hk
      rw [sparseGet_sparseCons hc hb]
      cases hj : cmp j k with
      | eq => simp [(hc.eq_iff _ _).1 hj]
      | gt => rw [if_neg fun e => by rw [(hc.eq_iff _ _).2 e] at hj; cases hj]; simp [sparseGet, hj]
      | lt => rw [if_neg fun e => by rw [(hc.eq_iff _ _).2 e] at hj; cases hj]; simp [sparseGet, hj]
    · next h =>
      simp only [sparseGet]
      cases hj : cmp j k' with
      | eq =>
        rw [if_neg]
        intro e
        rw [← e, hj] at h; cases h
      | gt => exact ih hr
      | lt =>
        rw [if_neg]
        intro e
        rw [← e, hj] at h; cases h

omit [DecidableEq ν] in
theorem sparseBelow_filter {k : κ} {m : List (κ × ν)} (p : κ × ν → Bool) (h : sparseBelow cmp k m = true) :
    sparseBelow cmp k (m.filter p) = true := by
  rw [sparseBelow_iff] at *
  exact fun e he => h e (List.mem_of_mem_filter he)

theorem sparseWf_filter {m : List (κ × ν)} (p : κ × ν → Bool) (hw : sparseWf cmp d m = true) : sparseWf cmp d (m.filter p) = true := by
  induction m with
  | nil => rfl
  | cons e rest ih =>
    obtain ⟨hb, hv, hr⟩ := sparseWf_cons.1 hw
    rw [List.filter_cons]
    split
    · exact sparseWf_cons.2 ⟨sparseBelow_filter p hb, hv, ih hr⟩
    · exact ih hr

/-- Taking keys back keeps the canonical form. -/
theorem sparseWf_sparseDrop (p : κ → Bool) {m : List (κ × ν)} (hw : sparseWf cmp d m = true) :
    sparseWf cmp d (sparseDrop p m) = true := sparseWf_filter _ hw

/-- What a key reads as when only the keys of `q` are kept. -/
theorem sparseGet_filter (hc : LinearCmp cmp) (q : κ → Bool) {k : κ} {m : List (κ × ν)} (hw : sparseWf cmp d m = true) :
    sparseGet cmp d k (m.filter fun e => q e.1) = if q k = true then sparseGet cmp d k m else d k := by
  induction m with
  | nil => simp [sparseGet]
  | cons e rest ih =>
    obtain ⟨k', v'⟩ := e
    obtain ⟨hb, hv, hr⟩ := sparseWf_cons.1 hw
    rw [List.filter_cons]
    split
    · simp only [sparseGet]
      cases hj : cmp k k' with
      | eq => rw [(hc.eq_iff _ _).1 hj]; simp_all
      | lt => simp
      | gt => exact ih hr
    · next hq =>
      rw [ih hr]
      simp only [sparseGet]
      cases hj : cmp k k' with
      | eq => rw [(hc.eq_iff _ _).1 hj]; simp_all
      | lt => simp [sparseGet_of_below (sparseBelow_of_lt hc hj hb)]
      | gt => rfl

/-- What a key reads as after keys have been taken back. -/
theorem sparseGet_sparseDrop (hc : LinearCmp cmp) (p : κ → Bool) {k : κ} {m : List (κ × ν)} (hw : sparseWf cmp d m = true) :
    sparseGet cmp d k (sparseDrop p m) = if p k = true then d k else sparseGet cmp d k m := by
  unfold sparseDrop
  rw [sparseGet_filter hc (fun k => !p k) hw]
  cases p k <;> simp

/-- Two maps in canonical form that read alike are the same map. -/
theorem sparse_ext (hc : LinearCmp cmp) {m n : List (κ × ν)} (hm : sparseWf cmp d m = true) (hn : sparseWf cmp d n = true)
    (h : ∀ k, sparseGet cmp d k m = sparseGet cmp d k n) : m = n := by
  have head : ∀ {m n : List (κ × ν)} {k : κ} {v : ν}, sparseWf cmp d ((k, v) :: m) = true →
      (∀ j, sparseGet cmp d j ((k, v) :: m) = sparseGet cmp d j n) → sparseBelow cmp k n = true → False := by
    intro m n k v hw hg hb
    have := hg k
    rw [sparseGet_of_below hb] at this
    simp only [sparseGet, (hc.eq_iff k k).2 rfl] at this
    exact (sparseWf_cons.1 hw).2.1 this
  induction m generalizing n with
  | nil =>
    cases n with
    | nil => rfl
    | cons e n => exact absurd (head hn (fun j => (h j).symm) (by simp [sparseBelow])) id
  | cons e m ih =>
    obtain ⟨k, v⟩ := e
    cases n with
    | nil => exact absurd (head hm h (by simp [sparseBelow])) id
    | cons e' n =>
      obtain ⟨k', v'⟩ := e'
      obtain ⟨hb, hv, hr⟩ := sparseWf_cons.1 hm
      obtain ⟨hb', hv', hr'⟩ := sparseWf_cons.1 hn
      have below : ∀ {a b : κ} {w : ν} {l : List (κ × ν)}, cmp a b = .lt → sparseBelow cmp b l = true →
          sparseBelow cmp a ((b, w) :: l) = true := by
        intro a b w l hab hl
        rw [sparseBelow_iff]
        intro e he
        rcases List.mem_cons.1 he with rfl | h
        · exact hab
        · exact hc.trans _ _ _ hab (sparseBelow_iff.1 hl e h)
      cases hk : cmp k k' with
      | lt => exact absurd (head hm h (below hk hb')) id
      | gt => exact absurd (head hn (fun j => (h j).symm) (below ((hc.gt_iff _ _).1 hk) hb)) id
      | eq =>
        obtain rfl := (hc.eq_iff _ _).1 hk
        have hvv : v = v' := by
          have := h k
          simpa [sparseGet, (hc.eq_iff k k).2 rfl] using this
        subst hvv
        congr 1
        refine ih hr hr' fun j => ?_
        have := h j
        simp only [sparseGet] at this
        cases hj : cmp j k with
        | gt => simpa [hj] using this
        | eq =>
          obtain rfl := (hc.eq_iff _ _).1 hj
          rw [sparseGet_of_below hb, sparseGet_of_below hb']
        | lt => rw [sparseGet_of_below (sparseBelow_of_lt hc hj hb), sparseGet_of_below (sparseBelow_of_lt hc hj hb')]

/-! ### Runs of addresses -/

section runs

variable {ν : Type} [DecidableEq ν] {d : Nat → ν}

theorem sparseBelow_append {κ ν : Type} {cmp : κ → κ → Ordering} {k : κ} {m n : List (κ × ν)} :
    sparseBelow cmp k (m ++ n) = (sparseBelow cmp k m && sparseBelow cmp k n) := by simp [sparseBelow]

theorem sparseBelow_sparseRun {a : Nat} {j : Nat} {vs : List ν} (h : j < a) : sparseBelow compare j (sparseRun d a vs) = true := by
  induction vs generalizing a with
  | nil => rfl
  | cons v vs ih =>
    exact sparseBelow_sparseCons (by rw [Nat.compare_eq_lt]; exact h) (ih (by omega))

theorem sparseWf_sparseRun {a : Nat} {vs : List ν} : sparseWf compare d (sparseRun d a vs) = true := by
  induction vs generalizing a with
  | nil => rfl
  | cons v vs ih => exact sparseWf_sparseCons (sparseBelow_sparseRun (by omega)) ih

theorem sparseGet_sparseRun {a j : Nat} {vs : List ν} :
    sparseGet compare d j (sparseRun d a vs) = if a ≤ j then (vs[j - a]?).getD (d j) else d j := by
  induction vs generalizing a with
  | nil => simp [sparseRun, sparseGet]
  | cons v vs ih =>
    rw [show sparseRun d a (v :: vs) = sparseCons d a v (sparseRun d (a + 1) vs) from rfl,
      sparseGet_sparseCons linearCmp_nat (sparseBelow_sparseRun (by omega)), ih]
    cases h : compare j a with
    | lt => rw [Nat.compare_eq_lt] at h; simp [show ¬ a ≤ j by omega]
    | eq => rw [Nat.compare_eq_eq] at h; subst h; simp
    | gt =>
      rw [Nat.compare_eq_gt] at h
      rw [if_pos (by omega), if_pos (by omega), show j - a = (j - (a + 1)) + 1 by omega]
      rfl

/-- What a key of joined maps reads as, when the second lies above the first from `a` on. -/
theorem sparseGet_append {κ ν : Type} [DecidableEq ν] {cmp : κ → κ → Ordering} {d : κ → ν} {k : κ} {m n : List (κ × ν)}
    (h : (∀ e ∈ m, cmp k e.1 = .gt) ∨ sparseBelow cmp k n = true) :
    sparseGet cmp d k (m ++ n) = if (∀ e ∈ m, cmp k e.1 = .gt) then sparseGet cmp d k n else sparseGet cmp d k m := by
  induction m with
  | nil => simp
  | cons e m ih =>
    obtain ⟨k', v'⟩ := e
    simp only [List.cons_append, sparseGet]
    cases hk : cmp k k' with
    | lt => rw [if_neg]; simp [hk]
    | eq => rw [if_neg]; simp [hk]
    | gt =>
      rw [ih ?_]
      · simp only [List.forall_mem_cons, hk, true_and]
      · rcases h with h | h
        · exact .inl fun e he => h e (List.mem_cons_of_mem _ he)
        · exact .inr h

theorem sparseWf_append {κ ν : Type} [DecidableEq ν] {cmp : κ → κ → Ordering} {d : κ → ν} {m n : List (κ × ν)}
    (hm : sparseWf cmp d m = true) (hn : sparseWf cmp d n = true) (h : ∀ e ∈ m, sparseBelow cmp e.1 n = true) :
    sparseWf cmp d (m ++ n) = true := by
  induction m with
  | nil => exact hn
  | cons e m ih =>
    obtain ⟨hb, hv, hr⟩ := sparseWf_cons.1 hm
    exact sparseWf_cons.2 ⟨by
        have := sparseBelow_append (cmp := cmp) (k := e.1) (m := m) (n := n)
        rw [hb, h _ (List.mem_cons_self ..)] at this
        exact this, hv,
      ih hr fun e he => h e (List.mem_cons_of_mem _ he)⟩

theorem sparseRun_lt {a : Nat} {vs : List ν} {e : Nat × ν} (h : e ∈ sparseRun d a vs) : a ≤ e.1 ∧ e.1 < a + vs.length := by
  induction vs generalizing a with
  | nil => cases h
  | cons v vs ih =>
    simp only [sparseRun, sparseCons] at h
    have : e = (a, v) ∨ e ∈ sparseRun d (a + 1) vs := by
      split at h
      · exact .inr h
      · exact List.mem_cons.1 h
    rcases this with rfl | h'
    · simp
    · have := ih h'; simp only [List.length_cons]; omega

/-- Writing values at rising addresses keeps the canonical form. -/
theorem sparseWf_sparsePut {a : Nat} {vs : List ν} {m : List (Nat × ν)} (hw : sparseWf compare d m = true) :
    sparseWf compare d (sparsePut d a vs m) = true := by
  unfold sparsePut
  refine sparseWf_append (sparseWf_append (sparseWf_filter _ hw) sparseWf_sparseRun fun e he => ?_) (sparseWf_filter _ hw)
    fun e he => ?_
  · exact sparseBelow_sparseRun (by simpa using (List.mem_filter.1 he).2)
  · rw [sparseBelow_iff]
    intro f hf
    have hf' : a + vs.length ≤ f.1 := by simpa using (List.mem_filter.1 hf).2
    rw [Nat.compare_eq_lt]
    rcases List.mem_append.1 he with h | h
    · have : e.1 < a := by simpa using (List.mem_filter.1 h).2
      omega
    · have := sparseRun_lt h; omega

/-- What an address reads as after values have been written from `a` on. -/
theorem sparseGet_sparsePut {a j : Nat} {vs : List ν} {m : List (Nat × ν)} (hw : sparseWf compare d m = true) :
    sparseGet compare d j (sparsePut d a vs m) =
      if a ≤ j ∧ j < a + vs.length then (vs[j - a]?).getD (d j) else sparseGet compare d j m := by
  unfold sparsePut
  have low : ∀ e ∈ m.filter fun e => decide (e.1 < a), e.1 < a := fun e he => by simpa using (List.mem_filter.1 he).2
  have high : ∀ e ∈ m.filter fun e => decide (a + vs.length ≤ e.1), a + vs.length ≤ e.1 :=
    fun e he => by simpa using (List.mem_filter.1 he).2
  have g1 := sparseGet_filter linearCmp_nat (fun k => decide (k < a)) (k := j) hw
  have g2 := sparseGet_filter linearCmp_nat (fun k => decide (a + vs.length ≤ k)) (k := j) hw
  rw [List.append_assoc]
  by_cases h1 : j < a
  · rw [sparseGet_append, if_neg (c := a ≤ j ∧ j < a + vs.length) (by omega)]
    · split
      · next hall =>
        have hb : sparseBelow compare j (sparseRun d a vs ++ m.filter fun e => decide (a + vs.length ≤ e.1)) = true := by
          rw [sparseBelow_append, sparseBelow_sparseRun h1, Bool.true_and, sparseBelow_iff]
          intro e he; have := high e he; rw [Nat.compare_eq_lt]; omega
        rw [sparseGet_of_below hb]
        rw [if_pos (by simpa using h1)] at g1
        rw [← g1]
        have : ∀ l : List (Nat × ν), (∀ e ∈ l, compare j e.1 = .gt) → sparseGet compare d j l = d j := by
          intro l hl
          induction l with
          | nil => rfl
          | cons e l ih =>
            simp only [sparseGet, hl e (List.mem_cons_self ..)]
            exact ih fun e he => hl e (List.mem_cons_of_mem _ he)
        exact (this _ hall).symm
      · rw [g1, if_pos (by simpa using h1)]
    · right
      rw [sparseBelow_append, sparseBelow_sparseRun h1, Bool.true_and, sparseBelow_iff]
      intro e he; have := high e he; rw [Nat.compare_eq_lt]; omega
  · have hlow : ∀ e ∈ m.filter fun e => decide (e.1 < a), compare j e.1 = .gt := by
      intro e he; have := low e he; rw [Nat.compare_eq_gt]; omega
    rw [sparseGet_append (.inl hlow), if_pos hlow]
    by_cases h2 : j < a + vs.length
    · rw [if_pos ⟨by omega, h2⟩]
      have hb : sparseBelow compare j (m.filter fun e => decide (a + vs.length ≤ e.1)) = true := by
        rw [sparseBelow_iff]; intro e he; have := high e he; rw [Nat.compare_eq_lt]; omega
      rw [sparseGet_append (.inr hb)]
      have hr : sparseGet compare d j (sparseRun d a vs) = (vs[j - a]?).getD (d j) := by
        rw [sparseGet_sparseRun, if_pos (by omega)]
      split
      · next hall =>
        rw [sparseGet_of_below hb, ← hr]
        have : ∀ l : List (Nat × ν), (∀ e ∈ l, compare j e.1 = .gt) → sparseGet compare d j l = d j := by
          intro l hl
          induction l with
          | nil => rfl
          | cons e l ih =>
            simp only [sparseGet, hl e (List.mem_cons_self ..)]
            exact ih fun e he => hl e (List.mem_cons_of_mem _ he)
        exact (this _ hall).symm
      · exact hr
    · rw [if_neg (by omega)]
      have hrun : ∀ e ∈ sparseRun d a vs, compare j e.1 = .gt := by
        intro e he; have := sparseRun_lt he; rw [Nat.compare_eq_gt]; omega
      rw [sparseGet_append (.inl hrun), if_pos hrun, g2, if_pos (by simpa using h2)]

omit [DecidableEq ν] in
theorem sparseGet_dropWhile {a j : Nat} (h : a ≤ j) (m : List (Nat × ν)) :
    sparseGet compare d j (m.dropWhile fun e => decide (e.1 < a)) = sparseGet compare d j m := by
  induction m with
  | nil => rfl
  | cons e m ih =>
    rw [List.dropWhile_cons]
    split
    · next he =>
      rw [ih]
      have : compare j e.1 = .gt := by rw [Nat.compare_eq_gt]; have := of_decide_eq_true he; omega
      simp only [sparseGet, this]
    · rfl

theorem sparseWf_dropWhile (p : Nat × ν → Bool) {m : List (Nat × ν)} (hw : sparseWf compare d m = true) :
    sparseWf compare d (m.dropWhile p) = true := by
  induction m with
  | nil => rfl
  | cons e m ih =>
    rw [List.dropWhile_cons]
    split
    · exact ih (sparseWf_cons.1 hw).2.2
    · exact hw

/-- The bytes that a run of addresses reads are those of its addresses, one by one. -/
theorem sparseRead_eq {a n : Nat} {m : List (Nat × ν)} (hw : sparseWf compare d m = true) :
    sparseRead d a n m = (List.range' a n).map fun j => sparseGet compare d j m := by
  induction n generalizing a m with
  | zero => rfl
  | succ n ih =>
    have hw' := sparseWf_dropWhile (fun e => decide (e.1 < a)) hw
    have hg : ∀ j, a ≤ j → sparseGet compare d j (m.dropWhile fun e => decide (e.1 < a)) = sparseGet compare d j m :=
      fun j hj => sparseGet_dropWhile hj m
    have hhead : ∀ k v rest, (m.dropWhile fun e => decide (e.1 < a)) = (k, v) :: rest → a ≤ k := by
      intro k v rest h
      have := List.head?_dropWhile_not (fun e : Nat × ν => decide (e.1 < a)) m
      rw [h] at this
      simpa using this
    have step : ∀ l : List (Nat × ν), sparseWf compare d l = true → (∀ j, a + 1 ≤ j → sparseGet compare d j l = sparseGet compare d j m) →
        sparseRead d (a + 1) n l = (List.range' (a + 1) n).map fun j => sparseGet compare d j m := by
      intro l hl h
      rw [ih hl]
      refine List.map_congr_left fun j hj => h j ?_
      have := List.mem_range'.1 hj
      omega
    rw [List.range'_succ, List.map_cons, ← hg a (le_refl a)]
    simp only [sparseRead]
    split
    · next h =>
      rw [h, step [] rfl fun j hj => by rw [← hg j (by omega), h]]
      rfl
    · next k v rest h =>
      rw [h] at hw' ⊢
      have hk := hhead k v rest h
      split
      · next hka =>
        subst hka
        rw [step rest (sparseWf_cons.1 hw').2.2 fun j hj => by
          rw [← hg j (by omega), h]
          simp only [sparseGet, Nat.compare_eq_gt.2 (show k < j by omega)]]
        simp [sparseGet]
      · next hka =>
        rw [step _ hw' fun j hj => by rw [← hg j (by omega), h]]
        congr 1
        simp only [sparseGet, Nat.compare_eq_lt.2 (show a < k by omega)]

omit [DecidableEq ν] in
theorem length_sparseRead {a n : Nat} {m : List (Nat × ν)} : (sparseRead d a n m).length = n := by
  induction n generalizing a m with
  | zero => rfl
  | succ n ih =>
    simp only [sparseRead]
    split
    · simp [ih]
    · split <;> simp [ih]

end runs

/-! ### Tables -/

section tables

variable {ν : Type} {d v : ν} {j k : Nat} {m : List (Nat × ν)}

theorem tableGet_cons {e : Nat × ν} : tableGet d j (e :: m) = if e.1 = j then e.2 else tableGet d j m := by
  unfold tableGet
  rw [List.find?_cons]
  by_cases h : e.1 = j
  · simp [h]
  · simp [h, beq_eq_false_iff_ne.2 h]

theorem tableGet_insert (h : ∀ e ∈ m, e.1 ≠ k) : tableGet d j (tableInsert k v m) = if j = k then v else tableGet d j m := by
  induction m with
  | nil => rw [tableInsert, tableGet_cons]; simp [eq_comm]
  | cons e es ih =>
    have hes := ih fun e he => h e (List.mem_cons_of_mem _ he)
    have hek := h e (List.mem_cons_self ..)
    simp only [tableInsert]
    split
    · rw [tableGet_cons]; simp [eq_comm]
    · rw [tableGet_cons, tableGet_cons, hes]
      by_cases he : e.1 = j
      · have : j ≠ k := he ▸ hek
        simp [he, this]
      · simp [he]

theorem tableGet_filter : tableGet d j (m.filter fun e => e.1 != k) = if j = k then d else tableGet d j m := by
  induction m with
  | nil => simp [tableGet]
  | cons e es ih =>
    rw [List.filter_cons]
    by_cases he : e.1 = k
    · simp only [he, bne_self_eq_false, Bool.false_eq_true, if_false]
      rw [ih, tableGet_cons]
      by_cases hj : j = k
      · simp [hj]
      · simp [hj, he, Ne.symm hj]
    · simp only [bne_iff_ne.2 he, if_true]
      rw [tableGet_cons, tableGet_cons, ih]
      by_cases hej : e.1 = j
      · have : j ≠ k := hej ▸ he
        simp [hej, this]
      · simp [hej]

/-- What a unit's record is after one unit's record has been set. -/
theorem tableGet_tableSet [DecidableEq ν] : tableGet d j (tableSet d k v m) = if j = k then v else tableGet d j m := by
  unfold tableSet
  simp only
  split
  · next h => rw [tableGet_filter, h]
  · rw [tableGet_insert fun e he => by simpa using (List.mem_filter.1 he).2, tableGet_filter]
    by_cases hj : j = k <;> simp [hj]

end tables

end Sys2Proof.Laws
end

