-- ==== Sys2Proof/Laws/State.lean ====
section
/-! SUPPORT. What each primitive effect does to each part of the state: the small lemmas that later proofs cite instead of unfolding
an update. -/

namespace Sys2Proof.Laws

open Sys2Proof.Machine

/-! ### The order of register keys -/

theorem fld_ctorIdx_inj {a b : Fld} (h : a.ctorIdx = b.ctorIdx) : a = b := by
  rw [← Fld.ofNat_ctorIdx a, h, Fld.ofNat_ctorIdx]

theorem layer_ctorIdx_inj {a b : Layer} (h : a.ctorIdx = b.ctorIdx) : a = b := by
  rw [← Layer.ofNat_ctorIdx a, h, Layer.ofNat_ctorIdx]

/-- The numbers by which register keys are ordered, one after the other. -/
def keyRank (k : RegKey) : List Nat := [k.fld.ctorIdx, k.layer.ctorIdx, k.die, k.idx]

theorem regKey_cmp_lt {a b : RegKey} :
    RegKey.cmp a b = .lt ↔ a.fld.ctorIdx < b.fld.ctorIdx ∨ a.fld.ctorIdx = b.fld.ctorIdx ∧
      (a.layer.ctorIdx < b.layer.ctorIdx ∨ a.layer.ctorIdx = b.layer.ctorIdx ∧
        (a.die < b.die ∨ a.die = b.die ∧ a.idx < b.idx)) := by
  unfold RegKey.cmp
  split <;> rename_i h <;> simp only [Nat.compare_eq_lt, Nat.compare_eq_gt, Nat.compare_eq_eq] at h
  · simp [h]
  · simp; omega
  · split <;> rename_i h2 <;> simp only [Nat.compare_eq_lt, Nat.compare_eq_gt, Nat.compare_eq_eq] at h2
    · simp [h, h2]
    · simp; omega
    · split <;> rename_i h3 <;> simp only [Nat.compare_eq_lt, Nat.compare_eq_gt, Nat.compare_eq_eq] at h3
      · simp [h, h2, h3]
      · simp; omega
      · rw [Nat.compare_eq_lt]; omega

theorem regKey_cmp_gt {a b : RegKey} : RegKey.cmp a b = .gt ↔ RegKey.cmp b a = .lt := by
  rw [regKey_cmp_lt]
  unfold RegKey.cmp
  split <;> rename_i h <;> simp only [Nat.compare_eq_lt, Nat.compare_eq_gt, Nat.compare_eq_eq] at h
  · simp; omega
  · simp [h]
  · split <;> rename_i h2 <;> simp only [Nat.compare_eq_lt, Nat.compare_eq_gt, Nat.compare_eq_eq] at h2
    · simp; omega
    · simp [h, h2]
    · split <;> rename_i h3 <;> simp only [Nat.compare_eq_lt, Nat.compare_eq_gt, Nat.compare_eq_eq] at h3
      · simp; omega
      · simp [h, h2, h3]
      · rw [Nat.compare_eq_gt]; omega

theorem regKey_cmp_eq {a b : RegKey} : RegKey.cmp a b = .eq ↔ a = b := by
  constructor
  · intro h
    unfold RegKey.cmp at h
    split at h <;> try cases h
    rename_i h1
    split at h <;> try cases h
    rename_i h2
    split at h <;> try cases h
    rename_i h3
    rw [Nat.compare_eq_eq] at h h1 h2 h3
    cases a; cases b
    simp only [RegKey.mk.injEq]
    exact ⟨fld_ctorIdx_inj h1, layer_ctorIdx_inj h2, h3, h⟩
  · rintro rfl
    simp [RegKey.cmp]

/-- Register keys are ordered linearly. -/
theorem linearCmp_regKey : LinearCmp RegKey.cmp where
  eq_iff _ _ := regKey_cmp_eq
  gt_iff _ _ := regKey_cmp_gt
  trans a b c h1 h2 := by rw [regKey_cmp_lt] at *; omega

/-! ### Fields of the state under each primitive -/

section apply
variable (s : State) (l src dst : Layer) (f : Fld) (die idx v a : Nat) (bs : List Byte) (p : Fld → Nat → Bool)
  (q : RegKey → Bool) (r : Nat → Bool) (g : Aux → Aux)

@[simp] theorem reg_apply_mem : ((Eff.reg l f die idx v).apply s).mem = s.mem := rfl
@[simp] theorem reg_apply_cfg : ((Eff.reg l f die idx v).apply s).cfg = s.cfg := rfl
@[simp] theorem reg_apply_aux : ((Eff.reg l f die idx v).apply s).aux = s.aux := rfl
@[simp] theorem reg_apply_fresh : ((Eff.reg l f die idx v).apply s).fresh = s.fresh := rfl
@[simp] theorem copy_apply_mem : ((Eff.copy src dst die p).apply s).mem = s.mem := rfl
@[simp] theorem copy_apply_cfg : ((Eff.copy src dst die p).apply s).cfg = s.cfg := rfl
@[simp] theorem copy_apply_aux : ((Eff.copy src dst die p).apply s).aux = s.aux := rfl
@[simp] theorem copy_apply_fresh : ((Eff.copy src dst die p).apply s).fresh = s.fresh := rfl
@[simp] theorem resetRegs_apply_mem : ((Eff.resetRegs q).apply s).mem = s.mem := rfl
@[simp] theorem resetRegs_apply_cfg : ((Eff.resetRegs q).apply s).cfg = s.cfg := rfl
@[simp] theorem resetRegs_apply_aux : ((Eff.resetRegs q).apply s).aux = s.aux := rfl
@[simp] theorem resetRegs_apply_fresh : ((Eff.resetRegs q).apply s).fresh = s.fresh := rfl
@[simp] theorem mem_apply_regs : ((Eff.mem a bs).apply s).regs = s.regs := rfl
@[simp] theorem mem_apply_cfg : ((Eff.mem a bs).apply s).cfg = s.cfg := rfl
@[simp] theorem mem_apply_aux : ((Eff.mem a bs).apply s).aux = s.aux := rfl
@[simp] theorem mem_apply_fresh : ((Eff.mem a bs).apply s).fresh = s.fresh := rfl
@[simp] theorem clear_apply_regs : ((Eff.clear r).apply s).regs = s.regs := rfl
@[simp] theorem clear_apply_cfg : ((Eff.clear r).apply s).cfg = s.cfg := rfl
@[simp] theorem clear_apply_aux : ((Eff.clear r).apply s).aux = s.aux := rfl
@[simp] theorem clear_apply_fresh : ((Eff.clear r).apply s).fresh = s.fresh := rfl
@[simp] theorem cfg_apply_regs : ((Eff.cfg a bs).apply s).regs = s.regs := rfl
@[simp] theorem cfg_apply_mem : ((Eff.cfg a bs).apply s).mem = s.mem := rfl
@[simp] theorem cfg_apply_aux : ((Eff.cfg a bs).apply s).aux = s.aux := rfl
@[simp] theorem cfg_apply_fresh : ((Eff.cfg a bs).apply s).fresh = s.fresh := rfl
@[simp] theorem erase_apply_regs : ((Eff.erase r).apply s).regs = s.regs := rfl
@[simp] theorem erase_apply_mem : ((Eff.erase r).apply s).mem = s.mem := rfl
@[simp] theorem erase_apply_aux : ((Eff.erase r).apply s).aux = s.aux := rfl
@[simp] theorem erase_apply_fresh : ((Eff.erase r).apply s).fresh = s.fresh := rfl
@[simp] theorem aux_apply_regs : ((Eff.aux g).apply s).regs = s.regs := rfl
@[simp] theorem aux_apply_mem : ((Eff.aux g).apply s).mem = s.mem := rfl
@[simp] theorem aux_apply_cfg : ((Eff.aux g).apply s).cfg = s.cfg := rfl
@[simp] theorem aux_apply_aux : ((Eff.aux g).apply s).aux = g s.aux := rfl
@[simp] theorem aux_apply_fresh : ((Eff.aux g).apply s).fresh = s.fresh := rfl
@[simp] theorem drawn_apply_regs : (Eff.drawn.apply s).regs = s.regs := rfl
@[simp] theorem drawn_apply_mem : (Eff.drawn.apply s).mem = s.mem := rfl
@[simp] theorem drawn_apply_cfg : (Eff.drawn.apply s).cfg = s.cfg := rfl
@[simp] theorem drawn_apply_aux : (Eff.drawn.apply s).aux = s.aux := rfl
@[simp] theorem drawn_apply_fresh : (Eff.drawn.apply s).fresh = s.fresh + 1 := rfl

end apply

/-- No primitive touches the queue of waiting commands. -/
@[simp] theorem apply_pending (e : Eff) (s : State) : (e.apply s).pending = s.pending := by cases e <;> rfl

/-! ### The canonical form -/

theorem regsFit_iff {regs : List (RegKey × Nat)} : regsFit regs = true ↔ ∀ e ∈ regs, e.2 < 2 ^ e.1.fld.info.width := by
  simp [regsFit, List.all_eq_true]

theorem regsFit_sparseSet {regs : List (RegKey × Nat)} {k : RegKey} {v : Nat} (hv : v < 2 ^ k.fld.info.width)
    (h : regsFit regs = true) : regsFit (sparseSet RegKey.cmp RegKey.dflt k v regs) = true := by
  have key : ∀ rest : List (RegKey × Nat), regsFit rest = true → regsFit (sparseCons RegKey.dflt k v rest) = true := by
    intro rest hr
    unfold sparseCons
    split
    · exact hr
    · rw [regsFit_iff] at *
      exact List.forall_mem_cons.2 ⟨hv, hr⟩
  induction regs with
  | nil => exact key [] rfl
  | cons e rest ih =>
    obtain ⟨k', v'⟩ := e
    have hr : regsFit rest = true := by
      rw [regsFit_iff] at *; exact fun e he => h e (List.mem_cons_of_mem _ he)
    simp only [sparseSet]
    split
    · exact key _ h
    · exact key _ hr
    · rw [regsFit_iff]
      exact List.forall_mem_cons.2 ⟨regsFit_iff.1 h _ (List.mem_cons_self ..), regsFit_iff.1 (ih hr)⟩

theorem regsFit_filter {regs : List (RegKey × Nat)} (p : RegKey × Nat → Bool) (h : regsFit regs = true) :
    regsFit (regs.filter p) = true := by
  rw [regsFit_iff] at *
  exact fun e he => h e (List.mem_of_mem_filter he)

theorem registersWf_iff {r : List (RegKey × Nat)} :
    Registers.wf r = true ↔ sparseWf RegKey.cmp RegKey.dflt r = true ∧ regsFit r = true := by
  simp [Registers.wf]

/-- Setting one register key keeps the registers' canonical form. -/
theorem registersWf_set {r : List (RegKey × Nat)} {k : RegKey} {v : Nat} (hv : v < 2 ^ k.fld.info.width)
    (h : Registers.wf r = true) : Registers.wf (sparseSet RegKey.cmp RegKey.dflt k v r) = true := by
  rw [registersWf_iff] at *
  exact ⟨sparseWf_sparseSet linearCmp_regKey h.1, regsFit_sparseSet hv h.2⟩

theorem registersWf_drop {r : List (RegKey × Nat)} (p : RegKey → Bool) (h : Registers.wf r = true) :
    Registers.wf (sparseDrop p r) = true := by
  rw [registersWf_iff] at *
  exact ⟨sparseWf_sparseDrop p h.1, regsFit_filter _ h.2⟩

/-- Copying fields from one copy to another keeps the registers' canonical form. -/
theorem registersWf_copyRegs {r : List (RegKey × Nat)} (src dst : Layer) (die : Nat) (p : Fld → Nat → Bool)
    (h : Registers.wf r = true) : Registers.wf (copyRegs src dst die p r) = true := by
  unfold copyRegs
  have hf : ∀ e ∈ r.filter fun e => e.1.layer == src && e.1.die == die && p e.1.fld e.1.idx, e.2 < 2 ^ e.1.fld.info.width :=
    fun e he => regsFit_iff.1 (registersWf_iff.1 h).2 e (List.mem_of_mem_filter he)
  revert hf
  generalize (r.filter fun e => e.1.layer == src && e.1.die == die && p e.1.fld e.1.idx) = es
  have h0 := registersWf_drop (fun k => k.layer == dst && k.die == die && p k.fld k.idx) h
  revert h0
  generalize sparseDrop (fun k => k.layer == dst && k.die == die && p k.fld k.idx) r = acc
  intro h0 hf
  induction es generalizing acc with
  | nil => exact h0
  | cons e es ih =>
    exact ih _ (registersWf_set (hf e (List.mem_cons_self ..)) h0) fun x hx => hf x (List.mem_cons_of_mem _ hx)

/-- Every primitive keeps a sound state sound. -/
theorem apply_sound (e : Eff) {s : State} (h : s.Sound) : (e.apply s).Sound := by
  obtain ⟨hr, hm, hc⟩ := h
  cases e with
  | reg l f die idx v => exact ⟨registersWf_set (Nat.mod_lt _ (by positivity)) hr, hm, hc⟩
  | copy src dst die p => exact ⟨registersWf_copyRegs src dst die p hr, hm, hc⟩
  | resetRegs p => exact ⟨registersWf_drop p hr, hm, hc⟩
  | mem a bs => exact ⟨hr, sparseWf_sparsePut hm, hc⟩
  | clear p => exact ⟨hr, sparseWf_sparseDrop p hm, hc⟩
  | cfg a bs => exact ⟨hr, hm, sparseWf_sparsePut hc⟩
  | erase p => exact ⟨hr, hm, sparseWf_sparseDrop p hc⟩
  | aux f => exact ⟨hr, hm, hc⟩
  | drawn => exact ⟨hr, hm, hc⟩

/-! ### Running effects -/

section run
variable (a b : Act) (s : State) (e : Eff)

@[simp] theorem run_nop : Act.nop.run s = s := rfl
@[simp] theorem run_eff : (Act.eff e).run s = e.apply s := rfl
@[simp] theorem run_seq : (Act.seq a b).run s = b.run (a.run s) := rfl
@[simp] theorem run_get (k : State → Act) : (Act.get k).run s = (k s).run s := rfl
@[simp] theorem run_all_nil : (Act.all []).run s = s := rfl
@[simp] theorem run_all_cons (as : List Act) : (Act.all (a :: as)).run s = (Act.all as).run (a.run s) := rfl
@[simp] theorem run_when_true : (Act.when true a).run s = a.run s := rfl
@[simp] theorem run_when_false : (Act.when false a).run s = s := rfl
@[simp] theorem run_each_nil {α : Type} (f : α → Act) : (Act.each [] f).run s = s := rfl
@[simp] theorem run_each_cons {α : Type} (f : α → Act) (x : α) (xs : List α) :
    (Act.each (x :: xs) f).run s = (Act.each xs f).run ((f x).run s) := rfl
theorem run_when (c : Bool) : (Act.when c a).run s = if c = true then a.run s else s := by cases c <;> rfl
theorem run_all_append (as bs : List Act) : (Act.all (as ++ bs)).run s = (Act.all bs).run ((Act.all as).run s) := by
  induction as generalizing s with
  | nil => rfl
  | cons a as ih => exact ih (a.run s)
theorem run_upTo_succ (n : Nat) (f : Nat → Act) : (Act.upTo (n + 1) f).run s = (f n).run ((Act.upTo n f).run s) := by
  unfold Act.upTo Act.each
  rw [List.range_succ, List.map_append, run_all_append]
  rfl
@[simp] theorem run_upTo_zero (f : Nat → Act) : (Act.upTo 0 f).run s = s := rfl
@[simp] theorem done_eq : a.done s = .next (a.run s) := rfl

/-- What every primitive keeps, every effect keeps. -/
theorem run_keeps (P : State → Prop) (h : ∀ (e : Eff) s, P s → P (e.apply s)) (hs : P s) : P (a.run s) := by
  induction a generalizing s with
  | nop => exact hs
  | eff e => exact h e s hs
  | seq a b iha ihb => exact ihb _ (iha _ hs)
  | get k ih => exact ih s s hs

/-- Every effect keeps a sound state sound. -/
@[simp] theorem run_sound {s : State} (h : s.Sound) : (a.run s).Sound := run_keeps a s _ (fun e _ => apply_sound e) h

/-- No effect touches the queue of waiting commands. -/
@[simp] theorem run_pending : (a.run s).pending = s.pending :=
  run_keeps a s (fun t => t.pending = s.pending) (fun e t h => by rw [apply_pending, h]) rfl

end run

/-! ### Reading a register after a primitive -/

/-- A register field is below the power of two of its width. -/
theorem reg_lt {s : State} (h : s.Sound) (l : Layer) (f : Fld) (die idx : Nat) : s.reg l f die idx < 2 ^ f.info.width := by
  have hd : ∀ k : RegKey, k.dflt < 2 ^ k.fld.info.width := fun k => Nat.mod_lt _ (by positivity)
  have hf := regsFit_iff.1 (registersWf_iff.1 h.1).2
  unfold State.reg
  revert hf
  generalize s.regs = m
  intro hf
  induction m with
  | nil => exact hd _
  | cons e m ih =>
    obtain ⟨k, v⟩ := e
    simp only [sparseGet]
    split
    · exact hd _
    · next hk =>
      have := hf _ (List.mem_cons_self ..)
      rw [← regKey_cmp_eq.1 hk] at this
      exact this
    · exact ih fun e he => hf e (List.mem_cons_of_mem _ he)

/-- A register key after one register key has been set. -/
theorem reg_setReg {s : State} (h : s.Sound) (k : RegKey) (v : Nat) (l : Layer) (f : Fld) (die idx : Nat) :
    (s.setReg k v).reg l f die idx = if (⟨f, l, die, idx⟩ : RegKey) = k then v % 2 ^ k.fld.info.width else s.reg l f die idx := by
  unfold State.setReg State.reg
  exact sparseGet_sparseSet linearCmp_regKey (registersWf_iff.1 h.1).1

/-- A register key after the chosen keys have gone back to their reset values. -/
theorem reg_resetRegs {s : State} (h : s.Sound) (p : RegKey → Bool) (l : Layer) (f : Fld) (die idx : Nat) :
    ((Eff.resetRegs p).apply s).reg l f die idx =
      if p ⟨f, l, die, idx⟩ = true then RegKey.dflt ⟨f, l, die, idx⟩ else s.reg l f die idx :=
  sparseGet_sparseDrop linearCmp_regKey p (registersWf_iff.1 h.1).1

/-- A register key after a copy of fields. -/
theorem reg_copy {s : State} (h : s.Sound) {src dst : Layer} (die : Nat) (p : Fld → Nat → Bool) (l : Layer)
    (f : Fld) (d i : Nat) :
    ((Eff.copy src dst die p).apply s).reg l f d i =
      if l = dst ∧ d = die ∧ p f i = true then s.reg src f d i else s.reg l f d i := by
  have hw := (registersWf_iff.1 h.1).1
  show sparseGet _ _ _ (copyRegs src dst die p s.regs) = _
  unfold copyRegs
  have key : ∀ (es acc : List (RegKey × Nat)), sparseWf RegKey.cmp RegKey.dflt es = true → sparseWf RegKey.cmp RegKey.dflt acc = true →
      (∀ e ∈ es, e.1.layer = src) →
      sparseGet RegKey.cmp RegKey.dflt ⟨f, l, d, i⟩ (es.foldl (fun m e =>
        sparseSet RegKey.cmp RegKey.dflt { e.1 with layer := dst } e.2 m) acc) =
      if l = dst ∧ (∃ e ∈ es, e.1 = ⟨f, src, d, i⟩) then sparseGet RegKey.cmp RegKey.dflt ⟨f, src, d, i⟩ es
      else sparseGet RegKey.cmp RegKey.dflt ⟨f, l, d, i⟩ acc := by
    intro es
    induction es with
    | nil => intro acc _ _ _; simp
    | cons e es ih =>
      obtain ⟨k, v⟩ := e
      intro acc hes hacc hsrc
      obtain ⟨hb, hv, hr⟩ := sparseWf_cons.1 hes
      have hk : k.layer = src := hsrc _ (List.mem_cons_self ..)
      rw [List.foldl_cons, ih _ hr (sparseWf_sparseSet linearCmp_regKey hacc) fun e he => hsrc e (List.mem_cons_of_mem _ he),
        sparseGet_sparseSet linearCmp_regKey hacc]
      by_cases hkk : k = ⟨f, src, d, i⟩
      · subst hkk
        have hno : ¬ ∃ e ∈ es, e.1 = (⟨f, src, d, i⟩ : RegKey) := by
          rintro ⟨e, he, h1⟩
          have := sparseBelow_iff.1 hb e he
          rw [h1, (linearCmp_regKey.eq_iff _ _).2 rfl] at this
          cases this
        have hget : sparseGet RegKey.cmp RegKey.dflt ⟨f, src, d, i⟩ ((⟨f, src, d, i⟩, v) :: es) = v := by
          simp [sparseGet, (linearCmp_regKey.eq_iff (⟨f, src, d, i⟩ : RegKey) _).2 rfl]
        rw [if_neg (fun h => hno h.2)]
        by_cases hl : l = dst
        · subst hl; simp [hget]
        · simp [hl]
      · have hiff : (∃ e ∈ (k, v) :: es, e.1 = (⟨f, src, d, i⟩ : RegKey)) ↔ ∃ e ∈ es, e.1 = (⟨f, src, d, i⟩ : RegKey) := by
          simp [hkk]
        have hne : (⟨f, l, d, i⟩ : RegKey) = { k with layer := dst } → l = dst → False := by
          intro h1 _
          apply hkk
          cases k
          simp only [RegKey.mk.injEq] at h1 hk ⊢
          exact ⟨h1.1.symm, hk, h1.2.2.1.symm, h1.2.2.2.symm⟩
        simp only [hiff]
        by_cases hc : l = dst ∧ ∃ e ∈ es, e.1 = (⟨f, src, d, i⟩ : RegKey)
        · rw [if_pos hc, if_pos hc]
          obtain ⟨_, e, he, h1⟩ := hc
          have hlt := sparseBelow_iff.1 hb e he
          rw [h1] at hlt
          simp only [sparseGet, (linearCmp_regKey.gt_iff _ _).2 hlt]
        · rw [if_neg hc, if_neg hc, if_neg fun h1 => hne h1 (by simp only [RegKey.mk.injEq] at h1; exact h1.2.1)]
  have hfilt : sparseWf RegKey.cmp RegKey.dflt (s.regs.filter fun e => e.1.layer == src && e.1.die == die && p e.1.fld e.1.idx) = true :=
    sparseWf_filter _ hw
  rw [key _ _ hfilt (sparseWf_sparseDrop _ hw) fun e he => by
    have := (List.mem_filter.1 he).2; simp at this; exact this.1.1]
  have g1 := sparseGet_filter linearCmp_regKey (fun k => k.layer == src && k.die == die && p k.fld k.idx) (k := ⟨f, src, d, i⟩) hw
  rw [g1, sparseGet_sparseDrop linearCmp_regKey _ hw]
  have hmem : ∀ e ∈ s.regs.filter fun e => e.1.layer == src && e.1.die == die && p e.1.fld e.1.idx, e.1 = ⟨f, src, d, i⟩ →
      d = die ∧ p f i = true := by
    intro e he h1
    have := (List.mem_filter.1 he).2
    rw [h1] at this
    simpa using this
  by_cases hl : l = dst
  · subst hl
    by_cases hp : d = die ∧ p f i = true
    · rw [if_pos (c := l = l ∧ d = die ∧ p f i = true) ⟨rfl, hp⟩]
      split
      · simp [hp, State.reg]
      · next hno =>
        have hfalse : ¬ ∃ e ∈ s.regs.filter (fun e => e.1.layer == src && e.1.die == die && p e.1.fld e.1.idx), e.1 = (⟨f, src, d, i⟩ : RegKey) :=
          fun h => hno ⟨rfl, h⟩
        rw [if_pos (by simp [hp])]
        have hunlisted : ∀ m : List (RegKey × Nat), (¬ ∃ e ∈ m, e.1 = (⟨f, src, d, i⟩ : RegKey)) →
            sparseGet RegKey.cmp RegKey.dflt ⟨f, src, d, i⟩ m = RegKey.dflt ⟨f, src, d, i⟩ := by
          intro m hm
          induction m with
          | nil => rfl
          | cons e m ih =>
            simp only [sparseGet]
            split
            · rfl
            · next he => exact absurd ⟨e, List.mem_cons_self .., ((linearCmp_regKey.eq_iff _ _).1 he).symm⟩ hm
            · exact ih fun ⟨e', h1, h2⟩ => hm ⟨e', List.mem_cons_of_mem _ h1, h2⟩
        have := hunlisted _ hfalse
        rw [g1, if_pos (by simp [hp])] at this
        show RegKey.dflt ⟨f, src, d, i⟩ = _
        exact this.symm
    · rw [if_neg (c := l = l ∧ d = die ∧ p f i = true) (fun h => hp h.2), if_neg, if_neg]
      · rfl
      · simp only [beq_self_eq_true, Bool.true_and, Bool.and_eq_true, beq_iff_eq]; exact hp
      · rintro ⟨_, e, he, h1⟩; exact hp (hmem e he h1)
  · rw [if_neg (c := l = dst ∧ _) (fun h => hl h.1), if_neg (c := l = dst ∧ _) (fun h => hl h.1), if_neg]
    · rfl
    · simp [hl]

section rd
variable {s : State} (h : s.Sound) (f : Fld) (die idx v : Nat) (g : Fld) (d i : Nat)
include h

@[simp] theorem reg_run_set (l : Layer) : ((Act.set f die idx v).run s).reg l g d i =
    if g = f ∧ l = .vis ∧ d = die ∧ i = idx then v % 2 ^ f.info.width else s.reg l g d i := by
  show (s.setReg _ _).reg _ _ _ _ = _
  rw [reg_setReg h]
  simp only [RegKey.mk.injEq]

@[simp] theorem reg_run_setAc (l : Layer) : ((Act.setAc f die idx v).run s).reg l g d i =
    if g = f ∧ l = .act ∧ d = die ∧ i = idx then v % 2 ^ f.info.width else s.reg l g d i := by
  show (s.setReg _ _).reg _ _ _ _ = _
  rw [reg_setReg h]
  simp only [RegKey.mk.injEq]

@[simp] theorem rd_run_set : ((Act.set f die idx v).run s).rd g d i =
    if g = f ∧ d = die ∧ i = idx then v % 2 ^ f.info.width else s.rd g d i := by
  simp only [State.rd, reg_run_set h, true_and]

@[simp] theorem ac_run_setAc : ((Act.setAc f die idx v).run s).ac g d i =
    if g = f ∧ d = die ∧ i = idx then v % 2 ^ f.info.width else s.ac g d i := by
  simp only [State.ac, reg_run_setAc h, true_and]

@[simp] theorem ac_run_set : ((Act.set f die idx v).run s).ac g d i = s.ac g d i := by
  simp [State.ac, reg_run_set h]

@[simp] theorem rd_run_setAc : ((Act.setAc f die idx v).run s).rd g d i = s.rd g d i := by
  simp [State.rd, reg_run_setAc h]

@[simp] theorem rd_run_inc (n : Nat) : ((Act.inc f die idx n).run s).rd g d i =
    if g = f ∧ d = die ∧ i = idx then (s.rd f die idx + n) % 2 ^ f.info.width else s.rd g d i :=
  rd_run_set h ..

@[simp] theorem rd_run_incSat (n : Nat) : ((Act.incSat f die idx n).run s).rd g d i =
    if g = f ∧ d = die ∧ i = idx then min (s.rd f die idx + n) (2 ^ f.info.width - 1) else s.rd g d i := by
  refine (rd_run_set h ..).trans ?_
  have h0 : 0 < 2 ^ f.info.width := by positivity
  rw [Nat.mod_eq_of_lt (show min (s.rd f die idx + n) (2 ^ f.info.width - 1) < 2 ^ f.info.width by omega)]

@[simp] theorem rd_run_upd (u : Nat → Nat) : ((Act.upd f die idx u).run s).rd g d i =
    if g = f ∧ d = die ∧ i = idx then u (s.rd f die idx) % 2 ^ f.info.width else s.rd g d i :=
  rd_run_set h ..

end rd

section other
variable (s : State) (f : Fld) (die idx v a : Nat) (bs : List Byte) (g : Aux → Aux) (l : Layer) (x : Fld) (d i : Nat)

@[simp] theorem reg_run_aux : ((Act.aux g).run s).reg l x d i = s.reg l x d i := rfl
@[simp] theorem rd_run_aux : ((Act.aux g).run s).rd x d i = s.rd x d i := rfl
@[simp] theorem ac_run_aux : ((Act.aux g).run s).ac x d i = s.ac x d i := rfl
@[simp] theorem rd_run_put : ((Act.put a bs).run s).rd x d i = s.rd x d i := rfl
@[simp] theorem rd_run_cfgPut : ((Act.cfgPut a bs).run s).rd x d i = s.rd x d i := rfl
@[simp] theorem aux_run_aux : ((Act.aux g).run s).aux = g s.aux := rfl
@[simp] theorem aux_run_set : ((Act.set f die idx v).run s).aux = s.aux := rfl
@[simp] theorem aux_run_setAc : ((Act.setAc f die idx v).run s).aux = s.aux := rfl
@[simp] theorem aux_run_put : ((Act.put a bs).run s).aux = s.aux := rfl
@[simp] theorem aux_run_cfgPut : ((Act.cfgPut a bs).run s).aux = s.aux := rfl
@[simp] theorem mem_run_aux : ((Act.aux g).run s).mem = s.mem := rfl
@[simp] theorem mem_run_set : ((Act.set f die idx v).run s).mem = s.mem := rfl
@[simp] theorem mem_run_setAc : ((Act.setAc f die idx v).run s).mem = s.mem := rfl
@[simp] theorem mem_run_cfgPut : ((Act.cfgPut a bs).run s).mem = s.mem := rfl
@[simp] theorem cfg_run_aux : ((Act.aux g).run s).cfg = s.cfg := rfl
@[simp] theorem cfg_run_set : ((Act.set f die idx v).run s).cfg = s.cfg := rfl
@[simp] theorem cfg_run_setAc : ((Act.setAc f die idx v).run s).cfg = s.cfg := rfl
@[simp] theorem cfg_run_put : ((Act.put a bs).run s).cfg = s.cfg := rfl
@[simp] theorem fresh_run_set : ((Act.set f die idx v).run s).fresh = s.fresh := rfl
@[simp] theorem fresh_run_aux : ((Act.aux g).run s).fresh = s.fresh := rfl
@[simp] theorem regs_run_aux : ((Act.aux g).run s).regs = s.regs := rfl
@[simp] theorem regs_run_put : ((Act.put a bs).run s).regs = s.regs := rfl
@[simp] theorem regs_run_cfgPut : ((Act.cfgPut a bs).run s).regs = s.regs := rfl

end other

/-! ### Contexts and engines -/

theorem unitKey_inj {d c n d' c' n' : Nat} (hc : c < 32) (hn : n < 4) (hc' : c' < 32) (hn' : n' < 4) :
    unitKey d c n = unitKey d' c' n' ↔ d = d' ∧ c = c' ∧ n = n' := by unfold unitKey; omega

/-- What a context holds after one context has been changed. -/
theorem ctx_run_ctx (s : State) (die core c : Nat) (f : Ctx → Ctx) (d n x : Nat) :
    ((Act.ctx die core c f).run s).ctx d n x = if unitKey d n x = unitKey die core c then f (s.ctx die core c) else s.ctx d n x :=
  tableGet_tableSet

@[simp] theorem ctx_run_ctx_self (s : State) (die core c : Nat) (f : Ctx → Ctx) :
    ((Act.ctx die core c f).run s).ctx die core c = f (s.ctx die core c) := (ctx_run_ctx ..).trans (if_pos rfl)

/-- What an engine holds after one engine has been changed. -/
theorem engine_run_engine (s : State) (die core e : Nat) (f : Engine → Engine) (d n x : Nat) :
    ((Act.engine die core e f).run s).engine d n x =
      if unitKey d n x = unitKey die core e then f (s.engine die core e) else s.engine d n x :=
  tableGet_tableSet

@[simp] theorem engine_run_engine_self (s : State) (die core e : Nat) (f : Engine → Engine) :
    ((Act.engine die core e f).run s).engine die core e = f (s.engine die core e) := (engine_run_engine ..).trans (if_pos rfl)

@[simp] theorem ctx_run_set (s : State) (f : Fld) (die idx v d n x : Nat) : ((Act.set f die idx v).run s).ctx d n x = s.ctx d n x := rfl
@[simp] theorem ctx_run_upd (s : State) (f : Fld) (die idx : Nat) (g : Nat → Nat) (d n x : Nat) :
    ((Act.upd f die idx g).run s).ctx d n x = s.ctx d n x := rfl
@[simp] theorem ctx_run_inc (s : State) (f : Fld) (die idx k d n x : Nat) : ((Act.inc f die idx k).run s).ctx d n x = s.ctx d n x := rfl
@[simp] theorem ctx_run_put (s : State) (a : Nat) (bs : List Byte) (d n x : Nat) : ((Act.put a bs).run s).ctx d n x = s.ctx d n x := rfl
@[simp] theorem rd_run_ctx (s : State) (die core c : Nat) (f : Ctx → Ctx) (g : Fld) (d i : Nat) :
    ((Act.ctx die core c f).run s).rd g d i = s.rd g d i := rfl
@[simp] theorem reg_run_ctx (s : State) (die core c : Nat) (f : Ctx → Ctx) (l : Layer) (g : Fld) (d i : Nat) :
    ((Act.ctx die core c f).run s).reg l g d i = s.reg l g d i := rfl
@[simp] theorem mem_run_ctx (s : State) (die core c : Nat) (f : Ctx → Ctx) : ((Act.ctx die core c f).run s).mem = s.mem := rfl
@[simp] theorem engine_run_ctx (s : State) (die core c : Nat) (f : Ctx → Ctx) (d n e : Nat) :
    ((Act.ctx die core c f).run s).engine d n e = s.engine d n e := rfl
@[simp] theorem engine_run_set (s : State) (f : Fld) (die idx v d n e : Nat) :
    ((Act.set f die idx v).run s).engine d n e = s.engine d n e := rfl
@[simp] theorem rd_run_engine (s : State) (die core e : Nat) (f : Engine → Engine) (g : Fld) (d i : Nat) :
    ((Act.engine die core e f).run s).rd g d i = s.rd g d i := rfl
@[simp] theorem ctx_run_engine (s : State) (die core e : Nat) (f : Engine → Engine) (d n c : Nat) :
    ((Act.engine die core e f).run s).ctx d n c = s.ctx d n c := rfl

/-! ### Reading a byte after a primitive -/

/-- A byte of memory after bytes have been written. -/
theorem byte_run_put {s : State} (h : s.Sound) (a : Nat) (bs : List Byte) (j : Nat) :
    ((Act.put a bs).run s).byte j = if a ≤ j ∧ j < a + bs.length then (bs[j - a]?).getD 0 else s.byte j :=
  sparseGet_sparsePut h.2.1

/-- A byte of the configuration store after bytes have been written. -/
theorem cfgByte_run_cfgPut {s : State} (h : s.Sound) (a : Nat) (bs : List Byte) (j : Nat) :
    ((Act.cfgPut a bs).run s).cfgByte j = if a ≤ j ∧ j < a + bs.length then (bs[j - a]?).getD 0 else s.cfgByte j :=
  sparseGet_sparsePut h.2.2

/-- The bytes that a run of addresses reads are those of its addresses. -/
theorem bytes_eq {s : State} (h : s.Sound) (a n : Nat) : s.bytes a n = (List.range' a n).map s.byte := sparseRead_eq h.2.1

@[simp] theorem length_bytes (s : State) (a n : Nat) : (s.bytes a n).length = n := length_sparseRead

/-- Equal memories read alike. -/
theorem sameBytes_of_eq {s t : State} (hm : t.mem = s.mem) (hc : t.cfg = s.cfg) : s.SameBytes t :=
  ⟨fun a => by simp only [State.byte, hm], fun a => by simp only [State.cfgByte, hc]⟩

/-- Reading back what has been written. -/
theorem bytes_run_put {s : State} (h : s.Sound) (a : Nat) (bs : List Byte) : ((Act.put a bs).run s).bytes a bs.length = bs := by
  rw [bytes_eq (run_sound _ h)]
  apply List.ext_getElem
  · simp
  · intro i h1 h2
    simp only [List.getElem_map, List.getElem_range', byte_run_put h]
    rw [if_pos (by omega), show a + 1 * i - a = i by omega, List.getElem?_eq_getElem h2]
    rfl

end Sys2Proof.Laws
end

