-- ==== Sys2Proof/Laws/Commands.lean ====
section
/-! SUPPORT. What the computations that commands are written in do: what `then` makes of each step, own-store accesses of a core whose
stores are sound, and a command that no check and no pre-emption meets. -/

namespace Sys2Proof.Laws

open Sys2Proof Sys2Proof.Machine

section computations
variable {α β : Type} (k : Except Err α → Act) (s : State)

/-- What follows a computation that may have failed. -/
def onOk (f : α → M β) (k : Except Err β → Act) : Except Err α → Act
  | .ok a => (f a).then k
  | .error e => k (.error e)

@[simp] theorem onOk_ok (f : α → M β) (k : Except Err β → Act) (a : α) : onOk f k (.ok a) = (f a).then k := rfl
@[simp] theorem onOk_error (f : α → M β) (k : Except Err β → Act) (e : Err) : onOk f k (.error e) = k (.error e) := rfl

@[simp] theorem then_pure (a : α) : (pure a : M α).then k = k (.ok a) := rfl
@[simp] theorem then_throw (e : Err) : (throw e : M α).then k = k (.error e) := rfl
@[simp] theorem then_fail (c d : Nat) : (M.fail c d : M α).then k = k (.error ⟨c, d⟩) := rfl

@[simp] theorem then_bind (m : M α) (f : α → M β) (k : Except Err β → Act) : (m >>= f).then k = m.then (onOk f k) := by
  unfold M.then
  refine congrArg (fun g => (ExceptT.run m : Cont Act (Except Err α)) g) (funext fun r => ?_)
  cases r <;> rfl

@[simp] theorem then_state (k : Except Err State → Act) : (M.state.then k).run s = (k (.ok s)).run s := rfl
@[simp] theorem then_act (a : Act) (k : Except Err Unit → Act) : ((M.act a).then k).run s = (k (.ok ())).run (a.run s) := rfl
@[simp] theorem then_attempt (m : M α) (k : Except Err (Except Err α) → Act) : (M.attempt m).then k = m.then fun r => k (.ok r) := rfl
@[simp] theorem then_ite (c : Prop) [Decidable c] (m n : M α) : (if c then m else n).then k = if c then m.then k else n.then k := by
  split <;> rfl

@[simp] theorem each_nil (f : α → M Unit) : M.each [] f = pure () := rfl
@[simp] theorem each_cons (f : α → M Unit) (x : α) (xs : List α) : M.each (x :: xs) f = (do f x; M.each xs f) := rfl
@[simp] theorem collect_nil (f : α → M β) : M.collect [] f = pure [] := rfl

end computations

/-! ### A core's own stores -/

/-- Sound stores answer a read with their bytes, and a read changes nothing. -/
theorem readStore_then {s : State} {die core off len owner : Nat} (h : s.suspectStore die core = false)
    (k : Except Err (List Byte) → Act) :
    ((readStore die core off len owner).then k).run s = (k (.ok (s.bytes (storeAddr die core off) len))).run s := by
  simp [readStore, h, -bind_pure_comp]

/-- Sound stores take a write. -/
theorem writeStore_then {s : State} {die core off owner : Nat} {bs : List Byte} (h : s.suspectStore die core = false)
    (k : Except Err Unit → Act) :
    ((writeStore die core off bs owner).then k).run s =
      (k (.ok ())).run ((noteWrite (storeAddr die core off) bs.length).run ((Act.put (storeAddr die core off) bs).run s)) := by
  simp [writeStore, h]

/-! ### The course of a command -/

/-- Reads that meet no failing check leave the state as it is. -/
theorem meetAll_ok {ms : List (Nat × ReadCheck)} (h : ∀ m ∈ ms, m.2 = .ok) (s : State) : (meetAll ms).run s = s := by
  induction ms with
  | nil => rfl
  | cons m ms ih =>
    have hm : m.2 = .ok := h m (by simp)
    have hr := ih fun n hn => h n (by simp [hn])
    unfold meetAll at hr ⊢
    rw [run_each_cons, hm]
    exact hr

/-- A command whose course names no pre-emption point does all of its parts, and has ended. -/
theorem inRange_then {s : State} {x : Cx} {id total : Nat} {go : Nat → Nat → M Unit}
    (h : ((s.flightOf x.die x.core x.ctx id).bind fun f => f.course.stop) = none) (k : Except Err (Option Nat) → Act) :
    ((inRange x id total go).then k).run s =
      ((go x.cmd.row total).then (onOk (fun _ => pure (some 0)) k)).run s := by
  simp [inRange, h, -bind_pure_comp]

end Sys2Proof.Laws
end

