-- ==== Sys2Proof/Laws/Reach.lean ====
section
/-! SUPPORT. What an effect can reach: a bound on the registers, the bytes and the queues that it may change, proved once for each
shared operation and composed for the commands that use it. -/

namespace Sys2Proof.Laws

open Sys2Proof.Machine

/-- A bound on what an effect changes: register keys, bytes of memory, bytes of the configuration store, and how the queues and
records may go over into others. -/
structure Reach where
  regs : RegKey → Prop
  mem : Nat → Prop
  cfg : Nat → Prop
  aux : Aux → Aux → Prop

/-- One primitive lies within a bound. -/
def Eff.Within (r : Reach) : Eff → Prop
  | .reg l f d i _ => r.regs ⟨f, l, d, i⟩
  | .copy _ dst die p => ∀ f i, p f i = true → r.regs ⟨f, dst, die, i⟩
  | .resetRegs p => ∀ k, p k = true → r.regs k
  | .mem a bs => ∀ j, a ≤ j → j < a + bs.length → r.mem j
  | .clear p => ∀ j, p j = true → r.mem j
  | .cfg a bs => ∀ j, a ≤ j → j < a + bs.length → r.cfg j
  | .erase p => ∀ j, p j = true → r.cfg j
  | .aux f => ∀ a, r.aux a (f a)
  | .drawn => True

/-- Every primitive of an effect lies within a bound, whatever the states it meets. -/
def withinAll (r : Reach) : Act → Prop
  | .nop => True
  | .eff e => Eff.Within r e
  | .seq a b => withinAll r a ∧ withinAll r b
  | .get k => ∀ s, withinAll r (k s)

/-- An effect lies within a bound: `withinAll`, kept folded in proofs. -/
@[irreducible] def Within (r : Reach) (a : Act) : Prop := withinAll r a

section simp
variable (r : Reach)

@[simp] theorem within_nop : Within r .nop := by unfold Within; trivial
@[simp] theorem within_seq (a b : Act) : Within r (.seq a b) ↔ Within r a ∧ Within r b := by unfold Within; exact Iff.rfl
@[simp] theorem within_get (k : State → Act) : Within r (.get k) ↔ ∀ s, Within r (k s) := by unfold Within; exact Iff.rfl
@[simp] theorem within_eff (e : Eff) : Within r (.eff e) ↔ Eff.Within r e := by unfold Within; exact Iff.rfl
@[simp] theorem within_all_nil : Within r (.all []) := within_nop r
@[simp] theorem within_all_cons (a : Act) (as : List Act) : Within r (.all (a :: as)) ↔ Within r a ∧ Within r (.all as) := within_seq r a _
theorem within_all (as : List Act) : Within r (.all as) ↔ ∀ a ∈ as, Within r a := by
  induction as with
  | nil => simp
  | cons a as ih => simp [ih]
@[simp] theorem within_each {α : Type} (xs : List α) (f : α → Act) : Within r (.each xs f) ↔ ∀ x ∈ xs, Within r (f x) := by
  simp [Act.each, within_all]
@[simp] theorem within_upTo (n : Nat) (f : Nat → Act) : Within r (.upTo n f) ↔ ∀ i < n, Within r (f i) := by simp [Act.upTo]
@[simp] theorem within_when (c : Bool) (a : Act) : Within r (.when c a) ↔ (c = true → Within r a) := by cases c <;> simp [Act.when]
@[simp] theorem within_ite (c : Prop) [Decidable c] (a b : Act) :
    Within r (if c then a else b) ↔ (c → Within r a) ∧ (¬ c → Within r b) := by split <;> simp_all
@[simp] theorem within_set (f : Fld) (d i v : Nat) : Within r (.set f d i v) ↔ r.regs ⟨f, .vis, d, i⟩ := within_eff r _
@[simp] theorem within_setAc (f : Fld) (d i v : Nat) : Within r (.setAc f d i v) ↔ r.regs ⟨f, .act, d, i⟩ := within_eff r _
@[simp] theorem within_upd (f : Fld) (d i : Nat) (g : Nat → Nat) : Within r (.upd f d i g) ↔ r.regs ⟨f, .vis, d, i⟩ :=
  (within_get r _).trans ⟨fun h => (within_set ..).1 (h State.reset), fun h _ => (within_set ..).2 h⟩
@[simp] theorem within_inc (f : Fld) (d i n : Nat) : Within r (.inc f d i n) ↔ r.regs ⟨f, .vis, d, i⟩ := within_upd ..
@[simp] theorem within_incSat (f : Fld) (d i n : Nat) : Within r (.incSat f d i n) ↔ r.regs ⟨f, .vis, d, i⟩ := within_upd ..
@[simp] theorem within_put (a : Nat) (bs : List Byte) : Within r (.put a bs) ↔ ∀ j, a ≤ j → j < a + bs.length → r.mem j := within_eff r _
@[simp] theorem within_cfgPut (a : Nat) (bs : List Byte) : Within r (.cfgPut a bs) ↔ ∀ j, a ≤ j → j < a + bs.length → r.cfg j := within_eff r _
@[simp] theorem within_aux (f : Aux → Aux) : Within r (.aux f) ↔ ∀ a, r.aux a (f a) := within_eff r _
@[simp] theorem within_free (k : Nat → Act) : Within r (.free k) ↔ ∀ s : State, Within r (k (Config.freeValue s.fresh).toNat) := by
  simp [Act.free, Eff.Within]
@[simp] theorem within_random (k : Nat → Act) : Within r (.random k) ↔ ∀ s : State, Within r (k (Config.random s.fresh)) := by
  simp [Act.random, Eff.Within]

end simp

/-- A wider bound holds too. -/
theorem within_mono {r q : Reach} {a : Act} (h : Within r a) (hr : ∀ k, r.regs k → q.regs k) (hm : ∀ j, r.mem j → q.mem j)
    (hc : ∀ j, r.cfg j → q.cfg j) (ha : ∀ x y, r.aux x y → q.aux x y) : Within q a := by
  induction a with
  | nop => exact within_nop q
  | eff e =>
    rw [within_eff] at h ⊢
    cases e with
    | reg l f d i v => exact hr _ h
    | copy src dst die p => exact fun f i hp => hr _ (h f i hp)
    | resetRegs p => exact fun k hp => hr _ (h k hp)
    | mem a bs => exact fun j h1 h2 => hm _ (h j h1 h2)
    | clear p => exact fun j hp => hm _ (h j hp)
    | cfg a bs => exact fun j h1 h2 => hc _ (h j h1 h2)
    | erase p => exact fun j hp => hc _ (h j hp)
    | aux f => exact fun a => ha _ _ (h a)
    | drawn => trivial
  | seq a b iha ihb =>
    rw [within_seq] at h ⊢
    exact ⟨iha h.1, ihb h.2⟩
  | get k ih =>
    rw [within_get] at h ⊢
    exact fun s => ih s (h s)

/-- What an effect within a bound leaves: registers and bytes outside it, and how the queues have changed. -/
theorem within_run {r : Reach} {a : Act} (h : Within r a) (hrefl : ∀ x, r.aux x x) (htrans : ∀ x y z, r.aux x y → r.aux y z → r.aux x z)
    {s : State} (hs : s.Sound) :
    (∀ l f d i, ¬ r.regs ⟨f, l, d, i⟩ → (a.run s).reg l f d i = s.reg l f d i) ∧
    (∀ j, ¬ r.mem j → (a.run s).byte j = s.byte j) ∧ (∀ j, ¬ r.cfg j → (a.run s).cfgByte j = s.cfgByte j) ∧
    r.aux s.aux (a.run s).aux := by
  induction a generalizing s with
  | nop => exact ⟨fun _ _ _ _ _ => rfl, fun _ _ => rfl, fun _ _ => rfl, hrefl _⟩
  | eff e =>
    rw [within_eff] at h
    cases e with
    | reg l f d i v =>
      refine ⟨fun l' f' d' i' hn => ?_, fun _ _ => rfl, fun _ _ => rfl, hrefl _⟩
      refine (reg_setReg hs ⟨f, l, d, i⟩ v l' f' d' i').trans (if_neg fun he => hn ?_)
      rw [he]; exact h
    | copy src dst die p =>
      refine ⟨fun l' f' d' i' hn => ?_, fun _ _ => rfl, fun _ _ => rfl, hrefl _⟩
      refine (reg_copy hs die p l' f' d' i').trans (if_neg ?_)
      rintro ⟨rfl, rfl, hp⟩
      exact hn (h _ _ hp)
    | resetRegs p =>
      exact ⟨fun l' f' d' i' hn => (reg_resetRegs hs p l' f' d' i').trans (if_neg fun hp => hn (h _ hp)), fun _ _ => rfl,
        fun _ _ => rfl, hrefl _⟩
    | mem a bs =>
      exact ⟨fun _ _ _ _ _ => rfl, fun j hn => (byte_run_put hs a bs j).trans (if_neg fun hj => hn (h j hj.1 hj.2)), fun _ _ => rfl,
        hrefl _⟩
    | clear p =>
      exact ⟨fun _ _ _ _ _ => rfl, fun j hn => (sparseGet_sparseDrop linearCmp_nat p hs.2.1).trans (if_neg fun hp => hn (h j hp)),
        fun _ _ => rfl, hrefl _⟩
    | cfg a bs =>
      exact ⟨fun _ _ _ _ _ => rfl, fun _ _ => rfl, fun j hn => (cfgByte_run_cfgPut hs a bs j).trans (if_neg fun hj => hn (h j hj.1 hj.2)),
        hrefl _⟩
    | erase p =>
      exact ⟨fun _ _ _ _ _ => rfl, fun _ _ => rfl,
        fun j hn => (sparseGet_sparseDrop linearCmp_nat p hs.2.2).trans (if_neg fun hp => hn (h j hp)), hrefl _⟩
    | aux f => exact ⟨fun _ _ _ _ _ => rfl, fun _ _ => rfl, fun _ _ => rfl, h _⟩
    | drawn => exact ⟨fun _ _ _ _ _ => rfl, fun _ _ => rfl, fun _ _ => rfl, hrefl _⟩
  | seq a b iha ihb =>
    rw [within_seq] at h
    obtain ⟨a1, a2, a3, a4⟩ := iha h.1 hs
    obtain ⟨b1, b2, b3, b4⟩ := ihb h.2 (run_sound a hs)
    exact ⟨fun l f d i hn => (b1 l f d i hn).trans (a1 l f d i hn), fun j hn => (b2 j hn).trans (a2 j hn),
      fun j hn => (b3 j hn).trans (a3 j hn), htrans _ _ _ a4 b4⟩
  | get k ih =>
    rw [within_get] at h
    exact ih s (h s) hs

/-- Registers of the fields that a test names, no byte of any memory, and queues as a relation says. -/
def Reach.of (good : Fld → Bool) (aux : Aux → Aux → Prop) : Reach :=
  ⟨fun k => good k.fld = true, fun _ => False, fun _ => False, aux⟩

theorem of_regs {good : Fld → Bool} {aux : Aux → Aux → Prop} {f : Fld} (h : good f = true) (l : Layer) (d i : Nat) :
    (Reach.of good aux).regs ⟨f, l, d, i⟩ := h

end Sys2Proof.Laws
end

