-- ==== Sys2Proof/Laws/Time.lean ====
section
/-! SUPPORT. What the time unit's shared operations can change (02_phase_and_time.md). -/

namespace Sys2Proof.Laws

open Sys2Proof.Machine

/-- The registers of device time itself, which no move of a master and no event touches. -/
def clockFields : List Fld :=
  [.TIME_NOW_SEC, .TIME_NOW_NS, .TIME_NOW_FRAC, .I_TIME_LOW, .TIME_INCR, .I_TICKS, .TIME_STEP_COUNT, .I_SLEW_MAG, .I_SLEW_NEG,
    .TIME_STATUS_SLEWING, .TIME_STATUS_COMMIT_PENDING, .TIME_STATUS_SYNC, .I_SILENCE, .I_HOLD]

/-- Fields that masters and phase events change: those of the time block (19 R785) other than device time's, and hidden ones. -/
def phaseField (f : Fld) : Bool :=
  !clockFields.contains f && (f.info.acc == .hidden || f.info.base / 0x10000 == 2)

/-- What masters and phase events change: their fields, the list of fired events, which grows, and the list of instants for which
entries have fired, which grows at its front. -/
def phaseReach : Reach := Reach.of phaseField fun x y => ∃ fs is, y = { x with fired := x.fired ++ fs, instants := is ++ x.instants }

theorem phaseReach_refl (x : Aux) : phaseReach.aux x x := ⟨[], [], by simp⟩

theorem phaseReach_trans (x y z : Aux) (h1 : phaseReach.aux x y) (h2 : phaseReach.aux y z) : phaseReach.aux x z := by
  obtain ⟨f1, i1, rfl⟩ := h1
  obtain ⟨f2, i2, rfl⟩ := h2
  exact ⟨f1 ++ f2, i2 ++ i1, by simp⟩

/-- The phase-master set and the phase-event set lie in the time block. -/
theorem timeSets_phaseField (f : Fld) (h : f.info.set = .pm ∨ f.info.set = .pe) : phaseField f = true := by
  cases f <;> first | (exact absurd h (by decide)) | rfl

theorem activateSet_phase {set : ShadowSet} (hset : set = .pm ∨ set = .pe) (die : Nat) (sel : Nat → Bool) :
    Within phaseReach (activateSet set die sel) := by
  unfold activateSet
  rw [within_eff]
  intro f i hp
  simp only [Bool.and_eq_true, beq_iff_eq] at hp
  exact timeSets_phaseField f (hp.1.symm ▸ hset)

theorem phase {f : Fld} (h : phaseField f = true) {l : Layer} {d i : Nat} : phaseReach.regs ⟨f, l, d, i⟩ := h

theorem fireEntry_phase (die e cross pmState : Nat) (catchUp : Bool) :
    Within phaseReach (fireEntry die e cross pmState catchUp) := by
  simp only [fireEntry, within_get, within_all_cons, within_all_nil, within_aux, within_set, and_true]
  exact fun s => ⟨fun a => ⟨_, [], rfl⟩, phase (by decide)⟩

theorem activatePm_phase (die m : Nat) : Within phaseReach (activatePm die m) := by
  unfold activatePm
  simp only [within_get, within_all_cons, within_all_nil, within_set, and_true]
  refine fun s => ⟨activateSet_phase (.inl rfl) _ _, phase (by decide), fun t => ?_⟩
  split
  · simp only [within_ite, within_set, within_upd, within_when, within_all_cons, within_all_nil, and_true]
    exact ⟨fun _ => phase (by decide), fun _ => ⟨fun _ => ⟨phase (by decide), fun _ => phase (by decide)⟩, fun _ => ⟨phase (by decide), phase (by decide), phase (by decide), phase (by decide), phase (by decide), phase (by decide)⟩⟩⟩
  · simp only [within_ite, within_set, within_all_cons, within_all_nil, and_true]
    exact ⟨phase (by decide), phase (by decide), phase (by decide), fun _ => phase (by decide), fun _ => ⟨phase (by decide), phase (by decide), phase (by decide)⟩⟩
  · simp only [within_seq, within_set]
    exact ⟨phase (by decide), phase (by decide)⟩

theorem activatePe_phase (die : Nat) : Within phaseReach (activatePe die) := by
  unfold activatePe setPeBit
  simp only [within_seq, within_get, within_set, within_upTo, within_all_cons, within_all_nil, within_when, within_upd, and_true]
  exact ⟨activateSet_phase (.inr rfl) _ _, phase (by decide), fun s i _ => ⟨phase (by decide), fun _ => phase (by decide)⟩⟩

theorem activateAtSeal_phase (die before : Nat) : Within phaseReach (activateAtSeal die before) := by
  unfold activateAtSeal
  simp only [within_get, within_when]
  exact fun s _ => activatePe_phase die

theorem masterMove_phase (die m delta st : Nat) (jump catchUp : Bool) : Within phaseReach (masterMove die m delta st jump catchUp) := by
  unfold masterMove
  simp only [within_get, within_when, within_all_cons, within_all_nil, within_set, within_ite, within_each, and_true]
  exact fun s _ => ⟨phase (by decide), phase (by decide), fun _ => ⟨fun _ => phase (by decide), fun _ => ⟨fun _ => ⟨phase (by decide), phase (by decide)⟩, phase (by decide), phase (by decide)⟩⟩, fun p _ => fireEntry_phase ..,
    fun _ => activatePm_phase ..⟩

theorem ptpAdvance_phase (die m told : Nat) (jump : Bool) : Within phaseReach (ptpAdvance die m told jump) := by
  unfold ptpAdvance
  simp only [within_get, within_ite, within_nop, within_all_cons, within_all_nil, within_set, within_seq, within_inc, and_true, implies_true,
    true_and]
  exact fun s _ => ⟨fun _ => ⟨phase (by decide), phase (by decide), phase (by decide)⟩, fun _ => ⟨fun _ => ⟨phase (by decide), phase (by decide)⟩, fun _ _ => ⟨phase (by decide), phase (by decide), masterMove_phase ..⟩⟩⟩

theorem coastAdvance_phase (die m : Nat) : Within phaseReach (coastAdvance die m) := by
  unfold coastAdvance
  simp only [within_get, within_when, within_all_cons, within_all_nil, within_set, and_true]
  exact fun s _ => ⟨phase (by decide), phase (by decide), masterMove_phase ..⟩

theorem fireInstants_phase (die told : Nat) (jump : Bool) : Within phaseReach (fireInstants die told jump) := by
  unfold fireInstants setPeBit
  simp only [within_get, within_when, within_all_cons, within_all_nil, within_set, within_each, within_upd, within_aux, and_true]
  exact fun s _ e _ => ⟨fireEntry_phase .., fun a => ⟨[], [(die * 256 + e, s.peInstant die e)], by simp⟩, phase (by decide), phase (by decide), phase (by decide)⟩

/-- What a tick does after device time has moved: masters advance and events fire. -/
theorem tickEvents_phase (s : State) (step : Bool) :
    Within phaseReach (.each s.dieList fun d => .all [
        .upTo 16 fun m => .seq (ptpAdvance d m (s.now d) step) (coastAdvance d m), fireInstants d (s.now d) step,
        activateAtSeal d s.aux.fired.length]) := by
  simp only [within_each, within_all_cons, within_all_nil, within_upTo, within_seq, and_true]
  exact fun d _ => ⟨fun m _ => ⟨ptpAdvance_phase .., coastAdvance_phase ..⟩, fireInstants_phase .., activateAtSeal_phase ..⟩

/-- A tick ends no repeated load where no engine repeats one. -/
theorem endReloads_none {s : State} (h : ∀ p ∈ s.aux.engines, p.2.reload = none) : endReloads.run s = s := by
  unfold endReloads
  rw [run_get, List.filter_eq_nil_iff.2 fun p hp => by simp [h p hp], run_each_nil]

/-- A tick of the whole block where no engine repeats a load is a tick of the time unit. -/
theorem wholeTick_run {s : State} (h : ∀ p ∈ (tick.run s).aux.engines, p.2.reload = none) : wholeTick.run s = tick.run s :=
  endReloads_none h

/-- Setting device time: what it reads as after. -/
theorem fineTime_setFineTime {s : State} (h : s.Sound) (t : Nat) :
    ((setFineTime t).run s).fineTime = t % (2 ^ 64 * 1000000000 * 2 ^ 32) := by
  have w1 : Fld.TIME_NOW_SEC.info.width = 64 := rfl
  have w2 : Fld.TIME_NOW_NS.info.width = 30 := rfl
  have w3 : Fld.TIME_NOW_FRAC.info.width = 16 := rfl
  have w4 : Fld.I_TIME_LOW.info.width = 16 := rfl
  simp (maxDischargeDepth := 20) only [setFineTime, State.fineTime, run_all_cons, run_all_nil, rd_run_set, run_sound, h, reduceCtorEq, false_and, if_false, and_self,
    if_true, w1, w2, w3, w4]
  omega

end Sys2Proof.Laws
end

