-- ==== Sys2Proof/Machine/Pins.lean ====
section
/-! DEFINITION. The ball map of the package (20 R802, R815, R817 to R821): which ball each die's field holds where. No command reads or
changes it. -/

namespace Sys2Proof.Machine

/-- What a ball is connected to: a rail, ground, or a signal by its name in the block of R819. -/
inductive Net
  | vss | vddAon | vddIo | vppHbm | vddSram | vddCore | vddqHbm | vddSerdes
  /-- One half of a differential pair. -/
  | pair (name : String) (positive : Bool)
  /-- A single-ended signal, by its name and its number within the name. -/
  | line (name : String) (n : Nat)
deriving DecidableEq, Repr

/-- Rows and columns of the ball array of a package of so many dies (R815). -/
def ballArray (dies : Nat) : Nat := if dies == 2 then 54 else if dies == 4 then 76 else 108

/-- The field of a die (R817): its first column, its columns, its first row and its rows, counted from 1. -/
def ballField (dies die : Nat) : Nat × Nat × Nat × Nat :=
  if dies == 2 then (27 * die + 1, 27, 1, 54)
  else if dies == 4 then (38 * (die % 2) + 1, 38, 38 * (die / 2) + 1, 38)
  else (27 * (die % 4) + 1, 27, 54 * (die / 4) + 1, 54)

/-- Package column and row of a place of a die's field, whose row 0 lies on a package edge (R818). -/
def ballAt (dies die c r : Nat) : Nat × Nat :=
  let (col, _, row, rows) := ballField dies die
  (col + c, if row == 1 then row + r else row + rows - 1 - r)

/-- The place in its die's field of a ball of the package, with the die (R817, R818). -/
def ballPlace (dies col row : Nat) : Option (Nat × Nat × Nat) :=
  ((List.range dies).find? fun d =>
    let (c0, cols, r0, rows) := ballField dies d
    decide (c0 ≤ col ∧ col < c0 + cols ∧ r0 ≤ row ∧ row < r0 + rows)).map fun d =>
      let (c0, _, r0, rows) := ballField dies d
      (d, col - c0, if r0 == 1 then row - r0 else r0 + rows - 1 - row)

/-- Pair `k` of block row 4 (R819). -/
def blockPair (k : Nat) : String :=
  ["ETH0_TX", "ETH0_RX", "ETH1_TX", "ETH1_RX", "MG_TX", "MG_RX", "ETH_REFCLK", "PCIE_REFCLK"].getD k ""

/-- Signals of block row 8 behind the event pins (R819). -/
def blockLine (c : Nat) : String :=
  ["ALIVE_A", "ALIVE_B", "COLD_RST_N", "THERM_TRIP_N", "PERST#", "WAKE#", "PM_SCL", "PM_SDA", "PM_ALERT#", "TCK", "TMS", "TDI", "TDO",
    "TRST#", "REFCLK_25"].getD (c - 8) ""

/-- A pair's ball, or the ground ball behind it. -/
def pairNet (name : String) (c : Nat) : Net :=
  match c % 3 with
  | 0 => .pair name true
  | 1 => .pair name false
  | _ => .vss

/-- A ball of a configuration-store port: clock, select, strobe, eight data lines, reset (R819). -/
def storeNet (port : String) (i : Nat) : Net :=
  match i with
  | 0 => .line (port ++ "_CLK") 0
  | 1 => .line (port ++ "_CS#") 0
  | 2 => .line (port ++ "_DQS") 0
  | 11 => .line (port ++ "_RST#") 0
  | _ => .line (port ++ "_DQ") (i - 3)

/-- The signal block of a field, rows 0 to 9 and columns 0 to 23 (R819). -/
def blockNet (c r : Nat) : Net :=
  match r with
  | 0 => if c % 3 == 2 then .vss else .pair ("PCIE_TX" ++ toString (c / 3)) (c % 3 == 0)
  | 2 => if c % 3 == 2 then .vss else .pair ("PCIE_RX" ++ toString (c / 3)) (c % 3 == 0)
  | 4 => pairNet (blockPair (c / 3)) c
  | 6 => if c < 12 then storeNet "SPA" c else storeNet "SPB" (c - 12)
  | 7 => if c % 2 == 0 then .vddIo else .vss
  | 8 => if c < 8 then .line "EVT" c else if c == 23 then .vss else .line (blockLine c) 0
  | 9 => if c % 4 == 0 then .vddAon else if c % 4 == 2 then .vppHbm else .vss
  | _ => .vss

/-- Signals that the field of every die connects; the others are die 0's alone (R820). -/
def everyDie : Net → Bool
  | .pair name _ => ["ETH0_TX", "ETH0_RX", "ETH1_TX", "ETH1_RX", "ETH_REFCLK"].contains name
  | .line name _ => name == "REFCLK_25"
  | _ => true

/-- A ball of a field outside the signal block (R821). -/
def supplyNet (c r : Nat) : Net :=
  if r % 2 == 0 then (if c % 2 == 0 then .vddCore else .vss)
  else if c % 2 == 0 then .vss
  else if r % 4 == 1 then (if c % 4 == 1 then .vddSram else .vddqHbm)
  else if c % 4 == 1 then .vddSerdes else .vddCore

/-- The net of a place of a die's field (R819 to R821). -/
def fieldNet (die c r : Nat) : Net :=
  if r < 10 && c < 24 then
    let n := blockNet c r
    if die == 0 || everyDie n then n else .vss
  else supplyNet c r

/-- The net of a ball of the package; none beyond its array. -/
def ballNet (dies col row : Nat) : Option Net := (ballPlace dies col row).map fun p => fieldNet p.1 p.2.1 p.2.2

end Sys2Proof.Machine
end

