-- ==== Sys2Proof/WellFormed.lean ====
section
/-! DEFINITION. Which commands are well formed: every operand lies in the range that the spec numbers. -/

namespace Sys2Proof

/-- A die number: bits [47:45] of an address (01 R28). -/
def dieOk (d : Nat) : Bool := decide (d < 8)

/-- A core of a die (01 R30). -/
def coreOk (n : Nat) : Bool := decide (n < 32)

/-- A context of a core (10 R424). -/
def ctxOk (c : Nat) : Bool := decide (c < 4)

/-- An engine of a core (01 R31). -/
def engineOk (e : Nat) : Bool := decide (e < 4)

/-- A phase master of a die (02 R70). -/
def masterOk (m : Nat) : Bool := decide (m < 16)

/-- A stream-table entry of a die (03 R100). -/
def entryOk (i : Nat) : Bool := decide (i < 48)

/-- A partition of the package (13 R563). -/
def partOk (p : Nat) : Bool := decide (p < 8)

/-- A safety zone of a die (15 R637). -/
def zoneOk (z : Nat) : Bool := decide (z < 64)

/-- A publish or request channel (13 R590). -/
def channelOk (c : Nat) : Bool := decide (c < 64)

/-- A trigger of a die (13 R571). -/
def triggerOk (t : Nat) : Bool := decide (t < 256)

/-- A host vector of the package (14 R628). -/
def vectorOk (v : Nat) : Bool := decide (v < 64)

/-- Addresses at which reads meet a check are package addresses (01 R28). -/
def meetsOk (ms : List (Nat × ReadCheck)) : Bool := ms.all fun m => decide (m.1 < 2 ^ 48)

/-- What befalls a command names package addresses. -/
def Course.wf (c : Course) : Bool := meetsOk c.meets

/-- A context of a core (10 R423), and a course that names package addresses. -/
def Turn.wf (t : Turn) : Bool := ctxOk t.ctx && t.course.wf

/-- A cluster of a die (01 R30). -/
def clusterOk (c : Nat) : Bool := decide (c < 8)

/-- An HBM stack of a die (01 R26). -/
def stackOk (s : Nat) : Bool := decide (s < 2)

/-- An Ignov port of a die (12 R551). -/
def linkOk (p : Nat) : Bool := decide (p < 4)

/-- A Bell target: the Keeper, a sequencer or a host vector (14, register block of the Bell). -/
def targetOk (t : Nat) : Bool := decide (t < 97)

/-- A Bell source number (14 R606). -/
def sourceOk (n : Nat) : Bool := decide (n < 1024)

/-- A decode class of a die (09 R385). -/
def classOk (k : Nat) : Bool := decide (k < 8)

/-- A semaphore of a core (10 R449). -/
def semOk (n : Nat) : Bool := decide (n < 32)

/-- A wicket of a core (11 R512). -/
def wicketOk (w : Nat) : Bool := decide (w < 16)

/-- An event pin (14 R634). -/
def pinOk (p : Nat) : Bool := decide (p < 8)

/-- An access to the register window: inside its 16 MiB, of 32 or 64 bits, naturally aligned (00 R9). -/
def regAccessOk (off width : Nat) : Bool :=
  (width == 32 && off % 4 == 0 || width == 64 && off % 8 == 0) && decide (off < 0x100_0000)

/-- A requester names a unit that can exist. -/
def Requester.wf : Requester → Bool
  | .host => true
  | .keeper die => dieOk die
  | .context die core ctx => dieOk die && coreOk core && ctxOk ctx
  | .unit die => dieOk die

/-- A transaction moves at most 256 bytes (12 R552) and its operands fit their fields. -/
def TxnOp.wf : TxnOp → Bool
  | .read len => decide (len ≤ 256)
  | .write bytes => decide (bytes.length ≤ 256)
  | .add fmt bytes => decide (fmt < 16) && decide (bytes.length ≤ 256)
  | .slotOp key build => decide (key < 2 ^ 64) && decide (build < 2 ^ 32)
  | .semaphoreAdd sem count => semOk sem && decide (count < 2 ^ 16)
  | .doorbell _ => true

/-- A bank group or segment that the unit has: W-store 8, A-store 12, P-store 8, vault 16 (11 R478, R517). -/
def ShutterUnit.groupOk (u : ShutterUnit) (group : Nat) : Bool :=
  match u with
  | .wStore core => coreOk core && decide (group < 8)
  | .aStore core => coreOk core && decide (group < 12)
  | .pStore core => coreOk core && decide (group < 8)
  | .vault k => decide (k < 4) && decide (group < 16)

/-- A transom request fits its window (17, TR_REQ), behind its header, and comes from an address and between ports that exist. -/
def TransomSource.wf : TransomSource → Bool
  | .host => true
  | .net _ v6 peer remote port datagram =>
    decide (datagram.length ≤ 32 + 4096) && decide (peer < 2 ^ (if v6 then 128 else 32)) && decide (remote < 65536) && decide (port < 65536)

/-- Every operand of the command is in range. -/
def Instr.wf : Instr → Bool
  | .registerWrite who die off width value => who.wf && dieOk die && regAccessOk off width && decide (value < 2 ^ width)
  | .rcRead who die off width arriving => who.wf && dieOk die && regAccessOk off width && decide (arriving < 2 ^ width)
  | .lowHalfRead who die off => who.wf && dieOk die && regAccessOk off 64
  | .timeAdj die _ => dieOk die
  | .slewEnd => true
  | .timeSetCommit die => dieOk die
  | .timeStep => true
  | .timeServoDeclareLocked die => dieOk die
  | .timeServoDeclareHoldover die => dieOk die
  | .holdoverEntry => true
  | .holdoverExpiry => true
  | .tsfPop die port => dieOk die && decide (port < 3)
  | .ptpEventSend die port _ seqId msgType domain => dieOk die && decide (port < 3) && decide (seqId < 65536) && decide (msgType < 16) && decide (domain < 256)
  | .pmCommit die master => dieOk die && masterOk master
  | .masterCoast die master => dieOk die && masterOk master
  | .masterLost die master => dieOk die && masterOk master
  | .peCommit die => dieOk die
  | .phaseEventDispatch die => dieOk die
  | .remoteEventDelivery die => dieOk die
  | .ethFrameReceive die port _ => dieOk die && decide (port < 3)
  | .packetDecode die => dieOk die
  | .pointWriteError die entry _ => dieOk die && entryOk entry
  | .headerWriteError die entry => dieOk die && entryOk entry
  | .frameHeaderWrite die entry => dieOk die && entryOk entry
  | .ingCommit die => dieOk die
  | .cmdInvalid die core ctx => dieOk die && coreOk core && ctxOk ctx
  | .nop die core ctx => dieOk die && coreOk core && ctxOk ctx
  | .endList die core ctx => dieOk die && coreOk core && ctxOk ctx
  | .wait die core ctx => dieOk die && coreOk core && ctxOk ctx
  | .signal die core ctx => dieOk die && coreOk core && ctxOk ctx
  | .semaphoreAdd die core => dieOk die && coreOk core
  | .waitBell die core ctx => dieOk die && coreOk core && ctxOk ctx
  | .waitTimeout die core ctx => dieOk die && coreOk core && ctxOk ctx
  | .loop die core ctx => dieOk die && coreOk core && ctxOk ctx
  | .branchCnt die core ctx => dieOk die && coreOk core && ctxOk ctx
  | .fence die core ctx => dieOk die && coreOk core && ctxOk ctx
  | .publishResult die core ctx => dieOk die && coreOk core && ctxOk ctx
  | .publishTokens die core ctx => dieOk die && coreOk core && ctxOk ctx
  | .loadw die core turn => dieOk die && coreOk core && turn.wf
  | .stream die core turn => dieOk die && coreOk core && turn.wf
  | .gang die core ctx => dieOk die && coreOk core && ctxOk ctx
  | .passBoundary die core engine => dieOk die && coreOk core && engineOk engine
  | .passComplete die core engine => dieOk die && coreOk core && engineOk engine
  | .preemptDrainEnd die core engine _ => dieOk die && coreOk core && engineOk engine
  | .engineFault die core engine kind _ col issued written => dieOk die && coreOk core && engineOk engine && decide (kind < 8) && decide (col < 64) && decide (written ≤ issued)
  | .passStoreError die core engine _ _ => dieOk die && coreOk core && engineOk engine
  | .gatherPillar die core turn => dieOk die && coreOk core && turn.wf
  | .gatherRows die core turn => dieOk die && coreOk core && turn.wf
  | .gatherNeighbour die core turn => dieOk die && coreOk core && turn.wf
  | .scatterAddMap die core turn => dieOk die && coreOk core && turn.wf
  | .scatterAddRows die core turn => dieOk die && coreOk core && turn.wf
  | .mapGridOpen die core turn => dieOk die && coreOk core && turn.wf
  | .mapGridClose die core turn => dieOk die && coreOk core && turn.wf
  | .gridCloseDrainEnd die core ctx => dieOk die && coreOk core && ctxOk ctx
  | .mapDilate die core turn => dieOk die && coreOk core && turn.wf
  | .mapIndex die core turn => dieOk die && coreOk core && turn.wf
  | .mapRules die core turn => dieOk die && coreOk core && turn.wf
  | .mapWalk die core turn => dieOk die && coreOk core && turn.wf
  | .mapAnd die core turn => dieOk die && coreOk core && turn.wf
  | .hashInsert die core turn => dieOk die && coreOk core && turn.wf
  | .dist die core turn => dieOk die && coreOk core && turn.wf
  | .topkSelect die core turn => dieOk die && coreOk core && turn.wf
  | .topkSuppress die core turn => dieOk die && coreOk core && turn.wf
  | .vec die core turn => dieOk die && coreOk core && turn.wf
  | .vecPredict die core turn => dieOk die && coreOk core && turn.wf
  | .vecAudit die core turn => dieOk die && coreOk core && turn.wf
  | .quant die core turn => dieOk die && coreOk core && turn.wf
  | .dmaCopy die core turn => dieOk die && coreOk core && turn.wf
  | .dmaStridedRead die core turn => dieOk die && coreOk core && turn.wf
  | .dmaTranspose die core turn => dieOk die && coreOk core && turn.wf
  | .dmaFill die core turn => dieOk die && coreOk core && turn.wf
  | .creditGet die core ctx => dieOk die && coreOk core && ctxOk ctx
  | .wicketGrant die core => dieOk die && coreOk core
  | .creditReturn die core ctx => dieOk die && coreOk core && ctxOk ctx
  | .wicketFree die core wicket => dieOk die && coreOk core && wicketOk wicket
  | .commandComplete die core ctx _ => dieOk die && coreOk core && ctxOk ctx
  | .sqStop die core mask => dieOk die && coreOk core && decide (mask < 16)
  | .semSet die core sem value => dieOk die && coreOk core && semOk sem && decide (value < 2 ^ 16)
  | .listStart die core ctx => dieOk die && coreOk core && ctxOk ctx
  | .contextResume die core ctx => dieOk die && coreOk core && ctxOk ctx
  | .shutterOn die u group => dieOk die && u.groupOk group
  | .shutterOffRetain die u group => dieOk die && u.groupOk group
  | .shutterOffNoRetain die u group => dieOk die && u.groupOk group
  | .shutterClosed die u group => dieOk die && u.groupOk group
  | .shutterOpened die u group => dieOk die && u.groupOk group
  | .fabricTransaction who addr op meets => who.wf && decide (addr < 2 ^ 48) && op.wf && meetsOk meets
  | .hostAccess bar _ width _ value => meetsOk value.meets && (bar == 0 || bar == 2) && (width == 8 || width == 16 || width == 32 || width == 64) && decide (value.value < 2 ^ width)
  | .hbmScrub die stack off _ => dieOk die && stackOk stack && decide (off < 24 * gib)
  | .hbmImbWindowEnd die stack => dieOk die && stackOk stack
  | .ignovBlockReceive die port block => dieOk die && linkOk port && (block.length == 256)
  | .ignovNak die port last => dieOk die && linkOk port && decide (last < 2 ^ 16)
  | .ignovRetrain die port => dieOk die && linkOk port
  | .ignovTrainingEnd die port badTx badRx => dieOk die && linkOk port && decide (badTx < 2 ^ 34) && decide (badRx < 2 ^ 34)
  | .ignovLinkDownTimeout die port => dieOk die && linkOk port
  | .jobFire die trigger => dieOk die && triggerOk trigger
  | .requestDeadlineExpiry part _ => partOk part
  | .lateLimitExpiry part _ => partOk part
  | .recordEnterRing part => partOk part
  | .recordSend channel => channelOk channel
  | .request channel _ => channelOk channel
  | .cancel channel _ => channelOk channel
  | .resend channel _ => channelOk channel
  | .jobCommit die => dieOk die
  | .ethLinkUp die port => dieOk die && decide (port < 3)
  | .ethLinkDown die port => dieOk die && decide (port < 3)
  | .batchWindowExpiry die cls => dieOk die && classOk cls
  | .bcDone die cls value => dieOk die && classOk cls && decide (value < 2 ^ 32)
  | .bcCommit die cls => dieOk die && classOk cls
  | .prdCommit die core entry => dieOk die && coreOk core && decide (entry < 16)
  | .prdReenable die core entry => dieOk die && coreOk core && decide (entry < 16)
  | .bellDoorbell who die _ => who.wf && dieOk die
  | .bellHoldSet die w => dieOk die && decide (w < 32)
  | .bellHoldClr die w => dieOk die && decide (w < 32)
  | .bellClaim who die target => who.wf && dieOk die && targetOk target
  | .bellComplete die target source => dieOk die && targetOk target && sourceOk source
  | .moderationTimerExpiry vector => vectorOk vector
  | .msixUnmask vector => vectorOk vector
  | .pcieD0Entry _ width gen => decide (width ≤ 8) && decide (gen ≤ 5)
  | .eventPinEdge pin _ _ => pinOk pin
  | .znNetWrite who die zone value => who.wf && dieOk die && zoneOk zone && decide (value < 2 ^ 32)
  | .safetyHeartbeatFrame die part => dieOk die && partOk part
  | .proofListStart die core => dieOk die && coreOk core
  | .proofSlackExpiry die core => dieOk die && coreOk core
  | .proofResult die core => dieOk die && coreOk core
  | .aliveToggle => true
  | .islandHeartbeat die => dieOk die
  | .keeperBeat die => dieOk die
  | .heartbeatMissing die => dieOk die
  | .ulsSafeReq die mask => dieOk die && decide (mask < 256)
  | .ulsSafeRel die mask => dieOk die && decide (mask < 256)
  | .ulsCommit die => dieOk die
  | .mulCommit who die => who.wf && dieOk die
  | .partitionRestartTimeout part => partOk part
  | .warmRestartTimeout => true
  | .coreFail die core => dieOk die && coreOk core
  | .clusterFail die cluster => dieOk die && clusterOk cluster
  | .hbmStack die stack => dieOk die && stackOk stack
  | .dieFail die => dieOk die
  | .partitionRestart part _ => partOk part
  | .packageWarmRestart _ => true
  | .coldStart => true
  | .coldRstNAssert _ => true
  | .supplyOutOfWindow _ => true
  | .thermalTrip die sensor => dieOk die && decide (sensor < 16)
  | .temperatureSample die _ => dieOk die
  | .powerGateUpdate die _ => dieOk die
  | .louvreWindowStart die => dieOk die
  | .pkgReqStandby => true
  | .pkgReqSleep => true
  | .pkgReqRun => true
  | .pkgWakeAt => true
  | .perstDeassert => true
  | .sakRekey die port => dieOk die && decide (port < 3)
  | .mkaPeerTimeout die port => dieOk die && decide (port < 3)
  | .arpRequest die port _ => dieOk die && decide (port < 3)
  | .neighborSolicitation die port _ => dieOk die && decide (port < 3)
  | .nextHopRefresh die port addr _ => dieOk die && decide (port < 3) && decide (addr < 2 ^ 128)
  | .unknownCmd src => src.wf
  | .getInfo src => src.wf
  | .getCert src => src.wf
  | .attest src => src.wf
  | .getParts src => src.wf
  | .readLog src => src.wf
  | .claim src => src.wf
  | .provision src => src.wf
  | .imageBegin src => src.wf
  | .imageData src => src.wf
  | .imageEnd src => src.wf
  | .imageActivate src => src.wf
  | .imageConfirm src => src.wf
  | .rollbackCommit src => src.wf
  | .restartPart src => src.wf
  | .restartWarm src => src.wf
  | .restartCold src => src.wf
  | .resaltGrid src => src.wf
  | .rehashHbm src => src.wf
  | .liftFence src => src.wf
  | .returnPart src => src.wf
  | .testChallenge src => src.wf
  | .testResponse src => src.wf
  | .timeTick => true
  | .perstAssert => true
  | .pcieD3Entry _ _ => true
  | .mkaLivePeer die port peers _ => dieOk die && decide (port < 3) && decide (peers < 256)
  | .nextHopAnswer die port addr mac => dieOk die && decide (port < 3) && decide (addr < 2 ^ 128) && decide (mac < 2 ^ 48)

end Sys2Proof
end

