-- ==== Sys2Proof/Tests/Slice0.lean ====
section
/-! SUPPORT. The smoke test of WellFormed, and for each statement with hypotheses the states and operands that meet them, clause by
clause. -/

namespace Sys2Proof.Tests

set_option Elab.async false

open Sys2Proof Sys2Proof.Machine

/-! ### Well-formed commands -/

theorem test_wf_die : (Instr.timeAdj 8 0).wf = false ∧ (Instr.timeAdj 7 0).wf = true := by decide
theorem test_wf_core : (Instr.nop 0 32 0).wf = false ∧ (Instr.nop 0 31 0).wf = true := by decide
theorem test_wf_ctx : (Instr.nop 0 0 4).wf = false ∧ (Instr.nop 0 0 3).wf = true := by decide
theorem test_wf_engine : (Instr.passBoundary 0 0 4).wf = false ∧ (Instr.passBoundary 0 0 3).wf = true := by decide
theorem test_wf_master : (Instr.pmCommit 0 16).wf = false ∧ (Instr.pmCommit 0 15).wf = true := by decide
theorem test_wf_entry : (Instr.frameHeaderWrite 0 48).wf = false ∧ (Instr.frameHeaderWrite 0 47).wf = true := by decide
theorem test_wf_part : (Instr.recordEnterRing 8).wf = false ∧ (Instr.recordEnterRing 7).wf = true := by decide
theorem test_wf_zone : (Instr.znNetWrite .host 0 64 0).wf = false ∧ (Instr.znNetWrite .host 0 63 0).wf = true := by decide
theorem test_wf_channel : (Instr.recordSend 64).wf = false ∧ (Instr.recordSend 63).wf = true := by decide
theorem test_wf_trigger : (Instr.jobFire 0 256).wf = false ∧ (Instr.jobFire 0 255).wf = true := by decide
theorem test_wf_vector : (Instr.msixUnmask 64).wf = false ∧ (Instr.msixUnmask 63).wf = true := by decide
theorem test_wf_cluster : (Instr.clusterFail 0 8).wf = false ∧ (Instr.clusterFail 0 7).wf = true := by decide
theorem test_wf_stack : (Instr.hbmImbWindowEnd 0 2).wf = false ∧ (Instr.hbmImbWindowEnd 0 1).wf = true := by decide
theorem test_wf_stack_offset :
    (Instr.hbmScrub 0 0 (24 * gib) .ok).wf = false ∧ (Instr.hbmScrub 0 0 (24 * gib - 1) .ok).wf = true := by decide
theorem test_wf_link : (Instr.ignovNak 0 4 0).wf = false ∧ (Instr.ignovNak 0 3 0).wf = true := by decide
theorem test_wf_link_sequence : (Instr.ignovNak 0 0 65536).wf = false ∧ (Instr.ignovNak 0 0 65535).wf = true := by decide
theorem test_wf_lanes :
    (Instr.ignovTrainingEnd 0 0 (2 ^ 34) 0).wf = false ∧ (Instr.ignovTrainingEnd 0 0 0 (2 ^ 34)).wf = false ∧
      (Instr.ignovTrainingEnd 0 0 (2 ^ 34 - 1) (2 ^ 34 - 1)).wf = true := by decide
theorem test_wf_block :
    (Instr.ignovBlockReceive 0 0 []).wf = false ∧ (Instr.ignovBlockReceive 0 0 (List.replicate 256 0)).wf = true := by decide +kernel
theorem test_wf_target : (Instr.bellClaim .host 0 97).wf = false ∧ (Instr.bellClaim .host 0 96).wf = true := by decide
theorem test_wf_source : (Instr.bellComplete 0 0 1024).wf = false ∧ (Instr.bellComplete 0 0 1023).wf = true := by decide
theorem test_wf_class : (Instr.bcCommit 0 8).wf = false ∧ (Instr.bcCommit 0 7).wf = true := by decide
theorem test_wf_sem : (Instr.semSet 0 0 32 0).wf = false ∧ (Instr.semSet 0 0 31 65535).wf = true := by decide
theorem test_wf_sem_value : (Instr.semSet 0 0 0 65536).wf = false := by decide
theorem test_wf_wicket : (Instr.wicketFree 0 0 16).wf = false ∧ (Instr.wicketFree 0 0 15).wf = true := by decide
theorem test_wf_pin : (Instr.eventPinEdge 8 true 0).wf = false ∧ (Instr.eventPinEdge 7 true 0).wf = true := by decide
theorem test_wf_port : (Instr.tsfPop 0 3).wf = false ∧ (Instr.tsfPop 0 2).wf = true := by decide
theorem test_wf_ptp :
    (Instr.ptpEventSend 0 0 true 65536 0 0).wf = false ∧ (Instr.ptpEventSend 0 0 true 0 16 0).wf = false ∧
      (Instr.ptpEventSend 0 0 true 0 0 256).wf = false ∧ (Instr.ptpEventSend 0 0 true 65535 15 255).wf = true := by decide
theorem test_wf_access :
    (Instr.registerWrite .host 0 2 32 0).wf = false ∧ (Instr.registerWrite .host 0 4 64 0).wf = false ∧
      (Instr.registerWrite .host 0 0x1000000 32 0).wf = false ∧ (Instr.registerWrite .host 0 0 16 0).wf = false ∧
      (Instr.registerWrite .host 0 0 32 (2 ^ 32)).wf = false ∧ (Instr.registerWrite .host 0 0xFFFFFC 32 0).wf = true := by decide
theorem test_wf_low_half : (Instr.lowHalfRead .host 0 4).wf = false ∧ (Instr.lowHalfRead .host 0 8).wf = true := by decide
theorem test_wf_rc_read : (Instr.rcRead .host 0 0 32 (2 ^ 32)).wf = false := by decide
theorem test_wf_requester :
    (Instr.bellDoorbell (.keeper 8) 0 0).wf = false ∧ (Instr.bellDoorbell (.unit 8) 0 0).wf = false ∧
      (Instr.bellDoorbell (.context 0 32 0) 0 0).wf = false ∧ (Instr.bellDoorbell .host 0 0).wf = true := by decide
theorem test_wf_fault :
    (Instr.engineFault 0 0 0 8 0 0 0 0).wf = false ∧ (Instr.engineFault 0 0 0 0 0 64 0 0).wf = false ∧
      (Instr.engineFault 0 0 0 0 0 0 0 1).wf = false ∧ (Instr.engineFault 0 0 0 7 0 63 1 1).wf = true := by decide
theorem test_wf_row_error : (Instr.passStoreError 0 0 4 0 .scale).wf = false ∧ (Instr.passStoreError 0 0 3 0 .scale).wf = true := by decide
theorem test_wf_course :
    (Instr.dmaCopy 0 0 ⟨0, ⟨none, [(2 ^ 48, .ok)]⟩⟩).wf = false ∧ (Instr.dmaCopy 0 0 ⟨0, ⟨some 3, [(2 ^ 48 - 1, .rowFails 3)]⟩⟩).wf = true := by decide
theorem test_wf_meets :
    (Instr.fabricTransaction .host 0 (.read 1) [(2 ^ 48, .ok)]).wf = false ∧
      (Instr.hostAccess 0 0 32 false ⟨0, [(2 ^ 48, .ok)]⟩).wf = false := by decide
theorem test_wf_stop_mask : (Instr.sqStop 0 0 16).wf = false ∧ (Instr.sqStop 0 0 15).wf = true := by decide
theorem test_wf_shutter :
    (Instr.shutterOn 0 (.wStore 0) 8).wf = false ∧ (Instr.shutterOn 0 (.aStore 0) 12).wf = false ∧
      (Instr.shutterOn 0 (.pStore 0) 8).wf = false ∧ (Instr.shutterOn 0 (.vault 0) 16).wf = false ∧
      (Instr.shutterOn 0 (.vault 4) 0).wf = false ∧ (Instr.shutterOn 0 (.vault 3) 15).wf = true := by decide
theorem test_wf_transaction :
    (Instr.fabricTransaction .host (2 ^ 48) (.read 1) []).wf = false ∧ (Instr.fabricTransaction .host 0 (.read 257) []).wf = false ∧
      (Instr.fabricTransaction .host 0 (.semaphoreAdd 32 1) []).wf = false ∧
      (Instr.fabricTransaction .host 0 (.semaphoreAdd 31 65536) []).wf = false ∧
      (Instr.fabricTransaction .host 0 (.slotOp (2 ^ 64) 0) []).wf = false ∧
      (Instr.fabricTransaction .host 0 (.slotOp 0 (2 ^ 32)) []).wf = false ∧
      (Instr.fabricTransaction .host 0 (.add 16 []) []).wf = false ∧ (Instr.fabricTransaction .host 0 (.read 256) []).wf = true := by
  decide
theorem test_wf_transaction_length :
    (Instr.fabricTransaction .host 0 (.write (List.replicate 257 0)) []).wf = false ∧
      (Instr.fabricTransaction .host 0 (.add 0 (List.replicate 257 0)) []).wf = false ∧
      (Instr.fabricTransaction .host 0 (.write (List.replicate 256 0)) []).wf = true := by decide +kernel
theorem test_wf_host :
    (Instr.hostAccess 1 0 32 true ⟨0, []⟩).wf = false ∧ (Instr.hostAccess 0 0 24 true ⟨0, []⟩).wf = false ∧
      (Instr.hostAccess 0 0 8 true ⟨256, []⟩).wf = false ∧ (Instr.hostAccess 2 0 8 true ⟨255, []⟩).wf = true := by decide
theorem test_wf_predictor : (Instr.prdCommit 0 0 16).wf = false ∧ (Instr.prdCommit 0 0 15).wf = true := by decide
theorem test_wf_hold : (Instr.bellHoldSet 0 32).wf = false ∧ (Instr.bellHoldSet 0 31).wf = true := by decide
theorem test_wf_pcie : (Instr.pcieD0Entry true 9 0).wf = false ∧ (Instr.pcieD0Entry true 8 6).wf = false ∧
    (Instr.pcieD0Entry true 8 5).wf = true := by decide
theorem test_wf_safe_mask : (Instr.ulsSafeReq 0 256).wf = false ∧ (Instr.ulsSafeReq 0 255).wf = true := by decide
theorem test_wf_sensor : (Instr.thermalTrip 0 16).wf = false ∧ (Instr.thermalTrip 0 15).wf = true := by decide
theorem test_wf_done : (Instr.bcDone 0 0 (2 ^ 32)).wf = false ∧ (Instr.bcDone 0 0 (2 ^ 32 - 1)).wf = true := by decide
theorem test_wf_zone_value : (Instr.znNetWrite .host 0 0 (2 ^ 32)).wf = false := by decide
theorem test_wf_peers : (Instr.mkaLivePeer 0 0 256 true).wf = false ∧ (Instr.mkaLivePeer 0 0 255 true).wf = true := by decide
theorem test_wf_hop :
    (Instr.nextHopAnswer 0 0 (2 ^ 128) 0).wf = false ∧ (Instr.nextHopAnswer 0 0 0 (2 ^ 48)).wf = false ∧
      (Instr.nextHopAnswer 0 0 (2 ^ 128 - 1) (2 ^ 48 - 1)).wf = true := by decide
theorem test_wf_transom :
    (Instr.getInfo (.net false false 0 0 0 (List.replicate 4129 0))).wf = false ∧
      (Instr.getInfo (.net false false 0 0 0 (List.replicate 4128 0))).wf = true ∧
      (Instr.getInfo (.net false false (2 ^ 32) 0 0 [])).wf = false ∧ (Instr.getInfo (.net false true (2 ^ 128 - 1) 0 0 [])).wf = true ∧
      (Instr.getInfo (.net false true 0 65536 0 [])).wf = false ∧ (Instr.getInfo (.net false true 0 0 65536 [])).wf = false := by
  decide +kernel

/-! ### States that meet the hypotheses of the statements -/

/-- The state that effects leave of the reset state. -/
def after (as : List Act) : State := (Act.all as).run State.reset

/-- A state with a byte sequence of numbers `n` bytes wide at an address. -/
def words (a n : Nat) (vs : List Nat) : Act := .put a (vs.flatMap (toLe n))

/-! #### The block as a whole, and time -/

def wQueue : State := { State.reset with pending := [.aliveToggle] }

theorem met_StepRunsTheFrontCommand : wQueue.pending = .aliveToggle :: [] ∧ State.reset.pending = [] := by decide

theorem met_EveryStepKeepsSoundness : wQueue.Sound ∧ ∃ t, step wQueue = .next t := by
  refine ⟨?_, _, rfl⟩
  unfold State.Sound
  decide +kernel

theorem met_ResetValues : (Fld.TIME_INCR ≠ .HG_PHYS) := by decide

/-- TIME_INCR at its least value that lets a slew run, and one below. -/
def wIncr (v : Nat) : State := after [.set .TIME_INCR 0 0 v]

theorem met_TimeAdjStartsASlew :
    (wIncr 2048).Sound ∧ (wIncr 2047).Sound ∧ signed 32 (1 : Word).toNat ≠ 0 ∧ 2048 ≤ (wIncr 2048).rd .TIME_INCR 0 ∧
      signed 32 (0 : Word).toNat = 0 ∧ (wIncr 2047).rd .TIME_INCR 0 < 2048 ∧ (1 : Nat) ≠ 0 := by
  simp only [State.Sound]
  decide +kernel

/-- The watch enabled, its limits at 1, the clock in a quality state and just past the limit. -/
def wWatch (sync : Nat) (en : Nat := 1) : State :=
  after [.set .TIME_WATCH_EN 0 0 en, .set .TIME_STATUS_SYNC 0 0 sync, .set .TIME_WATCH_SERVO_MS 0 0 1, .set .TIME_WATCH_HOLD_S 0 0 1,
    .set .I_SILENCE 0 0 500000, .set .I_HOLD 0 0 500000000]

theorem met_ServoAndHoldover :
    (wWatch 1).Sound ∧ (wWatch 2).Sound ∧ (wWatch 1 0).Sound ∧
      ((wWatch 1).rd .TIME_WATCH_EN 0 = 1 ∧ (wWatch 1).rd .TIME_STATUS_SYNC 0 = 1 ∧
        (wWatch 1).rd .TIME_WATCH_SERVO_MS 0 * 500000 ≤ (wWatch 1).rd .I_SILENCE 0) ∧
      ((wWatch 2).rd .TIME_WATCH_EN 0 = 1 ∧ (wWatch 2).rd .TIME_STATUS_SYNC 0 = 2 ∧
        (wWatch 2).rd .TIME_WATCH_HOLD_S 0 * 500000000 ≤ (wWatch 2).rd .I_HOLD 0) ∧
      (wWatch 1 0).rd .TIME_WATCH_EN 0 = 0 ∧ (wWatch 2).rd .TIME_STATUS_SYNC 0 ≠ 1 ∧ (wWatch 1).rd .TIME_STATUS_SYNC 0 ≠ 2 := by
  simp only [State.Sound]
  decide +kernel

/-- A slew with a remainder at its step and one below it; a pending step. -/
def wSlew (mag : Nat) : State :=
  after [.set .TIME_STATUS_SLEWING 0 0 1, .set .I_SLEW_MAG 0 0 mag, .set .TIME_INCR 0 0 4096]

def wStep : State := after [.set .TIME_SET_SEC 0 0 7, .eff (.reg .pend .TIME_SET_SEC 0 0 7), .set .TIME_STATUS_COMMIT_PENDING 0 0 1]

theorem met_TickMovesDeviceTime :
    State.reset.Sound ∧ (wSlew 2).Sound ∧ (wSlew 1).Sound ∧ wStep.Sound ∧
      (State.reset.rd .TIME_STATUS_COMMIT_PENDING 0 = 0 ∧ State.reset.rd .TIME_STATUS_SLEWING 0 = 0) ∧
      ((wSlew 2).rd .TIME_STATUS_COMMIT_PENDING 0 = 0 ∧ (wSlew 2).rd .TIME_STATUS_SLEWING 0 = 1 ∧ (wSlew 2).rd .TIME_INCR 0 / 2048 ≠ 0 ∧
        (wSlew 2).rd .TIME_INCR 0 / 2048 ≤ (wSlew 2).rd .I_SLEW_MAG 0) ∧
      ((wSlew 1).rd .TIME_STATUS_COMMIT_PENDING 0 = 0 ∧ (wSlew 1).rd .TIME_STATUS_SLEWING 0 = 1 ∧
        (wSlew 1).rd .I_SLEW_MAG 0 < (wSlew 1).rd .TIME_INCR 0 / 2048) ∧
      wStep.rd .TIME_STATUS_COMMIT_PENDING 0 = 1 := by
  simp only [State.Sound]
  decide +kernel

/-- Stamps in the FIFO of port 2 of die 0. -/
def wStamps (n : Nat) : State :=
  after [.aux fun a => { a with stamps := (List.range n).map fun k => ⟨0, 2, 0, k, 0, k, 1, 0⟩ }]

theorem met_StampFifos :
    (wStamps 64).Sound ∧ (wStamps 63).Sound ∧ (wStamps 0).Sound ∧ (wStamps 0).dieThere 0 = true ∧ (wStamps 63).dieThere 0 = true ∧
      (wStamps 64).dieThere 0 = true ∧ portThere 0 2 = true ∧ ((wStamps 63).stampsOf 0 2).length < 64 ∧
      64 ≤ ((wStamps 64).stampsOf 0 2).length ∧ (wStamps 64).quietSource 0 (0x050 + 2) ∧ (wStamps 64).rd .BELL_HOLDING 0 = 0 ∧
      bellBit (wStamps 64) .BELL_PEND 0 (0x050 + 2) = false ∧ ((wStamps 63).stampsOf 0 2).head? = some ⟨0, 2, 0, 0, 0, 0, 1, 0⟩ ∧
      (wStamps 0).stampsOf 0 2 = [] := by
  simp only [State.Sound, State.quietSource]
  decide +kernel

/-- Azimuth master 15 of die 0 in a state, at the tick at which its packet timeout ends, having coasted `turns` revolutions. -/
def wMaster (st turns : Nat) (kind : Nat := 1) : State :=
  after [.setAc .PM_CTRL_KIND 0 15 kind, .setAc .PM_CTRL_STREAM 0 15 47, .set .PM_STATUS_STATE 0 15 st, .setAc .PM_TIMEOUT_US 0 15 1,
    .setAc .PM_TIMEOUT_REVS 0 15 2, .set .I_TICKS 0 0 500, .set .I_PM_COAST_TURNS 0 15 turns]

theorem met_MastersCoastAndAreLost :
    (wMaster 1 0).Sound ∧ (wMaster 2 2).Sound ∧ (wMaster 1 0 0).Sound ∧ (wMaster 1 0).dieThere 0 = true ∧
      (wMaster 2 2).dieThere 0 = true ∧ (wMaster 1 0 0).dieThere 0 = true ∧
      ((wMaster 1 0).pmAzimuth 0 15 = true ∧ (wMaster 1 0).rd .PM_STATUS_STATE 0 15 = 1 ∧
        (wMaster 1 0).rd .I_PM_PKT_TICK 0 15 < (wMaster 1 0).ticks ∧
        (wMaster 1 0).rd .I_PM_PKT_TICK 0 15 + (wMaster 1 0).ac .PM_TIMEOUT_US 0 15 * 500 ≤ (wMaster 1 0).ticks) ∧
      ((wMaster 2 2).pmAzimuth 0 15 = true ∧ (wMaster 2 2).rd .PM_STATUS_STATE 0 15 = 2 ∧
        (wMaster 2 2).ac .PM_TIMEOUT_REVS 0 15 ≤ (wMaster 2 2).rd .I_PM_COAST_TURNS 0 15) ∧
      (wMaster 1 0 0).pmAzimuth 0 15 = false ∧ (wMaster 2 2).rd .PM_STATUS_STATE 0 15 ≠ 1 ∧
      (wMaster 1 0).rd .PM_STATUS_STATE 0 15 ≠ 2 := by
  simp only [State.Sound]
  decide +kernel

/-! #### Shadow sets -/

/-- Shadow copies that differ from what the units act on, and sets that fail each check. -/
def wShadow : State :=
  after [.set .TIME_SET_SEC 0 0 5, .set .PM_PERIOD_NS 0 15 7, .set .PE_TARGET 0 255 9, .set .BC_WINDOW_US 0 7 4, .set .PRD_THRESH 0 511 3,
    .set .MUL_BASE 0 63 6, .set .SE_STREAM_ID 0 47 8, .set .JT_DESC 0 255 64, .set .ZN_K 0 63 2]

def wBadSets : State := after [.set .SE_VALID 0 47 1, .set .SE_KIND 0 47 3, .set .PT_SLOT_LOG2 0 7 14, .set .ZN_VALID 0 63 1, .set .ZN_NVERT 0 63 9]

theorem met_CommitsTakeASnapshot :
    wShadow.Sound ∧ wShadow.dieThere 0 = true ∧ (15 : Nat) < 16 ∧ wShadow.ingRefusal 0 = none ∧ wShadow.badSlotLog = none ∧
      wShadow.ulsRefusal 0 = none ∧ wBadSets.Sound ∧ wBadSets.dieThere 0 = true ∧ wBadSets.ingRefusal 0 = some (2, 47) ∧
      wBadSets.badSlotLog = some 7 ∧ wBadSets.ulsRefusal 0 = some (1, 63) := by
  simp only [State.Sound]
  decide +kernel

/-- A PTP-modulo master that runs, an active seal, and phase-event entries of each kind that is passed at once. -/
def wUnits : State :=
  after [.set .PM_PERIOD_NS 0 15 7, .setAc .PM_CTRL_KIND 0 15 2, .setAc .PM_PERIOD_NS 0 15 1, .setAc .PE_VALID 0 255 1]

def wTable : State :=
  after [.set .PE_VALID 0 255 1, .set .PE_KIND 0 255 4, .set .PE_BASE 0 255 1, .set .PE_VALID 0 254 1, .set .PE_KIND 0 254 5,
    .set .PE_BASE 0 254 1, .set .PE_VALID 0 253 1, .set .PE_BASE 0 253 1, .set .PE_INSTANT 0 253 1, .set .MUL_BASE 0 63 6]

theorem met_CommitsActiveAtOnce :
    wUnits.Sound ∧ wTable.Sound ∧ wUnits.dieThere 0 = true ∧ wTable.dieThere 0 = true ∧ wTable.pmStopped 0 15 = true ∧
      wUnits.pmStopped 0 15 = false ∧ wTable.anySeal 0 = false ∧ wUnits.anySeal 0 = true := by
  simp only [State.Sound]
  decide +kernel

/-! #### The Bell -/

/-- Source 1023 of die 0 pending, held, in a held word. -/
def wBell (pend held holding : Nat) : State :=
  after [.set .BELL_PEND 0 31 (pend * 2 ^ 31), .set .I_BELL_HELD 0 31 (held * 2 ^ 31), .set .BELL_HOLDING 0 0 (holding * 2 ^ 31)]

/-- A word for source 1023. -/
def ring1023 : Word := 0xABCD_03FF

theorem met_DoorbellsArrive :
    (wBell 0 0 0).Sound ∧ (wBell 0 0 0).dieThere 0 = true ∧ (wBell 1 0 0).Sound ∧ (wBell 1 0 0).dieThere 0 = true ∧
      (wBell 1 0 1).Sound ∧ (wBell 1 0 1).dieThere 0 = true ∧ (wBell 0 1 1).Sound ∧ (wBell 0 1 1).dieThere 0 = true ∧
      (wBell 0 0 1).Sound ∧ (wBell 0 0 1).dieThere 0 = true ∧
      ¬ (bits (0x23FF : Word).toNat 13 3 = 0 ∧ mayRing .host 1023 = true) ∧ ¬ (bits (0xFF : Word).toNat 13 3 = 0 ∧ mayRing .host 0xFF = true) ∧
      (bits ring1023.toNat 13 3 = 0 ∧ mayRing .host (bits ring1023.toNat 0 10) = true) ∧
      (bits (0x100 : Word).toNat 13 3 = 0 ∧ mayRing .host 0x100 = true) ∧
      (bit ((wBell 1 0 0).rd .BELL_HOLDING 0) 31 = false ∧ bellBit (wBell 1 0 0) .BELL_PEND 0 1023 = true) ∧
      (bit ((wBell 1 0 1).rd .BELL_HOLDING 0) 31 = true ∧ bellBit (wBell 1 0 1) .BELL_PEND 0 1023 = true) ∧
      (bit ((wBell 0 1 1).rd .BELL_HOLDING 0) 31 = true ∧ bellBit (wBell 0 1 1) .I_BELL_HELD 0 1023 = true) ∧
      (bit ((wBell 0 0 1).rd .BELL_HOLDING 0) 31 = true ∧ bellBit (wBell 0 0 1) .BELL_PEND 0 1023 = false ∧
        bellBit (wBell 0 0 1) .I_BELL_HELD 0 1023 = false) ∧
      (bit ((wBell 0 0 0).rd .BELL_HOLDING 0) 31 = false ∧ bellBit (wBell 0 0 0) .BELL_PEND 0 1023 = false ∧
        (wBell 0 0 0).quietSource 0 1023) := by
  simp only [State.Sound, State.quietSource]
  decide +kernel

theorem met_BellWordsAreHeldAndReleased :
    (wBell 1 1 1).Sound ∧ (wBell 1 1 1).dieThere 0 = true ∧ (31 : Nat) < 32 ∧ ∀ b < 32, (wBell 1 1 1).quietSource 0 (31 * 32 + b) := by
  simp only [State.Sound, State.quietSource]
  decide +kernel

/-- Source 1023 shown to a kind of target, pending or active. -/
def wClaim (kind index pend active : Nat) : State :=
  after [.set .BELL_TGT_KIND 0 1023 kind, .set .BELL_TGT_INDEX 0 1023 index, .set .BELL_PEND 0 31 (pend * 2 ^ 31), .set .BELL_MASK 0 31 0,
    .set .BELL_ACTIVE 0 31 (active * 2 ^ 31), .set .BELL_REC 0 1023 1023, .set .I_BELL_ACT_TGT 0 1023 (if kind == 1 then 0 else 33 + index)]

theorem met_ClaimsAndCompletions :
    (wClaim 1 0 1 0).Sound ∧ (wClaim 3 63 1 0).Sound ∧ (wClaim 3 63 0 1).Sound ∧ (wClaim 1 0 1 0).dieThere 0 = true ∧
      (wClaim 3 63 1 0).dieThere 0 = true ∧ (wClaim 3 63 0 1).dieThere 0 = true ∧ (wClaim 1 0 1 0).dieThere 1 = true ∧
      (claimable 0 0 = true ∧ presented (wClaim 1 0 1 0) 0 0 = some (0, 1023)) ∧
      (claimable 0 96 = true ∧ presented (wClaim 3 63 1 0) 0 96 = some (0, 1023)) ∧
      (claimable 0 1 = false ∧ claimable 1 33 = false ∧ presented (wClaim 3 63 1 0) 0 0 = none) ∧
      ((63 : Nat) < 64 ∧ presented (wClaim 3 63 0 1) 0 (33 + 63) = none) ∧
      (bellActives (wClaim 1 0 1 0) 0 0).filter (fun p => p.2 == 1023) = [] ∧
      (bellActives (wClaim 3 63 0 1) 0 96).filter (fun p => p.2 == 1023) = (0, 1023) :: [] := by
  simp only [State.Sound]
  decide +kernel

/-- Host vector 63 armed with a message due, in D0 or D3, under a mask or not; a pending or held message. -/
def wVector (d mask pba held : Nat) : State :=
  after [.set .BELL_MOD_ARMED 0 96 1, .set .I_MOD_SEEN 0 63 1, .set .I_MOD_US 0 63 1, .set .I_TICKS 0 0 500, .set .PCIE_STATUS_DSTATE 0 0 d,
    .set .PCIE_STATUS_LINK 0 0 1, .set .I_MSIX_EN 0 0 1, .set .I_MSIX_MASK 0 63 mask, .set .I_MSIX_FMASK 0 0 0, .set .I_MSIX_PBA 0 63 pba,
    .set .BELL_MOD_HELD 0 96 held, .set .I_PERST 0 0 0]

theorem met_VectorMessages :
    (wVector 0 0 0 0).Sound ∧ (wVector 0 1 0 0).Sound ∧ (wVector 3 0 0 0).Sound ∧ (wVector 0 1 1 0).Sound ∧ (wVector 3 0 0 1).Sound ∧
      (wVector 3 1 0 1).Sound ∧ (63 : Nat) < 64 ∧
      (∀ s ∈ [wVector 0 0 0 0, wVector 0 1 0 0, wVector 3 0 0 0], s.rd .BELL_MOD_ARMED 0 (33 + 63) = 1 ∧ s.rd .I_MOD_SEEN 0 63 ≠ 0 ∧
        s.rd .I_MOD_TICK 0 63 + s.rd .I_MOD_US 0 63 * 500 ≤ s.ticks) ∧
      ((wVector 0 0 0 0).msixReady = true ∧ (wVector 0 0 0 0).rd .I_MSIX_MASK 0 63 = 0 ∧ (wVector 0 0 0 0).rd .I_MSIX_FMASK 0 = 0) ∧
      ((wVector 0 1 0 0).msixReady = true ∧ (wVector 0 1 0 0).rd .I_MSIX_MASK 0 63 = 1) ∧
      ((wVector 3 0 0 0).msixReady = false ∧ (wVector 3 0 0 0).rd .I_PME_EN 0 = 0) ∧
      ((wVector 0 1 1 0).rd .I_MSIX_PBA 0 63 = 1 ∧ (wVector 0 1 1 0).rd .I_MSIX_FMASK 0 = 0 ∧ (wVector 0 1 1 0).msixReady = true) ∧
      (wVector 0 1 0 0).rd .I_MSIX_PBA 0 63 = 0 ∧
      (∀ s ∈ [wVector 3 0 0 1, wVector 3 1 0 1], s.rd .I_PERST 0 = 0 ∧ s.rd .BELL_MOD_HELD 0 (33 + 63) = 1) ∧
      ((wVector 3 0 0 1).rd .I_MSIX_MASK 0 63 = 0 ∧ (wVector 3 0 0 1).rd .I_MSIX_FMASK 0 = 0) ∧
      (wVector 3 1 0 1).rd .I_MSIX_MASK 0 63 = 1 := by
  simp only [State.Sound]
  decide +kernel

/-- Event pin 7, whose latch catches rising edges and has caught 254. -/
def wPin : State := after [.set .LATCH_CFG_EDGE 0 7 1, .set .LATCH_EDGES 0 7 254]

theorem met_EventPinsRing :
    wPin.Sound ∧ (7 : Nat) < 8 ∧ wPin.rd .I_HELD_COLD 0 = 0 ∧ bit (wPin.rd .PKG_WAKE_LATCH 0) 7 = false ∧ latchCatches wPin 7 false = false ∧
      (9 : Nat) < 10 ∧ latchCatches wPin 7 true = true ∧ (10 : Nat) ≤ 10 ∧ wPin.quietSource 0 (0x070 + 7) ∧
      bellBit wPin .BELL_PEND 0 (0x070 + 7) = false ∧ bit (wPin.rd .BELL_HOLDING 0) ((0x070 + 7) / 32) = false := by
  simp only [State.Sound, State.quietSource]
  decide +kernel

/-- Events of one tick: one for another die; one, and two of one stream, for their own; one from another die. -/
def wEvent (entry target targetDie : Nat) : Fired := ⟨0, 0, entry, 0, false, 0, 0, target, targetDie, 5, 0⟩

def wFired (fs : List Fired) (ticks : Nat := 1) : State := after [.set .I_TICKS 0 0 ticks, .aux fun a => { a with fired := fs }]

def wRemote : State := after [.aux fun a => { a with remote := [wEvent 1 2 1] }]

theorem met_DispatchOrder :
    (wFired [wEvent 1 47 0, wEvent 0 47 0]).aux.fired.find? (fun g => g.die == 0 && decide (g.group < 1)) = some (wEvent 1 47 0) ∧
      (wFired [wEvent 1 47 0, wEvent 0 47 0]).ticks = 1 ∧ (wFired [wEvent 1 47 0] 0).ticks = 0 ∧
      (wFired [wEvent 1 47 0] 0).aux.fired.find? (fun g => g.die == 0 && decide (g.group < 0)) = none := by decide +kernel

theorem met_EventsAreDelivered :
    (wFired [wEvent 1 47 1]).Sound ∧ (wFired [wEvent 1 47 0]).Sound ∧ (wFired [wEvent 1 47 0, wEvent 0 47 0]).Sound ∧ wRemote.Sound ∧
      (∀ f ∈ (wFired [wEvent 1 47 1]).dispatchOf 0, f.targetDie ≠ 0 ∧ (wFired [wEvent 1 47 1]).dieThere f.targetDie = true) ∧
      ((wFired [wEvent 1 47 0]).dispatchOf 0 = [wEvent 1 47 0] ∧ (wEvent 1 47 0).targetDie = 0) ∧
      ((wFired [wEvent 1 47 0, wEvent 0 47 0]).dispatchOf 0 = [wEvent 0 47 0, wEvent 1 47 0] ∧ (wEvent 0 47 0).targetDie = 0 ∧
        (wEvent 1 47 0).targetDie = 0 ∧ (wEvent 0 47 0).kind = 0 ∧ (wEvent 1 47 0).kind = 0 ∧
        (wEvent 0 47 0).target = (wEvent 1 47 0).target ∧ (wEvent 0 47 0).target < 48) ∧
      wRemote.remoteOf 1 = [wEvent 1 2 1] := by
  simp only [State.Sound]
  decide +kernel

/-! #### Ranges of memory, decided -/

/-- `State.openHbm`, computed. -/
def openHbmB (s : State) (a len : Nat) : Bool :=
  decide (a < 2 ^ 48) && match placeOf (addrOff a) with
    | .hbm st off => s.placeOn (addrDie a) (.hbm st off) && s.hbmReady (addrDie a) st && decide (off + len ≤ stackBytes)
    | _ => false

theorem openHbm_iff {s : State} {a len : Nat} : s.openHbm a len ↔ openHbmB s a len = true := by
  unfold State.openHbm openHbmB
  cases h : placeOf (addrOff a) <;> simp [and_assoc]

/-- `State.OwnRange`, computed. -/
def ownRangeB (x : Cx) (a len : Nat) : Bool :=
  decide (a < 2 ^ 48) && addrDie a == x.die && match placeOf (addrOff a) with
    | .store c off => c == x.core && storeRangeOk off len
    | _ => false

theorem ownRange_iff {s : State} {x : Cx} {a len : Nat} : s.OwnRange x a len ↔ ownRangeB x a len = true := by
  unfold State.OwnRange ownRangeB
  cases h : placeOf (addrOff a) <;> simp [and_assoc]

/-- `State.vaultReady`, computed. -/
def vaultReadyB (s : State) (x : Cx) (a len : Nat) : Bool :=
  decide (a < 2 ^ 48) && addrDie a == x.die && s.aux.checks == [] && s.aux.flaky == [] &&
  (match placeOf (addrOff a) with
   | .vault k off => decide (off + len ≤ 32 * mib) && s.placeOn x.die (.vault k off) && s.rd .VT_STATE x.die k == 0
   | _ => false) &&
  (match s.tagOf x.who with
   | some tag => (List.range 64).any fun m => s.acOn .MUL_VALID x.die m && !s.acOn .MUL_SAFE_WRITE x.die m &&
      bit (s.ac .MUL_READ x.die m) tag.1 && bit (s.ac .MUL_WRITE x.die m) tag.1 && decide (s.ac .MUL_BASE x.die m ≤ addrOff a / 4096) &&
      decide ((addrOff a + len - 1) / 4096 ≤ s.ac .MUL_LIMIT x.die m)
   | none => false)

theorem vaultReady_iff {s : State} {x : Cx} {a len : Nat} : s.vaultReady x a len ↔ vaultReadyB s x a len = true := by
  unfold State.vaultReady vaultReadyB
  cases h : placeOf (addrOff a) <;> cases h' : s.tagOf x.who <;> simp [and_assoc]

/-! #### Ingest -/

/-- Every power domain of die 0 on, both stacks up. -/
def powered : Act := .all [.set .PWR_DOM_ON 0 0 0xFFFFFF, .set .HBM_STATUS_STATE 0 0 1, .set .HBM_STATUS_STATE 0 1 1]

/-- Data port 1 of die 0 with addresses. -/
def wPort : Port := ⟨0, 1, 0, 12, 0, 0, 0x0A000001, 24, 0, 0, 0, 0⟩

def wImage : Image :=
  ⟨0x60000, 4096, [], [], 0, 0, 0, 0, 1, [], [], [], [], [wPort], [], [], []⟩

/-- Port 1 of die 0 up and secured, stream 47 of a kind that takes its datagrams. -/
def wNet (link : Nat := 1) : State :=
  after [.set .ETH_STATUS_LINK 0 1 link, .set .ETH_STATUS_SECURE 0 1 1, .aux fun a => { a with image := some wImage },
    .setAc .SE_VALID 0 47 1, .setAc .SE_KIND 0 47 1, .setAc .SE_PORT 0 47 1, .setAc .SE_SRC_ADDR 0 (4 * 47) 0x0A000002,
    .setAc .SE_UDP_DST 0 47 5000]

/-- The same with the Keeper's queue full. -/
def wFull : State :=
  (Act.aux fun a => { a with keeperQueue := List.replicate (Config.keeperQueueCap + 1) ⟨0, [], [], []⟩ }).run (wNet)

/-- A frame to the port's MAC address. -/
def wFrame (etype : Nat) (body : List Byte) : List Byte := toBe 6 0x020000000001 ++ toBe 6 0x020000000002 ++ toBe 2 etype ++ body

/-- An IPv4 datagram for stream 47 without a UDP checksum; the header checksum is the ones' complement of the other words. -/
def wUdp (payload : List Byte) (dst : Nat := 0x0A000001) : List Byte :=
  let n := payload.length
  let head := fun sum => toBe 2 0x4500 ++ toBe 2 (28 + n) ++ toBe 4 0 ++ toBe 2 0x4011 ++ toBe 2 sum ++ toBe 4 0x0A000002 ++ toBe 4 dst
  head (65535 - wordSum (head 0) % 65535) ++ toBe 2 4000 ++ toBe 2 5000 ++ toBe 2 (8 + n) ++ toBe 2 0 ++ payload

def wDatagram (payload : List Byte) : Datagram := ⟨false, none, 0x0A000002, 0x0A000001, 4000, 5000, payload⟩

theorem met_FramesAreClassified :
    (wNet).Sound ∧ (wNet 0).Sound ∧ (wNet).dieThere 0 = true ∧ (wNet 0).dieThere 0 = true ∧ (1 : Nat) < 2 ∧
      ¬ ((wNet 0).portPasses 0 1 = true ∧ (wNet 0).macForPort 0 1 (wFrame 0x88F7 []) = true) ∧ (wNet).portPasses 0 1 = true ∧
      (∀ f ∈ [wFrame 0x0800 [], wFrame 0x0800 (wUdp [1]), wFrame 0x88F7 [], wFrame 0x9999 []], (wNet).macForPort 0 1 f = true) ∧
      (wNet).classify 0 1 (wFrame 0x0800 []) = .bad ∧
      (wNet).classify 0 1 (wFrame 0x0800 (wUdp [1] 0x0A000009)) = .foreign ∧
      (wNet).classify 0 1 (wFrame 0x88F7 []) = .ptp ∧ (wNet).classify 0 1 (wFrame 0x9999 []) = .other ∧
      (wNet).classify 0 1 (wFrame 0x0800 (wUdp [1])) = .udp (wDatagram [1]) ∧ (wNet).streamOf 0 1 (wDatagram [1]) = some 47 ∧
      (wNet).ac .SE_KIND 0 47 ≠ 0 ∧ (wNet).rd .PKG_STATE 0 = 0 ∧
      queueBytes 0 (wNet).aux.packets + (wDatagram [1]).payload.length ≤ 256 * 1024 := by
  simp only [State.Sound]
  decide +kernel

theorem met_FramesAreClassified_room :
    ((wNet).aux.keeperQueue.filter fun q => q.die == 0).length ≤ Config.keeperQueueCap := by
  rw [show (wNet).aux.keeperQueue = [] from rfl]
  exact Nat.zero_le _

theorem met_FramesAreClassified_full :
    wFull.Sound ∧ wFull.dieThere 0 = true ∧ wFull.portPasses 0 1 = true ∧ wFull.macForPort 0 1 (wFrame 0x9999 []) = true ∧
      wFull.classify 0 1 (wFrame 0x9999 []) = .other ∧ ¬ (wFull.aux.keeperQueue.filter fun q => q.die == 0).length ≤ Config.keeperQueueCap := by
  refine ⟨?_, by decide +kernel, by decide +kernel, by decide +kernel, by decide +kernel, ?_⟩
  · simp only [State.Sound]
    decide +kernel
  · rw [show wFull.aux.keeperQueue = List.replicate (Config.keeperQueueCap + 1) ⟨0, [], [], []⟩ from rfl, List.filter_eq_self.mpr (by simp)]
    simp

/-- A pose sample in a packet of stream 47, its norm at the lower bound; with a sample held that is newer. -/
def wSample (q time : Nat) : List Byte :=
  toLe 2 0x5058 ++ [1, 1] ++ toLe 4 0 ++ toLe 8 time ++ toLe 4 1 ++ toLe 4 2 ++ toLe 4 3 ++ toLe 4 q ++ toLe 4 q ++ toLe 12 0

def wPose (q held : Nat) : State :=
  after [.setAc .SE_KIND 0 47 1, .aux fun a => { a with
    packets := [⟨0, 47, 0, 0, false, wSample q 5⟩], poses := [⟨0, 47, held, 0, 0, 0, 2 ^ 30, 0, 0, 0⟩] }]

/-- A point packet of one point, whose x is its byte, for a template of `scale`, and its frame. -/
def wFrameOpen (base count cap : Nat) : Frame :=
  { die := 0, entry := 47, seq := 0, base := base, buf := some 0, bufAddr := 0x1000, count := count, cap := cap }

def wPoint (payload : List Byte) (scale base : Nat) : State :=
  after [powered, .setAc .TPL_BLOCKS 0 0 1, .setAc .TPL_POINTS 0 0 1, .setAc .TPL_FIELD 0 0 0x3000, .setAc .TPL_SCALE 0 0 scale,
    .setAc .SE_POSE 0 47 63, .setAc .SE_CPOSE_Q 0 (4 * 47) (2 ^ 30),
    .aux fun a => { a with packets := [⟨0, 47, 0, 0, false, payload⟩], frames := [wFrameOpen base 1 2] }]

/-- The decoder's oldest packet, as the statement names it. -/
def oldest (s : State) : Option Packet :=
  let ready := s.aux.packets.filter fun q => q.die == 0 && s.decodable q
  ((ready.filter fun q => q.safety) ++ ready).head?

/-- Whether the statement's pose sample is good. -/
def poseGood (s : State) (p : Packet) : Bool :=
  let f := fun k => signed 32 (leAt p.payload (8 + k) 4)
  let norm := f 20 * f 20 + f 24 * f 24 + f 28 * f 28 + f 32 * f 32
  decide (2 ^ 59 ≤ norm) && decide (norm ≤ 2 ^ 61) &&
    (s.samples p.die p.entry).getLast?.all fun h => decide (h.time < leAt p.payload 8 8)

theorem met_PacketsAreDecoded_pose :
    (∀ s ∈ [wPose (2 ^ 29) 4, wPose (2 ^ 29 - 1) 4, wPose (2 ^ 29) 5], Registers.wf s.regs = true ∧ Memory.wf s.mem = true ∧ Memory.wf s.cfg = true ∧
      oldest s = s.aux.packets.head? ∧ s.ac .SE_KIND 0 47 = 1) ∧
      (wSample (2 ^ 29) 5).length = 48 ∧ leAt (wSample (2 ^ 29) 5) 0 2 = 0x5058 ∧ byteAt (wSample (2 ^ 29) 5) 2 = 1 ∧
      byteAt (wSample (2 ^ 29) 5) 3 = 1 ∧ poseGood (wPose (2 ^ 29) 4) ⟨0, 47, 0, 0, false, wSample (2 ^ 29) 5⟩ = true ∧
      ((wPose (2 ^ 29) 4).samples 0 47).length < 64 ∧
      poseGood (wPose (2 ^ 29 - 1) 4) ⟨0, 47, 0, 0, false, wSample (2 ^ 29 - 1) 5⟩ = false ∧
      poseGood (wPose (2 ^ 29) 5) ⟨0, 47, 0, 0, false, wSample (2 ^ 29) 5⟩ = false := by
  decide +kernel

/-- The fate of the one point. -/
def fateOf (s : State) (payload : List Byte) (base : Nat) : Fate :=
  s.decodePoint 0 47 (s.template 0 47) payload ((s.template 0 47).packetTime payload 0) base false 0 0

theorem met_PacketsAreDecoded_points :
    (∀ s ∈ [wPoint [] 0x3F800000 0, wPoint [5] 0x7FC00000 0, wPoint [5] 0x3F800000 1, wPoint [5] 0x3F800000 0],
      Registers.wf s.regs = true ∧ Memory.wf s.mem = true ∧ Memory.wf s.cfg = true ∧ oldest s = s.aux.packets.head? ∧ s.ac .SE_KIND 0 47 = 0 ∧
      (s.template 0 47).need = 1 ∧ (s.template 0 47).reads 8 = false ∧ (s.template 0 47).blocks = 1 ∧ (s.template 0 47).points = 1) ∧
      (wPoint [5] 0x7FC00000 0).frame 0 47 0 = some (wFrameOpen 0 1 2) ∧ fateOf (wPoint [5] 0x7FC00000 0) [5] 0 = .noReturn ∧
      (wPoint [5] 0x3F800000 1).frame 0 47 0 = some (wFrameOpen 1 1 2) ∧ fateOf (wPoint [5] 0x3F800000 1) [5] 1 = .dropTime ∧
      (wPoint [5] 0x3F800000 0).frame 0 47 0 = some (wFrameOpen 0 1 2) ∧
      fateOf (wPoint [5] 0x3F800000 0) [5] 0 = .kept ⟨5, 0, 0, 0, 0, 0, 0, 0⟩ ∧ (wFrameOpen 0 1 2).safety = false ∧
      (wFrameOpen 0 1 2).buf.isSome = true ∧ (wFrameOpen 0 1 2).count < (wFrameOpen 0 1 2).cap ∧
      openHbmB (wPoint [5] 0x3F800000 0) (0x1000 + 16 * 1) 16 = true := by
  decide +kernel

/-- A sealed frame of stream 47 that owes a record or not, and an open one with a buffer. -/
def wSealed (accepted : Bool) : Frame := { wFrameOpen 0 1 2 with isSealed := true, hdrAddr := 0x2000, accepted := accepted, part := 7 }

def wFrames (f : Frame) : State := after [powered, .aux fun a => { a with frames := [f] }]

theorem met_HeadersAndWriteErrors :
    (∀ f ∈ [wSealed true, wSealed false], (wFrames f).Sound ∧ (wFrames f).dieThere 0 = true ∧ (wFrames f).headerDue 0 47 = some f ∧
      (wFrames f).openHbm f.hdrAddr 64 ∧ f.ended = false) ∧ (wSealed true).accepted = true ∧ (wSealed false).accepted = false ∧
      (∀ f ∈ [wFrameOpen 0 1 2, wSealed true], (wFrames f).Sound ∧ (wFrames f).dieThere 0 = true ∧ (wFrames f).aux.frames = [] ++ f :: [] ∧
        f.die = 0 ∧ f.entry = 47 ∧ f.hdrDone = false ∧ f.buf.isSome = true ∧ 0 < f.count) ∧
      ((wFrames (wFrameOpen 0 1 2)).headerDue 0 47 = none ∧
        ∀ f ∈ (wFrames (wFrameOpen 0 1 2)).aux.frames, ¬ (f.die = 0 ∧ f.entry = 47 ∧ f.hdrDone = false ∧ f.buf.isSome = true ∧ 1 < f.count)) := by
  simp only [State.Sound, openHbm_iff]
  decide +kernel

/-! #### The sequencer -/

/-- Context 0 of core 0 of die 0 runs a list at the start of its A-store whose first command has these words. -/
def listed (ws : List Nat) (as : List Act := []) : State :=
  after ([powered, words (storeAddr 0 0 0) 4 ws, .set .CTX_STATE 0 0 1] ++ as)

/-- The command that the context issues next. -/
def cmdOf (s : State) : Issue := s.nextCmd 0 0 0

/-- `State.atCommand` of that context and command, for a sound state. -/
def ready (s : State) : Prop := s.Sound ∧ s.atCommand 0 0 0 (cmdOf s)

/-- A command without SIG needs no semaphore without a waiter. -/
theorem noWaiter_of_sig {s : State} {die core : Nat} {i : Issue} (h : i.sig = false) : s.noWaiter die core i := by
  simp [State.noWaiter, h]

def wNop : State := listed [0x01]
def wNopSig : State := listed [0x3F0001] [.set .SEM_VALUE 0 31 65535]
def wFence : State := listed [0x08, 0x13F]

theorem met_NopAndFence :
    ready wNop ∧ (cmdOf wNop).op = 0x01 ∧ (cmdOf wNop).sig = false ∧ ready wFence ∧ (cmdOf wFence).op = 0x08 ∧ (cmdOf wFence).sig = false ∧
      ready wNopSig ∧ (cmdOf wNopSig).op = 0x01 ∧ (cmdOf wNopSig).sig = true ∧ wNop.noWaiter 0 0 (cmdOf wNop) ∧
      wFence.noWaiter 0 0 (cmdOf wFence) ∧ wNopSig.noWaiter 0 0 (cmdOf wNopSig) := by
  simp only [ready, State.Sound, State.atCommand, State.noWaiter]
  decide +kernel

/-- A command in flight. -/
def flying (words : List Nat) (units : Nat) (ending : Option Ending := none) (id : Nat := 1) : Flight :=
  { id := id, cmd := { addr := 0, words := words, cnt := [], row := 0, ord := id }, units := units, tick := 0, ending := ending }

def inFlight (f : Flight) (owner : Owner := .none) : Act := .ctx 0 0 0 fun y => { y with flight := [f], owner := owner }

theorem met_FenceWaits :
    let s := listed [0x08, 0x20] [inFlight (flying [0x38] 32)]
    flying [0x38] 32 ∈ (s.ctx 0 0 0).flight ∧ (flying [0x38] 32).units &&& bits ((s.nextCmd 0 0 0).w 1) 0 6 ≠ 0 := by
  decide +kernel

/-- A command without a row: an unknown opcode, a reserved kind of an opcode that has rows. -/
def wUnknown : State := listed [0x0A]
def wReserved : State := listed [0x320]

/-- A command that cannot be fetched: out of line, past the stores, in a row whose check fails. -/
def wUnfetched (pc : Nat) : State := listed [0x01] [.set .CTX_PC 0 0 pc, .aux fun a => { a with checks := [(storeAddr 0 0 0, 0)] }]

theorem met_InvalidCommandsStopTheList :
    (∀ s ∈ [wUnknown, wReserved, wUnfetched 4, wUnfetched 0xFFFFE0, wUnfetched 0],
      (Registers.wf s.regs = true ∧ Memory.wf s.mem = true ∧ Memory.wf s.cfg = true) ∧
      s.canIssue 0 0 0 (cmdOf s) = true ∧ (s.ctx 0 0 0).again = [] ∧ (s.ctx 0 0 0).flight = [] ∧ (s.ctx 0 0 0).owner = .none ∧
      rowless (cmdOf s) = true ∧ (cmdOf s).cont = false) ∧
      (∀ s ∈ [wUnknown, wReserved], (cmdOf s).words ≠ []) ∧
      (∀ s ∈ [wUnfetched 4, wUnfetched 0xFFFFE0, wUnfetched 0], (cmdOf s).words = []) ∧ (cmdOf (wUnfetched 4)).addr % 32 ≠ 0 ∧
      ((cmdOf (wUnfetched 0xFFFFE0)).addr % 32 = 0 ∧ storeRangeOk (cmdOf (wUnfetched 0xFFFFE0)).addr 32 = false) ∧
      ((cmdOf (wUnfetched 0)).addr % 32 = 0 ∧ storeRangeOk (cmdOf (wUnfetched 0)).addr 32 = true) := by
  decide +kernel

/-- Weights. -/
def wWeights : Weights :=
  { fmt := fmtInt8, k := 1, n := 1, sp24 := false, ganged := false, tile := List.replicate 4096 3, hdr := [], scale := [],
    load := { addr := 0, words := [0x10, 1, 0, 0x10040], cnt := [], row := 0, ord := 0 }, ctx := 0, slice := 0 }

def wEnd : State := listed [0x02] [.engine 0 0 3 fun g => { g with staged := some wWeights }]

def wEndSig : State := listed [0x1F0002 + 2 ^ 21]

theorem met_EndEndsTheList :
    ∀ s ∈ [wEnd, wEndSig], ready s ∧ (cmdOf s).op = 0x02 ∧ s.noWaiter 0 0 (cmdOf s) := by
  simp only [ready, State.Sound, State.atCommand, State.noWaiter]
  decide +kernel

/-- WAIT for 65,535 of semaphore 31, which holds a number, with a time. -/
def wWait (held time : Nat) : State := listed [0x03, 31, 65535, time] [.set .SEM_VALUE 0 31 held]
def wSignal : State := listed [0x04, 0x201F, 65535]
def wSignalFar : State := listed [0x04, 0x1FFF, 65535]

theorem met_SemaphoreCommands :
    (∀ s ∈ [wWait 65535 0, wWait 65534 1, wWait 65534 0, wSignal, wSignalFar], ready s ∧ s.noWaiter 0 0 (cmdOf s)) ∧
      ((cmdOf (wWait 65535 0)).op = 0x03 ∧ bits ((cmdOf (wWait 65535 0)).w 2) 0 16 ≤ (wWait 65535 0).rd .SEM_VALUE 0 31) ∧
      ((cmdOf (wWait 65534 1)).op = 0x03 ∧ (wWait 65534 1).rd .SEM_VALUE 0 31 < bits ((cmdOf (wWait 65534 1)).w 2) 0 16 ∧
        (cmdOf (wWait 65534 1)).timeout ≠ some 0) ∧
      ((cmdOf (wWait 65534 0)).op = 0x03 ∧ (wWait 65534 0).rd .SEM_VALUE 0 31 < bits ((cmdOf (wWait 65534 0)).w 2) 0 16 ∧
        (cmdOf (wWait 65534 0)).timeout = some 0 ∧ (cmdOf (wWait 65534 0)).cont = false ∧ ((wWait 65534 0).ctx 0 0 0).owner = .none) ∧
      ((cmdOf wSignal).op = 0x04 ∧ bit ((cmdOf wSignal).w 1) 13 = true) ∧ (cmdOf wSignalFar).op = 0x04 ∧
      bit ((cmdOf wSignalFar).w 1) 13 = false := by
  simp only [ready, State.Sound, State.atCommand, State.noWaiter]
  decide +kernel

/-- An add on its way to semaphore 31 from context 3 of its own core; a wait whose time has just passed. -/
def wAdd (value : Nat) : State :=
  after [.set .SEM_VALUE 0 31 value, .ctx 0 0 3 fun y => { y with flight := [flying [0x04] 0 none 5] },
    .aux fun a => { a with semAdds := [⟨0, 0, 31, 1, 0, 0, 3, 5⟩] }]

def wWaited : State := listed [] [.set .CTX_STATE 0 0 2, .set .I_TICKS 0 0 500, inFlight (flying [0x03, 31, 1, 1] 0)]

theorem met_AddsArriveAndWaitsTimeOut :
    (wAdd 65534).Sound ∧ (wAdd 65535).Sound ∧ wWaited.Sound ∧ (0 : Nat) < 32 ∧ (3 : Nat) < 4 ∧
      (∀ s ∈ [wAdd 65534, wAdd 65535], s.aux.semAdds.find? (fun x => x.die == 0 && x.core == 0) = some ⟨0, 0, 31, 1, 0, 0, 3, 5⟩ ∧
        ∀ x < 4, s.ctxState 0 0 x ≠ 2) ∧
      wWaited.waiting 0 0 0 = some (flying [0x03, 31, 1, 1] 0) ∧ (flying [0x03, 31, 1, 1] 0).cmd.timeout = some 1 ∧
      wWaited.ctxState 0 0 0 = 2 ∧ (flying [0x03, 31, 1, 1] 0).tick + 1 * 500 ≤ wWaited.ticks := by
  simp only [State.Sound]
  decide +kernel

/-- WAIT_BELL for source 1023 from any die, into counter 7. -/
def wWaitBell (pend : Nat) : State :=
  listed [0x05, 0x23FF, 0x10000, 7] [.set .BELL_TGT_KIND 0 1023 2, .set .BELL_PEND 0 31 (pend * 2 ^ 31), .set .BELL_MASK 0 31 0,
    .set .BELL_REC 0 1023 0xABCD03FF]

theorem met_WaitBell :
    (∀ s ∈ [wWaitBell 1, wWaitBell 0], ready s ∧ s.noWaiter 0 0 (cmdOf s) ∧ (cmdOf s).op = 0x05) ∧
      (wWaitBell 1).bellMet 0 0 ((cmdOf (wWaitBell 1)).w 1) = true ∧ (wWaitBell 0).bellMet 0 0 ((cmdOf (wWaitBell 0)).w 1) = false ∧
      (cmdOf (wWaitBell 0)).timeout ≠ some 0 := by
  simp only [ready, State.Sound, State.atCommand, State.noWaiter]
  decide +kernel

/-- LOOP with a body and a count and with loops already active; the last of a loop's body is at hand. -/
def wLoop (body count depth : Nat) : State :=
  listed [0x06, body, count, 7] [.ctx 0 0 0 fun y => { y with loops := List.replicate depth ⟨0, 32, 2, 0, 6⟩ }]

/-- BRANCH_CNT with an operation and a condition on counter 7, to a target `off` commands away. -/
def wBranch (op cond value off : Nat) (ctr : Nat := 7) : State :=
  listed [0x07 + 256 * (op + 16 * cond), ctr, value, off, 0x20] [.set .CTX_CNT 0 7 5, .set .CTX_CFLAGS 0 0 0x30]

/-- The value that the statement computes for the counter. -/
def branchCount (s : State) : Nat :=
  let i := cmdOf s
  let op := bits i.mode 0 2
  if op = 0 then s.counter 0 0 0 7 else if op = 1 then i.w 2 else if op = 2 then (s.counter 0 0 0 7 + i.w 2) % 2 ^ 32
    else s.le (storeAddr 0 0 ((⟨0, 0, 0, i⟩ : Cx).la 2)) 4

theorem met_LoopsAndBranches_loop :
    (∀ s ∈ [wLoop 4095 1 3, wLoop 0 1 0, wLoop 1 0 1, wLoop 1 1 4], ready s ∧ s.noWaiter 0 0 (cmdOf s) ∧ (cmdOf s).addr < 2 ^ 24 ∧
      (cmdOf s).op = 0x06) ∧
      (bits ((cmdOf (wLoop 4095 1 3)).w 1) 0 12 ≠ 0 ∧ (cmdOf (wLoop 4095 1 3)).w 2 ≠ 0 ∧ ((wLoop 4095 1 3).ctx 0 0 0).loops.length < 4) ∧
      bits ((cmdOf (wLoop 0 1 0)).w 1) 0 12 = 0 ∧ (cmdOf (wLoop 1 0 1)).w 2 = 0 ∧
      (bits ((cmdOf (wLoop 1 1 4)).w 1) 0 12 ≠ 0 ∧ (cmdOf (wLoop 1 1 4)).w 2 ≠ 0 ∧ 4 ≤ ((wLoop 1 1 4).ctx 0 0 0).loops.length ∧
        (cmdOf (wLoop 1 1 4)).cont = false ∧ ((wLoop 1 1 4).ctx 0 0 0).owner = .none) := by
  simp only [ready, State.Sound, State.atCommand, State.noWaiter]
  decide +kernel

theorem met_LoopsAndBranches_branch :
    (∀ s ∈ [wBranch 0 0 0 0, wBranch 1 1 9 1, wBranch 2 3 9 2, wBranch 3 2 64 0, wBranch 0 5 0 1, wBranch 1 4 0x80000000 1],
      ready s ∧ s.noWaiter 0 0 (cmdOf s) ∧ (cmdOf s).addr < 2 ^ 24 ∧ (cmdOf s).op = 0x07 ∧ bits (cmdOf s).mode 4 3 ≤ 5 ∧
        bits ((cmdOf s).w 1) 0 3 ≠ 0 ∧ s.suspectStore 0 0 = false ∧ storeRangeOk ((⟨0, 0, 0, cmdOf s⟩ : Cx).la 2) 4 = true) ∧
      branchTaken 0 (branchCount (wBranch 0 0 0 0)) 0x30 0x20 = false ∧
      (∀ p ∈ [(wBranch 1 1 9 1, 1), (wBranch 2 3 9 2, 3), (wBranch 3 2 64 0, 2), (wBranch 0 5 0 1, 5), (wBranch 1 4 0x80000000 1, 4)],
        branchTaken p.2 (branchCount p.1) 0x30 0x20 = true ∧ bits (cmdOf p.1).mode 4 3 = p.2 ∧
        0 ≤ ((cmdOf p.1).addr : Int) + 32 * signed 32 ((cmdOf p.1).w 3) ∧
        storeRangeOk (((cmdOf p.1).addr : Int) + 32 * signed 32 ((cmdOf p.1).w 3)).toNat 32 = true) := by
  simp only [ready, State.Sound, State.atCommand, State.noWaiter]
  decide +kernel

theorem met_LoopsAndBranches_stop :
    (∀ s ∈ [wBranch 0 6 0 0, wBranch 1 0 0 0 0, wBranch 0 2 0 0 0, wBranch 1 1 9 0xFFFFFFFF, wBranch 1 1 9 0x80000],
      ready s ∧ s.noWaiter 0 0 (cmdOf s) ∧ (cmdOf s).addr < 2 ^ 24 ∧ (cmdOf s).op = 0x07 ∧ (cmdOf s).cont = false ∧
        (s.ctx 0 0 0).owner = .none) ∧
      5 < bits (cmdOf (wBranch 0 6 0 0)).mode 4 3 ∧
      (bits ((cmdOf (wBranch 1 0 0 0 0)).w 1) 0 3 = 0 ∧ bits (cmdOf (wBranch 1 0 0 0 0)).mode 0 2 ≠ 0) ∧
      (bits ((cmdOf (wBranch 0 2 0 0 0)).w 1) 0 3 = 0 ∧ bits (cmdOf (wBranch 0 2 0 0 0)).mode 4 3 = 2) ∧
      (∀ s ∈ [wBranch 1 1 9 0xFFFFFFFF, wBranch 1 1 9 0x80000], branchTaken 1 (branchCount s) 0x30 0x20 = true ∧
        bits (cmdOf s).mode 4 3 = 1 ∧ bits (cmdOf s).mode 0 2 = 1 ∧ bits ((cmdOf s).w 1) 0 3 ≠ 0) ∧
      ((cmdOf (wBranch 1 1 9 0xFFFFFFFF)).addr : Int) + 32 * signed 32 ((cmdOf (wBranch 1 1 9 0xFFFFFFFF)).w 3) < 0 ∧
      storeRangeOk (((cmdOf (wBranch 1 1 9 0x80000)).addr : Int) + 32 * signed 32 ((cmdOf (wBranch 1 1 9 0x80000)).w 3)).toNat 32 = false := by
  simp only [ready, State.Sound, State.atCommand, State.noWaiter]
  decide +kernel

/-- A command in flight that has ended with a code, with or without CONT. -/
def wEnded (code cont : Nat) : State :=
  listed [] [inFlight (flying [0x30 + cont * 2 ^ 23] 16 (some ⟨code, 0xF, 3⟩)), .set .CTX_CFLAGS 0 0 0x40]

/-- A command in flight that stands at a pre-emption point. -/
def wUnderWay : State := listed [] [inFlight (flying [0x30] 16)]

theorem met_CommandsComplete :
    (∀ p ∈ [(wEnded 0 0, 0, 0), (wEnded 0x10 1, 0x10, 1), (wEnded 0x10 0, 0x10, 0)],
      (Registers.wf p.1.regs = true ∧ Memory.wf p.1.mem = true ∧ Memory.wf p.1.cfg = true) ∧
      mayComplete (p.1.ctx 0 0 0).flight 0 = some (flying [0x30 + p.2.2 * 2 ^ 23] 16 (some ⟨p.2.1, 0xF, 3⟩), ⟨p.2.1, 0xF, 3⟩) ∧
      (flying [0x30 + p.2.2 * 2 ^ 23] 16 (some ⟨p.2.1, 0xF, 3⟩)).cmd.sig = false ∧
      (flying [0x30 + p.2.2 * 2 ^ 23] 16 (some ⟨p.2.1, 0xF, 3⟩)).cmd.cont = (p.2.2 == 1) ∧ (p.1.ctx 0 0 0).stop = none ∧
      (∀ g ∈ (p.1.ctx 0 0 0).flight, g.begun = true ∧ g.cmd.op ≠ 0x02 ∧ g.cmd.op ≠ 0x04) ∧
      (p.1.ctx 0 0 0).flight = [flying [0x30 + p.2.2 * 2 ^ 23] 16 (some ⟨p.2.1, 0xF, 3⟩)] ∧ (p.1.ctx 0 0 0).owner = .none) ∧
      (∀ c ∈ [0, 0x10], (wEnded c 0).noWaiter 0 0 (flying [0x30] 16 (some ⟨c, 0xF, 3⟩)).cmd) ∧
      (wEnded 0x10 1).noWaiter 0 0 (flying [0x30 + 2 ^ 23] 16 (some ⟨0x10, 0xF, 3⟩)).cmd ∧
      (mayComplete ((wEnded 0 0).ctx 0 0 0).flight 1 = none ∧ ((wEnded 0 0).ctx 0 0 0).flight[1]? = none) ∧
      (mayComplete (wWaited.ctx 0 0 0).flight 0 = none ∧ ((wWaited.ctx 0 0 0).flight[0]?.all fun f => !f.underWay) = true) ∧
      (wUnderWay.Sound ∧ (wUnderWay.ctx 0 0 0).flight[0]? = some (flying [0x30] 16) ∧ (flying [0x30] 16).underWay = true) := by
  simp only [State.noWaiter, State.Sound]
  decide +kernel

/-- Context 3 of core 31 in a state. -/
def wCtx (st : Nat) (as : List Act := []) : State := after ([.set .CTX_STATE 0 127 st] ++ as)

theorem met_SequencerEvents :
    (∀ s ∈ [wCtx 1, wCtx 4, wCtx 3, wCtx 3 [.ctx 0 31 3 fun y => { y with ended := true }], wCtx 3 [.set .CTX_STATE 0 126 1]],
      (Registers.wf s.regs = true ∧ Memory.wf s.mem = true ∧ Memory.wf s.cfg = true) ∧ s.dieThere 0 = true) ∧ (31 : Nat) < 32 ∧ (3 : Nat) < 4 ∧
      (∀ x < 4, (wCtx 1).ctxState 0 31 x ≠ 2) ∧
      (∀ s ∈ [wCtx 1, wCtx 4], bit 15 3 = true ∧ s.ctxState 0 31 3 ≠ 0 ∧ s.ctxState 0 31 3 ≠ 5 ∧ (s.ctx 0 31 3).flight = [] ∧
        (s.ctx 0 31 3).stop = none ∧ (s.ctx 0 31 3).owner = .none) ∧
      (∀ s ∈ [wCtx 3, wCtx 3 [.ctx 0 31 3 fun y => { y with ended := true }]], s.ctxState 0 31 3 = 3 ∧ s.higherQuiet 0 31 3 = true ∧
        (s.ctx 0 31 3).flight = [] ∧ (s.ctx 0 31 3).stop = none ∧ ∀ e < 4, (s.engine 0 31 e).drain = false) ∧
      (wCtx 1).ctxState 0 31 3 ≠ 3 ∧ (wCtx 3 [.set .CTX_STATE 0 126 1]).higherQuiet 0 31 3 = false := by
  decide +kernel

/-- A job of partition 7 with a list at `off` for context 0 of core 0. -/
def wList (off : Nat) : JobList := ⟨0, 0, off, 0, 0⟩
def wJob (kind : Nat) (lists : List JobList) : Job :=
  { part := 7, jseq := 9, die := 0, trigger := 255, kind := kind, ord := 1, accepted := 0, tick := 0, ctx := 0, binds := [], lists := lists,
    deadlineUs := 1, lateUs := 0, channel := 0, reqSeq := 0, slot := 3, clsDie := 0, cls := 0 }

/-- That job waits for context 0; the core served partition `last - 1` before. -/
def wStart (last st : Nat) : State :=
  after [.set .PT_STATE 0 7 2, .set .I_CTX_LAST_PART 0 0 last, .set .CTX_STATE 0 0 st, words (storeAddr 0 0 0x100) 4 [7],
    .aux fun a => { a with jobs := [wJob 3 [wList 0x40]] }]

theorem met_ListsStart :
    (∀ s ∈ [wStart 8 0, wStart 0 5, wStart 1 0, wStart 8 1],
      (Registers.wf s.regs = true ∧ Memory.wf s.mem = true ∧ Memory.wf s.cfg = true) ∧ s.dieThere 0 = true ∧
      s.listFor 0 0 0 = some (wJob 3 [wList 0x40], wList 0x40)) ∧
      (∀ s ∈ [wStart 8 0, wStart 0 5, wStart 1 0], s.ctxFree 0 0 0 = true ∧
        (s.rd .I_CTX_LAST_PART 0 0 = (wJob 3 []).part + 1 ∨ s.coreIdle 0 0 = true) ∧ (wJob 3 []).part < 8) ∧
      (wStart 8 0).rd .I_CTX_LAST_PART 0 0 = 8 ∧ (wStart 0 5).rd .I_CTX_LAST_PART 0 0 = 0 ∧ (wStart 1 0).rd .I_CTX_LAST_PART 0 0 = 1 ∧
      (wStart 8 1).ctxFree 0 0 0 = false := by
  decide +kernel

/-! #### Registers -/

/-- A capture that waits for the host at the high half of ETH_RX_FRAMES's neighbour. -/
def wCaptured : State :=
  after [.set .SQ_ERRORS 0 31 9, .set .PM_PERIOD_NS 0 15 7, .aux fun a => { a with captures := [⟨.host, 0, 0x20014, 5⟩] }]

/-- Offsets of registers: SQ_ERRORS of core 31, read-clear; PM_CTRL of master 15, shadowed; PM_STATUS of it, read-only; TIME_INCR, of
64 bits; a word that no register has. -/
def offErrors : Nat := 0x2F0018
def offCtrl : Nat := 0x202E0
def offStatus : Nat := 0x202F0
def offIncr : Nat := 0x20010
def offNone : Nat := 0xFFFFFC

theorem met_RegisterAccesses :
    wCaptured.Sound ∧ wCaptured.dieThere 0 = true ∧ accessOk 0 offErrors 64 = false ∧ accessOk 0 2 32 = false ∧
      (∀ off ∈ [offErrors, offCtrl, offStatus, offIncr, offNone, offIncr + 4], accessOk 0 off 32 = true) ∧ isKeeper .host = false ∧
      (∀ off ∈ [offStatus, offNone], ∀ p ∈ regFields 0 off, p.1.info.acc = .ro) ∧ (regFields 0 offStatus).length = 4 ∧
      regFields 0 offNone = [] ∧ (regFields 0 offCtrl).length = 3 ∧
      (∀ p ∈ regFields 0 offCtrl, p.1.info.set ∈ [ShadowSet.pm, .pe, .ing, .bc, .prd, .job, .uls] ∧ p.1.info.acc = .rw ∧
        p.1.info.wide = false) ∧
      regFields 0 offErrors = [(.SQ_ERRORS, 31)] ∧
      (∀ off ∈ [offErrors, offCtrl, offStatus, offNone], wCaptured.capture .host 0 off = none ∧ lowHalf 0 off = false ∧
        highHalf 0 off = false ∧ ∀ p ∈ regFields 0 off, p.1 ≠ .BELL_CLAIM ∧ p.1 ≠ .SEC_RANDOM ∧ p.1.timing = false) ∧
      (wCaptured.capture .host 0 offIncr = none ∧ lowHalf 0 offIncr = true ∧ offIncr ≠ timeNowOff ∧
        ∀ p ∈ regFields 0 offIncr, p.1 ≠ .BELL_CLAIM ∧ p.1 ≠ .SEC_RANDOM ∧ p.1.timing = false ∧ p.1.info.acc ≠ .rc) ∧
      wCaptured.capture .host 0 (offIncr + 4) = some ⟨.host, 0, offIncr + 4, 5⟩ := by
  simp only [State.Sound]
  decide +kernel

/-! #### The engine array -/

def wGang : State := listed [0x112]
/-- LOADW of an INT8 block at the end of W-store into engine 3. -/
def wLoadw : State := listed [0x10, 0x18, 0x1FF000, 0, 0, 0x400040] [words (storeAddr 0 0 0x1FF000) 1 [1, 2, 255]]
/-- STREAM of the largest INT8 pass of one row on engine 3, in accumulate mode; of a pass without rows. -/
def wStream (m : Nat) : State := listed [0x2011, 0x113, m, 0x400080, 0x400000, 0, 0x800000, 0x87FF00]

/-- A course on which nothing happens, and one that meets a check that passes. -/
theorem met_course : ({} : Course).Smooth ∧ (⟨none, [(0, .ok)]⟩ : Course).Smooth := by
  simp [Course.Smooth]

theorem met_EngineCommands_gang : ready wGang ∧ (wGang.usable 0 0).contains 3 = true ∧ (3 : Nat) < 4 ∧ (cmdOf wGang).op = 0x12 := by
  simp only [ready, State.Sound, State.atCommand]
  decide +kernel

theorem met_EngineCommands_load :
    let i := cmdOf wLoadw
    let o := (⟨0, 0, 0, i⟩ : Cx).loadOp
    ready wLoadw ∧ (wLoadw.usable 0 0).contains 3 = true ∧ i.op = 0x10 ∧ bits i.mode 0 2 = 0 ∧ bits (i.w 1) 0 4 = 2 ^ 3 ∧ o.fmt ≤ 8 ∧
      o.fmt ≠ fmtMxfp4 ∧ 1 ≤ o.k ∧ o.k = 64 ∧ o.k ≤ kMax o.fmt false ∧ 1 ≤ o.n ∧ o.n = 64 ∧
      storeRangeOk o.src (o.n * weightRow o.fmt) = true ∧ wLoadw.suspectStore 0 0 = false ∧ ∀ n < 4, (wLoadw.engine 0 0 n).queue = [] := by
  simp only [ready, State.Sound, State.atCommand]
  decide +kernel

theorem met_EngineCommands_stream :
    ∀ p ∈ [(wStream 1, 1), (wStream 0, 0)],
      let i := cmdOf p.1
      let o := (⟨0, 0, 0, i⟩ : Cx).stream
      ready p.1 ∧ (p.1.usable 0 0).contains 3 = true ∧ i.op = 0x11 ∧ bit (i.w 1) 2 = false ∧ bits (i.w 1) 0 2 = 3 ∧ o.kind = 0 ∧
      o.axis = false ∧ o.tiled = false ∧ o.afmt ≤ 8 ∧ o.afmt ≠ fmtMxfp4 ∧ o.wfmt = o.afmt ∧ o.n ≤ 64 ∧ o.k = 128 ∧
      o.k ≤ kMax o.wfmt true ∧ o.acc = true ∧ o.m = p.2 ∧ o.n ≠ 0 ∧ o.pdst % 256 = 0 ∧ 0x800000 ≤ o.pdst ∧ o.pdst + 256 * o.m ≤ 0x880000 ∧
      o.psrc % 256 = 0 ∧ 0x800000 ≤ o.psrc ∧ o.psrc + 256 * o.m ≤ 0x880000 ∧ storeRangeOk o.asrc (o.rowStride * o.m) = true := by
  simp only [ready, State.Sound, State.atCommand]
  decide +kernel

/-- An INT8 pass of two rows, three positions and two columns, in overwrite or accumulate mode. -/
def wPassCmd (acc : Nat) : Issue :=
  { addr := 0, words := [0x11 + acc * 0x2000, 0x110, 2, 0x20003, 0x400000, 0, 0x800000, 0x800000], cnt := [], row := 0, ord := 7 }

def wPass (acc : Nat) : Pass := { ctx := 0, id := 7, cmd := wPassCmd acc, engines := [0] }

/-- Its weights, whose LOADW has read them from the start of W-store. -/
def wActive : Weights :=
  { wWeights with k := 3, n := 2, load := { addr := 0, words := [0x10, 0x11, 0, 0, 0, 0x20003], cnt := [], row := 0, ord := 0 } }

/-- Sums of its first row; the first saturates with its start value. -/
def wSums : List Nat := [1, encode 64 (-9)]

/-- The pass with its first row issued. -/
def wRun (acc : Nat) : Pass := { wPass acc with ws := [wActive], head := some (0, wSums), next := 1 }

/-- The STREAM of the pass in flight. -/
def wPassFlight (acc : Nat) : Flight := { id := 7, cmd := wPassCmd acc, units := 1, tick := 0, ending := none }

def wPassState (acc : Nat) (g : Engine) (as : List Act := []) : State :=
  after ([powered, words (storeAddr 0 0 0x400000) 1 [1, 2, 255], words (storeAddr 0 0 0x400040) 1 [128, 5, 6],
    words (storeAddr 0 0 0x800000) 4 [0x7FFFFFFF, 4], .ctx 0 0 0 fun y => { y with flight := [wPassFlight acc] },
    .set .CTX_STATE 0 0 1, .engine 0 0 0 fun _ => g] ++ as)

def wBoundary (acc : Nat) : State := wPassState acc { queue := [.pass (wPass acc)], active := some wActive }

theorem wPass_plain : ∀ p ∈ [wPass 0, wPass 1, wRun 0, wRun 1], p.Plain 0 0 0 wActive := by
  simp only [Pass.Plain]
  decide +kernel

theorem wRun_standing (acc : Nat) : (wRun acc).Standing wActive wSums := ⟨rfl, rfl, rfl, rfl, rfl, rfl, rfl⟩

theorem met_PassesComputeTheirSums_boundary :
    ∀ acc ∈ [0, 1],
      let s := wBoundary acc
      let g := s.engine 0 0 0
      s.Sound ∧ s.suspectStore 0 0 = false ∧ (0 : Nat) < 32 ∧ (0 : Nat) < 4 ∧ (wPass acc).Plain 0 0 0 wActive ∧
        g.queue = [.pass (wPass acc)] ∧ wPass acc = { ctx := 0, id := 7, cmd := wPassCmd acc, engines := [0] } ∧ g.flight = [] ∧
        g.drain = false ∧ g.staged = none ∧ g.reload = none ∧ g.reloadFail = none ∧ g.active = some wActive := by
  intro acc h
  refine ⟨?_, ?_, by decide, by decide, ?_, rfl, rfl, rfl, rfl, rfl, rfl, rfl, rfl⟩
  · unfold State.Sound
    revert acc
    decide +kernel
  · revert acc
    decide +kernel
  · simp only [List.mem_cons, List.not_mem_nil, or_false] at h
    rcases h with rfl | rfl <;> exact wPass_plain _ (by simp)

/-- An engine in a state, with the pass's STREAM in flight in a context in a state. -/
def wFaulty (g : Engine) (acc : Nat := 0) (st : Nat := 1) : State := wPassState acc g [.set .CTX_STATE 0 0 st]

def wRunning (acc : Nat) : State := wFaulty { flight := [wRun acc] } acc

theorem met_PassesComputeTheirSums_complete :
    ∀ acc ∈ [0, 1],
      let s := wRunning acc
      s.Sound ∧ s.suspectStore 0 0 = false ∧ (wRun acc).Plain 0 0 0 wActive ∧ (s.engine 0 0 0).flight = [wRun acc] ∧
        (wRun acc).Standing wActive wSums ∧ wSums.length = ((wRun acc).op 0 0).n ∧ wPassFlight acc ∈ (s.ctx 0 0 0).flight ∧
        (wRun acc).ctx = 0 ∧ (wPassFlight acc).id = (wRun acc).id := by
  intro acc h
  refine ⟨?_, ?_, ?_, rfl, wRun_standing acc, ?_, by exact List.mem_singleton.mpr rfl, rfl, rfl⟩
  · unfold State.Sound
    revert acc
    decide +kernel
  · revert acc
    decide +kernel
  · simp only [List.mem_cons, List.not_mem_nil, or_false] at h
    rcases h with rfl | rfl <;> exact wPass_plain _ (by simp)
  · revert acc
    decide +kernel

/-- The engine draining; idle with staged weights, and repeating their load; with the pass in its re-run. -/
def wDraining : State := wFaulty { flight := [wRun 0], drain := true } 0 3
def wIdle : State := wFaulty { staged := some wActive }
def wReloading : State := wFaulty { reload := some (wActive, 0) }
def wRerun : State := wFaulty { flight := [{ wRun 0 with rerun := true }] }

theorem met_DrainsFaultsAndStoreErrors :
    (∀ s ∈ [wDraining, wIdle, wReloading, wRerun, wRunning 0],
      (Registers.wf s.regs = true ∧ Memory.wf s.mem = true ∧ Memory.wf s.cfg = true) ∧ s.suspectStore 0 0 = false ∧
      s.provingBy 0 0 0 = none ∧ s.atLimit 0 0 0 = false ∧ (s.usable 0 0).contains 0 = true ∧ 4 ≤ (s.usable 0 0).length ∧
      (s.ctx 0 0 0).stop = none ∧ s.aux.checks = []) ∧
      wDraining.ctxState 0 0 0 = 3 ∧ (wRunning 0).ctxState 0 0 0 ≠ 3 ∧ 1 < ((wRun 0).op 0 0).m ∧ wSums.length = ((wRun 0).op 0 0).n ∧
      (let l := (⟨0, 0, wActive.ctx, wActive.load⟩ : Cx).loadOp
       l.sp24 = false ∧ l.fmt = fmtInt8 ∧ l.k ≤ 64 ∧ l.n ≤ 64 ∧ wActive.slice = 0 ∧ l.src < 0x800000 ∧ storeRangeOk l.src (64 * l.n) = true) := by
  decide +kernel

theorem met_DrainsFaultsAndStoreErrors_engines :
    (wRun 0).Plain 0 0 0 wActive ∧ (wRun 0).Standing wActive wSums ∧
      ((wDraining.engine 0 0 0).flight = [wRun 0] ∧ (wDraining.engine 0 0 0).drain = true) ∧
      ((wIdle.engine 0 0 0).flight = [] ∧ (wIdle.engine 0 0 0).reload = none) ∧
      ((wReloading.engine 0 0 0).flight = [] ∧ (wReloading.engine 0 0 0).reload.isSome = true) ∧
      ((wRerun.engine 0 0 0).flight = [{ wRun 0 with rerun := true }] ∧ (wRun 0).engines = [0]) ∧
      ((wRunning 0).engine 0 0 0).flight = [wRun 0] ∧
      wPassFlight 0 ∈ ((wRunning 0).ctx 0 0 (wRun 0).ctx).flight ∧ (wPassFlight 0).id = (wRun 0).id :=
  ⟨wPass_plain _ (by simp), wRun_standing 0, ⟨rfl, rfl⟩, ⟨rfl, rfl⟩, ⟨rfl, rfl⟩, ⟨rfl, rfl⟩, rfl, List.mem_singleton.mpr rfl, rfl⟩

/-! #### The mover and the wickets -/

/-- DMA from A-store to P-store of the own core: kind, length, stride and format. -/
def wDma (kind len stride fmt : Nat) : State :=
  listed [0x38 + 256 * kind, 0x400000, 0x02000000, 0x800000, 0x02000000, len, stride + fmt * 65536, 0x04030201]
    [words (storeAddr 0 0 0x400000) 1 (List.range 200)]

theorem met_DmaMovesBytes :
    ∀ p ∈ [(0, 3, 0, 0, 3), (1, 128, 64, 0, 128), (2, 4096, 64, fmtInt8, 4096), (2, 8192, 128, fmtInt16, 8192 - 128 + 128), (3, 5, 0, 0, 0)],
      let s := wDma p.1 p.2.1 p.2.2.1 p.2.2.2.1
      let i := cmdOf s
      let x : Cx := ⟨0, 0, 0, i⟩
      let es := fmtBits (bits (i.w 6) 16 4) / 8
      ready s ∧ i.op = 0x38 ∧ s.suspectStore 0 0 = false ∧ bit i.mode 2 = false ∧ bits i.mode 0 2 = p.1 ∧
        x.paOf (i.w 1) (i.w 2) 1 = .ok (storeAddr 0 0 0x400000) ∧ x.paOf (i.w 3) (i.w 4) 3 = .ok (storeAddr 0 0 0x800000) ∧
        s.OwnRange x (storeAddr 0 0 0x800000) (i.w 5) ∧
        (p.1 ≠ 3 → s.OwnRange x (storeAddr 0 0 0x400000) p.2.2.2.2 ∧
          rangesMeet (storeAddr 0 0 0x400000) p.2.2.2.2 (storeAddr 0 0 0x800000) (i.w 5) = false ∧
          (⟨bits i.mode 0 2, storeAddr 0 0 0x400000, i.w 5, bits (i.w 6) 0 16, es⟩ : Move).span = p.2.2.2.2) ∧
        (p.1 = 1 → i.w 5 % 64 = 0 ∧ 64 ≤ bits (i.w 6) 0 16 ∧ bits (i.w 6) 0 16 % 64 = 0) ∧
        (p.1 = 2 → 1 ≤ es ∧ fmtOk (bits (i.w 6) 16 4) = true ∧ bits (i.w 6) 16 4 ≠ fmtXc24 ∧ i.w 5 % (4096 * es) = 0 ∧
          64 * es ≤ bits (i.w 6) 0 16 ∧ bits (i.w 6) 0 16 % 64 = 0) := by
  simp only [ready, State.Sound, State.atCommand, ownRange_iff]
  decide +kernel

/-- CREDIT_GET or CREDIT_RETURN of a window of P-store of core 31, whose wicket 15 context 0 of core 0 holds. -/
def wCredit (op len : Nat) (held : Nat := 1) (time : Nat := 0x10000) (as : List Act := []) : State :=
  listed [op, 0x11F, 64, len, if op == 0x39 then time else 0]
    ([.setAc .MUL_VALID 0 63 1, .setAc .MUL_WRITE 0 63 1, .setAc .MUL_LIMIT 0 63 (2 ^ 33 - 1),
      .set .WK_VALID 0 (wkIdx 31 15) held, .set .WK_STORE 0 (wkIdx 31 15) 1, .set .WK_OFFSET 0 (wkIdx 31 15) 64,
      .set .WK_LENGTH 0 (wkIdx 31 15) 64] ++ as)

/-- CREDIT_GET with no time, its window free, held, or behind another wait. -/
def wGetNow (held : Nat) (waits : List CreditWait := []) : State :=
  wCredit 0x39 64 held 0 [.aux fun a => { a with credits := waits }]

/-- The statement's condition that a wicket is held on exactly the command's window. -/
def wicketHeld (s : State) (w : Nat) : Bool :=
  s.wicketOf 0 31 w 0 0 0 && s.rd .WK_STORE 0 (wkIdx 31 w) == 1 && s.rd .WK_OFFSET 0 (wkIdx 31 w) == 64 &&
    s.rd .WK_LENGTH 0 (wkIdx 31 w) == (cmdOf s).w 3

/-- A wait at core 31 for the window from 128 on, of context 3 of core 0; a returned wicket. -/
def wGrant : State :=
  after [.set .CTX_STATE 0 3 2, .ctx 0 0 3 fun y => { y with flight := [flying [0x39] 32 none 4] }, .set .WK_VALID 0 (wkIdx 31 0) 1,
    .set .WK_LENGTH 0 (wkIdx 31 0) 128, .aux fun a => { a with credits := [⟨0, 31, 0, 128, 64, 0, 0, 3, 4⟩], returning := [(0, 31, 0)] }]

theorem met_WicketsAreGrantedAndReturned :
    (∀ s ∈ [wCredit 0x39 0, wCredit 0x3A 0, wCredit 0x39 64, wCredit 0x3A 64, wCredit 0x3A 64 0, wGetNow 0, wGetNow 1,
        wGetNow 0 [⟨0, 31, 0, 128, 64, 0, 0, 3, 4⟩]],
      ready s ∧ s.noWaiter 0 0 (cmdOf s) ∧
      bits ((cmdOf s).w 1) 5 3 = 0 ∧ bits ((cmdOf s).w 2) 0 24 % 64 = 0 ∧ (cmdOf s).w 3 % 64 = 0 ∧
      s.physCore 0 (bits ((cmdOf s).w 1) 0 5) = 31 ∧ bits ((cmdOf s).w 1) 8 1 = 1 ∧ bits ((cmdOf s).w 2) 0 24 = 64 ∧
      addrDie (storeAddr 0 31 (wkStoreBase 1 + 64)) = 0 ∧ s.placeOn 0 .nowhere = true) := by
  simp only [ready, State.Sound, State.atCommand, State.noWaiter]
  decide +kernel

theorem met_WicketsAreGrantedAndReturned_waits :
    (∀ s ∈ [wCredit 0x39 64, wCredit 0x3A 64, wCredit 0x3A 64 0, wGetNow 0, wGetNow 1, wGetNow 0 [⟨0, 31, 0, 128, 64, 0, 0, 3, 4⟩]],
      s.admits 0 (addrOff (storeAddr 0 31 (wkStoreBase 1 + 64))) (s.rd .CTX_PART 0 (ctxIdx 0 0), s.on .CTX_SAFETY 0 (ctxIdx 0 0)) true = true) ∧
      ((cmdOf (wCredit 0x39 0)).op = 0x39 ∧ (cmdOf (wCredit 0x39 0)).w 3 = 0) ∧
      (∀ s ∈ [wGetNow 0, wGetNow 1, wGetNow 0 [⟨0, 31, 0, 128, 64, 0, 0, 3, 4⟩]], (cmdOf s).op = 0x39 ∧ (cmdOf s).timeout = some 0 ∧
        (cmdOf s).w 3 = 64 ∧ (cmdOf s).cont = false ∧ (s.ctx 0 0 0).owner = .none ∧ s.fencedCore 0 31 = false) ∧
      (wGetNow 0).creditHead 0 31 = none ∧ (wGetNow 1).creditHead 0 31 = none ∧
      ¬ (wGetNow 0 [⟨0, 31, 0, 128, 64, 0, 0, 3, 4⟩]).creditHead 0 31 = none ∧
      ((cmdOf (wCredit 0x3A 0)).op = 0x3A ∧ (cmdOf (wCredit 0x3A 0)).w 3 = 0) ∧
      ((cmdOf (wCredit 0x39 64)).op = 0x39 ∧ (cmdOf (wCredit 0x39 64)).w 3 ≠ 0 ∧ (cmdOf (wCredit 0x39 64)).timeout ≠ some 0) ∧
      ((cmdOf (wCredit 0x3A 64)).op = 0x3A ∧ (cmdOf (wCredit 0x3A 64)).w 3 ≠ 0 ∧
        ((wCredit 0x3A 64).wickets 0 31).filter (wicketHeld (wCredit 0x3A 64)) = [15]) ∧
      (∀ w ∈ (wCredit 0x3A 64 0).wickets 0 31, ¬ wicketHeld (wCredit 0x3A 64 0) w = true) ∧
      (wGrant.Sound ∧ wGrant.creditHead 0 31 = some ⟨0, 31, 0, 128, 64, 0, 0, 3, 4⟩ ∧
        wGrant.grantable ⟨0, 31, 0, 128, 64, 0, 0, 3, 4⟩ = some 1 ∧ wGrant.fencedCore 0 31 = false ∧ wGrant.creditHead 0 30 = none ∧
        (0, 31, 0) ∈ wGrant.aux.returning ∧ (0, 31, 1) ∉ wGrant.aux.returning ∧ wGrant.ctxState 0 0 3 = 2 ∧ (3 : Nat) < 4) := by
  simp only [State.Sound]
  decide +kernel

/-- Whether a wait can be granted does not depend on its number. -/
theorem grantable_id (s : State) (c : CreditWait) (id : Nat) : s.grantable { c with sid := id } = s.grantable c := rfl

theorem met_WicketsAreGrantedAndReturned_now :
    (∀ id, (wGetNow 0).grantable ⟨0, 31, 1, 64, 64, 0, 0, 0, id⟩ = some 0) ∧
      ∀ id, (wGetNow 1).grantable ⟨0, 31, 1, 64, 64, 0, 0, 0, id⟩ = none := by
  refine ⟨fun id => (grantable_id _ ⟨0, 31, 1, 64, 64, 0, 0, 0, 0⟩ id).trans ?_,
    fun id => (grantable_id _ ⟨0, 31, 1, 64, 64, 0, 0, 0, 0⟩ id).trans ?_⟩ <;> decide +kernel

/-! #### Jobs, records and channels -/

/-- A decode request in a slot of class 7 of die 0, and a step of two rows whose descriptor lies at 0x1000 of W-store. -/
def wDec (reqSeq : Nat) (slot : Option Nat) : DecReq :=
  { die := 0, cls := 7, part := 7, channel := 63, reqSeq := reqSeq, ord := reqSeq, accepted := 0, tick := 0, slot := slot }

def wStepRun : StepRun := ⟨0, 7, 4, [5, 63], [5], storeAddr 0 0 0x1000⟩

/-- PUBLISH of bytes at 0x2000 of W-store from a list of the job of partition 7. -/
def wPublish (kind len desc : Nat) (cont : Nat := 0) : State :=
  listed [0x09 + 256 * kind + cont * 2 ^ 23, 0x2000, 0x02000000, len, 0x3000, 0x42, desc, 0x02000000]
    [words (storeAddr 0 0 0x2000) 1 [1, 2, 3, 4], words (storeAddr 0 0 0x1030) 8 [2 ^ 63],
      .ctx 0 0 0 fun y => { y with owner := .job 7 9 },
      .aux fun a => { a with jobs := [wJob 1 []], steps := [wStepRun], decs := [wDec 1 (some 5), wDec 2 (some 63)] }]

/-- What the statement asks of every form. -/
def published (s : State) (len : Nat) : Prop :=
  let i := cmdOf s
  let x : Cx := ⟨0, 0, 0, i⟩
  ready s ∧ s.noWaiter 0 0 i ∧ i.op = 0x09 ∧ s.suspectStore 0 0 = false ∧ (s.ctx 0 0 0).owner = .job 7 9 ∧ s.job 7 9 = some (wJob 1 []) ∧ i.w 3 = len ∧
    x.paOf (i.w 1) (i.w 2) 1 = .ok (storeAddr 0 0 0x2000) ∧ s.OwnRange x (storeAddr 0 0 0x2000) len ∧ storeRangeOk (x.la 4) 4 = true ∧
    s.le (storeAddr 0 0 (x.la 4)) 4 = 0

theorem met_PublishHandsOverRecords :
    published (wPublish 0 960 0) 960 ∧ published (wPublish 1 4 0x1000) 4 ∧ published (wPublish 1 4 0x1040 1) 4 ∧
      (bits (cmdOf (wPublish 0 960 0)).mode 0 2 = 0 ∧ (wJob 1 []).published = false ∧ (wJob 1 []).ended = false ∧
        64 + 48 * (wJob 1 []).binds.length + 960 ≤ (wPublish 0 960 0).slotBytes (wJob 1 []).part) ∧
      (let s := wPublish 1 4 0x1000
       let i := cmdOf s
       let x : Cx := ⟨0, 0, 0, i⟩
       let desc := storeAddr 0 0 0x1000
       bits i.mode 0 2 = 1 ∧ x.paOf (i.w 6) (i.w 7) 6 = .ok desc ∧ desc % 64 = 0 ∧ s.OwnRange x desc 64 ∧
       s.aux.steps.find? (fun r => r.desc == desc) = some wStepRun ∧ s.stepReqs wStepRun = [(0, wDec 1 (some 5)), (1, wDec 2 (some 63))] ∧
       4 % wStepRun.rows.length = 0 ∧ ∀ r ∈ s.stepReqs wStepRun, 64 + 4 / wStepRun.rows.length ≤ s.slotBytes r.2.part) ∧
      (let s := wPublish 1 4 0x1040 1
       let i := cmdOf s
       let x : Cx := ⟨0, 0, 0, i⟩
       let desc := storeAddr 0 0 0x1040
       bits i.mode 0 2 = 1 ∧ x.paOf (i.w 6) (i.w 7) 6 = .ok desc ∧ desc % 64 = 0 ∧ s.OwnRange x desc 64 ∧
       s.aux.steps.find? (fun r => r.desc == desc) = none ∧ i.cont = true) ∧
      ∃ f, f ∈ ((listed [0x09] [inFlight (flying [0x01] 0)]).ctx 0 0 0).flight := by
  simp only [published, ready, State.Sound, State.atCommand, State.noWaiter, ownRange_iff]
  exact ⟨by decide +kernel, by decide +kernel, by decide +kernel, by decide +kernel, by decide +kernel, by decide +kernel,
    flying [0x01] 0, by decide +kernel⟩

/-- `State.soundHbm`, as two conditions that a state decides. -/
theorem soundHbm_of {s : State} {a len : Nat} (h : openHbmB s a len = true) (hw : s.aux.badWords ++ s.aux.weakWords = []) : s.soundHbm a len :=
  ⟨openHbm_iff.mpr h, by rw [hw]; exact fun _ h => absurd h (List.not_mem_nil)⟩

/-- Trigger 255 of die 0 and partition 7 in a state, with jobs; the descriptor at 0x1000 has one list. -/
def wTrigger (valid kind st : Nat) (jobs : List Job) (as : List Act := []) : State :=
  after ([powered, .setAc .JT_VALID 0 255 valid, .setAc .JT_KIND 0 255 kind, .setAc .JT_PARTITION 0 255 7, .setAc .JT_DEPTH 0 255 1,
    .setAc .JT_DESC 0 255 0x1000, .set .PT_STATE 0 7 st, .set .I_TICKS 0 0 500, words 0x1000 8 [0x2000, 0x300000001, 4],
    words 0x2000 8 [0x4020], .aux fun a => { a with jobs := jobs }] ++ as)

/-- A job of host kind that has run late. -/
def wLate (late : Nat) : Job := { wJob 3 [] with lateUs := late }

theorem met_JobsFireAndRunLate_fire :
    (∀ s ∈ [wTrigger 0 3 2 [], wTrigger 1 3 0 [], wTrigger 1 3 2 [wJob 3 []], wTrigger 1 3 2 []],
      (Registers.wf s.regs = true ∧ Memory.wf s.mem = true ∧ Memory.wf s.cfg = true) ∧ s.dieThere 0 = true ∧ s.ac .JT_PARTITION 0 255 = 7) ∧
      (wTrigger 0 3 2 []).triggerOk 0 255 3 = false ∧
      ((wTrigger 1 3 0 []).triggerOk 0 255 3 = true ∧ (wTrigger 1 3 0 []).running 7 = false) ∧
      ((wTrigger 1 3 2 [wJob 3 []]).triggerOk 0 255 3 = true ∧ (wTrigger 1 3 2 [wJob 3 []]).running 7 = true ∧
        (wTrigger 1 3 2 [wJob 3 []]).depth 0 255 ≤ ((wTrigger 1 3 2 [wJob 3 []]).held 0 255).length) ∧
      (let s := wTrigger 1 3 2 []
       s.triggerOk 0 255 3 = true ∧ s.running 7 = true ∧ (s.held 0 255).length < s.depth 0 255 ∧ s.soundHbm (s.ac .JT_DESC 0 255) 64 ∧
       min (s.byte (s.ac .JT_DESC 0 255 + 8)).toNat 64 = 1 ∧ s.soundHbm (s.le (s.ac .JT_DESC 0 255) 8) (8 * 1)) := by
  refine ⟨by decide +kernel, by decide +kernel, by decide +kernel, by decide +kernel, by decide +kernel, by decide +kernel, by decide +kernel,
    soundHbm_of (by decide +kernel) (by decide +kernel), by decide +kernel, soundHbm_of (by decide +kernel) (by decide +kernel)⟩

theorem met_JobsFireAndRunLate_deadline :
    (∀ j ∈ [{ wLate 1 with standing := true }, { wLate 1 with ended := true }, wLate 1, wLate 0],
      (Registers.wf (wTrigger 1 3 2 [j]).regs = true ∧ Memory.wf (wTrigger 1 3 2 [j]).mem = true ∧ Memory.wf (wTrigger 1 3 2 [j]).cfg = true) ∧
      (wTrigger 1 3 2 [j]).job 7 9 = some j ∧ j.kind = 3 ∧ j.checked = false ∧ j.deadlineUs ≠ 0 ∧
      j.tick + j.deadlineUs * 500 ≤ (wTrigger 1 3 2 [j]).ticks ∧ ∀ l ∈ j.lists, l.state ≠ 1) ∧
      (wLate 1).standing = false ∧ (wLate 1).ended = false ∧ (wLate 1).lateUs ≠ 0 ∧ (wLate 0).lateUs = 0 ∧
      (let j := { wLate 1 with checked := true, late := true }
       (wTrigger 1 3 2 [j]).job 7 9 = some j ∧ j.late = true ∧ j.standing = false ∧ j.ended = false ∧ j.kind ≠ 1 ∧
       j.checkTick + j.lateUs * 500 ≤ (wTrigger 1 3 2 [j]).ticks ∧ ∀ l ∈ j.lists, l.state ≠ 1) ∧
      (wTrigger 1 3 2 []).job 7 9 = none := by
  decide +kernel

/-- A record for partition 7, and its ring and mirror. -/
def wRec : Rec :=
  ⟨7, 9, 3, recResult, 0, 0x42, 0, 1, 63, [List.replicate 48 1], [List.replicate 64 2], 0, 255, 0, 0, [1, 2, 3], false, 5, none, none⟩

/-- Channel 63 of partition 7 on port 1 of die 0, which can send or not. -/
def wChannel (kind : Nat) (up : Bool := true) (as : List Act := []) : State :=
  after ([powered, .set .ETH_STATUS_LINK 0 1 1, .set .ETH_STATUS_SECURE 0 1 (b2n up), .setAc .CH_VALID 0 63 1, .setAc .CH_KIND 0 63 kind,
    .setAc .CH_PARTITION 0 63 7, .setAc .CH_PORT 0 63 1, .setAc .CH_PEER_ADDR 0 (4 * 63) 0x0A000002, .setAc .CH_UDP_PEER 0 63 99,
    .setAc .PT_RING_BASE 0 7 0x10000, .setAc .PT_MIRROR_BASE 0 7 0x800000, .set .PT_STATE 0 7 2, .setAc .CH_REQ_MAX 0 63 64,
    .aux fun a => { a with image := some wImage, hops := [⟨0, 1, false, 0x0A000002, some 5, 0⟩] }] ++ as)

def wRecs : State := wChannel 1 true [.set .PT_SEQ 0 7 4095, .aux fun a => { a with recs := [wRec] }]

/-- A record sent on channel 63 that stands in its ring, or has left it, while the channel can send or not. -/
def wSends (seq : Nat) (up : Bool := true) : State :=
  wChannel 1 up [.set .PT_SEQ 0 7 seq, .set .CH_CHSEQ 0 63 (2 ^ 32 - 1), words (0x10000 + 4095 * 1024) 1 (List.range 49 ++ [1, 0]),
    .aux fun a => { a with sends := [⟨63, 7, 4095, none⟩] }]

theorem met_RecordsEnterAndLeave_enter :
    wRecs.Sound ∧ wRecs.aux.recs.find? (fun x => x.part == 7) = some wRec ∧ wRec.size < 2 ^ 32 ∧ (∀ x ∈ wRec.frames, x.length = 48) ∧
      (∀ x ∈ wRec.attach, x.length = 64) ∧ wRec.frames.length < 256 ∧
      wRecs.openHbm (wRecs.slotAddr .PT_RING_BASE 7 (wRecs.rd .PT_SEQ 0 7)) wRec.size ∧
      wRecs.openHbm (wRecs.slotAddr .PT_MIRROR_BASE 7 (wRecs.rd .PT_SEQ 0 7)) wRec.size ∧
      rangesMeet (wRecs.slotAddr .PT_RING_BASE 7 (wRecs.rd .PT_SEQ 0 7)) wRec.size
        (wRecs.slotAddr .PT_MIRROR_BASE 7 (wRecs.rd .PT_SEQ 0 7)) wRec.size = false ∧
      wRecs.aux.recs.find? (fun x => x.part == 6) = none := by
  simp only [State.Sound, openHbm_iff]
  decide +kernel

theorem met_RecordsEnterAndLeave_leave :
    (∀ s ∈ [wSends 8191, wSends 8192, wSends 8191 false], (Registers.wf s.regs = true ∧ Memory.wf s.mem = true ∧ Memory.wf s.cfg = true) ∧
      s.aux.sends.find? (fun x => x.channel == 63) = some ⟨63, 7, 4095, none⟩) ∧
      ((wSends 8191).inRing 7 4095 = true ∧ (wSends 8191).channelUp 63 = true ∧
        (wSends 8191).soundHbm ((wSends 8191).slotAddr .PT_RING_BASE 7 4095)
          (min (recLength ((wSends 8191).bytes ((wSends 8191).slotAddr .PT_RING_BASE 7 4095) 64)) 8192)) ∧
      (wSends 8192).inRing 7 4095 = false ∧ ((wSends 8191 false).inRing 7 4095 = true ∧ (wSends 8191 false).channelUp 63 = false) ∧
      (wSends 8191).aux.sends.find? (fun x => x.channel == 62) = none :=
  ⟨by decide +kernel, ⟨by decide +kernel, by decide +kernel, soundHbm_of (by decide +kernel) (by decide +kernel)⟩, by decide +kernel,
    by decide +kernel, by decide +kernel⟩

/-- A datagram of a type with a sequence and a body. -/
def wDg (type seq : Nat) (body : List Byte) : List Byte :=
  toLe 2 0x4D58 ++ toLe 1 1 ++ toLe 1 type ++ toLe 2 0 ++ toLe 2 body.length ++ toLe 8 0 ++ toLe 8 seq ++ toLe 8 0 ++ body

/-- Channel 63 serves class 7 or trigger 255, and expects request 3. -/
def wServe (toClass : Nat) (st : Nat) (as : List Act := []) : State :=
  wChannel 1 true ([.setAc .CH_TO_CLASS 0 63 toClass, .setAc .CH_CLASS 0 63 7, .setAc .CH_TRIGGER 0 63 255, .set .CH_REQ_EXPECT 0 63 3,
    .set .PT_STATE 0 7 st] ++ as)

def wClassOn : State :=
  wServe 1 2 [.setAc .BC_EN 0 7 1, .setAc .BC_PARTITION 0 7 7, .setAc .BC_MAX_TOKENS 0 7 1,
    .aux fun a => { a with steps := [wStepRun], decs := List.replicate 191 (wDec 1 none) }]

def wTriggerOn : State :=
  wServe 0 2 [.setAc .JT_VALID 0 255 1, .setAc .JT_KIND 0 255 2, .setAc .JT_PARTITION 0 255 7, .setAc .JT_DEPTH 0 255 4,
    .setAc .JT_DESC 0 255 0x1000, words 0x1000 8 [0x2000, 0x300000001, 4, 0, 0, 0, 0, 0x4000], words 0x2000 8 [0x4020]]

def wCancel (slot : Option Nat) (ended : Bool := false) : State :=
  wServe 1 2 [.aux fun a => { a with decs := [{ wDec 3 slot with ended := ended }] }]

theorem met_RequestsAreServed_sequence :
    (∀ s ∈ [wServe 1 0, wServe 1 2, wClassOn, wTriggerOn, wCancel none, wCancel (some 5), wCancel (some 5) true],
      (Registers.wf s.regs = true ∧ Memory.wf s.mem = true ∧ Memory.wf s.cfg = true) ∧ s.acOn .CH_VALID 0 63 = true ∧ s.ac .CH_KIND 0 63 = 1 ∧
      s.badDatagram 63 (wDg 0x13 3 []) = true ∧ s.badDatagram 63 (wDg 0x10 3 (List.replicate 65 0)) = true ∧
      s.goodDatagram 63 0x10 (wDg 0x10 3 (List.replicate 64 7)) ∧ s.goodDatagram 63 0x10 (wDg 0x10 4 []) ∧
      s.goodDatagram 63 0x11 (wDg 0x11 3 []) ∧ s.goodDatagram 63 0x12 (wDg 0x12 0 (toLe 4 0xFFFFFFFF ++ toLe 4 2)) ∧
      s.rd .CH_REQ_EXPECT 0 63 = 3) ∧ dgSeq (wDg 0x10 3 (List.replicate 64 7)) = 3 ∧ 3 < dgSeq (wDg 0x10 4 []) ∧
      (wServe 1 0).running ((wServe 1 0).ac .CH_PARTITION 0 63) = false ∧ (wServe 1 2).running ((wServe 1 2).ac .CH_PARTITION 0 63) = true ∧
      ((wServe 1 2).acOn .CH_TO_CLASS 0 63 = true ∧ (wServe 1 2).acOn .BC_EN ((wServe 1 2).ac .CH_DIE 0 63) ((wServe 1 2).ac .CH_CLASS 0 63) = false) ∧
      (wClassOn.running (wClassOn.ac .CH_PARTITION 0 63) = true ∧ wClassOn.acOn .CH_TO_CLASS 0 63 = true ∧
        (wClassOn.ac .CH_DIE 0 63 = 0 ∧ wClassOn.ac .CH_CLASS 0 63 = 7) ∧ wClassOn.acOn .BC_EN 0 7 = true ∧
        wClassOn.ac .BC_PARTITION 0 7 = wClassOn.ac .CH_PARTITION 0 63 ∧ (wClassOn.waitingReqs 0 7).length < 192 ∧
        wClassOn.ac .BC_MAX_TOKENS 0 7 ≠ 0 ∧ (wClassOn.stepOf 0 7).isSome = true) ∧
      (∀ p ∈ [(none, false), (some 5, false), (some 5, true)],
        (wCancel p.1 p.2).aux.decs.find? (fun d => d.channel == 63 && d.reqSeq == 3) = some { wDec 3 p.1 with ended := p.2 }) ∧
      (let dg := wDg 0x12 0 (toLe 4 0xFFFFFFFF ++ toLe 4 2)
       8 ≤ dgLength dg ∧ 1 ≤ leAt dg 36 4 ∧ leAt dg 36 4 ≤ 4096 ∧ (wServe 1 2).channelUp 63 = true ∧
       ∀ q ∈ (wServe 1 2).aux.sent, q.channel = 63 → ∀ i < leAt dg 36 4, q.chseq ≠ (leAt dg 32 4 + i) % 2 ^ 32) := by
  simp only [State.goodDatagram]
  decide +kernel

theorem met_RequestsAreServed_trigger :
    let s := wTriggerOn
    s.running (s.ac .CH_PARTITION 0 63) = true ∧ s.acOn .CH_TO_CLASS 0 63 = false ∧ bits (s.ac .CH_TRIGGER 0 63) 8 3 = 0 ∧
      bits (s.ac .CH_TRIGGER 0 63) 0 8 = 255 ∧ s.dieThere 0 = true ∧ s.triggerOk 0 255 2 = true ∧ s.running (s.ac .JT_PARTITION 0 255) = true ∧
      (s.held 0 255).length < s.depth 0 255 ∧ s.soundHbm (s.ac .JT_DESC 0 255) 64 ∧ min (s.byte (s.ac .JT_DESC 0 255 + 8)).toNat 64 = 1 ∧
      s.soundHbm (s.le (s.ac .JT_DESC 0 255) 8) (8 * 1) ∧ s.openHbm (s.le (s.ac .JT_DESC 0 255 + 56) 8 + 4096 * s.requestSlot 0 255) 64 ∧
      rangesMeet (s.ac .JT_DESC 0 255) 64 (s.le (s.ac .JT_DESC 0 255 + 56) 8 + 4096 * s.requestSlot 0 255) 64 = false ∧
      ((wDg 0x10 3 (List.replicate 64 7)).drop 32 |>.take (dgLength (wDg 0x10 3 (List.replicate 64 7)))).length = 64 :=
  ⟨by decide +kernel, by decide +kernel, by decide +kernel, by decide +kernel, by decide +kernel, by decide +kernel, by decide +kernel,
    by decide +kernel, soundHbm_of (by decide +kernel) (by decide +kernel), by decide +kernel,
    soundHbm_of (by decide +kernel) (by decide +kernel), openHbm_iff.mpr (by decide +kernel), by decide +kernel, by decide +kernel⟩

/-- Class 7 with a request that waits and whose window has just passed; with a step that runs and a request in its slot. -/
def wBatch (as : List Act) : State :=
  after ([powered, .setAc .BC_DESC_BASE 0 7 0x8000, .setAc .BC_TRIGGER 0 7 255, .setAc .BC_WINDOW_US 0 7 1, .set .TIME_NOW_NS 0 0 1000,
    .setAc .JT_VALID 0 255 1, .setAc .JT_KIND 0 255 1, .setAc .JT_PARTITION 0 255 7, .setAc .JT_DEPTH 0 255 1, .setAc .JT_DESC 0 255 0x1000,
    .set .PT_STATE 0 7 2, words 0x1000 8 [0x2000, 1], words 0x2000 8 [0x4020], .set .ETH_STATUS_LINK 0 1 1, .set .ETH_STATUS_SECURE 0 1 1] ++ as)

def wWindow : State := wBatch [.aux fun a => { a with decs := [wDec 1 none] }]

/-- A step of one row in slot 5, its last one, or of a request that has ended. -/
def wRow : StepRun := ⟨0, 7, 4, [5], [5], 0x8000⟩
def wStepDone (ended : Bool) : State := wBatch [.aux fun a => { a with steps := [wRow], decs := [{ wDec 1 (some 5) with ended := ended }] }]

theorem met_StepsPredictorsAndLinks :
    (let s := wWindow
     s.Sound ∧ s.dieThere 0 = true ∧ s.stepOf 0 7 = none ∧ s.slotReqs 0 7 = [] ∧ s.waitingReqs 0 7 = [wDec 1 none] ∧
     s.on .BC_COMMIT_PENDING 0 7 = false ∧ (wDec 1 none).accepted + s.ac .BC_WINDOW_US 0 7 * 1000 ≤ s.now 0 ∧
     s.openHbm (s.ac .BC_DESC_BASE 0 7) 64 ∧ bits (s.ac .BC_TRIGGER 0 7) 8 3 = 0 ∧ bits (s.ac .BC_TRIGGER 0 7) 0 8 = 255 ∧
     s.triggerOk 0 255 1 = true ∧ s.running (s.ac .JT_PARTITION 0 255) = true ∧ (s.held 0 255).length < s.depth 0 255 ∧
     s.soundHbm (s.ac .JT_DESC 0 255) 64 ∧ min (s.byte (s.ac .JT_DESC 0 255 + 8)).toNat 64 = 1 ∧
     s.soundHbm (s.le (s.ac .JT_DESC 0 255) 8) (8 * 1) ∧ rangesMeet (s.ac .JT_DESC 0 255) 64 (s.ac .BC_DESC_BASE 0 7) 64 = false ∧
     rangesMeet (s.le (s.ac .JT_DESC 0 255) 8) (8 * 1) (s.ac .BC_DESC_BASE 0 7) 64 = false) ∧
    (∀ e ∈ [true, false], (wStepDone e).Sound ∧ (wStepDone e).stepOf 0 7 = some wRow ∧
      (wStepDone e).slotReqs 0 7 = [{ wDec 1 (some 5) with ended := e }] ∧ (wStepDone e).waitingReqs 0 7 = [] ∧ 5 ∈ wRow.rows ∧
      ((wStepDone e).aux.steps.erase wRow).find? (fun q => q.die == 0 && q.cls == 7) = none ∧ (4 : Nat) = wRow.step % 2 ^ 32 ∧
      (3 : Nat) ≠ wRow.step % 2 ^ 32) ∧ (wStepDone true).soundHbm (wRow.desc + 48) 8 ∧ (wStepDone false).soundHbm (wRow.desc + 48) 8 ∧
    (wRow.last.contains 5 = true ∧ bit ((wStepDone false).le (wRow.desc + 48) 8) 5 = false) ∧
    ((wNet).portRuns 0 1 = true ∧ (1 : Nat) < 2 ∧ (wNet).portRuns 0 0 = false) := by
  simp only [State.Sound]
  refine ⟨⟨by decide +kernel, by decide +kernel, by decide +kernel, by decide +kernel, by decide +kernel, by decide +kernel, by decide +kernel,
    openHbm_iff.mpr (by decide +kernel), by decide +kernel, by decide +kernel, by decide +kernel, by decide +kernel, by decide +kernel,
    soundHbm_of (by decide +kernel) (by decide +kernel), by decide +kernel, soundHbm_of (by decide +kernel) (by decide +kernel),
    by decide +kernel, by decide +kernel⟩, by decide +kernel, soundHbm_of (by decide +kernel) (by decide +kernel),
    soundHbm_of (by decide +kernel) (by decide +kernel), by decide +kernel, by decide +kernel⟩

/-! #### The vector unit, predictors and searches -/

/-- VEC of one row, its operands at the ends of the ranges. -/
def wVec (op ofmt : Nat) : State :=
  listed [0x30 + 256 * op, 0x57FF00, 0x400000, 0, 0x87FF00, 1, ofmt]
    [words (storeAddr 0 0 0x57FF00) 4 [0x7FFFFFFF, 0x3F800000, 0x7F800000, 3], words (storeAddr 0 0 0x400000) 4 [1, 0x40000000, 0x7F800000, 5]]

def wQuant : State :=
  listed [0x31, 0x400000, 0x87FF00, 0, 1, fmtInt8 + 16 * fmtInt32] [words (storeAddr 0 0 0x400000) 1 [1, 128, 255]]

theorem met_VectorLanes :
    (∀ p ∈ [(wVec 0x20 fmtInt32, 0x20), (wVec 0x21 fmtInt32, 0x21), (wVec 0x22 fmtInt32, 0x22), (wVec 0x01 fmtFp32, 0x01),
      (wVec 0x02 fmtFp32, 0x02), (wVec 0x03 fmtFp32, 0x03)],
      let i := cmdOf p.1
      let x : Cx := ⟨0, 0, 0, i⟩
      let rows := bits (i.w 5) 0 24
      ready p.1 ∧ p.1.suspectStore 0 0 = false ∧ i.op = 0x30 ∧ bits (i.w 6) 4 1 = 0 ∧ bits (i.w 6) 6 1 = 0 ∧ 1 ≤ rows ∧ i.mode = p.2 ∧
      bits (i.w 6) 0 4 = (if 0x20 ≤ p.2 then fmtInt32 else fmtFp32) ∧ storeRangeOk (x.la 1) (256 * rows) = true ∧
      storeRangeOk (x.la 2) (256 * rows) = true ∧ storeRangeOk (x.la 4) (256 * rows) = true ∧
      rangesMeet (x.la 1) (256 * rows) (x.la 4) (256 * rows) = false ∧ rangesMeet (x.la 2) (256 * rows) (x.la 4) (256 * rows) = false) ∧
      (let i := cmdOf wQuant
       let x : Cx := ⟨0, 0, 0, i⟩
       let rows := bits (i.w 4) 0 24
       ready wQuant ∧ wQuant.suspectStore 0 0 = false ∧ i.op = 0x31 ∧ bits (i.w 5) 0 11 = fmtInt8 + 16 * fmtInt32 ∧ 1 ≤ rows ∧
       storeRangeOk (x.la 1) (64 * rows) = true ∧ storeRangeOk (x.la 2) (256 * rows) = true ∧
       rangesMeet (x.la 1) (64 * rows) (x.la 2) (256 * rows) = false) := by
  simp only [ready, State.Sound, State.atCommand]
  decide +kernel

/-- PREDICT of `rows` rows of 18 neurons with predictor 15, whose slice is its last. -/
def wPredict (safety back rows : Nat) : State :=
  listed [0x3830, 0x400000, 0x402000, 0x403000, 0, rows, 18 + 15 * 65536]
    [words (storeAddr 0 0 0x400000) 4 [0x3F800000, 0x3F000000], .setAc .PRD_THRESH 0 15 0x3F800000, .set .PRD_SLICE 0 15 15,
      .set .PRD_FALLBACK 0 15 back, .set .CTX_SAFETY 0 0 safety]

/-- AUDIT of one row of two active neurons, one of them audited, with a burst limit. -/
def wAudit (burst : Nat) : State :=
  listed [0x3930, 0x400000, 0x402000, 0x403000, 0, 1, 15 * 65536]
    [words (storeAddr 0 0 0x400000) 4 [0, 0xBF800000], words (storeAddr 0 0 0x402000) 4 [2, 4, 15], words (storeAddr 0 0 0x403000) 4 [1, 15],
      .setAc .PRD_EPS 0 15 0x3F000000, .setAc .PRD_BURST 0 15 burst, .set .I_PRD_PREDICTS 0 15 15]

/-- The misses of that AUDIT. -/
def auditMisses (s : State) : Nat :=
  let x : Cx := ⟨0, 0, 0, cmdOf s⟩
  let eps := fp32 (s.ac .PRD_EPS 0 15)
  let na := s.own 0 0 (x.la 2) 4
  let act := (List.range na).map fun k => s.own 0 0 (x.la 2 + 4 + 4 * k) 4
  let aud := (List.range (s.own 0 0 (x.la 3) 4)).map fun k => s.own 0 0 (x.la 3 + 4 + 4 * k) 4
  let places := aud.filterMap fun v => act.findIdx? fun m => m == v
  ((List.range 1).map fun r => (places.filter fun p => eps.lt (fp32 (s.own 0 0 (x.la 1 + r * laneBytes na + 4 * p) 4)).abs).length).sum

theorem met_PredictorCommands :
    (∀ s ∈ [wPredict 0 0 1, wPredict 0 1 64, wPredict 0 0 0],
      let i := cmdOf s
      let x : Cx := ⟨0, 0, 0, i⟩
      let n := bits (i.w 6) 0 16
      let rows := bits (i.w 5) 0 7
      ready s ∧ s.suspectStore 0 0 = false ∧ i.op = 0x30 ∧ rows ≤ 64 ∧ i.mode = 0x38 ∧ s.on .CTX_SAFETY 0 0 = false ∧
      s.on .PRD_COMMIT_PENDING 0 (bits (i.w 6) 16 4) = false ∧ s.on .PRD_REENABLE_PENDING 0 (bits (i.w 6) 16 4) = false ∧
      (rows * laneBytes n = 0 ∨ storeRangeOk (x.la 1) (rows * laneBytes n) = true) ∧ storeRangeOk (x.la 2) (4 + 4 * n) = true ∧
      storeRangeOk (x.la 3) (4 + 4 * n) = true ∧ rangesMeet (x.la 2) (4 + 4 * n) (x.la 3) (4 + 4 * n) = false) ∧
      (ready (wPredict 1 0 64) ∧ (wPredict 1 0 64).on .CTX_SAFETY 0 0 = true ∧ (cmdOf (wPredict 1 0 64)).op = 0x30 ∧
        (cmdOf (wPredict 1 0 64)).mode = 0x38 ∧ (wPredict 1 0 64).suspectStore 0 0 = false) ∧
      (∀ s ∈ [wAudit 1, wAudit 0],
        let i := cmdOf s
        let x : Cx := ⟨0, 0, 0, i⟩
        let na := s.own 0 0 (x.la 2) 4
        ready s ∧ i.op = 0x30 ∧ i.mode = 0x39 ∧ bits (i.w 5) 0 7 ≤ 64 ∧ storeRangeOk (x.la 2) (4 + 4 * na) = true ∧
        storeRangeOk (x.la 3) (4 + 4 * s.own 0 0 (x.la 3) 4) = true ∧ storeRangeOk (x.la 1) (bits (i.w 5) 0 7 * laneBytes na) = true ∧
        s.rd .I_PRD_PREDICTS 0 15 < 16 * 2 ^ min 8 (s.ac .PRD_WINDOW_LOG2 0 15)) ∧
      auditMisses (wAudit 1) ≤ (wAudit 1).ac .PRD_BURST 0 15 ∧ (wAudit 0).ac .PRD_BURST 0 15 < auditMisses (wAudit 0) := by
  simp only [ready, State.Sound, State.atCommand]
  decide +kernel

/-- DIST of one query and three candidates of 64 coordinates, two of them at one distance. -/
def wDist (slots : Nat) : State :=
  listed [0x124, 0x400000, 0x410000, 0x800000, 0x810000, 1 + slots * 2 ^ 24, 3 + 64 * 2 ^ 24]
    [words (storeAddr 0 0 0x400000) 1 [128], words (storeAddr 0 0 0x410000) 1 [127], words (storeAddr 0 0 0x410040) 1 [126],
      words (storeAddr 0 0 0x410080) 1 [126]]

/-- TOPK SELECT of the largest of three scores; SUPPRESS of three candidates. -/
def wSelect (k : Nat) : State :=
  listed [0x25 + 1024 * fmtInt8, 0x400000, 0x800000, 0x810000, 3, k] [words (storeAddr 0 0 0x400000) 1 [255, 7, 7]]

def wSuppress (limit : Nat) : State :=
  listed [0x25 + 256 * (1 + 4 * fmtInt8), 0x400000, 0x410000, 0x800000, 0x800100, 3 + 1 * 65536, limit, 0x800200]
    [words (storeAddr 0 0 0x400040) 1 [255], words (storeAddr 0 0 0x400080) 1 [3]]

theorem met_SearchesSelect_dist :
    ∀ s ∈ [wDist 64, wDist 1, wDist 0],
      let i := cmdOf s
      let x : Cx := ⟨0, 0, 0, i⟩
      ready s ∧ s.suspectStore 0 0 = false ∧ i.op = 0x24 ∧ i.mode = 0x01 ∧ bits (i.w 5) 24 7 ≤ 64 ∧ bits (i.w 6) 24 7 = 64 ∧
      bits (i.w 5) 0 24 = 1 ∧ bits (i.w 6) 0 24 = 3 ∧ storeRangeOk (x.la 1) 64 = true ∧ storeRangeOk (x.la 2) (2 * 64 + 64) = true ∧
      storeRangeOk (x.la 3) 256 = true ∧ storeRangeOk (x.la 4) 256 = true ∧ rangesMeet (x.la 3) 256 (x.la 4) 256 = false := by
  simp only [ready, State.Sound, State.atCommand]
  decide +kernel

theorem met_SearchesSelect_select :
    ∀ s ∈ [wSelect 1, wSelect 4096],
        let i := cmdOf s
        let x : Cx := ⟨0, 0, 0, i⟩
        let k := bits (i.w 5) 0 13
        ready s ∧ s.suspectStore 0 0 = false ∧ i.op = 0x25 ∧ i.mode = 4 * fmtInt8 ∧ 1 ≤ k ∧ k ≤ 4096 ∧ bits (i.w 4) 0 24 = 3 ∧
        storeRangeOk (x.la 1) 3 = true ∧ storeRangeOk (x.la 2) (4 * k) = true ∧ storeRangeOk (x.la 3) (4 * k) = true ∧
        rangesMeet (x.la 2) (4 * k) (x.la 3) (4 * k) = false := by
  simp only [ready, State.Sound, State.atCommand]
  decide +kernel

theorem met_SearchesSelect_suppress :
    ∀ s ∈ [wSuppress 0, wSuppress 1, wSuppress 4096],
        let i := cmdOf s
        let x : Cx := ⟨0, 0, 0, i⟩
        ready s ∧ s.suspectStore 0 0 = false ∧ i.op = 0x25 ∧ i.mode = 1 + 4 * fmtInt8 ∧ bits (i.w 5) 0 13 = 3 ∧ bits (i.w 5) 16 7 = 1 ∧
        bits (i.w 6) 0 13 ≤ 4096 ∧ storeRangeOk (x.la 1) (2 * 64 + 1) = true ∧ storeRangeOk (x.la 2) (2 * 64 + 1) = true ∧
        storeRangeOk (x.la 3) 1 = true ∧ storeRangeOk (x.la 4) 12 = true ∧ storeRangeOk (x.la 7) 4 = true ∧
        rangesMeet (x.la 3) 1 (x.la 4) 12 = false ∧ rangesMeet (x.la 3) 1 (x.la 7) 4 = false ∧ rangesMeet (x.la 4) 12 (x.la 7) 4 = false := by
  simp only [ready, State.Sound, State.atCommand]
  decide +kernel

/-! #### Grids and sparse convolution -/

def pa (off : Nat) : Nat := storeAddr 0 0 off

/-- Bytes 0 to 79 of the descriptor of a pillar grid of 2 × 1 cells with one point a cell: its slots and reservoirs in vault 0, its
occupancy and its cell list in W-store. -/
def wGeo : List Byte :=
  [1, 2, 0, 1] ++ toLe 12 0 ++ toLe 2 2 ++ toLe 2 1 ++ toLe 2 0 ++ [10, 0] ++ toLe 4 512 ++ toLe 4 0 ++ toLe 4 100 ++ toLe 4 0 ++ toLe 8 0 ++
    toLe 8 (vaultAddr 0 0 0) ++ toLe 8 (vaultAddr 0 0 0x4000) ++ toLe 8 (pa 0x20000) ++ toLe 8 (pa 0x21000)

/-- The grid's descriptor at 0x10000 of W-store under build 5, and the vaults open to partition 0. -/
def wGridAt (st cells : Nat) : List Act :=
  [.put (pa 0x10000) (wGeo ++ toLe 4 5 ++ toLe 1 st ++ toLe 19 0 ++ toLe 4 cells), .setAc .MUL_VALID 0 63 1, .setAc .MUL_READ 0 63 1,
    .setAc .MUL_WRITE 0 63 1, .setAc .MUL_BASE 0 63 (vaultBase / 4096), .setAc .MUL_LIMIT 0 63 (vaultBase / 4096 + 32767)]

def wMap (mode st : Nat) (ws : List Nat := []) (cells : Nat := 0) (as : List Act := []) : State :=
  listed ([0x22 + 256 * mode, 0x10000, 0x02000000] ++ ws) (wGridAt st cells ++ as)

theorem met_GridsAreBuilt_open :
    let s := wMap 0 0
    let i := cmdOf s
    let x : Cx := ⟨0, 0, 0, i⟩
    let g := geoOf (s.bytes (pa 0x10000) 88)
    ready s ∧ s.suspectStore 0 0 = false ∧ x.paOf (i.w 1) (i.w 2) 1 = .ok (pa 0x10000) ∧ pa 0x10000 % 64 = 0 ∧
      s.OwnRange x (pa 0x10000) 640 ∧ i.op = 0x22 ∧ bits i.mode 0 3 = 0 ∧ g.withinLimits = true ∧ g.placed s = true ∧
      (s.gridAt (pa 0x10000)).state = 0 ∧ s.gridRec (pa 0x10000) = none ∧ s.vaultReady x g.slotBase g.slotBytes ∧ s.Sees x (pa 0x10000) 640 g.occBase g.occBytes := by
  simp only [ready, State.Sound, State.atCommand, ownRange_iff, vaultReady_iff, State.Sees]
  decide +kernel

theorem met_GridsAreBuilt_close :
    let s := wMap 1 1
    let i := cmdOf s
    let x : Cx := ⟨0, 0, 0, i⟩
    ready s ∧ s.suspectStore 0 0 = false ∧ x.paOf (i.w 1) (i.w 2) 1 = .ok (pa 0x10000) ∧ s.OwnRange x (pa 0x10000) 640 ∧ i.op = 0x22 ∧
      bits i.mode 0 3 = 1 ∧ (s.gridAt (pa 0x10000)).state = 1 := by
  simp only [ready, State.Sound, State.atCommand, ownRange_iff]
  decide +kernel

def wGridRec : GridRec := { addr := pa 0x10000, geo := wGeo, pointsIn := 3, cells := 511, maxProbe := 0 }

/-- HASH_INSERT of source 63 with priority 7: one point at a height, of a frame of two points. -/
def wInsert (z : Nat) : State :=
  listed [0x23, 0x10000, 0x02000000, 0x30000, 0x02000000, 1, 262144, 63 + 7 * 256]
    (wGridAt 1 0 ++ [.aux fun y => { y with grids := [wGridRec] }, .put (pa 0x30000) (toLe 24 0 ++ toLe 4 2),
      .set .I_SC_BUF_ADDR 0 0 (pa 0x31000), .put (pa 0x31010) (toLe 3 20 ++ toLe 3 0 ++ toLe 3 z)])

/-- Number of points inserted, and a point's cell. -/
def insertCount (s : State) : Nat :=
  min (bits ((cmdOf s).w 5) 0 24 + bits ((cmdOf s).w 6) 0 19) (leAt (s.bytes (pa 0x30000) 64) 24 4) - bits ((cmdOf s).w 5) 0 24

def insertCell (s : State) : Option Cell :=
  let p := s.pointAddr (s.bytes (pa 0x30000) 64) 1
  (s.gridAt (pa 0x10000)).geo.locate (signed 24 (s.le p 3)) (signed 24 (s.le (p + 3) 3)) (signed 24 (s.le (p + 6) 3))

theorem met_GridsAreBuilt_insert :
    (∀ s ∈ [wInsert 100, wInsert 99],
      let i := cmdOf s
      let x : Cx := ⟨0, 0, 0, i⟩
      ready s ∧ s.suspectStore 0 0 = false ∧ x.paOf (i.w 1) (i.w 2) 1 = .ok (pa 0x10000) ∧ s.OwnRange x (pa 0x10000) 640 ∧ i.op = 0x23 ∧
      (s.gridAt (pa 0x10000)).state = 1 ∧ s.gridRec (pa 0x10000) = some wGridRec ∧ (∀ n ∈ wGridRec.inserts, n.2.2.2 ≤ s.rd .I_NEXT_ID 0) ∧ x.paOf (i.w 3) (i.w 4) 3 = .ok (pa 0x30000) ∧
      pa 0x30000 % 64 = 0 ∧ s.Sees x (pa 0x10000) 640 (pa 0x30000) 64 ∧ bits (i.w 6) 0 19 ≤ 262144 ∧
      byteAt (s.bytes (pa 0x30000) 64) 60 ≠ 0xFF ∧ s.le (pa 0x10000 + 128 + 8 * bits (i.w 7) 0 6) 8 = 0 ∧
      s.le (pa 0x10000 + 85) 1 ≤ bits (i.w 7) 8 3 ∧ insertCount s = 1 ∧
      s.Sees x (pa 0x10000) 640 (s.pointAddr (s.bytes (pa 0x30000) 64) (1 + 0)) 16) ∧
      insertCell (wInsert 100) = none ∧ insertCell (wInsert 99) = some ⟨0, 0, 0⟩ ∧
      (let s := wInsert 99
       let x : Cx := ⟨0, 0, 0, cmdOf s⟩
       let v := s.gridAt (pa 0x10000)
       let home := v.geo.slotBase + 16 * v.geo.home 0
       let res := v.geo.resAt wGridRec.cells
       v.geo.pillar = true ∧ 1 ≤ v.geo.perCell ∧ wGridRec.cells < v.geo.cap ∧ (⟨0, 0, 0⟩ : Cell).key = 0 ∧ v.geo.home 0 < 2 ^ v.geo.log2 ∧
       s.le (home + 4) 3 ≠ v.build ∧ s.vaultReady x home 16 ∧ s.vaultReady x res (8 * v.geo.perCell) ∧
       rangesMeet home 16 res (8 * v.geo.perCell) = false ∧ s.Sees x (pa 0x10000) 640 (v.geo.occBase + 0 / 8) 1) := by
  simp only [ready, State.Sound, State.atCommand, ownRange_iff, vaultReady_iff, State.Sees]
  decide +kernel

/-- A close that waits, and what it waits for. -/
def wClosing (inserts : List (Nat × Nat × Nat × Nat)) : State :=
  listed [] (wGridAt 3 0 ++ [inFlight (flying [0x122, 0x10000, 0x02000000] 0), .aux fun y => { y with
    grids := [{ wGridRec with inserts := inserts, closer := some (0, 0, 0, 1) }] }])

theorem met_GridsAreBuilt_drain :
    (∀ l ∈ [[(0, 0, 0, 1)], []], (Registers.wf (wClosing l).regs = true ∧ Memory.wf (wClosing l).mem = true ∧ Memory.wf (wClosing l).cfg = true) ∧
      (wClosing l).suspectStore 0 0 = false ∧
      (wClosing l).closing 0 0 0 = some ({ wGridRec with inserts := l, closer := some (0, 0, 0, 1) }, flying [0x122, 0x10000, 0x02000000] 0)) ∧
      [(0, 0, 0, 1)].any (wClosing [(0, 0, 0, 1)]).insertLives = true ∧ ([] : List (Nat × Nat × Nat × Nat)).any (wClosing []).insertLives = false ∧
      (let s := wClosing []
       let f := flying [0x122, 0x10000, 0x02000000] 0
       let x : Cx := ⟨0, 0, 0, f.cmd⟩
       let v := s.gridAt (pa 0x10000)
       f.cmd.op = 0x22 ∧ wGridRec.dilated = false ∧ v.state = 3 ∧ s.OwnRange x (pa 0x10000) 640 ∧ s.vaultReady x v.geo.slotBase v.geo.slotBytes ∧
       ∀ k < 2 ^ v.geo.log2, s.le (v.geo.slotBase + 16 * k + 4) 3 ≠ v.build) := by
  simp only [ownRange_iff, vaultReady_iff]
  decide +kernel

/-- The slot of a pillar of the grid under its build, at its home, and its entry of the cell list. -/
def wPillar (p key index kept : Nat) : List Act :=
  [.put ((geoOf wGeo).slotBase + 16 * (geoOf wGeo).home key) (toLe 4 key ++ toLe 3 5 ++ toLe 1 kept ++ toLe 4 index),
    .put (pa 0x21000 + 16 * p) (toLe 4 key ++ toLe 4 1 ++ toLe 1 kept ++ toLe 3 0 ++ toLe 4 index)]

/-- Both cells stand in the closed grid; the index table is at 0x32000, and a submanifold layer of kernel 2 × 1 × 1 at 0x33000. -/
def wBuilt (ws : List Nat) (as : List Act := []) : State :=
  listed ws (wGridAt 2 2 ++ wPillar 0 0 1 1 ++ wPillar 1 1 0 0 ++ [.put (pa 0x20000) [3],
    .put (pa 0x32000) (toLe 8 (pa 0x10000) ++ toLe 4 5 ++ toLe 52 0 ++ toLe 4 1 ++ toLe 4 0),
    .put (pa 0x33000) ([2, 1, 1, 1, 0, 0, 0, 1] ++ toLe 8 (pa 0x10000) ++ toLe 8 (pa 0x10000) ++ toLe 8 0 ++ toLe 8 (pa 0x32000))] ++ as)

def wIndex : State := wBuilt [0x322, 0x10000, 0x02000000, 0x35000, 0x02000000]
def wDilate : State := wBuilt [0x222, 0x33000, 0x02000000]
def wRules (cap : Nat) : State := wBuilt [0x422, 0x33000, 0x02000000, 0x34000, 0x02000000, cap, 0, 2]
def wWalk (cap : Nat) : State := wBuilt [0x522, 0x32000, 0x02000000, 0x36000, cap, 1 + 2 * 4096, 0 + 1 * 4096, 0 + 256 * 4096]
def wAnd : State := wBuilt [0x622, 0x32000, 0x02000000, 0x32000, 0x02000000, 0x36000, 1]

/-- What every form of MAP is asked here. -/
def mapping (s : State) (mode a : Nat) : Prop :=
  let i := cmdOf s
  let x : Cx := ⟨0, 0, 0, i⟩
  ready s ∧ s.suspectStore 0 0 = false ∧ i.op = 0x22 ∧ bits i.mode 0 3 = mode ∧ x.paOf (i.w 1) (i.w 2) 1 = .ok (pa a) ∧ pa a % 64 = 0 ∧
    s.OwnRange x (pa a) 64

theorem met_MapsJoinSites_index :
    mapping wIndex 3 0x10000 ∧
      (let s := wIndex
       let i := cmdOf s
       let x : Cx := ⟨0, 0, 0, i⟩
       let a := pa 0x10000
       let tbl := pa 0x35000
       let v := s.gridAt a
       let len := 64 + 4 * v.cells
       let index := fun p => (s.siteEntry v.geo p).index
       x.paOf (i.w 3) (i.w 4) 3 = .ok tbl ∧ tbl % 64 = 0 ∧ v.state = 2 ∧ v.cells = 2 ∧ s.OwnRange x a 640 ∧ s.OwnRange x tbl len ∧
       s.Sees x tbl len a 640 ∧ s.Sees x tbl len v.geo.listBase (16 * v.cells) ∧
       ∀ p < v.cells, ∀ q < v.cells, index p < v.cells ∧ (index p = index q → p = q)) := by
  simp only [mapping, ready, State.Sound, State.atCommand, ownRange_iff, State.Sees]
  decide +kernel

theorem met_MapsJoinSites_dilate :
    mapping wDilate 2 0x33000 ∧ wDilate.seesConv ⟨0, 0, 0, cmdOf wDilate⟩ (pa 0x33000 + 44) 20 (pa 0x33000) ∧
      (wDilate.convAt (pa 0x33000)).conv.suppress = 1 ∧ (wDilate.convAt (pa 0x33000)).inp.state = 2 := by
  simp only [mapping, ready, State.Sound, State.atCommand, ownRange_iff, State.Sees, State.seesConv]
  decide +kernel

/-- `State.seesSite`, computed. -/
def seesSiteB (s : State) (x : Cx) (dst len table : Nat) (v : GridView) (u : Cell) : Bool :=
  let home := v.geo.slotBase + 16 * (v.geo.home u.key % 2 ^ v.geo.log2)
  let t := slotOf (s.bytes home 16)
  let sees := fun a n => n == 0 || ownRangeB x a n && !rangesMeet a n dst len
  v.geo.pillar && sees (v.geo.occBase + u.key / 8) 1 && (!bit (s.le (v.geo.occBase + u.key / 8) 1) (u.key % 8) ||
    vaultReadyB s x home 16 && t.build == v.build && t.key == u.key && sees (table + 64 + 4 * t.index) 4)

theorem seesSite_iff {s : State} {x : Cx} {dst len table : Nat} {v : GridView} {u : Cell} :
    s.seesSite x dst len table v u ↔ seesSiteB s x dst len table v u = true := by
  simp only [State.seesSite, seesSiteB, State.Sees, ownRange_iff, vaultReady_iff]
  cases bit (s.le (v.geo.occBase + u.key / 8) 1) (u.key % 8) <;> simp [and_assoc]

/-- What holds of an optional value, decided. -/
theorem all_iff {α : Type} {o : Option α} {P : α → Bool} : (∀ u, o = some u → P u = true) ↔ o.all P = true := by
  cases o <;> simp

/-- The pairs that the rule book lists. -/
def rulePairs (s : State) : List (List (Nat × Nat)) :=
  let l := s.convAt (pa 0x33000)
  (List.range l.conv.kv).map fun o => (List.range 2).filterMap fun k =>
    ((l.conv.inputCell l.inp.geo (cellOf (s.siteEntry l.out.geo (0 + k)).key) o).bind (s.siteAt l.conv.inIndex l.inp)).map fun q => (q, 0 + k)

theorem met_MapsJoinSites_rules :
    ∀ cap ∈ [0, 3, 1],
      let s := wRules cap
      let i := cmdOf s
      let x : Cx := ⟨0, 0, 0, i⟩
      let l := s.convAt (pa 0x33000)
      mapping s 4 0x33000 ∧ x.paOf (i.w 3) (i.w 4) 3 = .ok (pa 0x34000) ∧ pa 0x34000 % 64 = 0 ∧ bits (i.w 6) 0 24 = 0 ∧
        min (bits (i.w 7) 0 24) (l.out.cells - 0) = 2 ∧ rulePairs s = [[(0, 0), (1, 1)], [(1, 0)]] ∧ l.inp.state = 2 ∧ l.out.state = 2 ∧
        s.OwnRange x (pa 0x34000) (pairArea l.conv.kv + 8 * (cutPairs (i.w 5) (rulePairs s)).flatten.length) := by
  simp only [mapping, ready, State.Sound, State.atCommand, ownRange_iff]
  decide +kernel

theorem met_MapsJoinSites_rules_sites :
    ∀ cap ∈ [0, 3, 1],
      let s := wRules cap
      let x : Cx := ⟨0, 0, 0, cmdOf s⟩
      let l := s.convAt (pa 0x33000)
      s.seesConv x 0 0 (pa 0x33000) ∧ s.freshIndex x 0 0 l.conv.inIndex l.inp ∧ s.Sees x 0 0 l.out.geo.listBase (16 * (0 + 2)) ∧
        ∀ o < l.conv.kv, ∀ k < 2, ∀ u, l.conv.inputCell l.inp.geo (cellOf (s.siteEntry l.out.geo (0 + k)).key) o = some u →
          s.seesSite x 0 0 l.conv.inIndex l.inp u := by
  simp only [ownRange_iff, State.Sees, State.seesConv, State.freshIndex, seesSite_iff, all_iff]
  decide +kernel

theorem met_MapsJoinSites_walk :
    ∀ cap ∈ [0, 1],
      let s := wWalk cap
      let i := cmdOf s
      let x : Cx := ⟨0, 0, 0, i⟩
      let a := pa 0x32000
      let v := s.gridAt (s.le a 6)
      mapping s 5 0x32000 ∧ bits (i.w 7) 0 12 ≤ 256 ∧ bits (i.w 7) 12 12 ≤ 256 ∧ s.freshIndex x 0 0 a v ∧ s.Sees x 0 0 v.addr 108 ∧
        s.Sees x 0 0 v.geo.listBase (16 * v.cells) ∧ v.geo.pillar = true ∧ v.cells = 2 ∧
        s.Sees x 0 0 v.geo.occBase (256 * v.geo.ny) ∧ storeRangeOk (x.la 3) (8 + 4 * v.cells) = true := by
  simp only [mapping, ready, State.Sound, State.atCommand, ownRange_iff, State.Sees, State.freshIndex]
  decide +kernel

theorem met_MapsJoinSites_and :
    let s := wAnd
    let i := cmdOf s
    let x : Cx := ⟨0, 0, 0, i⟩
    let a := pa 0x32000
    let v := s.gridAt (s.le a 6)
    let cell := fun p => cellOf (s.siteEntry v.geo p).key
    mapping s 6 0x32000 ∧ x.paOf (i.w 3) (i.w 4) 3 = .ok a ∧ a % 64 = 0 ∧ s.OwnRange x a 64 ∧ v.geo.same v.geo = true ∧ s.freshIndex x 0 0 a v ∧
      s.Sees x 0 0 v.addr 108 ∧ s.Sees x 0 0 v.geo.listBase (16 * v.cells) ∧ v.cells = 2 ∧
      s.Sees x 0 0 v.geo.occBase (256 * v.geo.ny) ∧ (∀ p < v.cells, s.seesSite x 0 0 a v (cell p)) ∧ v.geo.pillar = true ∧
      storeRangeOk (x.la 5) (8 + 8 * v.cells) = true := by
  simp only [mapping, ready, State.Sound, State.atCommand, ownRange_iff, State.Sees, State.freshIndex, seesSite_iff]
  decide +kernel

/-- An INT8 operand of two rows of 64 bytes. -/
def wOd (base cols : Nat) : Od := ⟨pa base, 2, 64, fmtInt8, false, 0, cols⟩
def odAt (off base cols : Nat) : Act :=
  .put (pa off) (toLe 8 (pa base) ++ toLe 4 2 ++ toLe 2 64 ++ toLe 2 fmtInt8 ++ toLe 8 0 ++ toLe 4 cols)

/-- The grid's point of admission index 1, and the operands of a command: 3 input columns, `cols` output columns. -/
def wRows (ws : List Nat) (cols : Nat) : State :=
  wBuilt ws [.put (vaultAddr 0 0 (0x4000 + 8)) ([7, 0, 0, 63]), .put (pa 0x10000 + 128 + 8 * 63) (toLe 6 (pa 0x30000)),
    .set .I_SC_BUF_ADDR 0 0 (pa 0x31000), .put (pa 0x31070) [1, 2, 3], odAt 0x40000 0x400000 3, odAt 0x40040 0x410000 cols,
    odAt 0x40080 0x800000 cols, .put (pa 0x400000) [127, 128, 9, 77], .put (pa 0x400040) [1, 255, 6, 78], .put (pa 0x800000) [5, 0x80, 0x7F, 1],
    .put (pa 0x800040) [1],
    .put (pa 0x34000) (toLe 4 0 ++ toLe 4 2 ++ toLe 4 3 ++ toLe 8 0 ++ toLe 4 2 ++ toLe 8 (pa 0x33000) ++ toLe 4 5 ++ toLe 4 5 ++ toLe 24 0 ++
      toLe 4 0 ++ toLe 4 2 ++ toLe 4 2 ++ toLe 4 1),
    .put (pa 0x34000 + pairArea 2) ([0, 0, 1, 1, 1, 0].flatMap (toLe 4))]

def wGatherPillar : State := wRows [0x20, 0x10000, 0x02000000, 0, 3, 0, 0, 0x40040] 4
def wGatherRows (o cols : Nat) : State := wRows [0x120, 0x34000, 0x02000000, o, 0x40000, 0, 0, 0x40040] cols
def wGatherNear (cols : Nat) : State := wRows [0x220, 0x33000, 0x02000000, 1, 0x40000, 0, 2, 0x40040] cols
def wAddMap (dn : Nat) : State :=
  wRows [0x21, 0x10000, 0x02000000, 0x40000, 0x800000, 0x02000000, 3 + fmtInt8 * 65536 + dn * 2 ^ 20, 0] 4
def wAddRows (o : Nat) : State := wRows [0x121, 0x34000, 0x02000000, o, 0x40000, 0x40080] 4

/-- What every form of GATHER and SCATTER_ADD is asked here. -/
def rowing (s : State) (op a : Nat) : Prop :=
  let i := cmdOf s
  let x : Cx := ⟨0, 0, 0, i⟩
  ready s ∧ s.suspectStore 0 0 = false ∧ i.op = op ∧ x.paOf (i.w 1) (i.w 2) 1 = .ok (pa a) ∧ pa a % 64 = 0

theorem met_GathersCollectRows_pillar :
    let s := wGatherPillar
    let i := cmdOf s
    let x : Cx := ⟨0, 0, 0, i⟩
    let d := wOd 0x410000 4
    let v := s.gridAt (pa 0x10000)
    rowing s 0x20 0x10000 ∧ s.RawOd x 7 d ∧ bits i.mode 0 2 = 0 ∧ bits (i.w 3) 0 24 = 0 ∧ min (bits (i.w 4) 0 24) (v.cells - 0) = 2 ∧
      s.OwnRange x (pa 0x10000) 640 ∧ v.state = 2 ∧ v.geo.perCell = 1 ∧ 16 * v.geo.perCell ≤ d.rowBytes ∧ 2 ≤ d.rows ∧ d.span 2 16 = 80 ∧
      s.OwnRange x d.base 80 ∧ s.Sees x d.base 80 (pa 0x10000) 640 ∧ s.Sees x d.base 80 v.geo.listBase (16 * (0 + 2)) := by
  simp only [rowing, ready, State.Sound, State.atCommand, ownRange_iff, State.Sees, State.RawOd]
  decide +kernel

theorem met_GathersCollectRows_pillar_points :
    let s := wGatherPillar
    let x : Cx := ⟨0, 0, 0, cmdOf s⟩
    let a := pa 0x10000
    let d := wOd 0x410000 4
    let v := s.gridAt a
    let cell := fun r => s.siteEntry v.geo (0 + r)
    let entry := fun r j => resEntryOf (s.bytes (v.geo.resAt (cell r).index + 8 * j) 8)
    let head := fun e : ResEntry => s.le (a + 128 + 8 * e.source) 6
    let point := fun e : ResEntry => s.pointAddr (s.bytes (head e) 64) e.index
    ∀ r < 2, (cell r).kept ≤ v.geo.perCell ∧
      ((cell r).kept = 0 ∨ s.vaultReady x (v.geo.resAt (cell r).index) (8 * (cell r).kept)) ∧
      ∀ j < (cell r).kept, s.Sees x d.base 80 (head (entry r j)) 64 ∧ s.Sees x d.base 80 (point (entry r j)) 16 := by
  simp only [ownRange_iff, vaultReady_iff, State.Sees]
  decide +kernel

theorem met_GathersCollectRows_rows :
    ∀ p ∈ [(wGatherRows 0 2, 0, 2), (wGatherRows 1 4, 1, 4)],
      let s := p.1
      let i := cmdOf s
      let x : Cx := ⟨0, 0, 0, i⟩
      let d := wOd 0x410000 p.2.2
      let f := wOd 0x400000 3
      let pairs := s.bookPairs (pa 0x34000) p.2.1
      rowing s 0x20 0x34000 ∧ s.RawOd x 7 d ∧ s.RawOd x 4 f ∧ f.inRegion f.rows ∧ f.fmt = fmtInt8 ∧ d.fmt = fmtInt8 ∧ d.cols ≤ d.rowBytes ∧ bits i.mode 0 2 = 1 ∧
        bits (i.w 3) 0 7 = p.2.1 ∧ pairs.length = 2 - p.2.1 ∧ pairs.length ≤ d.rows ∧ s.OwnRange x d.base (d.span pairs.length d.cols) ∧
        ∀ q ∈ pairs, q.1 < f.rows ∧ s.Sees x d.base (d.span pairs.length d.cols) (f.base + q.1 * f.rowBytes) (min f.cols d.cols) := by
  simp only [rowing, ready, State.Sound, State.atCommand, ownRange_iff, State.Sees, State.RawOd, Od.inRegion]
  decide +kernel

theorem met_GathersCollectRows_book :
    ∀ p ∈ [(wGatherRows 0 2, 0), (wGatherRows 1 4, 1)], p.1.seesBook ⟨0, 0, 0, cmdOf p.1⟩ (pa 0x34000) p.2 := by
  simp only [ownRange_iff, State.Sees, State.seesBook, State.seesConv]
  decide +kernel

theorem met_GathersCollectRows_near :
    ∀ cols ∈ [2, 4],
      let s := wGatherNear cols
      let i := cmdOf s
      let x : Cx := ⟨0, 0, 0, i⟩
      let d := wOd 0x410000 cols
      let f := wOd 0x400000 3
      let l := s.convAt (pa 0x33000)
      rowing s 0x20 0x33000 ∧ s.RawOd x 7 d ∧ s.RawOd x 4 f ∧ f.inRegion f.rows ∧ bits i.mode 0 2 = 2 ∧ bits (i.w 3) 0 7 = 1 ∧ 1 < l.conv.kv ∧
        bits (i.w 5) 0 24 = 0 ∧ min (bits (i.w 6) 0 24) (l.out.cells - 0) = 2 ∧ 2 ≤ d.rows ∧ s.OwnRange x (pa 0x33000) 64 ∧
        s.OwnRange x d.base (d.span 2 d.cols) := by
  simp only [rowing, ready, State.Sound, State.atCommand, ownRange_iff, State.RawOd, Od.inRegion]
  decide +kernel

theorem met_GathersCollectRows_near_sites :
    ∀ cols ∈ [2, 4],
      let s := wGatherNear cols
      let x : Cx := ⟨0, 0, 0, cmdOf s⟩
      let d := wOd 0x410000 cols
      let f := wOd 0x400000 3
      let l := s.convAt (pa 0x33000)
      let len := d.span 2 d.cols
      let joins := fun r => l.conv.inputCell l.inp.geo (cellOf (s.siteEntry l.out.geo (0 + r)).key) 1
      let site := fun r => (joins r).bind (s.siteAt l.conv.inIndex l.inp)
      s.seesConv x d.base len (pa 0x33000) ∧ s.freshIndex x d.base len l.conv.inIndex l.inp ∧
        s.Sees x d.base len l.out.geo.listBase (16 * (0 + 2)) ∧ site 0 = some 1 ∧ site 1 = none ∧
        (∀ r < 2, ∀ u, joins r = some u → s.seesSite x d.base len l.conv.inIndex l.inp u) ∧
        1 < f.rows ∧ s.Sees x d.base len (f.base + 1 * f.rowBytes) (min f.cols d.cols) := by
  simp only [ownRange_iff, State.Sees, State.seesConv, State.freshIndex, seesSite_iff, all_iff]
  decide +kernel

theorem met_ScattersAddRows_map :
    ∀ p ∈ [(wAddMap 0, 0, 128), (wAddMap 2, 2, 64)],
      let s := p.1
      let i := cmdOf s
      let x : Cx := ⟨0, 0, 0, i⟩
      let d := wOd 0x400000 3
      let v := s.gridAt (pa 0x10000)
      let cell := fun r => cellOf (s.siteEntry v.geo (0 + r)).key
      rowing s 0x21 0x10000 ∧ bit i.mode 0 = false ∧ s.RawOd x 3 d ∧ x.paOf (i.w 4) (i.w 5) 4 = .ok (pa 0x800000) ∧ bits (i.w 6) 0 13 = 3 ∧
        bits (i.w 6) 16 4 = fmtInt8 ∧ bits (i.w 6) 20 2 = p.2.1 ∧ bits (i.w 7) 0 24 = 0 ∧ s.OwnRange x (pa 0x10000) 640 ∧ v.state = 2 ∧
        v.geo.pillar = true ∧ s.OwnRange x (pa 0x800000) p.2.2 ∧ x.own (pa 0x800000) = some 0x800000 ∧ min d.rows (v.cells - 0) = 2 ∧
        s.Sees x (pa 0x800000) p.2.2 (pa 0x10000) 640 ∧ s.Sees x (pa 0x800000) p.2.2 v.geo.listBase (16 * (0 + 2)) ∧
        s.OwnRange x d.base (d.span 2 d.cols) ∧
        ∀ r < 2, (cell r).x < v.geo.nx ∧ (cell r).y < v.geo.ny ∧ s.Sees x (pa 0x800000) p.2.2 (d.base + r * d.rowBytes) 3 := by
  simp only [rowing, ready, State.Sound, State.atCommand, ownRange_iff, State.Sees, State.RawOd]
  decide +kernel

theorem met_ScattersAddRows_rows :
    ∀ o ∈ [0, 1],
      let s := wAddRows o
      let i := cmdOf s
      let x : Cx := ⟨0, 0, 0, i⟩
      let d := wOd 0x400000 3
      let out := wOd 0x800000 4
      let pairs := s.bookPairs (pa 0x34000) o
      let row := fun j => ((pairs.getD j (0, 0)).2 + 2 ^ 32 - s.le (pa 0x34000) 4) % 2 ^ 32
      let len := out.span out.rows out.cols
      rowing s 0x21 0x34000 ∧ bit i.mode 0 = true ∧ s.RawOd x 4 d ∧ s.RawOd x 5 out ∧ bits (i.w 3) 0 7 = o ∧ s.OwnRange x out.base len ∧
        x.own out.base = some 0x800000 ∧ 1 ≤ pairs.length ∧ pairs.length ≤ d.rows ∧
        ∀ j < pairs.length, row j < out.rows ∧ s.Sees x out.base len (d.base + j * d.rowBytes) (min d.cols out.cols) := by
  simp only [rowing, ready, State.Sound, State.atCommand, ownRange_iff, State.Sees, State.RawOd]
  decide +kernel

theorem met_ScattersAddRows_region : (wOd 0x400000 3).inRegion (wOd 0x400000 3).rows := by
  simp only [Od.inRegion]
  decide +kernel

theorem met_ScattersAddRows_book : ∀ o ∈ [0, 1], (wAddRows o).seesBook ⟨0, 0, 0, cmdOf (wAddRows o)⟩ (pa 0x34000) o := by
  simp only [ownRange_iff, State.Sees, State.seesBook, State.seesConv]
  decide +kernel

/-! #### Shutters, transactions and the HBM controllers -/

/-- The last group of a unit of die 1 in a state, with a request, lost or not, held or not. -/
def wShut (u : ShutterUnit) (st req lost : Nat) (as : List Act := []) : State :=
  let g := shutGroups u - 1
  after ([.set .PWR_DOM_ON 1 0 0xFFFFFF, .set (shutStateFld u) 1 (shutIdx u) (st * 4 ^ g), .set (shutFld u) 1 (shutIdx u) (req * 4 ^ g),
    .set (shutLostFld u) 1 (shutIdx u) (lost * 2 ^ g), .put (shutRange u 1 g).1 [9], .put ((shutRange u 1 g).1 - 1) [8]] ++ as)

theorem met_ShuttersOpenAndClose :
    (∀ u ∈ [ShutterUnit.wStore 31, .aStore 31, .pStore 31, .vault 3], ∀ st ∈ [0, 1, 2, 3], ∀ req ∈ [0, 2],
      let s := wShut u st req 1
      (Registers.wf s.regs = true ∧ Memory.wf s.mem = true ∧ Memory.wf s.cfg = true) ∧ s.dieThere 1 = true ∧
      s.shutState 1 u (shutGroups u - 1) = st ∧ s.shutReq 1 u (shutGroups u - 1) = req ∧ s.shutHeld 1 u (shutGroups u - 1) = false ∧
      bit (s.rd (shutLostFld u) 1 (shutIdx u)) (shutGroups u - 1) = true) ∧
      (wShut (.vault 3) 2 0 0 [.set .FLT_RETIRED_SEG 1 0 (2 ^ 63)]).shutHeld 1 (.vault 3) 15 = true ∧
      bit ((wShut (.pStore 31) 3 2 0).rd .I_SHUT_LOST_P 1 31) 7 = false := by
  decide +kernel

/-- Mullion entry 63 of die 0 opens every address to the host's partition or to none; the host's link is up or not. -/
def wFabric (mul up : Nat) (as : List Act := []) : State :=
  after ([powered, .setAc .MUL_VALID 0 63 mul, .setAc .MUL_READ 0 63 1, .setAc .MUL_WRITE 0 63 1, .setAc .MUL_BASE 0 63 0,
    .setAc .MUL_LIMIT 0 63 (2 ^ 33 - 1), .set .PCIE_STATUS_LINK 0 0 up, .put (vaultAddr 0 3 0xF0) (List.range 12 |>.flatMap (toLe 1)),
    .put (hbmAddr 0 1 0xF0) [1, 2]] ++ as)

/-- `State.way` of a requester on the die of the address. -/
theorem way_iff {s : State} {who : Requester} {a : Nat} (h : requesterDie who = addrDie a) : s.way who a ↔ s.dieRuns (addrDie a) := by
  simp [State.way, State.route, h, State.hops]

/-- What every tag may, decided. -/
theorem tags_iff {o : Option (Nat × Bool)} {P : Nat × Bool → Bool} : (∀ u, o = some u → P u = true) ↔ o.all P = true := all_iff

theorem met_TransactionsReachTheirTarget_bytes :
    let s := wFabric 1 1
    let a := hbmAddr 0 1 0xF0
    s.Sound ∧ a < 2 ^ 48 ∧ a % 256 + 16 = 256 ∧ s.openHbm a 16 ∧ s.soundHbm a 16 ∧ s.reaches .host a true ∧ s.reaches .host a false ∧
      (s.on .PCIE_STATUS_LINK 0 = true ∧ s.hostAddr 1 a = a) ∧ (wFabric 1 0).on .PCIE_STATUS_LINK 0 = false ∧ (wFabric 1 0).hostAddr 1 a = a := by
  refine ⟨?_, by decide +kernel, by decide +kernel, openHbm_iff.mpr (by decide +kernel), soundHbm_of (by decide +kernel) (by decide +kernel), ?_, ?_,
    by decide +kernel, by decide +kernel, by decide +kernel⟩
  · simp only [State.Sound]
    decide +kernel
  all_goals
    rw [State.reaches, way_iff (by decide +kernel), tags_iff]
    simp only [State.dieRuns]
    decide +kernel

theorem met_TransactionsReachTheirTarget_refused :
    let s := wFabric 0 1
    let a := hbmAddr 0 1 0xF0
    s.Sound ∧ s.way .host a ∧ s.tagOf .host = some (0, false) ∧ s.admits (addrDie a) (addrOff a) (0, false) true = false ∧
      s.admits (addrDie a) (addrOff a) (0, false) false = false := by
  intro s a
  rw [way_iff (by decide +kernel)]
  simp only [State.Sound, State.dieRuns]
  decide +kernel

/-- A die with its fabric alone. -/
def wDark : State := after [.set .PWR_DOM_ON 0 0 0x80]
def nowhereAddr : Nat := vaultBase + 128 * mib

theorem met_TransactionsReachTheirTarget_absent :
    wDark.Sound ∧ wDark.dieThere (addrDie (pkgAddr 7 0)) = false ∧ pkgAddr 7 0 < 2 ^ 48 ∧
      (wDark.way (.keeper 0) (vaultAddr 0 0 0) ∧ wDark.tagOf (.keeper 0) = none ∧ wDark.placeOn 0 (placeOf (addrOff (vaultAddr 0 0 0))) = false) ∧
      (wFabric 1 1).reaches .host nowhereAddr false ∧ placeOf (addrOff nowhereAddr) = .nowhere ∧ nowhereAddr < 2 ^ 48 ∧
      ((Act.set .PCIE_APT_BASE 0 0 3584).run (wFabric 1 1)).hostAddr 1 0 = pkgAddr 7 0 := by
  rw [State.reaches, way_iff (by decide +kernel), way_iff (by decide +kernel), tags_iff]
  simp only [State.Sound, State.dieRuns]
  decide +kernel

theorem met_TransactionsReachTheirTarget_units :
    let s := wFabric 1 1
    let a := vaultAddr 0 3 0xF0
    let r := pkgAddr 0 (regBase + 0x2F0000)
    let b := pkgAddr 0 (regBase + 0x10000)
    s.Sound ∧ placeOf (addrOff a) = .vault 3 0xF0 ∧ s.rd .VT_STATE (addrDie a) 3 = 0 ∧ (s.aux.checks = [] ∧ s.aux.flaky = []) ∧ s.reaches .host a true ∧
      a % 256 + 16 = 256 ∧ s.le (a + 4) 3 ≠ 5 % 2 ^ 24 ∧ s.le (a + 4) 3 = 0x060504 % 2 ^ 24 ∧ placeOf (addrOff r) = .regs 0x2F0000 ∧
      s.reaches .host r true ∧ requesterDie .host = addrDie r ∧ coreOfReg 0x2F0000 = some 31 ∧ (∀ x < 4, s.ctxState 0 31 x ≠ 2) ∧
      placeOf (addrOff b) = .regs 0x10000 ∧ s.reaches .host b true := by
  refine ⟨?_, by decide +kernel, by decide +kernel, by decide +kernel, ?_, by decide +kernel, by decide +kernel, by decide +kernel, by decide +kernel, ?_,
    by decide +kernel, by decide +kernel, by decide +kernel, by decide +kernel, ?_⟩
  · simp only [State.Sound]
    decide +kernel
  all_goals
    rw [State.reaches, way_iff (by decide +kernel), tags_iff]
    simp only [State.dieRuns]
    decide +kernel

/-- Stack 1 of die 0 up or not, one word short of a pass's end or `off` it; channel 15 with all the granules of a window. -/
def wHbm (up scrubbed granules limit need : Nat) : State :=
  after [.set .PWR_DOM_ON 0 0 0xFFFFFF, .set .HBM_STATUS_STATE 0 1 up, .set .I_HBM_SCRUBBED 0 1 scrubbed, .set .I_HBM_CNT 0 31 granules,
    .set .HBM_IMB_LIMIT 0 1 limit, .set .HBM_IMB_WINDOWS 0 1 need, .set .I_HBM_OVER 0 1 1]

theorem met_HbmControllers :
    (∀ n ∈ [stackBytes / 8 - 1, stackBytes / 8 - 2], (wHbm 1 n 0 0 0).Sound ∧ (wHbm 1 n 0 0 0).dieThere 0 = true ∧ (wHbm 1 n 0 0 0).hbmReady 0 1 = true ∧
      (wHbm 1 n 0 0 0).rd .I_HBM_SCRUBBED 0 1 = n ∧ hbmAddr 0 1 (stackBytes - 8) ∉ (wHbm 1 n 0 0 0).aux.badWords ++ (wHbm 1 n 0 0 0).aux.weakWords) ∧ (stackBytes - 1) / 8 * 8 < stackBytes ∧
      (wHbm 0 0 0 0 0).hbmReady 0 1 = false ∧
      (∀ p ∈ [(65535, 256, 0), (65536, 256, 2), (65536, 255, 2), (65536, 255, 3), (65536, 255, 0)], (wHbm 1 0 p.1 p.2.1 p.2.2).Sound ∧
        ((wHbm 1 0 p.1 p.2.1 p.2.2).windowCounts 0 1).sum = p.1 ∧ (wHbm 1 0 p.1 p.2.1 p.2.2).rd .HBM_IMB_LIMIT 0 1 = p.2.1) ∧
      ((wHbm 1 0 65536 0 0).windowCounts 0 1).foldl max 0 * 256 / 65536 = 256 := by
  simp only [State.Sound]
  decide +kernel

/-! #### Die links and islands -/

/-- A block of a sequence number and kind, with its check or a wrong one. -/
def wBlock (seq kind : Nat) (bad : Nat := 0) (flits : List Byte := []) : List Byte :=
  let b := toLe 2 seq ++ toLe 2 0 ++ toLe 1 kind ++ toLe 7 0 ++ (flits ++ List.replicate 240 0).take 240
  b ++ toLe 4 ((crc32c b + bad) % 2 ^ 32)

/-- A doorbell from die 1, and a header flit of no operation. -/
def wTxn : LinkTxn := ⟨regBase + 0x10000, 0, 6, 7, 1, 0, 0, toLe 5 0x3FF, []⟩
def wTxnBytes (op : Nat) : List Byte := { wTxn with op := op }.bytes

/-- Port 3 of die 0 in a state; the last accepted sequence number is the greatest. -/
def wLink (st : Nat) (as : List Act := []) : State :=
  after ([.set .PWR_DOM_ON 0 0 0xFFFFFF, .set .IGN_STATUS_STATE 0 3 st, .set .I_IGN_RX_SEQ 0 3 65535] ++ as)

/-- 100 µs after the link went down, with another link up or not. -/
def wDown (ticks other : Nat) : State :=
  wLink 0 [.set .I_IGN_DOWN_TICK 0 3 1, .set .I_TICKS 0 0 ticks, .set .IGN_STATUS_STATE 0 0 other, .set .IGN_STATUS_STATE 1 0 other]

set_option maxRecDepth 100000 in
theorem met_DieLinksCarryBlocks :
    (∀ s ∈ [wLink 0, wLink 1, wLink 2, wLink 3, wLink 2 [.set .I_IGN_SKIP 0 3 1], wDown 49999 2, wDown 50000 2, wDown 50000 0],
      (Registers.wf s.regs = true ∧ Memory.wf s.mem = true ∧ Memory.wf s.cfg = true) ∧ s.portUsed 0 3 = true) ∧
      (∀ b ∈ [wBlock 0 0 0 (wTxnBytes 6), wBlock 65535 0, wBlock 65535 1, wBlock 1 3, wBlock 0 0 0 (wTxnBytes 9)], b.length = 256 ∧ leAt b 252 4 = crc32c (b.take 252) ∧ byteAt b 4 < 4) ∧
      (wLink 2).received 0 3 (wBlock 0 0 0 (wTxnBytes 6)) = some ([wTxn], []) ∧ (wLink 2).received 0 3 (wBlock 0 0 0 (wTxnBytes 9)) = none ∧
      leAt (wBlock 0 0 0 (wTxnBytes 9)) 0 2 = (65535 + 1) % 2 ^ 16 ∧ leAt (wBlock 65535 1) 0 2 = (wLink 2).rd .I_IGN_RX_SEQ 0 3 ∧
      leAt (wBlock 0 0 0 (wTxnBytes 6)) 0 2 = (65535 + 1) % 2 ^ 16 ∧ leAt (wBlock 65535 0) 0 2 ≠ (65535 + 1) % 2 ^ 16 ∧
      leAt (wBlock 0 0 1) 252 4 ≠ crc32c ((wBlock 0 0 1).take 252) ∧ (wBlock 0 0).tail.length ≠ 256 ∧ ¬ byteAt (wBlock 0 4) 4 < 4 ∧
      (wLink 2).rd .I_IGN_RESENT 0 3 < 8 ∧ 8 ≤ (wLink 2 [.set .I_IGN_RESENT 0 3 8]).rd .I_IGN_RESENT 0 3 ∧
      (countOnes 34 3 ≤ 2 ∧ 2 < countOnes 34 7 ∧ lanesAfter 7 0 ≠ none ∧ lanesAfter (2 ^ 34 - 1) 0 = none ∧ (2 ^ 34 - 1 : Nat) < 2 ^ 34) ∧ (wLink 1).rd .IGN_STATUS_STATE 0 3 = 1 ∧
      (wDown 50000 2).rd .I_IGN_DOWN_TICK 0 3 = 1 ∧ ignPeer (wDown 50000 2).dies 0 3 = some (1, 3) ∧ (wDown 49999 2).ticks < 1 - 1 + 50000 := by
  decide +kernel

/-- Zone 63 of die 0 belongs to partition 7, whose safety frame is due or not and can leave the port or not. -/
def wSafe (link ticks : Nat) (as : List Act := []) : State :=
  after ([powered, .setAc .ZN_VALID 0 63 1, .setAc .ZN_PARTITION 0 63 7, .setAc .PT_SAFETY 0 7 1, .setAc .SF_EN 0 7 1,
    .setAc .SF_HEARTBEAT_MS 0 7 1, .setAc .SF_PORT 0 7 1, .setAc .SF_PEER_ADDR 0 28 0x0A000002, .set .I_TICKS 0 0 ticks,
    .set .ETH_STATUS_LINK 0 1 link, .set .ETH_STATUS_SECURE 0 1 1, .set .I_IMAGE_RUNS 0 0 1, .set .CTX_PART 0 127 7, .set .CTX_SAFETY 0 127 1,
    .set .PT_STATE 0 7 2, .aux fun a => { a with image := some wImage, hops := [⟨0, 1, false, 0x0A000002, some 5, 0⟩] }] ++ as)

theorem met_IslandsWatchAndProve_zones :
    (∀ s ∈ [wSafe 1 500000, wSafe 0 500000, wSafe 1 499999], (Registers.wf s.regs = true ∧ Memory.wf s.mem = true ∧ Memory.wf s.cfg = true) ∧
      s.dieThere 0 = true ∧ s.rd .I_ULS_WAIT 0 183 = 0 ∧ s.acOn .SF_EN 0 7 = true ∧ s.ac .SF_HEARTBEAT_MS 0 7 = 1 ∧ s.rd .SEC_STATE 0 ≠ 3 ∧
      s.tagOf (.context 0 31 3) = some (s.ac .ZN_PARTITION 0 63, true) ∧ s.tagOf .host ≠ some (s.ac .ZN_PARTITION 0 63, true)) ∧
      (wSafe 1 500000).rd .I_SF_TICK 0 7 + 1 * 500000 ≤ (wSafe 1 500000).ticks ∧
      ¬ (wSafe 1 499999).rd .I_SF_TICK 0 7 + 1 * 500000 ≤ (wSafe 1 499999).ticks ∧
      (wSafe 1 500000).canSend 0 1 false 0x0A000002 = true ∧ (wSafe 0 500000).canSend 0 1 false 0x0A000002 = false := by
  decide +kernel

/-- A proof of group 63 on core 31 of die 0, whose two output rows have a CRC. -/
def wProofOf (state : Nat) (engines : List Nat) : Proof :=
  { die := 0, core := 31, group := 63, engines := engines, tick := 0, state := state }

def wProof (state : Nat) (engines : List Nat) (golden : Nat) : State :=
  after [powered, .setAc .PG_ROWS 0 63 2, .setAc .PG_OUT 0 63 0x800000, .setAc .PG_GOLDEN 0 63 golden, .setAc .PG_SLACK_US 0 63 1,
    .setAc .PG_LIST 0 63 0x1000, .setAc .PG_PARTITION 0 63 7, .set .I_TICKS 0 0 500, .put (storeAddr 0 31 (0x800000 + 3 * 512)) [1, 2, 3],
    .aux fun a => { a with proofs := [wProofOf state engines] }]

/-- The CRC of engine 3's output. -/
def goldenCrc : Nat := crc32c ((wProof 0 [] 0).bytes (storeAddr 0 31 (0x800000 + 3 * 512)) 512)

set_option maxRecDepth 100000 in
theorem met_IslandsWatchAndProve_proofs :
    (∀ s ∈ [wProof 0 [0, 3] 0, wProof 2 [3] goldenCrc, wProof 2 [3] (goldenCrc ^^^ 1), wProof 3 [3] goldenCrc],
      (Registers.wf s.regs = true ∧ Memory.wf s.mem = true ∧ Memory.wf s.cfg = true) ∧ s.suspectStore 0 31 = false ∧ s.dieThere 0 = true) ∧
      ((wProof 0 [0, 3] 0).proofOf 0 31 (fun q => q.state == 0) = some (wProofOf 0 [0, 3]) ∧ (wProof 0 [0, 3] 0).ctxFree 0 31 0 = true ∧
        (wProof 0 [0, 3] 0).proofOf 0 31 (fun q => q.state == 0 &&
          decide (q.tick + (wProof 0 [0, 3] 0).ac .PG_SLACK_US 0 q.group * ticksPerUs ≤ (wProof 0 [0, 3] 0).ticks)) = some (wProofOf 0 [0, 3]) ∧
        [0, 3].Nodup) ∧
      (wProof 2 [3] 0).proofOf 0 31 (fun q => q.state == 0) = none ∧
      (wProof 2 [3] goldenCrc).proofOf 0 31 (fun q => decide (2 ≤ q.state)) = some (wProofOf 2 [3]) ∧
      (wProof 3 [3] goldenCrc).proofOf 0 31 (fun q => decide (2 ≤ q.state)) = some (wProofOf 3 [3]) ∧
      (wProof 2 [3] goldenCrc).ac .PG_ROWS 0 63 * 256 = 512 ∧ (wProof 2 [3] goldenCrc).ac .PG_GOLDEN 0 63 = goldenCrc ∧
      (wProof 2 [3] (goldenCrc ^^^ 1)).ac .PG_GOLDEN 0 63 ≠ goldenCrc := by
  decide +kernel

theorem met_IslandsWatchAndProve_beats :
    (∀ s ∈ [wSafe 1 499999 [.set .I_SAFE_EXITED 0 0 1, .set .I_SAFE 0 0 0], wSafe 1 499999, wSafe 1 500000, wSafe 1 500000 [.set .I_IMAGE_RUNS 0 0 0]],
      Registers.wf s.regs = true ∧ Memory.wf s.mem = true ∧ Memory.wf s.cfg = true) ∧
      (wSafe 1 499999 [.set .I_SAFE_EXITED 0 0 1, .set .I_SAFE 0 0 0]).alive = true ∧ (wSafe 1 500000).alive = false ∧
      ((wSafe 1 500000).on .I_IMAGE_RUNS 0 = true ∧ (wSafe 1 500000).beatMissing 0 = true) ∧ (wSafe 1 499999).beatMissing 0 = false ∧
      (wSafe 1 500000 [.set .I_IMAGE_RUNS 0 0 0]).on .I_IMAGE_RUNS 0 = false ∧ (wSafe 1 500000).safetyPart 7 = true ∧
      ((wSafe 1 0 [.set .I_RESTART_COLD 0 0 0]).on .I_RESTART_COLD 0 = false ∧ (wSafe 1 0).on .I_RESTART_WARM 0 = false ∧
        (wSafe 1 0).rd .PT_STATE 0 7 ≠ 0) ∧ (255 : Nat) < 256 ∧ bit 255 7 = true ∧ (wSafe 1 0).zoneValid 0 63 = true ∧
      (wSafe 1 0).running 7 = true ∧ (wSafe 1 0).guards 0 7 = [63] ∧ (wSafe 1 0 [.set .I_ZN_FRESH 0 63 1]).on .I_ZN_FRESH 0 63 = true := by
  decide +kernel

/-! #### Faults, restarts, power -/

/-- An image whose partition 7 has a variant with a core of die 0, or none. -/
def wBootImage (fits : Bool) : Image :=
  { wImage with
    partUsed := 0x80
    variants := if fits then [⟨7, 0, [{ die := 0, lcores := 2 ^ 31, full := 0, vseg := 0, hbmBase := 0, hbmMib := 0 }]⟩] else [] }

/-- Safety partition 7 holds logical core 31 of die 0; restarts are requested or not. -/
def wFaultState (as : List Act) : State :=
  after ([powered, .set .I_RESTART_COLD 0 0 0, .set .PT_STATE 0 7 2, .setAc .PT_SAFETY 0 7 1, .set .HG_VALID 0 31 1, .set .HG_PART 0 31 7,
    .set .WK_VALID 0 (wkIdx 31 15) 1, .put (hbmAddr 0 0 0) [1]] ++ as)

def wRestart (part warm : Nat) (fits : Bool) : State :=
  wFaultState [.set .I_RESTART_PART 0 7 part, .set .I_RESTART_WARM 0 0 warm, .set .PT_STATE 0 7 3, .set .PT_EPOCH 0 7 4,
    .aux fun a => { a with image := some (wBootImage fits) }]

theorem met_FaultsAndRestarts_faults :
    let s := wFaultState []
    s.Sound ∧ s.dieThere 0 = true ∧ s.on .I_RESTART_COLD 0 = false ∧ s.on .I_RESTART_WARM 0 = false ∧ s.partsOnCore 0 31 = [7] ∧
      s.on .I_RESTART_PART 0 7 = false ∧ s.rd .PT_STATE 0 7 ≠ 0 ∧ s.safetyPart 7 = true ∧ s.on .HG_VALID 0 31 = true ∧
      s.rd .HG_PART 0 31 = 7 ∧ ∀ p < 8, (wFaultState [.setAc .PT_SAFETY 0 7 0]).safetyPart p = false := by
  simp only [State.Sound]
  decide +kernel

theorem met_FaultsAndRestarts_restarts :
    (∀ s ∈ [wRestart 1 0 true, wRestart 1 0 false, wRestart 0 1 true, wRestart 0 1 false],
      (Registers.wf s.regs = true ∧ Memory.wf s.mem = true ∧ Memory.wf s.cfg = true) ∧ s.aux.image.isSome = true) ∧
      (wRestart 1 0 true).on .I_RESTART_PART 0 7 = true ∧ (wRestart 0 1 true).on .I_RESTART_PART 0 7 = false ∧
      (wRestart 0 1 true).on .I_RESTART_WARM 0 = true ∧ (wRestart 1 0 true).on .I_RESTART_WARM 0 = false ∧
      (wBootImage true).parts = [7] ∧ (wFaultState [.set .I_RESTART_PART 0 7 1, .set .I_RESTART_WARM 0 0 1]).aux.image = none := by
  decide +kernel

/-- Restarts that have taken too long, and one tick less. -/
def wLateRestart (ticks : Nat) : State :=
  wFaultState [.set .I_RESTART_PART 0 7 1, .set .I_RESTART_WARM 0 0 1, .set .PT_STATE 0 7 3, .set .I_TICKS 0 0 ticks]

theorem met_FaultsAndRestarts_timeouts :
    (wLateRestart 450000000).Sound ∧ (wLateRestart 149999999).Sound ∧ (wLateRestart 450000000).on .I_RESTART_PART 0 7 = true ∧
      (wLateRestart 450000000).running 7 = false ∧
      (wLateRestart 150000000).rd .I_RESTART_PART_AT 0 7 + 150000000 ≤ (wLateRestart 150000000).ticks ∧
      ¬ (wLateRestart 149999999).rd .I_RESTART_PART_AT 0 7 + 150000000 ≤ (wLateRestart 149999999).ticks ∧
      (wLateRestart 450000000).on .I_RESTART_WARM 0 = true ∧
      (wLateRestart 450000000).rd .I_RESTART_WARM_AT 0 + 450000000 ≤ (wLateRestart 450000000).ticks ∧
      ¬ (wLateRestart 449999999).rd .I_RESTART_WARM_AT 0 + 450000000 ≤ (wLateRestart 449999999).ticks := by
  simp only [State.Sound]
  decide +kernel

/-- A cold start is requested, of a part that is decommissioned or not, with bytes in the areas of the configuration store. -/
def wCold (decomm tripped : Nat) : State :=
  after [.set .I_RESTART_COLD 0 0 1, .set .FUSE_DECOMM 0 0 decomm, .set .I_TRIPPED 0 0 tripped, .set .PT_STATE 0 7 2, .cfgPut 0x2000 [1],
    .cfgPut 0x10000 [2], .cfgPut 0x60000 [3], .put (hbmAddr 0 0 0) [1]]

/-- The directory copies hold nothing. -/
theorem cfgByte_of_empty {s : State} (h : sparseBelow compare 0x1FFF s.cfg = true) : ∀ a < 0x2000, s.cfgByte a = 0 := by
  intro a ha
  have hb : sparseBelow compare a s.cfg = true := by
    by_cases he : a = 0x1FFF
    · exact he ▸ h
    · exact Laws.sparseBelow_of_lt Laws.linearCmp_nat (Nat.compare_eq_lt.mpr (by omega)) h
  exact Laws.sparseGet_of_below hb

theorem met_FaultsAndRestarts_cold :
    (wCold 0 0).Sound ∧ (wCold 1 0).Sound ∧ (wCold 0 1).Sound ∧ (wCold 0 0).dieThere 0 = true ∧
      ((wCold 0 0).on .I_RESTART_COLD 0 = true ∧ (wCold 0 0).on .I_TRIPPED 0 = false ∧ (wCold 0 0).decommissioned = false) ∧
      (wCold 1 0).decommissioned = true ∧ (wCold 0 1).on .I_TRIPPED 0 = true ∧ (wFaultState []).on .I_RESTART_COLD 0 = false := by
  simp only [State.Sound]
  decide +kernel

theorem met_FaultsAndRestarts_directory : ∀ a < 0x2000, (wCold 0 0).cfgByte a = 0 := cfgByte_of_empty (by decide +kernel)

/-- A sensor reading, the power estimate, a package state. -/
def wPkg (st : Nat) (as : List Act := []) : State :=
  after ([powered, .set .PKG_STATE 0 0 st, .set .I_RESTART_COLD 0 0 0, .set .I_PERST 0 0 0, .set .TH_WARN 0 0 800, .set .TH_CRIT 0 0 880,
    .set .LV_FLOOR 0 0 5, .set .PT_STATE 0 7 2, .set .PKG_WAKE_AT 0 0 7] ++ as)

/-- Safety partition 7 runs, so that STANDBY and SLEEP are refused. -/
def wBusyPkg : State := wPkg 0 [.setAc .PT_SAFETY 0 7 1]

theorem met_PowerAndPackageStates :
    (∀ s ∈ [wPkg 0, wPkg 1, wPkg 2, wPkg 3, wBusyPkg], (Registers.wf s.regs = true ∧ Memory.wf s.mem = true ∧ Memory.wf s.cfg = true) ∧
      s.dieThere 0 = true) ∧
      ([800].take 16).max? = some (800 : Int) ∧ (wPkg 0).thWarn 0 = 800 ∧ (wPkg 0).thCrit 0 = 880 ∧
      (wPkg 0).pkgRefusal 1 = none ∧ (wPkg 0).pkgRefusal 2 = none ∧ wBusyPkg.pkgRefusal 1 = some 1 ∧ wBusyPkg.pkgRefusal 2 = some 1 ∧
      ((wPkg 2).rd .PKG_WAKE_AT 0 ≠ 0 ∧ ¬ (wPkg 2).rd .PKG_WAKE_AT 0 ≤ (wPkg 2).now 0 ∧
        (wPkg 2 [.set .TIME_NOW_NS 0 0 7]).rd .PKG_WAKE_AT 0 ≤ (wPkg 2 [.set .TIME_NOW_NS 0 0 7]).now 0) ∧
      ((wPkg 0).rd .I_PERST 0 = 0 ∧ (wPkg 2 [.set .I_PERST 0 0 1, .set .I_WAKE 0 0 1]).rd .I_PERST 0 = 1) ∧
      ((wPkg 0).rd .PCIE_STATUS_LINK 0 = 0 ∧ (wPkg 0 [.set .PCIE_STATUS_LINK 0 0 1]).rd .PCIE_STATUS_LINK 0 = 1) := by
  decide +kernel

/-! #### Ports -/

/-- Data port 1 of die 0 with both address families and a VLAN tag, the management port without any. -/
def wPort6 : Port := ⟨0, 1, 0, 28, 5, 0, 0x0A000001, 24, 0, 0x20010DB8 * 2 ^ 96 + 1, 64, 0⟩

/-- Ports up, with a CAK's bytes in the key area or without, a channel whose peer is on the port's link and a hop that has missed twice. -/
def wEth (secure peers : Nat) (as : List Act := []) : State :=
  after ([.set .ETH_STATUS_LINK 0 1 1, .set .ETH_STATUS_SECURE 0 1 secure, .set .ETH_STATUS_PEERS 0 1 peers, .set .I_MG_LINK 0 0 1,
    .set .I_ETH_SAK 0 1 (2 ^ 32 - 1), .cfgPut (secretBase + 512) [1, 0, 77], .cfgPut (secretBase + 256 * 17) [1, 0, 77],
    .setAc .CH_VALID 0 63 1, .setAc .CH_PORT 0 63 1, .setAc .CH_PEER_ADDR 0 (4 * 63) 0x0A000002,
    .aux fun a => { a with
      image := some { wImage with ports := [wPort6] }
      hops := [⟨0, 1, false, 0x0A000002, some 9, 2⟩, ⟨0, 1, true, 0x20010DB8 * 2 ^ 96 + 2, some 9, 0⟩] }] ++ as)

/-- The MACsec clauses; what the key area unwraps to is no number of the spec. -/
theorem met_PortsAreSecuredAndResolved_keyed (k : List Byte) (h : Config.unwrapSecret false [77#8] = some k) :
    ∀ s ∈ [wEth 0 0, wEth 1 0, wEth 1 3, wEth 1 0 [.set .I_MKA_SILENT 0 1 1]],
      (s.linkOn 0 1 = true ∧ s.hasCak 0 1 = true) ∧ (s.linkOn 0 2 = true ∧ s.hasCak 0 2 = true) := by
  have hc : ∀ s ∈ [wEth 0 0, wEth 1 0, wEth 1 3, wEth 1 0 [.set .I_MKA_SILENT 0 1 1]],
      leNat (s.cfgBytes (secretBase + 256 * 2) 2) = 1 ∧ leNat (s.cfgBytes (secretBase + 256 * 17) 2) = 1 ∧
      s.cfgBytes (secretBase + 256 * 2 + 2) 1 = [77] ∧ s.cfgBytes (secretBase + 256 * 17 + 2) 1 = [77] ∧ s.decommissioned = false ∧
      s.linkOn 0 1 = true ∧ s.linkOn 0 2 = true := by decide +kernel
  intro s hs
  obtain ⟨a, b, c, d, e, f, g⟩ := hc s hs
  simp [State.hasCak, State.secret, portIndex, a, b, c, d, e, f, g, h]

theorem met_PortsAreSecuredAndResolved_keys :
    (∀ s ∈ [wEth 0 0, wEth 1 0, wEth 1 3, wEth 1 0 [.set .I_MKA_SILENT 0 1 1], wNet],
      (Registers.wf s.regs = true ∧ Memory.wf s.mem = true ∧ Memory.wf s.cfg = true) ∧ s.dieThere 0 = true ∧ (1 : Nat) < 3 ∧ (2 : Nat) < 3) ∧
      (wEth 0 0).secureOn 0 1 = false ∧ (wEth 1 0).secureOn 0 1 = true ∧ (wEth 1 0).livePeers 0 1 = 0 ∧ (wEth 1 3).livePeers 0 1 ≠ 0 ∧
      (wEth 1 0).rd .I_MKA_SILENT 0 1 = 0 ∧ (wEth 1 0 [.set .I_MKA_SILENT 0 1 1]).rd .I_MKA_SILENT 0 1 = 1 ∧ (wEth 0 0).secureOn 0 2 = false ∧
      ¬ ((wNet).linkOn 0 1 = true ∧ (wNet).hasCak 0 1 = true) := by
  simp only [State.hasCak, show (wNet).secret (1 + portIndex 0 1) = none from by
    simp only [State.secret, show (leNat ((wNet).cfgBytes (secretBase + 256 * (1 + portIndex 0 1)) 2) == 0) = true from by decide +kernel, if_true]]
  decide +kernel

/-- An ARP request for the port's address, and a Neighbor Solicitation for its IPv6 address, from an address or from none. -/
def wArp (tpa : Nat) : List Byte := toBe 6 (2 ^ 48 - 1) ++ toBe 6 0x020000000002 ++ toBe 2 0x0806 ++ arpBody 1 0x020000000002 0x0A000002 0 tpa
def wSolicit (src : Nat) : List Byte :=
  toBe 6 (0x3333 * 2 ^ 32 + 0xFF000001) ++ toBe 6 0x020000000002 ++ toBe 2 0x86DD ++
    icmp6Packet src (0xFF02 * 2 ^ 112 + 0x1FF * 2 ^ 24 + 1) (toBe 1 135 ++ toBe 7 0 ++ toBe 16 (0x20010DB8 * 2 ^ 96 + 1))

theorem met_PortsAreSecuredAndResolved_asked :
    let s := wEth 1 1
    let x := 0x20010DB8 * 2 ^ 96 + 1
    s.Sound ∧ s.portEntry 0 1 = some wPort6 ∧ bit wPort6.flags 2 = true ∧ s.framesPass 0 1 = true ∧ s.macForPort 0 1 (wArp 0x0A000001) = true ∧
      arpAsks (wArp 0x0A000001) wPort6.ipv4 = true ∧ arpAsks (wArp 0x0A000003) wPort6.ipv4 = false ∧ s.answersFor 0 1 x = true ∧
      (∀ src ∈ [0, x + 1], solicited (wSolicit src) = some x ∧ s.macForPort 0 1 (wSolicit src) = true ∧
        beAt ((wSolicit src).drop (payloadAt (wSolicit src))) 8 16 = src) ∧
      solicited (wArp 0x0A000001) = none ∧ (wEth 0 0).framesPass 0 1 = false := by
  simp only [State.Sound]
  decide +kernel

theorem met_PortsAreSecuredAndResolved_hops :
    let s := wEth 1 1
    let x := 0x20010DB8 * 2 ^ 96 + 2
    s.hopVersion 0 1 0x0A000002 = some false ∧ s.framesPass 0 1 = true ∧ s.fixedHop 0 1 0x0A000002 = false ∧
      s.hopVersion 0 1 0x0A000003 = none ∧ (∀ h ∈ s.aux.hops, h.is 0 1 0x0A000003 = true → h.mac = none) ∧
      s.aux.hops.find? (fun k => k.is 0 1 0x0A000002 && k.mac.isSome) = some ⟨0, 1, false, 0x0A000002, some 9, 2⟩ ∧
      s.aux.hops.find? (fun k => k.is 0 1 x && k.mac.isSome) = some ⟨0, 1, true, x, some 9, 0⟩ := by
  decide +kernel

/-! #### The transom -/

/-- A request over the network, to a UDP port. -/
def netReqAt (secured : Bool) (port code : Nat) (payload : List Byte) : TransomSource :=
  let body := toLe 2 code ++ toLe 2 0 ++ toLe 4 payload.length ++ payload
  .net secured true 1 65535 port (ximundHeader 0x20 0 0 body.length 0 0 0 0 ++ body)

/-- A protected request to the image's management port. -/
def netReq (code : Nat) (payload : List Byte) : TransomSource := netReqAt true 47000 code payload

/-- A grid of the image, in the last vault. -/
def wSaltGrid : Nat := vaultAddr 0 3 0x1000

/-- A record of the fault log with its sequence and action. -/
def wLogRecord : List Byte :=
  let b := toLe 8 0 ++ toLe 4 0 ++ toLe 3 0 ++ toLe 1 4 ++ toLe 12 0
  b ++ toLe 4 (crc32c b)

/-- The directory's first copy, its image in slot A. -/
def wDirectory (trial : Nat) : Directory := ⟨0, 7, 0, trial, 0, 0x60000, 0x10000, 0x70000, 0x20000⟩

def wTransomImage : Image :=
  { wImage with fwSvn := 5, rb := [(63, 64)], partUsed := 0x80, mgmtUdp := 47000, grids := [wSaltGrid], variants := [⟨7, 0, [⟨0, 0, 0, 0, 0, 0⟩]⟩] }

/-- The management port is up and secured; an image runs, its partition 7 runs; a record, a directory, and an open or a checked slot. -/
def wTransom (as : List Act := []) : State :=
  after ([.set .PWR_DOM_ON 0 0 0xFFFFFF, .set .I_RESTART_COLD 0 0 0, .set .I_MG_LINK 0 0 1, .set .I_MG_SECURE 0 0 1, .set .FUSE_OWNED 0 0 1,
    .set .HBM_STATUS_STATE 0 0 1, .set .HBM_STATUS_STATE 0 1 1, .set .PT_STATE 0 7 2, .set .PT_EPOCH 0 7 9, .set .I_PT_VARIANT 0 7 1,
    .set .FLT_SEQ 0 0 1, .set .TR_DONE 0 0 (2 ^ 32 - 1), .set .I_SLOT_OPEN 0 0 1, .set .I_SLOT_OK 0 0 1, .set .I_SLOT_LEN 0 0 0x100,
    .cfgPut logBase wLogRecord, .cfgPut keyBase [2, 0, 5, 6], .cfgPut 0x70000 [8], .cfgPut 0x8FFFF [9, 9], .put (hbmAddr 0 0 0) [1],
    .put (wSaltGrid + 40) [3], .cfgPut 0 (wDirectory 1).bytes, .aux fun a => { a with image := some wTransomImage }] ++ as)

/-- `State.served` for a command without a signature, decided. -/
def servedB (s : State) (src : TransomSource) (code : Nat) (body : List Byte) : Bool :=
  s.request src == some ⟨code, body, true⟩ && (!srcNet src || s.rd .TR_STATE 0 != 1) &&
  transomTable.any fun row => row.code == code && !row.signing && (!s.decommissioned || row.decomm) &&
    (!srcOpen src || row.bootstrap || s.decommissioned)

theorem served_of {s : State} {src : TransomSource} {code : Nat} {body : List Byte} (h : servedB s src code body = true) :
    s.served src code body := by
  simp only [servedB, Bool.and_eq_true, beq_iff_eq, List.any_eq_true, Bool.or_eq_true, Bool.not_eq_true', bne_iff_ne] at h
  obtain ⟨⟨hr, hb⟩, row, hm, ⟨⟨hc, hs⟩, hd⟩, ho⟩ := h
  refine ⟨⟨code, body, true⟩, row, hr, rfl, rfl, hm, hc, fun hn => ?_, fun hx => ?_, fun hx => ?_, fun _ => rfl, fun hx => ?_⟩
  · simpa [hn] using hb
  · simpa [hx] using hd
  · rcases ho with (ho | ho) | ho
    · simp [hx] at ho
    · exact .inl ho
    · exact .inr ho
  · simp [hs] at hx

/-- The same with a signature of zeros that verifies. -/
def signedB (s : State) (src : TransomSource) (code : Nat) (body : List Byte) : Bool :=
  s.request src == some ⟨code, body ++ List.replicate 96 0, true⟩ && (!srcNet src || s.rd .TR_STATE 0 != 1) &&
  (transomTable.any fun row => row.code == code && row.signing && (!s.decommissioned || row.decomm) &&
    (!srcOpen src || row.bootstrap || s.decommissioned))

theorem served_signed {s : State} {src : TransomSource} {code : Nat} {body : List Byte} (h : signedB s src code body = true)
    (hv : let digest := Config.sha384 (toLe 2 code ++ body ++ s.nonce)
      if code = 0x10 then Config.ecdsaVerify body digest (List.replicate 96 0) = true
      else s.on .FUSE_OWNED 0 = true ∧ Config.ecdsaVerify s.ownerKey digest (List.replicate 96 0) = true) :
    s.served src code body := by
  simp only [signedB, Bool.and_eq_true, beq_iff_eq, List.any_eq_true, Bool.or_eq_true, Bool.not_eq_true', bne_iff_ne] at h
  obtain ⟨⟨hr, hb⟩, row, hm, ⟨⟨hc, hs⟩, hd⟩, ho⟩ := h
  refine ⟨⟨code, body ++ List.replicate 96 0, true⟩, row, hr, rfl, rfl, hm, hc, fun hn => ?_, fun hx => ?_, fun hx => ?_, fun hx => ?_,
    fun _ => ⟨List.replicate 96 0, List.length_replicate, rfl, hv⟩⟩
  · simpa [hn] using hb
  · simpa [hx] using hd
  · rcases ho with (ho | ho) | ho
    · simp [hx] at ho
    · exact .inl ho
    · exact .inr ho
  · simp [hs] at hx

/-- Commands without a signature, with payloads at the ends of their ranges. -/
def wPlain : List (Nat × List Byte) :=
  [(0x01, []), (0x02, []), (0x03, List.replicate 48 1 ++ toLe 4 0), (0x04, []), (0x05, toLe 4 0 ++ toLe 4 120), (0x21, toLe 12 0xFE ++ [5, 6]),
   (0x22, []), (0x30, toLe 4 7), (0x31, []), (0x32, []), (0x33, toLe 8 wSaltGrid ++ toLe 8 77), (0x34, toLe 4 0)]

set_option maxRecDepth 100000 in
theorem met_TransomCommands_plain : ∀ q ∈ wPlain, (wTransom).served (netReq q.1 q.2) q.1 q.2 := by
  intro q hq
  exact served_of ((show ∀ q ∈ wPlain, servedB (wTransom) (netReq q.1 q.2) q.1 q.2 = true by decide +kernel) q hq)

/-- Commands with a signature. -/
def wSigned : List (Nat × List Byte) :=
  [(0x11, toLe 4 17 ++ [1]), (0x20, toLe 8 0x20000), (0x23, toLe 4 7), (0x24, []), (0x25, []), (0x35, toLe 4 0), (0x40, [])]

/-- Whether a signature verifies is no number of the spec: here it does. -/
theorem met_TransomCommands_signed (h : ∀ d, Config.ecdsaVerify (wTransom).ownerKey d (List.replicate 96 0) = true) :
    ∀ q ∈ wSigned, (wTransom).served (netReq q.1 (q.2 ++ List.replicate 96 0)) q.1 q.2 := by
  intro q hq
  obtain ⟨a, b, c⟩ := (show ∀ q ∈ wSigned, signedB (wTransom) (netReq q.1 (q.2 ++ List.replicate 96 0)) q.1 q.2 = true ∧ ¬ q.1 = 0x10 ∧
    (wTransom).on .FUSE_OWNED 0 = true by decide +kernel) q hq
  exact served_signed a (by simp only [if_neg b]; exact ⟨c, h _⟩)

theorem met_TransomCommands_claim (h : ∀ d, Config.ecdsaVerify [7] d (List.replicate 96 0) = true) :
    ∀ s ∈ [wTransom, wTransom [.set .FUSE_OWNED 0 0 0]], s.served (netReq 0x10 ([7] ++ List.replicate 96 0)) 0x10 [7] := by
  intro s hs
  have a := (show ∀ s ∈ [wTransom, wTransom [.set .FUSE_OWNED 0 0 0]],
    signedB s (netReq 0x10 ([7] ++ List.replicate 96 0)) 0x10 [7] = true by decide +kernel) s hs
  exact served_signed a (by rw [if_pos rfl]; exact h _)

set_option maxRecDepth 100000 in
/-- What the clauses ask of the state beside the request. -/
theorem met_TransomCommands_states :
    let s := wTransom
    (Registers.wf s.regs = true ∧ Memory.wf s.mem = true ∧ Memory.wf s.cfg = true) ∧ s.aux.image = some wTransomImage ∧
      s.directory = some (wDirectory 1) ∧ (0x20000 ≤ (wDirectory 1).size s.spareSlot) ∧ s.rd .I_SLOT_OPEN 0 = 1 ∧ s.rd .I_SLOT_OK 0 = 1 ∧
      0xFE + 2 ≤ s.rd .I_SLOT_LEN 0 ∧ (wDirectory 1).dseq + 1 < 2 ^ 32 ∧ (wDirectory 1).trial ≠ 0 ∧ s.rd .SEC_TRIAL 0 = 0 ∧
      (∀ q ∈ (0, wTransomImage.fwSvn) :: wTransomImage.rb, q.2 < 256) ∧ 7 ∈ wTransomImage.parts ∧ s.on .I_RESTART_COLD 0 = false ∧
      s.on .I_RESTART_WARM 0 = false ∧ s.on .I_RESTART_PART 0 7 = false ∧ s.rd .PT_STATE 0 7 ≠ 0 ∧ wSaltGrid ∈ wTransomImage.grids ∧
      s.gridBusy wSaltGrid (s.le (wSaltGrid + 84) 1) = false ∧
      (wTransom [.put (wSaltGrid + 84) [1]]).gridBusy wSaltGrid ((wTransom [.put (wSaltGrid + 84) [1]]).le (wSaltGrid + 84) 1) = true ∧ s.dieUp 0 = true ∧ s.dieBusy 0 = false ∧
      wTransomImage.sections = [] ∧ s.logRecord 0 = some wLogRecord ∧ byteAt wLogRecord 15 = 4 := by
  decide +kernel

theorem met_TransomCommands_salt : ∀ s ∈ [wTransom, wTransom [.put (wSaltGrid + 84) [1]]], s.keeperMem wSaltGrid 128 := by
  intro s hs
  have h : ∀ s ∈ [wTransom, wTransom [.put (wSaltGrid + 84) [1]]], wSaltGrid < 2 ^ 48 ∧ s.aux.checks = [] ∧ s.aux.flaky = [] ∧
      s.aux.poison = [] ∧ placeOf (addrOff wSaltGrid) = .vault 3 0x1000 ∧ 0x1000 + 128 ≤ 32 * mib ∧ s.rd .VT_STATE (addrDie wSaltGrid) 3 = 0 := by
    decide +kernel
  obtain ⟨a, b, c, d, e, f, g⟩ := h s hs
  exact ⟨a, .inr (.inl ⟨b, c, d, 3, 0x1000, e, f, g⟩)⟩

/-- A decommissioned part, and a request of the host. -/
def wReturned (left : Nat) : State :=
  wTransom [.set .FUSE_DECOMM 0 0 1, .set .I_TEST_LEFT 0 0 left, .aux fun a => { a with challenge := some [1] }]
def wHostRequest : State := wTransom [.set .TR_STATE 0 0 1, .set .TR_REQ 0 0 0x04]

/-- Without a CAK the management port takes requests that are not protected. -/
theorem request_open {s : State} {v6 : Bool} {peer remote port : Nat} {bs : List Byte} (hp : port = s.mgmtUdp)
    (hd : ximundOk bs = true) (ht : byteAt bs 3 = 0x20) (h : leNat (s.cfgBytes (secretBase + 256 * 17) 2) = 0)
    (hs : s.rd .PKG_STATE 0 ≠ 2 ∧ s.on .I_TRIPPED 0 = false ∧ s.on .I_MG_LINK 0 = true) :
    s.request (.net false v6 peer remote port bs) = some (requestOf (cut bs 32 (leAt bs 6 2))) := by
  obtain ⟨a, b, c⟩ := hs
  simp [State.request, State.hasCak, State.secret, portIndex, h, a, b, c, hp, hd, ht]

theorem met_TransomCommands_turned :
    let part := netReqAt false 47000 0x04 []
    (wReturned 15).request (netReq 0x05 (toLe 8 0)) = some ⟨0x05, toLe 8 0, true⟩ ∧ (wReturned 15).decommissioned = true ∧
      (wTransom).request part = some ⟨0x04, [], true⟩ ∧ (wTransom).decommissioned = false ∧ srcOpen part = true ∧
      (wTransom).request (netReq 0x40 (List.replicate 95 0)) = some ⟨0x40, List.replicate 95 0, true⟩ ∧
      (wTransom).request (netReq 0x43 []) = some ⟨0x43, [], true⟩ ∧ (∀ row ∈ transomTable, (0x43 : Nat) ≠ row.code) ∧
      (wTransom).request .host = none ∧ wHostRequest.served .host 0x04 [] ∧ (wTransom).rd .TR_STATE 0 ≠ 1 := by
  refine ⟨by decide +kernel, by decide +kernel,
    by rw [show netReqAt false 47000 0x04 [] = .net false true 1 65535 47000 (ximundHeader 0x20 0 0 8 0 0 0 0 ++ (toLe 2 4 ++ toLe 6 0)) from by decide +kernel,
      request_open (by decide +kernel) (by decide +kernel) (by decide +kernel) (by decide +kernel) (by decide +kernel)]; decide +kernel, by decide +kernel, by decide +kernel, by decide +kernel, by decide +kernel,
    by decide +kernel, by decide +kernel, served_of (by decide +kernel), by decide +kernel⟩

theorem met_TransomCommands_test :
    (wReturned 15).decommissioned = true ∧ (wReturned 15).rd .I_TEST_LEFT 0 < testLimit ∧ (wReturned 15).served (netReq 0x41 []) 0x41 [] ∧
      (wReturned 15).served (netReq 0x42 (List.replicate 96 0)) 0x42 (List.replicate 96 0) ∧ (List.replicate 96 (0 : Byte)).length = 96 ∧
      (wTransom).testOpens (List.replicate 96 0) = false := by
  refine ⟨by decide +kernel, by decide +kernel, served_of (by decide +kernel), served_of (by decide +kernel), by decide +kernel, ?_⟩
  simp only [State.testOpens, show (wTransom).aux.challenge = none from by decide +kernel, Option.any_none]

/-- Whether the response opens test access is no number of the spec either. -/
theorem met_TransomCommands_opens (h : ∀ d, Config.ecdsaVerify Config.geinaphorTest d (List.replicate 96 0) = true) :
    (wReturned 15).testOpens (List.replicate 96 0) = true := by
  simp only [State.testOpens, show (wReturned 15).aux.challenge = some [1] from by decide +kernel, Option.any_some, h]

/-! #### Checks of a blind sector, and the ball map -/

/-- 15 R654: a pass ends the failure of an earlier check, and not that of a later one. -/
theorem test_netTest_of_an_older_check :
    let decided := fun failed => (after [.set .I_BS_FAILED 0 3 failed, decideNetTests 0 { injected := [⟨3, 2, true⟩] } true]).rd .I_BS_FAILED 0 3
    decided 1 = 0 ∧ decided 3 = 3 := by decide +kernel

/-- 20, worked example: ETH1_TX_P of die 5 of an XMD-8, and the ball at package row 60, column 40. -/
theorem test_ball_map_example :
    ballAt 8 5 6 4 = (34, 104) ∧ ballNet 8 34 104 = some (.pair "ETH1_TX" true) ∧ ballNet 8 40 60 = some .vddCore := by decide +kernel

/-- Balls of a net in a field. -/
def netCount (cols rows : Nat) (n : Net) : Nat :=
  ((List.range rows).map fun r => ((List.range cols).filter fun c => fieldNet 0 c r == n).length).sum

set_option maxRecDepth 100000 in
/-- 20 R821: the supply balls of a field of 27 columns and 54 rows, and of one of 38 and 38. -/
theorem test_ball_map_counts :
    [Net.vddCore, .vddSram, .vddqHbm, .vddSerdes].map (netCount 27 54) = [384, 80, 66, 79] ∧
      [Net.vddCore, .vddSram, .vddqHbm, .vddSerdes].map (netCount 38 38) = [370, 82, 72, 78] := by decide +kernel

end Sys2Proof.Tests
end

/-! PROOFS. The statements about the scope (00_scope.md): soundness and reset, register accesses, shadow sets. First what effects and
computations do in general; then the register window; then what units change while a commit runs, and the commits. -/

namespace Sys2Proof.Proofs

open Sys2Proof Sys2Proof.Machine Sys2Proof.Laws

/-! ### Commands and effects -/

/-- The meaning of every command is an effect, run on the state that it meets. -/
theorem exec_eq_done (c : Instr) (s : State) : ∃ a : Act, exec c s = a.done s := by
  cases c <;> exact ⟨_, rfl⟩

theorem exec_keeps_sound {c : Instr} {s t : State} (hs : s.Sound) (h : exec c s = .next t) : t.Sound := by
  obtain ⟨a, ha⟩ := exec_eq_done c s
  rw [ha, done_eq] at h
  cases h
  exact run_sound a hs

theorem done_when {b : Bool} (hb : b = true) (a : Act) (s : State) : (Act.when b a).done s = .next (a.run s) := by
  rw [hb]
  rfl

theorem runs_of_done {c : Instr} {s : State} {P : State → Prop} {b : Bool} {a : Act} (hc : exec c s = (Act.when b a).done s)
    (hb : b = true) (h : P (a.run s)) : Runs c s P := ⟨_, hc.trans (done_when hb a s), h⟩

theorem run_each_congr {α : Type} {xs : List α} {f g : α → Act} (h : ∀ x ∈ xs, ∀ t, (f x).run t = (g x).run t) (s : State) :
    (Act.each xs f).run s = (Act.each xs g).run s := by
  induction xs generalizing s with
  | nil => rfl
  | cons x xs ih =>
    rw [run_each_cons, run_each_cons, h x (List.mem_cons_self ..)]
    exact ih (fun y hy => h y (List.mem_cons_of_mem _ hy)) _

theorem run_each_eq_self {α : Type} {xs : List α} {f : α → Act} (h : ∀ x ∈ xs, ∀ t, (f x).run t = t) (s : State) :
    (Act.each xs f).run s = s := by
  induction xs generalizing s with
  | nil => rfl
  | cons x xs ih =>
    rw [run_each_cons, h x (List.mem_cons_self ..)]
    exact ih (fun y hy => h y (List.mem_cons_of_mem _ hy)) s

/-! ### Computations within a bound -/

/-- What a computation does lies within a bound, and so does all of it when what follows it does. -/
@[irreducible] def Keeps (r : Reach) {α : Type} (m : M α) : Prop := ∀ k, (∀ x, Within r (k x)) → Within r (m.then k)

section keeps
variable {r : Reach} {α β : Type}

theorem within_then {m : M α} {k : Except Err α → Act} (hm : Keeps r m) (hk : ∀ x, Within r (k x)) : Within r (m.then k) := by
  unfold Keeps at hm
  exact hm k hk

theorem keeps_intro {m : M α} (h : ∀ k, (∀ x, Within r (k x)) → Within r (m.then k)) : Keeps r m := by
  unfold Keeps
  exact h

theorem keeps_pure (a : α) : Keeps r (pure a : M α) := keeps_intro fun _ hk => hk _
theorem keeps_fail (c d : Nat) : Keeps r (M.fail c d : M α) := keeps_intro fun _ hk => hk _
theorem keeps_state : Keeps r M.state := keeps_intro fun _ hk => (within_get r _).2 fun s => hk (.ok s)
theorem keeps_act {a : Act} (h : Within r a) : Keeps r (M.act a) :=
  keeps_intro fun k hk => (within_seq r a (k (.ok ()))).2 ⟨h, hk _⟩

theorem keeps_bind {m : M α} {f : α → M β} (hm : Keeps r m) (hf : ∀ a, Keeps r (f a)) : Keeps r (m >>= f) :=
  keeps_intro fun k hk => by
    rw [then_bind]
    refine within_then hm fun x => ?_
    cases x with
    | ok a => exact within_then (hf a) hk
    | error e => exact hk _

theorem keeps_ite {c : Prop} [Decidable c] {m n : M α} (hm : c → Keeps r m) (hn : ¬ c → Keeps r n) :
    Keeps r (if c then m else n) := by
  split
  · exact hm ‹_›
  · exact hn ‹_›

theorem keeps_each {xs : List β} {f : β → M Unit} (h : ∀ x ∈ xs, Keeps r (f x)) : Keeps r (M.each xs f) := by
  induction xs with
  | nil => exact keeps_pure ()
  | cons x xs ih =>
    exact keeps_bind (h x (List.mem_cons_self ..)) fun _ => ih fun y hy => h y (List.mem_cons_of_mem _ hy)

theorem within_anyway {m : M Unit} (h : Keeps r m) : Within r m.anyway := within_then h fun _ => within_nop r

theorem within_freeBytes {n : Nat} {k : List Byte → Act} (h : ∀ bs, Within r (k bs)) : Within r (.freeBytes n k) := by
  induction n generalizing k with
  | zero => exact h []
  | succ n ih => exact (within_free r _).2 fun _ => ih fun bs => h _

end keeps

/-! ### Soundness and reset (00 R13, R15) -/

/-- Settles O4: every command runs an effect, and every effect keeps a sound state sound; an idle step keeps the state. -/
theorem everyStepKeepsSoundness : Obligations.EveryStepKeepsSoundness := by
  intro s t hs h
  unfold step at h
  split at h
  · cases h
    exact hs
  · next c rest _ => exact exec_keeps_sound (s := { s with pending := rest }) hs h

/-- Settles O3: after reset every sparse map is empty, and the empty map is in canonical form. -/
theorem resetIsSound : Obligations.ResetIsSound := ⟨rfl, rfl, rfl⟩

theorem dflt_eq_reset {f : Fld} (h : f ≠ .HG_PHYS) (i : Nat) : f.dflt i = f.info.reset := by
  unfold Fld.dflt
  split
  · exact absurd rfl h
  · rfl

/-- Settles O5: the reset state lists no register and no byte, so each reads as what an unlisted one reads as. -/
theorem resetValues : Obligations.ResetValues := by
  refine ⟨fun l f d i hf => ?_, fun d i => ?_, fun a => ⟨rfl, rfl⟩⟩
  · show f.dflt i % 2 ^ f.info.width = _
    rw [dflt_eq_reset hf]
  · show i % 32 % 2 ^ Fld.HG_PHYS.info.width = i % 32
    exact Nat.mod_eq_of_lt ((Nat.mod_lt i (by decide)).trans_le (by decide))

/-! ### Writes of several fields at once -/

/-- Those of some register fields that a test names take the values that a function gives them. -/
def setWhere (die : Nat) (c : Fld → Bool) (v : Fld → Nat) (fs : List (Fld × Nat)) : Act :=
  .each fs fun p => .when (c p.1) (.set p.1 die p.2 (v p.1))

section setWhere
variable (die : Nat) (c : Fld → Bool) (v : Fld → Nat) (fs : List (Fld × Nat)) {s : State}

/-- Only shadow copies of the chosen fields change. -/
theorem within_setWhere : Within ⟨fun k => k.layer = .vis ∧ k.die = die ∧ c k.fld = true ∧ (k.fld, k.idx) ∈ fs,
    fun _ => False, fun _ => False, fun x y => y = x⟩ (setWhere die c v fs) := by
  simp only [setWhere, within_each, within_when, within_set]
  exact fun p hp hc => ⟨trivial, trivial, hc, hp⟩

theorem setWhere_rest (hs : s.Sound) : s.SameBytes ((setWhere die c v fs).run s) ∧ ((setWhere die c v fs).run s).aux = s.aux := by
  obtain ⟨-, hm, hc, ha⟩ := within_run (within_setWhere die c v fs) (fun _ => rfl) (fun _ _ _ h1 h2 => h2.trans h1) hs
  exact ⟨⟨fun a => hm a id, fun a => hc a id⟩, ha⟩

theorem regsBut_setWhere (hs : s.Sound) :
    s.RegsBut ((setWhere die c v fs).run s) ((fs.filter fun p => c p.1).map fun p => (p.1, die, p.2)) := by
  intro l f d i hn
  refine (within_run (within_setWhere die c v fs) (fun _ => rfl) (fun _ _ _ h1 h2 => h2.trans h1) hs).1 l f d i ?_
  rintro ⟨hl, rfl, hc, hm⟩
  exact hn ⟨hl, List.mem_map.2 ⟨(f, i), List.mem_filter.2 ⟨hm, hc⟩, rfl⟩⟩

/-- A chosen field holds its value, cut to its width; also when it is listed more than once. -/
theorem rd_setWhere (hs : s.Sound) {p : Fld × Nat} (hp : p ∈ fs) (hc : c p.1 = true) :
    ((setWhere die c v fs).run s).rd p.1 die p.2 = v p.1 % 2 ^ p.1.info.width := by
  induction fs generalizing s with
  | nil => cases hp
  | cons q fs ih =>
    have hq : ((Act.when (c q.1) (.set q.1 die q.2 (v q.1))).run s).Sound := run_sound _ hs
    by_cases hmem : p ∈ fs
    · exact ih hq hmem
    · obtain rfl : p = q := (List.mem_cons.1 hp).resolve_right hmem
      refine ((within_run (within_setWhere die c v fs) (fun _ => rfl) (fun _ _ _ h1 h2 => h2.trans h1) hq).1 .vis p.1 die p.2
        fun ⟨_, _, _, hm⟩ => hmem hm).trans ?_
      rw [hc, run_when_true]
      exact (rd_run_set hs ..).trans (if_pos ⟨rfl, rfl, rfl⟩)

end setWhere

/-- The part of a register's value that a field holds. -/
def partOf (value : Nat) (f : Fld) : Nat := bits value f.info.lo f.info.width

/-- A field's part fits the field. -/
theorem partOf_mod (value : Nat) (f : Fld) : partOf value f % 2 ^ f.info.width = partOf value f := Nat.mod_mod ..

/-- A read clears the field. -/
def isReadClear (f : Fld) : Bool := f.info.acc == .rc

theorem isReadClear_iff {f : Fld} : isReadClear f = true ↔ f.info.acc = .rc := beq_iff_eq

/-! ### What a write does to one field (00 R7, R16) -/

/-- Fields of which a write does more than to set them. -/
def commandFields : List Fld :=
  [.TIME_INCR, .TIME_ADJ, .TIME_SET_COMMIT, .TIME_SERVO, .TSF_POP, .PM_COMMIT, .PE_COMMIT, .ING_COMMIT, .BC_COMMIT, .BC_DONE,
    .PRD_COMMIT, .PRD_REENABLE, .JOB_COMMIT, .JOB_FIRE, .ULS_COMMIT, .ULS_SAFE_REQ, .ULS_SAFE_REL, .ULS_KEEPER_BEAT, .ZN_NET_FSEQ,
    .ZN_NET_OCCUPIED, .MUL_COMMIT, .SQ_STOP, .SEM_SET_NO, .STG_SHUT_W, .STG_SHUT_A, .STG_SHUT_P, .VT_SHUT, .BELL_DOORBELL,
    .BELL_HOLD_SET, .BELL_HOLD_CLR, .BELL_COMPLETE, .BELL_PEND, .BELL_MASK, .BELL_TGT_KIND, .BELL_TCTL_NEST, .BELL_MOD_US,
    .BELL_MOD_COUNT, .TR_GO, .PKG_REQ]

theorem writeField_of_not_command {f : Fld} (h : f ∉ commandFields) (who : Requester) (die i reg v : Nat) :
    writeField who die f i reg v = .when (f.takes who) (.set f die i v) := by
  unfold writeField
  split
  case h_40 => rfl
  all_goals exact absurd (by decide) h

theorem commandFields_access : ∀ f ∈ commandFields, f.info.acc ≠ .ro ∧ f.info.set = .plain := by decide

theorem keeperOnly_eq_false {f : Fld} (hp : f.info.set ≠ .plain) (hm : f.info.set ≠ .mul) : f.keeperOnly = false := by
  have named : ∀ g ∈ [Fld.MUL_COMMIT, .HG_PHYS, .HG_VALID, .HG_PART, .HG_MOVED, .HBM_HASH_M], g.info.set = .plain := by decide
  unfold Fld.keeperOnly
  rw [Bool.or_eq_false_iff, beq_eq_false_iff_ne, ← Bool.not_eq_true, List.contains_iff_mem]
  exact ⟨hm, fun h => hp (named f h)⟩

theorem timeShared_eq_false {f : Fld} (hp : f.info.set ≠ .plain) (ht : f.info.set ≠ .timeStep) : f.timeShared = false := by
  unfold Fld.timeShared
  rw [← Bool.not_eq_true, List.contains_iff_mem]
  refine fun h => (?_ : ∀ g ∈ _, ¬ (g.info.set ≠ .plain ∧ g.info.set ≠ .timeStep)) f h ⟨hp, ht⟩
  decide

/-- A write leaves a read-only field as it is, but for the Keeper's own fields written by a Keeper. -/
theorem writeField_readOnly {f : Fld} (h : f.info.acc = .ro) {who : Requester} (hw : isKeeper who = false) (die i reg v : Nat) :
    writeField who die f i reg v = .nop := by
  have htakes : f.takes who = false := by
    unfold Fld.takes
    rw [h, hw]
    split <;> rfl
  rw [writeField_of_not_command fun hc => (commandFields_access f hc).1 h, htakes]
  rfl

/-- A write sets the shadow copy of a unit's shadowed field. -/
theorem writeField_shadow {f : Fld} (hp : f.info.set ≠ .plain) (hm : f.info.set ≠ .mul) (ha : f.info.acc = .rw) (who : Requester)
    (die i reg v : Nat) : writeField who die f i reg v = .set f die i v := by
  have htakes : f.takes who = true := by
    unfold Fld.takes
    rw [keeperOnly_eq_false hp hm, ha]
    rfl
  rw [writeField_of_not_command fun hc => hp (commandFields_access f hc).2, htakes]
  rfl

/-! ### Writes of the window (R7 to R16) -/

section writes
variable {s : State} {who : Requester} {die off width : Nat}

theorem exec_registerWrite (hd : s.dieThere die = true) (value : Nat) :
    exec (.registerWrite who die off width value) s =
      .next (((writeReg who die off width (value % 2 ^ width)).then (answerWrite who)).run s) := done_when hd ..

theorem writeReg_refused (h : accessOk die off width = false) (value : Nat) :
    ((writeReg who die off width value).then (answerWrite who)).run s = (Act.out (.accessError who codeFabric)).run s := by
  simp only [writeReg, h, Bool.not_false, if_true, then_fail]
  rfl

theorem writeReg_accepted (h : accessOk die off width = true) (value : Nat) :
    ((writeReg who die off width value).then (answerWrite who)).run s =
      (Act.each (regFields die off) fun p => .get fun s =>
        let reg := s.newRegister die off width value p.1 p.2
        .when (die == 0 || !p.1.timeShared) (writeField who die p.1 p.2 reg (bits reg p.1.info.lo p.1.info.width))).run s := by
  simp only [writeReg, h, Bool.not_true, Bool.false_eq_true, if_false, then_act]
  rfl

/-- A write to registers of read-only fields changes nothing. -/
theorem writeReg_readOnly (h : accessOk die off width = true) (hw : isKeeper who = false)
    (hro : ∀ p ∈ regFields die off, p.1.info.acc = .ro) (value : Nat) :
    ((writeReg who die off width value).then (answerWrite who)).run s = s := by
  rw [writeReg_accepted h]
  refine run_each_eq_self (fun p hp t => ?_) s
  simp only [run_get, writeField_readOnly (hro p hp) hw, run_when, run_nop, ite_self]

/-- A write to registers of shadowed fields sets their shadow copies. -/
theorem writeReg_shadow (h : accessOk die off width = true)
    (hf : ∀ p ∈ regFields die off, p.1.info.set ∈ [ShadowSet.pm, .pe, .ing, .bc, .prd, .job, .uls] ∧ p.1.info.acc = .rw ∧
      p.1.info.wide = false) (value : Nat) :
    ((writeReg who die off width value).then (answerWrite who)).run s =
      (setWhere die (fun _ => true) (partOf value) (regFields die off)).run s := by
  rw [writeReg_accepted h]
  refine run_each_congr (fun p hp t => ?_) s
  obtain ⟨hset, hacc, hwide⟩ := hf p hp
  have hplain : p.1.info.set ≠ .plain := fun e => by rw [e] at hset; revert hset; decide
  have htime : p.1.info.set ≠ .timeStep := fun e => by rw [e] at hset; revert hset; decide
  have hmul : p.1.info.set ≠ .mul := fun e => by rw [e] at hset; revert hset; decide
  simp only [run_get, State.newRegister, hwide, timeShared_eq_false hplain htime, writeField_shadow hplain hmul hacc, Bool.not_false,
    Bool.true_or, Bool.or_true, if_true, partOf]

end writes

/-! ### Reads of the window (R7 to R14) -/

section reads
variable {s : State} {who : Requester} {die off width arriving : Nat}

theorem exec_rcRead (hd : s.dieThere die = true) :
    exec (.rcRead who die off width arriving) s = .next (((readReg who die off width arriving).then (answerRead who)).run s) :=
  done_when hd ..

theorem exec_lowHalfRead (hd : s.dieThere die = true) :
    exec (.lowHalfRead who die off) s = .next (((readReg who die off 32 0).then (answerRead who)).run s) := done_when hd ..

theorem readReg_refused (h : accessOk die off width = false) :
    ((readReg who die off width arriving).then (answerRead who)).run s = (Act.out (.accessError who codeFabric)).run s := by
  simp only [readReg, h, then_bind, then_state, onOk_ok, Bool.not_false, if_true, then_fail]
  rfl

theorem readReg_captured {c : Capture} (h : accessOk die off 32 = true) (hc : s.capture who die off = some c) :
    ((readReg who die off 32 arriving).then (answerRead who)).run s =
      (Act.out (.readData who c.value)).run ((Act.aux fun a => { a with captures := a.captures.erase c }).run s) := by
  simp only [readReg, h, hc, then_bind, then_state, onOk_ok, Bool.not_true, Bool.false_eq_true, if_false, beq_self_eq_true, if_true,
    then_act]
  rfl

theorem takeTiming_run (h : ∀ p ∈ regFields die off, p.1.timing = false) : (takeTiming die (regFields die off)).run s = s := by
  have hnone : (regFields die off).filter (s.timingMoves die) = [] :=
    List.filter_eq_nil_iff.2 fun p hp => by simp [State.timingMoves, h p hp]
  simp only [takeTiming, run_get, hnone, run_each_nil]

/-- A 32-bit read of a register without a capture, a claim, a random value or a timing counter: it clears, it captures the high half
of a wide register whose low half it reads, and it answers with the half that it reads. -/
theorem readReg_plain (h : accessOk die off 32 = true) (hc : s.capture who die off = none)
    (hf : ∀ p ∈ regFields die off, p.1 ≠ .BELL_CLAIM ∧ p.1 ≠ .SEC_RANDOM ∧ p.1.timing = false) :
    ((readReg who die off 32 arriving).then (answerRead who)).run s =
      (Act.out (.readData who
          (if highHalf die off then s.register die off / 2 ^ 32 else s.register die off % 2 ^ 32))).run
        ((Act.when (lowHalf die off) (captureHigh who die off)).run
          ((setWhere die isReadClear (partOf arriving) (regFields die off)).run s)) := by
  have hnone : ((regFields die off).find? fun p => p.1 == .BELL_CLAIM || p.1 == .SEC_RANDOM) = none :=
    List.find?_eq_none.2 fun p hp => by
      obtain ⟨h1, h2, -⟩ := hf p hp
      simp [h1, h2]
  have hclear : ∀ t, (readClear die arriving (regFields die off)).run t =
      (setWhere die isReadClear (partOf arriving) (regFields die off)).run t :=
    run_each_congr fun p hp t => by rw [bne_iff_ne.2 (hf p hp).1, Bool.and_true]; rfl
  simp only [readReg, h, hc, hnone, then_bind, then_state, onOk_ok, Bool.not_true, Bool.false_eq_true, if_false, then_act,
    takeTiming_run fun p hp => (hf p hp).2.2, hclear, beq_self_eq_true, Bool.true_and]
  cases lowHalf die off <;> rfl

theorem highHalf_eq_false (h : lowHalf die off = true) : highHalf die off = false := by
  obtain ⟨h8, -⟩ := Bool.and_eq_true_iff.1 h
  simp [highHalf, beq_iff_eq.1 h8]

/-- A read clears nothing where no field is read-clear. -/
theorem clear_nothing (h : ∀ p ∈ regFields die off, p.1.info.acc ≠ .rc) (v : Fld → Nat) (t : State) :
    (setWhere die isReadClear v (regFields die off)).run t = t :=
  run_each_eq_self (fun p hp t => by rw [run_when, if_neg (mt isReadClear_iff.1 (h p hp))]) t

/-- The capture of a high half, other than that of the time: one record joins the captures. -/
theorem captureHigh_run (h : off ≠ timeNowOff) (s : State) :
    (captureHigh who die off).run s = (putCapture ⟨who, die, off + 4, s.register die off / 2 ^ 32⟩).run s := by
  simp only [captureHigh, run_get, run_seq, beq_false_of_ne h, run_when_false]

theorem capture_putCapture (c : Capture) (s : State) : ((putCapture c).run s).capture c.who c.die c.off = some c := by
  simp [State.capture, putCapture]

end reads

/-- An answer after an effect that changed only some registers. -/
theorem answered_out {s t : State} {ks : List (Fld × Nat × Nat)} (hr : s.RegsBut t ks) (hb : s.SameBytes t) (ha : t.aux = s.aux)
    (o : Output) : s.Answered ((Act.out o).run t) o ks :=
  ⟨by rw [Act.out, aux_run_aux, ha], fun l f d i hn => (reg_run_aux ..).trans (hr l f d i hn), hb⟩

theorem rd_run_out (o : Output) (s : State) (f : Fld) (d i : Nat) : ((Act.out o).run s).rd f d i = s.rd f d i := rfl

theorem regsBut_refl (s : State) (ks : List (Fld × Nat × Nat)) : s.RegsBut s ks := fun _ _ _ _ _ => rfl

theorem sameBytes_refl (s : State) : s.SameBytes s := sameBytes_of_eq rfl rfl

/-- Settles O34: an access is refused, or runs as the register writes and the capture that `writeReg_shadow` and `readReg_plain` name. -/
theorem registerAccesses : Obligations.RegisterAccesses := by
  intro s who die off value arriving hs hd fs word
  refine ⟨fun width hno => ⟨?_, ?_⟩, fun hok hw hro => ?_, fun hok hf => ?_, fun hok hcap hlow hhigh hf => ?_,
    fun hok hcap hlow hoff hf => ?_, fun c hok hcap => ?_⟩
  · rw [Runs, exec_registerWrite hd, writeReg_refused hno]
    exact ⟨_, rfl, answered_out (regsBut_refl s []) (sameBytes_refl s) rfl _⟩
  · rw [Runs, exec_rcRead hd, readReg_refused hno]
    exact ⟨_, rfl, answered_out (regsBut_refl s []) (sameBytes_refl s) rfl _⟩
  · rw [exec_registerWrite hd, writeReg_readOnly hok hw hro]
  · rw [Runs, exec_registerWrite hd, writeReg_shadow hok hf]
    have hregs := regsBut_setWhere die (fun _ => true) (partOf (word value)) fs hs
    rw [List.filter_true] at hregs
    obtain ⟨hbytes, haux⟩ := setWhere_rest die (fun _ => true) (partOf (word value)) fs hs
    exact ⟨_, rfl, fun p hp => (rd_setWhere die _ _ fs hs hp rfl).trans (partOf_mod ..), hregs, hbytes, haux, run_pending ..⟩
  · rw [Runs, exec_rcRead hd, readReg_plain hok hcap hf, hlow, hhigh, run_when_false]
    have hregs := regsBut_setWhere die isReadClear (partOf arriving) fs hs
    obtain ⟨hbytes, haux⟩ := setWhere_rest die isReadClear (partOf arriving) fs hs
    refine ⟨_, rfl, answered_out hregs hbytes haux _, fun p hp hacc => ?_⟩
    rw [rd_run_out, rd_setWhere die _ _ fs hs hp (isReadClear_iff.2 hacc)]
    exact partOf_mod ..
  · have hplain : ∀ p ∈ regFields die off, p.1 ≠ .BELL_CLAIM ∧ p.1 ≠ .SEC_RANDOM ∧ p.1.timing = false := fun p hp =>
      let ⟨hclaim, hrandom, htiming, _⟩ := hf p hp
      ⟨hclaim, hrandom, htiming⟩
    have hkeep : ∀ p ∈ regFields die off, p.1.info.acc ≠ .rc := fun p hp =>
      let ⟨_, _, _, hacc⟩ := hf p hp
      hacc
    rw [Runs, exec_lowHalfRead hd, readReg_plain hok hcap hplain, clear_nothing hkeep, hlow, highHalf_eq_false hlow, run_when_true,
      captureHigh_run hoff]
    exact ⟨_, rfl, rfl, capture_putCapture ⟨who, die, off + 4, s.register die off / 2 ^ 32⟩ s, fun _ _ _ _ _ => rfl,
      sameBytes_of_eq rfl rfl⟩
  · rw [Runs, exec_rcRead hd, readReg_captured hok hcap]
    exact ⟨_, rfl, rfl, fun _ _ _ _ _ => rfl, sameBytes_of_eq rfl rfl⟩

/-! ### What units change while a commit runs -/

/-- A field of no shadow set, other than those that tell whether a commit was refused. -/
def unitField (f : Fld) : Bool :=
  f.info.set == .plain && !([Fld.ING_STATUS_CFG_ERR, .JOB_STATUS_CFG_ERR, .ULS_STATUS_CFG_ERR].contains f)

/-- Units change active copies, registers of no shadow set, memories and queues; shadow copies, pending sets and configuration errors
belong to commits. -/
def unitReach : Reach where
  regs k := k.layer = .act ∨ k.layer = .vis ∧ unitField k.fld = true
  mem _ := True
  cfg _ := True
  aux _ _ := True

@[simp] theorem unitReach_act (f : Fld) (d i : Nat) : unitReach.regs ⟨f, .act, d, i⟩ := .inl rfl
@[simp] theorem unitReach_vis {f : Fld} (h : unitField f = true) (d i : Nat) : unitReach.regs ⟨f, .vis, d, i⟩ := .inr ⟨rfl, h⟩
@[simp] theorem unitReach_mem (a : Nat) : unitReach.mem a := trivial
@[simp] theorem unitReach_aux (x y : Aux) : unitReach.aux x y := trivial

@[simp] theorem activateSet_unit (set : ShadowSet) (die : Nat) (sel : Nat → Bool) : Within unitReach (activateSet set die sel) := by
  rw [activateSet, within_eff]
  exact fun f i _ => .inl rfl

@[simp] theorem takeRow_unit (set : ShadowSet) (die lo hi e : Nat) : Within unitReach (takeRow set die lo hi e) := by
  rw [takeRow, within_eff]
  exact fun f i _ => .inl rfl

@[simp] theorem ctx_unit (die core c : Nat) (f : Ctx → Ctx) : Within unitReach (.ctx die core c f) := by simp [Act.ctx]
@[simp] theorem engine_unit (die core e : Nat) (f : Engine → Engine) : Within unitReach (.engine die core e f) := by simp [Act.engine]
@[simp] theorem frame_unit (die entry seq : Nat) (g : Frame → Frame) : Within unitReach (.frame die entry seq g) := by simp [Act.frame]
@[simp] theorem zone_unit (die z : Nat) (f : ZoneFrame → ZoneFrame) : Within unitReach (.zone die z f) := by simp [Act.zone]
@[simp] theorem out_unit (o : Output) : Within unitReach (.out o) := by simp [Act.out]

/-! #### Contexts and engines -/

@[simp] theorem setCounter_unit (die core c n v : Nat) : Within unitReach (setCounter die core c n v) := by
  simp (disch := decide) [setCounter]

@[simp] theorem endFlight_unit (die core c id : Nat) (e : Ending) : Within unitReach (endFlight die core c id e) := by simp [endFlight]

@[simp] theorem stage_unit (die core e ctx : Nat) (w : Weights) : Within unitReach (stage die core e ctx w) := by
  simp (disch := decide) [stage]

@[simp] theorem endLoad_unit (die core c id : Nat) : Within unitReach (endLoad die core c id) := by simp [endLoad]

@[simp] theorem stageHead_unit (die core e : Nat) : Within unitReach (stageHead die core e) := by
  rw [stageHead, within_get]
  intro s
  split <;> simp

@[simp] theorem stageHeads_unit (die core : Nat) : Within unitReach (stageHeads die core) := by simp [stageHeads]

@[simp] theorem preemptCtx_unit (die core c : Nat) : Within unitReach (preemptCtx die core c) := by
  simp (disch := decide) [preemptCtx]

@[simp] theorem preemptBelow_unit (die core c : Nat) : Within unitReach (preemptBelow die core c) := by simp [preemptBelow]

@[simp] theorem unblock_unit (die core c : Nat) : Within unitReach (unblock die core c) := by
  simp (disch := decide) [unblock]

/-! #### The Bell -/

theorem setBellBit_unit {f : Fld} (h : unitField f = true) (die src : Nat) (b : Bool) : Within unitReach (setBellBit f die src b) := by
  simp [setBellBit, h]

@[simp] theorem sequencerServe_unit (die lcore src : Nat) : Within unitReach (sequencerServe die lcore src) := by
  rw [sequencerServe, within_get]
  intro s
  dsimp only
  split
  · simp
  · simp [setBellBit_unit (f := .BELL_PEND) (by decide)]

@[simp] theorem sendMsix_unit (v : Nat) : Within unitReach (sendMsix v) := by simp (disch := decide) [sendMsix]

@[simp] theorem vectorDue_unit (v : Nat) : Within unitReach (vectorDue v) := by simp (disch := decide) [vectorDue]

@[simp] theorem vectorArrival_unit (v : Nat) : Within unitReach (vectorArrival v) := by simp (disch := decide) [vectorArrival]

@[simp] theorem bellPresent_unit (die src : Nat) : Within unitReach (bellPresent die src) := by
  rw [bellPresent, within_get]
  intro s
  split <;> simp

@[simp] theorem bellSettle_unit (cands : List (Nat × Nat)) {op : Act} (h : Within unitReach op) :
    Within unitReach (bellSettle cands op) := by
  simp [bellSettle, h]

@[simp] theorem bellArrive_unit (die sender word : Nat) : Within unitReach (bellArrive die sender word) := by
  have hbit : ∀ held : Bool, unitField (if held then .I_BELL_HELD else .BELL_PEND) = true := by decide
  rw [bellArrive, within_get]
  refine fun s => (within_ite ..).2 ⟨fun _ => by simp (disch := decide), fun _ => bellSettle_unit _ ?_⟩
  simp (disch := decide) [setBellBit_unit (hbit _)]

@[simp] theorem bellRing_unit (die src tag : Nat) : Within unitReach (bellRing die src tag) := bellArrive_unit ..

/-! #### Writes of units -/

@[simp] theorem noteWrite_unit (a len : Nat) : Within unitReach (noteWrite a len) := by
  rw [noteWrite, within_get]
  intro s
  split <;> simp

@[simp] theorem soundRow_unit (a : Nat) : Within unitReach (soundRow a) := by simp [soundRow]
@[simp] theorem soundWords_unit (a len : Nat) : Within unitReach (soundWords a len) := by simp [soundWords]

@[simp] theorem countGranules_unit (die st off len : Nat) : Within unitReach (countGranules die st off len) := by
  simp (disch := decide) [countGranules]

@[simp] theorem refuseVault_unit (die k : Nat) : Within unitReach (refuseVault die k) := by simp (disch := decide) [refuseVault]
@[simp] theorem refuseStore_unit (die core : Nat) : Within unitReach (refuseStore die core) := by simp (disch := decide) [refuseStore]

theorem writeHbm_unit (die st off : Nat) (bs : List Byte) : Keeps unitReach (writeHbm die st off bs) :=
  keeps_bind keeps_state fun s => keeps_ite (fun _ => keeps_fail ..) fun _ => keeps_act (by simp)

theorem writeVaultRow_unit (die k row off : Nat) (bs : List Byte) : Keeps unitReach (writeVaultRow die k row off bs) :=
  keeps_bind keeps_state fun s => keeps_ite (fun _ => keeps_bind (keeps_act (by simp)) fun _ => keeps_fail ..) fun _ =>
    keeps_ite (fun _ => keeps_fail ..) fun _ => keeps_act (by simp)

theorem writeVault_unit (die k off : Nat) (bs : List Byte) : Keeps unitReach (writeVault die k off bs) :=
  keeps_bind keeps_state fun s => keeps_ite (fun _ => keeps_each fun r _ => writeVaultRow_unit ..) fun _ => keeps_act (by simp)

theorem writeStoreRow_unit (die core row off : Nat) (bs : List Byte) (owner : Nat) :
    Keeps unitReach (writeStoreRow die core row off bs owner) :=
  keeps_bind keeps_state fun s => keeps_ite (fun _ => keeps_bind (keeps_act (by simp)) fun _ => keeps_fail ..) fun _ =>
    keeps_ite (fun _ => keeps_fail ..) fun _ => keeps_ite (fun _ => keeps_fail ..) fun _ => keeps_act (by simp)

theorem writeStore_unit (die core off : Nat) (bs : List Byte) (owner : Nat) : Keeps unitReach (writeStore die core off bs owner) :=
  keeps_bind keeps_state fun s => keeps_ite (fun _ => keeps_each fun r _ => writeStoreRow_unit ..) fun _ => keeps_act (by simp)

theorem needPlace_unit (a : Nat) : Keeps unitReach (needPlace a) :=
  keeps_bind keeps_state fun _ => keeps_ite (fun _ => keeps_pure _) fun _ => keeps_fail ..

theorem unitWrite_unit (a : Nat) (bs : List Byte) : Keeps unitReach (unitWrite a bs) :=
  keeps_bind (needPlace_unit a) fun p =>
    match p with
    | .hbm .. => writeHbm_unit ..
    | .vault .. => writeVault_unit ..
    | .store .. => keeps_ite (fun _ => writeStore_unit ..) fun _ =>
        keeps_bind (keeps_act (by simp (disch := decide))) fun _ => keeps_fail ..
    | .regs _ => keeps_fail ..
    | .nowhere => keeps_fail ..

/-! #### Frames -/

@[simp] theorem enterSafe_unit (die parts cause : Nat) : Within unitReach (enterSafe die parts cause) := by
  simp (disch := decide) [enterSafe]

@[simp] theorem requestWarmRestart_unit : Within unitReach requestWarmRestart := by simp (disch := decide) [requestWarmRestart]

@[simp] theorem presentPoint_unit (die stream : Nat) (x y h : Int) : Within unitReach (presentPoint die stream x y h) := by
  simp (disch := decide) [presentPoint]

@[simp] theorem pointWriteError_unit (die entry seq a n : Nat) : Within unitReach (pointWriteError die entry seq a n) :=
  within_freeBytes fun bs => by simp (disch := decide)

@[simp] theorem recordWrite_unit (die entry seq a : Nat) (bs : List Byte) : Within unitReach (recordWrite die entry seq a bs) :=
  within_then (unitWrite_unit a bs) fun r => by
    cases r with
    | ok _ => exact within_nop _
    | error _ => exact pointWriteError_unit ..

@[simp] theorem keepPoint_unit (die entry seq : Nat) (p : Point) : Within unitReach (keepPoint die entry seq p) := by
  rw [keepPoint, within_get]
  intro s
  split <;> simp (disch := decide)

@[simp] theorem applyFate_unit (die entry seq : Nat) (x : Fate) : Within unitReach (applyFate die entry seq x) := by
  cases x <;> simp (disch := decide) [applyFate]

@[simp] theorem keepSample_unit (die entry seq : Nat) (time : Int) (samples : List Byte) :
    Within unitReach (keepSample die entry seq time samples) := by
  rw [keepSample, within_get]
  intro s
  split <;> simp (disch := decide)

@[simp] theorem decodeAudio_unit (p : Packet) : Within unitReach (decodeAudio p) := by simp (disch := decide) [decodeAudio]

@[simp] theorem takeSample_unit (x : PoseSample) : Within unitReach (takeSample x) := by simp (disch := decide) [takeSample]

@[simp] theorem decodePoses_unit (p : Packet) : Within unitReach (decodePoses p) := by simp (disch := decide) [decodePoses]

@[simp] theorem acceptSeq_unit (die entry v : Nat) (newest : Bool) : Within unitReach (acceptSeq die entry v newest) := by
  simp (disch := decide) [acceptSeq]

@[simp] theorem countDecoded_unit (die n : Nat) : Within unitReach (countDecoded die n) := by simp (disch := decide) [countDecoded]

@[simp] theorem decodePoints_unit (p : Packet) : Within unitReach (decodePoints p) := by
  rw [decodePoints, within_get]
  intro s
  dsimp only
  split
  · simp (disch := decide)
  · split
    · simp (disch := decide)
    · split <;> simp (disch := decide)

@[simp] theorem decodePacket_unit (p : Packet) : Within unitReach (decodePacket p) := by
  simp only [decodePacket, within_seq, within_aux, unitReach_aux, implies_true, true_and, within_get]
  intro s
  split <;> simp

theorem takeOrd_unit {k : Nat → Act} (h : ∀ n, Within unitReach (k n)) : Within unitReach (takeOrd k) := by
  simp (disch := decide) [takeOrd, h]

@[simp] theorem presentSeal_unit (die stream seq losses flags quality : Nat) :
    Within unitReach (presentSeal die stream seq losses flags quality) := by simp [presentSeal]

@[simp] theorem withdrawFrame_unit (f : Frame) (cause : Nat) : Within unitReach (withdrawFrame f cause) := by
  simp (disch := decide) [withdrawFrame, handRecord]

@[simp] theorem takeBuffer_unit (die entry seq b : Nat) : Within unitReach (takeBuffer die entry seq b) := by
  simp (disch := decide) [takeBuffer]

@[simp] theorem releaseFrame_unit (die entry seq : Nat) : Within unitReach (releaseFrame die entry seq) := by
  simp only [releaseFrame, within_seq, within_aux, unitReach_aux, implies_true, true_and, within_get]
  intro s
  split <;> simp

@[simp] theorem closeFrame_unit (die entry time quality nextBase : Nat) :
    Within unitReach (closeFrame die entry time quality nextBase) := by
  rw [closeFrame, within_get]
  intro s
  split
  · simp
  · refine takeOrd_unit fun ord => ?_
    simp only [within_all_cons, within_all_nil, and_true, within_get]
    refine ⟨by simp [within_anyway, unitWrite_unit], frame_unit .., fun t => ?_, by simp⟩
    split <;> simp

@[simp] theorem openAt_unit (die entry seq time : Nat) : Within unitReach (openAt die entry seq time) := by
  rw [openAt, within_get]
  intro s
  dsimp only
  split <;> simp (disch := decide)

@[simp] theorem ingTake_unit (die entry : Nat) : Within unitReach (ingTake die entry) := by simp (disch := decide) [ingTake]

@[simp] theorem ingEntry_unit (die i : Nat) : Within unitReach (ingEntry die i) := by simp (disch := decide) [ingEntry]

/-! ### Commits (00 R17, R18, R20) -/

section copies
variable {s : State} (hs : s.Sound) (set : ShadowSet) (die : Nat) (sel : Nat → Bool) (l : Layer) (f : Fld) (d i : Nat)
include hs

/-- A snapshot changes the pending set alone. -/
theorem reg_snapshotSet : ((snapshotSet set die sel).run s).reg l f d i =
    if l = .pend ∧ d = die ∧ f.info.set = set ∧ sel i = true then s.rd f d i else s.reg l f d i := by
  refine (reg_copy hs die _ l f d i).trans ?_
  simp only [Bool.and_eq_true, beq_iff_eq]
  rfl

/-- An activation changes the active copies alone. -/
theorem reg_activateSet : ((activateSet set die sel).run s).reg l f d i =
    if l = .act ∧ d = die ∧ f.info.set = set ∧ sel i = true then s.reg .pend f d i else s.reg l f d i := by
  refine (reg_copy hs die _ l f d i).trans ?_
  simp only [Bool.and_eq_true, beq_iff_eq]

theorem rd_snapshotSet : ((snapshotSet set die sel).run s).rd f d i = s.rd f d i :=
  (reg_snapshotSet hs set die sel .vis f d i).trans (if_neg fun h => by cases h.1)

theorem ac_snapshotSet : ((snapshotSet set die sel).run s).ac f d i = s.ac f d i :=
  (reg_snapshotSet hs set die sel .act f d i).trans (if_neg fun h => by cases h.1)

theorem rd_activateSet : ((activateSet set die sel).run s).rd f d i = s.rd f d i :=
  (reg_activateSet hs set die sel .vis f d i).trans (if_neg fun h => by cases h.1)

end copies

/-- What units do leaves the pending sets, the shadow copies and the configuration errors. -/
theorem run_unit {s : State} (hs : s.Sound) {a : Act} (h : Within unitReach a) :
    (∀ f d i, (a.run s).reg .pend f d i = s.reg .pend f d i) ∧ ∀ f d i, unitField f = false → (a.run s).rd f d i = s.rd f d i := by
  have hr := (within_run h (fun _ => trivial) (fun _ _ _ _ _ => trivial) hs).1
  refine ⟨fun f d i => hr _ _ _ _ ?_, fun f d i hf => hr _ _ _ _ ?_⟩
  · rintro (h | ⟨h, -⟩) <;> cases h
  · rintro (h | ⟨-, h⟩)
    · cases h
    · rw [hf] at h
      cases h

theorem unitField_of_set {f : Fld} (h : f.info.set ≠ .plain) : unitField f = false := by
  rw [unitField, beq_eq_false_iff_ne.2 h, Bool.false_and]

/-- An accepted commit: before its snapshot it leaves the set's shadow copies, behind it only units act. -/
theorem commit_run {s u : State} {set : ShadowSet} {die : Nat} {sel : Nat → Bool} {chosen : Nat → Prop} {rest : Act} (hu : u.Sound)
    (hset : set ≠ .plain) (hvis : ∀ f i, f.info.set = set → u.rd f die i = s.rd f die i) (hsel : ∀ i, chosen i → sel i = true)
    (hrest : Within unitReach rest) :
    s.Snapshot (rest.run ((snapshotSet set die sel).run u)) set die chosen ∧
      ∀ f i, f.info.set = set → (rest.run ((snapshotSet set die sel).run u)).rd f die i = s.rd f die i := by
  obtain ⟨hpend, hrd⟩ := run_unit (run_sound (snapshotSet set die sel) hu) hrest
  refine ⟨fun f i hf hi => ?_, fun f i hf => ?_⟩
  · rw [hpend, reg_snapshotSet hu, if_pos ⟨rfl, rfl, hf, hsel i hi⟩, hvis f i hf]
  · rw [hrd f die i (unitField_of_set (hf ▸ hset)), rd_snapshotSet hu, hvis f i hf]

/-- A configuration error that is set or cleared before a commit's units act stays as it is. -/
theorem rd_error_run {s : State} (hs : s.Sound) {f : Fld} (hf : unitField f = false) (d v : Nat) {a : Act} (h : Within unitReach a) :
    (a.run ((Act.set f d 0 v).run s)).rd f d = v % 2 ^ f.info.width := by
  rw [(run_unit (run_sound _ hs) h).2 f d 0 hf, rd_run_set hs, if_pos ⟨rfl, rfl, rfl⟩]

/-- A refused commit: the error is set, and the pending sets stay as they are. -/
theorem refused_run {s : State} (hs : s.Sound) {f : Fld} (hf : unitField f = false) (d : Nat) {a : Act} (h : Within unitReach a) :
    (∀ g e i, (a.run ((Act.set f d 0 1).run s)).reg .pend g e i = s.reg .pend g e i) ∧
      (a.run ((Act.set f d 0 1).run s)).rd f d = 1 % 2 ^ f.info.width := by
  refine ⟨fun g e i => ?_, rd_error_run hs hf d 1 h⟩
  rw [(run_unit (run_sound _ hs) h).1, reg_run_set hs, if_neg fun h => by cases h.2.1]

/-- The configuration errors are no fields of a shadow set, so writing one leaves every shadow copy. -/
theorem rd_set_error {s : State} (hs : s.Sound) {f g : Fld} (hg : g.info.set = .plain) (hf : f.info.set ≠ .plain) (d e v i : Nat) :
    ((Act.set g e 0 v).run s).rd f d i = s.rd f d i := by
  rw [rd_run_set hs, if_neg]
  rintro ⟨rfl, -⟩
  exact hf hg

/-- A commit that clears its error is accepted. -/
theorem accepted_run {s : State} {set : ShadowSet} {flag : Fld} {rest : Act} (hs : s.Sound) (hset : set ≠ .plain)
    (hplain : flag.info.set = .plain) (hflag : unitField flag = false) (die : Nat) (hrest : Within unitReach rest) :
    let t := rest.run ((snapshotSet set die fun _ => true).run ((Act.set flag die 0 0).run s))
    s.Snapshot t set die (fun _ => True) ∧ (∀ f i, f.info.set = set → t.rd f die i = s.rd f die i) ∧ t.rd flag die = 0 := by
  obtain ⟨hsnap, hsame⟩ := commit_run (run_sound (Act.set flag die 0 0) hs) hset
    (fun f i hf => rd_set_error hs hplain (hf ▸ hset) ..) (fun _ (_ : True) => rfl) hrest
  refine ⟨hsnap, hsame, ?_⟩
  rw [(run_unit (run_sound _ (run_sound _ hs)) hrest).2 _ _ _ hflag, rd_snapshotSet (run_sound _ hs), rd_run_set hs,
    if_pos ⟨rfl, rfl, rfl⟩, Nat.zero_mod]

/-! #### The effects of the units' commits -/

@[simp] theorem activatePm_unit (die m : Nat) : Within unitReach (activatePm die m) := by
  simp only [activatePm, within_get, within_all_cons, within_all_nil, activateSet_unit, within_set, true_and, and_true]
  refine fun s => ⟨unitReach_vis (by decide) .., fun t => ?_⟩
  split <;> simp (disch := decide)

@[simp] theorem activatePe_unit (die : Nat) : Within unitReach (activatePe die) := by
  simp (disch := decide) [activatePe, setPeBit]

@[simp] theorem bcTake_unit (die cls : Nat) (atStart atCommit : Bool) : Within unitReach (bcTake die cls atStart atCommit) := by
  simp (disch := decide) [bcTake]

@[simp] theorem jobSettle_unit (die : Nat) : Within unitReach (jobSettle die) := by simp (disch := decide) [jobSettle]

@[simp] theorem ulsTake_unit (die e : Nat) : Within unitReach (ulsTake die e) := by simp (disch := decide) [ulsTake]

section accepted
variable {s : State} {die : Nat}

theorem ingCommit_accepted (h : s.ingRefusal die = none) : ∃ rest, Within unitReach rest ∧
    (ingCommitAct die).run s = rest.run ((snapshotSet .ing die fun _ => true).run ((Act.set .ING_STATUS_CFG_ERR die 0 0).run s)) := by
  refine ⟨_, ?_, by rw [ingCommitAct, run_get, h]; rfl⟩
  simp (disch := decide)

theorem ingCommit_refused {cause e : Nat} (h : s.ingRefusal die = some (cause, e)) : ∃ rest, Within unitReach rest ∧
    (ingCommitAct die).run s = rest.run ((Act.set .ING_STATUS_CFG_ERR die 0 1).run s) := by
  refine ⟨_, ?_, by rw [ingCommitAct, run_get, h]; rfl⟩
  simp (disch := decide)

theorem ulsCommit_accepted (h : s.ulsRefusal die = none) : ∃ rest, Within unitReach rest ∧
    (ulsCommitAct die).run s = rest.run ((snapshotSet .uls die fun _ => true).run ((Act.set .ULS_STATUS_CFG_ERR die 0 0).run s)) := by
  refine ⟨_, ?_, by rw [ulsCommitAct, run_get, h]; rfl⟩
  simp (disch := decide)

theorem ulsCommit_refused {cause e : Nat} (h : s.ulsRefusal die = some (cause, e)) : ∃ rest, Within unitReach rest ∧
    (ulsCommitAct die).run s = rest.run ((Act.set .ULS_STATUS_CFG_ERR die 0 1).run s) := by
  refine ⟨_, ?_, by rw [ulsCommitAct, run_get, h]; rfl⟩
  simp (disch := decide)

theorem jobCommit_accepted (h : s.badSlotLog = none) : ∃ rest, Within unitReach rest ∧
    (jobCommitAct die).run s =
      rest.run ((snapshotSet .job die fun _ => true).run ((Act.when (die == 0) (.set .JOB_STATUS_CFG_ERR 0 0 0)).run s)) := by
  refine ⟨_, ?_, by rw [jobCommitAct, run_get, h, ite_self]; rfl⟩
  simp (disch := decide)

theorem jobCommit_refused {p : Nat} (h : s.badSlotLog = some p) : ∃ rest, Within unitReach rest ∧
    (jobCommitAct 0).run s = rest.run ((Act.set .JOB_STATUS_CFG_ERR 0 0 1).run s) := by
  refine ⟨_, ?_, by rw [jobCommitAct, run_get, h]; rfl⟩
  simp (disch := decide)

end accepted

/-- Settles O11: each commit is a snapshot before which only its error is written and behind which only units act. -/
theorem commitsTakeASnapshot : Obligations.CommitsTakeASnapshot := by
  intro s die hs hd same unpended
  have h0 : s.dieThere 0 = true := decide_eq_true (Nat.zero_lt_of_lt (of_decide_eq_true hd))
  have hvis : ∀ (set : ShadowSet) (d : Nat) f i, f.info.set = set → s.rd f d i = s.rd f d i := fun _ _ _ _ _ => rfl
  have hone : ∀ m i : Nat, i = m → (i == m) = true := fun m i h => beq_iff_eq.2 h
  refine ⟨?_, fun m hm => ?_, ?_, fun cls => ?_, fun core entry => ?_, ?_, fun hok => ?_, fun hok => ?_, fun hok => ?_,
    fun cause e hno => ?_, fun p hno => ?_, fun cause e hno => ?_⟩
  · refine runs_of_done rfl rfl ⟨(commit_run hs (by decide) (hvis _ 0) (fun _ _ => rfl) (by simp (disch := decide))).1, ?_⟩
    exact (rd_run_set (run_sound _ hs) ..).trans (if_pos ⟨rfl, rfl, rfl⟩)
  · exact runs_of_done rfl (by rw [hd, decide_eq_true hm]; rfl)
      (commit_run hs (by decide) (hvis _ die) (hone m) (rest := .all _) (by simp (disch := decide)))
  · exact runs_of_done rfl hd (commit_run hs (by decide) (hvis _ die) (fun _ _ => rfl) (rest := .all _) (by simp (disch := decide)))
  · exact runs_of_done rfl hd (commit_run hs (by decide) (hvis _ die) (hone cls) (rest := .all _) (by simp (disch := decide)))
  · obtain ⟨hsnap, hsame⟩ := commit_run hs (set := .prd) (by decide) (hvis _ die) (hone (core * 16 + entry))
      (rest := .set .PRD_COMMIT_PENDING die (core * 16 + entry) 1) (by simp (disch := decide))
    exact runs_of_done rfl hd ⟨hsnap, hsame, (rd_run_set (run_sound _ hs) ..).trans (if_pos ⟨rfl, rfl, rfl⟩)⟩
  · exact runs_of_done rfl (by rw [hd]; rfl) (commit_run hs (by decide) (hvis _ die) (fun _ _ => rfl) (activateSet_unit ..))
  · obtain ⟨rest, hrest, hrun⟩ := ingCommit_accepted hok
    exact runs_of_done rfl hd (hrun ▸ accepted_run hs (by decide) rfl rfl die hrest)
  · obtain ⟨rest, hrest, hrun⟩ := jobCommit_accepted (die := die) hok
    refine runs_of_done rfl hd (hrun ▸ commit_run (run_sound _ hs) (by decide) (fun f i hf => ?_) (fun _ _ => rfl) hrest)
    rw [run_when]
    split
    · exact rd_set_error hs (g := .JOB_STATUS_CFG_ERR) rfl (by rw [hf]; decide) ..
    · rfl
  · obtain ⟨rest, hrest, hrun⟩ := ulsCommit_accepted hok
    exact runs_of_done rfl hd (hrun ▸ accepted_run hs (by decide) rfl rfl die hrest)
  · obtain ⟨rest, hrest, hrun⟩ := ingCommit_refused hno
    exact runs_of_done rfl hd (hrun ▸ refused_run hs rfl die hrest)
  · obtain ⟨rest, hrest, hrun⟩ := jobCommit_refused hno
    exact runs_of_done rfl h0 (hrun ▸ refused_run hs rfl 0 hrest)
  · obtain ⟨rest, hrest, hrun⟩ := ulsCommit_refused hno
    exact runs_of_done rfl hd (hrun ▸ refused_run hs rfl die hrest)

/-! ### Commits that become active at once (00 R18, R19) -/

/-- Registers of the fields that a test names, not their pending or active copies. -/
def visReach (good : Fld → Bool) : Reach where
  regs k := k.layer = .vis ∧ good k.fld = true
  mem _ := False
  cfg _ := False
  aux x y := y = x

@[simp] theorem visReach_regs {good : Fld → Bool} {f : Fld} (h : good f = true) (d i : Nat) :
    (visReach good).regs ⟨f, .vis, d, i⟩ := ⟨rfl, h⟩

/-- What writes shadow copies alone leaves: the active copies, and the fields that it does not name. -/
theorem run_vis {s : State} (hs : s.Sound) {good : Fld → Bool} {a : Act} (h : Within (visReach good) a) :
    (∀ f d i, (a.run s).ac f d i = s.ac f d i) ∧ ∀ f d i, good f = false → (a.run s).rd f d i = s.rd f d i := by
  have hr := (within_run h (fun _ => rfl) (fun _ _ _ h1 h2 => h2.trans h1) hs).1
  refine ⟨fun f d i => hr _ _ _ _ fun hk => ?_, fun f d i hf => hr _ _ _ _ fun hk => ?_⟩
  · cases hk.1
  · exact Bool.false_ne_true (hf.symm.trans hk.2)

/-- A commit that waits: the pending set is the snapshot and the pending bit stands; nothing else has changed. -/
structure Waits (s t : State) (set : ShadowSet) (die : Nat) (sel : Nat → Bool) (flag : Fld) (idx : Nat) : Prop where
  sound : t.Sound
  pend : ∀ f i, f.info.set = set → sel i = true → t.reg .pend f die i = s.rd f die i
  ac : ∀ f d i, t.ac f d i = s.ac f d i
  rd : ∀ f d i, f ≠ flag → t.rd f d i = s.rd f d i
  flag : t.rd flag die idx = 1 % 2 ^ flag.info.width
  bytes : s.SameBytes t
  aux : t.aux = s.aux

theorem waits_run {s : State} (hs : s.Sound) (set : ShadowSet) (die : Nat) (sel : Nat → Bool) (flag : Fld) (idx : Nat) :
    Waits s ((Act.set flag die idx 1).run ((snapshotSet set die sel).run s)) set die sel flag idx := by
  have hu := run_sound (snapshotSet set die sel) hs
  refine ⟨run_sound _ hu, fun f i hf hi => ?_, fun f d i => ?_, fun f d i hf => ?_, ?_, sameBytes_of_eq rfl rfl, rfl⟩
  · rw [reg_run_set hu, if_neg (fun h => by cases h.2.1), reg_snapshotSet hs, if_pos ⟨rfl, rfl, hf, hi⟩]
  · rw [ac_run_set hu, ac_snapshotSet hs]
  · rw [rd_run_set hu, if_neg (fun h => hf h.1), rd_snapshotSet hs]
  · rw [rd_run_set hu, if_pos ⟨rfl, rfl, rfl⟩]

/-- A commit whose set is active: the active copies are the shadow copies of the commit, and the pending bit is cleared. -/
structure Activated (s u : State) (set : ShadowSet) (die : Nat) (sel : Nat → Bool) (flag : Fld) (idx : Nat) : Prop where
  sound : u.Sound
  ac : ∀ f i, f.info.set = set → sel i = true → u.ac f die i = s.rd f die i
  rd : ∀ f d i, f ≠ flag → u.rd f d i = s.rd f d i
  flag : u.rd flag die idx = 0
  aux : u.aux = s.aux

theorem activated_run {s t : State} {set : ShadowSet} {die : Nat} {sel : Nat → Bool} {flag : Fld} {idx : Nat}
    (h : Waits s t set die sel flag idx) :
    Activated s ((Act.set flag die idx 0).run ((activateSet set die sel).run t)) set die sel flag idx := by
  have hu := run_sound (activateSet set die sel) h.sound
  refine ⟨run_sound _ hu, fun f i hf hi => ?_, fun f d i hf => ?_, ?_, h.aux⟩
  · rw [ac_run_set hu]
    exact (reg_activateSet h.sound ..).trans ((if_pos ⟨rfl, rfl, hf, hi⟩).trans (h.pend f i hf hi))
  · rw [rd_run_set hu, if_neg (fun h => hf h.1), rd_activateSet h.sound, h.rd f d i hf]
  · rw [rd_run_set hu, if_pos ⟨rfl, rfl, rfl⟩, Nat.zero_mod]

/-- What the unit does to other registers leaves an activation. -/
theorem Activated.tail {s u : State} {set : ShadowSet} {die : Nat} {sel : Nat → Bool} {flag : Fld} {idx : Nat}
    (h : Activated s u set die sel flag idx) {tail : Act} (htail : Within (visReach fun f => f != flag) tail) :
    (∀ f i, f.info.set = set → sel i = true → (tail.run u).ac f die i = s.rd f die i) ∧ (tail.run u).rd flag die idx = 0 := by
  obtain ⟨hac, hrd⟩ := run_vis h.sound htail
  exact ⟨fun f i hf hi => (hac f die i).trans (h.ac f i hf hi), (hrd _ _ _ (bne_self_eq_false flag)).trans h.flag⟩

/-! #### Phase masters -/

/-- Behind the activation of a master's set come only the registers of the master. -/
theorem activatePm_run (die m : Nat) (t : State) : ∃ tail, Within (visReach fun f => f != .PM_STATUS_COMMIT_PENDING) tail ∧
    (activatePm die m).run t =
      tail.run ((Act.set .PM_STATUS_COMMIT_PENDING die m 0).run ((activateSet .pm die fun i => i == m).run t)) := by
  refine ⟨_, ?_, rfl⟩
  simp only [within_all_cons, within_all_nil, within_get, and_true]
  intro u
  split <;> simp (disch := decide)

theorem pmStopped_eq {s t : State} {die m : Nat} {sel : Nat → Bool}
    (h : Waits s t .pm die sel .PM_STATUS_COMMIT_PENDING m) : t.pmStopped die m = s.pmStopped die m := by
  simp (disch := decide) only [State.pmStopped, State.pmKind, State.coastPeriod, State.on, h.ac, h.rd] <;> rfl

section pmCommit
variable {s : State} (hs : s.Sound) {die m : Nat}
include hs

/-- The set of a stopped master becomes active at its commit (R81). -/
theorem pmCommit_stopped (h : s.pmStopped die m = true) : ∃ u tail,
    Activated s u .pm die (fun i => i == m) .PM_STATUS_COMMIT_PENDING m ∧
    Within (visReach fun f => f != .PM_STATUS_COMMIT_PENDING) tail ∧ (pmCommitAct die m).run s = tail.run u := by
  have hw := waits_run hs .pm die (fun i => i == m) .PM_STATUS_COMMIT_PENDING m
  obtain ⟨tail, htail, hrun⟩ := activatePm_run die m _
  exact ⟨_, tail, activated_run hw, htail, (run_when ..).trans ((if_pos ((pmStopped_eq hw).trans h)).trans hrun)⟩

/-- The set of a running master waits (R80). -/
theorem pmCommit_running (h : s.pmStopped die m = false) :
    Waits s ((pmCommitAct die m).run s) .pm die (fun i => i == m) .PM_STATUS_COMMIT_PENDING m := by
  have hw := waits_run hs .pm die (fun i => i == m) .PM_STATUS_COMMIT_PENDING m
  exact (run_when ..).trans (if_neg (Bool.eq_false_iff.1 ((pmStopped_eq hw).trans h))) ▸ hw

end pmCommit

/-! #### The phase-event table -/

theorem anySeal_eq {s t : State} {die : Nat} {sel : Nat → Bool}
    (h : Waits s t .pe die sel .PE_STATUS_COMMIT_PENDING 0) : t.anySeal die = s.anySeal die := by
  simp only [State.anySeal, State.peUsed, State.acOn, h.ac]

/-- The instant of an entry of the active table has passed. -/
def pePast (s : State) (die e : Nat) : Bool := s.peUsed die e && s.acOn .PE_BASE die e && decide (s.peInstant die e ≤ s.now die)

/-- What the activation of a table marks as done: entries whose instant has passed, and those that have fired for it. -/
def peDone (s : State) (die e : Nat) : Bool := pePast s die e || s.firedFor die e (s.peInstant die e)

/-- The marks that the activation of a table leaves at its entries below `n`. -/
def peMarks (s : State) (die n : Nat) : Act :=
  .upTo n fun e => .all [.set .I_PE_DONE die e (b2n (peDone s die e)), .when (pePast s die e) (setPeBit .PE_PAST die e true)]

theorem activatePe_run (die : Nat) (t : State) :
    let u := (Act.set .PE_STATUS_COMMIT_PENDING die 0 0).run ((activateSet .pe die fun _ => true).run t)
    (activatePe die).run t = (peMarks u die 256).run u := by
  rw [activatePe, run_seq, run_seq, run_get]
  rfl

theorem peMarks_vis (s : State) (die n : Nat) : Within (visReach fun f => f != .PE_STATUS_COMMIT_PENDING) (peMarks s die n) := by
  simp (disch := decide) [peMarks, setPeBit]

theorem rd_peMarks {u : State} (hu : u.Sound) (s : State) (die : Nat) {n e : Nat} (he : e < n) :
    ((peMarks s die n).run u).rd .I_PE_DONE die e = b2n (peDone s die e) := by
  induction n with
  | zero => cases he
  | succ n ih =>
    have hv : Within (visReach fun f => f != .I_PE_DONE) (.when (pePast s die n) (setPeBit .PE_PAST die n true)) := by
      simp (disch := decide) [setPeBit]
    have hn := run_sound (peMarks s die n) hu
    unfold peMarks at ih hn ⊢
    rw [run_upTo_succ, run_all_cons, run_all_cons, run_all_nil, (run_vis (run_sound _ hn) hv).2 _ _ _ (bne_self_eq_false _), rd_run_set hn]
    by_cases hen : e = n
    · subst hen
      rw [if_pos ⟨rfl, rfl, rfl⟩]
      cases peDone s die e <;> rfl
    · rw [if_neg fun h => hen h.2.2]
      exact ih (by omega)

/-- A one-bit field is set or clear. -/
theorem bne_zero_iff_eq_one {s : State} (hs : s.Sound) {f : Fld} (hw : f.info.width = 1) (l : Layer) (d i : Nat) :
    (s.reg l f d i != 0) = true ↔ s.reg l f d i = 1 := by
  have := reg_lt hs l f d i
  rw [hw] at this
  rw [bne_iff_ne]
  omega

theorem peDone_iff_ac {s : State} (hs : s.Sound) (die e : Nat) : peDone s die e = true ↔
    (s.ac .PE_VALID die e = 1 ∧ s.ac .PE_KIND die e ≤ 4 ∧ s.ac .PE_BASE die e = 1 ∧ s.ac .PE_INSTANT die e ≤ s.now die) ∨
      (die * 256 + e, s.ac .PE_INSTANT die e) ∈ s.aux.instants := by
  have hvalid : s.acOn .PE_VALID die e = true ↔ s.ac .PE_VALID die e = 1 := bne_zero_iff_eq_one hs rfl ..
  have hbase : s.acOn .PE_BASE die e = true ↔ s.ac .PE_BASE die e = 1 := bne_zero_iff_eq_one hs rfl ..
  simp only [peDone, pePast, State.peUsed, State.firedFor, Bool.or_eq_true, Bool.and_eq_true, decide_eq_true_eq,
    List.contains_iff_mem, hvalid, hbase, and_assoc]
  rfl

section peCommit
variable {s : State} (hs : s.Sound) {die : Nat}
include hs

/-- A table without an active seal takes the committed set at once, and marks what is done in it (R88, R89). -/
theorem peCommit_activates (h : s.anySeal die = false) : ∃ u, Activated s u .pe die (fun _ => true) .PE_STATUS_COMMIT_PENDING 0 ∧
    (peCommitAct die).run s = (peMarks u die 256).run u := by
  have hw := waits_run hs .pe die (fun _ => true) .PE_STATUS_COMMIT_PENDING 0
  refine ⟨_, activated_run hw, (run_when ..).trans ((if_pos ?_).trans (activatePe_run die _))⟩
  rw [anySeal_eq hw, h]
  rfl

/-- A table with an active seal keeps its entries while the committed set waits (R88). -/
theorem peCommit_waits (h : s.anySeal die = true) :
    Waits s ((peCommitAct die).run s) .pe die (fun _ => true) .PE_STATUS_COMMIT_PENDING 0 := by
  have hw := waits_run hs .pe die (fun _ => true) .PE_STATUS_COMMIT_PENDING 0
  refine (run_when ..).trans (if_neg ?_) ▸ hw
  rw [anySeal_eq hw, h]
  decide

end peCommit

theorem Activated.peDone_iff {s u : State} {die : Nat} (h : Activated s u .pe die (fun _ => true) .PE_STATUS_COMMIT_PENDING 0) (e : Nat) :
    peDone u die e = true ↔
      (s.rd .PE_VALID die e = 1 ∧ s.rd .PE_KIND die e ≤ 4 ∧ s.rd .PE_BASE die e = 1 ∧ s.rd .PE_INSTANT die e ≤ s.now die) ∨
        (die * 256 + e, s.rd .PE_INSTANT die e) ∈ s.aux.instants := by
  have hnow : u.now die = s.now die := by
    simp (disch := decide) only [State.now, h.rd]
  rw [peDone_iff_ac h.sound, h.ac .PE_VALID e rfl rfl, h.ac .PE_KIND e rfl rfl, h.ac .PE_BASE e rfl rfl,
    h.ac .PE_INSTANT e rfl rfl, hnow, h.aux]

/-- Settles O12: a commit that nothing holds back runs to an activation, one that is held back to a set that waits. -/
theorem commitsActiveAtOnce : Obligations.CommitsActiveAtOnce := by
  intro s die hs hd
  have hthere : ∀ m < 16, (s.dieThere die && decide (m < 16)) = true := fun m hm => by rw [hd, decide_eq_true hm]; rfl
  refine ⟨fun m hm hstop => ?_, fun m hm hrun => ?_, fun hseal => ?_, fun hseal => ?_, ?_, ?_⟩
  · obtain ⟨u, tail, hu, htail, hrun⟩ := pmCommit_stopped hs hstop
    obtain ⟨hac, hflag⟩ := hu.tail htail
    exact runs_of_done rfl (hthere m hm) (hrun ▸ ⟨fun f hf => hac f m hf (beq_self_eq_true m), hflag⟩)
  · have hw := pmCommit_running hs hrun
    exact runs_of_done rfl (hthere m hm) ⟨hw.ac, hw.flag, hw.bytes, hw.aux⟩
  · obtain ⟨u, hu, hrun⟩ := peCommit_activates hs hseal
    obtain ⟨hac, hflag⟩ := hu.tail (peMarks_vis u die 256)
    refine runs_of_done rfl hd (hrun ▸ ⟨fun f i hf => hac f i hf rfl, hflag, fun e he => ?_⟩)
    rw [rd_peMarks hu.sound u die he, ← hu.peDone_iff]
    cases peDone u die e <;> decide
  · have hw := peCommit_waits hs hseal
    exact runs_of_done rfl hd ⟨hw.ac, hw.flag, hw.bytes, hw.aux⟩
  · have hsnap := run_sound (snapshotSet .mul die fun _ => true) hs
    refine runs_of_done rfl (by rw [hd]; rfl) ⟨fun f i hf => ?_, sameBytes_of_eq rfl rfl, rfl⟩
    refine (reg_activateSet hsnap ..).trans ((if_pos ⟨rfl, rfl, hf, rfl⟩).trans ?_)
    exact (reg_snapshotSet hs ..).trans (if_pos ⟨rfl, rfl, hf, rfl⟩)
  · show (Act.when (s.dieThere die && false) _).done s = _
    rw [Bool.and_false]
    rfl

end Sys2Proof.Proofs

/-! PROOFS. The statements about phase and time (02_phase_and_time.md): first the commands that write registers alone, then the order
and the delivery of phase events, stamps, and the tick. -/

namespace Sys2Proof.Proofs

open Sys2Proof Sys2Proof.Machine Sys2Proof.Laws

/-! ### Commands that write registers alone -/

theorem done_when_false {b : Bool} (hb : b = false) (a : Act) (s : State) : (Act.when b a).done s = .next s := by
  rw [hb]
  rfl

/-- Register entries, each field at its die and index, take values one after the other. -/
def setAll (ws : List ((Fld × Nat × Nat) × Nat)) : Act := .each ws fun w => .set w.1.1 w.1.2.1 w.1.2.2 w.2

section setAll
variable {s : State} (hs : s.Sound) (ws : List ((Fld × Nat × Nat) × Nat))
include hs

theorem onlyRegs_setAll {ks : List (Fld × Nat × Nat)} (hks : ∀ w ∈ ws, w.1 ∈ ks) : s.OnlyRegs ((setAll ws).run s) ks := by
  have hw : Within ⟨fun k => k.layer = .vis ∧ (k.fld, k.die, k.idx) ∈ ks, fun _ => False, fun _ => False, fun x y => y = x⟩
      (setAll ws) := by
    simp only [setAll, within_each, within_set]
    exact fun w hw => ⟨trivial, hks w hw⟩
  obtain ⟨hr, hm, hc, ha⟩ := within_run hw (fun _ => rfl) (fun _ _ _ h1 h2 => h2.trans h1) hs
  exact ⟨fun l f d i => hr l f d i, ⟨fun a => hm a id, fun a => hc a id⟩, ha, run_pending ..⟩

/-- A field that is not written holds what it held. -/
theorem rd_setAll_other {f : Fld} (hf : f ∉ ws.map fun w => w.1.1) (d i : Nat) : ((setAll ws).run s).rd f d i = s.rd f d i := by
  refine (onlyRegs_setAll hs ws fun w hw => List.mem_map_of_mem hw).1 .vis f d i fun ⟨_, hmem⟩ => hf ?_
  obtain ⟨w, hw, hkey⟩ := List.mem_map.1 hmem
  exact List.mem_map.2 ⟨w, hw, congrArg Prod.fst hkey⟩

/-- Of fields that are each written once, each holds its value, cut to its width. -/
theorem rd_setAll (hws : (ws.map fun w => w.1.1).Nodup) {f : Fld} {d i v : Nat} (hw : ((f, d, i), v) ∈ ws) :
    ((setAll ws).run s).rd f d i = v % 2 ^ f.info.width := by
  induction ws generalizing s with
  | nil => cases hw
  | cons w ws ih =>
    obtain ⟨hnot, hws⟩ := List.nodup_cons.1 hws
    have hu := run_sound (Act.set w.1.1 w.1.2.1 w.1.2.2 w.2) hs
    rcases List.mem_cons.1 hw with rfl | hw
    · exact (rd_setAll_other hu ws hnot d i).trans ((rd_run_set hs ..).trans (if_pos ⟨rfl, rfl, rfl⟩))
    · exact ih hu hws hw

/-- A command whose effect is writes of registers runs to the state that holds their values and differs in nothing else. -/
theorem runs_of_writes {c : Instr} {b : Bool} {a : Act} (hc : exec c s = (Act.when b a).done s) (hb : b = true)
    (ha : a.run s = (setAll ws).run s) (hws : (ws.map fun w => w.1.1).Nodup) {P : State → Prop}
    (h : ∀ t, (∀ {f d i v}, ((f, d, i), v) ∈ ws → t.rd f d i = v % 2 ^ f.info.width) →
      (∀ {f} d i, f ∉ ws.map (fun w => w.1.1) → t.rd f d i = s.rd f d i) →
      (∀ {ks}, (∀ w ∈ ws, w.1 ∈ ks) → s.OnlyRegs t ks) → P t) : Runs c s P :=
  runs_of_done hc hb (ha ▸ h _ (rd_setAll hs ws hws) (fun d i hf => rd_setAll_other hs ws hf d i) (onlyRegs_setAll hs ws))

end setAll

/-- A one-bit field is clear unless it holds 1. -/
theorem on_eq_decide {s : State} (hs : s.Sound) {f : Fld} (hw : f.info.width = 1) (d i : Nat) : s.on f d i = decide (s.rd f d i = 1) := by
  rw [Bool.eq_iff_iff, decide_eq_true_iff]
  exact bne_zero_iff_eq_one hs hw ..

/-! ### Slews (02 R49, R50) -/

theorem signed_natAbs_le (v : Nat) : (signed 32 v).natAbs ≤ 2 ^ 31 := by
  have hb : bit v 31 = true ↔ v / 2 ^ 31 % 2 = 1 := by simp [bit, bits, Nat.shiftRight_eq_div_pow]
  unfold signed
  split <;> rename_i h <;> rw [hb] at h <;> omega

/-- The two's complement encoding gives back the word that was read. -/
theorem encode_signed (v : Nat) : encode 32 (signed 32 v) = v % 2 ^ 32 := by
  unfold signed encode
  split <;> omega

theorem timeAdj_of_noSlew {t : State} (hmag : t.rd .I_SLEW_MAG 0 = 0) : t.timeAdj = 0 := by
  unfold State.timeAdj
  rw [hmag]
  simp [encode]

/-- What a slew holds as magnitude and sign reads as the offset that it applies. -/
theorem timeAdj_of_slew {t : State} {v : Nat} (hmag : t.rd .I_SLEW_MAG 0 = (signed 32 v).natAbs * 2 ^ 32)
    (hneg : t.rd .I_SLEW_NEG 0 = b2n (decide (signed 32 v < 0))) : t.timeAdj = v % 2 ^ 32 := by
  rw [← encode_signed, State.timeAdj, State.on, hmag, hneg, Nat.mul_div_cancel _ (by decide)]
  refine congrArg (encode 32) ?_
  by_cases h : signed 32 v < 0
  · simp only [h, decide_true, b2n, if_true, bne_iff_ne, ne_eq, one_ne_zero, not_false_eq_true]
    omega
  · simp only [h, decide_false, b2n, Bool.false_eq_true, if_false, bne_self_eq_false]
    omega

/-- Registers that a write to TIME_ADJ sets: an offset starts a slew, unless it is zero or no tick can apply a part of it. -/
def slewWrites (s : State) (v : Nat) : List ((Fld × Nat × Nat) × Nat) :=
  let starts := !(signed 32 v == 0 || s.slewStep == 0)
  [((.I_SILENCE, 0, 0), 0), ((.I_SLEW_MAG, 0, 0), if starts then (signed 32 v).natAbs * 2 ^ 32 else 0),
    ((.I_SLEW_NEG, 0, 0), if starts then b2n (decide (signed 32 v < 0)) else 0), ((.TIME_STATUS_SLEWING, 0, 0), b2n starts)]

theorem timeAdjAct_run (v : Nat) (s : State) : (timeAdjAct v).run s = (setAll (slewWrites s v)).run s := by
  simp only [timeAdjAct, run_get, slewWrites]
  cases signed 32 v == 0 || s.slewStep == 0 <;> rfl

theorem slewWrites_fields (s : State) (v : Nat) :
    (slewWrites s v).map (fun w => w.1.1) = [.I_SILENCE, .I_SLEW_MAG, .I_SLEW_NEG, .TIME_STATUS_SLEWING] := rfl

/-- Settles O6: TIME_ADJ writes the registers of a slew that starts or of none. -/
theorem timeAdjStartsASlew : Obligations.TimeAdjStartsASlew := by
  intro s v hs
  have hstep : s.slewStep = 0 ↔ s.rd .TIME_INCR 0 < 2048 := Nat.div_eq_zero_iff_lt (by decide)
  refine ⟨?_, fun die hd => done_when_false (beq_false_of_ne hd) _ s⟩
  refine runs_of_writes hs (slewWrites s v.toNat) rfl rfl (timeAdjAct_run ..) (by rw [slewWrites_fields]; decide) fun t hrd _ honly => ?_
  have hmag := hrd (.tail _ (.head _))
  have hneg := hrd (.tail _ (.tail _ (.head _)))
  have hslew := hrd (.tail _ (.tail _ (.tail _ (.head _))))
  refine ⟨hrd (.head _), fun ⟨hoff, hincr⟩ => ?_, fun h => ?_, honly fun w hw => List.mem_map_of_mem (f := Prod.fst) hw⟩
  · have hstarts : (signed 32 v.toNat == 0 || s.slewStep == 0) = false := by
      rw [Bool.or_eq_false_iff, beq_eq_false_iff_ne, beq_eq_false_iff_ne]
      exact ⟨hoff, fun h => absurd hincr (Nat.not_le.2 (hstep.1 h))⟩
    simp only [hstarts, Bool.not_false, if_true] at hmag hneg hslew
    refine ⟨(timeAdj_of_slew (hmag.trans (Nat.mod_eq_of_lt ?_)) (hneg.trans (Nat.mod_eq_of_lt ?_))).trans
      (Nat.mod_eq_of_lt v.isLt), hslew⟩
    · show _ < 2 ^ 64
      have := signed_natAbs_le v.toNat
      omega
    · cases decide (signed 32 v.toNat < 0) <;> decide
  · have hstarts : (signed 32 v.toNat == 0 || s.slewStep == 0) = true := by
      rw [Bool.or_eq_true, beq_iff_eq, beq_iff_eq, hstep]
      exact h
    simp only [hstarts, Bool.not_true, Bool.false_eq_true, if_false, Nat.zero_mod] at hmag hslew
    exact ⟨timeAdj_of_noSlew hmag, hslew⟩

/-! ### The servo and its watch (02 R66 to R68) -/

/-- Settles O7: each command writes the state of the servo, and the counts that begin again with it. -/
theorem servoAndHoldover : Obligations.ServoAndHoldover := by
  intro s hs
  have hwatch := on_eq_decide hs (f := .TIME_WATCH_EN) rfl 0 0
  refine ⟨?_, ?_, fun hen hsync hms => ?_, fun hen hsync hsec => ?_, fun h => done_when_false ?_ _ s,
    fun h => done_when_false ?_ _ s⟩
  · exact runs_of_writes hs [((.I_SILENCE, 0, 0), 0), ((.TIME_STATUS_SYNC, 0, 0), 1)] rfl rfl rfl (by decide) fun t hrd _ honly =>
      ⟨hrd (.tail _ (.head _)), hrd (.head _), honly (by decide)⟩
  · exact runs_of_writes hs [((.I_SILENCE, 0, 0), 0), ((.TIME_STATUS_SYNC, 0, 0), 2), ((.I_HOLD, 0, 0), 0)] rfl rfl rfl (by decide)
      fun t hrd _ honly => ⟨hrd (.tail _ (.head _)), hrd (.head _), hrd (.tail _ (.tail _ (.head _))), honly (by decide)⟩
  · have hdue : (s.on .TIME_WATCH_EN 0 && s.sync == 1 && decide (s.rd .TIME_WATCH_SERVO_MS 0 * 500000 ≤ s.rd .I_SILENCE 0)) = true := by
      simp only [hwatch, State.sync, hen, hsync, hms, decide_true, beq_self_eq_true, Bool.and_self]
    exact runs_of_writes hs [((.TIME_STATUS_SYNC, 0, 0), 2), ((.I_HOLD, 0, 0), 0)] rfl hdue (by rfl) (by decide) fun t hrd _ honly =>
      ⟨hrd (.head _), hrd (.tail _ (.head _)), honly (by decide)⟩
  · have hdue : (s.on .TIME_WATCH_EN 0 && s.sync == 2 && decide (s.rd .TIME_WATCH_HOLD_S 0 * 500000000 ≤ s.rd .I_HOLD 0)) = true := by
      simp only [hwatch, State.sync, hen, hsync, hsec, decide_true, beq_self_eq_true, Bool.and_self]
    exact runs_of_writes hs [((.TIME_STATUS_SYNC, 0, 0), 3)] rfl hdue (by rfl) (by decide) fun t hrd _ honly =>
      ⟨hrd (.head _), honly (by decide)⟩
  · rcases h with h | h
    · rw [hwatch, h]
      rfl
    · rw [State.sync, beq_false_of_ne h, Bool.and_false, Bool.false_and]
  · rcases h with h | h
    · rw [hwatch, h]
      rfl
    · rw [State.sync, beq_false_of_ne h, Bool.and_false, Bool.false_and]

/-! ### Azimuth masters without packets (02 R75, R76) -/

/-- Registers of a master that begins to coast. -/
def coastWrites (s : State) (die m : Nat) : List ((Fld × Nat × Nat) × Nat) :=
  [((.PM_STATUS_STATE, die, m), 2), ((.PM_STATUS_HOLDING, die, m), 0), ((.I_PM_STARTED, die, m), 1), ((.I_PM_WRAPPED, die, m), 0),
    ((.I_PM_COAST_TICK, die, m), s.ticks), ((.I_PM_COAST_TURNS, die, m), 0), ((.I_PM_COAST_PART, die, m), 0)]

theorem coastWrites_fields (s : State) (die m : Nat) : (coastWrites s die m).map (fun w => w.1.1) =
    [.PM_STATUS_STATE, .PM_STATUS_HOLDING, .I_PM_STARTED, .I_PM_WRAPPED, .I_PM_COAST_TICK, .I_PM_COAST_TURNS, .I_PM_COAST_PART] := rfl

/-- Settles O10: a master whose time has passed takes the registers of the state that follows; no other master does. -/
theorem mastersCoastAndAreLost : Obligations.MastersCoastAndAreLost := by
  intro s die m hs hd
  refine ⟨fun haz hst hlt hle => ?_, fun haz hst hle => ?_, fun h => done_when_false ?_ _ s, fun h => done_when_false ?_ _ s⟩
  · have hdue : (s.dieThere die && s.pmAzimuth die m && s.rd .PM_STATUS_STATE die m == 1 &&
        decide (s.rd .I_PM_PKT_TICK die m + s.ac .PM_TIMEOUT_US die m * ticksPerUs ≤ s.ticks) &&
        decide (s.rd .I_PM_PKT_TICK die m < s.ticks)) = true := by
      simp only [hd, haz, hst, hlt, ticksPerUs, hle, decide_true, beq_self_eq_true, Bool.and_self]
    refine runs_of_writes hs (coastWrites s die m) rfl hdue (by rfl) (by rw [coastWrites_fields]; decide) fun t hrd hother honly => ?_
    have hphase := hother (f := .PM_STATUS_PHASE) die m (by rw [coastWrites_fields]; decide)
    exact ⟨hrd (v := 2) (by simp [coastWrites]), hrd (v := 0) (by simp [coastWrites]),
      (hrd (v := s.ticks) (by simp [coastWrites])).trans (Nat.mod_eq_of_lt (reg_lt hs ..)), hrd (v := 0) (by simp [coastWrites]),
      hrd (v := 0) (by simp [coastWrites]), hphase, honly fun w hw => List.mem_map_of_mem (f := Prod.fst) hw⟩
  · have hdue : (s.dieThere die && s.pmAzimuth die m && s.rd .PM_STATUS_STATE die m == 2 &&
        decide (s.ac .PM_TIMEOUT_REVS die m ≤ s.rd .I_PM_COAST_TURNS die m)) = true := by
      simp only [hd, haz, hst, hle, decide_true, beq_self_eq_true, Bool.and_self]
    exact runs_of_writes hs [((.PM_STATUS_STATE, die, m), 3)] rfl hdue (by rfl) (List.nodup_singleton _) fun t hrd _ honly =>
      ⟨hrd (.head _), honly fun w hw => List.mem_map_of_mem (f := Prod.fst) hw⟩
  · rcases h with h | h
    · rw [h, Bool.and_false, Bool.false_and]
      rfl
    · rw [beq_false_of_ne h, Bool.and_false, Bool.false_and, Bool.false_and]
  · rcases h with h | h
    · rw [h, Bool.and_false, Bool.false_and]
      rfl
    · rw [beq_false_of_ne h, Bool.and_false, Bool.false_and]
/-! ### The order of a dispatch (02 R86) -/

/-- What orders the events of a dispatch: kind, masters before instants, master, crossing or instant, entry. -/
def eventKey (f : Fired) : Lex (Nat × Lex (Nat × Lex (Nat × Lex (Nat × Nat)))) :=
  toLex (kindOrder f.kind, toLex (b2n (!f.phased), toLex (f.master, toLex (f.cross, f.entry))))

/-- The model's order is lexicographic; the rewriting to `<` serves core's order on lists and Mathlib's alike. -/
theorem before_iff {a b : Fired} : a.before b = true ↔ eventKey a ≤ eventKey b := by
  simp only [Fired.before, eventKey, decide_eq_true_eq, ← List.not_lt, ← not_lt, List.cons_lt_cons_iff, Prod.Lex.toLex_lt_toLex,
    List.lt_irrefl, and_false, or_false]

theorem sortFired_eq (l : List Fired) : sortFired l = l.insertionSort fun a b => a.before b = true := by
  have hinsert (f : Fired) (gs : List Fired) : insertFired f gs = gs.orderedInsert (fun a b => a.before b = true) f := by
    induction gs with
    | nil => rfl
    | cons g gs ih => simp only [insertFired, List.orderedInsert_cons, ih]
  induction l with
  | nil => rfl
  | cons f fs ih => rw [List.insertionSort_cons, ← hinsert, ← ih]; rfl

theorem sortFired_perm (l : List Fired) : (sortFired l).Perm l := sortFired_eq l ▸ List.perm_insertionSort _ l

theorem sortFired_sorted (l : List Fired) : (sortFired l).Pairwise fun a b => eventKey a ≤ eventKey b := by
  have : Std.Total fun a b : Fired => a.before b = true := ⟨fun a b => by simp only [before_iff]; exact le_total ..⟩
  have : IsTrans Fired fun a b => a.before b = true := ⟨fun a b c => by simp only [before_iff]; exact le_trans⟩
  rw [sortFired_eq]
  exact (List.pairwise_insertionSort _ l).imp before_iff.1

theorem dispatchOf_some {s : State} {die : Nat} {f : Fired}
    (h : s.aux.fired.find? (fun g => g.die == die && decide (g.group < s.ticks)) = some f) :
    s.dispatchOf die = sortFired (s.aux.fired.filter fun g => g.die == die && g.group == f.group) := by
  rw [State.dispatchOf, h]

theorem dispatchOf_none {s : State} {die : Nat}
    (h : s.aux.fired.find? (fun g => g.die == die && decide (g.group < s.ticks)) = none) : s.dispatchOf die = [] := by
  rw [State.dispatchOf, h]

/-- A dispatch takes its events from the list, sends those for other dies on their way, and delivers its own in order. -/
theorem exec_phaseEventDispatch (die : Nat) (s : State) :
    exec (.phaseEventDispatch die) s = .next ((Act.all (deliverAll [] ((s.dispatchOf die).filter fun f => f.targetDie == die))).run
      ((Act.aux fun a => { a with
        fired := a.fired.filter fun f => !(s.dispatchOf die).contains f
        remote := a.remote ++ (s.dispatchOf die).filter fun f => f.targetDie != die && s.dieThere f.targetDie }).run s)) := rfl

/-- Settles O18: a dispatch is sorted by insertion, and its own events run in that order. -/
theorem dispatchOrder : Obligations.DispatchOrder := by
  intro s die past
  refine ⟨fun f hf => ?_, dispatchOf_none, exec_phaseEventDispatch die s⟩
  rw [dispatchOf_some hf]
  exact ⟨sortFired_perm _, sortFired_sorted _⟩

/-! ### What neither the Bell nor a seal touches

A ring of the Bell leaves the counts of lost stamps and of merged seals and the stamps that wait, and so does a seal with the decoding
before it. -/

/-- Everything but the registers that count lost stamps and merged seals, the configuration store and the stamp FIFOs; of memory the
bytes that `mem` names. -/
def countsReach (mem : Nat → Prop) : Reach where
  regs k := k.layer = .vis → k.fld ≠ .TSF_STATUS_LOST ∧ k.fld ≠ .SC_SEAL_MERGED
  mem := mem
  cfg _ := False
  aux x y := y.stamps = x.stamps

section countsReach
variable {mem : Nat → Prop}

@[simp] theorem countsReach_act (f : Fld) (d i : Nat) : (countsReach mem).regs ⟨f, .act, d, i⟩ := fun h => by cases h
@[simp] theorem countsReach_vis {f : Fld} (h : f ≠ .TSF_STATUS_LOST ∧ f ≠ .SC_SEAL_MERGED) (d i : Nat) :
    (countsReach mem).regs ⟨f, .vis, d, i⟩ := fun _ => h
@[simp] theorem countsReach_mem (j : Nat) : (countsReach mem).mem j ↔ mem j := Iff.rfl
@[simp] theorem countsReach_aux (x y : Aux) : (countsReach mem).aux x y ↔ y.stamps = x.stamps := Iff.rfl

/-- What such an effect leaves. -/
theorem run_counts {s : State} (hs : s.Sound) {a : Act} (h : Within (countsReach mem) a) :
    (∀ d i, (a.run s).rd .TSF_STATUS_LOST d i = s.rd .TSF_STATUS_LOST d i) ∧
      (∀ d i, (a.run s).rd .SC_SEAL_MERGED d i = s.rd .SC_SEAL_MERGED d i) ∧ (∀ j, ¬ mem j → (a.run s).byte j = s.byte j) ∧
      (∀ j, (a.run s).cfgByte j = s.cfgByte j) ∧ (a.run s).aux.stamps = s.aux.stamps := by
  obtain ⟨hr, hm, hc, ha⟩ := within_run h (fun _ => rfl) (fun _ _ _ h1 h2 => h2.trans h1) hs
  exact ⟨fun d i => hr _ _ _ _ fun h => (h rfl).1 rfl, fun d i => hr _ _ _ _ fun h => (h rfl).2 rfl, hm, fun j => hc j id, ha⟩

/-! #### Contexts, engines and the Bell -/

@[simp] theorem stageHeads_counts (die core : Nat) : Within (countsReach mem) (stageHeads die core) := by
  simp only [stageHeads, within_upTo]
  intro i _ j _
  rw [stageHead, within_get]
  intro s
  split <;> simp (disch := decide) [stage, endLoad, Act.ctx, Act.engine]

@[simp] theorem preemptBelow_counts (die core c : Nat) : Within (countsReach mem) (preemptBelow die core c) := by
  simp (disch := decide) [preemptBelow, preemptCtx, Act.ctx, Act.engine]

@[simp] theorem setBellBit_counts {f : Fld} (h : f ≠ .TSF_STATUS_LOST ∧ f ≠ .SC_SEAL_MERGED) (die src : Nat) (b : Bool) :
    Within (countsReach mem) (setBellBit f die src b) := (within_upd ..).2 (countsReach_vis h _ _)

@[simp] theorem sequencerServe_counts (die lcore src : Nat) : Within (countsReach mem) (sequencerServe die lcore src) := by
  rw [sequencerServe, within_get]
  intro s
  dsimp only
  split <;> simp (disch := decide) [setCounter, endFlight, unblock, Act.ctx]

@[simp] theorem vectorArrival_counts (v : Nat) : Within (countsReach mem) (vectorArrival v) := by
  simp (disch := decide) [vectorArrival, vectorDue, sendMsix, Act.out]

@[simp] theorem bellPresent_counts (die src : Nat) : Within (countsReach mem) (bellPresent die src) := by
  rw [bellPresent, within_get]
  intro s
  split <;> simp

@[simp] theorem bellRing_counts (die src tag : Nat) : Within (countsReach mem) (bellRing die src tag) := by
  have hbit : ∀ held : Bool, (if held then Fld.I_BELL_HELD else .BELL_PEND) ≠ .TSF_STATUS_LOST ∧
    (if held then Fld.I_BELL_HELD else .BELL_PEND) ≠ .SC_SEAL_MERGED := by decide
  simp (disch := decide) [bellRing, bellArrive, bellSettle, setBellBit_counts (hbit _)]

/-! #### Writes of units -/

@[simp] theorem noteWrite_counts (a len : Nat) : Within (countsReach mem) (noteWrite a len) := by
  rw [noteWrite, within_get]
  intro s
  split <;> simp

end countsReach

/-! #### Writes of units, decoding and seals, which also write memory -/

section anyByte

/-- Those of the effects that may also write memory. -/
abbrev anyByte : Reach := countsReach fun _ => True

theorem writeHbm_counts (die st off : Nat) (bs : List Byte) : Keeps anyByte (writeHbm die st off bs) :=
  keeps_bind keeps_state fun s => keeps_ite (fun _ => keeps_fail ..) fun _ =>
    keeps_act (by simp (disch := decide) [countGranules, soundWords])

theorem writeVault_counts (die k off : Nat) (bs : List Byte) : Keeps anyByte (writeVault die k off bs) :=
  keeps_bind keeps_state fun s => keeps_ite
    (fun _ => keeps_each fun r _ => keeps_bind keeps_state fun s => keeps_ite
      (fun _ => keeps_bind (keeps_act (by simp (disch := decide) [refuseVault])) fun _ => keeps_fail ..) fun _ =>
      keeps_ite (fun _ => keeps_fail ..) fun _ => keeps_act (by simp [soundRow]))
    fun _ => keeps_act (by simp)

theorem writeStore_counts (die core off : Nat) (bs : List Byte) (owner : Nat) : Keeps anyByte (writeStore die core off bs owner) :=
  keeps_bind keeps_state fun s => keeps_ite
    (fun _ => keeps_each fun r _ => keeps_bind keeps_state fun s => keeps_ite
      (fun _ => keeps_bind (keeps_act (by simp (disch := decide) [refuseStore])) fun _ => keeps_fail ..) fun _ =>
      keeps_ite (fun _ => keeps_fail ..) fun _ => keeps_ite (fun _ => keeps_fail ..) fun _ => keeps_act (by simp [soundRow]))
    fun _ => keeps_act (by simp)

theorem unitWrite_counts (a : Nat) (bs : List Byte) : Keeps anyByte (unitWrite a bs) :=
  keeps_bind (keeps_bind keeps_state fun _ => keeps_ite (fun _ => keeps_pure _) fun _ => keeps_fail ..) fun p =>
    match p with
    | .hbm .. => writeHbm_counts ..
    | .vault .. => writeVault_counts ..
    | .store .. => keeps_ite (fun _ => writeStore_counts ..) fun _ =>
        keeps_bind (keeps_act (by simp (disch := decide))) fun _ => keeps_fail ..
    | .regs _ => keeps_fail ..
    | .nowhere => keeps_fail ..

@[simp] theorem presentPoint_counts (die stream : Nat) (x y h : Int) : Within anyByte (presentPoint die stream x y h) := by
  simp (disch := decide) [presentPoint, enterSafe, requestWarmRestart, Act.zone]

@[simp] theorem recordWrite_counts (die entry seq a : Nat) (bs : List Byte) : Within anyByte (recordWrite die entry seq a bs) :=
  within_then (unitWrite_counts a bs) fun r => by
    cases r with
    | ok _ => exact within_nop _
    | error _ => exact within_freeBytes fun bs => by simp (disch := decide) [Act.frame]

@[simp] theorem applyFate_counts (die entry seq : Nat) (x : Fate) : Within anyByte (applyFate die entry seq x) := by
  cases x with
  | kept p =>
    rw [applyFate, keepPoint, within_get]
    intro s
    split <;> simp (disch := decide) [Act.frame]
  | _ => simp (disch := decide) [applyFate, Act.frame]

@[simp] theorem keepSample_counts (die entry seq : Nat) (time : Int) (samples : List Byte) :
    Within anyByte (keepSample die entry seq time samples) := by
  rw [keepSample, within_get]
  intro s
  split <;> simp (disch := decide) [Act.frame]

@[simp] theorem decodePoints_counts (p : Packet) : Within anyByte (decodePoints p) := by
  simp (disch := decide) only [decodePoints, acceptSeq, countDecoded, Act.frame, within_get, within_ite, within_seq, within_all_cons,
    within_all_nil, within_inc, within_set, within_aux, within_when, countsReach_vis, countsReach_aux, implies_true, and_true, true_and]
  intro s _ _
  split <;> simp

@[simp] theorem decodePacket_counts (p : Packet) : Within anyByte (decodePacket p) := by
  simp only [decodePacket, within_seq, within_aux, countsReach_aux, implies_true, true_and, within_get]
  intro s
  split <;> simp (disch := decide) [decodePoses, takeSample, decodeAudio, Act.frame]

@[simp] theorem takeBuffer_counts (die entry seq b : Nat) : Within anyByte (takeBuffer die entry seq b) := by
  simp (disch := decide) [takeBuffer, Act.frame]

@[simp] theorem releaseFrame_counts (die entry seq : Nat) : Within anyByte (releaseFrame die entry seq) := by
  simp only [releaseFrame, within_seq, within_aux, countsReach_aux, implies_true, true_and, within_get]
  intro s
  split <;> simp

theorem takeOrd_counts {k : Nat → Act} (h : ∀ n, Within anyByte (k n)) : Within anyByte (takeOrd k) := by
  simp (disch := decide) [takeOrd, h]

@[simp] theorem closeFrame_counts (die entry time quality nextBase : Nat) :
    Within anyByte (closeFrame die entry time quality nextBase) := by
  rw [closeFrame, within_get]
  intro s
  split
  · simp
  · refine takeOrd_counts fun ord => ?_
    simp only [within_all_cons, within_all_nil, and_true, within_get]
    refine ⟨by simp [within_anyway, unitWrite_counts], by simp [Act.frame], fun t => ?_, ?_⟩
    · split <;> simp [presentSeal, Act.zone]
    · simp (disch := decide) [withdrawFrame, handRecord, Act.frame]

@[simp] theorem openAt_counts (die entry seq time : Nat) : Within anyByte (openAt die entry seq time) := by
  rw [openAt, within_get]
  intro s
  dsimp only
  split <;> simp (disch := decide) [Act.frame]

theorem copyToActive_counts (die : Nat) (p : Fld → Nat → Bool) : Eff.Within anyByte (.copy .pend .act die p) :=
  fun _ _ _ h => by cases h

theorem sealStream_counts (die entry time quality : Nat) : Within anyByte (sealStream die entry time quality) := by
  simp (disch := decide) [sealStream, ingTake, takeRow, activateSet, copyToActive_counts]

end anyByte

/-! ### The delivery of events (02 R84, R87, 03 R127) -/
theorem deliver_seal {f : Fired} (hk : f.kind = 0) (ht : f.target < 48) (first : Bool) (s : State) : (deliver f first).run s =
    if first = true then (sealStream f.targetDie f.target f.time f.quality).run s
    else (Act.inc .SC_SEAL_MERGED f.targetDie f.target).run s := by
  rw [deliver, run_get, hk]
  simp only [Nat.not_le.2 ht, if_false]
  cases first <;> rfl

/-- What becomes of the queues hangs on the queues alone. -/
theorem run_aux_congr {s : State} {g h : Aux → Aux} (e : g s.aux = h s.aux) : (Act.aux g).run s = (Act.aux h).run s :=
  congrArg (fun x => { s with aux := x }) e

theorem deliverAll_one (f : Fired) (s : State) : (Act.all (deliverAll [] [f])).run s = (deliver f true).run s := rfl

theorem deliverAll_two (f g : Fired) (s : State) :
    (Act.all (deliverAll [] [f, g])).run s = (deliver g (!g.sameTarget f)).run ((deliver f true).run s) := by
  simp only [deliverAll, run_all_cons, run_all_nil, List.any_cons, List.any_nil, Bool.or_false, Bool.not_false]

/-- Of two seals of one stream the first seals and the second is counted (03 R127). -/
theorem mergedSeal_run {s : State} (hs : s.Sound) {f g : Fired} {die : Nat} (hf : f.targetDie = die) (hg : g.targetDie = die)
    (hfk : f.kind = 0) (hgk : g.kind = 0) (ht : f.target = g.target) (hlt : f.target < 48) :
    ((Act.all (deliverAll [] [f, g])).run s).rd .SC_SEAL_MERGED die f.target = (s.rd .SC_SEAL_MERGED die f.target + 1) % 2 ^ 32 := by
  have hsame : g.sameTarget f = true := by simp [Fired.sameTarget, hf, hg, hfk, hgk, ht]
  have hu := run_sound (sealStream f.targetDie f.target f.time f.quality) hs
  obtain ⟨-, hmerged, -⟩ := run_counts hs (sealStream_counts f.targetDie f.target f.time f.quality)
  rw [deliverAll_two, deliver_seal hfk hlt, if_pos rfl, hsame, deliver_seal hgk (ht ▸ hlt), if_neg (by decide), hg, ← ht, rd_run_inc hu,
    if_pos ⟨rfl, rfl, rfl⟩, hmerged]
  rfl

/-- Settles O19: a dispatch that only sends is one change of the queues, and one of its own events is one delivery. -/
theorem eventsAreDelivered : Obligations.EventsAreDelivered := by
  intro s die hs fs left
  refine ⟨fun hall => ?_, fun f hf hdie => ?_, fun f g hfg hf hg hfk hgk ht hlt => ?_, fun f hf => ?_⟩
  · have hnone : fs.filter (fun f => f.targetDie == die) = [] :=
      List.filter_eq_nil_iff.2 fun f hf => by simp [(hall f hf).1]
    have hgo : fs.filter (fun f => f.targetDie != die && s.dieThere f.targetDie) = fs :=
      List.filter_eq_self.2 fun f hf => by simp [hall f hf]
    refine ⟨_, exec_phaseEventDispatch die s, ?_⟩
    rw [hnone, hgo]
    exact ⟨rfl, fun _ _ _ _ _ => rfl, sameBytes_of_eq rfl rfl⟩
  · have hown : fs.filter (fun f => f.targetDie == die) = [f] := by rw [hf]; simp [hdie]
    have haway : fs.filter (fun f => f.targetDie != die && s.dieThere f.targetDie) = [] := by rw [hf]; simp [hdie]
    rw [exec_phaseEventDispatch, hown, haway, deliverAll_one]
    refine congrArg (fun t => Host.Outcome.next ((deliver f true).run t)) (run_aux_congr ?_)
    rw [List.append_nil]
  · refine ⟨_, exec_phaseEventDispatch die s, ?_⟩
    have hown : fs.filter (fun f => f.targetDie == die) = fs :=
      List.filter_eq_self.2 (by rw [hfg]; simp [hf, hg])
    rw [hown, hfg]
    exact mergedSeal_run (run_sound _ hs) hf hg hfk hgk ht hlt
  · have harrive : exec (.remoteEventDelivery die) s = .next ((Act.all (deliverAll [] (s.remoteOf die))).run
        ((Act.aux fun a => { a with remote := a.remote.filter fun f => !(s.remoteOf die).contains f }).run s)) := rfl
    rw [harrive, hf, deliverAll_one]
    refine congrArg (fun t => Host.Outcome.next ((deliver f true).run t)) (run_aux_congr ?_)
    simp only [List.contains_cons, List.contains_nil, Bool.or_false]
/-! ### Egress stamps (02 R60 to R62) -/

theorem bit_eq_testBit (n i : Nat) : bit n i = n.testBit i := by
  rw [Nat.testBit_eq_decide_div_mod_eq, bit, bits, Nat.shiftRight_eq_div_pow]
  rfl

theorem bit_putBit_self {n i : Nat} (hclear : bit n i = false) : bit (putBit n i true) i = true := by
  have hput : putBit n i true = 2 ^ i + n := by rw [putBit, hclear]; exact Nat.add_comm ..
  rw [hput, bit_eq_testBit, Nat.testBit_two_pow_add_eq, ← bit_eq_testBit, hclear]
  rfl

/-- A source whose bit has been set. -/
theorem bellBit_setBellBit {s : State} (hs : s.Sound) {die src : Nat} (hclear : bellBit s .BELL_PEND die src = false) :
    bellBit ((setBellBit .BELL_PEND die src true).run s) .BELL_PEND die src = true := by
  have hwidth : Fld.BELL_PEND.info.width = 32 := rfl
  rw [bellBit, setBellBit, rd_run_upd hs, if_pos ⟨rfl, rfl, rfl⟩, hwidth, bit_eq_testBit, Nat.testBit_mod_two_pow,
    decide_eq_true (Nat.mod_lt _ (by decide)), ← bit_eq_testBit, bit_putBit_self hclear]
  rfl

/-- Nothing happens when a source that nothing serves by itself is presented. -/
theorem bellPresent_quiet {s : State} {die src : Nat} (h : s.quietSource die src) : (bellPresent die src).run s = s := by
  have htarget : bellTarget s die src = none ∨ bellTarget s die src = some 0 := by
    unfold bellTarget
    obtain h0 | h1 : s.rd .BELL_TGT_KIND die src = 0 ∨ s.rd .BELL_TGT_KIND die src = 1 := by
      unfold State.quietSource at h
      omega
    · exact .inl (by rw [h0]; rfl)
    · exact .inr (by rw [h1]; rfl)
  rw [bellPresent, run_get]
  rcases htarget with h | h <;> rw [h] <;> rfl

/-- A ring of a quiet source that is neither pending nor held sets its record and its pending bit. -/
theorem bellRing_quiet {s : State} (hs : s.Sound) {die src : Nat} (hsrc : src < 1024) (hquiet : s.quietSource die src)
    (hheld : s.rd .BELL_HOLDING die = 0) (hclear : bellBit s .BELL_PEND die src = false) :
    (bellRing die src).run s = (setBellBit .BELL_PEND die src true).run ((Act.set .BELL_REC die src (putBits src 10 3 die)).run s) := by
  have hbits : bits src 0 10 = src ∧ bits src 13 3 = 0 := by
    simp only [bits, Nat.shiftRight_eq_div_pow]
    omega
  have hhold : bit (s.rd .BELL_HOLDING die) (src / 32) = false := by
    rw [hheld, bit_eq_testBit, Nat.zero_testBit]
  have hu := run_sound (Act.set .BELL_REC die src (putBits src 10 3 die)) hs
  have hq : ((setBellBit .BELL_PEND die src true).run ((Act.set .BELL_REC die src (putBits src 10 3 die)).run s)).quietSource die src := by
    rw [State.quietSource, setBellBit, rd_run_upd hu, if_neg (fun h => by cases h.1), rd_run_set hs, if_neg fun h => by cases h.1]
    exact hquiet
  rw [bellRing, Nat.zero_mul, Nat.add_zero, bellArrive, run_get]
  simp only [hbits, hhold, hclear, bne_self_eq_false, Bool.false_eq_true, if_false, Bool.false_and, Bool.or_false, bellSettle, run_get,
    run_seq, run_all_cons, run_all_nil, run_each_cons, run_each_nil, run_when, bellPresent_quiet hq, ite_self]

section stamps
variable {s : State} {die port seqId msgType domain : Nat}

/-- The stamp of a message sent now. -/
def stampNow (s : State) (die port seqId msgType domain : Nat) : Stamp :=
  ⟨die, port, s.seconds die, s.nanos die, s.rd .TIME_NOW_FRAC 0, seqId, msgType, domain⟩

/-- The message as it leaves the package. -/
def ptpOut (s : State) (die port : Nat) (two : Bool) (seqId msgType domain : Nat) : Output :=
  .ptpMessage die port (s.fullStamp die) (ptpFields two seqId msgType domain (s.seconds die) (s.nanos die))

/-- What becomes of the stamp of a two-step message. -/
def keepStamp (s : State) (die port : Nat) (stamp : Stamp) : Act :=
  if (s.stampsOf die port).length < 64 then .aux fun a => { a with stamps := a.stamps ++ [stamp] }
  else .seq (.incSat .TSF_STATUS_LOST die port) (bellRing die (0x050 + port))

theorem exec_ptpEventSend (hd : s.dieThere die = true) (hp : portThere die port = true) (two : Bool) :
    exec (.ptpEventSend die port two seqId msgType domain) s =
      .next ((Act.when two (keepStamp s die port (stampNow s die port seqId msgType domain))).run
        ((Act.out (ptpOut s die port two seqId msgType domain)).run s)) :=
  done_when (by rw [hd, hp]; rfl) _ s

/-- The fields of a message: the one-step flag and timestamp go together. -/
theorem ptpFields_spec (two : Bool) (sec ns : Nat) :
    let fields := ptpFields two seqId msgType domain sec ns
    (0, toBe 1 (msgType % 16)) ∈ fields ∧ (4, toBe 1 domain) ∈ fields ∧ (30, toBe 2 seqId) ∈ fields ∧
      (6, toBe 1 (bitIf two 1)) ∈ fields ∧ (∀ f ∈ fields, f.1 = 34 → two = false ∧ msgType % 16 = 0) ∧
      (two = false → msgType % 16 = 0 → (34, toBe 6 sec ++ toBe 4 ns) ∈ fields) := by
  cases two <;> by_cases h : msgType % 16 = 0 <;> simp [ptpFields, h]

/-- The oldest stamp of a port is taken, and the others stay. -/
theorem tsfPop_run {x : Stamp} (h : (s.stampsOf die port).head? = some x) :
    (tsfPopAct die port).run s = (Act.aux fun a => { a with stamps := s.aux.stamps.erase x }).run s := by
  have hfind : (s.aux.stamps.find? fun t => t.die == die && t.port == port) = some x := List.head?_filter.symm.trans h
  refine run_aux_congr ?_
  rw [hfind]

theorem tsfPop_run_empty (h : s.stampsOf die port = []) : (tsfPopAct die port).run s = s := by
  have hfind : (s.aux.stamps.find? fun t => t.die == die && t.port == port) = none :=
    List.head?_filter.symm.trans (congrArg List.head? h)
  refine (run_aux_congr (h := fun a => a) ?_)
  rw [hfind]

end stamps

/-- Settles O9: a message leaves with its fields, and a two-step one's stamp is kept or counted; a pop erases the head of the FIFO. -/
theorem stampFifos : Obligations.StampFifos := by
  intro s die port seqId msgType domain hs hd hp sec ns frac stamp sent only
  have hout (two : Bool) := run_sound (Act.out (ptpOut s die port two seqId msgType domain)) hs
  have hsent {two : Bool} {t : State} (h : t.aux.outputs.head? = some (ptpOut s die port two seqId msgType domain)) : sent two t :=
    ⟨_, h, ptpFields_spec two sec ns⟩
  have hport : port ≤ 2 := by
    simp only [portThere, Bool.or_eq_true, decide_eq_true_eq, Bool.and_eq_true, beq_iff_eq] at hp
    omega
  refine ⟨Nat.mod_lt _ (by decide), Nat.div_add_mod' .., ?_, fun hroom => ?_, fun hfull => ?_, fun x hx => ?_, fun hnone => ?_⟩
  · exact ⟨_, exec_ptpEventSend hd hp false, hsent rfl, fun _ _ _ _ _ => rfl, sameBytes_of_eq rfl rfl, rfl, rfl⟩
  · refine ⟨_, exec_ptpEventSend hd hp true, ?_⟩
    rw [run_when_true, keepStamp, if_pos hroom]
    exact ⟨hsent rfl, fun _ _ _ _ _ => rfl, sameBytes_of_eq rfl rfl, rfl, rfl⟩
  · refine ⟨_, exec_ptpEventSend hd hp true, ?_⟩
    rw [run_when_true, keepStamp, if_neg (Nat.not_lt.2 hfull), run_seq]
    have hcount := run_sound (Act.incSat .TSF_STATUS_LOST die port) (hout true)
    obtain ⟨hlost, -, hbyte, hcfg, hstamps⟩ := run_counts hcount (bellRing_counts (mem := fun _ => False) die (0x050 + port) 0)
    refine ⟨hstamps, ?_, ⟨fun a => hbyte a id, hcfg⟩, fun hquiet hhold hpend => ?_⟩
    · rw [hlost, rd_run_incSat (hout true), if_pos ⟨rfl, rfl, rfl⟩]
      rfl
    · have hother {f : Fld} (hf : f ≠ .TSF_STATUS_LOST) (d i : Nat) : ((Act.incSat .TSF_STATUS_LOST die port).run
          ((Act.out (ptpOut s die port true seqId msgType domain)).run s)).rd f d i = s.rd f d i :=
        (rd_run_incSat (hout true) ..).trans (if_neg fun h => hf h.1)
      rw [bellRing_quiet hcount (by omega) (by rw [State.quietSource, hother (by decide)]; exact hquiet)
        (by rw [hother (by decide), hhold]) (by rw [bellBit, hother (by decide)]; exact hpend)]
      refine ⟨hsent rfl, bellBit_setBellBit (run_sound _ hcount) ?_⟩
      rw [bellBit, rd_run_set hcount, if_neg (fun h => by cases h.1), hother (by decide)]
      exact hpend
  · refine runs_of_done rfl hd ?_
    rw [tsfPop_run hx]
    refine ⟨fun _ _ _ _ _ => rfl, sameBytes_of_eq rfl rfl, rfl, ?_⟩
    show (s.aux.stamps.erase x).filter _ = _
    obtain ⟨rest, hrest⟩ := List.head?_eq_some_iff.1 hx
    rw [← List.erase_filter, ← State.stampsOf, hrest, List.erase_cons_head, List.tail_cons]
  · exact (done_when hd _ s).trans (congrArg Host.Outcome.next (tsfPop_run_empty hnone))
/-! ### The tick (02 R45, R49, R51) -/

/-- What a tick can change: hidden registers and those of the time block, and queues, but no engine. -/
def tickReach : Reach where
  regs k := k.fld.info.acc = .hidden ∨ k.fld.info.base / 0x10000 = 2
  mem _ := False
  cfg _ := False
  aux x y := y.engines = x.engines

/-- Masters and events after device time has moved from what it was in a state. -/
def tickEvents (s : State) : Act :=
  .each s.dieList fun d => .all [
    .upTo 16 fun m => .seq (ptpAdvance d m (s.now d) (s.on .TIME_STATUS_COMMIT_PENDING 0)) (coastAdvance d m),
    fireInstants d (s.now d) (s.on .TIME_STATUS_COMMIT_PENDING 0), activateAtSeal d s.aux.fired.length]

/-- Device time moves: by a pending step, or in its course. -/
def moveTime (s : State) : Act := if s.on .TIME_STATUS_COMMIT_PENDING 0 then applyStep else advanceTime

/-- The counts that every tick moves on. -/
def watchCounts : Act := .all [.inc .I_SILENCE 0, .inc .I_HOLD 0]

/-- The state with its tick counted, in which device time moves. -/
def ticked (s : State) : State := (Act.set .I_TICKS 0 0 (s.ticks + 1)).run s

theorem tick_run (s : State) : tick.run s = (tickEvents s).run (watchCounts.run ((moveTime s).run (ticked s))) := rfl

theorem timeStep_block {f : Fld} (h : f.info.set = .timeStep) : f.info.base / 0x10000 = 2 := by
  cases f <;> revert h <;> decide

theorem clockFields_block : ∀ f ∈ clockFields, f.info.acc = .hidden ∨ f.info.base / 0x10000 = 2 := by decide

theorem tick_within : Within tickReach tick := by
  have hclock {f : Fld} (h : f ∈ clockFields) (l : Layer) (d i : Nat) : tickReach.regs ⟨f, l, d, i⟩ := clockFields_block f h
  have hevents (s : State) : Within tickReach (tickEvents s) := by
    refine within_mono (tickEvents_phase s _) (fun k hk => ?_) (fun _ h => h) (fun _ h => h) fun x y ⟨fs, is, h⟩ => h ▸ rfl
    have hk : phaseField k.fld = true := hk
    simp only [phaseField, Bool.and_eq_true, Bool.or_eq_true, beq_iff_eq] at hk
    exact hk.2
  have hset : Within tickReach (activateSet .timeStep 0 fun _ => true) := by
    refine (within_eff ..).2 fun f i h => .inr (timeStep_block ?_)
    simpa using h
  unfold tick
  rw [within_get]
  intro s
  simp only [within_all_cons, within_all_nil, and_true, within_set, within_inc, within_ite]
  refine ⟨hclock (by decide) _ _ _, ⟨fun _ => ?_, fun _ => ?_⟩, hclock (by decide) _ _ _, hclock (by decide) _ _ _, hevents s⟩
  · simp (disch := decide) [applyStep, setFineTime, endSlew, hset, hclock]
  · simp (disch := decide) [advanceTime, setFineTime, endSlew, hclock]
/-- What no tick changes but the weight loads that end with it (19 R785, 05 R224). -/
structure TickFrame (s u : State) : Prop where
  ticks : u.ticks = (s.ticks + 1) % 2 ^ 64
  engines : u.aux.engines = s.aux.engines
  bytes : s.SameBytes u
  blocks : s.BlocksBut u [2]

/-- Registers that move with device time. -/
def movedFields : List Fld :=
  [.TIME_NOW_SEC, .TIME_NOW_NS, .TIME_NOW_FRAC, .I_TIME_LOW, .TIME_STEP_COUNT, .I_SLEW_MAG, .I_SLEW_NEG, .TIME_STATUS_SLEWING,
    .TIME_STATUS_COMMIT_PENDING]

/-- What the move of device time can change. -/
def moveReach : Reach where
  regs k := k.layer = .act ∨ k.fld ∈ movedFields
  mem _ := False
  cfg _ := False
  aux x y := y = x

section tick
variable {s : State} (hs : s.Sound)
include hs

theorem ticked_sound : (ticked s).Sound := run_sound _ hs

theorem rd_ticked {f : Fld} (hf : f ≠ .I_TICKS) (d i : Nat) : (ticked s).rd f d i = s.rd f d i :=
  (rd_run_set hs ..).trans (if_neg fun h => hf h.1)

theorem reg_ticked_pend (f : Fld) (d i : Nat) : (ticked s).reg .pend f d i = s.reg .pend f d i :=
  (reg_run_set hs ..).trans (if_neg fun h => by cases h.2.1)

/-- The move of device time writes its own registers alone. -/
theorem moveTime_rd {f : Fld} (hf : f ∉ movedFields) (d i : Nat) : ((moveTime s).run (ticked s)).rd f d i = (ticked s).rd f d i := by
  have hset : Within moveReach (activateSet .timeStep 0 fun _ => true) := (within_eff ..).2 fun _ _ _ => .inl rfl
  have hvis {g : Fld} (hg : g ∈ movedFields) (d i : Nat) : moveReach.regs ⟨g, .vis, d, i⟩ := .inr hg
  have hw : Within moveReach (moveTime s) := by
    rw [moveTime, within_ite]
    exact ⟨fun _ => by simp (disch := decide) [applyStep, setFineTime, endSlew, hset, hvis],
      fun _ => by simp (disch := decide) [advanceTime, setFineTime, endSlew, hvis]⟩
  refine (within_run hw (fun _ => rfl) (fun _ _ _ h1 h2 => h2.trans h1) (ticked_sound hs)).1 .vis f d i ?_
  rintro (h | h)
  · cases h
  · exact hf h

/-- Events and masters leave the registers of device time, and the counts of the watch only themselves. -/
theorem tick_rd {f : Fld} (hf : f ∈ clockFields ∧ f ≠ .I_SILENCE ∧ f ≠ .I_HOLD) (d i : Nat) :
    (tick.run s).rd f d i = ((moveTime s).run (ticked s)).rd f d i := by
  obtain ⟨hf, hsilence, hhold⟩ := hf
  have hm := run_sound (moveTime s) (ticked_sound hs)
  have hphase : phaseField f = false := by
    rw [phaseField, List.contains_iff_mem.2 hf]
    rfl
  rw [tick_run]
  refine ((within_run (tickEvents_phase s _) phaseReach_refl phaseReach_trans (run_sound watchCounts hm)).1 .vis f d i
    fun h => Bool.false_ne_true (hphase.symm.trans h)).trans ?_
  exact ((rd_run_inc (run_sound _ hm) ..).trans (if_neg fun h => hhold h.1)).trans
    ((rd_run_inc hm ..).trans (if_neg fun h => hsilence h.1))

theorem tick_frame : TickFrame s (tick.run s) := by
  obtain ⟨hr, hm, hc, ha⟩ := within_run tick_within (fun _ => rfl) (fun _ _ _ h1 h2 => h2.trans h1) hs
  refine ⟨?_, ha, ⟨fun a => hm a id, fun a => hc a id⟩, fun l f d i hacc hblock => hr l f d i ?_⟩
  · exact (tick_rd hs (by decide) ..).trans
      ((moveTime_rd hs (by decide) ..).trans ((rd_run_set hs ..).trans (if_pos ⟨rfl, rfl, rfl⟩)))
  · rintro (h | h)
    · exact hacc h
    · exact hblock (List.mem_singleton.2 h)

end tick

/-- Device time hangs on its four registers. -/
theorem fineTime_congr {s t : State} (h : ∀ f ∈ [Fld.TIME_NOW_SEC, .TIME_NOW_NS, .TIME_NOW_FRAC, .I_TIME_LOW], t.rd f 0 = s.rd f 0) :
    t.fineTime = s.fineTime := by
  simp only [State.fineTime, h _ (.head _), h _ (.tail _ (.head _)), h _ (.tail _ (.tail _ (.head _))),
    h _ (.tail _ (.tail _ (.tail _ (.head _))))]

theorem fineTime_ticked {s : State} (hs : s.Sound) : (ticked s).fineTime = s.fineTime :=
  fineTime_congr fun f hf => rd_ticked hs (by rintro rfl; revert hf; decide) 0 0

theorem fineTime_tick {s : State} (hs : s.Sound) : (tick.run s).fineTime = ((moveTime s).run (ticked s)).fineTime :=
  fineTime_congr fun f hf => tick_rd hs (by revert f; decide) 0 0

/-! #### The course of device time -/

section advance
variable {s : State}

/-- Without a slew device time advances by TIME_INCR. -/
theorem advanceTime_plain (h : s.on .TIME_STATUS_SLEWING 0 = false) :
    advanceTime.run s = (setFineTime (s.fineTime + s.rd .TIME_INCR 0)).run s := by
  simp only [advanceTime, run_get, h, Bool.false_and, Bool.false_eq_true, if_false, Nat.sub_zero, Nat.add_zero, ite_self, run_all_cons,
    run_all_nil, run_when_false]

/-- A slew of which a whole step remains. -/
theorem advanceTime_slews (h : s.on .TIME_STATUS_SLEWING 0 = true) (hstep : s.slewStep ≠ 0) (hle : s.slewStep ≤ s.rd .I_SLEW_MAG 0) :
    let now := s.fineTime + s.rd .TIME_INCR 0
    advanceTime.run s = (Act.set .I_SLEW_MAG 0 0 (s.rd .I_SLEW_MAG 0 - s.slewStep)).run
      ((setFineTime (if s.on .I_SLEW_NEG 0 = true then now - s.slewStep else now + s.slewStep)).run s) := by
  simp only [advanceTime, run_get, h, bne_iff_ne.2 hstep, Bool.and_self, if_true, Nat.min_eq_left hle, decide_eq_true hle, run_all_cons,
    run_all_nil, run_when_true]

/-- A slew of which less than a step remains ends with the tick. -/
theorem advanceTime_ends (h : s.on .TIME_STATUS_SLEWING 0 = true) (hlt : s.rd .I_SLEW_MAG 0 < s.slewStep) :
    let now := s.fineTime + s.rd .TIME_INCR 0
    advanceTime.run s = endSlew.run
      ((setFineTime (if s.on .I_SLEW_NEG 0 = true then now - s.rd .I_SLEW_MAG 0 else now + s.rd .I_SLEW_MAG 0)).run s) := by
  have hstep : (s.slewStep != 0) = true := bne_iff_ne.2 (by omega)
  simp only [advanceTime, run_get, h, hstep, Bool.and_self, if_true, Nat.min_eq_right hlt.le, decide_eq_false (Nat.not_le.2 hlt),
    Bool.and_false, Bool.false_eq_true, if_false, run_all_cons, run_all_nil, run_when_true]

end advance
/-! #### What is written with device time -/

section writes
variable {s : State} (hs : s.Sound)
include hs

theorem rd_setFineTime {f : Fld} (hf : f ∉ [Fld.TIME_NOW_SEC, .TIME_NOW_NS, .TIME_NOW_FRAC, .I_TIME_LOW]) (v d i : Nat) :
    ((setFineTime v).run s).rd f d i = s.rd f d i :=
  rd_setAll_other hs [((.TIME_NOW_SEC, 0, 0), v / 2 ^ 32 / 1000000000), ((.TIME_NOW_NS, 0, 0), v / 2 ^ 32 % 1000000000),
    ((.TIME_NOW_FRAC, 0, 0), v / 2 ^ 16 % 2 ^ 16), ((.I_TIME_LOW, 0, 0), v % 2 ^ 16)] hf d i

theorem rd_endSlew {f : Fld} (hf : f ∈ [Fld.I_SLEW_MAG, .I_SLEW_NEG, .TIME_STATUS_SLEWING]) : (endSlew.run s).rd f 0 = 0 := by
  refine (rd_setAll hs (v := 0) [((.I_SLEW_MAG, 0, 0), 0), ((.I_SLEW_NEG, 0, 0), 0), ((.TIME_STATUS_SLEWING, 0, 0), 0)] (by decide)
    ?_).trans (Nat.zero_mod _)
  revert f
  decide

theorem rd_endSlew_other {f : Fld} (hf : f ∉ [Fld.I_SLEW_MAG, .I_SLEW_NEG, .TIME_STATUS_SLEWING]) (d i : Nat) :
    (endSlew.run s).rd f d i = s.rd f d i :=
  rd_setAll_other hs [((.I_SLEW_MAG, 0, 0), 0), ((.I_SLEW_NEG, 0, 0), 0), ((.TIME_STATUS_SLEWING, 0, 0), 0)] hf d i

theorem fineTime_endSlew : (endSlew.run s).fineTime = s.fineTime :=
  fineTime_congr fun f hf => rd_endSlew_other hs (by revert f; decide) 0 0

/-- Device time at an ordinary tick without a slew. -/
theorem plain_run (h : s.on .TIME_STATUS_SLEWING 0 = false) :
    (advanceTime.run s).fineTime = (s.fineTime + s.rd .TIME_INCR 0) % (2 ^ 64 * 1000000000 * 2 ^ 32) ∧
      (advanceTime.run s).rd .TIME_STEP_COUNT 0 = s.rd .TIME_STEP_COUNT 0 := by
  rw [advanceTime_plain h]
  exact ⟨fineTime_setFineTime hs _, rd_setFineTime hs (by decide) ..⟩

/-- Device time at a tick of a slew that goes on. -/
theorem slews_run (h : s.on .TIME_STATUS_SLEWING 0 = true) (hstep : s.slewStep ≠ 0) (hle : s.slewStep ≤ s.rd .I_SLEW_MAG 0) :
    let now := s.fineTime + s.rd .TIME_INCR 0
    (advanceTime.run s).fineTime =
        (if s.on .I_SLEW_NEG 0 = true then now - s.slewStep else now + s.slewStep) % (2 ^ 64 * 1000000000 * 2 ^ 32) ∧
      (advanceTime.run s).rd .I_SLEW_MAG 0 = s.rd .I_SLEW_MAG 0 - s.slewStep ∧
      (advanceTime.run s).rd .TIME_STATUS_SLEWING 0 = s.rd .TIME_STATUS_SLEWING 0 := by
  have hset {v : Nat} := run_sound (setFineTime v) hs
  rw [advanceTime_slews h hstep hle]
  refine ⟨(fineTime_congr fun f hf => ?_).trans (fineTime_setFineTime hs _), ?_, ?_⟩
  · exact (rd_run_set hset ..).trans (if_neg (by rintro ⟨rfl, -⟩; revert hf; decide))
  · have hlt : s.rd .I_SLEW_MAG 0 < 2 ^ Fld.I_SLEW_MAG.info.width := reg_lt hs ..
    exact (rd_run_set hset ..).trans ((if_pos ⟨rfl, rfl, rfl⟩).trans (Nat.mod_eq_of_lt (Nat.lt_of_le_of_lt (Nat.sub_le ..) hlt)))
  · exact (rd_run_set hset ..).trans ((if_neg fun h => by cases h.1).trans (rd_setFineTime hs (by decide) ..))

/-- Device time at the tick at which a slew ends. -/
theorem ends_run (h : s.on .TIME_STATUS_SLEWING 0 = true) (hlt : s.rd .I_SLEW_MAG 0 < s.slewStep) :
    let now := s.fineTime + s.rd .TIME_INCR 0
    (advanceTime.run s).fineTime = (if s.on .I_SLEW_NEG 0 = true then now - s.rd .I_SLEW_MAG 0 else now + s.rd .I_SLEW_MAG 0) %
        (2 ^ 64 * 1000000000 * 2 ^ 32) ∧
      ∀ f ∈ [Fld.I_SLEW_MAG, .I_SLEW_NEG, .TIME_STATUS_SLEWING], (advanceTime.run s).rd f 0 = 0 := by
  have hset {v : Nat} := run_sound (setFineTime v) hs
  rw [advanceTime_ends h hlt]
  exact ⟨(fineTime_endSlew hset).trans (fineTime_setFineTime hs _), fun f hf => rd_endSlew hset hf⟩

/-- A pending step: device time, its flag, the count of steps, and the end of a slew. -/
structure Stepped (s t : State) : Prop where
  fineTime : t.fineTime = ((s.reg .pend .TIME_SET_SEC 0 0 * 1000000000 + s.reg .pend .TIME_SET_NS 0 0) * 2 ^ 32 +
    s.reg .pend .TIME_SET_FRAC 0 0 * 2 ^ 16) % (2 ^ 64 * 1000000000 * 2 ^ 32)
  pending : t.rd .TIME_STATUS_COMMIT_PENDING 0 = 0
  count : t.rd .TIME_STEP_COUNT 0 = (s.rd .TIME_STEP_COUNT 0 + 1) % 2 ^ 32
  noSlew : ∀ f ∈ [Fld.I_SLEW_MAG, .I_SLEW_NEG, .TIME_STATUS_SLEWING], t.rd f 0 = 0

theorem applyStep_run : Stepped s (applyStep.run s) := by
  have hset := run_sound (setFineTime ((s.reg .pend .TIME_SET_SEC 0 0 * 1000000000 + s.reg .pend .TIME_SET_NS 0 0) * 2 ^ 32 +
    s.reg .pend .TIME_SET_FRAC 0 0 * 2 ^ 16)) hs
  have hact := run_sound (activateSet .timeStep 0 fun _ => true) hset
  have hpend := run_sound (Act.set .TIME_STATUS_COMMIT_PENDING 0 0 0) hact
  have hcount := run_sound (Act.inc .TIME_STEP_COUNT 0) hpend
  rw [applyStep, run_get]
  refine ⟨?_, ?_, ?_, fun f hf => rd_endSlew hcount hf⟩
  · refine (fineTime_endSlew hcount).trans ((fineTime_congr fun f hf => ?_).trans (fineTime_setFineTime hs _))
    rw [rd_run_inc hpend, if_neg (by rintro ⟨rfl, -⟩; revert hf; decide), rd_run_set hact,
      if_neg (by rintro ⟨rfl, -⟩; revert hf; decide), rd_activateSet hset]
  · refine (rd_endSlew_other hcount (by decide) 0 0).trans ?_
    rw [rd_run_inc hpend, if_neg (fun h => by cases h.1), rd_run_set hact, if_pos ⟨rfl, rfl, rfl⟩, Nat.zero_mod]
  · refine (rd_endSlew_other hcount (by decide) 0 0).trans ?_
    rw [rd_run_inc hpend, if_pos ⟨rfl, rfl, rfl⟩, rd_run_set hact, if_neg (fun h => by cases h.1), rd_activateSet hset,
      rd_setFineTime hs (by decide)]
    rfl

end writes

theorem moveTime_step {s : State} (h : s.on .TIME_STATUS_COMMIT_PENDING 0 = true) : moveTime s = applyStep := if_pos h
theorem moveTime_course {s : State} (h : s.on .TIME_STATUS_COMMIT_PENDING 0 = false) : moveTime s = advanceTime :=
  if_neg (Bool.eq_false_iff.1 h)

/-- A command that runs a tick: what holds after the time unit's part of it holds before the repeated loads end. -/
theorem runs_tick {c : Instr} {s : State} (hs : s.Sound) (hc : exec c s = .next (wholeTick.run s)) {P : State → Prop}
    (hP : P (tick.run s)) : Runs c s fun t => ∃ u, P u ∧
      (u.ticks = (s.ticks + 1) % 2 ^ 64 ∧ u.aux.engines = s.aux.engines ∧ s.SameBytes u ∧ s.BlocksBut u [2]) ∧
      t = endReloads.run u ∧ ((∀ p ∈ s.aux.engines, p.2.reload = none) → t = u) := by
  obtain ⟨hticks, hengines, hbytes, hblocks⟩ := tick_frame hs
  exact ⟨_, hc, tick.run s, hP, ⟨hticks, hengines, hbytes, hblocks⟩, rfl, fun h => endReloads_none (hengines ▸ h)⟩

/-- Settles O8: a tick is the move of device time, and masters, events and repeated loads leave the registers of device time. -/
theorem tickMovesDeviceTime : Obligations.TickMovesDeviceTime := by
  intro s hs wrap incr d mag aside ticks
  have hv := ticked_sound hs
  have hpending := on_eq_decide hs (f := .TIME_STATUS_COMMIT_PENDING) rfl 0 0
  have hslewing : (ticked s).on .TIME_STATUS_SLEWING 0 = decide (s.rd .TIME_STATUS_SLEWING 0 = 1) := by
    rw [on_eq_decide hv rfl, rd_ticked hs (by decide)]
  have hneg : ((ticked s).on .I_SLEW_NEG 0 = true) = (s.rd .I_SLEW_NEG 0 = 1) := by
    rw [on_eq_decide hv rfl, rd_ticked hs (by decide), decide_eq_true_eq]
  have hincr : (ticked s).rd .TIME_INCR 0 = incr := rd_ticked hs (by decide) 0 0
  have hmag : (ticked s).rd .I_SLEW_MAG 0 = mag := rd_ticked hs (by decide) 0 0
  have hfin {f : Fld} (hf : f ∈ clockFields ∧ f ≠ .I_SILENCE ∧ f ≠ .I_HOLD) := tick_rd hs hf 0 0
  have hslewStep : (ticked s).slewStep = d := congrArg (· / 2048) hincr
  refine ⟨fun hp hsl => runs_tick hs rfl ?_, fun hp hsl hd hle => runs_tick hs rfl ?_, fun hp hsl hlt => ?_, fun hp => ?_⟩
  · rw [hp] at hpending
    rw [hsl] at hslewing
    obtain ⟨htime, hcount⟩ := plain_run hv hslewing
    rw [hincr, fineTime_ticked hs] at htime
    rw [rd_ticked hs (by decide)] at hcount
    rw [fineTime_tick hs, hfin (by decide), moveTime_course hpending]
    exact ⟨htime, hcount⟩
  · rw [hp] at hpending
    rw [hsl] at hslewing
    obtain ⟨htime, hleft, hon⟩ := slews_run hv hslewing (hslewStep ▸ hd) (by rw [hslewStep, hmag]; exact hle)
    simp only [hincr, fineTime_ticked hs, hneg, hslewStep] at htime
    rw [hmag, hslewStep] at hleft
    rw [rd_ticked hs (by decide), hsl] at hon
    rw [fineTime_tick hs, hfin (by decide), hfin (by decide), moveTime_course hpending]
    exact ⟨htime, hleft, hon⟩
  · rw [hp] at hpending
    have hends : (s.on .TIME_STATUS_SLEWING 0 && decide (s.rd .I_SLEW_MAG 0 < s.slewStep)) = true := by
      rw [on_eq_decide hs rfl, hsl]
      exact decide_eq_true hlt
    rw [hsl] at hslewing
    obtain ⟨htime, hnone⟩ := ends_run hv hslewing (by rw [hslewStep, hmag]; exact hlt)
    simp only [hincr, fineTime_ticked hs, hneg, hmag] at htime
    refine runs_tick (c := .slewEnd) hs (done_when hends _ s) ?_
    rw [fineTime_tick hs, hfin (by decide), timeAdj_of_noSlew ((hfin (by decide)).trans ?_), moveTime_course hpending]
    · exact ⟨htime, hnone _ (by decide), rfl⟩
    · rw [moveTime_course hpending]
      exact hnone _ (by decide)
  · rw [hp] at hpending
    obtain ⟨htime, hpend, hcount, hnone⟩ := applyStep_run hv
    rw [rd_ticked hs (by decide)] at hcount
    simp only [reg_ticked_pend hs] at htime
    refine runs_tick (c := .timeStep) hs (done_when hpending _ s) ?_
    rw [fineTime_tick hs, hfin (by decide), hfin (by decide), hfin (by decide),
      timeAdj_of_noSlew ((hfin (by decide)).trans ?_), moveTime_step hpending]
    · exact ⟨htime, hpend, hcount, rfl, hnone _ (by decide)⟩
    · rw [moveTime_step hpending]
      exact hnone _ (by decide)

end Sys2Proof.Proofs

/-! PROOFS. The statements about ingest (03_ingest.md): first counters and what becomes of a received frame, then writes of HBM, the
decoding of a packet, and at last rings of the Bell, headers and write errors. -/

namespace Sys2Proof.Proofs

open Sys2Proof Sys2Proof.Machine Sys2Proof.Laws

/-! ### Counters -/

/-- Counters of different fields have each counted up by one, and nothing else has changed. -/
structure CountedUp (s t : State) (ks : List (Fld × Nat × Nat)) : Prop where
  sound : t.Sound
  rd : ∀ {f d i}, (f, d, i) ∈ ks → t.rd f d i = (s.rd f d i + 1) % 2 ^ f.info.width
  regs : s.RegsBut t ks
  bytes : s.SameBytes t
  aux : t.aux = s.aux
  pending : t.pending = s.pending

namespace CountedUp
variable {s t : State} {ks : List (Fld × Nat × Nat)}

theorem refl (hs : s.Sound) : CountedUp s s [] :=
  ⟨hs, fun h => absurd h List.not_mem_nil, regsBut_refl s [], sameBytes_refl s, rfl, rfl⟩

variable (h : CountedUp s t ks)
include h

theorem only : s.OnlyRegs t ks := ⟨h.regs, h.bytes, h.aux, h.pending⟩

theorem rd_other {f : Fld} (hf : f ∉ ks.map Prod.fst) (d i : Nat) : t.rd f d i = s.rd f d i :=
  h.regs .vis f d i fun hk => hf (List.mem_map_of_mem (f := Prod.fst) hk.2)

theorem ac (f : Fld) (d i : Nat) : t.ac f d i = s.ac f d i := h.regs .act f d i fun hk => by cases hk.1

/-- One more counter counts up. -/
theorem inc {f : Fld} (hf : f ∉ ks.map Prod.fst) (d i : Nat) : CountedUp s ((Act.inc f d i).run t) (ks ++ [(f, d, i)]) := by
  refine ⟨run_sound _ h.sound, fun {g e j} hg => ?_, fun l g e j hn => ?_, h.bytes, h.aux, h.pending⟩
  · rw [rd_run_inc h.sound]
    rcases List.mem_append.1 hg with hg | hg
    · have hne : g ≠ f := fun e => hf (e ▸ List.mem_map_of_mem (f := Prod.fst) hg)
      rw [if_neg fun e => hne e.1, h.rd hg]
    · obtain ⟨rfl, rfl, rfl⟩ : g = f ∧ e = d ∧ j = i := by simpa using hg
      rw [if_pos ⟨rfl, rfl, rfl⟩, h.rd_other hf]
  · refine (reg_run_set h.sound ..).trans ((if_neg ?_).trans (h.regs l g e j fun hk => hn ⟨hk.1, List.mem_append_left _ hk.2⟩))
    rintro ⟨rfl, rfl, rfl, rfl⟩
    exact hn ⟨rfl, List.mem_append_right _ (List.mem_singleton.2 rfl)⟩

/-- A full timestamp is taken from registers of device time alone. -/
theorem fullStamp (hks : ∀ f ∈ [Fld.TIME_NOW_SEC, .TIME_NOW_NS, .TIME_NOW_FRAC, .TIME_STATUS_SYNC], f ∉ ks.map Prod.fst) (d : Nat) :
    t.fullStamp d = s.fullStamp d := by
  have hrd {f : Fld} (hf : f ∈ [Fld.TIME_NOW_SEC, .TIME_NOW_NS, .TIME_NOW_FRAC, .TIME_STATUS_SYNC]) := h.rd_other (hks f hf)
  simp (disch := decide) only [State.fullStamp, State.seconds, State.nanos, State.wholeNs, State.sync, hrd]

end CountedUp

/-! ### Received frames (03 R93 to R99) -/

section received
variable {s t : State} {die port : Nat} {frame : List Byte} {ks : List (Fld × Nat × Nat)}

/-- What a port does with a frame of a class, once it has counted it. -/
def classAct (s : State) (die port : Nat) (frame : List Byte) : RxClass → Act
  | .bad => .inc .ING_RX_BAD die port
  | .foreign => .nop
  | .ptp => .out (.ptpHandoff die port (s.fullStamp die) frame)
  | .other => .seq (.inc .ING_RX_UNMATCHED die port) (toKeeper die frame [])
  | .udp d =>
    match s.streamOf die port d with
    | some i => streamPacket die i d.payload
    | none => .seq (.inc .ING_RX_UNMATCHED die port) (toKeeper die frame d.payload)

theorem runs_frame (hd : s.dieThere die = true) (hp : port < 2)
    (hacc : s.portPasses die port = true ∧ s.macForPort die port frame = true) {c : RxClass} (hc : s.classify die port frame = c)
    {P : State → Prop} (h : P ((classAct s die port frame c).run ((Act.inc .ETH_RX_FRAMES die port).run s))) :
    Runs (.ethFrameReceive die port frame) s P := by
  subst hc
  obtain ⟨hpass, hmac⟩ := hacc
  exact runs_of_done rfl (by rw [hd, decide_eq_true hp, hpass, hmac]; rfl) h

theorem toKeeper_room {payload : List Byte} (h : (s.aux.keeperQueue.filter fun q => q.die == die).length ≤ Config.keeperQueueCap) :
    (toKeeper die frame payload).run s =
      (Act.aux fun a => { a with keeperQueue := a.keeperQueue ++ [⟨die, frame, payload, s.fullStamp die⟩] }).run s := by
  rw [toKeeper, run_get, if_pos h]

theorem toKeeper_full {payload : List Byte} (h : ¬ (s.aux.keeperQueue.filter fun q => q.die == die).length ≤ Config.keeperQueueCap) :
    (toKeeper die frame payload).run s = (Act.inc .ING_KEEPER_DROP die).run s := by
  rw [toKeeper, run_get, if_neg h]

/-- A packet that fits evicts nothing (R142). -/
theorem toEvict_fits {need : Nat} {all : List Packet} (h : queueBytes die all + need ≤ 256 * kib) (l : List Packet) :
    toEvict die need all l = [] := by
  cases l with
  | nil => rfl
  | cons p ps => exact if_pos h

theorem queuePacket_fits {p : Packet} (h : queueBytes p.die s.aux.packets + p.payload.length ≤ 256 * kib) :
    (queuePacket p).run s = (Act.aux fun a => { a with packets := a.packets ++ [p] }).run s := by
  rw [queuePacket, run_get]
  simp only [toEvict_fits h, ite_self, run_seq, run_each_nil, run_get, if_pos h]

/-- A packet of a stream that moves no master is counted, and then queued while ingest works (R71, R96, R125, 18 R751). -/
theorem streamPacket_run {i : Nat} {payload : List Byte} (hs : s.Sound) (hkind : s.ac .SE_KIND die i ≠ 0)
    (hstate : s.rd .PKG_STATE 0 = 0 ∨ s.rd .PKG_STATE 0 = 3) :
    (streamPacket die i payload).run s =
      (queuePacket ⟨die, i, s.now die, s.seqNow die i, s.acOn .SE_SAFETY die i, payload⟩).run ((Act.inc .SC_PKTS die i).run s) := by
  have h := (CountedUp.refl hs).inc (f := .SC_PKTS) (by simp) die i
  have hseq : ((Act.inc .SC_PKTS die i).run s).seqNow die i = s.seqNow die i := by
    rw [State.seqNow, State.sealsAhead, h.rd_other (by simp), h.aux]
    rfl
  have hon : (((Act.inc .SC_PKTS die i).run s).rd .PKG_STATE 0 == 0 || ((Act.inc .SC_PKTS die i).run s).rd .PKG_STATE 0 == 3) = true := by
    rw [h.rd_other (by simp), Bool.or_eq_true, beq_iff_eq, beq_iff_eq]
    exact hstate
  rw [streamPacket, run_get, beq_false_of_ne hkind, ← hseq]
  exact (run_when ..).trans (if_pos hon)

/-- What the queue entry of a packet is taken from, no counter of ingest is. -/
theorem CountedUp.packet (h : CountedUp s t ks)
    (hks : ∀ f ∈ [Fld.TIME_NOW_SEC, .TIME_NOW_NS, .SC_SEQ], f ∉ ks.map Prod.fst) (i : Nat) (payload : List Byte) :
    (⟨die, i, t.now die, t.seqNow die i, t.acOn .SE_SAFETY die i, payload⟩ : Packet) =
      ⟨die, i, s.now die, s.seqNow die i, s.acOn .SE_SAFETY die i, payload⟩ := by
  have hrd {f : Fld} (hf : f ∈ [Fld.TIME_NOW_SEC, .TIME_NOW_NS, .SC_SEQ]) := h.rd_other (hks f hf)
  simp (disch := decide) only [State.now, State.seqNow, State.sealsAhead, State.acOn, hrd, h.ac, h.aux]

end received

/-- Settles O20: an accepted frame is counted, and then its class says what becomes of it. -/
theorem framesAreClassified : Obligations.FramesAreClassified := by
  intro s die port frame hs hd hp got counted accepted room
  have hseen := (CountedUp.refl hs).inc (f := .ETH_RX_FRAMES) (by simp) die port
  have hunmatched := hseen.inc (f := .ING_RX_UNMATCHED) (by simp) die port
  refine ⟨fun hno => done_when_false ?_ _ s, fun hacc hc => runs_frame hd hp hacc hc ?_, fun hacc hc => runs_frame hd hp hacc hc ?_,
    fun hacc hc => runs_frame hd hp hacc hc ?_, fun hacc hc hroom => runs_frame hd hp hacc hc ?_,
    fun hacc hc hfull => runs_frame hd hp hacc hc ?_, fun d i hacc hc hi hkind hstate hfits => runs_frame hd hp hacc hc ?_⟩
  · rw [hd, decide_eq_true hp, Bool.true_and, Bool.true_and, Bool.eq_false_iff, ne_eq, Bool.and_eq_true]
    exact hno
  · have hbad := hseen.inc (f := .ING_RX_BAD) (by simp) die port
    exact ⟨hbad.rd (by simp), hbad.rd (by simp), hbad.only⟩
  · exact ⟨hseen.rd (by simp), hseen.only⟩
  · exact ⟨hseen.rd (by simp), rfl, hseen.regs, hseen.bytes⟩
  · rw [classAct, run_seq, toKeeper_room (hunmatched.aux ▸ hroom), hunmatched.fullStamp (by simp)]
    exact ⟨hunmatched.rd (by simp), hunmatched.rd (by simp), rfl, hunmatched.bytes⟩
  · rw [classAct, run_seq, toKeeper_full (hunmatched.aux ▸ hfull)]
    have hdrop := hunmatched.inc (f := .ING_KEEPER_DROP) (by simp) die 0
    exact ⟨hdrop.rd (by simp), hdrop.rd (by simp), hdrop.aux, hdrop.bytes⟩
  · have hstream : classAct s die port frame (.udp d) = streamPacket die i d.payload := by rw [classAct, hi]
    have hqueued := hseen.inc (f := .SC_PKTS) (by simp) die i
    rw [hstream, streamPacket_run hseen.sound (by rwa [hseen.ac]) (by rwa [hseen.rd_other (by simp)]), hseen.packet (by simp),
      queuePacket_fits hfits]
    exact ⟨hqueued.rd (by simp), hqueued.rd (by simp), rfl, hqueued.regs, hqueued.bytes⟩

/-! ### A unit's write of HBM (12 R543, 16 R704) -/

theorem length_toLe (n v : Nat) : (toLe n v).length = n := by
  induction n generalizing v with
  | zero => rfl
  | succ n ih => exact congrArg Nat.succ (ih _)

theorem bytes_congr {s t : State} (hs : s.Sound) (ht : t.Sound) {a n : Nat} (h : ∀ j, t.byte j = s.byte j) :
    t.bytes a n = s.bytes a n := by
  rw [bytes_eq hs, bytes_eq ht]
  exact List.map_congr_left fun j _ => h j

/-- Effects before and after that change no byte leave only the range of bytes changed. -/
theorem bytesBut_of_same {r s t u : State} {a n : Nat} (hbefore : r.SameBytes s) (h : s.BytesBut t a n) (hafter : t.SameBytes u) :
    r.BytesBut u a n := by
  obtain ⟨hbyte, hcfg⟩ := hbefore
  obtain ⟨hother, hcfgOther⟩ := h
  obtain ⟨hbyteAfter, hcfgAfter⟩ := hafter
  exact ⟨fun j hj => (hbyteAfter j).trans ((hother j hj).trans (hbyte j)),
    fun j => (hcfgAfter j).trans ((hcfgOther j).trans (hcfg j))⟩

/-- The package address of a die offset that lies in HBM. -/
theorem hbmAddr_of_place {a st off : Nat} (ha : a < 2 ^ 48) (h : placeOf (addrOff a) = .hbm st off) : hbmAddr (addrDie a) st off = a := by
  have hoff : addrOff a = st * stackBytes + off := by
    unfold placeOf at h
    by_cases h0 : addrOff a < stackBytes
    · rw [if_pos h0] at h
      cases h
      omega
    · by_cases h1 : addrOff a < 2 * stackBytes
      · rw [if_neg h0, if_pos h1] at h
        cases h
        omega
      · rw [if_neg h0, if_neg h1] at h
        dsimp only at h
        split_ifs at h
  unfold hbmAddr pkgAddr
  rw [← hoff]
  simp only [addrDie, addrOff, bits, dieWindow, Nat.shiftRight_eq_div_pow]
  omega

/-- What a unit's write of HBM changes beside bytes: the count of granules, the words that are sound again, and the layers marked as
adapted. -/
def writeReach (mem : Nat → Prop) : Reach where
  regs k := k.layer = .vis ∧ k.fld = .I_HBM_CNT
  mem := mem
  cfg _ := False
  aux x y := ∃ bad weak adapted, y = { x with badWords := bad, weakWords := weak, adapted := adapted }

section write
variable {mem : Nat → Prop} {s : State} {a : Nat} {bs : List Byte}

theorem writeReach_refl (x : Aux) : (writeReach mem).aux x x := ⟨_, _, _, rfl⟩

theorem writeReach_trans (x y z : Aux) (h1 : (writeReach mem).aux x y) (h2 : (writeReach mem).aux y z) : (writeReach mem).aux x z := by
  obtain ⟨_, _, _, rfl⟩ := h1
  obtain ⟨_, _, _, rfl⟩ := h2
  exact ⟨_, _, _, rfl⟩

theorem countGranules_write (die st off len : Nat) : Within (writeReach mem) (countGranules die st off len) := by
  have hcnt (d i : Nat) : (writeReach mem).regs ⟨.I_HBM_CNT, .vis, d, i⟩ := ⟨rfl, rfl⟩
  simp [countGranules, hcnt]

theorem noteWrite_write (b len : Nat) : Within (writeReach mem) (noteWrite b len) := by
  rw [noteWrite, within_get]
  intro s
  split
  · exact within_nop _
  · simp only [within_each, within_aux]
    exact fun _ _ x => ⟨x.badWords, x.weakWords, _, rfl⟩

theorem soundWords_write (b len : Nat) : Within (writeReach mem) (soundWords b len) :=
  (within_aux ..).2 fun x => ⟨_, _, x.adapted, rfl⟩

/-- A unit has written bytes of HBM. -/
structure Written (s t : State) (a : Nat) (bs : List Byte) : Prop where
  sound : t.Sound
  read : t.bytes a bs.length = bs
  other : s.BytesBut t a bs.length
  reg : ∀ l f d i, f ≠ .I_HBM_CNT → t.reg l f d i = s.reg l f d i
  aux : ∃ bad weak adapted, t.aux = { s.aux with badWords := bad, weakWords := weak, adapted := adapted }

/-- A unit's write leaves the frames as they are. -/
theorem Written.frames {t : State} (h : Written s t a bs) : t.aux.frames = s.aux.frames := by
  obtain ⟨_, _, _, haux⟩ := h.aux
  rw [haux]

theorem written_hbm (hs : s.Sound) (die st off len : Nat) : Written s
    ((Act.all [countGranules die st off len, .put a bs, noteWrite a bs.length, soundWords a bs.length]).run s) a bs := by
  have hall : Within (writeReach fun j => a ≤ j ∧ j < a + bs.length)
      (.all [countGranules die st off len, .put a bs, noteWrite a bs.length, soundWords a bs.length]) := by
    simp only [within_all_cons, within_all_nil, countGranules_write, noteWrite_write, soundWords_write, within_put, and_true, true_and]
    exact fun j h1 h2 => ⟨h1, h2⟩
  have hnotes : Within (writeReach fun _ => False) (.all [noteWrite a bs.length, soundWords a bs.length]) := by
    simp only [within_all_cons, within_all_nil, noteWrite_write, soundWords_write, and_true]
  have hcount := run_sound (countGranules die st off len) hs
  have hput := run_sound (Act.put a bs) hcount
  obtain ⟨hr, hm, hc, ha⟩ := within_run hall writeReach_refl writeReach_trans hs
  obtain ⟨-, hkeep, -, -⟩ := within_run hnotes writeReach_refl writeReach_trans hput
  refine ⟨run_sound _ hs, ?_, ⟨fun j hj => hm j fun ⟨h1, h2⟩ => by omega, fun j => hc j id⟩,
    fun l f d i hf => hr l f d i fun hk => hf hk.2, ha⟩
  exact (bytes_congr hput (run_sound _ hput) fun j => hkeep j id).trans (bytes_run_put hcount a bs)

/-- Ready HBM takes a unit's write. -/
theorem unitWrite_open (hs : s.Sound) (h : s.openHbm a bs.length) :
    ∃ t, Written s t a bs ∧ ∀ k, ((unitWrite a bs).then k).run s = (k (.ok ())).run t := by
  obtain ⟨ha, st, off, hplace, hon, hready, -⟩ := h
  refine ⟨_, written_hbm hs (addrDie a) st off bs.length, fun k => ?_⟩
  simp only [unitWrite, needPlace, writeHbm, then_bind, then_state, onOk_ok, hplace, hon, if_true, then_pure, hready, Bool.not_true,
    Bool.false_eq_true, if_false, then_act, hbmAddr_of_place ha hplace]

/-- Whether HBM answers hangs on four fields. -/
theorem openHbm_congr {t : State} {len : Nat}
    (h : ∀ f ∈ [Fld.FUSE_DIES, .FLT_DIE_FAILED, .PWR_DOM_ON, .HBM_STATUS_STATE], ∀ d i, t.rd f d i = s.rd f d i)
    (ho : s.openHbm a len) : t.openHbm a len := by
  obtain ⟨ha, st, off, hplace, hon, hready, hlen⟩ := ho
  refine ⟨ha, st, off, hplace, ?_, ?_, hlen⟩
  · simp (disch := decide) only [State.placeOn, State.dieThere, State.dies, h]
    exact hon
  · simp (disch := decide) only [State.hbmReady, h]
    exact hready

end write

/-- What writes shadow copies alone leaves: every register but the fields that it names, every byte, and the queues. -/
theorem run_vis_rest {s : State} (hs : s.Sound) {good : Fld → Bool} {a : Act} (h : Within (visReach good) a) :
    (∀ l f d i, ¬ (l = .vis ∧ good f = true) → (a.run s).reg l f d i = s.reg l f d i) ∧ s.SameBytes (a.run s) ∧
      (a.run s).aux = s.aux := by
  obtain ⟨hr, hm, hc, ha⟩ := within_run h (fun _ => rfl) (fun _ _ _ h1 h2 => h2.trans h1) hs
  exact ⟨hr, ⟨fun j => hm j id, fun j => hc j id⟩, ha⟩

/-! ### Frames (03 R124) -/

section frames
variable {s : State} {die entry seq : Nat} {g : Frame → Frame}

/-- A frame that is changed stays the frame that it is. -/
def KeepsIdentity (g : Frame → Frame) : Prop := ∀ f die entry seq, (g f).is die entry seq = f.is die entry seq

theorem reg_of_regs {t : State} (h : t.regs = s.regs) (l : Layer) (f : Fld) (d i : Nat) : t.reg l f d i = s.reg l f d i := by
  rw [State.reg, h]
  rfl

theorem frame_congr {t : State} (h : t.aux.frames = s.aux.frames) (d e q : Nat) : t.frame d e q = s.frame d e q := by
  rw [State.frame, h]
  rfl

theorem frame_run_frame (hg : KeepsIdentity g) :
    ((Act.frame die entry seq g).run s).frame die entry seq = (s.frame die entry seq).map g := by
  have hsame : (fun f : Frame => f.is die entry seq) ∘ (fun f => if f.is die entry seq then g f else f) =
      fun f => f.is die entry seq := by
    funext f
    rw [Function.comp_apply, apply_ite (fun f : Frame => f.is die entry seq), hg, ite_self]
  show (s.aux.frames.map _).find? _ = (s.aux.frames.find? _).map g
  rw [List.find?_map, hsame]
  cases h : s.aux.frames.find? fun f => f.is die entry seq with
  | none => rfl
  | some f => exact congrArg some (if_pos (List.find?_some h))

theorem mem_frames_run_frame {f : Frame} (hf : f ∈ s.aux.frames) (his : f.is die entry seq = true) :
    g f ∈ ((Act.frame die entry seq g).run s).aux.frames := List.mem_map.2 ⟨f, hf, if_pos his⟩

/-- What has changed in a frame leaves it the frame that it was. -/
theorem not_is_run_frame {d e q : Nat} (hg : KeepsIdentity g) (h : ∀ f ∈ s.aux.frames, f.is d e q = false) :
    ∀ f ∈ ((Act.frame die entry seq g).run s).aux.frames, f.is d e q = false := by
  intro x hx
  obtain ⟨f, hf, rfl⟩ := List.mem_map.1 hx
  rw [apply_ite (fun f : Frame => f.is d e q), hg, ite_self]
  exact h f hf

end frames

/-! ### The packet that the decoder takes (03 R141) -/

section decode
variable {s : State} {die : Nat} {p : Packet}

/-- Packets of a die that can be decoded, those of safety streams first. -/
def served (s : State) (die : Nat) : List Packet :=
  let ready := s.aux.packets.filter fun q => q.die == die && s.decodable q
  (ready.filter fun q => q.safety) ++ ready

/-- A packet leaves the decode queue. -/
def dequeue (p : Packet) : Act := .aux fun a => { a with packets := a.packets.erase p }

theorem exec_packetDecode (h : (served s die).head? = some p) : exec (.packetDecode die) s = .next ((decodePacket p).run s) := by
  obtain ⟨rest, hrest⟩ := List.head?_eq_some_iff.1 h
  show (match served s die with
    | [] => Act.nop
    | p :: _ => decodePacket p).done s = _
  rw [hrest]
  rfl

theorem decodePacket_poses (hk : s.ac .SE_KIND p.die p.entry = 1) : (decodePacket p).run s = (decodePoses p).run ((dequeue p).run s) := by
  rw [decodePacket, run_seq, run_get, ac_run_aux, hk]
  rfl

theorem decodePacket_points (hk : s.ac .SE_KIND p.die p.entry = 0) : (decodePacket p).run s = (decodePoints p).run ((dequeue p).run s) := by
  rw [decodePacket, run_seq, run_get, ac_run_aux, hk]
  rfl

/-! #### Pose samples (R112 to R114) -/

/-- The first sample of a pose packet. -/
def firstSample (p : Packet) : PoseSample :=
  let f := fun k => signed 32 (leAt p.payload (8 + k) 4)
  ⟨p.die, p.entry, leAt p.payload 8 8, f 8, f 12, f 16, f 20, f 24, f 28, f 32⟩

theorem decodePoses_one (hlen : 48 ≤ p.payload.length) (hmagic : leAt p.payload 0 2 = 0x5058) (hversion : byteAt p.payload 2 = 1)
    (hcount : byteAt p.payload 3 = 1) (s : State) : (decodePoses p).run s = (takeSample (firstSample p)).run s := by
  have hlong : ¬ p.payload.length < 8 + 40 * 1 := by omega
  simp only [decodePoses, hmagic, hversion, hcount, hlong, bne_self_eq_false, decide_false, Bool.or_self, Bool.false_eq_true, if_false]
  rfl

/-- A sample is newer than the newest held, and its quaternion has nearly unit length. -/
def GoodSample (s : State) (x : PoseSample) : Prop :=
  let norm := x.qw * x.qw + x.qx * x.qx + x.qy * x.qy + x.qz * x.qz
  2 ^ 59 ≤ norm ∧ norm ≤ 2 ^ 61 ∧ ∀ h, (s.samples x.die x.entry).getLast? = some h → h.time < x.time

theorem takeSample_good {x : PoseSample} (h : GoodSample s x) (hroom : (s.samples x.die x.entry).length < 64) :
    (takeSample x).run s = (Act.aux fun a => { a with poses := a.poses ++ [x] }).run s := by
  obtain ⟨hlow, hhigh, hnewer⟩ := h
  rw [takeSample, run_get]
  dsimp only
  simp only [if_pos hroom]
  rw [if_neg]
  simp only [Bool.or_eq_true, decide_eq_true_eq]
  rintro ((hlate | hshort) | hlong)
  · split at hlate
    · next held hlast => exact absurd (hnewer held hlast) (Nat.not_lt.2 (of_decide_eq_true hlate))
    · cases hlate
  · exact absurd hlow (Int.not_le.2 hshort)
  · exact absurd hhigh (Int.not_le.2 hlong)

theorem takeSample_bad {x : PoseSample} (h : ¬ GoodSample s x) : (takeSample x).run s = (Act.inc .SC_POSE_REJECT x.die x.entry).run s := by
  rw [takeSample, run_get]
  dsimp only
  rw [if_pos]
  by_contra hno
  simp only [Bool.or_eq_true, decide_eq_true_eq, not_or, Int.not_lt] at hno
  obtain ⟨⟨hlate, hlow⟩, hhigh⟩ := hno
  refine h ⟨hlow, hhigh, fun held hlast => ?_⟩
  rw [hlast, decide_eq_true_eq] at hlate
  exact Nat.lt_of_not_le hlate

/-! #### The one point of a packet (R104 to R118, R126) -/

theorem decodePoints_short (h : p.payload.length < (s.template p.die p.entry).need) :
    (decodePoints p).run s = (Act.inc .SC_DROP_UNPARSED p.die p.entry).run s := by
  rw [decodePoints, run_get]
  dsimp only
  rw [if_pos h]

/-- Fields in which decoded points are counted by the millisecond. -/
def loadField (f : Fld) : Bool := [Fld.ING_LOAD, .I_ING_MS, .I_ING_DECODED].contains f

theorem countDecoded_vis (die n : Nat) : Within (visReach loadField) (countDecoded die n) := by
  simp (disch := decide) [countDecoded]

/-- A packet of points has been counted in its frame, and its points in the load. -/
structure PacketCounted (s u : State) (p : Packet) : Prop where
  sound : u.Sound
  reg : ∀ l f d i, ¬ (l = .vis ∧ loadField f = true) → u.reg l f d i = s.reg l f d i
  bytes : s.SameBytes u
  poses : u.aux.poses = s.aux.poses
  frame : u.frame p.die p.entry p.seq = (s.frame p.die p.entry p.seq).map fun f => { f with packets := f.packets + 1 }

theorem packetCounted (hs : s.Sound) (p : Packet) (n : Nat) : PacketCounted s ((countDecoded p.die n).run
    ((Act.frame p.die p.entry p.seq fun f => { f with packets := f.packets + 1 }).run s)) p := by
  have hv := run_sound (Act.frame p.die p.entry p.seq fun f => { f with packets := f.packets + 1 }) hs
  have hframe : ((Act.frame p.die p.entry p.seq fun f => { f with packets := f.packets + 1 }).run s).frame p.die p.entry p.seq =
    (s.frame p.die p.entry p.seq).map fun f => { f with packets := f.packets + 1 } := frame_run_frame fun _ _ _ _ => rfl
  obtain ⟨hreg, hbytes, haux⟩ := run_vis_rest hv (countDecoded_vis p.die n)
  exact ⟨run_sound _ hv, hreg, hbytes, by rw [haux]; rfl, (frame_congr (congrArg Aux.frames haux) ..).trans hframe⟩

/-- What becomes of a point hangs on the ingest sets and on the held pose samples. -/
theorem decodePoint_congr {u : State} (hreg : ∀ l f d i, ¬ (l = .vis ∧ loadField f = true) → u.reg l f d i = s.reg l f d i)
    (hposes : u.aux.poses = s.aux.poses) (die entry : Nat) (t : Template) (payload : List Byte) (time : Int) (base : Nat)
    (reordered : Bool) (b j : Nat) :
    u.decodePoint die entry t payload time base reordered b j = s.decodePoint die entry t payload time base reordered b j := by
  have hac (f : Fld) (d i : Nat) : u.ac f d i = s.ac f d i := hreg .act f d i fun h => by cases h.1
  have hpend (f : Fld) (d i : Nat) : u.reg .pend f d i = s.reg .pend f d i := hreg .pend f d i fun h => by cases h.1
  have hrd {f : Fld} (hf : loadField f = false) (d i : Nat) : u.rd f d i = s.rd f d i :=
    hreg .vis f d i fun h => Bool.false_ne_true (hf.symm.trans h.2)
  have hon {f : Fld} (hf : loadField f = false) (d i : Nat) : u.on f d i = s.on f d i := congrArg (· != 0) (hrd hf d i)
  have htpl (f : Fld) (i : Nat) : u.tpl die entry f i = s.tpl die entry f i := by
    simp (disch := decide) only [State.tpl, hon, hac, hpend]
  have hpose (time : Int) : u.poseAt die entry time = s.poseAt die entry time := by
    simp only [State.poseAt, State.samples, hac, hposes]
  simp only [State.decodePoint, hac, htpl, hpose]

/-- A packet of one point without a sequence field is counted in its frame, and then its point meets its fate. -/
theorem decodePoints_onePoint (hs : s.Sound) {fr : Frame} (hneed : (s.template p.die p.entry).need ≤ p.payload.length)
    (hseq : (s.template p.die p.entry).reads 8 = false) (hblocks : (s.template p.die p.entry).blocks = 1)
    (hpoints : (s.template p.die p.entry).points = 1) (hfr : s.frame p.die p.entry p.seq = some fr) :
    ∃ u, PacketCounted s u p ∧ (decodePoints p).run s =
      (applyFate p.die p.entry p.seq (s.decodePoint p.die p.entry (s.template p.die p.entry) p.payload
        ((s.template p.die p.entry).packetTime p.payload p.stamp) fr.base false 0 0)).run u := by
  have hcounted := packetCounted hs p 1
  refine ⟨_, hcounted, ?_⟩
  rw [← decodePoint_congr hcounted.reg hcounted.poses, decodePoints, run_get]
  simp only [Nat.not_lt.2 hneed, hseq, hblocks, hpoints, hfr, Bool.false_and, Bool.false_eq_true, if_false, Nat.mul_one]
  rw [run_all_cons, run_when_false, run_all_cons, run_when_false, run_all_cons, run_all_cons, run_all_cons, run_all_nil, run_upTo_succ,
    run_upTo_zero, run_upTo_succ, run_upTo_zero, run_get]

theorem length_pointBytes (q : Point) : q.bytes.length = 16 := by
  simp only [Point.bytes, List.length_append, length_toLe]

/-- A point that has room in its frame is flagged when its pose was extrapolated, and counted. -/
def countPoint (die entry seq : Nat) (q : Point) : Act :=
  .seq (.when (bit q.flags 1) (.frame die entry seq fun g => g.flag framePoseExtrapolated))
    (.frame die entry seq fun g => { g with count := g.count + 1 })

theorem keepPoint_room {entry seq : Nat} {q : Point} {f : Frame} (hfr : s.frame die entry seq = some f) (hsafety : f.safety = false)
    (hbuf : f.buf.isSome = true) (hroom : f.count < f.cap) :
    (keepPoint die entry seq q).run s =
      (recordWrite die entry seq (f.bufAddr + 16 * f.count) q.bytes).run ((countPoint die entry seq q).run s) := by
  have hnone : f.buf.isNone = false := by rw [Option.isNone_eq_false_iff]; exact hbuf
  rw [keepPoint, run_get, hfr]
  simp only [hsafety, hnone, Nat.not_le.2 hroom, Bool.false_eq_true, if_false]
  rfl

theorem recordWrite_open (hs : s.Sound) {a : Nat} {bs : List Byte} (h : s.openHbm a bs.length) (die entry seq : Nat) :
    Written s ((recordWrite die entry seq a bs).run s) a bs := by
  obtain ⟨t, ht, hrun⟩ := unitWrite_open hs h
  rw [recordWrite, hrun]
  exact ht

theorem countPoint_rest (die entry seq : Nat) (q : Point) (s : State) : ((countPoint die entry seq q).run s).regs = s.regs ∧
    ((countPoint die entry seq q).run s).mem = s.mem ∧ ((countPoint die entry seq q).run s).cfg = s.cfg := by
  rw [countPoint, run_seq, run_when]
  split <;> exact ⟨rfl, rfl, rfl⟩

/-- The frame of a point that has been counted. -/
theorem frame_countPoint {entry seq : Nat} {q : Point} {f : Frame} (hfr : s.frame die entry seq = some f) :
    ∃ g, ((countPoint die entry seq q).run s).frame die entry seq = some g ∧ g.count = f.count + 1 ∧ g.packets = f.packets := by
  rw [countPoint, run_seq, frame_run_frame (g := fun g => { g with count := g.count + 1 }) (fun _ _ _ _ => rfl), run_when]
  split
  · rw [frame_run_frame (g := fun g => g.flag framePoseExtrapolated) (fun _ _ _ _ => rfl), hfr]
    exact ⟨_, rfl, rfl, rfl⟩
  · rw [hfr]
    exact ⟨_, rfl, rfl, rfl⟩

/-- A point with room in its frame is stored in the next place of the frame's buffer. -/
theorem keepPoint_stored (hs : s.Sound) {entry seq : Nat} {q : Point} {f : Frame} (hfr : s.frame die entry seq = some f)
    (hsafety : f.safety = false) (hbuf : f.buf.isSome = true) (hroom : f.count < f.cap)
    (hopen : s.openHbm (f.bufAddr + 16 * f.count) 16) :
    let t := (keepPoint die entry seq q).run s
    t.bytes (f.bufAddr + 16 * f.count) 16 = q.bytes ∧ s.BytesBut t (f.bufAddr + 16 * f.count) 16 ∧
      ∃ g, t.frame die entry seq = some g ∧ g.count = f.count + 1 ∧ g.packets = f.packets := by
  obtain ⟨hregs, hmem, hcfg⟩ := countPoint_rest die entry seq q s
  obtain ⟨g, hg, hcount⟩ := frame_countPoint (q := q) hfr
  have hready : ((countPoint die entry seq q).run s).openHbm (f.bufAddr + 16 * f.count) q.bytes.length :=
    openHbm_congr (fun f _ d i => reg_of_regs hregs .vis f d i) ((length_pointBytes q).symm ▸ hopen)
  have hwritten := recordWrite_open (run_sound _ hs) hready die entry seq
  rw [keepPoint_room hfr hsafety hbuf hroom, ← length_pointBytes q]
  exact ⟨hwritten.read, bytesBut_of_same (sameBytes_of_eq hmem hcfg) hwritten.other (sameBytes_refl _), g,
    (frame_congr hwritten.frames ..).trans hg, hcount⟩

end decode

/-- Settles O21: the first packet served is decoded; a sample is good or not, and the one point of a packet has its fate. -/
theorem packetsAreDecoded : Obligations.PacketsAreDecoded := by
  intro s die p hs ready kind t hp
  have hexec : exec (.packetDecode die) s = .next ((decodePacket p).run s) := exec_packetDecode hp
  have hqueue := CountedUp.refl (run_sound (dequeue p) hs)
  have hruns {b : Act} {u : State} (hb : (decodePacket p).run s = b.run u) {P : State → Prop} (h : P (b.run u)) :
      Runs (.packetDecode die) s P := ⟨_, hexec.trans (congrArg _ hb), h⟩
  refine ⟨fun hk hlen hmagic hversion hcount => ?_, fun hk hshort => ?_, fun fr hk hneed hseq hblocks hpoints hfr => ?_⟩
  · intro f x norm good
    have hdecode : (decodePacket p).run s = (takeSample x).run ((dequeue p).run s) :=
      (decodePacket_poses hk).trans (decodePoses_one hlen hmagic hversion hcount _)
    refine ⟨fun hgood hroom => ?_, fun hbad => ?_⟩
    · exact hruns (hdecode.trans (takeSample_good hgood hroom)) ⟨rfl, regsBut_refl s [], sameBytes_refl s⟩
    · have hreject := hqueue.inc (f := .SC_POSE_REJECT) (by simp) p.die p.entry
      exact hruns (hdecode.trans (takeSample_bad hbad)) ⟨hreject.rd (by simp), hreject.aux, hreject.regs, hreject.bytes⟩
  · have hdrop := hqueue.inc (f := .SC_DROP_UNPARSED) (by simp) p.die p.entry
    exact hruns ((decodePacket_points hk).trans (decodePoints_short hshort)) ⟨hdrop.rd (by simp), hdrop.aux, hdrop.regs, hdrop.bytes⟩
  · intro fate
    obtain ⟨u, hcounted, hpoint⟩ := decodePoints_onePoint (run_sound (dequeue p) hs) hneed hseq hblocks hpoints hfr
    have hdecode : (decodePacket p).run s = (applyFate p.die p.entry p.seq fate).run u := (decodePacket_points hk).trans hpoint
    have hcount {f : Fld} (hf : loadField f = false) (d i : Nat) :
        ((Act.inc f d i).run u).rd f d i = (s.rd f d i + 1) % 2 ^ f.info.width := by
      rw [rd_run_inc hcounted.sound, if_pos ⟨rfl, rfl, rfl⟩]
      exact congrArg (fun v => (v + 1) % _) (hcounted.reg .vis f d i fun h => Bool.false_ne_true (hf.symm.trans h.2))
    refine ⟨fun hfate => ?_, fun hfate => ?_, fun q hfate hsafety hbuf hroom hopen => ?_⟩
    · rw [hfate] at hdecode
      exact hruns hdecode ⟨hcount (by decide) .., hcounted.bytes⟩
    · rw [hfate] at hdecode
      exact hruns hdecode ⟨hcount (by decide) .., hcounted.bytes⟩
    · rw [hfate] at hdecode
      have hready : u.openHbm (fr.bufAddr + 16 * fr.count) 16 :=
        openHbm_congr (fun f hf d i => hcounted.reg .vis f d i fun h => absurd h.2 (by revert f; decide)) hopen
      obtain ⟨hread, hother, g, hg, hgcount, hgpackets⟩ :=
        keepPoint_stored (q := q) hcounted.sound (hcounted.frame.trans (congrArg (Option.map _) hfr)) hsafety hbuf hroom hready
      exact hruns hdecode ⟨hread, bytesBut_of_same hcounted.bytes hother (sameBytes_refl _), g, hg, hgcount, hgpackets⟩

/-! ### What a ring of the Bell reaches (14 R612 to R633, 10 R430, R455) -/

/-- Registers that an arrival at the Bell can write: its own, those of message signalling, and those of the contexts that it wakes and
pre-empts. -/
def bellFields : List Fld :=
  [.BELL_PEND, .I_BELL_HELD, .BELL_REC, .BELL_MERGED, .BELL_BAD, .BELL_MOD_ARMED, .BELL_MOD_HELD, .I_MOD_SEEN, .I_MOD_TICK,
    .I_MSIX_PBA, .I_PME_STATUS, .I_WAKE, .CTX_CNT, .CTX_STATE, .SQ_PREEMPTS, .ENG_STATUS_STAGED, .ENG_STATUS_STATE]

/-- What an arrival at the Bell can change: no byte, and of the queues outputs, contexts, engines and waiting CREDIT_GETs. -/
def bellReach : Reach where
  regs k := k.layer = .vis ∧ k.fld ∈ bellFields
  mem _ := False
  cfg _ := False
  aux x y := ∃ outputs ctxs engines credits, y = { x with outputs := outputs, ctxs := ctxs, engines := engines, credits := credits }

theorem bellReach_refl (x : Aux) : bellReach.aux x x := ⟨_, _, _, _, rfl⟩

theorem bellReach_trans (x y z : Aux) (h1 : bellReach.aux x y) (h2 : bellReach.aux y z) : bellReach.aux x z := by
  obtain ⟨_, _, _, _, rfl⟩ := h1
  obtain ⟨_, _, _, _, rfl⟩ := h2
  exact ⟨_, _, _, _, rfl⟩

@[simp] theorem bellReach_regs {f : Fld} (h : f ∈ bellFields) (d i : Nat) : bellReach.regs ⟨f, .vis, d, i⟩ := ⟨rfl, h⟩

@[simp] theorem ctx_bell (die core c : Nat) (f : Ctx → Ctx) : Within bellReach (.ctx die core c f) :=
  (within_aux ..).2 fun x => ⟨x.outputs, _, x.engines, x.credits, rfl⟩

@[simp] theorem engine_bell (die core e : Nat) (f : Engine → Engine) : Within bellReach (.engine die core e f) :=
  (within_aux ..).2 fun x => ⟨x.outputs, x.ctxs, _, x.credits, rfl⟩

@[simp] theorem out_bell (o : Output) : Within bellReach (.out o) :=
  (within_aux ..).2 fun x => ⟨_, x.ctxs, x.engines, x.credits, rfl⟩

@[simp] theorem bellReach_credits (x : Aux) (credits : List CreditWait) : bellReach.aux x { x with credits := credits } :=
  ⟨x.outputs, x.ctxs, x.engines, _, rfl⟩

@[simp] theorem stageHeads_bell (die core : Nat) : Within bellReach (stageHeads die core) := by
  simp only [stageHeads, within_upTo]
  intro i _ e _
  rw [stageHead, within_get]
  intro s
  split <;> simp (disch := decide) [stage, endLoad]

@[simp] theorem preemptBelow_bell (die core c : Nat) : Within bellReach (preemptBelow die core c) := by
  simp (disch := decide) [preemptBelow, preemptCtx]

@[simp] theorem setBellBit_bell {f : Fld} (h : f ∈ bellFields) (die src : Nat) (b : Bool) : Within bellReach (setBellBit f die src b) :=
  (within_upd ..).2 (bellReach_regs h ..)

@[simp] theorem sequencerServe_bell (die lcore src : Nat) : Within bellReach (sequencerServe die lcore src) := by
  rw [sequencerServe, within_get]
  intro s
  dsimp only
  split <;> simp (disch := decide) [setCounter, endFlight, unblock]

@[simp] theorem vectorArrival_bell (v : Nat) : Within bellReach (vectorArrival v) := by
  simp (disch := decide) [vectorArrival, vectorDue, sendMsix]

@[simp] theorem bellPresent_bell (die src : Nat) : Within bellReach (bellPresent die src) := by
  rw [bellPresent, within_get]
  intro s
  split <;> simp

theorem bellRing_bell (die src tag : Nat) : Within bellReach (bellRing die src tag) := by
  have hbit (held : Bool) : (if held then Fld.I_BELL_HELD else .BELL_PEND) ∈ bellFields := by
    cases held <;> decide
  simp (disch := decide) [bellRing, bellArrive, bellSettle, setBellBit_bell (hbit _)]

/-- The Bell has been rung. -/
structure Rung (s t : State) : Prop where
  sound : t.Sound
  reg : ∀ l f d i, f ∉ bellFields → t.reg l f d i = s.reg l f d i
  bytes : s.SameBytes t
  aux : ∃ outputs ctxs engines credits,
    t.aux = { s.aux with outputs := outputs, ctxs := ctxs, engines := engines, credits := credits }

theorem rung {s : State} (hs : s.Sound) (die src : Nat) : Rung s ((bellRing die src).run s) := by
  obtain ⟨hr, hm, hc, ha⟩ := within_run (bellRing_bell die src 0) bellReach_refl bellReach_trans hs
  exact ⟨run_sound _ hs, fun l f d i hf => hr l f d i fun h => hf h.2, ⟨fun j => hm j id, fun j => hc j id⟩, ha⟩

/-! ### Frames that go (03 R133, R134) -/

section release
variable {s : State} {die entry seq : Nat}

/-- What the release of a frame can change: the address of the buffer that another frame takes, and queues other than the
jobs. -/
def releaseReach : Reach where
  regs k := k.fld = .I_SC_BUF_ADDR
  mem _ := False
  cfg _ := False
  aux x y := y.jobs = x.jobs

theorem releaseFrame_release (die entry seq : Nat) : Within releaseReach (releaseFrame die entry seq) := by
  have hframes (x : Aux) (frames : List Frame) : releaseReach.aux x { x with frames := frames } := rfl
  have hreg (l : Layer) (d i : Nat) : releaseReach.regs ⟨.I_SC_BUF_ADDR, l, d, i⟩ := rfl
  simp only [releaseFrame, within_seq, within_aux, hframes, implies_true, within_get, true_and]
  intro s
  split <;> simp [takeBuffer, Act.frame, hframes, hreg]

/-- A released frame is no more. -/
theorem releaseFrame_gone : ∀ f ∈ ((releaseFrame die entry seq).run s).aux.frames, f.is die entry seq = false := by
  have hgone : ∀ f ∈ ((Act.aux fun a => { a with frames := a.frames.filter fun f => !f.is die entry seq }).run s).aux.frames,
      f.is die entry seq = false := fun f hf => by simpa using (List.mem_filter.1 hf).2
  rw [releaseFrame, run_seq, run_get]
  split
  · rw [run_when]
    split
    · exact not_is_run_frame (fun _ _ _ _ => rfl) hgone
    · exact hgone
  · exact hgone

/-- A release leaves every register but the address of a buffer, every byte, and the jobs. -/
theorem releaseFrame_rest (hs : s.Sound) :
    (∀ l f d i, f ≠ .I_SC_BUF_ADDR → ((releaseFrame die entry seq).run s).reg l f d i = s.reg l f d i) ∧
      s.SameBytes ((releaseFrame die entry seq).run s) ∧ ((releaseFrame die entry seq).run s).aux.jobs = s.aux.jobs := by
  obtain ⟨hr, hm, hc, ha⟩ := within_run (releaseFrame_release die entry seq) (fun _ => rfl) (fun _ _ _ h1 h2 => h2.trans h1) hs
  exact ⟨fun l f d i hf => hr l f d i hf, ⟨fun j => hm j id, fun j => hc j id⟩, ha⟩

end release

/-! ### Headers and write errors (03 R128, R135, R137, R836) -/

section headers
variable {s : State} {die entry point : Nat} {f : Frame}

theorem headerDue_some (h : s.headerDue die entry = some f) : f ∈ s.aux.frames ∧ f.die = die ∧ f.entry = entry := by
  have hf := List.find?_some h
  simp only [Bool.and_eq_true, beq_iff_eq] at hf
  obtain ⟨⟨⟨hdie, hentry⟩, -⟩, -⟩ := hf
  exact ⟨List.mem_of_find?_eq_some h, hdie, hentry⟩

theorem frame_is_self (f : Frame) : f.is f.die f.entry f.seq = true := by simp [Frame.is]

theorem length_header (f : Frame) : f.header.length = 64 := by
  unfold Frame.header
  simp only [List.length_append, length_toLe]

/-- What follows the write of a header: it is marked, and a frame that owes nothing goes. -/
def endHeader (f : Frame) : Act :=
  .seq (.frame f.die f.entry f.seq fun g => { g with hdrDone := true })
    (.when (!f.accepted || f.ended) (releaseFrame f.die f.entry f.seq))

theorem exec_frameHeaderWrite (hdue : s.headerDue f.die f.entry = some f) {t : State}
    (hrun : ∀ k, ((unitWrite f.hdrAddr f.header).then k).run s = (k (.ok ())).run t) :
    exec (.frameHeaderWrite f.die f.entry) s = .next ((endHeader f).run t) := by
  show execFrameHeaderWrite f.die f.entry s = _
  rw [execFrameHeaderWrite, hdue]
  exact congrArg Host.Outcome.next (hrun _)

theorem exec_headerWriteError (hdue : s.headerDue die entry = some f) :
    exec (.headerWriteError die entry) s = .next ((headerError f).run s) := by
  show execHeaderWriteError die entry s = _
  rw [execHeaderWriteError, hdue]
  rfl

theorem exec_header_none (hdue : s.headerDue die entry = none) :
    exec (.frameHeaderWrite die entry) s = .next s ∧ exec (.headerWriteError die entry) s = .next s := by
  constructor
  · show execFrameHeaderWrite die entry s = _
    rw [execFrameHeaderWrite, hdue]
    rfl
  · show execHeaderWriteError die entry s = _
    rw [execHeaderWriteError, hdue]
    rfl

theorem endHeader_bytes (hs : s.Sound) : s.SameBytes ((endHeader f).run s) := by
  rw [endHeader, run_seq, run_when]
  split
  · obtain ⟨-, hbytes, -⟩ := releaseFrame_rest (die := f.die) (entry := f.entry) (seq := f.seq)
      (run_sound (Act.frame f.die f.entry f.seq fun g => { g with hdrDone := true }) hs)
    exact hbytes
  · exact sameBytes_of_eq rfl rfl

/-- A frame that owes its record keeps its place, its header marked as written. -/
theorem endHeader_keeps (hf : f ∈ s.aux.frames) (hacc : f.accepted = true) (hend : f.ended = false) :
    { f with hdrDone := true } ∈ ((endHeader f).run s).aux.frames := by
  have howes : (!f.accepted || f.ended) = false := by
    rw [hacc, hend]
    rfl
  rw [endHeader, run_seq, howes, run_when_false]
  exact mem_frames_run_frame (g := fun g => { g with hdrDone := true }) hf (frame_is_self f)

/-- A frame that owes no record goes. -/
theorem endHeader_gone (hacc : f.accepted = false) : ∀ g ∈ ((endHeader f).run s).aux.frames, g.is f.die f.entry f.seq = false := by
  rw [endHeader, run_seq, hacc]
  exact releaseFrame_gone

/-! #### Headers that cannot be written -/

/-- No job binds a frame any more. -/
def unbindJobs (f : Frame) : Act :=
  .aux fun a => { a with jobs := a.jobs.map fun j => { j with binds := j.binds.map (Bind.unbind f) } }

theorem unbind_not_bound (f : Frame) (b : Bind) :
    ¬ ((b.unbind f).die = f.die ∧ (b.unbind f).entry = f.entry ∧ (b.unbind f).seq = some f.seq) := by
  unfold Bind.unbind
  split
  · exact fun h => by cases h.2.2
  · next h => simpa [and_assoc] using h

theorem unbindJobs_unbound (f : Frame) (s : State) : ∀ j ∈ ((unbindJobs f).run s).aux.jobs, ∀ b ∈ j.binds,
    ¬ (b.die = f.die ∧ b.entry = f.entry ∧ b.seq = some f.seq) := by
  intro j hj b hb
  obtain ⟨j, -, rfl⟩ := List.mem_map.1 hj
  obtain ⟨b, -, rfl⟩ := List.mem_map.1 hb
  exact unbind_not_bound f b

/-- A withdrawal leaves every register but its count, and the jobs. -/
theorem withdraw_rest (hs : s.Sound) (owes : Bool) (f : Frame) (cause : Nat) :
    (∀ g d i, g ≠ .PT_WITHDRAWN → ((Act.when owes (withdrawFrame f cause)).run s).rd g d i = s.rd g d i) ∧
      ((Act.when owes (withdrawFrame f cause)).run s).aux.jobs = s.aux.jobs := by
  rw [run_when]
  split
  · exact ⟨fun g d i hg => (rd_run_inc hs .PT_WITHDRAWN 0 f.part g d i 1).trans (if_neg fun h => hg h.1), rfl⟩
  · exact ⟨fun _ _ _ _ => rfl, rfl⟩

/-- A withdrawal is counted. -/
theorem rd_withdrawFrame (hs : s.Sound) (f : Frame) (cause : Nat) : ((withdrawFrame f cause).run s).rd .PT_WITHDRAWN 0 f.part =
    (s.rd .PT_WITHDRAWN 0 f.part + 1) % 2 ^ Fld.PT_WITHDRAWN.info.width :=
  (rd_run_inc hs .PT_WITHDRAWN 0 f.part .PT_WITHDRAWN 0 f.part 1).trans (if_pos ⟨rfl, rfl, rfl⟩)

/-- A frame whose header could not be written: the error is counted, the frame is no more, no job binds it, and a frame that owed a
record is withdrawn. -/
structure HeaderLost (s t : State) (f : Frame) : Prop where
  error : t.rd .SC_WRITE_ERR f.die f.entry = (s.rd .SC_WRITE_ERR f.die f.entry + 1) % 2 ^ 32
  gone : ∀ g ∈ t.aux.frames, g.is f.die f.entry f.seq = false
  unbound : ∀ j ∈ t.aux.jobs, ∀ b ∈ j.binds, ¬ (b.die = f.die ∧ b.entry = f.entry ∧ b.seq = some f.seq)
  withdrawn : f.accepted = true → f.ended = false →
    t.rd .PT_WITHDRAWN 0 f.part = (s.rd .PT_WITHDRAWN 0 f.part + 1) % 2 ^ Fld.PT_WITHDRAWN.info.width

/-- What a frame loses before its header's error releases it: the error is counted and rung, and no job binds it. -/
def headerFails (f : Frame) : Act := .all [.inc .SC_WRITE_ERR f.die f.entry, bellRing f.die 0x058, unbindJobs f]

theorem headerFails_rd (hs : s.Sound) (f : Frame) {g : Fld} (hg : g ∉ bellFields) (d i : Nat) :
    ((headerFails f).run s).rd g d i = ((Act.inc .SC_WRITE_ERR f.die f.entry).run s).rd g d i :=
  (rung (run_sound (Act.inc .SC_WRITE_ERR f.die f.entry) hs) f.die 0x058).reg .vis g d i hg

theorem headerError_run (f : Frame) (s : State) : (headerError f).run s = (releaseFrame f.die f.entry f.seq).run
    ((Act.when (f.accepted && !f.ended) (withdrawFrame (f.flag frameWriteErr) causeWriteError)).run ((headerFails f).run s)) := rfl

theorem headerError_lost (hs : s.Sound) (f : Frame) : HeaderLost s ((headerError f).run s) f := by
  have hfail := run_sound (headerFails f) hs
  have hrd {g : Fld} (hg : g ∉ bellFields) := headerFails_rd hs f hg
  have hunbound : ∀ j ∈ ((headerFails f).run s).aux.jobs, _ := unbindJobs_unbound f _
  rw [headerError_run]
  generalize (headerFails f).run s = u at *
  obtain ⟨hleft, hjobs⟩ := withdraw_rest hfail (f.accepted && !f.ended) (f.flag frameWriteErr) causeWriteError
  have hv := run_sound (Act.when (f.accepted && !f.ended) (withdrawFrame (f.flag frameWriteErr) causeWriteError)) hfail
  obtain ⟨hreg, -, hsame⟩ := releaseFrame_rest (die := f.die) (entry := f.entry) (seq := f.seq) hv
  refine ⟨?_, releaseFrame_gone, by rw [hsame, hjobs]; exact hunbound, fun hacc hend => ?_⟩
  · refine (hreg .vis _ _ _ (by decide)).trans ((hleft _ _ _ (by decide)).trans ((hrd (by decide) ..).trans ?_))
    exact (rd_run_inc hs ..).trans (if_pos ⟨rfl, rfl, rfl⟩)
  · refine (hreg .vis _ _ _ (by decide)).trans ?_
    rw [hacc, hend]
    refine (rd_withdrawFrame hfail (f.flag frameWriteErr) causeWriteError).trans ?_
    rw [hrd (by decide), rd_run_inc hs, if_neg fun h => by cases h.1]
    rfl

/-! #### Points that cannot be written (R836) -/

/-- Free bytes are some bytes; drawing them changes the count of free values alone. -/
theorem freeBytes_run (n : Nat) (k : List Byte → Act) (s : State) :
    ∃ bs drawn, (Act.freeBytes n k).run s = (k bs).run { s with fresh := drawn } := by
  induction n generalizing k s with
  | zero => exact ⟨[], s.fresh, rfl⟩
  | succ n ih =>
    obtain ⟨bs, drawn, h⟩ := ih (fun bs => k (toLe 8 (Config.freeValue s.fresh).toNat ++ bs)) { s with fresh := s.fresh + 1 }
    exact ⟨_, drawn, h⟩

/-- A frame of a stream has a place for a point in its buffer, and its header is not yet written. -/
def HoldsPoint (die entry point : Nat) (f : Frame) : Prop :=
  f.die = die ∧ f.entry = entry ∧ f.hdrDone = false ∧ f.buf.isSome = true ∧ point < f.count

theorem holdsPoint_iff : HoldsPoint die entry point f ↔
    (f.die == die && f.entry == entry && !f.hdrDone && f.buf.isSome && decide (point < f.count)) = true := by
  simp [HoldsPoint, and_assoc]

theorem writtenFrame_some {before after : List Frame} (hframes : s.aux.frames = before ++ f :: after) (hf : HoldsPoint die entry point f)
    (hbefore : ∀ g ∈ before, ¬ HoldsPoint die entry point g) : s.writtenFrame die entry point = some f := by
  rw [State.writtenFrame, hframes, List.find?_append, List.find?_eq_none.2 fun g hg => mt holdsPoint_iff.2 (hbefore g hg),
    Option.none_or]
  exact List.find?_cons_of_pos (holdsPoint_iff.1 hf)

theorem writtenFrame_none (h : ∀ g ∈ s.aux.frames, ¬ HoldsPoint die entry point g) : s.writtenFrame die entry point = none :=
  List.find?_eq_none.2 fun g hg => mt holdsPoint_iff.2 (h g hg)

theorem exec_pointWriteError (h : s.writtenFrame die entry point = some f) : exec (.pointWriteError die entry point) s =
    .next ((pointWriteError die entry f.seq (f.bufAddr + rowBytes f.kind f.channels * point) (rowBytes f.kind f.channels)).run s) := by
  show execPointWriteError die entry point s = _
  rw [execPointWriteError, h]
  rfl

theorem exec_pointWriteError_none (h : s.writtenFrame die entry point = none) : exec (.pointWriteError die entry point) s = .next s := by
  show execPointWriteError die entry point s = _
  rw [execPointWriteError, h]
  rfl

theorem rowBytes_eq (kind channels : Nat) : rowBytes kind channels = if kind = 2 then (4 * channels + 63) / 64 * 64 else 16 := by
  simp only [rowBytes, beq_iff_eq, Nat.mul_comm]

theorem bit_putBit (n i : Nat) : bit (putBit n i true) i = true := by
  cases h : bit n i with
  | false => exact bit_putBit_self h
  | true =>
    have hle : 2 ^ i ≤ n := Nat.ge_two_pow_of_testBit (by rw [← bit_eq_testBit, h])
    have hput : putBit n i true = n := by
      rw [putBit, h]
      exact Nat.sub_add_cancel hle
    rw [hput, h]

/-- A point record or audio position whose write has failed: the error is counted, its frame is marked, and no other byte has changed. -/
structure PointLost (s t : State) (f : Frame) (a n : Nat) : Prop where
  error : t.rd .SC_WRITE_ERR f.die f.entry = (s.rd .SC_WRITE_ERR f.die f.entry + 1) % 2 ^ 32
  marked : f.flag frameWriteErr ∈ t.aux.frames
  other : s.BytesBut t a n

theorem pointWriteError_lost (hs : s.Sound) (hf : f ∈ s.aux.frames) (a n : Nat) :
    PointLost s ((pointWriteError f.die f.entry f.seq a n).run s) f a n := by
  obtain ⟨bs, drawn, hrun⟩ := freeBytes_run ((n + 7) / 8) (fun bs => .all [
    .put a (bs.take n),
    .frame f.die f.entry f.seq fun f => f.flag frameWriteErr,
    .inc .SC_WRITE_ERR f.die f.entry,
    bellRing f.die 0x058]) s
  have hrun : (pointWriteError f.die f.entry f.seq a n).run s = (bellRing f.die 0x058).run ((Act.inc .SC_WRITE_ERR f.die f.entry).run
      ((Act.frame f.die f.entry f.seq fun f => f.flag frameWriteErr).run ((Act.put a (bs.take n)).run { s with fresh := drawn }))) := hrun
  have hdrawn : ({ s with fresh := drawn } : State).Sound := hs
  have hput := run_sound (Act.put a (bs.take n)) hdrawn
  have hflag := run_sound (Act.frame f.die f.entry f.seq fun f => f.flag frameWriteErr) hput
  obtain ⟨-, hreg, ⟨hbyte, hcfg⟩, _, _, _, _, haux⟩ := rung (run_sound (Act.inc .SC_WRITE_ERR f.die f.entry) hflag) f.die 0x058
  rw [hrun]
  refine ⟨?_, ?_, fun j hj => ?_, fun j => hcfg j⟩
  · exact (hreg .vis _ _ _ (by decide)).trans ((rd_run_inc hflag ..).trans (if_pos ⟨rfl, rfl, rfl⟩))
  · rw [haux]
    exact mem_frames_run_frame hf (frame_is_self f)
  · have hlen := List.length_take_le n bs
    exact (hbyte j).trans ((byte_run_put hdrawn a (bs.take n) j).trans (if_neg (by omega)))

end headers

/-- Settles O22: a header is written and its frame marked or released, or lost with its frame; a point that is lost marks its frame. -/
theorem headersAndWriteErrors : Obligations.HeadersAndWriteErrors := by
  intro s die entry hs hd
  refine ⟨fun f hdue hopen => ?_, fun f hdue => ?_, exec_header_none, fun point => ?_⟩
  · obtain ⟨hmem, rfl, rfl⟩ := headerDue_some hdue
    obtain ⟨t, hwritten, hrun⟩ := unitWrite_open hs (bs := f.header) ((length_header f).symm ▸ hopen)
    have hsame := endHeader_bytes (f := f) hwritten.sound
    have hread := (bytes_congr hwritten.sound (run_sound (endHeader f) hwritten.sound) hsame.1).trans hwritten.read
    have hother := bytesBut_of_same (sameBytes_refl s) hwritten.other hsame
    rw [length_header] at hread hother
    exact ⟨_, exec_frameHeaderWrite hdue hrun, hread, hother, endHeader_keeps (hwritten.frames ▸ hmem), endHeader_gone⟩
  · obtain ⟨-, rfl, rfl⟩ := headerDue_some hdue
    have hlost := headerError_lost hs f
    exact ⟨_, exec_headerWriteError hdue, hlost.error, hlost.gone, hlost.unbound, hlost.withdrawn⟩
  · intro mine
    refine ⟨fun f before after hframes hf hbefore => ?_, fun hno => exec_pointWriteError_none (writtenFrame_none hno)⟩
    have hexec := exec_pointWriteError (writtenFrame_some hframes hf hbefore)
    obtain ⟨rfl, rfl, -⟩ := hf
    have hlost := pointWriteError_lost hs (hframes ▸ List.mem_append_right before (List.mem_cons_self ..))
      (f.bufAddr + rowBytes f.kind f.channels * point) (rowBytes f.kind f.channels)
    exact ⟨_, hexec, hlost.error, bit_putBit f.flags 10, hlost.marked, rowBytes_eq f.kind f.channels ▸ hlost.other⟩

end Sys2Proof.Proofs

/-! PROOFS. The statement about grids (04_pillars_and_voxels.md): the state in which the end of a drain loses the closing command. -/

namespace Sys2Proof.Proofs

open Sys2Proof Sys2Proof.Machine Sys2Proof.Laws

/-- Bytes 0 to 79 of the descriptor of a pillar grid whose slot table is one slot at the start of vault 0. -/
def oneSlotGeo : List Byte := List.replicate 48 0 ++ toLe 8 (vaultAddr 0 0 0) ++ List.replicate 24 0

/-- The record of that grid, which command 1 of context 1 closes and whose build has dropped a point for its probe length. -/
def probedGrid : GridRec := { addr := storeAddr 0 0 0, geo := oneSlotGeo, probePoints := 1, closer := some (0, 0, 1, 1) }

/-- A command in flight, number 1, that is or is not begun. -/
def flightOf (words : List Nat) (begun : Bool) : Flight :=
  { id := 1, cmd := { addr := 0, words := words, cnt := [], row := 0, ord := 1 }, units := 0, tick := 0, ending := none, begun := begun }

/-- The MAP command that closes the grid, not begun. -/
def closeFlight : Flight := flightOf [0x122, 0, 0x02000000] false

/-- WAIT_BELL for the source of partition 0's advisory, from any die. -/
def advisoryWait : Flight := flightOf [0x05, 0x060 + 2 ^ 13] true

/-- Context 0 of core 0 waits for the advisory of partition 0, whose target is its sequencer; context 1 closes the grid. -/
def advisedClose : State :=
  (Act.all [.set .PWR_DOM_ON 0 0 0xFFFFFF, .set .CTX_STATE 0 0 2, .set .CTX_STATE 0 1 1, .set .BELL_TGT_KIND 0 0x060 2, .set .BELL_MASK 0 3 0,
    .setAc .MUL_VALID 0 0 1, .setAc .MUL_READ 0 0 1, .setAc .MUL_WRITE 0 0 1, .setAc .MUL_BASE 0 0 (vaultBase / 4096),
    .setAc .MUL_LIMIT 0 0 (vaultBase / 4096), .put (storeAddr 0 0 0 + 80) [1], .put (storeAddr 0 0 0 + 84) [3],
    .aux fun y => { y with grids := [probedGrid] },
    .ctx 0 0 0 fun y => { y with flight := [advisoryWait] },
    .ctx 0 0 1 fun y => { y with flight := [closeFlight] }]).run State.reset

/-! #### The state meets what the clause of GRID_CLOSE_DRAIN_END asks -/

theorem advisedClose_ready :
    advisedClose.suspectStore 0 0 = false ∧ advisedClose.closing 0 0 1 = some (probedGrid, closeFlight) ∧ closeFlight.cmd.op = 0x22 ∧
      probedGrid.inserts.any advisedClose.insertLives = false ∧ (advisedClose.gridAt probedGrid.addr).state = 3 := by
  decide +kernel

theorem advisedClose_slots :
    let v := advisedClose.gridAt probedGrid.addr
    v.geo.slotBase = vaultAddr 0 0 0 ∧ v.geo.slotBytes = 16 ∧ v.geo.log2 = 0 ∧ v.build = 1 ∧ advisedClose.le (vaultAddr 0 0 0 + 4) 3 = 0 := by
  decide +kernel

theorem advisedClose_vaultReady (x : Cx) (hx : x = ⟨0, 0, 1, closeFlight.cmd⟩) : advisedClose.vaultReady x (vaultAddr 0 0 0) 16 := by
  subst hx
  refine ⟨by decide, by decide, by decide +kernel, by decide +kernel, ⟨0, 0, by decide +kernel⟩, ?_⟩
  exact ⟨(0, 0), 0, by decide +kernel⟩

theorem advisedClose_descriptor : advisedClose.OwnRange ⟨0, 0, 1, closeFlight.cmd⟩ probedGrid.addr 640 :=
  ⟨by decide, by decide, 0, by decide⟩

/-- The ring of R205 ends the wait of context 0, which pre-empts context 1 before its close has been marked as ended. -/
theorem advisedClose_withdrawn : (((closeNow 0 0 1).run advisedClose).ctx 0 0 1).flight = [] := by decide +kernel

/-- Refutes O48: the end of a drain does not always end the command that closes the grid. A summary with PROBE or PROBE_WARN rings the
advisory (04 R205) before the command ends; a context of higher priority that waits for that source runs again and pre-empts the
closing context (10 R430, R455), and a command of it that has not begun is withdrawn from flight. -/
theorem not_gridsAreBuilt : ¬ Obligations.GridsAreBuilt := by
  unfold Obligations.GridsAreBuilt
  intro h
  obtain ⟨hsuspect, hclosing, hop, hdone, hstate⟩ := advisedClose_ready
  obtain ⟨hbase, hbytes, hlog, hbuild, hslot⟩ := advisedClose_slots
  obtain ⟨_, hends⟩ := h advisedClose {} 0 0 1 (run_sound _ resetIsSound) ⟨rfl, by simp⟩ hsuspect
  obtain ⟨_, hend⟩ := hends probedGrid closeFlight hclosing
  have hready : advisedClose.vaultReady ⟨0, 0, 1, closeFlight.cmd⟩ (advisedClose.gridAt probedGrid.addr).geo.slotBase
      (advisedClose.gridAt probedGrid.addr).geo.slotBytes := by
    rw [hbase, hbytes]; exact advisedClose_vaultReady _ rfl
  have hfree : ∀ k < 2 ^ (advisedClose.gridAt probedGrid.addr).geo.log2,
      advisedClose.le ((advisedClose.gridAt probedGrid.addr).geo.slotBase + 16 * k + 4) 3 ≠ (advisedClose.gridAt probedGrid.addr).build := by
    rw [hlog, hbase, hbuild]
    intro k hk
    obtain rfl : k = 0 := by omega
    rw [Nat.mul_zero, Nat.add_zero, hslot]
    decide
  obtain ⟨t, hexec, -, -, hflight, -⟩ := hend hop hdone rfl hstate advisedClose_descriptor hready hfree
  obtain rfl : (closeNow 0 0 1).run advisedClose = t := by injection hexec
  rw [advisedClose_withdrawn] at hflight
  exact absurd hflight (by simp)

end Sys2Proof.Proofs

/-! PROOFS. The statement about the transom (17 R727 to R750): first numbers spelled by bytes; then answers, requests that are served and
requests that are turned away; then the commands, in the order of the table of R739. -/

namespace Sys2Proof.Proofs

open Sys2Proof Sys2Proof.Machine Sys2Proof.Laws

/-! ### Numbers spelled by bytes (00 R5) -/

theorem leNat_cons (b : Byte) (bs : List Byte) : leNat (b :: bs) = b.toNat + 256 * leNat bs := rfl

theorem leNat_lt (bs : List Byte) : leNat bs < 256 ^ bs.length := by
  induction bs with
  | nil => exact Nat.one_pos
  | cons b bs ih =>
    have hb := b.isLt
    rw [leNat_cons, List.length_cons, Nat.pow_succ]
    omega

theorem leNat_toLe (n v : Nat) : leNat (toLe n v) = v % 256 ^ n := by
  induction n generalizing v with
  | zero => exact (Nat.mod_one v).symm
  | succ n ih =>
    show (BitVec.ofNat 8 v).toNat + 256 * leNat (toLe n (v / 256)) = _
    rw [ih, BitVec.toNat_ofNat, pow_succ' 256 n, Nat.mod_mul (a := 256)]

section layout
variable {as bs : List Byte} {off n v : Nat}

theorem leAt_append_left (h : off + n ≤ as.length) : leAt (as ++ bs) off n = leAt as off n := by
  rw [leAt, leAt, List.drop_append_of_le_length (by omega), List.take_append_of_le_length (by simp; omega)]

theorem leAt_append_right (h : as.length ≤ off) : leAt (as ++ bs) off n = leAt bs (off - as.length) n := by
  rw [leAt, leAt, List.drop_append, List.drop_of_length_le h, List.nil_append]

/-- Numbers before the place where a number is read from do not matter. -/
theorem leAt_toLe_skip {m : Nat} (h : m ≤ off) : leAt (toLe m v ++ bs) off n = leAt bs (off - m) n :=
  (leAt_append_right ((length_toLe m v).trans_le h)).trans (by rw [length_toLe])

/-- A number reads back. -/
theorem leAt_toLe : leAt (toLe n v) 0 n = v % 256 ^ n := by
  rw [leAt, List.drop_zero, List.take_of_length_le (length_toLe n v).le, leNat_toLe]

theorem leAt_toLe_append : leAt (toLe n v ++ bs) 0 n = v % 256 ^ n :=
  (leAt_append_left (by simp [length_toLe])).trans leAt_toLe

theorem leAt_lt : leAt bs off n < 256 ^ n :=
  (leNat_lt _).trans_le (Nat.pow_le_pow_right (by decide) (by simp))

theorem byteAt_append_right (h : as.length ≤ off) : byteAt (as ++ bs) off = byteAt bs (off - as.length) := by
  simp [byteAt, List.getD_eq_getElem?_getD, List.getElem?_append_right h]

theorem byteAt_lt : byteAt bs off < 256 := BitVec.isLt _

theorem byteAt_toLe_skip {m : Nat} (h : m ≤ off) : byteAt (toLe m v ++ bs) off = byteAt bs (off - m) :=
  (byteAt_append_right ((length_toLe m v).trans_le h)).trans (by rw [length_toLe])

/-- One byte reads back. -/
theorem byteAt_toLe_append : byteAt (toLe 1 v ++ bs) 0 = v % 256 := rfl

theorem cut_toLe_skip {m : Nat} (h : m ≤ off) : cut (toLe m v ++ bs) off n = cut bs (off - m) n := by
  rw [cut, cut, List.drop_append, List.drop_of_length_le ((length_toLe m v).trans_le h), List.nil_append, length_toLe]

theorem cut_append_self (hn : as.length = n) : cut (as ++ bs) 0 n = as := by
  rw [cut, List.drop_zero, List.take_left' hn]

end layout

/-- In a list of records of one size, a record stands at its number times the size. -/
theorem drop_flatMap_range' {f : Nat → List Byte} {w : Nat} (hf : ∀ p, (f p).length = w) {a n p : Nat} (hp : p < n) :
    ∃ rest, ((List.range' a n).flatMap f).drop (w * p) = f (a + p) ++ rest := by
  induction p generalizing a n with
  | zero =>
    obtain ⟨n, rfl⟩ := Nat.exists_eq_succ_of_ne_zero hp.ne'
    exact ⟨_, by rw [List.range'_succ, List.flatMap_cons]; rfl⟩
  | succ p ih =>
    obtain ⟨n, rfl⟩ := Nat.exists_eq_succ_of_ne_zero (Nat.ne_of_gt (Nat.lt_of_le_of_lt p.succ.zero_le hp))
    obtain ⟨rest, hrest⟩ := ih (a := a + 1) (Nat.lt_of_succ_lt_succ hp)
    refine ⟨rest, ?_⟩
    rw [List.range'_succ, List.flatMap_cons, Nat.mul_succ, List.drop_append, List.drop_of_length_le (by rw [hf]; omega),
      List.nil_append, hf, Nat.add_sub_cancel, hrest, Nat.add_assoc, Nat.add_comm 1 p]

theorem drop_flatMap_range {f : Nat → List Byte} {w : Nat} (hf : ∀ p, (f p).length = w) {n p : Nat} (hp : p < n) :
    ∃ rest, ((List.range n).flatMap f).drop (w * p) = f p ++ rest := by
  rw [List.range_eq_range']
  simpa using drop_flatMap_range' hf (a := 0) hp

theorem byteAt_drop (bs : List Byte) (off k : Nat) : byteAt (bs.drop off) k = byteAt bs (off + k) := by
  simp [byteAt, List.getD_eq_getElem?_getD]

theorem leAt_drop (bs : List Byte) (off k n : Nat) : leAt (bs.drop off) k n = leAt bs (off + k) n := by
  rw [leAt, leAt, List.drop_drop]

theorem length_flatMap_range {f : Nat → List Byte} {w : Nat} (hf : ∀ p, (f p).length = w) (n : Nat) :
    ((List.range n).flatMap f).length = n * w := by
  simp [List.length_flatMap, hf]

/-- Byte `k` of a number that bytes spell is the byte at `k`. -/
theorem bits_leNat (bs : List Byte) (k : Nat) : bits (leNat bs) (8 * k) 8 = byteAt bs k := by
  induction bs generalizing k with
  | nil => simp [leNat, bits, byteAt]
  | cons b bs ih =>
    cases k with
    | zero =>
      have hb := b.isLt
      rw [bits, Nat.shiftRight_eq_div_pow, leNat_cons, byteAt, List.getD_cons_zero]
      omega
    | succ k =>
      have hb := b.isLt
      have hshift : (leNat (b :: bs)) >>> (8 * (k + 1)) = leNat bs >>> (8 * k) := by
        rw [Nat.mul_succ, Nat.add_comm, Nat.shiftRight_add, leNat_cons, Nat.shiftRight_eq_div_pow _ 8]
        congr 1
        omega
      rw [bits, hshift, ← bits, ih]
      rfl

/-- Byte `k` of the four from an offset. -/
theorem bits_leAt_four (bs : List Byte) (off : Nat) {k : Nat} (hk : k < 4) : bits (leAt bs off 4) (8 * k) 8 = byteAt bs (off + k) := by
  rw [leAt, bits_leNat]
  simp [byteAt, List.getD_eq_getElem?_getD, hk]

theorem crcShift_lt {n r : Nat} (hr : r < 2 ^ 32) : crcShift n r < 2 ^ 32 := by
  induction n generalizing r with
  | zero => exact hr
  | succ n ih =>
    have hhalf : r / 2 < 2 ^ 32 := by omega
    refine ih ?_
    split
    · exact Nat.xor_lt_two_pow hhalf (by decide)
    · exact hhalf

/-- A CRC-32C fits four bytes. -/
theorem crc32c_lt (bs : List Byte) : crc32c bs < 2 ^ 32 := by
  have hfold : ∀ (bs : List Byte) {r : Nat}, r < 2 ^ 32 → bs.foldl crcByte r < 2 ^ 32 := by
    intro bs
    induction bs with
    | nil => exact id
    | cons b bs ih =>
      intro r hr
      have hb : b.toNat < 2 ^ 32 := b.isLt.trans (by decide)
      exact ih (crcShift_lt (Nat.xor_lt_two_pow hr hb))
  exact Nat.xor_lt_two_pow (hfold bs (by decide)) (by decide)

/-! ### Rows of registers -/

section row
variable {s : State} {f : Fld} {d n : Nat} {idx v : Nat → Nat}

theorem rd_upTo_set_other (hs : s.Sound) {g : Fld} {e i : Nat} (h : g = f → ∀ w < n, i ≠ idx w) :
    ((Act.upTo n fun w => .set f d (idx w) (v w)).run s).rd g e i = s.rd g e i := by
  induction n with
  | zero => rfl
  | succ n ih =>
    rw [run_upTo_succ, rd_run_set (run_sound _ hs), if_neg fun ⟨hg, _, hi⟩ => h hg n n.lt_succ_self hi]
    exact ih fun hg w hw => h hg w (hw.trans n.lt_succ_self)

/-- Of entries of one field, each written once, each holds its value. -/
theorem rd_upTo_set (hs : s.Sound) (hinj : idx.Injective) {w : Nat} (hw : w < n) :
    ((Act.upTo n fun w => .set f d (idx w) (v w)).run s).rd f d (idx w) = v w % 2 ^ f.info.width := by
  induction n with
  | zero => exact absurd hw w.not_lt_zero
  | succ n ih =>
    rw [run_upTo_succ, rd_run_set (run_sound _ hs)]
    by_cases hwn : w = n
    · rw [if_pos ⟨rfl, rfl, by rw [hwn]⟩, hwn]
    · rw [if_neg fun ⟨_, _, hi⟩ => hwn (hinj hi), ih (by omega)]

end row

/-- Registers of the listed fields, and nothing else. -/
def fieldsOnly (fs : List Fld) : Reach where
  regs k := k.fld ∈ fs
  mem _ := False
  cfg _ := False
  aux x y := y = x

@[simp] theorem fieldsOnly_regs {fs : List Fld} {f : Fld} (h : f ∈ fs) (l : Layer) (d i : Nat) : (fieldsOnly fs).regs ⟨f, l, d, i⟩ := h

theorem run_fieldsOnly {fs : List Fld} {a : Act} (h : Within (fieldsOnly fs) a) {s : State} (hs : s.Sound) :
    s.FieldsBut (a.run s) fs ∧ s.SameBytes (a.run s) ∧ (a.run s).aux = s.aux := by
  obtain ⟨hreg, hmem, hcfg, haux⟩ := within_run h (fun _ => rfl) (fun _ _ _ h1 h2 => h2.trans h1) hs
  exact ⟨hreg, ⟨fun j => hmem j id, fun j => hcfg j id⟩, haux⟩

theorem newNonce_fields (b : Bool) : Within (fieldsOnly [.TR_NONCE]) (.when b newNonce) := by
  simp [newNonce]

/-! ### Answers (17 R735, R737) -/

/-- Registers that the answer to a request can write: the transom's own, and those that a ring of the Bell reaches. -/
def answerFields : List Fld := [.TR_DONE, .TR_RSP, .TR_STATE, .TR_NONCE] ++ bellFields

/-- What an answer can change: no byte, and of the queues what a ring of the Bell reaches. -/
def answerReach : Reach where
  regs k := k.fld ∈ answerFields
  mem _ := False
  cfg _ := False
  aux := bellReach.aux

@[simp] theorem answerReach_regs {f : Fld} (h : f ∈ answerFields) (l : Layer) (d i : Nat) : answerReach.regs ⟨f, l, d, i⟩ := h

@[simp] theorem bellRing_answer (die src : Nat) : Within answerReach (bellRing die src) :=
  within_mono (bellRing_bell die src 0) (fun _ h => List.mem_append_right _ h.2) (fun _ => id) (fun _ => id) fun _ _ => id

@[simp] theorem out_answer (o : Output) : Within answerReach (.out o) :=
  (within_aux ..).2 fun x => ⟨_, x.ctxs, x.engines, x.credits, rfl⟩

theorem respond_answer (src : TransomSource) (code st : Nat) (payload : List Byte) :
    Within answerReach (respond src code st payload) := by
  rw [respond, within_seq]
  refine ⟨(within_inc ..).2 (answerReach_regs (by decide) ..), ?_⟩
  cases src with
  | net secured v6 peer remote port dg => simp [answer]
  | host =>
    have hreset : Within answerReach (.resetFlds fun f _ _ => f == .TR_RSP) := by
      rw [Act.resetFlds, within_eff]
      intro k hk
      rw [show k = ⟨.TR_RSP, k.layer, k.die, k.idx⟩ from (beq_iff_eq.1 hk : k.fld = .TR_RSP) ▸ rfl]
      exact answerReach_regs (by decide) ..
    simp (disch := decide) [answer, hreset]

/-- What `s` becomes when a request is answered, whatever effect went before. -/
structure Answered (s t : State) (src : TransomSource) (code st : Nat) (payload : List Byte) : Prop where
  sound : t.Sound
  replied : s.Replied t src code st payload
  reg : ∀ l f d i, f ∉ answerFields → t.reg l f d i = s.reg l f d i
  bytes : s.SameBytes t
  aux : ∃ outputs ctxs engines credits,
    t.aux = { s.aux with outputs := outputs, ctxs := ctxs, engines := engines, credits := credits }

/-- The Ximund header of a datagram says that its body is a transom response, and how long it is. -/
theorem ximundHeader_fields (type flags channel len epoch chseq seq sent : Nat) :
    let h := ximundHeader type flags channel len epoch chseq seq sent
    h.length = 32 ∧ leAt h 0 2 = 0x4D58 ∧ byteAt h 2 = 1 ∧ byteAt h 3 = type % 256 ∧ leAt h 6 2 = len % 65536 := by
  refine ⟨by simp [ximundHeader, length_toLe], ?_⟩
  simp (disch := decide) only [ximundHeader, List.append_assoc, leAt_toLe_skip, byteAt_toLe_skip, Nat.reduceSub, leAt_toLe_append,
    byteAt_toLe_append]
  exact ⟨rfl, trivial, trivial, rfl⟩

/-- The response as the host finds it, before source 0x0A0 rings. -/
def hostResponse (code st : Nat) (payload : List Byte) : Act :=
  .all [
    .resetFlds fun f _ _ => f == .TR_RSP,
    .set .TR_RSP 0 0 (code + st * 65536),
    .set .TR_RSP 0 1 payload.length,
    .upTo ((payload.length + 3) / 4) fun w => .set .TR_RSP 0 (2 + w) (leAt payload (4 * w) 4),
    .set .TR_STATE 0 0 2]

section respond
variable {s : State} (hs : s.Sound) (code st : Nat) (payload : List Byte)
include hs

theorem replied_net (secured v6 : Bool) (peer remote port : Nat) (dg : List Byte) :
    s.Replied ((respond (.net secured v6 peer remote port dg) code st payload).run s) (.net secured v6 peer remote port dg) code st
      payload := by
  obtain ⟨hlen, hmagic, hversion, htype, hsize⟩ := ximundHeader_fields 0x21 _ _ _ _ _ _ _
  exact ⟨(rd_run_inc hs ..).trans (if_pos ⟨rfl, rfl, rfl⟩), _, hlen, hmagic, hversion, htype, hsize, rfl⟩

/-- TR_RSP before its payload. -/
theorem run_hostHead (f : Fld) (d i : Nat) :
    let t := (Act.all [.resetFlds fun f _ _ => f == .TR_RSP, .set .TR_RSP 0 0 (code + st * 65536), .set .TR_RSP 0 1 payload.length]).run s
    t.Sound ∧ (f ≠ .TR_RSP → t.rd f d i = s.rd f d i) ∧ t.rd .TR_RSP 0 0 = (code + st * 65536) % 2 ^ 32 ∧
      t.rd .TR_RSP 0 1 = payload.length % 2 ^ 32 := by
  have hreset := run_sound (Act.resetFlds fun f _ _ => f == .TR_RSP) hs
  have hhead := run_sound (Act.set .TR_RSP 0 0 (code + st * 65536)) hreset
  simp only [run_all_cons, run_all_nil, rd_run_set hhead, rd_run_set hreset]
  refine ⟨run_sound _ hhead, fun hf => ?_, ?_, ?_⟩
  · rw [if_neg (by simp [hf]), if_neg (by simp [hf])]
    exact (reg_resetRegs hs _ .vis f d i).trans (if_neg (by simpa using hf))
  · rw [if_neg (by decide), if_pos (by decide)]
    rfl
  · rw [if_pos (by decide)]
    rfl

/-- What TR_RSP, TR_STATE and TR_DONE hold once the response stands. -/
theorem run_hostResponse :
    let t := (hostResponse code st payload).run s
    t.rd .TR_DONE 0 = s.rd .TR_DONE 0 ∧ t.rd .TR_STATE 0 = 2 ∧ t.rd .TR_RSP 0 0 = (code + st * 65536) % 2 ^ 32 ∧
      t.rd .TR_RSP 0 1 = payload.length % 2 ^ 32 ∧
      ∀ w < (payload.length + 3) / 4, t.rd .TR_RSP 0 (2 + w) = leAt payload (4 * w) 4 := by
  obtain ⟨hhead, hother, hcode, hlength⟩ := run_hostHead hs code st payload .TR_DONE 0 0
  have hwords := run_sound (Act.upTo ((payload.length + 3) / 4) fun w => .set .TR_RSP 0 (2 + w) (leAt payload (4 * w) 4)) hhead
  simp only [hostResponse, run_all_cons, run_all_nil] at hhead hother hcode hlength hwords ⊢
  simp only [rd_run_set hwords]
  refine ⟨?_, if_pos (by decide), ?_, ?_, fun w hw => ?_⟩
  · rw [if_neg (by decide), rd_upTo_set_other hhead (by simp), hother (by decide)]
  · rw [if_neg (by decide), rd_upTo_set_other hhead (by omega), hcode]
  · rw [if_neg (by decide), rd_upTo_set_other hhead (by omega), hlength]
  · rw [if_neg (by simp), rd_upTo_set hhead (add_right_injective 2) hw]
    exact Nat.mod_eq_of_lt leAt_lt

omit hs in
theorem run_respond_host : (respond .host code st payload).run s =
    (bellRing 0 0x0A0).run ((hostResponse code st payload).run ((Act.inc .TR_DONE 0).run s)) := by
  simp only [respond, answer, hostResponse, run_seq, run_all_cons, run_all_nil]

theorem replied_host : s.Replied ((respond .host code st payload).run s) .host code st payload := by
  have hdone : ((Act.inc .TR_DONE 0).run s).Sound := run_sound _ hs
  have hrung := rung (run_sound (hostResponse code st payload) hdone) 0 0x0A0
  have hread : ∀ f i, f ∈ [Fld.TR_DONE, .TR_STATE, .TR_RSP] → ((respond .host code st payload).run s).rd f 0 i =
      ((hostResponse code st payload).run ((Act.inc .TR_DONE 0).run s)).rd f 0 i := by
    intro f i hf
    rw [run_respond_host]
    exact hrung.reg .vis f 0 i (by revert f; decide)
  obtain ⟨hcount, hstate, hhead, hlength, hwords⟩ := run_hostResponse hdone code st payload
  refine ⟨?_, ?_, ?_, ?_, fun j hj _ => ?_⟩ <;> rw [hread _ _ (by decide)]
  · exact hcount.trans ((rd_run_inc hs ..).trans (if_pos ⟨rfl, rfl, rfl⟩))
  · exact hstate
  · exact hhead
  · exact hlength
  · rw [hwords _ (by omega), bits_leAt_four _ _ (Nat.mod_lt j (by decide)), Nat.div_add_mod]

theorem replied_respond (src : TransomSource) : s.Replied ((respond src code st payload).run s) src code st payload := by
  cases src with
  | net secured v6 peer remote port dg => exact replied_net hs code st payload secured v6 peer remote port dg
  | host => exact replied_host hs code st payload

theorem answered_respond (src : TransomSource) : Answered s ((respond src code st payload).run s) src code st payload := by
  obtain ⟨hr, hm, hc, ha⟩ := within_run (respond_answer src code st payload) bellReach_refl bellReach_trans hs
  exact ⟨run_sound _ hs, replied_respond hs code st payload src, fun l f d i hf => hr l f d i hf,
    ⟨fun j => hm j id, fun j => hc j id⟩, ha⟩

end respond

/-- A request stays answered as long as the response stands, and no more goes out. -/
theorem replied_congr {s u t t' : State} {src : TransomSource} {code st : Nat} {payload : List Byte} (h : s.Replied t src code st payload)
    (hs : u.rd .TR_DONE 0 = s.rd .TR_DONE 0) (hrd : ∀ f i, f ∈ [Fld.TR_DONE, .TR_STATE, .TR_RSP] → t'.rd f 0 i = t.rd f 0 i)
    (hout : t'.aux.outputs = t.aux.outputs) : u.Replied t' src code st payload := by
  obtain ⟨hdone, hrest⟩ := h
  refine ⟨by rw [hrd _ _ (by decide), hs, hdone], ?_⟩
  cases src with
  | net secured v6 peer remote port dg => exact hout ▸ hrest
  | host =>
    obtain ⟨hstate, hhead, hlength, hwords⟩ := hrest
    exact ⟨by rw [hrd _ _ (by decide), hstate], by rw [hrd _ _ (by decide), hhead], by rw [hrd _ _ (by decide), hlength],
      fun j hj hmax => by rw [hrd _ _ (by decide), hwords j hj hmax]⟩

/-- An answer is counted from the state that the request met, when no effect before the answer counts one. -/
theorem replied_of_done {r s t : State} {src : TransomSource} {code st : Nat} {payload : List Byte} (h : s.Replied t src code st payload)
    (hr : r.rd .TR_DONE 0 = s.rd .TR_DONE 0) : r.Replied t src code st payload :=
  replied_congr h hr (fun _ _ _ => rfl) rfl

namespace Answered
variable {s t : State} {src : TransomSource} {code st : Nat} {payload : List Byte} (h : Answered s t src code st payload)
include h

theorem rd {f : Fld} (hf : f ∉ answerFields) (d i : Nat) : t.rd f d i = s.rd f d i := h.reg .vis f d i hf

/-- The answer to a request whose effect did not answer others. -/
theorem replied_from {r : State} (hr : r.rd .TR_DONE 0 = s.rd .TR_DONE 0) : r.Replied t src code st payload :=
  replied_of_done h.replied hr

/-- Writes of registers that are not part of an answer leave it as it is. -/
theorem later {fs : List Fld} {a : Act} (ha : Within (fieldsOnly fs) a) (hfs : ∀ f ∈ [Fld.TR_DONE, .TR_STATE, .TR_RSP], f ∉ fs) :
    s.Replied (a.run t) src code st payload ∧ (∀ l f d i, f ∉ fs → f ∉ answerFields → (a.run t).reg l f d i = s.reg l f d i) ∧
      s.SameBytes (a.run t) := by
  obtain ⟨hreg, hbytes, haux⟩ := run_fieldsOnly ha h.sound
  exact ⟨replied_congr h.replied rfl (fun f i hf => hreg .vis f 0 i (hfs f hf)) (by rw [haux]),
    fun l f d i hf hf' => (hreg l f d i hf).trans (h.reg l f d i hf'),
    fun j => (hbytes.1 j).trans (h.bytes.1 j), fun j => (hbytes.2 j).trans (h.bytes.2 j)⟩

/-- So does a fresh nonce (R738). -/
theorem nonce (b : Bool) : Answered s ((Act.when b newNonce).run t) src code st payload := by
  obtain ⟨hreplied, hreg, hbytes⟩ := h.later (newNonce_fields b) (by decide)
  refine ⟨run_sound _ h.sound, hreplied, fun l f d i hf => hreg l f d i (fun hn => hf (List.mem_singleton.1 hn ▸ by decide)) hf, hbytes, ?_⟩
  exact (run_fieldsOnly (newNonce_fields b) h.sound).2.2 ▸ h.aux

end Answered

/-! ### Requests that are served and requests that are turned away (17 R735 to R742) -/

/-- The command is signed. -/
def isSigned (c : Command) : Bool := c.signing != .none

/-- Code, signature, and where and when the command is served. -/
def commandKind (c : Command) : Nat × Bool × Bool × Bool := (c.code, isSigned c, c.bootstrap, c.decommOk)

/-- The same of a row of the table. -/
def rowKind (row : TransomRow) : Nat × Bool × Bool × Bool := (row.code, row.signing, row.bootstrap, row.decomm)

/-- The command is a row of the table of R739; only CLAIM is signed by the key that it brings. -/
structure Tabled (c : Command) : Prop where
  row : commandKind c ∈ transomTable.map rowKind
  self : c.signing = .self ↔ c.code = 0x10

/-- The codes of the table are different. -/
theorem rowKind_of_code : ∀ p ∈ transomTable.map rowKind, ∀ q ∈ transomTable.map rowKind, p.1 = q.1 → p = q := by decide

theorem Tabled.kind {c : Command} (hc : Tabled c) {row : TransomRow} (hrow : row ∈ transomTable) (hcode : row.code = c.code) :
    row.signing = isSigned c ∧ row.bootstrap = c.bootstrap ∧ row.decomm = c.decommOk := by
  have h := rowKind_of_code _ (List.mem_map_of_mem hrow) _ hc.row hcode
  simpa [rowKind, commandKind, hcode] using h

section serve
variable {s : State} {src : TransomSource} {c : Command} {r : Request} {act : Reply → List Byte → Act}

theorem run_serve_none (h : s.request src = none) : (serve c src act).run s = s := by
  rw [serve, run_get, h]
  rfl

theorem run_serve_other (h : s.request src = some r) (hcode : r.code ≠ c.code) : (serve c src act).run s = s := by
  rw [serve, run_get, h]
  simp only [beq_false_of_ne hcode, run_when_false]

section taken
variable (h : s.request src = some r) (hcode : r.code = c.code) (hfree : srcNet src = true → s.rd .TR_STATE 0 ≠ 1)
include h hcode hfree

theorem run_serve_turned {st : Nat} (hst : c.turnedAway s src r = some st) :
    (serve c src act).run s = (Act.when (isSigned c) newNonce).run ((respond src c.code st []).run s) := by
  have hbusy : ¬ (srcNet src && s.rd .TR_STATE 0 == 1) = true := by simpa using hfree
  rw [serve, run_get, h]
  simp only [hcode, beq_self_eq_true, run_when_true, if_neg hbusy, hst, run_seq]
  rfl

theorem run_serve_taken (hst : c.turnedAway s src r = none) : (serve c src act).run s =
    (Act.when (isSigned c) newNonce).run ((act (respond src c.code) (c.body r.payload)).run s) := by
  have hbusy : ¬ (srcNet src && s.rd .TR_STATE 0 == 1) = true := by simpa using hfree
  rw [serve, run_get, h]
  simp only [hcode, beq_self_eq_true, run_when_true, if_neg hbusy, hst, run_seq]
  rfl

end taken

/-- What a served request brings, the command's own test of its length aside. -/
theorem served_taken {body : List Byte} (hc : Tabled c) (h : s.served src c.code body) (hlen : c.lengthOk body.length = true) :
    ∃ r, s.request src = some r ∧ r.code = c.code ∧ (srcNet src = true → s.rd .TR_STATE 0 ≠ 1) ∧ c.body r.payload = body ∧
      c.turnedAway s src r = none := by
  obtain ⟨r, row, hreq, hwhole, hcode, hrow, hrowCode, hfree, hdecomm, hopen, hplain, hsigned⟩ := h
  obtain ⟨hsigning, hboot, hdec⟩ := hc.kind hrow hrowCode
  rw [hdec] at hdecomm
  rw [hboot] at hopen
  rw [hsigning] at hplain hsigned
  have hbody : c.body r.payload = body ∧ (isSigned c = true → 96 ≤ r.payload.length) ∧ c.verified s r.payload = true := by
    rw [isSigned] at hplain hsigned
    cases hs : c.signing with
    | none =>
      have hpayload := hplain (by rw [hs]; rfl)
      simp [Command.body, Command.verified, isSigned, hs, hpayload]
    | owner =>
      obtain ⟨sig, hsig, hpayload, hverified⟩ := hsigned (by rw [hs]; rfl)
      rw [if_neg fun e => by simpa [hs] using hc.self.2 e] at hverified
      simpa [Command.body, Command.verified, isSigned, hs, hpayload, hsig] using hverified
    | self =>
      obtain ⟨sig, hsig, hpayload, hverified⟩ := hsigned (by rw [hs]; rfl)
      rw [if_pos (hc.self.1 hs)] at hverified
      simpa [Command.body, Command.verified, isSigned, hs, hpayload, hsig] using hverified
  obtain ⟨hbody, hlong, hverified⟩ := hbody
  refine ⟨r, hreq, hcode, hfree, hbody, ?_⟩
  rw [Command.turnedAway, if_neg, if_neg, if_neg, if_neg]
  · simp [hverified]
  · simpa [hwhole, hbody, hlen, isSigned] using hlong
  · simp only [Bool.and_eq_true, Bool.not_eq_true', not_and, Bool.not_eq_false, and_imp]
    exact fun ho hb => (hopen ho).resolve_left (by simp [hb])
  · simpa using hdecomm

/-- A served request runs the command's effect, and a signed one draws a nonce after it (R738). -/
theorem run_served {body : List Byte} (hc : Tabled c) (h : s.served src c.code body) (hlen : c.lengthOk body.length = true) :
    (serve c src act).run s = (Act.when (isSigned c) newNonce).run ((act (respond src c.code) body).run s) := by
  obtain ⟨r, hreq, hcode, hfree, hbody, hst⟩ := served_taken hc h hlen
  rw [run_serve_taken hreq hcode hfree hst, hbody]

end serve

theorem tabled_of {c : Command} (h : decide (commandKind c ∈ transomTable.map rowKind ∧ (c.signing = .self ↔ c.code = 0x10)) = true) :
    Tabled c := by
  obtain ⟨hrow, hself⟩ := of_decide_eq_true h
  exact ⟨hrow, hself⟩

/-! ### What the statement asks of a request -/

/-- A request is turned away with a status. -/
def Turned (s : State) (src : TransomSource) (k : Instr) (code st : Nat) : Prop :=
  Runs k s fun t => s.Replied t src code st [] ∧ s.SameBytes t

/-- A request is answered with OK, after an effect. -/
def Acts (s : State) (src : TransomSource) (k : Instr) (code : Nat) (P : State → Prop) : Prop :=
  Runs k s fun t => s.Replied t src code stOk [] ∧ P t

/-- A request is answered with OK and a report. -/
def Reports (s : State) (src : TransomSource) (k : Instr) (code : Nat) (P : List Byte → Prop) : Prop :=
  Runs k s fun t => s.SameBytes t ∧ ∃ bs, P bs ∧ s.Replied t src code stOk bs

section outcome
variable {k : Instr} {s : State} {src : TransomSource} {c : Command} {act : Reply → List Byte → Act}
  (hk : exec k s = (serve c src act).done s)
include hk

theorem next_of_unsent (h : s.request src = none) : exec k s = .next s := by
  rw [hk, done_eq, run_serve_none h]

theorem next_of_other {r : Request} (h : s.request src = some r) (hcode : r.code ≠ c.code) : exec k s = .next s := by
  rw [hk, done_eq, run_serve_other h hcode]

theorem turned_of_request (hs : s.Sound) {r : Request} (h : s.request src = some r) (hcode : r.code = c.code)
    (hfree : srcNet src = true → s.rd .TR_STATE 0 ≠ 1) {st : Nat} (hst : c.turnedAway s src r = some st) : Turned s src k c.code st := by
  have ht := (answered_respond hs c.code st [] src).nonce (isSigned c)
  exact ⟨_, by rw [hk, done_eq, run_serve_turned h hcode hfree hst], ht.replied, ht.bytes⟩

section served
variable {body : List Byte} (h : s.served src c.code body) (hc : Tabled c) (hlen : c.lengthOk body.length = true)
include h hc hlen

/-- A request whose effect ends with an answer. -/
theorem runs_answered {u : State} {st : Nat} {payload : List Byte}
    (hrun : (act (respond src c.code) body).run s = (respond src c.code st payload).run u) (hu : u.Sound)
    {P : State → Prop} (hP : ∀ t, Answered u t src c.code st payload → P t) : Runs k s P :=
  ⟨_, by rw [hk, done_eq, run_served hc h hlen, hrun], hP _ ((answered_respond hu c.code st payload src).nonce _)⟩

theorem turned_answered {u : State} {st : Nat} (hrun : (act (respond src c.code) body).run s = (respond src c.code st []).run u)
    (hu : u.Sound) (hdone : u.rd .TR_DONE 0 = s.rd .TR_DONE 0) (hbytes : s.SameBytes u) : Turned s src k c.code st :=
  runs_answered hk h hc hlen hrun hu fun _ ht => ⟨ht.replied_from hdone.symm, fun a => (ht.bytes.1 a).trans (hbytes.1 a),
    fun a => (ht.bytes.2 a).trans (hbytes.2 a)⟩

theorem reports_answered {u : State} {bs : List Byte} {P : List Byte → Prop}
    (hrun : (act (respond src c.code) body).run s = (respond src c.code stOk bs).run u) (hu : u.Sound) (hregs : u.regs = s.regs)
    (hbytes : s.SameBytes u) (hP : P bs) : Reports s src k c.code P := by
  refine runs_answered hk h hc hlen hrun hu fun t ht => ⟨⟨fun a => (ht.bytes.1 a).trans (hbytes.1 a),
    fun a => (ht.bytes.2 a).trans (hbytes.2 a)⟩, bs, hP, ht.replied_from ?_⟩
  exact (reg_of_regs hregs ..).symm

theorem acts_answered {u : State} {P : State → Prop} (hrun : (act (respond src c.code) body).run s = (respond src c.code stOk []).run u)
    (hu : u.Sound) (hdone : u.rd .TR_DONE 0 = s.rd .TR_DONE 0) (hP : ∀ t, Answered u t src c.code stOk [] → P t) :
    Acts s src k c.code P :=
  runs_answered hk h hc hlen hrun hu fun t ht => ⟨ht.replied_from hdone.symm, hP t ht⟩

end served
end outcome

/-! ### Reports (17 R728, R733, R739) -/

/-- Words of the Fuse block as GET_INFO sends them, the random word last. -/
def infoFuses (s : State) (v : Nat) : List Byte :=
  ((List.range 49).flatMap fun w => toLe 4 (s.register 0 (0xE0000 + 4 * w))) ++ toLe 4 v

theorem length_infoFuses (s : State) (v : Nat) : (infoFuses s v).length = 200 := by
  rw [infoFuses, List.length_append, length_flatMap_range fun _ => length_toLe .., length_toLe]

theorem leAt_infoFuses (s : State) (v : Nat) : leAt (infoFuses s v) 0 4 = s.register 0 0xE0000 % 2 ^ 32 := by
  rw [infoFuses, List.range_succ_eq_map, List.flatMap_cons, List.append_assoc, leAt_toLe_append]
  rfl

theorem length_cfgBytes (s : State) (a n : Nat) : (s.cfgBytes a n).length = n := length_sparseRead

/-- What GET_PARTS says of a partition. -/
def partReport (s : State) (p : Nat) : List Byte :=
  toLe 1 (s.rd .PT_STATE 0 p) ++ toLe 1 (if s.rd .PT_STATE 0 p == 4 then stNoFit else 0) ++ toLe 2 (s.rd .I_PT_VARIANT 0 p + 2 ^ 16 - 1) ++
    toLe 4 (s.rd .PT_EPOCH 0 p)

theorem length_partReport (s : State) (p : Nat) : (partReport s p).length = 8 := by simp [partReport, length_toLe]

theorem partReport_fields {s : State} (hs : s.Sound) (p : Nat) (rest : List Byte) :
    byteAt (partReport s p ++ rest) 0 = s.rd .PT_STATE 0 p ∧
    byteAt (partReport s p ++ rest) 1 = (if s.rd .PT_STATE 0 p = 4 then stNoFit else 0) ∧
    leAt (partReport s p ++ rest) 4 4 = s.rd .PT_EPOCH 0 p := by
  have hstate : s.rd .PT_STATE 0 p < 256 := (reg_lt hs .vis .PT_STATE 0 p).trans (by decide)
  have hepoch : s.rd .PT_EPOCH 0 p < 256 ^ 4 := reg_lt hs .vis .PT_EPOCH 0 p
  simp (disch := decide) only [partReport, List.append_assoc, leAt_toLe_skip, byteAt_toLe_skip, Nat.reduceSub, leAt_toLe_append,
    byteAt_toLe_append, Nat.mod_eq_of_lt hstate, Nat.mod_eq_of_lt hepoch, true_and, and_true]
  by_cases hfit : s.rd .PT_STATE 0 p = 4 <;> simp [hfit, stNoFit]

/-- An attestation report before its signature. -/
def attestBody (s : State) (i : Image) (nonce : List Byte) (first : Nat) : List Byte :=
  let es := (i.sections.drop first).take 56
  toLe 2 1 ++ toLe 1 (s.rd .FUSE_ORDER 0) ++ toLe 1 (s.rd .FUSE_SEALED 0 + 2 * s.rd .SEC_TRIAL 0 + bitIf s.fenced 2) ++ toLe 4 first ++
    toLe 4 es.length ++ toLe 4 i.sections.length ++ nonce ++ s.fuseHash .FUSE_DEV_HASH ++ s.fuseHash .FUSE_OWNER_HASH ++
    (i.manHash ++ i.fwHash) ++ ((List.range 16).flatMap fun w => toLe 4 (s.rd .FUSE_RB 0 w)) ++ toLe 8 (s.now 0) ++ List.replicate 56 0 ++
    es.flatMap s.attestEntry

theorem attestReport_eq {s : State} {i : Image} (hi : s.aux.image = some i) (nonce : List Byte) (first : Nat) :
    s.attestReport nonce first (i.manHash ++ i.fwHash) =
      attestBody s i nonce first ++ Config.identitySign (Config.sha384 (attestBody s i nonce first)) := by
  simp only [State.attestReport, hi]
  rfl

theorem attestBody_fields (s : State) (i : Image) {nonce : List Byte} (hnonce : nonce.length = 48) {first : Nat} (hfirst : first < 2 ^ 32) :
    let r := attestBody s i nonce first
    leAt r 0 2 = 1 ∧ leAt r 4 4 = first ∧ leAt r 12 4 = i.sections.length % 2 ^ 32 ∧ cut r 16 48 = nonce := by
  have hcut (rest : List Byte) : cut (nonce ++ rest) 0 48 = nonce := cut_append_self hnonce
  simp (disch := decide) only [attestBody, List.append_assoc, leAt_toLe_skip, cut_toLe_skip, Nat.reduceSub, leAt_toLe_append, hcut,
    Nat.mod_eq_of_lt (show first < 256 ^ 4 from hfirst)]
  exact ⟨rfl, trivial, rfl, trivial⟩

section reports
variable {s : State} {src : TransomSource} (hs : s.Sound)
include hs

theorem getInfo_reports (h : s.served src 0x01 []) : Reports s src (.getInfo src) 0x01 fun bs =>
    bs.length = 376 ∧ bs.drop 200 = s.cfgBytes 0 64 ++ s.cfgBytes 0x1000 64 ++ s.nonce ∧ leAt bs 0 4 = s.register 0 0xE0000 % 2 ^ 32 := by
  have hk : exec (.getInfo src) s = (serve ⟨0x01, .none, true, true, fun n => n == 0⟩ src _).done s := rfl
  have hfuses := length_infoFuses s (Config.random s.fresh)
  have hnonce : s.nonce.length = 48 := length_flatMap_range (fun _ => length_toLe ..) 12
  refine reports_answered hk h (tabled_of rfl) rfl (u := Eff.drawn.apply s) rfl (apply_sound _ hs) rfl (sameBytes_of_eq rfl rfl) ?_
  show ((infoFuses s (Config.random s.fresh) ++ s.cfgBytes 0 64 ++ s.cfgBytes 0x1000 64 ++ s.nonce).length = 376 ∧
    (infoFuses s (Config.random s.fresh) ++ s.cfgBytes 0 64 ++ s.cfgBytes 0x1000 64 ++ s.nonce).drop 200 = _ ∧
    leAt (infoFuses s (Config.random s.fresh) ++ s.cfgBytes 0 64 ++ s.cfgBytes 0x1000 64 ++ s.nonce) 0 4 = _)
  rw [List.append_assoc, List.append_assoc, ← List.append_assoc (s.cfgBytes 0 64)]
  refine ⟨?_, ?_, ?_⟩
  · simp only [List.length_append, hfuses, hnonce, length_cfgBytes]
  · rw [List.drop_append_of_le_length hfuses.ge, List.drop_of_length_le hfuses.le, List.nil_append]
  · rw [leAt_append_left (by omega), leAt_infoFuses]

theorem getCert_reports (h : s.served src 0x02 []) : Reports s src (.getCert src) 0x02 fun bs =>
    bs = s.cfgBytes (keyBase + 2) (min (leNat (s.cfgBytes keyBase 2)) 4088) := by
  have hk : exec (.getCert src) s = (serve ⟨0x02, .none, true, true, fun n => n == 0⟩ src _).done s := rfl
  exact reports_answered hk h (tabled_of rfl) rfl rfl hs rfl (sameBytes_refl s) rfl

theorem attest_reports {nonce : List Byte} {first : Nat} {i : Image} (h : s.served src 0x03 (nonce ++ toLe 4 first))
    (hnonce : nonce.length = 48) (hfirst : first < 2 ^ 32) (hi : s.aux.image = some i) :
    Reports s src (.attest src) 0x03 fun bs => ∃ r, bs = r ++ Config.identitySign (Config.sha384 r) ∧ leAt r 0 2 = 1 ∧ leAt r 4 4 = first ∧
      leAt r 12 4 = i.sections.length % 2 ^ 32 ∧ cut r 16 48 = nonce := by
  have hk : exec (.attest src) s = (serve ⟨0x03, .none, true, false, fun n => n == 52⟩ src _).done s := rfl
  have hargs : (nonce ++ toLe 4 first).take 48 = nonce ∧ leAt (nonce ++ toLe 4 first) 48 4 = first :=
    by
    rw [List.take_left' hnonce, leAt_append_right hnonce.le, hnonce, leAt_toLe]
    exact ⟨rfl, Nat.mod_eq_of_lt hfirst⟩
  refine reports_answered hk h (tabled_of rfl) (by simp [length_toLe, hnonce]) (u := s) ?_ hs rfl (sameBytes_refl s)
    ⟨attestBody s i nonce first, rfl, attestBody_fields s i hnonce hfirst⟩
  simp only [run_get, hi, hargs, attestReport_eq hi]

theorem getParts_reports (h : s.served src 0x04 []) : Reports s src (.getParts src) 0x04 fun bs => bs.length = 64 ∧
    ∀ p < 8, byteAt bs (8 * p) = s.rd .PT_STATE 0 p ∧ byteAt bs (8 * p + 1) = (if s.rd .PT_STATE 0 p = 4 then stNoFit else 0) ∧
      leAt bs (8 * p + 4) 4 = s.rd .PT_EPOCH 0 p := by
  have hk : exec (.getParts src) s = (serve ⟨0x04, .none, false, false, fun n => n == 0⟩ src _).done s := rfl
  refine reports_answered hk h (tabled_of rfl) rfl (u := s) (bs := (List.range 8).flatMap (partReport s)) rfl hs rfl (sameBytes_refl s)
    ⟨length_flatMap_range (length_partReport s) 8, fun p hp => ?_⟩
  obtain ⟨rest, hrest⟩ := drop_flatMap_range (length_partReport s) hp
  rw [← Nat.add_zero (8 * p), Nat.add_assoc, Nat.add_assoc, ← byteAt_drop, ← byteAt_drop, ← leAt_drop, hrest]
  exact partReport_fields hs p rest

theorem readLog_reports {first n : Nat} (h : s.served src 0x05 (toLe 4 first ++ toLe 4 n)) (hfirst : first < 2 ^ 32) (hn : n ≤ 120) :
    Reports s src (.readLog src) 0x05 fun bs => bs = ((List.range n).filterMap fun k => s.logRecord (first + k)).flatten := by
  have hk : exec (.readLog src) s = (serve ⟨0x05, .none, false, false, fun n => n == 8⟩ src _).done s := rfl
  have hargs : leAt (toLe 4 first ++ toLe 4 n) 0 4 = first ∧ leAt (toLe 4 first ++ toLe 4 n) 4 4 = n :=
    ⟨leAt_toLe_append.trans (Nat.mod_eq_of_lt hfirst),
      (leAt_toLe_skip le_rfl).trans (leAt_toLe.trans (Nat.mod_eq_of_lt (hn.trans_lt (by decide))))⟩
  refine reports_answered hk h (tabled_of rfl) (by simp [length_toLe]) (u := s) ?_ hs rfl (sameBytes_refl s) rfl
  simp only [run_get, hargs, if_neg (not_lt.2 hn)]

end reports

/-! ### The configuration store -/

theorem cfgBytes_eq {s : State} (hs : s.Sound) (a n : Nat) : s.cfgBytes a n = (List.range' a n).map s.cfgByte := sparseRead_eq hs.2.2

/-- Bytes that read alike one by one read alike together. -/
theorem cfgBytes_congr {s t : State} (hs : s.Sound) (ht : t.Sound) {a n : Nat} (h : ∀ j, a ≤ j → j < a + n → t.cfgByte j = s.cfgByte j) :
    t.cfgBytes a n = s.cfgBytes a n := by
  rw [cfgBytes_eq hs, cfgBytes_eq ht]
  refine List.map_congr_left fun j hj => ?_
  obtain ⟨i, hi, rfl⟩ := List.mem_range'.1 hj
  exact h _ (by omega) (by omega)

theorem cfgBytes_run_cfgPut {s : State} (hs : s.Sound) (a : Nat) (bs : List Byte) :
    ((Act.cfgPut a bs).run s).cfgBytes a bs.length = bs := by
  rw [cfgBytes_eq (run_sound _ hs)]
  refine List.ext_getElem (by simp) fun i hi hb => ?_
  rw [List.getElem_map, List.getElem_range', cfgByte_run_cfgPut hs, if_pos (by omega), show a + 1 * i - a = i by omega,
    List.getElem?_eq_getElem hb]
  rfl

theorem Answered.cfgBytes {s t : State} {src : TransomSource} {code st : Nat} {payload : List Byte} (h : Answered s t src code st payload)
    (hs : s.Sound) (a n : Nat) : t.cfgBytes a n = s.cfgBytes a n := cfgBytes_congr hs h.sound fun j _ _ => h.bytes.2 j

/-! ### Ownership (17 R729, R730) -/

/-- The owner's hash is blown, and then that there is an owner. -/
def blowOwner (hash : List Byte) : Act :=
  .seq (.upTo 12 fun w => .set .FUSE_OWNER_HASH 0 w (leAt hash (4 * w) 4)) (.set .FUSE_OWNED 0 0 1)

section ownership
variable {s : State} {src : TransomSource} (hs : s.Sound)
include hs

theorem claim_owned {key : List Byte} (h : s.served src 0x10 key) (hkey : key ≠ []) (howned : s.on .FUSE_OWNED 0 = true) :
    Turned s src (.claim src) 0x10 stOwned := by
  have hk : exec (.claim src) s = (serve ⟨0x10, .self, true, false, fun n => n != 0⟩ src _).done s := rfl
  refine turned_answered hk h (tabled_of rfl) (by simpa using hkey) (u := s) ?_ hs rfl (sameBytes_refl s)
  simp only [run_get, howned, if_true]

theorem claim_acts {key : List Byte} (h : s.served src 0x10 key) (hkey : key ≠ []) (howned : s.on .FUSE_OWNED 0 = false) :
    Acts s src (.claim src) 0x10 fun t => t.rd .FUSE_OWNED 0 = 1 ∧
      ∀ w < 12, t.rd .FUSE_OWNER_HASH 0 w = leAt (Config.sha384 key) (4 * w) 4 := by
  have hk : exec (.claim src) s = (serve ⟨0x10, .self, true, false, fun n => n != 0⟩ src _).done s := rfl
  have hhash := run_sound (Act.upTo 12 fun w => .set .FUSE_OWNER_HASH 0 w (leAt (Config.sha384 key) (4 * w) 4)) hs
  refine acts_answered hk h (tabled_of rfl) (by simpa using hkey) (u := (blowOwner (Config.sha384 key)).run s) ?_ (run_sound _ hs) ?_
    fun t ht => ⟨?_, fun w hw => ?_⟩
  · simp only [run_get, howned, Bool.false_eq_true, if_false, run_all_cons, run_all_nil, blowOwner, run_seq]
  · rw [blowOwner, run_seq, rd_run_set hhash, if_neg (by decide), rd_upTo_set_other hs (by simp)]
  · rw [ht.rd (by decide), blowOwner, run_seq, rd_run_set hhash, if_pos (by decide)]
    rfl
  · rw [ht.rd (by decide), blowOwner, run_seq, rd_run_set hhash, if_neg (by simp)]
    exact (rd_upTo_set (idx := fun w => w) hs Function.injective_id hw).trans (Nat.mod_eq_of_lt leAt_lt)

theorem provision_acts {n : Nat} {blob k : List Byte} (h : s.served src 0x11 (toLe 4 n ++ blob)) (hn : n < 18) (hblob : blob ≠ [])
    (hopen : Config.openProvision blob = some k) : Acts s src (.provision src) 0x11 fun t =>
      let w := Config.wrapSecret s.decommissioned k
      t.cfgBytes (secretBase + 256 * n) 256 = (toLe 2 w.length ++ w ++ List.replicate 256 0).take 256 := by
  have hk : exec (.provision src) s = (serve ⟨0x11, .owner, true, false, fun n => decide (4 < n)⟩ src _).done s := rfl
  have hplace : leAt (toLe 4 n ++ blob) 0 4 = n := leAt_toLe_append.trans (Nat.mod_eq_of_lt (hn.trans (by decide)))
  have hrest : (toLe 4 n ++ blob).drop 4 = blob := List.drop_left' (length_toLe 4 n)
  refine acts_answered hk h (tabled_of rfl) (by simpa [length_toLe, List.length_pos_iff] using hblob)
    (u := (putSecret n (Config.wrapSecret s.decommissioned k)).run s) ?_ (run_sound _ hs) rfl fun t ht => ?_
  · simp only [run_get, hplace, if_neg (Nat.not_le.2 hn), hrest, hopen, run_seq]
  · have hlen : ((toLe 2 (Config.wrapSecret s.decommissioned k).length ++ Config.wrapSecret s.decommissioned k ++
        List.replicate 256 0).take 256).length = 256 := by
      rw [List.length_take, List.length_append, List.length_replicate]
      omega
    have hread := cfgBytes_run_cfgPut hs (secretBase + 256 * n) ((toLe 2 (Config.wrapSecret s.decommissioned k).length ++
      Config.wrapSecret s.decommissioned k ++ List.replicate 256 0).take 256)
    rw [hlen] at hread
    exact (ht.cfgBytes (run_sound _ hs) ..).trans hread

end ownership

/-! ### The directory (17 R713 to R715) -/

/-- The fields of a directory have the size that its bytes give them, and its slots lie inside the store, apart from each other. -/
structure DirectoryFits (store : Nat) (d : Directory) : Prop where
  dseq : d.dseq < 256 ^ 4
  active : d.active < 256
  trial : d.trial < 256
  tries : d.tries < 256
  baseA : d.baseA < 256 ^ 8
  sizeA : d.sizeA < 256 ^ 8
  baseB : d.baseB < 256 ^ 8
  sizeB : d.sizeB < 256 ^ 8
  slotA : slotOk store d.baseA d.sizeA = true
  slotB : slotOk store d.baseB d.sizeB = true
  apart : rangesMeet d.baseA d.sizeA d.baseB d.sizeB = false

/-- The store's size as the directory is held against it. -/
def storeSize (s : State) : Nat := s.rd .I_STORE_MIB 0 * mib

theorem directoryCopy_fits {s : State} {c : Nat} {d : Directory} (h : s.directoryCopy c = some d) :
    d.copy = c ∧ DirectoryFits (storeSize s) d := by
  simp only [State.directoryCopy, Option.ite_none_right_eq_some, Bool.and_eq_true, Bool.not_eq_true', Option.some.injEq] at h
  obtain ⟨⟨⟨⟨_, hA⟩, hB⟩, hapart⟩, rfl⟩ := h
  exact ⟨rfl, leAt_lt, byteAt_lt, byteAt_lt, byteAt_lt, leAt_lt, leAt_lt, leAt_lt, leAt_lt, hA, hB, hapart⟩

/-- The directory in use is a valid copy. -/
theorem directory_copy {s : State} {d : Directory} (h : s.directory = some d) :
    s.directoryCopy d.copy = some d ∧ (d.copy = 0 ∨ d.copy = 1) := by
  have hvalid : s.directoryCopy 0 = some d ∨ s.directoryCopy 1 = some d := by
    rw [State.directory] at h
    split at h
    · next a b h0 h1 =>
      split at h
      · exact .inr (h1.trans h)
      · exact .inl (h0.trans h)
    · next a h0 h1 => exact .inl (h0.trans h)
    · exact .inr h
  rcases hvalid with hc | hc <;> have hcopy := (directoryCopy_fits hc).1
  · exact ⟨hcopy ▸ hc, .inl hcopy⟩
  · exact ⟨hcopy ▸ hc, .inr hcopy⟩

theorem directory_fits {s : State} {d : Directory} (h : s.directory = some d) : DirectoryFits (storeSize s) d :=
  (directoryCopy_fits (directory_copy h).1).2

/-- The bytes of a directory before its check. -/
def directoryHead (d : Directory) : List Byte :=
  toLe 2 0x5844 ++ toLe 2 0 ++ toLe 4 d.dseq ++ toLe 1 d.active ++ toLe 1 d.trial ++ toLe 1 d.tries ++ toLe 5 0 ++
    toLe 8 d.baseA ++ toLe 8 d.sizeA ++ toLe 8 d.baseB ++ toLe 8 d.sizeB ++ toLe 12 0

theorem directoryBytes_eq (d : Directory) : d.bytes = directoryHead d ++ toLe 4 (crc32c (directoryHead d)) := rfl

theorem length_directoryHead (d : Directory) : (directoryHead d).length = 60 := by simp [directoryHead, length_toLe]

theorem length_directoryBytes (d : Directory) : d.bytes.length = 64 := by
  rw [directoryBytes_eq, List.length_append, length_directoryHead, length_toLe]

/-- A directory's fields read back from its bytes. -/
theorem directoryBytes_fields {store : Nat} {d : Directory} (h : DirectoryFits store d) :
    leAt d.bytes 0 2 = 0x5844 % 256 ^ 2 ∧ leAt d.bytes 4 4 = d.dseq ∧ byteAt d.bytes 8 = d.active ∧ byteAt d.bytes 9 = d.trial ∧
      byteAt d.bytes 10 = d.tries ∧ leAt d.bytes 16 8 = d.baseA ∧ leAt d.bytes 24 8 = d.sizeA ∧ leAt d.bytes 32 8 = d.baseB ∧
      leAt d.bytes 40 8 = d.sizeB := by
  simp (disch := decide) only [directoryBytes_eq, directoryHead, List.append_assoc, leAt_toLe_skip, byteAt_toLe_skip, Nat.reduceSub,
    leAt_toLe_append, byteAt_toLe_append, Nat.mod_eq_of_lt h.dseq, Nat.mod_eq_of_lt h.active, Nat.mod_eq_of_lt h.trial,
    Nat.mod_eq_of_lt h.tries, Nat.mod_eq_of_lt h.baseA, Nat.mod_eq_of_lt h.sizeA, Nat.mod_eq_of_lt h.baseB, Nat.mod_eq_of_lt h.sizeB,
    and_self]

/-- So does its check. -/
theorem directoryBytes_check (d : Directory) : leAt d.bytes 60 4 = crc32c (d.bytes.take 60) := by
  rw [directoryBytes_eq, List.take_left' (length_directoryHead d), leAt_append_right (length_directoryHead d).le, length_directoryHead,
    leAt_toLe]
  exact Nat.mod_eq_of_lt (crc32c_lt _)

/-- A copy that holds the bytes of a fitting directory is valid, and is that directory. -/
theorem directoryCopy_of_bytes {s : State} {d : Directory} (h : DirectoryFits (storeSize s) d)
    (hbytes : s.cfgBytes (d.copy * 0x1000) 64 = d.bytes) : s.directoryCopy d.copy = some d := by
  obtain ⟨hmagic, hdseq, hactive, htrial, htries, hbaseA, hsizeA, hbaseB, hsizeB⟩ := directoryBytes_fields h
  have hstore : s.rd .I_STORE_MIB 0 * mib = storeSize s := rfl
  simp only [State.directoryCopy, hbytes, hmagic, directoryBytes_check, hstore, hdseq, hactive, htrial, htries, hbaseA, hsizeA, hbaseB,
    hsizeB, h.slotA, h.slotB, h.apart]
  exact if_pos (by simp)

theorem directoryCopy_congr {s t : State} {c : Nat} (hbytes : t.cfgBytes (c * 0x1000) 64 = s.cfgBytes (c * 0x1000) 64)
    (hstore : t.rd .I_STORE_MIB 0 = s.rd .I_STORE_MIB 0) : t.directoryCopy c = s.directoryCopy c := by
  simp only [State.directoryCopy, hbytes, hstore]

theorem directory_congr {s t : State} (hs : s.Sound) (ht : t.Sound) (hbytes : ∀ a, t.cfgByte a = s.cfgByte a)
    (hstore : t.rd .I_STORE_MIB 0 = s.rd .I_STORE_MIB 0) : t.directory = s.directory := by
  have hcopy (c : Nat) : t.directoryCopy c = s.directoryCopy c :=
    directoryCopy_congr (cfgBytes_congr hs ht fun j _ _ => hbytes j) hstore
  rw [State.directory, State.directory, hcopy, hcopy]

/-- The directory as it stands after a change: in the other copy, with DSEQ one higher. -/
def directoryAfter (e : Directory) : Directory := { e with copy := 1 - e.copy, dseq := e.dseq + 1 }

/-- A directory that has been changed in its state of trial is in use from then on. -/
theorem directory_writeDirectory {s : State} (hs : s.Sound) {d e : Directory} (hd : s.directory = some d) (hcopy : e.copy = d.copy)
    (hdseq : e.dseq = d.dseq) (hfits : DirectoryFits (storeSize s) (directoryAfter e)) :
    ((writeDirectory e).run s).directory = some (directoryAfter e) := by
  obtain ⟨hold, hcopies⟩ := directory_copy hd
  have hcfg (j : Nat) : ((writeDirectory e).run s).cfgByte j = _ := cfgByte_run_cfgPut hs _ _ j
  have hlen : ({ e with dseq := e.dseq + 1 } : Directory).bytes.length = 64 := length_directoryBytes _
  have hnew : ((writeDirectory e).run s).directoryCopy (1 - e.copy) = some (directoryAfter e) := by
    refine directoryCopy_of_bytes (d := directoryAfter e) hfits ?_
    have hread := cfgBytes_run_cfgPut hs ((1 - e.copy) * 0x1000) ({ e with dseq := e.dseq + 1 } : Directory).bytes
    rwa [hlen] at hread
  have hkept : ((writeDirectory e).run s).directoryCopy d.copy = some d := by
    refine (directoryCopy_congr (cfgBytes_congr hs (run_sound _ hs) fun j hlo hhi => ?_) rfl).trans hold
    rw [hcfg, hlen, if_neg (by omega)]
  have hlater : d.dseq < (directoryAfter e).dseq := by
    show d.dseq < e.dseq + 1
    omega
  rw [hcopy] at hnew
  rcases hcopies with h0 | h1
  · rw [h0] at hkept hnew
    rw [State.directory, hkept, hnew]
    exact if_pos hlater
  · rw [h1] at hkept hnew
    rw [State.directory, hkept, hnew]
    exact if_neg (by omega)

/-! ### Restarts as they are requested (18 R770) -/

/-- Registers that a request for a restart writes. -/
def restartFields : List Fld := [.I_RESTART_COLD, .I_RESTART_WARM, .I_RESTART_WARM_AT, .I_RESTART_PART, .I_RESTART_PART_AT, .PT_STATE]

theorem requestColdStart_fields : Within (fieldsOnly restartFields) requestColdStart := by
  simp (disch := decide) [requestColdStart]

theorem rd_requestColdStart {s : State} (hs : s.Sound) : (requestColdStart.run s).rd .I_RESTART_COLD 0 = 1 := by
  have hrest : Within (fieldsOnly [.I_RESTART_WARM, .I_RESTART_PART, .PT_STATE]) (.all [
      .set .I_RESTART_WARM 0 0 0,
      .upTo 8 fun p => .all [
        .set .I_RESTART_PART 0 p 0,
        .get fun t => .when (t.rd .PT_STATE 0 p != 0) (.set .PT_STATE 0 p 3)]]) := by
    simp (disch := decide)
  rw [requestColdStart, run_all_cons]
  refine ((run_fieldsOnly hrest (run_sound _ hs)).1 .vis .I_RESTART_COLD 0 0 (by decide)).trans ?_
  exact (rd_run_set hs ..).trans (if_pos ⟨rfl, rfl, rfl⟩)

/-- A cold start that a signed command requests after its answer, and the nonce after that. -/
def coldStartThenNonce : Act := .seq requestColdStart (.when true newNonce)

theorem coldStartThenNonce_fields : Within (fieldsOnly (.TR_NONCE :: restartFields)) coldStartThenNonce := by
  simp (disch := decide) [coldStartThenNonce, requestColdStart, newNonce]

/-! ### Image update (17 R715, R727) -/

theorem cfgByte_erase {s : State} (hs : s.Sound) (p : Nat → Bool) (a : Nat) :
    ((Act.eff (.erase p)).run s).cfgByte a = if p a = true then 0 else s.cfgByte a := sparseGet_sparseDrop linearCmp_nat p hs.2.2

/-- A slot is erased and opened for an image. -/
def openSlot (base size len : Nat) : Act :=
  .all [.eff (.erase fun a => decide (base ≤ a) && decide (a < base + size)), .set .I_SLOT_OPEN 0 0 1, .set .I_SLOT_OK 0 0 0,
    .set .I_SLOT_LEN 0 0 len]

/-- A slot is closed with the outcome of its check. -/
def closeSlot (ok : Bool) : Act := .seq (.set .I_SLOT_OPEN 0 0 0) (.set .I_SLOT_OK 0 0 (b2n ok))

/-- The directory changes, and SEC_TRIAL with it. -/
def setTrial (e : Directory) (v : Nat) : Act := .seq (writeDirectory e) (.set .SEC_TRIAL 0 0 v)

/-- The directory with a slot active on trial, and one whose trial is over. -/
def onTrial (d : Directory) (slot tries : Nat) : Directory := { d with active := slot, trial := 1, tries := tries }
def confirmed (d : Directory) : Directory := { d with trial := 0 }

theorem fits_onTrial {store : Nat} {d : Directory} (h : DirectoryFits store d) (hdseq : d.dseq + 1 < 2 ^ 32) {slot tries : Nat}
    (hslot : slot ≤ 1) (htries : tries ≤ 7) : DirectoryFits store (directoryAfter (onTrial d slot tries)) :=
  { h with
    dseq := hdseq
    active := hslot.trans_lt (by decide)
    trial := show 1 < 256 by decide
    tries := htries.trans_lt (by decide) }

theorem fits_confirmed {store : Nat} {d : Directory} (h : DirectoryFits store d) (hdseq : d.dseq + 1 < 2 ^ 32) :
    DirectoryFits store (directoryAfter (confirmed d)) :=
  { h with dseq := hdseq, trial := show 0 < 256 by decide }

section update
variable {s : State} {src : TransomSource} {d : Directory} (hs : s.Sound) (hd : s.directory = some d)
include hs hd

omit hd in
theorem run_openSlot (base size len : Nat) (hlen : len < 2 ^ 64) :
    let t := (openSlot base size len).run s
    t.rd .TR_DONE 0 = s.rd .TR_DONE 0 ∧ t.rd .I_SLOT_OPEN 0 = 1 ∧ t.rd .I_SLOT_OK 0 = 0 ∧ t.rd .I_SLOT_LEN 0 = len ∧
      ∀ a, t.cfgByte a = if base ≤ a ∧ a < base + size then 0 else s.cfgByte a := by
  have herase := run_sound (.eff (.erase fun a => decide (base ≤ a) && decide (a < base + size))) hs
  have hopen := run_sound (.set .I_SLOT_OPEN 0 0 1) herase
  have hok := run_sound (.set .I_SLOT_OK 0 0 0) hopen
  simp only [openSlot, run_all_cons, run_all_nil, rd_run_set hok, rd_run_set hopen, rd_run_set herase]
  refine ⟨rfl, rfl, rfl, Nat.mod_eq_of_lt hlen, fun a => ?_⟩
  show ((Act.eff (.erase fun a => decide (base ≤ a) && decide (a < base + size))).run s).cfgByte a = _
  rw [cfgByte_erase hs]
  simp only [Bool.and_eq_true, decide_eq_true_eq]

theorem imageBegin_acts {len : Nat} (h : s.served src 0x20 (toLe 8 len)) (hlen : len < 2 ^ 64) (hfits : len ≤ d.size s.spareSlot) :
    Acts s src (.imageBegin src) 0x20 fun t =>
      t.rd .I_SLOT_OPEN 0 = 1 ∧ t.rd .I_SLOT_OK 0 = 0 ∧ t.rd .I_SLOT_LEN 0 = len ∧
      ∀ a, t.cfgByte a = if d.base s.spareSlot ≤ a ∧ a < d.base s.spareSlot + d.size s.spareSlot then 0 else s.cfgByte a := by
  have hk : exec (.imageBegin src) s = (serve ⟨0x20, .owner, true, false, fun n => n == 8⟩ src _).done s := rfl
  have harg : leAt (toLe 8 len) 0 8 = len := leAt_toLe.trans (Nat.mod_eq_of_lt hlen)
  obtain ⟨hdone, hopen, hok, hsize, hcfg⟩ := run_openSlot hs (d.base s.spareSlot) (d.size s.spareSlot) len hlen
  refine acts_answered hk h (tabled_of rfl) (by simp [length_toLe]) (u := (openSlot (d.base s.spareSlot) (d.size s.spareSlot) len).run s) ?_
    (run_sound _ hs) hdone fun t ht => ?_
  · simp only [run_get, hd, harg, if_neg (not_lt.2 hfits), run_all_cons, run_all_nil, openSlot]
  · rw [ht.rd (by decide), ht.rd (by decide), ht.rd (by decide)]
    exact ⟨hopen, hok, hsize, fun a => (ht.bytes.2 a).trans (hcfg a)⟩

theorem imageData_acts {off : Nat} {data : List Byte} (h : s.served src 0x21 (toLe 12 off ++ data)) (hoff : off < 2 ^ 96)
    (hopen : s.rd .I_SLOT_OPEN 0 = 1) (hfits : off + data.length ≤ s.rd .I_SLOT_LEN 0) : Acts s src (.imageData src) 0x21 fun t =>
      t.cfgBytes (d.base s.spareSlot + off) data.length = data ∧
      ∀ a, a < d.base s.spareSlot + off ∨ d.base s.spareSlot + off + data.length ≤ a → t.cfgByte a = s.cfgByte a := by
  have hk : exec (.imageData src) s = (serve ⟨0x21, .none, true, false, fun n => decide (12 ≤ n)⟩ src _).done s := rfl
  have harg : leAt (toLe 12 off ++ data) 0 12 = off := leAt_toLe_append.trans (Nat.mod_eq_of_lt hoff)
  have hdata : (toLe 12 off ++ data).drop 12 = data := List.drop_left' (length_toLe 12 off)
  have hon : s.on .I_SLOT_OPEN 0 = true := by rw [State.on, hopen]; rfl
  refine acts_answered hk h (tabled_of rfl) (by simp [length_toLe]) (u := (Act.cfgPut (d.base s.spareSlot + off) data).run s) ?_
    (run_sound _ hs) rfl fun t ht => ⟨?_, fun a ha => ?_⟩
  · simp only [run_get, hd, harg, hdata, hon, decide_eq_true hfits, Bool.and_self, if_true, run_seq]
  · exact (ht.cfgBytes (run_sound _ hs) ..).trans (cfgBytes_run_cfgPut hs ..)
  · exact (ht.bytes.2 a).trans ((cfgByte_run_cfgPut hs ..).trans (if_neg (by omega)))

theorem imageEnd_runs (h : s.served src 0x22 []) (hopen : s.rd .I_SLOT_OPEN 0 = 1) : Runs (.imageEnd src) s fun t =>
    s.Replied t src 0x22 (s.slotCheck d s.spareSlot) [] ∧ t.rd .I_SLOT_OPEN 0 = 0 ∧
    (t.rd .I_SLOT_OK 0 = 1 ↔ s.slotCheck d s.spareSlot = stOk) := by
  have hk : exec (.imageEnd src) s = (serve ⟨0x22, .none, true, false, fun n => n == 0⟩ src _).done s := rfl
  have hon : s.on .I_SLOT_OPEN 0 = true := by rw [State.on, hopen]; rfl
  have hclosed := run_sound (.set .I_SLOT_OPEN 0 0 0) hs
  refine runs_answered hk h (tabled_of rfl) rfl (u := (closeSlot (s.slotCheck d s.spareSlot == stOk)).run s)
    (payload := []) (st := s.slotCheck d s.spareSlot) ?_ (run_sound _ hs) fun t ht => ?_
  · simp only [run_get, hd, hon, if_true, run_all_cons, run_all_nil, closeSlot, run_seq]
  · rw [ht.rd (by decide), ht.rd (by decide)]
    refine ⟨ht.replied_from ?_, ?_, ?_⟩ <;> rw [closeSlot, run_seq, rd_run_set hclosed]
    · rw [if_neg (by decide), rd_run_set hs, if_neg (by decide)]
    · rw [if_neg (by decide), rd_run_set hs, if_pos (by decide)]
      rfl
    · rw [if_pos (by decide)]
      by_cases hst : s.slotCheck d s.spareSlot = stOk
      · simp [hst, b2n, show Fld.I_SLOT_OK.info.width = 1 from rfl]
      · simp [hst, b2n]

omit hd in
theorem run_setTrial {e e' : Directory} (hwritten : ((writeDirectory e).run s).directory = some e') (v : Nat) :
    let u := (setTrial e v).run s
    u.Sound ∧ u.rd .SEC_TRIAL 0 = v % 2 ∧ (∀ {f d i}, f ≠ .SEC_TRIAL → u.rd f d i = s.rd f d i) ∧ u.directory = some e' := by
  have hw : ((writeDirectory e).run s).Sound := run_sound _ hs
  have hother {f : Fld} {d i : Nat} (hf : f ≠ .SEC_TRIAL) :
      ((Act.set .SEC_TRIAL 0 0 v).run ((writeDirectory e).run s)).rd f d i = ((writeDirectory e).run s).rd f d i :=
    (rd_run_set hw ..).trans (if_neg fun hk => hf hk.1)
  have hsound : ((Act.set .SEC_TRIAL 0 0 v).run ((writeDirectory e).run s)).Sound := run_sound _ hw
  simp only [setTrial, run_seq]
  exact ⟨hsound, (rd_run_set hw ..).trans (if_pos ⟨rfl, rfl, rfl⟩), hother,
    (directory_congr hw hsound (fun _ => rfl) (hother (by decide))).trans hwritten⟩

theorem imageActivate_acts {tries : Nat} (h : s.served src 0x23 (toLe 4 tries)) (hok : s.rd .I_SLOT_OK 0 = 1) (hlo : 1 ≤ tries)
    (hhi : tries ≤ 7) (hdseq : d.dseq + 1 < 2 ^ 32) : Acts s src (.imageActivate src) 0x23 fun t =>
      t.rd .I_RESTART_COLD 0 = 1 ∧ t.rd .SEC_TRIAL 0 = 1 ∧
      t.directory.map (fun e => (e.dseq, e.active, e.trial, e.tries)) = some (d.dseq + 1, s.spareSlot, 1, tries) := by
  have hk : exec (.imageActivate src) s = (serve ⟨0x23, .owner, true, false, fun n => n == 4⟩ src _).done s := rfl
  have harg : leAt (toLe 4 tries) 0 4 = tries := leAt_toLe.trans (Nat.mod_eq_of_lt (hhi.trans_lt (by decide)))
  have hon : s.on .I_SLOT_OK 0 = true := by rw [State.on, hok]; rfl
  obtain ⟨hu, htrial, hother, hdir⟩ := run_setTrial hs (directory_writeDirectory hs hd (e := onTrial d s.spareSlot tries) rfl rfl
    (fits_onTrial (directory_fits hd) hdseq (Nat.sub_le ..) hhi)) 1
  have ht := answered_respond hu 0x23 stOk [] src
  obtain ⟨hreplied, hreg, hbytes⟩ := ht.later coldStartThenNonce_fields (by decide)
  have hrun : exec (.imageActivate src) s = .next (coldStartThenNonce.run ((respond src 0x23 stOk []).run
      ((setTrial (onTrial d s.spareSlot tries) 1).run s))) := by
    rw [hk, done_eq, run_served (tabled_of rfl) h (by simp [length_toLe])]
    simp only [run_get, hd, harg, hon, hlo, hhi, and_self, decide_true, Bool.and_self, if_true, run_all_cons, run_all_nil]
    rfl
  refine ⟨_, hrun, replied_of_done hreplied (hother (by decide)).symm, ?_, ?_, ?_⟩
  · refine ((run_fieldsOnly (newNonce_fields true) (run_sound _ ht.sound)).1 .vis .I_RESTART_COLD 0 0 (by decide)).trans ?_
    exact rd_requestColdStart ht.sound
  · exact (hreg .vis .SEC_TRIAL 0 0 (by decide) (by decide)).trans htrial
  · rw [directory_congr hu (run_sound _ ht.sound) hbytes.2 (hreg .vis .I_STORE_MIB 0 0 (by decide) (by decide)), hdir]
    rfl

theorem imageConfirm_acts (h : s.served src 0x24 []) (htrial : d.trial ≠ 0) (hdseq : d.dseq + 1 < 2 ^ 32) :
    Acts s src (.imageConfirm src) 0x24 fun t => t.rd .SEC_TRIAL 0 = 0 ∧
      t.directory.map (fun e => (e.dseq, e.active, e.trial)) = some (d.dseq + 1, d.active, 0) := by
  have hk : exec (.imageConfirm src) s = (serve ⟨0x24, .owner, false, false, fun n => n == 0⟩ src _).done s := rfl
  obtain ⟨hu, hrd, hother, hdir⟩ := run_setTrial hs (directory_writeDirectory hs hd (e := confirmed d) rfl rfl
    (fits_confirmed (directory_fits hd) hdseq)) 0
  refine acts_answered hk h (tabled_of rfl) rfl (u := (setTrial (confirmed d) 0).run s) ?_ hu (hother (by decide)) fun t ht => ?_
  · simp only [run_get, hd, bne_iff_ne.2 htrial, run_when_true, run_all_cons, run_all_nil, setTrial, run_seq]
    rfl
  · rw [ht.rd (by decide), directory_congr hu ht.sound ht.bytes.2 (ht.rd (by decide) ..), hdir]
    exact ⟨hrd, rfl⟩

end update

/-! ### Anti-rollback counters (17 R731, R732) -/

/-- Bytes of a 32-bit word of which one has been replaced. -/
theorem byte_putBits {w v k j : Nat} (hw : w < 2 ^ 32) (hk : k < 4) (hj : j < 4) :
    bits (putBits w (8 * k) 8 v % 2 ^ 32) (8 * j) 8 = if j = k then v % 2 ^ 8 else bits w (8 * j) 8 := by
  simp only [putBits, bits, Nat.shiftRight_eq_div_pow]
  interval_cases k <;> interval_cases j <;> simp only [Nat.reduceMul, Nat.reducePow, Nat.reduceEqDiff, if_true, if_false] <;> omega

theorem counterRb_blowCounter {s : State} (hs : s.Sound) (p : Nat × Nat) (k : Nat) :
    ((blowCounter p).run s).counterRb k = if k = p.1 ∧ s.counterRb k < p.2 then p.2 % 2 ^ 8 else s.counterRb k := by
  have hword : s.rd .FUSE_RB 0 (p.1 / 4) < 2 ^ 32 := reg_lt hs .vis .FUSE_RB 0 _
  have hread : ((blowCounter p).run s).rd .FUSE_RB 0 (k / 4) = if k / 4 = p.1 / 4 then
      (if s.counterRb p.1 < p.2 then putBits (s.rd .FUSE_RB 0 (p.1 / 4)) (8 * (p.1 % 4)) 8 p.2 else s.rd .FUSE_RB 0 (p.1 / 4)) % 2 ^ 32
      else s.rd .FUSE_RB 0 (k / 4) := by
    rw [blowCounter, rd_run_upd hs]
    simp only [true_and]
    rfl
  rw [State.counterRb, hread]
  by_cases hrow : k / 4 = p.1 / 4
  · rw [if_pos hrow]
    by_cases hlow : s.counterRb p.1 < p.2
    · rw [if_pos hlow, byte_putBits hword (Nat.mod_lt _ (by decide)) (Nat.mod_lt _ (by decide))]
      by_cases hbyte : k % 4 = p.1 % 4
      · obtain rfl : k = p.1 := by omega
        rw [if_pos rfl, if_pos ⟨rfl, hlow⟩]
      · rw [if_neg hbyte, if_neg fun h => hbyte (by rw [h.1]), State.counterRb, hrow]
    · rw [if_neg hlow, Nat.mod_eq_of_lt hword, 
        if_neg (show ¬ (k = p.1 ∧ s.counterRb k < p.2) from fun ⟨hk, hlt⟩ => hlow (hk ▸ hlt)), State.counterRb, hrow]
  · rw [if_neg hrow, if_neg fun h => hrow (by rw [h.1]), State.counterRb]

/-- Blowing counters raises each as far as it is asked to, and lowers none. -/
theorem counterRb_each {ps : List (Nat × Nat)} (hps : ∀ q ∈ ps, q.2 < 256) {s : State} (hs : s.Sound) :
    (∀ q ∈ ps, q.2 ≤ ((Act.each ps blowCounter).run s).counterRb q.1) ∧
      ∀ k, s.counterRb k ≤ ((Act.each ps blowCounter).run s).counterRb k := by
  induction ps generalizing s with
  | nil => exact ⟨by simp, fun k => le_rfl⟩
  | cons p ps ih =>
    obtain ⟨hraised, hkept⟩ := ih (fun q hq => hps q (List.mem_cons_of_mem _ hq)) (run_sound (blowCounter p) hs)
    have hp : p.2 % 2 ^ 8 = p.2 := Nat.mod_eq_of_lt (hps p (List.mem_cons_self ..))
    have hblown (k : Nat) := counterRb_blowCounter hs p k
    rw [hp] at hblown
    rw [run_each_cons]
    refine ⟨fun q hq => ?_, fun k => ?_⟩
    · rcases List.mem_cons.1 hq with rfl | hq
      · refine le_trans ?_ (hkept q.1)
        rw [hblown]
        split <;> omega
      · exact hraised q hq
    · refine le_trans ?_ (hkept k)
      rw [hblown]
      split <;> omega

section commands
variable {s : State} {src : TransomSource} (hs : s.Sound)
include hs

theorem rollbackCommit_acts {i : Image} (hi : s.aux.image = some i) (h : s.served src 0x25 []) (htrial : s.rd .SEC_TRIAL 0 = 0)
    (hversions : ∀ q ∈ (0, i.fwSvn) :: i.rb, q.2 < 256) : Acts s src (.rollbackCommit src) 0x25 fun t =>
      (∀ q ∈ (0, i.fwSvn) :: i.rb, q.1 < 64 → q.2 ≤ t.counterRb q.1) ∧ ∀ k < 64, s.counterRb k ≤ t.counterRb k := by
  have hk : exec (.rollbackCommit src) s = (serve ⟨0x25, .owner, false, false, fun n => n == 0⟩ src _).done s := rfl
  have hon : s.on .SEC_TRIAL 0 = false := by rw [State.on, htrial]; rfl
  have hfields : Within (fieldsOnly [.FUSE_RB]) (.each ((0, i.fwSvn) :: i.rb) blowCounter) := by
    simp [blowCounter]
  obtain ⟨hraised, hkept⟩ := counterRb_each hversions hs
  refine acts_answered hk h (tabled_of rfl) rfl (u := (Act.each ((0, i.fwSvn) :: i.rb) blowCounter).run s) ?_ (run_sound _ hs)
    ((run_fieldsOnly hfields hs).1 .vis .TR_DONE 0 0 (by decide)) fun t ht => ?_
  · simp only [run_get, hi, hon, Bool.false_eq_true, if_false, run_seq]
  · have hcounter (k : Nat) : t.counterRb k = ((Act.each ((0, i.fwSvn) :: i.rb) blowCounter).run s).counterRb k := by
      rw [State.counterRb, State.counterRb, ht.rd (by decide)]
    simp only [hcounter]
    exact ⟨fun q hq _ => hraised q hq, fun k _ => hkept k⟩

/-! ### Restarts (18 R770) and lifted fences (16 R695) -/

theorem restartPart_acts {i : Image} (hi : s.aux.image = some i) {p : Nat} (h : s.served src 0x30 (toLe 4 p)) (hp : p ∈ i.parts)
    (hcalm : s.on .I_RESTART_COLD 0 = false ∧ s.on .I_RESTART_WARM 0 = false) (hpart : s.on .I_RESTART_PART 0 p = false)
    (hstate : s.rd .PT_STATE 0 p ≠ 0) :
    Acts s src (.restartPart src) 0x30 fun t => t.rd .I_RESTART_PART 0 p = 1 ∧ t.rd .PT_STATE 0 p = 3 := by
  have hk : exec (.restartPart src) s = (serve ⟨0x30, .none, false, false, fun n => n == 4⟩ src _).done s := rfl
  have hp8 : p < 8 := List.mem_range.1 (List.mem_filter.1 hp).1
  have harg : leAt (toLe 4 p) 0 4 = p := leAt_toLe.trans (Nat.mod_eq_of_lt (hp8.trans (by decide)))
  have hfields : Within (fieldsOnly restartFields) (requestPartRestart p) := by
    simp (disch := decide) [requestPartRestart]
  refine acts_answered hk h (tabled_of rfl) (by simp [length_toLe]) (u := (requestPartRestart p).run s) ?_ (run_sound _ hs)
    ((run_fieldsOnly hfields hs).1 .vis .TR_DONE 0 0 (by decide)) fun t ht => ?_
  · have hknown : s.aux.image.any (fun i => i.parts.contains p) = true := by simpa [hi] using hp
    simp only [run_get, harg, hknown, if_true, run_seq]
  · have hflag := run_sound (.set .I_RESTART_PART 0 p 1) hs
    have htime := run_sound (.set .I_RESTART_PART_AT 0 p s.ticks) hflag
    rw [ht.rd (by decide), ht.rd (by decide)]
    simp only [requestPartRestart, run_get, hcalm, hpart, bne_iff_ne.2 hstate, Bool.not_false, Bool.and_self, run_when_true, run_all_cons,
      run_all_nil, rd_run_set htime, rd_run_set hflag, rd_run_set hs]
    exact ⟨rfl, rfl⟩

theorem restartWarm_acts {i : Image} (hi : s.aux.image = some i) (h : s.served src 0x31 [])
    (hcalm : s.on .I_RESTART_COLD 0 = false ∧ s.on .I_RESTART_WARM 0 = false) :
    Acts s src (.restartWarm src) 0x31 fun t => t.rd .I_RESTART_WARM 0 = 1 := by
  have hk : exec (.restartWarm src) s = (serve ⟨0x31, .none, false, false, fun n => n == 0⟩ src _).done s := rfl
  have hfields : Within (fieldsOnly restartFields) requestWarmRestart := by
    simp (disch := decide) [requestWarmRestart]
  have hrest : Within (fieldsOnly [.I_RESTART_WARM_AT, .I_RESTART_PART, .PT_STATE]) (.all [
      .set .I_RESTART_WARM_AT 0 0 s.ticks,
      .upTo 8 fun p => .all [
        .set .I_RESTART_PART 0 p 0,
        .get fun t => .when (t.rd .PT_STATE 0 p != 0) (.set .PT_STATE 0 p 3)]]) := by
    simp (disch := decide)
  refine acts_answered hk h (tabled_of rfl) rfl (u := requestWarmRestart.run s) ?_ (run_sound _ hs)
    ((run_fieldsOnly hfields hs).1 .vis .TR_DONE 0 0 (by decide)) fun t ht => ?_
  · have hsome : s.aux.image.isSome = true := by rw [hi]; rfl
    simp only [run_get, hsome, if_true, run_seq]
  · rw [ht.rd (by decide), requestWarmRestart, run_get, hcalm.1, hcalm.2, Bool.not_false, Bool.and_self, run_when_true, run_all_cons]
    exact ((run_fieldsOnly hrest (run_sound _ hs)).1 .vis .I_RESTART_WARM 0 0 (by decide)).trans
      ((rd_run_set hs ..).trans (if_pos ⟨rfl, rfl, rfl⟩))

theorem restartCold_acts (h : s.served src 0x32 []) :
    Acts s src (.restartCold src) 0x32 fun t => t.rd .I_RESTART_COLD 0 = 1 ∧ s.SameBytes t := by
  have hk : exec (.restartCold src) s = (serve ⟨0x32, .none, false, false, fun n => n == 0⟩ src _).done s := rfl
  obtain ⟨hreg, hbytes, -⟩ := run_fieldsOnly requestColdStart_fields hs
  refine acts_answered hk h (tabled_of rfl) rfl (u := requestColdStart.run s) rfl (run_sound _ hs) (hreg .vis .TR_DONE 0 0 (by decide))
    fun t ht => ⟨?_, fun a => (ht.bytes.1 a).trans (hbytes.1 a), fun a => (ht.bytes.2 a).trans (hbytes.2 a)⟩
  rw [ht.rd (by decide), rd_requestColdStart hs]

theorem liftFence_acts {fseq : Nat} {b : List Byte} (h : s.served src 0x35 (toLe 4 fseq)) (hfseq : fseq < 2 ^ 32)
    (hrecord : s.logRecord fseq = some b) (hlo : 1 ≤ byteAt b 15) (hhi : byteAt b 15 ≤ 4) :
    Acts s src (.liftFence src) 0x35 fun t => t.aux.lifts = s.aux.lifts ++ [fseq] ∧ s.SameBytes t := by
  have hk : exec (.liftFence src) s = (serve ⟨0x35, .owner, false, false, fun n => n == 4⟩ src _).done s := rfl
  have harg : leAt (toLe 4 fseq) 0 4 = fseq := leAt_toLe.trans (Nat.mod_eq_of_lt hfseq)
  refine acts_answered hk h (tabled_of rfl) (by simp [length_toLe])
    (u := (Act.aux fun y => { y with lifts := y.lifts ++ [fseq] }).run s) ?_ (run_sound _ hs) rfl fun t ht => ⟨?_, ht.bytes⟩
  · simp only [run_get, harg, hrecord, hlo, hhi, and_self, decide_true, if_true, run_seq]
  · obtain ⟨_, _, _, _, haux⟩ := ht.aux
    rw [haux]
    rfl

end commands

/-! ### Test access (17 R750) -/

/-- Random bytes are drawn, and nothing else changes. -/
theorem run_randomBytes (n : Nat) (k : List Byte → Act) {s : State} (hs : s.Sound) :
    ∃ bs u, (randomBytes n k).run s = (k bs).run u ∧ bs.length = 8 * n ∧ u.Sound ∧ u.regs = s.regs ∧ u.mem = s.mem ∧ u.cfg = s.cfg ∧
      u.aux = s.aux := by
  induction n generalizing k s with
  | zero => exact ⟨[], s, rfl, rfl, hs, rfl, rfl, rfl, rfl⟩
  | succ n ih =>
    obtain ⟨bs, u, hrun, hlen, hu, hregs, hmem, hcfg, haux⟩ :=
      ih (fun bs => k (toLe 8 (Config.random s.fresh) ++ bs)) (apply_sound .drawn hs)
    refine ⟨_, u, hrun, ?_, hu, hregs, hmem, hcfg, haux⟩
    rw [List.length_append, length_toLe, hlen]
    omega

/-- A right response puts the part into test access: the test domain of every die comes on. -/
def openTest (s : State) : Act :=
  .seq (.set .SEC_STATE 0 0 4) (.each s.dieList fun d => .upd .PWR_DOM_ON d 0 fun v => putBit v 23 true)

/-- A wrong one discards the challenge and counts. -/
def failTest : Act := .seq (.aux fun a => { a with challenge := none }) (.incSat .I_TEST_LEFT 0)

section test
variable {s : State} {src : TransomSource} (hs : s.Sound) (hdecomm : s.decommissioned = true) (hleft : s.rd .I_TEST_LEFT 0 < testLimit)
include hs hdecomm hleft

omit hs in
/-- The test commands are not refused. -/
theorem test_open : ¬ (!s.decommissioned || decide (testLimit ≤ s.rd .I_TEST_LEFT 0)) = true := by
  simpa [hdecomm] using hleft

theorem testChallenge_runs (h : s.served src 0x41 []) : Runs (.testChallenge src) s fun t => ∃ bs, bs.length = 48 ∧
    t.aux.challenge = some bs ∧ s.Replied t src 0x41 stOk bs ∧ s.SameBytes t := by
  have hk : exec (.testChallenge src) s = (serve ⟨0x41, .none, false, true, fun n => n == 0⟩ src _).done s := rfl
  obtain ⟨bs, u, hrun, hlen, hu, hregs, hmem, hcfg, -⟩ := run_randomBytes 6
    (fun bs => .seq (.aux fun a => { a with challenge := some bs }) (respond src 0x41 stOk bs)) hs
  refine runs_answered hk h (tabled_of rfl) rfl (payload := bs) (st := stOk)
    (u := (Act.aux fun a => { a with challenge := some bs }).run u) ?_ (run_sound _ hu) fun t ht => ⟨bs, hlen, ?_, ?_, ?_⟩
  · rw [run_get, if_neg (test_open hdecomm hleft)]
    exact hrun
  · obtain ⟨_, _, _, _, haux⟩ := ht.aux
    rw [haux]
    rfl
  · exact ht.replied_from (reg_of_regs (s := s) (t := (Act.aux fun a => { a with challenge := some bs }).run u) hregs ..).symm
  · have hsame := sameBytes_of_eq hmem hcfg
    exact ⟨fun a => (ht.bytes.1 a).trans (hsame.1 a), fun a => (ht.bytes.2 a).trans (hsame.2 a)⟩

theorem testResponse_opens {sig : List Byte} (h : s.served src 0x42 sig) (hsig : sig.length = 96) (hopens : s.testOpens sig = true) :
    Acts s src (.testResponse src) 0x42 fun t => t.rd .SEC_STATE 0 = 4 := by
  have hk : exec (.testResponse src) s = (serve ⟨0x42, .none, false, true, fun n => n == 96⟩ src _).done s := rfl
  have hdomains : Within (fieldsOnly [.PWR_DOM_ON]) (.each s.dieList fun d => .upd .PWR_DOM_ON d 0 fun v => putBit v 23 true) := by simp
  have hset := run_sound (.set .SEC_STATE 0 0 4) hs
  obtain ⟨hreg, -, -⟩ := run_fieldsOnly hdomains hset
  refine acts_answered hk h (tabled_of rfl) (by simp [hsig]) (u := (openTest s).run s) ?_ (run_sound _ hs) ?_ fun t ht => ?_
  · rw [run_get, if_neg (test_open hdecomm hleft), if_pos hopens]
    rfl
  · exact (hreg .vis .TR_DONE 0 0 (by decide)).trans ((rd_run_set hs ..).trans (if_neg (by decide)))
  · rw [ht.rd (by decide)]
    exact (hreg .vis .SEC_STATE 0 0 (by decide)).trans ((rd_run_set hs ..).trans (if_pos ⟨rfl, rfl, rfl⟩))

theorem testResponse_fails {sig : List Byte} (h : s.served src 0x42 sig) (hsig : sig.length = 96) (hopens : s.testOpens sig = false) :
    Runs (.testResponse src) s fun t => s.Replied t src 0x42 stBadSignature [] ∧ t.aux.challenge = none ∧
      t.rd .I_TEST_LEFT 0 = s.rd .I_TEST_LEFT 0 + 1 := by
  have hk : exec (.testResponse src) s = (serve ⟨0x42, .none, false, true, fun n => n == 96⟩ src _).done s := rfl
  have hcleared := run_sound (.aux fun a => { a with challenge := none }) hs
  refine runs_answered hk h (tabled_of rfl) (by simp [hsig]) (payload := []) (st := stBadSignature) (u := failTest.run s) ?_ (run_sound _ hs)
    fun t ht => ⟨ht.replied_from ?_, ?_, ?_⟩
  · rw [run_get, if_neg (test_open hdecomm hleft), hopens]
    rfl
  · exact ((rd_run_incSat hcleared ..).trans (if_neg (by decide))).symm
  · obtain ⟨_, _, _, _, haux⟩ := ht.aux
    rw [haux]
    rfl
  · rw [ht.rd (by decide)]
    refine ((rd_run_incSat hcleared ..).trans (if_pos ⟨rfl, rfl, rfl⟩)).trans (min_eq_left ?_)
    exact Nat.le_trans (Nat.succ_le_of_lt hleft) (by decide)

end test

/-! ### Places of package addresses (19 R781) -/

section places
variable {a off j : Nat}

/-- Die and die offset make up a package address. -/
theorem addr_eq (ha : a < 2 ^ 48) : pkgAddr (addrDie a) (addrOff a) = a := by
  simp only [pkgAddr, addrDie, addrOff, bits, dieWindow, Nat.shiftRight_eq_div_pow]
  omega

/-- A step that stays in the die's window. -/
theorem addr_add (h : addrOff a + j < dieWindow) : addrOff (a + j) = addrOff a + j ∧ addrDie (a + j) = addrDie a := by
  simp only [addrDie, addrOff, bits, dieWindow, Nat.shiftRight_eq_div_pow] at h ⊢
  omega

/-- The sizes and bases of the address map as numerals. -/
theorem map_numerals : stackBytes = 25769803776 ∧ mib = 1048576 ∧ vaultBase = 1099511627776 ∧ storeBase = 1103806595072 ∧
    regBase = 1108101562368 ∧ dieWindow = 35184372088832 := by decide

theorem placeOf_hbm {o st : Nat} : placeOf o = .hbm st off ↔ st < 2 ∧ off < stackBytes ∧ o = st * stackBytes + off := by
  obtain ⟨hstack, hmib, hvault, hstore, hreg, -⟩ := map_numerals
  simp only [placeOf, hstack, hmib, hvault, hstore, hreg, Bool.and_eq_true, decide_eq_true_eq]
  split_ifs <;> simp only [Place.hbm.injEq, false_iff, not_and] <;> omega

theorem placeOf_vault {o k : Nat} : placeOf o = .vault k off ↔ k < 4 ∧ off < 32 * mib ∧ o = vaultBase + k * (32 * mib) + off := by
  obtain ⟨hstack, hmib, hvault, hstore, hreg, -⟩ := map_numerals
  simp only [placeOf, hstack, hmib, hvault, hstore, hreg, Bool.and_eq_true, decide_eq_true_eq]
  split_ifs <;> simp only [Place.vault.injEq, false_iff, not_and] <;> omega

theorem storeAt_lt (h : (storeAt off).isSome = true) : off < 16 * mib := by
  rw [map_numerals.2.1]
  unfold storeAt at h
  split_ifs at h with h0 h1 h2
  · omega
  · simp at h1
    omega
  · simp at h2
    omega
  · simp at h

theorem placeOf_store {o c : Nat} :
    placeOf o = .store c off ↔ c < 32 ∧ (storeAt off).isSome = true ∧ o = storeBase + c * (16 * mib) + off := by
  have hlt := storeAt_lt (off := off)
  obtain ⟨hstack, hmib, hvault, hstore, hreg, -⟩ := map_numerals
  simp only [hmib] at hlt
  simp only [placeOf, hstack, hmib, hvault, hstore, hreg, Bool.and_eq_true, decide_eq_true_eq]
  split_ifs with h0 h1 h2 h3 h4 h5 <;> simp only [Place.store.injEq, false_iff, not_and]
  · omega
  · omega
  · omega
  · constructor
    · rintro ⟨rfl, rfl⟩
      exact ⟨by omega, h4, by omega⟩
    · rintro ⟨hc, hoff, ho⟩
      have := hlt hoff
      omega
  · rintro hc hoff ho
    have := hlt hoff
    exact h4 (by rwa [show (o - 1103806595072) % (16 * 1048576) = off by omega])
  · intro hc hoff
    have := hlt hoff
    omega
  · intro hc hoff
    have := hlt hoff
    omega

/-- A step within a stack. -/
theorem hbm_add {st : Nat} (ha : a < 2 ^ 48) (h : placeOf (addrOff a) = .hbm st off) (hj : off + j < stackBytes) :
    placeOf (addrOff (a + j)) = .hbm st (off + j) ∧ addrDie (a + j) = addrDie a ∧ hbmAddr (addrDie a) st (off + j) = a + j := by
  have haddr := addr_eq ha
  obtain ⟨hst, hoff, ho⟩ := placeOf_hbm.1 h
  obtain ⟨hstack, -, -, -, -, hdie⟩ := map_numerals
  obtain ⟨hnext, hsame⟩ := addr_add (a := a) (j := j) (by simp only [hstack] at ho hj; omega)
  refine ⟨placeOf_hbm.2 ⟨hst, hj, by omega⟩, hsame, ?_⟩
  simp only [hbmAddr, pkgAddr] at haddr ⊢
  omega

/-- A step within a vault. -/
theorem vault_add {k : Nat} (ha : a < 2 ^ 48) (h : placeOf (addrOff a) = .vault k off) (hj : off + j < 32 * mib) :
    placeOf (addrOff (a + j)) = .vault k (off + j) ∧ addrDie (a + j) = addrDie a ∧ vaultAddr (addrDie a) k (off + j) = a + j := by
  have haddr := addr_eq ha
  obtain ⟨hk, hoff, ho⟩ := placeOf_vault.1 h
  obtain ⟨-, hmib, hvault, -, -, hdie⟩ := map_numerals
  obtain ⟨hnext, hsame⟩ := addr_add (a := a) (j := j) (by simp only [hmib, hvault] at ho hj; omega)
  refine ⟨placeOf_vault.2 ⟨hk, hj, by omega⟩, hsame, ?_⟩
  simp only [vaultAddr, pkgAddr] at haddr ⊢
  omega

/-- A range of a store reaches no further than the store. -/
theorem storeAt_add {len : Nat} (h : storeRangeOk off len = true) (hj : j < len) : (storeAt (off + j)).isSome = true := by
  unfold storeRangeOk at h
  split at h
  · next n start size group hat =>
    unfold storeAt at hat ⊢
    have hlen := of_decide_eq_true h
    split_ifs at hat with h0 h1 h2
    · cases hat
      rw [if_pos (by omega)]
      rfl
    · cases hat
      simp only [Bool.and_eq_true, decide_eq_true_eq] at h1
      rw [if_neg (by omega), if_pos (by simp; omega)]
      rfl
    · cases hat
      simp only [Bool.and_eq_true, decide_eq_true_eq] at h2
      rw [if_neg (by omega), if_neg (by simp; omega), if_pos (by simp; omega)]
      rfl
  · cases h

/-- A step within a store. -/
theorem store_add {c len : Nat} (ha : a < 2 ^ 48) (h : placeOf (addrOff a) = .store c off) (hlen : storeRangeOk off len = true)
    (hj : j < len) : placeOf (addrOff (a + j)) = .store c (off + j) ∧ addrDie (a + j) = addrDie a ∧
      storeAddr (addrDie a) c (off + j) = a + j := by
  have haddr := addr_eq ha
  obtain ⟨hc, hoff, ho⟩ := placeOf_store.1 h
  have hat := storeAt_add hlen hj
  have hlt := storeAt_lt hat
  obtain ⟨-, hmib, -, hstore, -, hdie⟩ := map_numerals
  obtain ⟨hnext, hsame⟩ := addr_add (a := a) (j := j) (by simp only [hmib, hstore] at ho hlt; omega)
  refine ⟨placeOf_store.2 ⟨hc, hat, by omega⟩, hsame, ?_⟩
  simp only [storeAddr, pkgAddr] at haddr ⊢
  omega

end places

/-! ### Memory as the Keeper reaches it (12 R543 to R547, 11 R500, R520, R521) -/

/-- A read of sound memory: HBM counts its granules, and nothing else changes. -/
structure KeeperRead (s u : State) : Prop where
  sound : u.Sound
  reg : ∀ l f d i, f ≠ .I_HBM_CNT → u.reg l f d i = s.reg l f d i
  bytes : s.SameBytes u
  aux : u.aux = s.aux

theorem KeeperRead.refl {s : State} (hs : s.Sound) : KeeperRead s s := ⟨hs, fun _ _ _ _ _ => rfl, sameBytes_refl s, rfl⟩

theorem KeeperRead.rd {s u : State} (h : KeeperRead s u) {f : Fld} (hf : f ≠ .I_HBM_CNT) (d i : Nat) : u.rd f d i = s.rd f d i :=
  h.reg .vis f d i hf

/-- Memory that is sound stays so when it is read. -/
theorem KeeperRead.keeperMem {s u : State} (h : KeeperRead s u) {a len : Nat} (hmem : s.keeperMem a len) : u.keeperMem a len := by
  obtain ⟨ha, ⟨hopen, hwords⟩ | ⟨hchecks, hflaky, hpoison, k, off, hplace, hlen, hstate⟩ | ⟨core, off, hplace, hlen, hstate⟩⟩ := hmem
  · exact ⟨ha, .inl ⟨openHbm_congr (fun f hf d i => h.rd (by revert f; decide) d i) hopen, h.aux ▸ hwords⟩⟩
  · exact ⟨ha, .inr (.inl ⟨h.aux ▸ hchecks, h.aux ▸ hflaky, h.aux ▸ hpoison, k, off, hplace, hlen, (h.rd (by decide) ..).trans hstate⟩)⟩
  · refine ⟨ha, .inr (.inr ⟨core, off, hplace, hlen, ?_⟩)⟩
    rw [State.suspectStore, h.rd (by decide), h.rd (by decide), h.rd (by decide), h.aux]
    exact hstate

theorem countGranules_fields (die st off len : Nat) : Within (fieldsOnly [.I_HBM_CNT]) (countGranules die st off len) := by
  simp [countGranules]

/-- No word that a read of HBM meets is bad or weak. -/
theorem readHbm_then {s : State} (hs : s.Sound) {die st off len : Nat} (hready : s.hbmReady die st = true)
    (hwords : ∀ w ∈ s.aux.badWords ++ s.aux.weakWords, ¬ (hbmAddr die st off < w + 8 ∧ w < hbmAddr die st off + len)) :
    ∃ u, KeeperRead s u ∧ ∀ k : Except Err (List Byte) → Act,
      ((readHbm die st off len).then k).run s = (k (.ok (s.bytes (hbmAddr die st off) len))).run u := by
  obtain ⟨hreg, hbytes, haux⟩ := run_fieldsOnly (countGranules_fields die st off len) hs
  have hbad : (s.aux.badWords.filter fun w => decide (hbmAddr die st off < w + 8 ∧ w < hbmAddr die st off + len)) = [] :=
    List.filter_eq_nil_iff.2 fun w hw => by simpa using hwords w (List.mem_append_left _ hw)
  have hweak : (s.aux.weakWords.filter fun w => decide (hbmAddr die st off < w + 8 ∧ w < hbmAddr die st off + len)) = [] :=
    List.filter_eq_nil_iff.2 fun w hw => by simpa using hwords w (List.mem_append_right _ hw)
  refine ⟨(countGranules die st off len).run s, ⟨run_sound _ hs, fun l f d i hf => hreg l f d i (by simpa using hf), hbytes, haux⟩,
    fun k => ?_⟩
  have hcorrect : (correctWords die st (hbmAddr die st off) len).run ((countGranules die st off len).run s) =
      (countGranules die st off len).run s := by
    rw [correctWords, run_get, haux, hweak, run_each_nil]
  simp only [readHbm, then_bind, then_state, onOk_ok, hready, Bool.not_true, Bool.false_eq_true, if_false, then_act, hcorrect, hbad,
    then_pure]

theorem readVault_then {s : State} {die k off len : Nat} (h : s.suspectVault die k = false) (f : Except Err (List Byte) → Act) :
    ((readVault die k off len).then f).run s = (f (.ok (s.bytes (vaultAddr die k off) len))).run s := by
  simp [readVault, h, -bind_pure_comp]

theorem writeVault_then {s : State} {die k off : Nat} {bs : List Byte} (h : s.suspectVault die k = false) (f : Except Err Unit → Act) :
    ((writeVault die k off bs).then f).run s =
      (f (.ok ())).run ((noteWrite (vaultAddr die k off) bs.length).run ((Act.put (vaultAddr die k off) bs).run s)) := by
  simp [writeVault, h]

theorem suspectVault_false {s : State} {die k : Nat} (hchecks : s.aux.checks = []) (hflaky : s.aux.flaky = [])
    (hstate : s.rd .VT_STATE die k = 0) : s.suspectVault die k = false := by
  simp [State.suspectVault, hchecks, hflaky, hstate]

section keeper
variable {s : State} {a len j n : Nat} (hs : s.Sound) (h : s.keeperMem a len)
include hs h

/-- The Keeper reads the bytes of sound memory. -/
theorem keeperGet_then (hj : j < len) (hn : j + n ≤ len) : ∃ u, KeeperRead s u ∧ ∀ k : Except Err (List Byte) → Act,
    ((keeperGet (a + j) n).then k).run s = (k (.ok (s.bytes (a + j) n))).run u := by
  obtain ⟨ha, ⟨⟨-, st, off, hplace, -, hready, hlen⟩, hwords⟩ | ⟨hchecks, hflaky, -, k, off, hplace, hlen, hstate⟩ |
    ⟨core, off, hplace, hlen, hstate⟩⟩ := h
  · obtain ⟨hat, hdie, haddr⟩ := hbm_add ha hplace (j := j) (by omega)
    obtain ⟨u, hu, hrun⟩ := readHbm_then hs (off := off + j) (len := n) hready fun w hw hmeet => hwords w hw (by omega)
    refine ⟨u, hu, fun k => ?_⟩
    rw [keeperGet, hat, hdie, ← haddr]
    exact hrun k
  · obtain ⟨hat, hdie, haddr⟩ := vault_add ha hplace (j := j) (by omega)
    refine ⟨s, .refl hs, fun f => ?_⟩
    rw [keeperGet, hat, hdie, ← haddr]
    exact readVault_then (suspectVault_false hchecks hflaky hstate) f
  · obtain ⟨hat, hdie, haddr⟩ := store_add ha hplace hlen hj
    refine ⟨s, .refl hs, fun k => ?_⟩
    rw [keeperGet, hat, hdie, ← haddr]
    exact readStore_then hstate k

end keeper

/-- Bytes are put, and the layers that they reach are marked. -/
theorem written_put {s : State} (hs : s.Sound) (a : Nat) (bs : List Byte) :
    Written s ((noteWrite a bs.length).run ((Act.put a bs).run s)) a bs := by
  have hall : Within (writeReach fun j => a ≤ j ∧ j < a + bs.length) (.seq (.put a bs) (noteWrite a bs.length)) := by
    simp only [within_seq, within_put, noteWrite_write, and_true]
    exact fun j h1 h2 => ⟨h1, h2⟩
  have hput := run_sound (Act.put a bs) hs
  obtain ⟨hr, hm, hc, ha⟩ := within_run hall writeReach_refl writeReach_trans hs
  obtain ⟨-, hkeep, -, -⟩ := within_run (noteWrite_write (mem := fun _ => False) a bs.length) writeReach_refl writeReach_trans hput
  exact ⟨run_sound _ hput, (bytes_congr hput (run_sound _ hput) fun j => hkeep j id).trans (bytes_run_put hs a bs),
    ⟨fun j hj => hm j fun ⟨h1, h2⟩ => by omega, fun j => hc j id⟩, fun l f d i hf => hr l f d i fun hk => hf hk.2, ha⟩

/-- What the Keeper writes adapts no layer (09 R422). -/
theorem Written.adapted {s t : State} {a : Nat} {bs : List Byte} (h : Written s t a bs) (l : List Nat) :
    Written s ((Act.aux fun y => { y with adapted := l }).run t) a bs := by
  refine ⟨run_sound _ h.sound, h.read, h.other, h.reg, ?_⟩
  obtain ⟨bad, weak, _, haux⟩ := h.aux
  refine ⟨bad, weak, l, ?_⟩
  rw [aux_run_aux, haux]

/-- Sound memory takes what the Keeper writes. -/
theorem keeperTry_run {s : State} {a len j : Nat} (hs : s.Sound) (h : s.keeperMem a len) {bs : List Byte} (hj : j < len) :
    ∃ t, Written s t (a + j) bs ∧ ∀ k, (keeperTry (a + j) bs k).run s = (k true).run t := by
  obtain ⟨ha, ⟨⟨-, st, off, hplace, -, hready, hlen⟩, -⟩ | ⟨hchecks, hflaky, -, k, off, hplace, hlen, hstate⟩ |
    ⟨core, off, hplace, hlen, hstate⟩⟩ := h
  · obtain ⟨hat, hdie, haddr⟩ := hbm_add ha hplace (j := j) (by omega)
    refine ⟨_, (written_hbm hs (addrDie a) st (off + j) bs.length).adapted s.aux.adapted, fun k => ?_⟩
    rw [keeperTry, run_get, keeperPut, hat, hdie, ← haddr]
    simp only [writeHbm, then_bind, then_state, onOk_ok, hready, Bool.not_true, Bool.false_eq_true, if_false, then_act, run_seq]
    rfl
  · obtain ⟨hat, hdie, haddr⟩ := vault_add ha hplace (j := j) (by omega)
    refine ⟨_, (written_put hs (a + j) bs).adapted s.aux.adapted, fun f => ?_⟩
    rw [keeperTry, run_get, keeperPut, hat, hdie, ← haddr]
    exact writeVault_then (suspectVault_false hchecks hflaky hstate) _
  · obtain ⟨hat, hdie, haddr⟩ := store_add ha hplace hlen hj
    refine ⟨_, (written_put hs (a + j) bs).adapted s.aux.adapted, fun k => ?_⟩
    rw [keeperTry, run_get, keeperPut, hat, hdie, ← haddr]
    exact writeStore_then hstate _

/-! ### Salts (04 R181) -/

theorem leNat_singleton (b : Byte) : leNat [b] = byteAt [b] 0 := Nat.add_zero _

/-- One byte of memory, read as a number or as a byte. -/
theorem byteAt_bytes_one (s : State) (a : Nat) : byteAt (s.bytes a 1) 0 = s.le a 1 := by
  obtain ⟨b, hb⟩ := List.length_eq_one_iff.1 (length_bytes s a 1)
  rw [State.le, hb, leNat_singleton]

/-- The salt of a grid is kept with those of the others. -/
def noteSalt (a salt : Nat) : Act := .aux fun y => { y with salts := (a, salt % 2 ^ 64) :: y.salts.filter fun q => q.1 != a }

section salts
variable {s : State} {src : TransomSource} (hs : s.Sound) {i : Image} (hi : s.aux.image = some i) {a salt : Nat}
  (h : s.served src 0x33 (toLe 8 a ++ toLe 8 salt)) (ha : a < 2 ^ 64) (hgrid : a ∈ i.grids)
  (hmem : s.keeperMem a 128)
include hs hi h ha hgrid hmem

theorem resaltGrid_busy (hbusy : s.gridBusy a (s.le (a + 84) 1) = true) : Turned s src (.resaltGrid src) 0x33 stPartBusy := by
  have hk : exec (.resaltGrid src) s = (serve ⟨0x33, .none, false, false, fun n => n == 16⟩ src _).done s := rfl
  have haddr : leAt (toLe 8 a ++ toLe 8 salt) 0 8 = a := leAt_toLe_append.trans (Nat.mod_eq_of_lt ha)
  have hnamed : s.aux.image.any (fun i => i.grids.contains a) = true := by simpa [hi] using hgrid
  obtain ⟨u, hu, hget⟩ := keeperGet_then hs hmem (j := 84) (n := 1) (by decide) (by decide)
  refine turned_answered hk h (tabled_of rfl) (by simp [length_toLe]) (u := u) ?_ hu.sound (hu.rd (by decide) ..) hu.bytes
  rw [run_get]
  simp only [haddr, hnamed, Bool.not_true, Bool.false_eq_true, if_false]
  rw [hget]
  simp only [Except.toOption, Option.getD_some, byteAt_bytes_one, hbusy, Bool.true_or, if_true]

theorem resaltGrid_acts (hsalt : salt < 2 ^ 64) (hzero : salt ≠ 0) (hbusy : s.gridBusy a (s.le (a + 84) 1) = false) :
    Acts s src (.resaltGrid src) 0x33 fun t => t.le (a + 40) 8 = salt ∧ s.BytesBut t (a + 40) 8 ∧ (a, salt) ∈ t.aux.salts := by
  have hk : exec (.resaltGrid src) s = (serve ⟨0x33, .none, false, false, fun n => n == 16⟩ src _).done s := rfl
  have haddr : leAt (toLe 8 a ++ toLe 8 salt) 0 8 = a := leAt_toLe_append.trans (Nat.mod_eq_of_lt ha)
  have hvalue : leAt (toLe 8 a ++ toLe 8 salt) 8 8 = salt :=
    (leAt_toLe_skip le_rfl).trans (leAt_toLe.trans (Nat.mod_eq_of_lt hsalt))
  have hnamed : s.aux.image.any (fun i => i.grids.contains a) = true := by simpa [hi] using hgrid
  obtain ⟨u, hu, hget⟩ := keeperGet_then hs hmem (j := 84) (n := 1) (by decide) (by decide)
  obtain ⟨v, hv, hput⟩ := keeperTry_run hu.sound (hu.keeperMem hmem) (j := 40) (bs := toLe 8 salt) (by decide)
  have hread := hv.read
  rw [length_toLe] at hread
  refine acts_answered hk h (tabled_of rfl) (by simp [length_toLe]) (u := (noteSalt a salt).run v) ?_ (run_sound _ hv.sound) ?_ fun t ht => ⟨?_, ?_, ?_⟩
  · rw [run_get]
    simp only [haddr, hvalue, hnamed, Bool.not_true, Bool.false_eq_true, if_false]
    rw [hget]
    simp only [Except.toOption, Option.getD_some, byteAt_bytes_one, hbusy, Option.isNone_some, Bool.or_false, Bool.false_eq_true, if_false,
      beq_false_of_ne hzero, putSalt, hput, run_seq, run_when_true, if_true]
    rfl
  · exact (hv.reg .vis .TR_DONE 0 0 (by decide)).trans (hu.rd (by decide) ..)
  · rw [State.le, bytes_congr hv.sound ht.sound fun j => ht.bytes.1 j, hread, leNat_toLe]
    exact Nat.mod_eq_of_lt hsalt
  · have hother := hv.other
    rw [length_toLe] at hother
    exact bytesBut_of_same hu.bytes hother ht.bytes
  · obtain ⟨_, _, _, _, haux⟩ := ht.aux
    rw [haux]
    show (a, salt) ∈ (a, salt % 2 ^ 64) :: _
    rw [Nat.mod_eq_of_lt hsalt]
    exact List.mem_cons_self ..

end salts

/-! ### Masks (12 R540) -/

theorem byte_clear {s : State} (hs : s.Sound) (p : Nat → Bool) (a : Nat) :
    ((Act.eff (.clear p)).run s).byte a = if p a = true then 0 else s.byte a := sparseGet_sparseDrop linearCmp_nat p hs.2.1

theorem run_zeroRange {s : State} (hs : s.Sound) (a size : Nat) :
    let u := (zeroRange a size).run s
    u.regs = s.regs ∧ u.cfg = s.cfg ∧ ∀ j, u.byte j = if a ≤ j ∧ j < a + size then 0 else s.byte j := by
  refine ⟨rfl, rfl, fun j => ?_⟩
  have hclear := byte_clear hs (fun x => decide (a ≤ x) && decide (x < a + size)) j
  simp only [Bool.and_eq_true, decide_eq_true_eq] at hclear
  exact hclear

/-- Without sections, new masks leave both stacks of the die zero. -/
theorem run_rehash {s : State} (hs : s.Sound) {i : Image} (hi : i.sections = []) (die : Nat) :
    let u := (rehash i die).run s
    u.rd .TR_DONE 0 = s.rd .TR_DONE 0 ∧ (∀ j, u.cfgByte j = s.cfgByte j) ∧
      ∀ j, u.byte j = if hbmAddr die 0 0 ≤ j ∧ j < hbmAddr die 0 0 + 2 * stackBytes then 0 else s.byte j := by
  have hmasks : Within (fieldsOnly [.HBM_HASH_M]) (.upTo 8 fun m => .random fun v => .set .HBM_HASH_M die m v) := by simp
  have hsections (t : State) : t.memSections i = [] := by simp [State.memSections, hi]
  obtain ⟨hreg, hbytes, -⟩ := run_fieldsOnly hmasks hs
  obtain ⟨hregs, hcfg, hbyte⟩ := run_zeroRange (run_sound (.upTo 8 fun m => .random fun v => .set .HBM_HASH_M die m v) hs)
    (hbmAddr die 0 0) (2 * stackBytes)
  simp only [rehash, run_all_cons, run_all_nil, run_get, hsections, List.filter_nil, run_each_nil, soundWords]
  revert hregs hcfg hbyte
  generalize (zeroRange (hbmAddr die 0 0) (2 * stackBytes)).run _ = v
  intro hregs hcfg hbyte
  refine ⟨(reg_of_regs hregs ..).trans (hreg .vis .TR_DONE 0 0 (by decide)), fun j => ?_, fun j => (hbyte j).trans (by rw [hbytes.1])⟩
  rw [← hbytes.2 j, State.cfgByte, State.cfgByte, cfg_run_aux, hcfg]

theorem dieUp_lt {s : State} (hs : s.Sound) {die : Nat} (hdie : s.dieUp die = true) : die < 2 ^ 4 := by
  obtain ⟨hthere, _⟩ := (Bool.and_eq_true ..).mp hdie
  exact (of_decide_eq_true hthere).trans (reg_lt hs .vis .FUSE_DIES 0 0)

section masks
variable {s : State} {src : TransomSource} (hs : s.Sound) {i : Image} (hi : s.aux.image = some i) {die : Nat}
  (h : s.served src 0x34 (toLe 4 die)) (hdie : s.dieUp die = true)
include hs hi h hdie

theorem rehashHbm_busy (hbusy : s.dieBusy die = true) : Turned s src (.rehashHbm src) 0x34 stPartBusy := by
  have hk : exec (.rehashHbm src) s = (serve ⟨0x34, .none, false, false, fun n => n == 4⟩ src _).done s := rfl
  have harg : leAt (toLe 4 die) 0 4 = die := leAt_toLe.trans (Nat.mod_eq_of_lt ((dieUp_lt hs hdie).trans (by decide)))
  refine turned_answered hk h (tabled_of rfl) (by simp [length_toLe]) (u := s) ?_ hs rfl (sameBytes_refl s)
  simp only [run_get, hi, harg, hdie, hbusy, Bool.not_true, Bool.false_eq_true, if_false, if_true]

theorem rehashHbm_acts (hbusy : s.dieBusy die = false) (hsections : i.sections = []) : Acts s src (.rehashHbm src) 0x34 fun t =>
    (∀ off < 2 * stackBytes, t.byte (hbmAddr die 0 off) = 0) ∧ s.BytesBut t (hbmAddr die 0 0) (2 * stackBytes) := by
  have hk : exec (.rehashHbm src) s = (serve ⟨0x34, .none, false, false, fun n => n == 4⟩ src _).done s := rfl
  have harg : leAt (toLe 4 die) 0 4 = die := leAt_toLe.trans (Nat.mod_eq_of_lt ((dieUp_lt hs hdie).trans (by decide)))
  obtain ⟨hdone, hcfg, hbyte⟩ := run_rehash hs hsections die
  refine acts_answered hk h (tabled_of rfl) (by simp [length_toLe]) (u := (rehash i die).run s) ?_ (run_sound _ hs) hdone
    fun t ht => ⟨fun off hoff => ?_, fun j hj => ?_, fun j => (ht.bytes.2 j).trans (hcfg j)⟩
  · simp only [run_get, hi, harg, hdie, hbusy, Bool.not_true, Bool.false_eq_true, if_false, run_seq]
  · have haddr : hbmAddr die 0 off = hbmAddr die 0 0 + off := by simp only [hbmAddr, pkgAddr]; omega
    rw [ht.bytes.1, hbyte, haddr, if_pos (by omega)]
  · rw [ht.bytes.1, hbyte, if_neg (by omega)]

end masks

/-! ### The return of the part (17 R747, R749) -/

/-- Any register but those of the listed fields, no byte, and any queue. -/
def sparing (fs : List Fld) : Reach := Reach.of (fun f => !fs.contains f) fun _ _ => True

/-- Registers that stopping the partitions leaves as they are, the state of the partitions aside. -/
def stopSpares : List Fld := [.TR_DONE, .PT_STATE]

@[simp] theorem sparing_regs {fs : List Fld} {f : Fld} (h : f ∉ fs) (l : Layer) (d i : Nat) : (sparing fs).regs ⟨f, l, d, i⟩ := by
  simpa [sparing, Reach.of] using h

@[simp] theorem sparing_aux (fs : List Fld) (x y : Aux) : (sparing fs).aux x y := trivial

theorem run_sparing {fs : List Fld} {a : Act} (h : Within (sparing fs) a) {s : State} (hs : s.Sound) :
    (∀ l f d i, f ∈ fs → (a.run s).reg l f d i = s.reg l f d i) ∧ s.SameBytes (a.run s) := by
  obtain ⟨hreg, hmem, hcfg, -⟩ := within_run h (fun _ => trivial) (fun _ _ _ _ _ => trivial) hs
  exact ⟨fun l f d i hf => hreg l f d i (by simpa [sparing, Reach.of] using hf), fun j => hmem j id, fun j => hcfg j id⟩

theorem bellRing_sparing (die src : Nat) : Within (sparing stopSpares) (bellRing die src) := by
  have hbell : ∀ f ∈ bellFields, f ∉ stopSpares := by decide
  exact within_mono (bellRing_bell die src 0) (fun k hk => sparing_regs (hbell k.fld hk.2) ..) (fun _ => id) (fun _ => id)
    fun _ _ _ => trivial

theorem enterSafe_sparing (die parts cause : Nat) : Within (sparing stopSpares) (enterSafe die parts cause) := by
  simp (disch := decide) [enterSafe, bellRing_sparing]

theorem resetCores_sparing : Within (sparing stopSpares) resetCores := by
  have hfields (die core : Nat) : Within (sparing stopSpares)
      (.resetFlds fun f d i => f.ofCore && f != .CORE_STATUS_FENCED && d == die && f.row i == core) := by
    rw [Act.resetFlds, within_eff]
    have hcore : ∀ f ∈ stopSpares, f.ofCore = false := by decide
    intro k hk
    simp only [Bool.and_eq_true] at hk
    obtain ⟨⟨⟨hof, _⟩, _⟩, _⟩ := hk
    exact sparing_regs (fun hf => by simp [hcore k.fld hf] at hof) ..
  simp (disch := decide) [resetCores, resetCore, freeWickets, freeTable, engineRest, hfields]

/-- What follows once every partition is stopped. -/
def stopRest : Act :=
  .all [
    .set .I_RESTART_WARM 0 0 0,
    .set .I_RESTART_COLD 0 0 0,
    .set .I_IMAGE_RUNS 0 0 0,
    .aux fun a => { outputs := a.outputs, lifts := a.lifts },
    .get fun s => .each s.dieList fun d => .upTo 2 fun p => setLink d p 0 0,
    pinsLow]

theorem stopRest_sparing : Within (sparing stopSpares) stopRest := by
  simp (disch := decide) [stopRest, setLink, ethDown, pinsLow]

/-- A partition is stopped, and nothing will restart it. -/
def stopPart (p : Nat) : Act := .seq (.set .PT_STATE 0 p 0) (.set .I_RESTART_PART 0 p 0)

theorem rd_upTo_stopPart {s : State} (hs : s.Sound) {n p : Nat} (hp : p < n) :
    ((Act.upTo n stopPart).run s).rd .PT_STATE 0 p = 0 := by
  induction n with
  | zero => exact absurd hp p.not_lt_zero
  | succ n ih =>
    have hbefore := run_sound (Act.upTo n stopPart) hs
    rw [run_upTo_succ, stopPart, run_seq, rd_run_set (run_sound _ hbefore), if_neg (by simp), rd_run_set hbefore]
    by_cases hpn : p = n
    · rw [if_pos ⟨rfl, rfl, hpn⟩]
      rfl
    · rw [if_neg fun h => hpn h.2.2, ih (by omega)]

theorem upTo_stopPart_fields (n : Nat) : Within (fieldsOnly [.PT_STATE, .I_RESTART_PART]) (.upTo n stopPart) := by
  simp [stopPart]

theorem run_stopPartitions {s : State} (hs : s.Sound) :
    let u := stopPartitions.run s
    u.Sound ∧ u.rd .TR_DONE 0 = s.rd .TR_DONE 0 ∧ (∀ p < 8, u.rd .PT_STATE 0 p = 0) ∧ s.SameBytes u := by
  have hfirst : Within (sparing stopSpares) (.all [.set .I_SAFE_REQ 0 0 255, enterSafe 0 255 causeRequest, resetCores]) := by
    simp (disch := decide) [enterSafe_sparing, resetCores_sparing]
  have hrun : stopPartitions.run s = stopRest.run ((Act.upTo 8 stopPart).run
      ((Act.all [.set .I_SAFE_REQ 0 0 255, enterSafe 0 255 causeRequest, resetCores]).run s)) := by
    simp only [stopPartitions, stopRest, run_all_cons, run_all_nil]
    rfl
  have hsafe := run_sound (.all [.set .I_SAFE_REQ 0 0 255, enterSafe 0 255 causeRequest, resetCores]) hs
  have hstopped := run_sound (.upTo 8 stopPart) hsafe
  obtain ⟨hreg, hbytes⟩ := run_sparing hfirst hs
  obtain ⟨hregParts, hbytesParts, -⟩ := run_fieldsOnly (upTo_stopPart_fields 8) hsafe
  obtain ⟨hregRest, hbytesRest⟩ := run_sparing stopRest_sparing hstopped
  rw [hrun]
  refine ⟨run_sound _ hstopped, ?_, fun p hp => ?_, fun j => ?_, fun j => ?_⟩
  · exact (hregRest .vis .TR_DONE 0 0 (by decide)).trans
      ((hregParts .vis .TR_DONE 0 0 (by decide)).trans (hreg .vis .TR_DONE 0 0 (by decide)))
  · exact (hregRest .vis .PT_STATE 0 p (by decide)).trans (rd_upTo_stopPart hsafe hp)
  · exact (hbytesRest.1 j).trans ((hbytesParts.1 j).trans (hbytes.1 j))
  · exact (hbytesRest.2 j).trans ((hbytesParts.2 j).trans (hbytes.2 j))

/-- The part is decommissioned, and everything is erased. -/
def wipe : Act := .all [.set .FUSE_DECOMM 0 0 1, eraseAll, .set .SEC_STATE 0 0 3]

theorem run_wipe {s : State} (hs : s.Sound) :
    let u := wipe.run s
    u.rd .FUSE_DECOMM 0 = 1 ∧ u.rd .SEC_STATE 0 = 3 ∧ (∀ f d i, f ∉ [Fld.FUSE_DECOMM, .SEC_STATE] → u.rd f d i = s.rd f d i) ∧
      (∀ a, u.byte a = 0) ∧ ∀ a, u.cfgByte a = if a < stateBase ∨ slotsBase ≤ a then 0 else s.cfgByte a := by
  have hdecomm := run_sound (.set .FUSE_DECOMM 0 0 1) hs
  have herased := run_sound (.eff (.erase fun a => decide (a < stateBase) || decide (slotsBase ≤ a))) hdecomm
  have hcleared := run_sound (.eff (.clear fun _ => true)) herased
  have hread (f : Fld) (d i : Nat) : ((Act.eff (.clear fun _ => true)).run ((Act.eff (.erase fun a =>
      decide (a < stateBase) || decide (slotsBase ≤ a))).run ((Act.set .FUSE_DECOMM 0 0 1).run s))).rd f d i =
        ((Act.set .FUSE_DECOMM 0 0 1).run s).rd f d i := rfl
  have hcfg := cfgByte_erase hdecomm fun a => decide (a < stateBase) || decide (slotsBase ≤ a)
  have hbyte := byte_clear herased fun _ => true
  simp only [wipe, eraseAll, run_all_cons, run_all_nil, rd_run_set hcleared, hread, rd_run_set hs]
  refine ⟨rfl, rfl, fun f d i hf => ?_, fun a => hbyte a, fun a => (hcfg a).trans ?_⟩
  · simp only [List.mem_cons, List.not_mem_nil, or_false, not_or] at hf
    rw [if_neg fun h => hf.2 h.1, if_neg fun h => hf.1 h.1]
  · simp only [Bool.or_eq_true, decide_eq_true_eq]
    rfl

theorem returnPart_acts {s : State} (hs : s.Sound) {src : TransomSource} (h : s.served src 0x40 []) :
    Acts s src (.returnPart src) 0x40 fun t =>
      t.rd .FUSE_DECOMM 0 = 1 ∧ t.rd .SEC_STATE 0 = 3 ∧ (∀ p < 8, t.rd .PT_STATE 0 p = 0) ∧ (∀ a, t.byte a = 0) ∧
      ∀ a, t.cfgByte a = if a < stateBase ∨ slotsBase ≤ a then 0 else s.cfgByte a := by
  have hk : exec (.returnPart src) s = (serve ⟨0x40, .owner, false, false, fun n => n == 0⟩ src _).done s := rfl
  obtain ⟨hu, hdone, hparts, hbytes⟩ := run_stopPartitions hs
  obtain ⟨hdecomm, hsec, hother, hbyte, hcfg⟩ := run_wipe hu
  refine acts_answered hk h (tabled_of rfl) rfl (u := wipe.run (stopPartitions.run s)) ?_ (run_sound _ hu) ?_
    fun t ht => ⟨?_, ?_, fun p hp => ?_, fun a => ?_, fun a => ?_⟩
  · simp only [wipe, run_all_cons, run_all_nil]
  · rw [hother _ _ _ (by decide), hdone]
  · rw [ht.rd (by decide), hdecomm]
  · rw [ht.rd (by decide), hsec]
  · rw [ht.rd (by decide), hother _ _ _ (by decide), hparts p hp]
  · rw [ht.bytes.1, hbyte]
  · rw [ht.bytes.2, hcfg, hbytes.2]

/-! ### The table (17 R739) -/

/-- Every row of the table is served as a command of its kind. -/
theorem row_served : ∀ row ∈ transomTable, ∃ c act, commandKind c = rowKind row ∧
    ∀ src s, exec (row.cmd src) s = (serve c src act).done s := by
  simp only [transomTable, List.forall_mem_cons, List.not_mem_nil, false_imp_iff, implies_true, and_true]
  and_intros <;> exact ⟨_, _, rfl, fun _ _ => rfl⟩

section row
variable {s : State} {src : TransomSource} {row : TransomRow} (hrow : row ∈ transomTable) {r : Request} (hr : s.request src = some r)
include hrow

theorem row_unsent (hnone : s.request src = none) : exec (row.cmd src) s = .next s := by
  obtain ⟨_, _, _, hk⟩ := row_served row hrow
  exact next_of_unsent (hk src s) hnone

include hr

theorem row_other (hcode : r.code ≠ row.code) : exec (row.cmd src) s = .next s := by
  obtain ⟨c, _, hkind, hk⟩ := row_served row hrow
  have hc : c.code = row.code := congrArg Prod.fst hkind
  exact next_of_other (hk src s) hr (hc ▸ hcode)

/-- Who is turned away, and with what status (R728, R739, R742, R749). -/
theorem row_turned (hs : s.Sound) (hcode : r.code = row.code) (hfree : srcNet src = true → s.rd .TR_STATE 0 ≠ 1) :
    (s.decommissioned = true → row.decomm = false → Turned s src (row.cmd src) row.code stDecommissioned) ∧
    (s.decommissioned = false → srcOpen src = true → row.bootstrap = false → Turned s src (row.cmd src) row.code stNotAllowed) ∧
    (s.decommissioned = false → srcOpen src = false → r.whole = false ∨ row.signing = true ∧ r.payload.length < 96 →
      Turned s src (row.cmd src) row.code stBadLength) := by
  obtain ⟨c, act, hkind, hk⟩ := row_served row hrow
  simp only [commandKind, rowKind, Prod.mk.injEq] at hkind
  obtain ⟨hc, hsigning, hboot, hdecomm⟩ := hkind
  rw [← hc] at hcode ⊢
  rw [← hsigning, ← hboot, ← hdecomm]
  refine ⟨fun hgone hno => ?_, fun hlive hopen hno => ?_, fun hlive hopen hshort => ?_⟩ <;>
    refine turned_of_request (hk src s) hs hr hcode hfree ?_
  · simp [Command.turnedAway, hgone, hno]
  · simp [Command.turnedAway, hlive, hopen, hno]
  · rw [Command.turnedAway, hlive, hopen, Bool.false_and, Bool.false_and, Bool.false_and, if_neg Bool.false_ne_true,
      if_neg Bool.false_ne_true]
    refine if_pos ?_
    rcases hshort with hwhole | ⟨hsigned, hlen⟩
    · simp [hwhole]
    · rw [isSigned] at hsigned
      simp [hsigned, hlen]

end row

/-- The codes that are known are those of the table. -/
theorem knownCodes_eq : knownCodes = transomTable.map TransomRow.code := rfl

theorem unknownCmd_unsent {s : State} {src : TransomSource} (hnone : s.request src = none) : exec (.unknownCmd src) s = .next s := by
  show execUnknownCmd src s = _
  rw [execUnknownCmd, hnone]
  rfl

theorem unknownCmd_turned {s : State} {src : TransomSource} (hs : s.Sound) {r : Request} (hr : s.request src = some r)
    (hcode : ∀ row ∈ transomTable, r.code ≠ row.code) (hfree : srcNet src = true → s.rd .TR_STATE 0 ≠ 1) :
    Turned s src (.unknownCmd src) r.code stUnknown := by
  have hbusy : ¬ (srcNet src && s.rd .TR_STATE 0 == 1) = true := by simpa using hfree
  have hunknown : knownCodes.contains r.code = false := by
    rw [knownCodes_eq, List.contains_eq_mem, decide_eq_false_iff_not, List.mem_map]
    rintro ⟨row, hrow, hsame⟩
    exact hcode row hrow hsame.symm
  have ht := answered_respond hs r.code stUnknown [] src
  have hrun : exec (.unknownCmd src) s = .next ((respond src r.code stUnknown []).run s) := by
    show execUnknownCmd src s = _
    rw [execUnknownCmd, hr]
    simp only [hunknown, if_neg hbusy]
    rfl
  exact ⟨_, hrun, ht.replied, ht.bytes⟩

/-- Settles O60: each command is served as its row of the table says (17 R739), or turned away before it acts; a served one is its effect
and then its answer (R735), which no fresh nonce changes (R738). -/
theorem transomCommands : Obligations.TransomCommands := by
  intro s src hs turned acts reports calm spare
  refine ⟨fun row hrow r hr => ⟨row_other hrow hr, row_turned hrow hr hs⟩,
    fun hnone => ⟨unknownCmd_unsent hnone, fun row hrow => row_unsent hrow hnone⟩, fun r hr => unknownCmd_turned hs hr,
    getInfo_reports hs, getCert_reports hs, fun nonce first i h hnonce hfirst hi => attest_reports hs h hnonce hfirst hi,
    getParts_reports hs, fun first n => readLog_reports hs, fun key h hkey => ⟨claim_owned hs h hkey, claim_acts hs h hkey⟩,
    fun n blob k => provision_acts hs, fun d hd => ⟨fun len => imageBegin_acts hs hd, fun off data => imageData_acts hs hd,
      imageEnd_runs hs hd, fun tries => imageActivate_acts hs hd, imageConfirm_acts hs hd⟩,
    fun i hi => ⟨rollbackCommit_acts hs hi, fun p => restartPart_acts hs hi, restartWarm_acts hs hi,
      fun a salt h ha hsalt hzero hgrid hmem => ⟨resaltGrid_busy hs hi h ha hgrid hmem, resaltGrid_acts hs hi h ha hgrid hmem hsalt hzero⟩,
      fun die h hdie => ⟨rehashHbm_busy hs hi h hdie, rehashHbm_acts hs hi h hdie⟩⟩,
    restartCold_acts hs, fun fseq b => liftFence_acts hs, returnPart_acts hs,
    fun hdecomm hleft => ⟨testChallenge_runs hs hdecomm hleft,
      fun sig h hsig => ⟨testResponse_opens hs hdecomm hleft h hsig, testResponse_fails hs hdecomm hleft h hsig⟩⟩⟩

end Sys2Proof.Proofs

/-! PROOFS. The commands of the engine array (05_engine_array.md). First computations that succeed; then how a command that runs on
a unit is issued and ends; then GANG, LOADW and STREAM. -/

namespace Sys2Proof.Proofs

open Sys2Proof Sys2Proof.Machine Sys2Proof.Laws

/-! ### Computations that succeed -/

/-- From a state, a computation gives a value and leaves a state. -/
@[irreducible] def Leads {α : Type} (s : State) (m : M α) (a : α) (t : State) : Prop := ∀ k, (m.then k).run s = (k (.ok a)).run t

/-- In a state, a computation gives a value and changes nothing. -/
abbrev Gives {α : Type} (s : State) (m : M α) (a : α) : Prop := Leads s m a s

section leads
variable {α β : Type} {s t u : State}

theorem leads_intro {m : M α} {a : α} (h : ∀ k, (m.then k).run s = (k (.ok a)).run t) : Leads s m a t := by
  unfold Leads
  exact h

theorem leads_then {m : M α} {a : α} (h : Leads s m a t) (k : Except Err α → Act) : (m.then k).run s = (k (.ok a)).run t := by
  unfold Leads at h
  exact h k

theorem leads_pure (a : α) : Gives s (pure a) a := leads_intro fun _ => rfl
theorem leads_state : Gives s M.state s := leads_intro fun _ => rfl
theorem leads_act (a : Act) : Leads s (M.act a) () (a.run s) := leads_intro fun _ => rfl

theorem leads_bind {m : M α} {f : α → M β} {a : α} {b : β} (hm : Leads s m a t) (hf : Leads t (f a) b u) : Leads s (m >>= f) b u :=
  leads_intro fun k => by rw [then_bind, leads_then hm, onOk_ok, leads_then hf]

theorem leads_if {c : Prop} [Decidable c] {m n : M α} {a : α} (hc : c) (h : Leads s m a t) : Leads s (if c then m else n) a t := by
  rwa [if_pos hc]

theorem leads_else {c : Prop} [Decidable c] {m n : M α} {a : α} (hc : ¬ c) (h : Leads s n a t) : Leads s (if c then m else n) a t := by
  rwa [if_neg hc]

theorem gives_collect {xs : List α} {f : α → M β} {g : α → β} (h : ∀ x ∈ xs, Gives s (f x) (g x)) :
    Gives s (M.collect xs f) (xs.map g) := by
  induction xs with
  | nil => exact leads_pure _
  | cons x xs ih =>
    exact leads_bind (h x (List.mem_cons_self ..)) (leads_bind (ih fun y hy => h y (List.mem_cons_of_mem _ hy)) (leads_pure _))

theorem gives_needField {ok : Bool} (h : ok = true) (word bit : Nat) : Gives s (needField ok word bit) () := leads_if h (leads_pure _)

theorem gives_needLocal {word off len align : Nat} (halign : off % align = 0) (hrange : storeRangeOk off len = true) :
    Gives s (needLocal word off len align) () := by
  by_cases hlen : len = 0
  · exact leads_if (by simpa using hlen) (leads_pure _)
  · exact leads_else (by simpa using hlen) (leads_else (by simpa using halign) (leads_if hrange (leads_pure _)))

theorem gives_needPstore {word off len : Nat} (halign : off % 256 = 0) (hlo : 0x800000 ≤ off) (hhi : off + len ≤ 0x880000) :
    Gives s (needPstore word off len) () := leads_else (by simpa using halign) (leads_if (by simp [hlo, hhi]) (leads_pure _))

theorem gives_needEngines {x : Cx} {es : List Nat} (h : ∀ e ∈ es, (s.usable x.die x.core).contains e = true) :
    Gives s (needEngines x es) () := by
  have hnone : (es.filter fun e => !(s.usable x.die x.core).contains e) = [] :=
    List.filter_eq_nil_iff.2 fun e he => by simpa using h e he
  unfold needEngines
  refine leads_bind leads_state ?_
  rw [hnone]
  exact leads_pure _

theorem gives_checkReserved {x : Cx} (h : ∀ n < 8, undefinedField (x.w n) ((definedBits x.cmd.op).getD n 0) = none) :
    Gives s (checkReserved x) () := by
  have hnone : ((List.range 8).filterMap fun n => (undefinedField (x.w n) ((definedBits x.cmd.op).getD n 0)).map fun b => (n, b)) = [] :=
    List.filterMap_eq_nil_iff.2 fun n hn => by rw [h n (List.mem_range.1 hn)]; rfl
  unfold checkReserved
  dsimp only
  rw [hnone]
  exact leads_pure _

theorem gives_readStore {die core off len owner : Nat} (h : s.suspectStore die core = false) :
    Gives s (readStore die core off len owner) (s.bytes (storeAddr die core off) len) :=
  leads_intro (readStore_then h)

end leads

/-! ### Effects repeated for each unit of a core -/

theorem run_upTo_idle {n : Nat} {f : Nat → Act} {s : State} (h : ∀ x < n, (f x).run s = s) : (Act.upTo n f).run s = s := by
  induction n with
  | zero => rfl
  | succ n ih => rw [run_upTo_succ, ih fun x hx => h x (Nat.lt_succ_of_lt hx), h n (Nat.lt_succ_self n)]

/-- An effect that does something at one number alone. -/
theorem run_upTo_only {n e : Nat} {f : Nat → Act} {s t : State} (he : e < n) (hbefore : ∀ x < n, x ≠ e → (f x).run s = s)
    (hat : (f e).run s = t) (hafter : ∀ x < n, x ≠ e → (f x).run t = t) : (Act.upTo n f).run s = t := by
  induction n with
  | zero => exact absurd he (Nat.not_lt_zero e)
  | succ n ih =>
    rw [run_upTo_succ]
    rcases Nat.lt_succ_iff_lt_or_eq.1 he with hlt | rfl
    · rw [ih hlt (fun x hx => hbefore x (Nat.lt_succ_of_lt hx)) fun x hx => hafter x (Nat.lt_succ_of_lt hx)]
      exact hafter n (Nat.lt_succ_self n) (Nat.ne_of_gt hlt)
    · rw [run_upTo_idle fun x hx => hbefore x (Nat.lt_succ_of_lt hx) (Nat.ne_of_lt hx), hat]

/-- An effect of whose rounds the first leaves a state that no round changes. -/
theorem run_upTo_settles {n : Nat} {f : Nat → Act} {s t : State} (h0 : (f 0).run s = t) (h : ∀ x, (f x).run t = t) :
    (Act.upTo (n + 1) f).run s = t := by
  induction n with
  | zero => exact h0
  | succ n ih => rw [run_upTo_succ, ih, h]

/-! ### The issue of a command that runs on a unit (10 R424, R426) -/

/-- Registers that the issue of a command writes. -/
def issueFields : List Fld := [.SQ_CMDS, .CTX_CMDS, .CTX_PC, .CTX_LOOPS, .CTX_CNT, .I_NEXT_ID]

/-- What the issue and the end of a command can change: those registers, the context and the flags raised. -/
def issueReach (die core c : Nat) : Reach where
  regs k := k.fld ∈ issueFields
  mem _ := False
  cfg _ := False
  aux x y := ∃ ctxs raised, y = { x with ctxs := ctxs, raised := raised } ∧
    ∀ k, k ≠ unitKey die core c → tableGet {} k ctxs = tableGet {} k x.ctxs

theorem within_goOn {r : Reach} {die core c : Nat} (hpc : ∀ i, r.regs ⟨.CTX_PC, .vis, die, i⟩)
    (hloops : ∀ i, r.regs ⟨.CTX_LOOPS, .vis, die, i⟩) (hcnt : ∀ i, r.regs ⟨.CTX_CNT, .vis, die, i⟩)
    (hctx : ∀ f, Within r (.ctx die core c f)) (pc : Nat) : Within r (goOn die core c pc) := by
  rw [goOn, within_get]
  intro s
  dsimp only
  split <;> simp [setLoops, setCounter, hpc, hloops, hcnt, hctx]

section issueReach
variable (die core c : Nat)

@[simp] theorem issueReach_regs {f : Fld} (h : f ∈ issueFields) (l : Layer) (d i : Nat) : (issueReach die core c).regs ⟨f, l, d, i⟩ := h

@[simp] theorem ctx_issue (f : Ctx → Ctx) : Within (issueReach die core c) (.ctx die core c f) :=
  (within_aux ..).2 fun x => ⟨_, x.raised, rfl, fun _ hk => tableGet_tableSet.trans (if_neg hk)⟩

@[simp] theorem goOn_issue (pc : Nat) : Within (issueReach die core c) (goOn die core c pc) :=
  within_goOn (fun _ => issueReach_regs _ _ _ (by decide) ..) (fun _ => issueReach_regs _ _ _ (by decide) ..)
    (fun _ => issueReach_regs _ _ _ (by decide) ..) (ctx_issue die core c) pc

theorem issueReach_refl (x : Aux) : (issueReach die core c).aux x x := ⟨_, _, rfl, fun _ _ => rfl⟩

theorem issueReach_trans (x y z : Aux) (h1 : (issueReach die core c).aux x y) (h2 : (issueReach die core c).aux y z) :
    (issueReach die core c).aux x z := by
  obtain ⟨_, _, rfl, h1⟩ := h1
  obtain ⟨_, _, rfl, h2⟩ := h2
  exact ⟨_, _, rfl, fun k hk => (h2 k hk).trans (h1 k hk)⟩

@[simp] theorem raised_issue (x : Aux) (v : Nat) : (issueReach die core c).aux x { x with raised := v } := ⟨x.ctxs, v, rfl, fun _ _ => rfl⟩

end issueReach

/-- The context of a command that has just been issued. -/
def pushed (f : Flight) (y : Ctx) : Ctx := { y with again := y.again.drop 1, flight := y.flight ++ [f] }

/-- A command in flight whose reads have met their checks. -/
def metChecks (f : Flight) : Flight := { f with course := { f.course with meets := [] } }

/-- A command that has been counted stands in flight, the list goes on after it, and no read of it meets a check any more. -/
def placeAct (die core c : Nat) (i : Issue) (f : Flight) : Act :=
  .all [
    .ctx die core c (pushed f),
    goOn die core c (i.addr + 32),
    .flight die core c f.id metChecks,
    .aux fun a => { a with raised := i.flags }]

/-- A command gets its number and is counted. -/
def countAct (die core c id : Nat) : Act :=
  .all [.set .I_NEXT_ID 0 0 id, .inc .SQ_CMDS die core, .inc .CTX_CMDS die (ctxIdx core c)]

/-- The effect of an issue up to the command's own work. -/
def beginAct (die core c : Nat) (i : Issue) (f : Flight) : Act := .seq (countAct die core c f.id) (placeAct die core c i f)

/-- The command in flight as its issue puts it there. -/
def issuedFlight (s : State) (die core : Nat) (i : Issue) (course : Course) : Flight :=
  let id := s.rd .I_NEXT_ID 0 + 1
  { id := id, cmd := { i with ord := id }, units := s.unitsOf die core i, tick := s.ticks, ending := none, course := course }

theorem run_goOn (s : State) (die core c pc : Nat) :
    let r := loopNext pc (s.ctx die core c).loops
    (goOn die core c pc).run s =
      (Act.all [.set .CTX_PC die (ctxIdx core c) r.1, setLoops die core c r.2.1,
        match r.2.2 with
        | some (n, v) => setCounter die core c n v
        | none => .nop]).run s := rfl

theorem ctx_run_goOn (s : State) (die core c pc : Nat) :
    ((goOn die core c pc).run s).ctx die core c = { s.ctx die core c with loops := (loopNext pc (s.ctx die core c).loops).2.1 } := by
  rw [run_goOn]
  generalize loopNext pc (s.ctx die core c).loops = r
  obtain ⟨pc', ls, w⟩ := r
  cases w with
  | none => simp [setLoops]
  | some nv => cases h : nv.1 != 0 <;> simp [setLoops, setCounter, h]

theorem rd_run_sparing {f : Fld} {a : Act} (h : Within (sparing [f]) a) {s : State} (hs : s.Sound) (d i : Nat) :
    (a.run s).rd f d i = s.rd f d i := (run_sparing h hs).1 .vis f d i (List.mem_singleton.2 rfl)

/-- A field that one step of an effect counts up and no other touches. -/
theorem rd_run_inc_between {f : Fld} {a b : Act} (ha : Within (sparing [f]) a) (hb : Within (sparing [f]) b) {s : State} (hs : s.Sound)
    (d i n : Nat) : ((Act.seq a (.seq (.inc f d i n) b)).run s).rd f d i = (s.rd f d i + n) % 2 ^ f.info.width := by
  have ht := run_sound a hs
  rw [run_seq, run_seq, rd_run_sparing hb (run_sound _ ht), rd_run_inc ht, if_pos ⟨rfl, rfl, rfl⟩, rd_run_sparing ha hs]

theorem ctx_sparing (fs : List Fld) (die core c : Nat) (f : Ctx → Ctx) : Within (sparing fs) (.ctx die core c f) :=
  (within_aux ..).2 fun _ => trivial

theorem rd_run_goOn {s : State} (hs : s.Sound) (die core c pc : Nat) :
    ((goOn die core c pc).run s).rd .CTX_PC die (ctxIdx core c) = (loopNext pc (s.ctx die core c).loops).1 % 2 ^ Fld.CTX_PC.info.width := by
  rw [run_goOn]
  generalize loopNext pc (s.ctx die core c).loops = r
  have hrest : Within (sparing [.CTX_PC]) (.all [setLoops die core c r.2.1,
      match r.2.2 with
      | some (n, v) => setCounter die core c n v
      | none => .nop]) := by
    cases r.2.2 <;> simp (disch := decide) [setLoops, setCounter, ctx_sparing]
  rw [run_all_cons, rd_run_sparing hrest (run_sound _ hs), rd_run_set hs, if_pos ⟨rfl, rfl, rfl⟩]

theorem goOn_sparing {fs : List Fld} (h : ∀ f ∈ [Fld.CTX_PC, .CTX_LOOPS, .CTX_CNT], f ∉ fs) (die core c pc : Nat) :
    Within (sparing fs) (goOn die core c pc) :=
  within_goOn (fun _ => sparing_regs (h _ (by decide)) ..) (fun _ => sparing_regs (h _ (by decide)) ..)
    (fun _ => sparing_regs (h _ (by decide)) ..) (ctx_sparing fs die core c) pc

/-- A command has been issued and stands in flight, under a number, ended as given or not yet. -/
def InFlight (s t : State) (die core c : Nat) (i : Issue) (id : Nat) (e : Option Ending) : Prop :=
  s.Counted t die core c ∧ s.GoesOn t die core c (i.addr + 32) ∧
  ∃ f, (t.ctx die core c).flight = [f] ∧ f.id = id ∧ f.begun = true ∧ f.ending = e ∧ f.cmd = { i with ord := id }

theorem performed_of_inFlight {s t : State} {die core c id : Nat} {i : Issue} {e : Option Ending} (h : InFlight s t die core c i id e) :
    s.Performed t die core c i e := by
  obtain ⟨hcounted, hgoes, f, hflight, rfl, hbegun, hend, hcmd⟩ := h
  exact ⟨hcounted, hgoes, f, hflight, hbegun, hend, hcmd⟩

/-- A command has been issued to its unit, and its own work begins. -/
structure Started (s v : State) (die core c : Nat) (i : Issue) (id : Nat) : Prop where
  sound : v.Sound
  inFlight : InFlight s v die core c i id none
  reg : s.FieldsBut v issueFields
  bytes : s.SameBytes v
  aux : ∃ ctxs, v.aux = { s.aux with ctxs := ctxs, raised := 0 }
  others : ∀ d n x, unitKey d n x ≠ unitKey die core c → v.ctx d n x = s.ctx d n x

theorem beginAct_run (s : State) (die core c : Nat) (i : Issue) (f : Flight) :
    (beginAct die core c i f).run s = (placeAct die core c i f).run ((countAct die core c f.id).run s) := rfl

theorem ctx_countAct (s : State) (die core c id : Nat) : ((countAct die core c id).run s).ctx die core c = s.ctx die core c := by
  simp [countAct]

theorem ctx_run_raised (s : State) (v d n x : Nat) : ((Act.aux fun a => { a with raised := v }).run s).ctx d n x = s.ctx d n x := rfl

theorem ctx_of_aux {s : State} {a : Aux} (h : s.aux = a) (d n x : Nat) : s.ctx d n x = tableGet {} (unitKey d n x) a.ctxs := by
  rw [State.ctx, h]

theorem placeAct_sparing {fs : List Fld} (h : ∀ f ∈ [Fld.CTX_PC, .CTX_LOOPS, .CTX_CNT], f ∉ fs) (die core c : Nat) (i : Issue)
    (f : Flight) : Within (sparing fs) (placeAct die core c i f) := by
  simp [placeAct, Act.flight, ctx_sparing, goOn_sparing h]

section begin
variable {s : State} (hs : s.Sound) {die core c : Nat} {i : Issue} {f : Flight}
include hs

theorem counted_countAct (id : Nat) : s.Counted ((countAct die core c id).run s) die core c := by
  have hid := run_sound (.set .I_NEXT_ID 0 0 id) hs
  constructor
  · rw [countAct, run_all_cons]
    exact (rd_run_inc_between (a := .nop) (b := .all [.inc .CTX_CMDS die (ctxIdx core c)]) (within_nop _) (by simp (disch := decide)) hid
      die core 1).trans (by rw [rd_run_set hs, if_neg (by simp)]; rfl)
  · rw [countAct, run_all_cons]
    exact (rd_run_inc_between (a := .inc .SQ_CMDS die core) (b := .nop) (by simp (disch := decide)) (within_nop _) hid
      die (ctxIdx core c) 1).trans (by rw [rd_run_set hs, if_neg (by simp)]; rfl)

theorem counted_beginAct : s.Counted ((beginAct die core c i f).run s) die core c := by
  have hplace {fs : List Fld} (h : ∀ f ∈ [Fld.CTX_PC, .CTX_LOOPS, .CTX_CNT], f ∉ fs) := placeAct_sparing h die core c i f
  have hcount := run_sound (countAct die core c f.id) hs
  obtain ⟨hsq, hctx⟩ := counted_countAct hs f.id (die := die) (core := core) (c := c)
  exact ⟨(rd_run_sparing (hplace (by decide)) hcount ..).trans hsq, (rd_run_sparing (hplace (by decide)) hcount ..).trans hctx⟩

omit hs in
theorem ctx_placeAct (hflight : (s.ctx die core c).flight = []) :
    ((placeAct die core c i f).run s).ctx die core c = { s.ctx die core c with
      again := (s.ctx die core c).again.drop 1
      flight := [metChecks f]
      loops := (loopNext (i.addr + 32) (s.ctx die core c).loops).2.1 } := by
  rw [placeAct, run_all_cons, run_all_cons, run_all_cons, run_all_cons, run_all_nil, ctx_run_raised, Act.flight, ctx_run_ctx_self,
    ctx_run_goOn, ctx_run_ctx_self, pushed, hflight]
  simp

theorem rd_placeAct : ((placeAct die core c i f).run s).rd .CTX_PC die (ctxIdx core c) =
    (loopNext (i.addr + 32) (s.ctx die core c).loops).1 % 2 ^ Fld.CTX_PC.info.width := by
  rw [placeAct, run_all_cons, run_all_cons, run_all_cons, run_all_cons, run_all_nil, rd_run_aux, Act.flight, rd_run_ctx,
    rd_run_goOn (run_sound _ hs), ctx_run_ctx_self, pushed]

theorem started_beginAct (hflight : (s.ctx die core c).flight = [])
    (hflags : i.flags = 0) (hbegun : f.begun = true) (hend : f.ending = none) (hcmd : f.cmd = { i with ord := f.id }) :
    Started s ((beginAct die core c i f).run s) die core c i f.id := by
  have hreach : Within (issueReach die core c) (beginAct die core c i f) := by
    simp (disch := decide) [beginAct, countAct, placeAct, Act.flight]
  obtain ⟨hreg, hmem, hcfg, ctxs, raised, haux, hothers⟩ :=
    within_run hreach (issueReach_refl die core c) (issueReach_trans die core c) hs
  have hcount := run_sound (countAct die core c f.id) hs
  have hsame := ctx_countAct s die core c f.id
  have hctx := ctx_placeAct (s := (countAct die core c f.id).run s) (i := i) (f := f) (hsame ▸ hflight)
  have hpc := rd_placeAct hcount (i := i) (f := f) (die := die) (core := core) (c := c)
  rw [hsame, ← beginAct_run] at hctx hpc
  have hsound := run_sound (beginAct die core c i f) hs
  have hcounted := counted_beginAct hs (i := i) (f := f) (die := die) (core := core) (c := c)
  have hraised : ((beginAct die core c i f).run s).aux.raised = i.flags := by
    simp only [beginAct, run_seq, placeAct, run_all_cons, run_all_nil, aux_run_aux]
  generalize (beginAct die core c i f).run s = v at *
  rw [haux, hflags] at hraised
  refine ⟨hsound, ⟨hcounted, ⟨hpc, congrArg Ctx.loops hctx⟩, _, congrArg Ctx.flight hctx, rfl, hbegun, hend, hcmd⟩, hreg,
    ⟨fun j => hmem j id, fun j => hcfg j id⟩, ⟨ctxs, by rw [haux, ← hraised]⟩, fun d n x hk => ?_⟩
  exact (ctx_of_aux haux d n x).trans (hothers _ hk)

end begin

/-- A change of a context goes by what the context holds. -/
theorem run_ctx_congr {s : State} {die core c : Nat} {f g : Ctx → Ctx} (h : f (s.ctx die core c) = g (s.ctx die core c)) :
    (Act.ctx die core c f).run s = (Act.ctx die core c g).run s := by
  unfold State.ctx at h
  simp only [Act.ctx, Act.aux, run_eff, Eff.apply, h]

/-- The state in which a command's own work begins, once it has been issued to its unit. -/
def startOf (s : State) (die core c : Nat) (i : Issue) (course : Course) : State :=
  (beginAct die core c i (issuedFlight s die core i course)).run s

section issue
variable {s : State} {die core c : Nat} {i : Issue}

/-- The number of the command that a core issues next. -/
def nextId (s : State) : Nat := s.rd .I_NEXT_ID 0 + 1

theorem id_issuedFlight (s : State) (die core : Nat) (i : Issue) (course : Course) :
    (issuedFlight s die core i course).id = s.rd .I_NEXT_ID 0 + 1 := rfl

/-- Reads that meet no failed check, and no reserved bit set: a command is performed as its unit says. -/
theorem run_perform {x : Cx} {id : Nat} {f : Flight} (hflight : (s.ctx x.die x.core x.ctx).flight = [f]) (hid : f.id = id)
    (hmeets : ∀ m ∈ f.course.meets, m.2 = ReadCheck.ok)
    (hreserved : ∀ n < 8, undefinedField (x.w n) ((definedBits x.cmd.op).getD n 0) = none) (body : Cx → Nat → M (Option Nat)) :
    (perform x id body).run s = ((body x id).then (endOf x.die x.core x.ctx id)).run
      ((Act.aux fun a => { a with raised := x.cmd.flags }).run
        ((Act.flight x.die x.core x.ctx id metChecks).run s)) := by
  have hfound : s.flightOf x.die x.core x.ctx id = some f := by simp [State.flightOf, hflight, hid]
  rw [perform, run_get, hfound, run_all_cons, Option.elim_some, meetAll_ok hmeets, run_all_cons, run_all_cons, run_all_cons, run_all_nil,
    then_bind, leads_then (gives_checkReserved hreserved), onOk_ok]
  rfl

/-- The first command of an idle context starts as it is issued. -/
theorem run_issueUnit (hat : s.atCommand die core c i) {course : Course} (hsmooth : course.Smooth) {mine : Issue → Bool}
    (hmine : mine i = true) (body : Cx → Nat → M (Option Nat)) :
    (issueUnit die core c mine body course).run s =
      ((body ⟨die, core, c, { i with ord := nextId s }⟩ (nextId s)).then (endOf die core c (nextId s))).run
        (startOf s die core c i course) := by
  obtain ⟨hnext, hcan, hagain, hflight, -, hreserved⟩ := hat
  obtain ⟨-, hmeets⟩ := hsmooth
  have hcount := ctx_countAct s die core c (nextId s)
  have hidle : waitsBehind [] (s.unitsOf die core i) = false := rfl
  simp only [countAct, run_all_cons, run_all_nil, nextId] at hcount
  simp only [issueUnit, run_get, hnext, hmine, hcan, Bool.and_true, run_when_true, issueCmd, hagain, List.isEmpty_nil, takeOrd, run_seq,
    hflight, hidle, Bool.false_eq_true, if_false, if_true, run_all_cons, run_all_nil, startOf, beginAct, countAct, placeAct,
    id_issuedFlight, nextId]
  generalize (Act.inc .CTX_CMDS die (ctxIdx core c)).run _ = u at hcount ⊢
  rw [run_ctx_congr (g := pushed (issuedFlight s die core i course)) (by simp only [hcount, hflight, hidle, pushed]; rfl)]
  have hissued := ctx_run_goOn ((Act.ctx die core c (pushed (issuedFlight s die core i course))).run u) die core c (i.addr + 32)
  rw [ctx_run_ctx_self, hcount] at hissued
  generalize (goOn die core c (i.addr + 32)).run _ = v at hissued ⊢
  exact run_perform (x := ⟨die, core, c, { i with ord := nextId s }⟩) (f := issuedFlight s die core i course)
    (by rw [hissued, pushed, hflight, List.nil_append]) rfl hmeets hreserved body
end issue

theorem run_issueUnit_leads {s w : State} {die core c : Nat} {i : Issue} (hat : s.atCommand die core c i) {course : Course}
    (hsmooth : course.Smooth) {mine : Issue → Bool} (hmine : mine i = true) {body : Cx → Nat → M (Option Nat)} {r : Option Nat}
    (hbody : Leads (startOf s die core c i course) (body ⟨die, core, c, { i with ord := nextId s }⟩ (nextId s)) r w) :
    (issueUnit die core c mine body course).run s = (endOf die core c (nextId s) (.ok r)).run w :=
  (run_issueUnit hat hsmooth hmine body).trans (leads_then hbody _)

section ends
variable {s : State} {die core c : Nat} {i : Issue}

theorem flags_atCommand (hat : s.atCommand die core c i) : i.flags = 0 := by
  obtain ⟨rfl, -, hagain, -⟩ := hat
  simp [State.nextCmd, hagain]

/-- A command of an opcode is one that its unit takes. -/
theorem isOp_atCommand (hat : s.atCommand die core c i) {op : Nat} (hop : i.op = op) : isOp op i = true := by
  obtain ⟨-, -, -, -, hwords, -⟩ := hat
  simpa [isOp, hop] using hwords

theorem started_startOf (hs : s.Sound) (hat : s.atCommand die core c i) (course : Course) :
    Started s (startOf s die core c i course) die core c i (nextId s) := by
  obtain ⟨-, -, -, hflight, -⟩ := id hat
  exact started_beginAct hs hflight (flags_atCommand hat) rfl rfl rfl

theorem Started.raised {v : State} {id : Nat} (h : Started s v die core c i id) : v.aux.raised = 0 := by
  obtain ⟨ctxs, haux⟩ := h.aux
  rw [haux]

theorem Started.engine {v : State} {id : Nat} (h : Started s v die core c i id) (d n e : Nat) : v.engine d n e = s.engine d n e := by
  obtain ⟨ctxs, haux⟩ := h.aux
  rw [State.engine, haux, State.engine]

theorem Started.rd {v : State} {id : Nat} (h : Started s v die core c i id) {f : Fld} (hf : f ∉ issueFields) (d n : Nat) :
    v.rd f d n = s.rd f d n := h.reg .vis f d n hf

/-- A command stays in flight when the context's counters and place stay and its flight changes each command in the same way. -/
theorem InFlight.step {v w : State} {id : Nat} {e e' : Option Ending} {g : Flight → Flight} (h : InFlight s v die core c i id e)
    (hrd : ∀ f ∈ [Fld.SQ_CMDS, .CTX_CMDS, .CTX_PC], ∀ d n, w.rd f d n = v.rd f d n)
    (hloops : (w.ctx die core c).loops = (v.ctx die core c).loops)
    (hflight : (w.ctx die core c).flight = (v.ctx die core c).flight.map g)
    (hid : ∀ f, (g f).id = f.id) (hbegun : ∀ f, (g f).begun = f.begun)
    (hcmd : ∀ f, f.cmd = { i with ord := id } → (g f).cmd = { i with ord := id })
    (hend : ∀ f, f.id = id → f.cmd = { i with ord := id } → f.ending = e → (g f).ending = e') : InFlight s w die core c i id e' := by
  obtain ⟨⟨hsq, hctx⟩, ⟨hpc, hls⟩, f, hone, hfid, hfbegun, hfend, hfcmd⟩ := h
  refine ⟨⟨(hrd _ (by simp) ..).trans hsq, (hrd _ (by simp) ..).trans hctx⟩, ⟨(hrd _ (by simp) ..).trans hpc, hloops.trans hls⟩, g f,
    by rw [hflight, hone, List.map_singleton], (hid f).trans hfid, (hbegun f).trans hfbegun, hend f hfid hfcmd hfend, hcmd f hfcmd⟩

theorem InFlight.keep {v w : State} {id : Nat} {e : Option Ending} (h : InFlight s v die core c i id e)
    (hrd : ∀ f ∈ [Fld.SQ_CMDS, .CTX_CMDS, .CTX_PC], ∀ d n, w.rd f d n = v.rd f d n)
    (hloops : (w.ctx die core c).loops = (v.ctx die core c).loops)
    (hflight : (w.ctx die core c).flight = (v.ctx die core c).flight) : InFlight s w die core c i id e :=
  h.step (g := fun f => f) hrd hloops (hflight.trans (List.map_id' _).symm) (fun _ => rfl) (fun _ => rfl) (fun _ h => h) fun _ _ _ h => h

theorem run_endOf_done {w : State} (h : w.aux.raised = 0) (id : Nat) :
    (endOf die core c id (.ok (some 0))).run w =
      (endFlight die core c id ⟨0, 0, 0⟩).run ((Act.aux fun a => { a with raised := 0 }).run w) := by
  rw [endOf, run_get, run_seq, h]
  rfl

theorem engine_endOf (w : State) (id : Nat) (r : Except Err (Option Nat)) (d n e : Nat) :
    ((endOf die core c id r).run w).engine d n e = w.engine d n e := by
  rw [endOf, run_get, run_seq]
  rcases r with _ | _ | _ <;> rfl

theorem rd_endOf (w : State) (id : Nat) (r : Except Err (Option Nat)) (f : Fld) (d n : Nat) :
    ((endOf die core c id r).run w).rd f d n = w.rd f d n := by
  rw [endOf, run_get, run_seq]
  rcases r with _ | _ | _ <;> rfl

theorem inFlight_done {w : State} {id : Nat} {e : Option Ending} (h : InFlight s w die core c i id e) (hraised : w.aux.raised = 0) :
    InFlight s ((endOf die core c id (.ok (some 0))).run w) die core c i id (some ⟨0, 0, 0⟩) := by
  rw [run_endOf_done hraised, endFlight]
  refine h.step (fun _ _ _ _ => rfl) (by rw [ctx_run_ctx_self, ctx_run_raised]) (by rw [ctx_run_ctx_self, ctx_run_raised]) ?_ ?_ ?_ ?_
  · intro f; split <;> rfl
  · intro f; split <;> rfl
  · intro f hf; split <;> exact hf
  · intro f hf _ _; rw [hf, BEq.rfl, if_pos rfl]

theorem inFlight_open {w : State} {id : Nat} (h : InFlight s w die core c i id none) (hraised : w.aux.raised = 0) (hflags : i.flags = 0) :
    InFlight s ((endOf die core c id (.ok none)).run w) die core c i id none := by
  rw [endOf, run_get, run_seq, hraised, Act.flight]
  refine h.step (fun _ _ _ _ => rfl) (by rw [ctx_run_ctx_self, ctx_run_raised]) (by rw [ctx_run_ctx_self, ctx_run_raised]) ?_ ?_ ?_ ?_
  · intro f; dsimp only; split <;> rfl
  · intro f; dsimp only; split <;> rfl
  · intro f hf
    dsimp only
    split
    · rw [hf]
      simp [hflags]
    · exact hf
  · intro f _ _ hf
    dsimp only
    split <;> exact hf

end ends

/-! ### GANG -/

section gang
variable {s : State} {die core c : Nat} {i : Issue}

/-- What GANG sets for its context. -/
def chainAct (die core c : Nat) (on : Bool) : Act := .ctx die core c fun y => { y with gang := on }

theorem ctx_chainAct (on : Bool) : ((chainAct die core c on).run s).ctx die core c = { s.ctx die core c with gang := on } := by
  rw [chainAct, ctx_run_ctx_self]

theorem gang_runs (hs : s.Sound) (hat : s.atCommand die core c i) (hop : i.op = 0x12) : Runs (.gang die core c) s fun t =>
    s.Performed t die core c i (some ⟨0, 0, 0⟩) ∧ (t.ctx die core c).gang = bit i.mode 0 ∧ s.OtherContexts t die core c ∧
    s.SameBytes t ∧ s.FieldsBut t issueFields := by
  have hstart := started_startOf hs hat {}
  have hrun := run_issueUnit_leads (w := (chainAct die core c (bit i.mode 0)).run (startOf s die core c i {})) hat (course := {})
    ⟨rfl, by simp⟩ (isOp_atCommand hat hop) (body := fun x _ => do M.act (chainAct die core c (bit x.cmd.mode 0)); pure (some 0))
    (leads_bind (leads_act _) (leads_pure _))
  generalize startOf s die core c i {} = v at hstart hrun
  refine ⟨_, congrArg Host.Outcome.next hrun, ?_⟩
  have hchained := ctx_chainAct (s := v) (die := die) (core := core) (c := c) (bit i.mode 0)
  have hin : InFlight s ((chainAct die core c (bit i.mode 0)).run v) die core c i (nextId s) none :=
    hstart.inFlight.keep (fun _ _ _ _ => rfl) (by rw [hchained]) (by rw [hchained])
  have hraised : ((chainAct die core c (bit i.mode 0)).run v).aux.raised = 0 := hstart.raised
  refine ⟨performed_of_inFlight (inFlight_done hin hraised), ?_, ⟨fun d n x hk => ?_, hstart.engine⟩, hstart.bytes, hstart.reg⟩
  · rw [run_endOf_done hraised, endFlight, ctx_run_ctx_self, ctx_run_raised, hchained]
  · rw [run_endOf_done hraised, endFlight, ctx_run_ctx, if_neg hk, ctx_run_raised, chainAct, ctx_run_ctx, if_neg hk]
    exact hstart.others d n x hk
end gang

/-! ### STREAM -/

section usable
variable {s v : State} {die core c id : Nat} {i : Issue}

/-- The issue of a command leaves the engines that a core may use. -/
theorem Started.usable (h : Started s v die core c i id) (d n : Nat) : v.usable d n = s.usable d n := by
  simp (disch := decide) only [State.usable, State.enabled, State.fencedEngine, State.fencedCore, State.engineMarked, h.rd]

theorem Started.suspectStore (h : Started s v die core c i id) (d n : Nat) : v.suspectStore d n = s.suspectStore d n := by
  obtain ⟨ctxs, haux⟩ := h.aux
  simp (disch := decide) only [State.suspectStore, h.rd, haux]

end usable

/-- Operands that the checks of a STREAM of one engine pass. -/
def StreamFits (o : StreamOp) : Prop :=
  o.m ≠ 0 → o.n ≠ 0 → o.pdst % 256 = 0 ∧ 0x800000 ≤ o.pdst ∧ o.pdst + 256 * o.m ≤ 0x880000 ∧
    (o.acc = true → o.psrc % 256 = 0 ∧ 0x800000 ≤ o.psrc ∧ o.psrc + 256 * o.m ≤ 0x880000) ∧
    (o.k ≠ 0 → storeRangeOk o.asrc (o.rowStride * o.m) = true)

section stream
variable {s : State} {die core c e : Nat} {i : Issue}

theorem arrayClass_ne_zero {fmt : Nat} (h : fmt ≤ 8) : arrayClass fmt ≠ 0 := by
  interval_cases fmt <;> decide

theorem gives_check {o : StreamOp} (hkind : o.kind = 0) (haxis : o.axis = false) (htiled : o.tiled = false) (hafmt : o.afmt ≤ 8)
    (hwfmt : o.wfmt = o.afmt) (hn : o.n ≤ 64) (hk : o.k ≤ kMax o.wfmt true) : Gives s (o.check 1) () := by
  have hpair : pairOk o.afmt o.wfmt = true := by simp [pairOk, hwfmt, arrayClass_ne_zero hafmt]
  have hshape : ¬ (64 < o.n ∨ kMax o.wfmt true < o.k) := by omega
  unfold StreamOp.check
  simp only [hkind, haxis, htiled, hpair, Bool.not_true, one_mul]
  simp only [show ((0 : Nat) == 3) = false from rfl, show ((0 : Nat) == 1) = false from rfl, show ((0 : Nat) == 2) = false from rfl,
    Bool.false_and, Bool.false_eq_true, if_false]
  exact leads_else (by simpa using hshape) (leads_pure _)

/-- The activation rows of a pass lie in one store. -/
theorem gives_rows {o : StreamOp} (htiled : o.tiled = false) (hafmt : o.afmt ≠ fmtMxfp4)
    (hrows : o.k ≠ 0 → storeRangeOk o.asrc (o.rowStride * o.m) = true) {whole : M Unit} :
    Gives s (if o.k == 0 then pure () else if o.tiled then whole else do
      needLocal 4 o.asrc (o.rowStride * o.m) 1
      if o.afmt == fmtMxfp4 then needLocal 5 o.aaux (scaleRow o.k * o.m) 1 else pure ()) () := by
  by_cases hk : o.k = 0
  · exact leads_if (by simpa using hk) (leads_pure _)
  · refine leads_else (by simpa using hk) (leads_else (by simp [htiled]) (leads_bind (gives_needLocal (Nat.mod_one _) (hrows hk)) ?_))
    exact leads_else (by simpa using hafmt) (leads_pure _)

theorem gives_checkAddr {o : StreamOp} (htiled : o.tiled = false) (hafmt : o.afmt ≠ fmtMxfp4) (hfits : StreamFits o) :
    Gives s o.checkAddr () := by
  unfold StreamOp.checkAddr
  by_cases hempty : o.m = 0 ∨ o.n = 0
  · exact leads_if (by simpa using hempty) (leads_pure _)
  obtain ⟨hm, hn⟩ := not_or.1 hempty
  obtain ⟨hdst, hlo, hhi, hsrc, hrows⟩ := hfits hm hn
  refine leads_else (by simpa using hempty) (leads_bind (gives_needPstore hdst hlo hhi) ?_)
  rcases Bool.eq_false_or_eq_true o.acc with hacc | hacc
  · obtain ⟨hsrc, hslo, hshi⟩ := hsrc hacc
    refine leads_if hacc (leads_bind (gives_needPstore hsrc hslo hshi) (gives_rows htiled hafmt hrows))
  · exact leads_else (by simp [hacc]) (gives_rows htiled hafmt hrows)

/-- A command joins the queue of an engine. -/
def queueAct (die core e : Nat) (q : Queued) : Act := .engine die core e fun g => { g with ran := true, queue := g.queue ++ [q] }

theorem leads_stream {x : Cx} {id : Nat} (husable : (s.usable x.die x.core).contains e = true) (hgang : bit (x.w 1) 2 = false)
    (he : x.f 1 0 2 = e) (htiled : x.stream.tiled = false) (hafmt : x.stream.afmt ≤ 8) (hwfmt : x.stream.wfmt = x.stream.afmt)
    (hcheck : Gives s (x.stream.check 1) ()) (haddr : Gives s x.stream.checkAddr ()) :
    Leads s (stream x id) none
      ((queueAct x.die x.core e (.pass { ctx := x.ctx, id := id, cmd := x.cmd, engines := [e] })).run s) := by
  have hok : fmtOk x.stream.afmt = true := by simp [fmtOk, hafmt]
  unfold stream
  refine leads_bind leads_state ?_
  simp only [hgang, he, Bool.false_and, Bool.false_eq_true, if_false, htiled, hwfmt, List.length_singleton]
  refine leads_bind (gives_needEngines (by simpa using husable)) ?_
  refine leads_bind (gives_needField hok ..) (leads_bind (gives_needField hok ..) ?_)
  exact leads_bind hcheck (leads_bind haddr (leads_bind (leads_act _) (leads_pure _)))

theorem stream_runs (hs : s.Sound) (hat : s.atCommand die core c i) {course : Course} (hsmooth : course.Smooth)
    (husable : (s.usable die core).contains e = true) (hop : i.op = 0x11) (hgang : bit (i.w 1) 2 = false) (he : bits (i.w 1) 0 2 = e)
    (htiled : (⟨die, core, c, i⟩ : Cx).stream.tiled = false) (hafmt : (⟨die, core, c, i⟩ : Cx).stream.afmt ≤ 8)
    (hwfmt : (⟨die, core, c, i⟩ : Cx).stream.wfmt = (⟨die, core, c, i⟩ : Cx).stream.afmt)
    (hcheck : ∀ v, Gives v ((⟨die, core, c, i⟩ : Cx).stream.check 1) ())
    (haddr : ∀ v, Gives v (⟨die, core, c, i⟩ : Cx).stream.checkAddr ()) :
    Runs (.stream die core ⟨c, course⟩) s fun t => s.Performed t die core c i none ∧ s.SameBytes t ∧
      ∃ p, t.engine die core e = { s.engine die core e with ran := true, queue := (s.engine die core e).queue ++ [.pass p] } ∧
        p = { ctx := c, id := p.id, cmd := { i with ord := p.id }, engines := [e] } := by
  have hstart := started_startOf hs hat course
  have hleads := leads_stream (s := startOf s die core c i course) (x := ⟨die, core, c, { i with ord := nextId s }⟩) (id := nextId s)
    ((hstart.usable die core).symm ▸ husable) hgang he htiled hafmt hwfmt (hcheck _) (haddr _)
  have hrun := run_issueUnit_leads hat hsmooth (isOp_atCommand hat hop) hleads
  have hengine := hstart.engine die core e
  generalize startOf s die core c i course = v at hstart hrun hengine
  refine ⟨_, congrArg Host.Outcome.next hrun, ?_⟩
  generalize hp : ({ ctx := c, id := nextId s, cmd := { i with ord := nextId s }, engines := [e] } : Pass) = p
  have hin : InFlight s ((queueAct die core e (.pass p)).run v) die core c i (nextId s) none :=
    hstart.inFlight.keep (fun _ _ _ _ => rfl) rfl rfl
  refine ⟨performed_of_inFlight (inFlight_open hin hstart.raised (flags_atCommand hat)), hstart.bytes, p, ?_, ?_⟩
  · rw [engine_endOf, ← hengine, queueAct, engine_run_engine_self]
  · rw [← hp]

end stream

/-! ### LOADW: a load that nothing waits before takes place at once -/

section stage
variable {s : State} {die core c e id : Nat} {w : Weights}

/-- What an engine of a core holds after one of that core has been changed. -/
theorem engine_run_engine_core (f : Engine → Engine) (n : Nat) :
    ((Act.engine die core e f).run s).engine die core n = if n = e then f (s.engine die core e) else s.engine die core n := by
  have hkey : unitKey die core n = unitKey die core e ↔ n = e := by unfold unitKey; omega
  rw [engine_run_engine, if_congr hkey rfl rfl]

/-- A load leaves its queue, its weights are staged, and its command ends. -/
def takeLoad (die core e c id : Nat) (w : Weights) : Act :=
  .all [.engine die core e fun g => { g with queue := g.queue.drop 1 }, stage die core e c w, endLoad die core c id]

theorem engine_takeLoad (n : Nat) : ((takeLoad die core e c id w).run s).engine die core n =
    if n = e then { s.engine die core e with
      queue := (s.engine die core e).queue.drop 1, staged := some w, stagedCtx := c, reload := none, reloadFail := none }
    else s.engine die core n := by
  have hskip : ((takeLoad die core e c id w).run s).engine die core n =
      ((Act.engine die core e fun g => { g with staged := some w, stagedCtx := c, reload := none, reloadFail := none }).run
        ((Act.engine die core e fun g => { g with queue := g.queue.drop 1 }).run s)).engine die core n := rfl
  rw [hskip, engine_run_engine_core, engine_run_engine_core, engine_run_engine_core]
  split <;> simp

theorem rd_takeLoad (hs : s.Sound) (f : Fld) (d n : Nat) : ((takeLoad die core e c id w).run s).rd f d n =
    if f = .ENG_STATUS_STAGED ∧ d = die ∧ n = ctxIdx core e then 1 else s.rd f d n := by
  rw [takeLoad, run_all_cons, run_all_cons, run_all_cons, run_all_nil, endLoad, rd_run_ctx, stage, run_seq,
    rd_run_set (run_sound _ (run_sound _ hs)), rd_run_engine, rd_run_engine]
  exact if_congr Iff.rfl (by decide) rfl

theorem ctx_takeLoad : ((takeLoad die core e c id w).run s).ctx die core c = { s.ctx die core c with
    flight := (s.ctx die core c).flight.map fun f => if f.id == id then { f with ending := some (Ending.ok f.cmd.flags) } else f } := by
  rw [takeLoad, run_all_cons, run_all_cons, run_all_cons, run_all_nil, endLoad, ctx_run_ctx_self]
  rfl

/-- A load stands in no empty queue. -/
theorem waitsFor_empty (h : ∀ n < 4, (s.engine die core n).queue = []) :
    ((List.range 4).any fun n => (s.engine die core n).waitsFor c id) = false := by
  refine List.any_eq_false.2 fun n hn => ?_
  rw [Engine.waitsFor, h n (List.mem_range.1 hn), List.any_nil]
  exact Bool.false_ne_true

theorem run_stageHead_empty (h : (s.engine die core e).queue = []) : (stageHead die core e).run s = s := by
  rw [stageHead, run_get, h]
  rfl

theorem queue_takeLoad (hhead : (s.engine die core e).queue = [.load c id [e] w])
    (hothers : ∀ n < 4, n ≠ e → (s.engine die core n).queue = []) :
    ∀ n < 4, (((takeLoad die core e c id w).run s).engine die core n).queue = [] := by
  intro n hn
  rw [engine_takeLoad]
  split
  · rw [hhead]; rfl
  · exact hothers n hn ‹_›

theorem run_stageHead_alone (hhead : (s.engine die core e).queue = [.load c id [e] w])
    (hothers : ∀ n < 4, n ≠ e → (s.engine die core n).queue = []) :
    (stageHead die core e).run s = (takeLoad die core e c id w).run s := by
  have hnone := waitsFor_empty (c := c) (id := id) (queue_takeLoad hhead hothers)
  rw [stageHead, run_get, hhead]
  simp only [hhead, List.all_cons, List.all_nil, BEq.rfl, Bool.and_self, if_true, Option.isSome_some, run_when_true, Option.getD_some,
    run_all_cons, run_all_nil, run_each_cons, run_each_nil, run_get]
  rw [run_when]
  exact if_pos (congrArg not hnone)

theorem run_stageHeads_alone (he : e < 4) (hhead : (s.engine die core e).queue = [.load c id [e] w])
    (hothers : ∀ n < 4, n ≠ e → (s.engine die core n).queue = []) :
    (stageHeads die core).run s = (takeLoad die core e c id w).run s := by
  have hfixed : ∀ n < 4, (stageHead die core n).run ((takeLoad die core e c id w).run s) = (takeLoad die core e c id w).run s :=
    fun n hn => run_stageHead_empty (queue_takeLoad hhead hothers n hn)
  exact run_upTo_settles
    (run_upTo_only he (fun n hn hne => run_stageHead_empty (hothers n hn hne)) (run_stageHead_alone hhead hothers)
      fun n hn _ => hfixed n hn)
    fun _ => run_upTo_idle hfixed

end stage

/-! ### The tile of a dense load -/

/-- Output column `n` of a dense block, as its load reads it. -/
def denseRow (s : State) (die core : Nat) (o : LoadOp) (n : Nat) : List Byte :=
  let need := if n < o.n then packedBytes o.fmt o.k else 0
  s.bytes (storeAddr die core (o.src + n * weightRow o.fmt)) need ++ List.replicate (weightRow o.fmt - need) 0

section tile
variable {s : State} {die core : Nat} {o : LoadOp}

/-- The most positions of a column fill its row of the block. -/
theorem kMax_mul_fmtBits {fmt : Nat} (h : fmt ≤ 8) : kMax fmt false * fmtBits fmt = 8 * weightRow fmt := by
  interval_cases fmt <;> decide

theorem packedBytes_le_weightRow {fmt k : Nat} (hfmt : fmt ≤ 8) (hk : k ≤ kMax fmt false) : packedBytes fmt k ≤ weightRow fmt := by
  have hbits := Nat.mul_le_mul_right (fmtBits fmt) hk
  rw [kMax_mul_fmtBits hfmt] at hbits
  unfold packedBytes
  omega

theorem length_denseRow (hfmt : o.fmt ≤ 8) (hk : o.k ≤ kMax o.fmt false) (n : Nat) :
    (denseRow s die core o n).length = weightRow o.fmt := by
  have hle := packedBytes_le_weightRow hfmt hk
  simp only [denseRow, List.length_append, length_bytes, List.length_replicate]
  split <;> omega

theorem storeAddr_add (off b : Nat) : storeAddr die core off + b = storeAddr die core (off + b) := by
  simp only [storeAddr, pkgAddr, Nat.add_assoc]

theorem byteAt_bytes (hs : s.Sound) {a n b : Nat} (hb : b < n) : byteAt (s.bytes a n) b = (s.byte (a + b)).toNat := by
  rw [bytes_eq hs, byteAt, List.getD_eq_getElem?_getD]
  simp [hb]

theorem byteAt_tile (hs : s.Sound) (hfmt : o.fmt ≤ 8) (hk : o.k ≤ kMax o.fmt false) {col b : Nat} (hcol : col < o.n) (hn : o.n ≤ 64)
    (hb : b < packedBytes o.fmt o.k) :
    byteAt ((List.range 64).flatMap (denseRow s die core o)) (col * weightRow o.fmt + b) =
      (s.byte (storeAddr die core (o.src + col * weightRow o.fmt + b))).toNat := by
  obtain ⟨rest, hrest⟩ := drop_flatMap_range (length_denseRow (s := s) (die := die) (core := core) hfmt hk) (hcol.trans_le hn)
  have hbyte := byteAt_bytes hs (a := storeAddr die core (o.src + col * weightRow o.fmt)) hb
  rw [storeAddr_add] at hbyte
  rw [Nat.mul_comm] at hrest
  rw [← byteAt_drop, hrest, denseRow, if_pos hcol, List.append_assoc, ← hbyte, byteAt, List.getD_append _ _ _ _ (by rwa [length_bytes])]
  rfl

theorem gives_readPadded (hsuspect : s.suspectStore die core = false) (off need size : Nat) :
    Gives s (readPadded die core off need size) (s.bytes (storeAddr die core off) need ++ List.replicate (size - need) 0) := by
  unfold readPadded
  by_cases hneed : need = 0
  · have hnil : s.bytes (storeAddr die core off) need = [] := List.eq_nil_of_length_eq_zero ((length_bytes ..).trans hneed)
    rw [hnil, hneed]
    exact leads_if rfl (leads_bind (leads_pure []) (leads_pure _))
  · refine leads_else (by simpa using hneed) (leads_bind (gives_readStore hsuspect) ?_)
    simpa only [length_bytes] using leads_pure (s := s) (_ ++ List.replicate (size - (s.bytes (storeAddr die core off) need).length) 0)

theorem local_zero (hk : o.k ≤ kMax o.fmt false) (hsp24 : o.sp24 = false) : o.local_ 0 = o.k := by
  rw [LoadOp.local_, hsp24, Nat.zero_mul, Nat.sub_zero, Nat.min_eq_left hk]

theorem gives_dense (hsuspect : s.suspectStore die core = false) (hk : o.k ≤ kMax o.fmt false) (hsp24 : o.sp24 = false) :
    Gives s (o.dense die core 0) ((List.range 64).flatMap (denseRow s die core o)) := by
  unfold LoadOp.dense
  rw [local_zero hk hsp24, List.flatMap_def]
  refine leads_bind (gives_collect fun n _ => ?_) (leads_pure _)
  simpa only [Nat.zero_mul, Nat.add_zero, denseRow] using gives_readPadded hsuspect ..

/-- A dense block of one engine, as its LOADW reads it. -/
def denseWeights (s : State) (x : Cx) : Weights :=
  let o := x.loadOp
  ⟨o.fmt, o.k, o.n, false, false, (List.range 64).flatMap (denseRow s x.die x.core o), [], [], x.cmd, x.ctx, 0⟩

theorem gives_read {x : Cx} (hsuspect : s.suspectStore x.die x.core = false) (hfmt : x.loadOp.fmt ≠ fmtMxfp4)
    (hk : x.loadOp.k ≤ kMax x.loadOp.fmt false) (hsp24 : x.loadOp.sp24 = false) :
    Gives s (x.loadOp.read x false 0) (denseWeights s x) := by
  have hlocal : x.loadOp.local_ 0 = x.loadOp.k := local_zero hk hsp24
  have hscale : (x.loadOp.fmt == fmtMxfp4) = false := by simpa using hfmt
  unfold LoadOp.read
  simp only [hlocal, hscale, hsp24, Bool.false_and, Bool.false_eq_true, if_false, pure_bind]
  exact leads_bind (gives_dense hsuspect hk hsp24) (leads_pure _)

end tile

/-! ### LOADW -/

section loadw
variable {s : State} {die core c e : Nat} {i : Issue}

theorem maskEngines_two_pow (he : e < 4) : maskEngines (2 ^ e) = [e] := by
  interval_cases e <;> decide

theorem bit_of_bits {n k : Nat} (h : bits n 0 2 = 0) (hk : k < 2) : bit n k = false := by
  unfold bits at h
  interval_cases k <;> simp [bit, bits, Nat.shiftRight_eq_div_pow] at h ⊢ <;> omega

theorem kMax_le (fmt : Nat) : kMax fmt false ≤ 1024 := by
  unfold kMax
  split <;> decide

theorem queue_queueAct (q : Queued) (h : ∀ n < 4, (s.engine die core n).queue = []) (he : e < 4) :
    (((queueAct die core e q).run s).engine die core e).queue = [q] := by
  rw [queueAct, engine_run_engine_self, h e he, List.nil_append]

theorem queue_queueAct_other (q : Queued) (h : ∀ n < 4, (s.engine die core n).queue = []) :
    ∀ n < 4, n ≠ e → (((queueAct die core e q).run s).engine die core n).queue = [] := by
  intro n hn hne
  rw [queueAct, engine_run_engine_core, if_neg hne, h n hn]

/-- What a LOADW asks of a dense block for one engine. -/
structure DenseLoad (x : Cx) (e : Nat) : Prop where
  mode : bits x.cmd.mode 0 2 = 0
  mask : bits (x.w 1) 0 4 = 2 ^ e
  fmt : x.loadOp.fmt ≤ 8
  scaled : x.loadOp.fmt ≠ fmtMxfp4
  kpos : 1 ≤ x.loadOp.k
  kle : x.loadOp.k ≤ kMax x.loadOp.fmt false
  npos : 1 ≤ x.loadOp.n
  nle : x.loadOp.n ≤ 64
  range : storeRangeOk x.loadOp.src (x.loadOp.n * weightRow x.loadOp.fmt) = true

theorem leads_loadw {x : Cx} {id : Nat} (he : e < 4) (husable : (s.usable x.die x.core).contains e = true) (h : DenseLoad x e)
    (hsuspect : s.suspectStore x.die x.core = false) (hqueues : ∀ n < 4, (s.engine x.die x.core n).queue = []) :
    Leads s (loadw x id) (some 0) ((takeLoad x.die x.core e x.ctx id (denseWeights s x)).run
      ((queueAct x.die x.core e (.load x.ctx id [e] (denseWeights s x))).run s)) := by
  obtain ⟨hmode, hmask, hfmt, hscaled, hkpos, hkle, hnpos, hnle, hrange⟩ := h
  have hsp24 : x.loadOp.sp24 = false := bit_of_bits hmode (by decide)
  have hgang : bit x.cmd.mode 1 = false := bit_of_bits hmode (by decide)
  have hes : maskEngines (x.f 1 0 4) = [e] := (congrArg maskEngines hmask).trans (maskEngines_two_pow he)
  have hok : fmtOk x.loadOp.fmt = true := by simp [fmtOk, hfmt]
  have hscale : (x.loadOp.fmt == fmtMxfp4) = false := by simpa using hscaled
  have hclass : (arrayClass x.loadOp.fmt == 0) = false := by simpa using arrayClass_ne_zero hfmt
  have hk0 : (x.loadOp.k == 0) = false := by simpa using Nat.ne_of_gt hkpos
  have hn0 : (x.loadOp.n == 0) = false := by simpa using Nat.ne_of_gt hnpos
  unfold loadw
  refine leads_bind leads_state ?_
  simp only [hgang, hsp24, hes, hscale, hclass, hk0, hn0, Bool.false_and, Bool.or_self, Bool.false_eq_true, if_false, Nat.sub_self,
    Nat.zero_mul, Nat.zero_add]
  refine leads_bind (gives_needEngines (by simpa using husable)) ?_
  have hkfield : x.loadOp.k ≤ 1024 := hkle.trans (kMax_le x.loadOp.fmt)
  refine leads_bind (gives_needField hok ..) (leads_bind (gives_needField (by simpa using hkfield) ..) ?_)
  refine leads_bind (gives_needField (by simpa using hnle) ..) (leads_bind (gives_needLocal (Nat.mod_one _) hrange) ?_)
  refine leads_bind (gives_collect (g := fun _ => denseWeights s x) (by simpa using gives_read hsuspect hscaled hkle hsp24)) ?_
  have hqueued := queue_queueAct (.load x.ctx id [e] (denseWeights s x)) hqueues he
  have hothers := queue_queueAct_other (.load x.ctx id [e] (denseWeights s x)) hqueues (e := e)
  have hdone := waitsFor_empty (c := x.ctx) (id := id) (queue_takeLoad hqueued hothers)
  rw [← run_stageHeads_alone he hqueued hothers] at hdone ⊢
  refine leads_bind (leads_act _) (leads_bind (leads_act _) (leads_bind leads_state ?_))
  exact (if_neg (Bool.eq_false_iff.1 hdone)) ▸ leads_pure (some 0)

theorem inFlight_takeLoad {v : State} {id : Nat} {e' : Option Ending} (hv : v.Sound) (h : InFlight s v die core c i id e') (w : Weights) :
    InFlight s ((takeLoad die core e c id w).run v) die core c i id (some (Ending.ok i.flags)) := by
  have hctx := ctx_takeLoad (s := v) (die := die) (core := core) (e := e) (c := c) (id := id) (w := w)
  refine h.step (fun f hf d n => ?_) (by rw [hctx]) (by rw [hctx]) ?_ ?_ ?_ ?_
  · rw [rd_takeLoad hv, if_neg fun hstaged => ?_]
    rw [hstaged.1] at hf
    exact absurd hf (by decide)
  · intro f; split <;> rfl
  · intro f; split <;> rfl
  · intro f hf; split <;> exact hf
  · intro f hid hcmd _; rw [hid, BEq.rfl, if_pos rfl, hcmd]

theorem loadw_runs (hs : s.Sound) (hat : s.atCommand die core c i) {course : Course} (hsmooth : course.Smooth) (he : e < 4)
    (husable : (s.usable die core).contains e = true) (hop : i.op = 0x10) (hload : DenseLoad ⟨die, core, c, i⟩ e)
    (hsuspect : s.suspectStore die core = false) (hqueues : ∀ n < 4, (s.engine die core n).queue = []) :
    let o := (⟨die, core, c, i⟩ : Cx).loadOp
    Runs (.loadw die core ⟨c, course⟩) s fun t =>
      s.Performed t die core c i (some ⟨0, 0, 0⟩) ∧ s.SameBytes t ∧ t.rd .ENG_STATUS_STAGED die (ctxIdx core e) = 1 ∧
      (∃ w, (t.engine die core e).staged = some w ∧ w.fmt = o.fmt ∧ w.k = o.k ∧ w.n = o.n ∧ w.sp24 = false ∧
        ∀ col < o.n, ∀ b < packedBytes o.fmt o.k,
          byteAt w.tile (col * weightRow o.fmt + b) = (s.byte (storeAddr die core (o.src + col * weightRow o.fmt + b))).toNat) ∧
      (t.engine die core e).active = (s.engine die core e).active := by
  intro o
  have hstart := started_startOf hs hat course
  have hleads := leads_loadw (s := startOf s die core c i course) (x := ⟨die, core, c, { i with ord := nextId s }⟩) (id := nextId s) he
    ((hstart.usable die core).symm ▸ husable) ⟨hload.mode, hload.mask, hload.fmt, hload.scaled, hload.kpos, hload.kle, hload.npos,
      hload.nle, hload.range⟩ ((hstart.suspectStore die core).trans hsuspect) (by simpa only [hstart.engine] using hqueues)
  have hrun := run_issueUnit_leads hat hsmooth (isOp_atCommand hat hop) hleads
  generalize startOf s die core c i course = v at hstart hrun
  refine ⟨_, congrArg Host.Outcome.next hrun, ?_⟩
  generalize hw : denseWeights v ⟨die, core, c, { i with ord := nextId s }⟩ = w
  have hqueued := run_sound (queueAct die core e (.load c (nextId s) [e] w)) hstart.sound
  have hin : InFlight s ((queueAct die core e (.load c (nextId s) [e] w)).run v) die core c i (nextId s) none :=
    hstart.inFlight.keep (fun _ _ _ _ => rfl) rfl rfl
  refine ⟨performed_of_inFlight (inFlight_done (inFlight_takeLoad hqueued hin w) hstart.raised), hstart.bytes, ?_, ⟨w, ?_, ?_⟩, ?_⟩
  · rw [rd_endOf, rd_takeLoad hqueued, if_pos ⟨rfl, rfl, rfl⟩]
  · rw [engine_endOf, engine_takeLoad, if_pos rfl]
  · subst hw
    refine ⟨rfl, rfl, rfl, rfl, fun col hcol b hb => ?_⟩
    exact (byteAt_tile hstart.sound hload.fmt hload.kle hcol hload.nle hb).trans (congrArg BitVec.toNat (hstart.bytes.1 _))
  · rw [engine_endOf, engine_takeLoad, if_pos rfl, queueAct, engine_run_engine_self, hstart.engine]

end loadw

/-- Settles O35: each command is issued to its unit and does its own work there, by `gang_runs`, `loadw_runs` and `stream_runs`. -/
theorem engineCommands : Obligations.EngineCommands := by
  unfold Obligations.EngineCommands
  intro s die core c e course i hs hat hsmooth he husable x
  refine ⟨gang_runs hs hat, ?_, ?_⟩
  · intro o hop hmode hmask hfmt hscaled hkpos hkle hnpos hnle hrange hsuspect hqueues
    exact loadw_runs hs hat hsmooth he husable hop ⟨hmode, hmask, hfmt, hscaled, hkpos, hkle, hnpos, hnle, hrange⟩ hsuspect hqueues
  · intro o hop hgang hmask hkind haxis htiled hafmt hscaled hwfmt hn hk hfits
    exact stream_runs hs hat hsmooth husable hop hgang hmask htiled hafmt hwfmt
      (fun _ => gives_check hkind haxis htiled hafmt hwfmt hn hk) fun _ => gives_checkAddr htiled hscaled hfits

end Sys2Proof.Proofs

/-! PROOFS. The statements about the engine array (05_engine_array.md) that fail: the state in which a fault of an idle engine loses the
load of its staged weights, and the state in which a pass gets the ending of another pass of its command. -/

namespace Sys2Proof.Proofs

open Sys2Proof Sys2Proof.Machine Sys2Proof.Laws

/-- The state after a command, where it has one. -/
def nextOf (c : Instr) (s : State) : State :=
  match exec c s with
  | .next t => t
  | _ => s

theorem nextOf_eq {c : Instr} {s t : State} (h : exec c s = .next t) : nextOf c s = t := by rw [nextOf, h]

/-- One INT8 weight, loaded by command 1 of context 1. -/
def oneWeight : Weights :=
  { fmt := fmtInt8, k := 1, n := 1, sp24 := false, ganged := false, tile := List.replicate 4096 0, hdr := [], scale := [],
    load := { addr := 0, words := [0x10], cnt := [], row := 0, ord := 1 }, ctx := 1, slice := 0 }

/-- Weights of that load, staged. -/
def stagedWeight : Weights := { oneWeight with tile := [] }

/-- WAIT_BELL for the source of the Keeper's fault records (16 R708), from any die. -/
def rerunWait : Flight := flightOf [0x05, 0x090 + 2 ^ 13] true

/-- Context 0 of core 0 waits for a fault record, whose source's target is its sequencer; context 1 has staged weights in engine 0. -/
def alarmedEngine : State :=
  (Act.all [.set .CTX_STATE 0 0 2, .set .CTX_STATE 0 1 1, .set .BELL_TGT_KIND 0 0x090 2, .set .BELL_MASK 0 4 0,
    .ctx 0 0 0 fun y => { y with flight := [rerunWait] },
    .engine 0 0 0 fun g => { g with staged := some stagedWeight, stagedCtx := 1 }]).run State.reset

theorem alarmedEngine_idle :
    alarmedEngine.provingBy 0 0 0 = none ∧ alarmedEngine.atLimit 0 0 0 = false ∧ (alarmedEngine.usable 0 0).contains 0 = true := by
  decide +kernel

theorem alarmedEngine_staged :
    let g := alarmedEngine.engine 0 0 0
    g.flight = [] ∧ g.reload = none ∧ g.staged = some stagedWeight := by
  decide +kernel

/-- The record of the fault ends the wait of context 0, which pre-empts context 1 before its staged weights have been discarded for
their reload. -/
theorem alarmedEngine_withdrawn : ((nextOf (.engineFault 0 0 0 3 0 0 0 0) alarmedEngine).engine 0 0 0).reload = none := by decide +kernel

/-- Refutes O37: a fault of an idle engine does not always lead to a reload of its staged weights. Its record rings the Bell (16 R708); a
context of higher priority that waits for that source runs again and pre-empts the context of the weights (10 R430, R455), which takes them
out of the engine before they are noted for their reload. -/
theorem not_drainsFaultsAndStoreErrors : ¬ Obligations.DrainsFaultsAndStoreErrors := by
  unfold Obligations.DrainsFaultsAndStoreErrors
  intro h
  obtain ⟨hflight, hreload, hstaged⟩ := alarmedEngine_staged
  obtain ⟨-, hidle, -⟩ := h alarmedEngine 0 0 0 { ctx := 1, id := 1, cmd := oneWeight.load, engines := [0] } oneWeight []
    (run_sound _ resetIsSound) (by decide) (by decide)
  obtain ⟨t, hexec, -, -, -, -, hagain, -⟩ := hidle alarmedEngine_idle hflight hreload
  obtain rfl := nextOf_eq hexec
  rw [alarmedEngine_withdrawn, hstaged] at hagain
  cases hagain

/-- The words of a STREAM of one row in engine 0: INT8, K = 1, N = 1, the row at the start of A-store, its output at that of P-store. -/
def oneRowStream : Issue := { addr := 0, words := [0x11, 0x110, 1, 0x10001, 0, 0, 0, 0x800000], cnt := [], row := 0, ord := 1 }

/-- That pass, begun, with its row issued. -/
def oneRowPass : Pass := { ctx := 0, id := 1, cmd := oneRowStream, engines := [0], ws := [oneWeight], head := some (0, [0]), next := 1 }

/-- A pass in engine 1 of a command with the same number, which has issued no row and ends with an error. -/
def twinPass : Pass := { ctx := 0, id := 1, cmd := oneRowStream, engines := [1], fail := some ⟨codePassNoWeights, 0, 1⟩ }

/-- The command of both passes, in flight. -/
def twinCommand : Flight := { flightOf [] true with cmd := oneRowStream }

/-- Both passes stand in their engines at once. -/
def twinPasses : State :=
  (Act.all [.set .CTX_STATE 0 0 1,
    .ctx 0 0 0 fun y => { y with flight := [twinCommand] },
    .engine 0 0 0 fun g => { g with flight := [oneRowPass], active := some oneWeight },
    .engine 0 0 1 fun g => { g with flight := [twinPass] }]).run State.reset

theorem twinPasses_ready :
    twinPasses.suspectStore 0 0 = false ∧ (twinPasses.engine 0 0 0).flight = [oneRowPass] ∧
      (twinPasses.ctx 0 0 0).flight = [twinCommand] := by
  refine ⟨by decide +kernel, ?_, by decide +kernel⟩
  simp [twinPasses, engine_run_engine, unitKey]

theorem oneRowPass_plain : oneRowPass.Plain 0 0 0 oneWeight := by
  simp only [Pass.Plain]
  decide +kernel

/-- The end of the first pass retires the second, whose ending is then that of their command. -/
theorem twinPasses_end :
    ((nextOf (.passComplete 0 0 0) twinPasses).ctx 0 0 0).flight.map Flight.ending = [some ⟨codePassNoWeights, 0, 1⟩] := by
  decide +kernel

/-- Refutes O36: the statement does not say that the pass is the only one of its command. Another engine holds a pass with the same command
number that issues no row and has failed; it completes as soon as the pass of the statement has (05 R223), and its error takes the place
of the ending. -/
theorem not_passesComputeTheirSums : ¬ Obligations.PassesComputeTheirSums := by
  unfold Obligations.PassesComputeTheirSums
  intro h
  obtain ⟨hsuspect, hflight, hcommand⟩ := twinPasses_ready
  obtain ⟨-, hends⟩ := h twinPasses 0 0 0 oneRowPass oneWeight (run_sound _ resetIsSound) hsuspect (by decide) (by decide) oneRowPass_plain
  obtain ⟨t, hexec, -, -, -, -, flags, -, hend, -⟩ := hends twinCommand [0] hflight ⟨rfl, rfl, rfl, rfl, rfl, rfl, rfl⟩ rfl
    (hcommand ▸ List.mem_singleton_self _) rfl
  obtain rfl := nextOf_eq hexec
  have hending := List.mem_map_of_mem (f := Flight.ending) hend
  have h0 : oneRowPass.ctx = 0 := rfl
  rw [h0, twinPasses_end] at hending
  simp [codePassNoWeights] at hending

end Sys2Proof.Proofs

/-! PROOFS. The lanes of the vector unit (06 R282 to R296, 10 R445). First words and rows of words in a core's own stores; then a command
that writes its destination row by row; then VEC and QUANT. -/

namespace Sys2Proof.Proofs

open Sys2Proof Sys2Proof.Machine Sys2Proof.Laws

/-! ### Words of memory, one by one and in rows -/

section words
variable {s t : State} {a n w : Nat}

/-- Bytes that read alike one by one read alike together. -/
theorem bytes_congr_range (hs : s.Sound) (ht : t.Sound) (h : ∀ j, a ≤ j → j < a + n → t.byte j = s.byte j) :
    t.bytes a n = s.bytes a n := by
  rw [bytes_eq hs, bytes_eq ht]
  refine List.map_congr_left fun j hj => ?_
  obtain ⟨i, hi, rfl⟩ := List.mem_range'.1 hj
  exact h _ (by omega) (by omega)

theorem bytes_add (hs : s.Sound) (a m n : Nat) : s.bytes a (m + n) = s.bytes a m ++ s.bytes (a + m) n := by
  rw [bytes_eq hs, bytes_eq hs, bytes_eq hs, ← List.map_append, ← List.range'_append_1]

/-- A word within a run of bytes. -/
theorem leAt_bytes (hs : s.Sound) {off len : Nat} (h : off + n ≤ len) : leAt (s.bytes a len) off n = s.le (a + off) n := by
  obtain ⟨rest, rfl⟩ := Nat.exists_eq_add_of_le h
  rw [leAt, bytes_add hs, bytes_add hs, List.append_assoc, List.drop_left' (length_bytes ..), List.take_left' (length_bytes ..), State.le]

/-- Bytes up to the end of a number make up that number, and a new one begins. -/
theorem groupLe_append (as bs : List Byte) (has : as ≠ []) {i acc : Nat} (h : i + as.length = w) :
    groupLe w i acc (as ++ bs) = (acc + leNat as * 256 ^ i) :: groupLe w 0 0 bs := by
  induction as generalizing i acc with
  | nil => exact absurd rfl has
  | cons b as ih =>
    rw [List.length_cons] at h
    rw [List.cons_append, groupLe, leNat_cons]
    cases as with
    | nil => simp [← h, leNat]
    | cons b' as =>
      have hnext : ¬ (i + 1 == w) = true := by simp [← h]
      rw [if_neg hnext, ih (List.cons_ne_nil _ _) (i := i + 1) (by omega), pow_succ']
      congr 1
      ring

/-- A run of bytes as numbers of `w` bytes each. -/
theorem groupLe_bytes (hs : s.Sound) (hw : 0 < w) (a n : Nat) :
    groupLe w 0 0 (s.bytes a (w * n)) = (List.range n).map fun k => s.le (a + w * k) w := by
  induction n generalizing a with
  | zero => rw [Nat.mul_zero, bytes_eq hs]; rfl
  | succ n ih =>
    have hne : s.bytes a w ≠ [] := List.ne_nil_of_length_pos ((length_bytes s a w).symm ▸ hw)
    rw [Nat.mul_succ, Nat.add_comm, bytes_add hs, groupLe_append _ _ hne ((Nat.zero_add _).trans (length_bytes ..)), ih,
      List.range_succ_eq_map, List.map_cons, List.map_map]
    congr 1
    · rw [pow_zero, mul_one, Nat.zero_add]; rfl
    · refine List.map_congr_left fun k _ => ?_
      rw [Function.comp_apply, Nat.mul_succ, Nat.add_assoc, Nat.add_comm w]

end words

/-- A row of 64 words of four bytes. -/
def wordRow (vals : Nat → Nat) : List Byte := (List.range 64).flatMap fun k => toLe 4 (vals k)

theorem length_wordRow (vals : Nat → Nat) : (wordRow vals).length = 256 :=
  length_flatMap_range (fun _ => length_toLe 4 _) 64

theorem leAt_wordRow {vals : Nat → Nat} {k : Nat} (hk : k < 64) (hval : vals k < 2 ^ 32) : leAt (wordRow vals) (4 * k) 4 = vals k := by
  obtain ⟨rest, hrest⟩ := drop_flatMap_range (f := fun p => toLe 4 (vals p)) (fun _ => length_toLe 4 _) hk
  rw [← Nat.add_zero (4 * k), ← leAt_drop, wordRow, hrest, leAt_toLe_append]
  exact Nat.mod_eq_of_lt hval

/-! ### Encodings fit their words -/

theorem encode_lt (w : Nat) (i : Int) : encode w i < 2 ^ w := by
  have hpos : (0 : Int) < (2 ^ w : Nat) := by positivity
  have hlo := Int.emod_nonneg i hpos.ne'
  have hhi := Int.emod_lt_of_pos i hpos
  unfold encode
  omega

theorem toFp32_lt (x : Val) : toFp32 x < 2 ^ 32 := by
  have hsign (b : Bool) : bitIf b (fp32Fmt.exp + fp32Fmt.man) ≤ 2 ^ 31 := by cases b <;> decide
  have htop : fp32Fmt.top < 2 ^ 31 := by decide
  cases x with
  | nan => decide
  | inf n => cases n <;> decide
  | fin n m e =>
    have hn := hsign n
    simp only [toFp32, FloatFmt.round]
    generalize (if m == 0 then 0 else _) = enc
    by_cases h : enc ≤ fp32Fmt.top
    · rw [if_pos h]
      dsimp only
      omega
    · rw [if_neg h]
      cases n <;> decide

/-! ### A command that writes its destination row by row -/

theorem then_each_append {α : Type} (xs ys : List α) (f : α → M Unit) (k : Except Err Unit → Act) :
    (M.each (xs ++ ys) f).then k = (M.each xs f).then (onOk (fun _ => M.each ys f) k) := by
  induction xs with
  | nil => rfl
  | cons x xs ih =>
    rw [List.cons_append, each_cons, each_cons, then_bind, then_bind]
    refine congrArg _ (funext fun r => ?_)
    cases r with
    | error e => rfl
    | ok _ => exact ih

/-- Parts that run one after the other, each from the state that the parts before it leave. -/
theorem leads_each {v : State} {n : Nat} {part : Nat → M Unit} {act : Nat → Act}
    (h : ∀ r < n, Leads ((Act.upTo r act).run v) (part r) () ((act r).run ((Act.upTo r act).run v))) :
    Leads v (M.each (List.range n) part) () ((Act.upTo n act).run v) := by
  induction n with
  | zero => exact leads_pure ()
  | succ n ih =>
    have hlast : Leads ((Act.upTo n act).run v) (M.each [n] part) () ((act n).run ((Act.upTo n act).run v)) :=
      leads_bind (h n n.lt_succ_self) (leads_pure ())
    rw [List.range_succ, run_upTo_succ]
    have hfirst := ih fun r hr => h r (hr.trans n.lt_succ_self)
    exact leads_intro fun k => by rw [then_each_append, leads_then hfirst, onOk_ok, leads_then hlast]

/-- A command that starts at its first part, and that no pre-emption stops, does all of its parts and has ended. -/
theorem leads_inParts {v w : State} {x : Cx} {id total : Nat} {part : Nat → M Unit}
    (hstop : ((v.flightOf x.die x.core x.ctx id).bind fun f => f.course.stop) = none) (hrow : x.cmd.row = 0)
    (h : Leads v (M.each (List.range total) part) () w) : Leads v (inParts x id total part) (some 0) w :=
  leads_intro fun k => by rw [inParts, inRange_then hstop, hrow, List.drop_zero, leads_then h, onOk_ok, then_pure]

/-- A local operand in one store, or an empty one. -/
theorem gives_local {s : State} {x : Cx} {n len : Nat} (h : len = 0 ∨ storeRangeOk (x.la n) len = true) :
    Gives s (x.local n len 1) (x.la n) := by
  unfold Cx.local
  rcases h with rfl | h
  · exact leads_pure _
  · by_cases hlen : len = 0
    · exact leads_if (by simpa using hlen) (leads_pure _)
    · exact leads_else (by simpa using hlen) (leads_else (by simp [Nat.mod_one]) (leads_if h (leads_pure _)))

/-- Registers in which the vector unit counts and notes what its lanes raise (06 R284, R293, R296). -/
def laneFields : List Fld := [.VU_FLAGS_INVALID, .VU_FLAGS_OVERFLOW, .VU_FLAGS_SAT, .VU_SAT_COUNT, .VU_NAN_COUNT]

/-- What a command of the vector unit can change while it runs: those registers, bytes, the layers marked as adapted and the flags
raised. -/
def laneReach (mem : Nat → Prop) : Reach where
  regs k := k.fld ∈ laneFields
  mem := mem
  cfg _ := False
  aux x y := ∃ adapted raised, y = { x with adapted := adapted, raised := raised }

theorem laneReach_refl (mem : Nat → Prop) (x : Aux) : (laneReach mem).aux x x := ⟨_, _, rfl⟩

theorem laneReach_trans (mem : Nat → Prop) (x y z : Aux) (h1 : (laneReach mem).aux x y) (h2 : (laneReach mem).aux y z) :
    (laneReach mem).aux x z := by
  obtain ⟨_, _, rfl⟩ := h1
  obtain ⟨_, _, rfl⟩ := h2
  exact ⟨_, _, rfl⟩

theorem laneReach_mono {mem mem' : Nat → Prop} (h : ∀ j, mem j → mem' j) {a : Act} (ha : Within (laneReach mem) a) :
    Within (laneReach mem') a := within_mono ha (fun _ h => h) h (fun _ h => h) fun _ _ h => h

/-- Stores that are sound stay so. -/
theorem suspectStore_run_lane {mem : Nat → Prop} {a : Act} (ha : Within (laneReach mem) a) {s : State} (hs : s.Sound) (d n : Nat) :
    (a.run s).suspectStore d n = s.suspectStore d n := by
  obtain ⟨hreg, -, -, _, _, haux⟩ := within_run ha (laneReach_refl _) (laneReach_trans _) hs
  have hrd {f : Fld} (hf : f ∉ laneFields) (d i : Nat) : (a.run s).rd f d i = s.rd f d i := hreg .vis f d i hf
  simp (disch := decide) only [State.suspectStore, hrd, haux]

/-- Bytes written to a core's own sound store. -/
def storeAct (die core off : Nat) (bs : List Byte) : Act :=
  .seq (.put (storeAddr die core off) bs) (noteWrite (storeAddr die core off) bs.length)

theorem leads_writeStore {s : State} {die core : Nat} (h : s.suspectStore die core = false) (off : Nat) (bs : List Byte) :
    Leads s (writeStore die core off bs) () ((storeAct die core off bs).run s) := leads_intro (writeStore_then h)

/-- What a row's lanes raise. -/
def raiseAct (x : Cx) (fmt : Nat) (ls : List Lane) : Act :=
  let inv := ls.any fun l => l.invalid
  let ovf := ls.any fun l => l.overflow
  let sat := ls.any fun l => l.sat
  .seq (.all [
    .when inv (.set .VU_FLAGS_INVALID x.die x.core 1),
    .when ovf (.set .VU_FLAGS_OVERFLOW x.die x.core 1),
    .when sat (.set .VU_FLAGS_SAT x.die x.core 1),
    .inc .VU_SAT_COUNT x.die x.core (ls.filter fun l => l.overflow || l.sat).length,
    .inc .VU_NAN_COUNT x.die x.core (nanCount fmt (ls.map fun l => l.v))])
    (.aux fun a => { a with raised := a.raised ||| (flagIf sat flagSat ||| flagIf inv flagInvalid ||| flagIf ovf flagOverflow) })

theorem leads_raise {s : State} (x : Cx) (fmt : Nat) (ls : List Lane) : Leads s (x.raise fmt ls) () ((raiseAct x fmt ls).run s) :=
  leads_bind (leads_act _) (leads_act _)

theorem raiseAct_lane (mem : Nat → Prop) (x : Cx) (fmt : Nat) (ls : List Lane) : Within (laneReach mem) (raiseAct x fmt ls) := by
  have hfld {f : Fld} (h : f ∈ laneFields) (d i : Nat) : (laneReach mem).regs ⟨f, .vis, d, i⟩ := h
  have haux (v : Nat) (y : Aux) : (laneReach mem).aux y { y with raised := y.raised ||| v } := ⟨_, _, rfl⟩
  simp (disch := decide) [raiseAct, hfld, haux]

theorem noteWrite_lane (mem : Nat → Prop) (a len : Nat) : Within (laneReach mem) (noteWrite a len) := by
  rw [noteWrite, within_get]
  intro s
  split
  · exact within_nop _
  · simp only [within_each, within_aux]
    exact fun _ _ x => ⟨_, x.raised, rfl⟩

/-- An effect writes a row of 64 words at an offset of a core's own stores, whatever stood there, and no other byte. -/
structure WritesRow (die core off : Nat) (vals : Nat → Nat) (a : Act) : Prop where
  within : Within (laneReach fun j => storeAddr die core off ≤ j ∧ j < storeAddr die core off + 256) a
  read : ∀ u : State, u.Sound → (a.run u).bytes (storeAddr die core off) 256 = wordRow vals

theorem writesRow_store (die core off : Nat) (vals : Nat → Nat) : WritesRow die core off vals (storeAct die core off (wordRow vals)) := by
  refine ⟨?_, fun u hu => ?_⟩
  · rw [storeAct, within_seq, within_put, length_wordRow]
    exact ⟨fun j hlo hhi => ⟨hlo, hhi⟩, noteWrite_lane ..⟩
  · obtain ⟨-, hread, -, -⟩ := written_put hu (storeAddr die core off) (wordRow vals)
    simpa only [length_wordRow, storeAct, run_seq] using hread

/-- What a row raises changes no byte, before the row is written or behind it. -/
theorem WritesRow.raise_after {die core off : Nat} {vals : Nat → Nat} {a : Act} (h : WritesRow die core off vals a) (x : Cx) (fmt : Nat)
    (ls : List Lane) : WritesRow die core off vals (.seq a (raiseAct x fmt ls)) := by
  refine ⟨(within_seq ..).2 ⟨h.within, raiseAct_lane ..⟩, fun u hu => ?_⟩
  have ha := run_sound a hu
  obtain ⟨-, hkeep, -, -⟩ := within_run (raiseAct_lane (fun _ => False) x fmt ls) (laneReach_refl _) (laneReach_trans _) ha
  rw [run_seq, bytes_congr ha (run_sound _ ha) fun j => hkeep j id, h.read u hu]

theorem WritesRow.raise_before {die core off : Nat} {vals : Nat → Nat} {a : Act} (h : WritesRow die core off vals a) (x : Cx) (fmt : Nat)
    (ls : List Lane) : WritesRow die core off vals (.seq (raiseAct x fmt ls) a) :=
  ⟨(within_seq ..).2 ⟨raiseAct_lane .., h.within⟩, fun _ hu => h.read _ (run_sound _ hu)⟩

section rows
variable {v : State} {die core dst : Nat} {vals : Nat → Nat → Nat} {act : Nat → Act}

/-- Rows written one after the other reach their bytes alone. -/
theorem upTo_lane (hact : ∀ r, WritesRow die core (dst + 256 * r) (vals r) (act r)) (n : Nat) :
    Within (laneReach fun j => storeAddr die core dst ≤ j ∧ j < storeAddr die core dst + 256 * n) (.upTo n act) := by
  refine (within_upTo ..).2 fun r hr => laneReach_mono (fun j hj => ?_) (hact r).within
  have hrow := storeAddr_add (die := die) (core := core) dst (256 * r)
  omega

theorem rows_upTo (hact : ∀ r, WritesRow die core (dst + 256 * r) (vals r) (act r)) (hv : v.Sound) {n r : Nat} (hr : r < n) :
    ((Act.upTo n act).run v).bytes (storeAddr die core (dst + 256 * r)) 256 = wordRow (vals r) := by
  induction n with
  | zero => exact absurd hr r.not_lt_zero
  | succ n ih =>
    have hn := run_sound (.upTo n act) hv
    rw [run_upTo_succ]
    rcases Nat.lt_succ_iff_lt_or_eq.1 hr with hlt | rfl
    · obtain ⟨-, hkeep, -, -⟩ := within_run (hact n).within (laneReach_refl _) (laneReach_trans _) hn
      rw [← ih hlt]
      refine bytes_congr_range hn (run_sound _ hn) fun j _ hj => hkeep j fun ⟨hlo, _⟩ => ?_
      have hrow := storeAddr_add (die := die) (core := core) dst (256 * r)
      have hlast := storeAddr_add (die := die) (core := core) dst (256 * n)
      omega
    · exact (hact r).read _ hn

/-- The words of the rows written. -/
theorem own_upTo (hact : ∀ r, WritesRow die core (dst + 256 * r) (vals r) (act r)) (hvals : ∀ r k, vals r k < 2 ^ 32) (hv : v.Sound)
    {n r k : Nat} (hr : r < n) (hk : k < 64) : ((Act.upTo n act).run v).own die core (dst + 256 * r + 4 * k) 4 = vals r k := by
  have hn := run_sound (.upTo n act) hv
  rw [State.own, ← storeAddr_add, ← leAt_bytes hn (len := 256) (by omega), rows_upTo hact hv hr, leAt_wordRow hk (hvals r k)]

/-- What the rows written leave: every byte outside them, the contexts, and stores that are sound. -/
structure RowsLeft (v u : State) (die core dst n : Nat) : Prop where
  sound : u.Sound
  suspect : u.suspectStore die core = v.suspectStore die core
  rd : ∀ f ∉ laneFields, ∀ d i, u.rd f d i = v.rd f d i
  bytes : v.OwnBytesBut u die core dst (256 * n)
  aux : ∃ adapted raised, u.aux = { v.aux with adapted := adapted, raised := raised }

theorem rowsLeft_upTo (hact : ∀ r, WritesRow die core (dst + 256 * r) (vals r) (act r)) (hv : v.Sound) (n : Nat) :
    RowsLeft v ((Act.upTo n act).run v) die core dst n := by
  obtain ⟨hreg, hmem, hcfg, haux⟩ := within_run (upTo_lane hact n) (laneReach_refl _) (laneReach_trans _) hv
  exact ⟨run_sound _ hv, suspectStore_run_lane (upTo_lane hact n) hv .., fun f hf d i => hreg .vis f d i hf,
    ⟨fun j hj => hmem j fun ⟨hlo, hhi⟩ => by omega, fun j => hcfg j id⟩, haux⟩

variable {u : State} {n : Nat}

/-- Bytes that do not meet the destination read as they did before. -/
theorem RowsLeft.bytes_apart (h : RowsLeft v u die core dst n) (hv : v.Sound) {off len : Nat}
    (hapart : off + len ≤ dst ∨ dst + 256 * n ≤ off) :
    u.bytes (storeAddr die core off) len = v.bytes (storeAddr die core off) len := by
  refine bytes_congr_range hv h.sound fun j hlo hhi => h.bytes.1 j ?_
  simp only [storeAddr, pkgAddr] at hlo hhi ⊢
  omega

end rows

/-! ### The issue of such a command -/

section issue
variable {s : State} {die core c : Nat} {i : Issue}

theorem flightOf_startOf (hat : s.atCommand die core c i) (course : Course) :
    (startOf s die core c i course).flightOf die core c (nextId s) = some (metChecks (issuedFlight s die core i course)) := by
  obtain ⟨-, -, -, hflight, -⟩ := hat
  have hctx := ctx_placeAct (s := (countAct die core c (nextId s)).run s) (i := i) (f := issuedFlight s die core i course)
    (by rw [ctx_countAct, hflight])
  have hctx' := congrArg Ctx.flight hctx
  rw [State.flightOf, startOf, beginAct_run, id_issuedFlight, ← nextId, hctx']
  exact List.find?_cons_of_pos (by simp [metChecks, id_issuedFlight, nextId])

theorem inFlight_ended {w : State} {id : Nat} {e : Option Ending} (h : InFlight s w die core c i id e) :
    InFlight s ((endOf die core c id (.ok (some 0))).run w) die core c i id (some (Ending.ok (0 ||| w.aux.raised))) := by
  rw [endOf, run_get, run_seq]
  dsimp only
  rw [endFlight]
  refine h.step (fun _ _ _ _ => rfl) (by rw [ctx_run_ctx_self, ctx_run_raised]) (by rw [ctx_run_ctx_self, ctx_run_raised]) ?_ ?_ ?_ ?_
  · intro f; split <;> rfl
  · intro f; split <;> rfl
  · intro f hf; split <;> exact hf
  · intro f hf _ _; rw [hf, BEq.rfl, if_pos rfl]

/-- A command whose work is to write its destination row by row runs to its end, and leaves those rows. -/
theorem run_issueUnit_rows (hs : s.Sound) (hat : s.atCommand die core c i) {course : Course} (hsmooth : course.Smooth)
    {mine : Issue → Bool} (hmine : mine i = true) {body : Cx → Nat → M (Option Nat)} {dst n : Nat} {vals : Nat → Nat → Nat}
    {act : Nat → Act} (hvals : ∀ r k, vals r k < 2 ^ 32) (hact : ∀ r, WritesRow die core (dst + 256 * r) (vals r) (act r))
    (hbody : Leads (startOf s die core c i course) (body ⟨die, core, c, { i with ord := nextId s }⟩ (nextId s)) (some 0)
      ((Act.upTo n act).run (startOf s die core c i course))) :
    let t := (issueUnit die core c mine body course).run s
    s.Computed t die core c i ∧ s.OwnBytesBut t die core dst (256 * n) ∧
      ∀ r k, r < n → k < 64 → t.own die core (dst + 256 * r + 4 * k) 4 = vals r k := by
  have hstart := started_startOf hs hat course
  have hrun := run_issueUnit_leads hat hsmooth hmine hbody
  generalize startOf s die core c i course = v at hstart hrun
  have hleft := rowsLeft_upTo hact hstart.sound n
  have hown : ∀ r k, r < n → k < 64 → _ := fun r k hr hk => own_upTo hact hvals hstart.sound (n := n) (r := r) (k := k) hr hk
  generalize (Act.upTo n act).run v = u at hrun hleft hown
  obtain ⟨adapted, raised, haux⟩ := hleft.aux
  have hctx : u.ctx die core c = v.ctx die core c := by rw [State.ctx, haux, State.ctx]
  have hin : InFlight s u die core c i (nextId s) none :=
    hstart.inFlight.keep (fun f hf => hleft.rd f (by revert f; decide)) (by rw [hctx]) (by rw [hctx])
  rw [hrun]
  exact ⟨⟨_, performed_of_inFlight (inFlight_ended hin)⟩, bytesBut_of_same hstart.bytes hleft.bytes (sameBytes_refl _),
    hown⟩

end issue

/-! ### Operands of the vector unit -/

theorem own_words {s : State} (hs : s.Sound) {w : Nat} (hw : 0 < w) (die core off n : Nat) :
    groupLe w 0 0 (s.bytes (storeAddr die core off) (w * n)) = (List.range n).map fun k => s.own die core (off + w * k) w :=
  (groupLe_bytes hs hw _ n).trans (List.map_congr_left fun k _ => by rw [storeAddr_add, State.own])

theorem gives_lanes {s : State} (hs : s.Sound) {x : Cx} (h : s.suspectStore x.die x.core = false) (off r : Nat) :
    Gives s (x.lanes off r) ((List.range 64).map fun k => s.own x.die x.core (off + 256 * r + 4 * k) 4) :=
  leads_bind (gives_readStore h) (own_words hs (w := 4) (by decide) x.die x.core (off + 256 * r) 64 ▸ leads_pure _)

theorem packElements_words {fmt : Nat} (h : fmtBits fmt = 32) (vs : List Nat) : packElements fmt vs = vs.flatMap (toLe 4) := by
  unfold packElements
  rw [h]
  rfl

/-- Ranges that do not meet lie one behind the other. -/
theorem apart_of_rangesMeet {a la b lb : Nat} (h : rangesMeet a la b lb = false) : a + la ≤ b ∨ b + lb ≤ a := by
  simp only [rangesMeet, Bool.and_eq_false_iff, decide_eq_false_iff_not] at h
  omega

/-! ### VEC -/

/-- Wrapping INT32 and FP32 sum, difference and product, each with the format of its lanes (06 R292, R296, 10 R445). -/
def laneOps : List (Nat × Nat) :=
  [(0x20, fmtInt32), (0x21, fmtInt32), (0x22, fmtInt32), (0x01, fmtFp32), (0x02, fmtFp32), (0x03, fmtFp32)]

theorem laneOps_facts : ∀ p ∈ laneOps, usesB p.1 = true ∧ usesC p.1 = false ∧ isReduce p.1 = false ∧ (p.1 == 0x1A) = false ∧
    (p.1 != 0x1A) = true ∧ vecFmtOk p.1 p.2 = true ∧ fmtOk p.2 = true ∧ fmtBits p.2 = 32 ∧
    (p.2 == fmtInt32 && !isIntOp p.1) = false := by decide

/-- Their lanes stand in the output's format as they are computed. -/
theorem vecConvert_laneOps {op ofmt : Nat} (h : (op, ofmt) ∈ laneOps) (satf : Bool) (ls : List Lane) (rs : List Draw) :
    vecConvert op ofmt satf ls rs = ls := by
  have hfmt : ∀ p ∈ laneOps, isIntOp p.1 = (p.2 == fmtInt32) ∧ (p.2 == fmtFp32) = !(p.2 == fmtInt32) := by decide
  obtain ⟨hint, hfp⟩ := hfmt _ h
  cases hcase : ofmt == fmtInt32 <;> simp [vecConvert, hint, hfp, hcase]

section vec
variable {v : State} {x : Cx}

/-- A lane of VEC: what the operation makes of the lanes of its operands. -/
def vecLaneOf (s : State) (x : Cx) (r k : Nat) : Lane :=
  let a := s.own x.die x.core (x.la 1 + 256 * r + 4 * k) 4
  vecLane x.cmd.mode (x.f 6 8 3) a (s.own x.die x.core (x.la 2 + 256 * r + 4 * k) 4) a

/-- A row of VEC is written, and what its lanes raise is noted. -/
def vecRow (s : State) (x : Cx) (r : Nat) : Act :=
  .seq (storeAct x.die x.core (x.la 4 + 256 * r) (wordRow fun k => (vecLaneOf s x r k).v))
    (raiseAct x (x.f 6 0 4) ((List.range 64).map (vecLaneOf s x r)))

theorem writesRow_vecRow (s : State) (x : Cx) (r : Nat) :
    WritesRow x.die x.core (x.la 4 + 256 * r) (fun k => (vecLaneOf s x r k).v) (vecRow s x r) :=
  (writesRow_store ..).raise_after ..

/-- What the statement asks of a VEC. -/
structure VecFits (x : Cx) (rows : Nat) : Prop where
  op : (x.cmd.mode, x.f 6 0 4) ∈ laneOps
  count : x.f 5 0 24 = rows
  nearest : x.f 6 4 1 = 0
  lanes : x.f 6 6 1 = 0
  pos : 1 ≤ rows
  a : storeRangeOk (x.la 1) (256 * rows) = true
  b : storeRangeOk (x.la 2) (256 * rows) = true
  d : storeRangeOk (x.la 4) (256 * rows) = true
  apartA : x.la 1 + 256 * rows ≤ x.la 4 ∨ x.la 4 + 256 * rows ≤ x.la 1
  apartB : x.la 2 + 256 * rows ≤ x.la 4 ∨ x.la 4 + 256 * rows ≤ x.la 2

/-- An operand's lanes are as they were before the rows above were written. -/
theorem gives_lanes_behind {u : State} {dst rows r : Nat} (hv : v.Sound) (hsuspect : v.suspectStore x.die x.core = false)
    (h : RowsLeft v u x.die x.core dst r) (hr : r < rows) {off : Nat} (hapart : off + 256 * rows ≤ dst ∨ dst + 256 * rows ≤ off) :
    Gives u (x.lanes off r) ((List.range 64).map fun k => v.own x.die x.core (off + 256 * r + 4 * k) 4) := by
  have hgives := gives_lanes h.sound (h.suspect.trans hsuspect) off r
  rwa [← own_words h.sound (by decide) .., h.bytes_apart hv (by omega), own_words hv (by decide)] at hgives

theorem leads_vec {id rows : Nat} (hv : v.Sound) (hsuspect : v.suspectStore x.die x.core = false)
    (hstop : ((v.flightOf x.die x.core x.ctx id).bind fun f => f.course.stop) = none) (hrow : x.cmd.row = 0) (h : VecFits x rows) :
    Leads v (vecOp x id) (some 0) ((Act.upTo rows (vecRow v x)).run v) := by
  obtain ⟨hop, rfl, hsr, hscalar, hpos, ha, hb, hd, hapartA, hapartB⟩ := h
  obtain ⟨htwo, hthree, hreduce, hmask, hnoMask, hfmtOk, hok, hbits, hmove⟩ := laneOps_facts _ hop
  have hconvert := vecConvert_laneOps hop
  dsimp only at htwo hthree hreduce hmask hnoMask hfmtOk hok hbits hmove
  have hnonempty : (x.f 5 0 24 != 0) = true := by simpa using Nat.ne_of_gt hpos
  unfold vecOp
  simp only [htwo, hthree, hreduce, hmask, hnoMask, hfmtOk, hok, hbits, hmove, hsr, hscalar, hnonempty, hconvert, Bool.false_or,
    Bool.true_or, Bool.true_and, Bool.and_self, Bool.false_and, Bool.false_eq_true, Bool.not_true, if_false, if_true,
    show ((0 : Nat) == 1) = false from rfl]
  refine leads_bind (gives_needField rfl ..) (leads_bind (gives_needField rfl ..) (leads_bind (leads_pure ()) ?_))
  refine leads_bind (gives_local (.inr ha)) (leads_bind (gives_local (.inr hb)) ?_)
  refine leads_bind (gives_local (.inl rfl)) (leads_bind (gives_local (.inr hd)) (leads_bind (leads_pure 0) ?_))
  refine leads_inParts hstop hrow (leads_each fun r hr => ?_)
  have hleft := rowsLeft_upTo (writesRow_vecRow v x) hv r
  refine leads_bind (gives_lanes_behind hv hsuspect hleft hr hapartA) (leads_bind (gives_lanes_behind hv hsuspect hleft hr hapartB) ?_)
  refine leads_bind (leads_pure _) (leads_bind (leads_pure _) ?_)
  simp only [List.zip_map', List.map_map, packElements_words hbits, List.flatMap_map]
  exact leads_bind (leads_writeStore (hleft.suspect.trans hsuspect) ..) (leads_raise ..)

end vec

/-! ### QUANT of INT8 to INT32 -/

section quant
variable {v : State} {x : Cx}

/-- An INT8 element of a row of QUANT's source. -/
def quantSource (s : State) (x : Cx) (r k : Nat) : Nat := s.own x.die x.core (x.la 1 + 64 * r + k) 1

/-- What an INT8 element becomes. -/
def quantLaneOf (s : State) (x : Cx) (r k : Nat) : Lane := { v := encode 32 (signed 8 (quantSource s x r k)) }

def quantLanes (s : State) (x : Cx) (r : Nat) : List Lane := (List.range 64).map (quantLaneOf s x r)

/-- A row of QUANT notes what its lanes raise, and is written. -/
def quantRow (s : State) (x : Cx) (r : Nat) : Act :=
  .seq (raiseAct x fmtInt32 (quantLanes s x r))
    (storeAct x.die x.core (x.la 2 + 256 * r) (wordRow fun k => (quantLaneOf s x r k).v))

theorem writesRow_quantRow (s : State) (x : Cx) (r : Nat) :
    WritesRow x.die x.core (x.la 2 + 256 * r) (fun k => (quantLaneOf s x r k).v) (quantRow s x r) :=
  (writesRow_store ..).raise_before ..

/-- An integer is its own rounding. -/
theorem toInt_ofInt (n : Int) : (Val.ofInt n).toInt = n := by
  have hshift : roundShift n.natAbs (-0) none = n.natAbs := by simp [roundShift]
  simp only [Val.ofInt, Val.toInt, hshift, decide_eq_true_eq]
  split <;> omega

/-- INT8 to INT32 is exact. -/
theorem exactLane_int8 (e scale : Nat) : exactLane fmtInt32 (sourceValue fmtInt8 e scale) = { v := encode 32 (signed 8 e) } := by
  have hsource : sourceValue fmtInt8 e scale = .ofInt (signed 8 e) := rfl
  have hlane (y : Val) : exactLane fmtInt32 y = { v := encode 32 y.toInt } := rfl
  rw [hlane, hsource, toInt_ofInt]

/-- An exact conversion takes no parameter and no draw. -/
theorem quantLane_exact (o : Nat) (satf : Bool) (sh : Nat) (y : Val) (e : Nat) (p : Param) (d : Draw) :
    quantLane .exact o satf sh y e p d = exactLane o y := rfl

/-- The lanes of a row of INT8 elements. -/
theorem exactLanes_int8 {es : List Nat} (hes : es.length = 64) (sc : List Byte) :
    (((es.zip (es.zipIdx.map fun e => sourceValue fmtInt8 e.1 (byteAt sc (e.2 / 32)))).zip
        (List.replicate 64 (none : Draw))).zipIdx.map fun q => exactLane fmtInt32 q.1.1.2) =
      es.map fun e => { v := encode 32 (signed 8 e) } :=
  List.ext_getElem (by simp [hes]) fun n _ _ => by simp [exactLane_int8]

/-- What the statement asks of a QUANT. -/
structure QuantFits (x : Cx) (rows : Nat) : Prop where
  forms : bits (x.w 5) 0 11 = fmtInt8 + 16 * fmtInt32
  count : x.f 4 0 24 = rows
  src : storeRangeOk (x.la 1) (64 * rows) = true
  dst : storeRangeOk (x.la 2) (256 * rows) = true
  apart : x.la 1 + 64 * rows ≤ x.la 2 ∨ x.la 2 + 256 * rows ≤ x.la 1

/-- The fields of the word that names the formats. -/
theorem quant_forms (h : bits (x.w 5) 0 11 = fmtInt8 + 16 * fmtInt32) : x.f 5 0 4 = fmtInt8 ∧ x.f 5 4 4 = fmtInt32 ∧
    x.f 5 9 1 = 0 ∧ x.f 5 10 1 = 0 := by
  simp only [bits, Cx.f, Cx.w, Nat.shiftRight_eq_div_pow, fmtInt8, fmtInt32] at h ⊢
  omega

/-- The elements of a source row are as they were before the rows above were written. -/
theorem gives_quantSource {u : State} {rows r : Nat} (hv : v.Sound) (hsuspect : v.suspectStore x.die x.core = false)
    (h : RowsLeft v u x.die x.core (x.la 2) r) (hr : r < rows) (hapart : x.la 1 + 64 * rows ≤ x.la 2 ∨ x.la 2 + 256 * rows ≤ x.la 1) :
    ∃ bs, Gives u (readStore x.die x.core (x.la 1 + 64 * r) 64) bs ∧
      (unpackElements fmtInt8 bs).take 64 = (List.range 64).map (quantSource v x r) := by
  refine ⟨_, gives_readStore (h.suspect.trans hsuspect), ?_⟩
  have hwords := own_words hv (w := 1) (by decide) x.die x.core (x.la 1 + 64 * r) 64
  rw [h.bytes_apart hv (by omega)]
  simp only [one_mul] at hwords
  show (groupLe 1 0 0 _).take 64 = _
  rw [hwords, List.take_of_length_le (by simp)]
  rfl

theorem leads_quant {id rows : Nat} (hv : v.Sound) (hsuspect : v.suspectStore x.die x.core = false)
    (hstop : ((v.flightOf x.die x.core x.ctx id).bind fun f => f.course.stop) = none) (hrow : x.cmd.row = 0) (h : QuantFits x rows) :
    Leads v (quant x id) (some 0) ((Act.upTo rows (quantRow v x)).run v) := by
  obtain ⟨hforms, rfl, hsrc, hdst, hapart⟩ := h
  obtain ⟨hin, hout, hsr, htiled⟩ := quant_forms hforms
  unfold quant
  simp only [hin, hout, hsr, htiled, show quantWay fmtInt8 fmtInt32 = some .exact from rfl, show fmtOk fmtInt8 = true from rfl,
    show fmtOk fmtInt32 = true from rfl, show ((0 : Nat) == 1) = false from rfl, show 8 * fmtBits fmtInt8 = 64 from rfl,
    show 8 * fmtBits fmtInt32 = 256 from rfl,
    show (fmtInt8 == fmtMxfp4) = false from rfl, show (fmtInt32 == fmtMxfp4) = false from rfl,
    show (QuantWay.exact == .toInt) = false from rfl, show (QuantWay.exact == .toFp) = false from rfl,
    show (QuantWay.exact == .xcToInt) = false from rfl, show (QuantWay.exact == .toMx) = false from rfl,
    Bool.false_and, Bool.or_self, Bool.false_eq_true, if_false]
  refine leads_bind (gives_needField rfl ..) (leads_bind (gives_needField rfl ..) (leads_bind (leads_pure ()) ?_))
  refine leads_bind (gives_local (.inr hsrc)) (leads_bind (gives_local (.inr hdst)) ?_)
  refine leads_bind (gives_local (.inl rfl)) (leads_bind (gives_local (.inl rfl)) ?_)
  refine leads_bind (leads_pure []) (leads_bind (leads_pure []) ?_)
  refine leads_inParts hstop hrow (leads_each fun r hr => ?_)
  have hleft := rowsLeft_upTo (writesRow_quantRow v x) hv r
  obtain ⟨bs, hread, helements⟩ := gives_quantSource hv hsuspect hleft hr hapart
  have hlanes := exactLanes_int8 (es := (List.range 64).map (quantSource v x r)) (by simp) []
  rw [List.map_map] at hlanes
  generalize (Act.upTo r (quantRow v x)).run v = u at hleft hread ⊢
  refine leads_bind (a := (quantLanes v x r, [])) (t := (raiseAct x fmtInt32 (quantLanes v x r)).run u)
    (leads_bind hread (leads_bind (leads_pure []) (leads_bind (leads_pure _) ?_))) ?_
  · simp only [quantLane_exact, helements, hlanes]
    exact leads_bind (leads_raise ..) (leads_pure _)
  · have hraised := suspectStore_run_lane (raiseAct_lane (fun _ => False) x fmtInt32 (quantLanes v x r)) hleft.sound
    simp only [quantLanes, packElements_words (fmt := fmtInt32) rfl, List.map_map, List.flatMap_map]
    exact leads_bind (leads_writeStore ((hraised ..).trans (hleft.suspect.trans hsuspect)) ..) (leads_pure ())

end quant

/-! ### Lanes of the vector unit -/

/-- The integer operations wrap (06 R296). -/
theorem vecLane_int {op : Nat} (h : op ∈ [0x20, 0x21, 0x22]) (pred a b c : Nat) :
    (vecLane op pred a b c).v = encode 32 (if op = 0x20 then signed 32 a + signed 32 b
      else if op = 0x21 then signed 32 a - signed 32 b else signed 32 a * signed 32 b) := by
  simp only [List.mem_cons, List.not_mem_nil, or_false] at h
  rcases h with rfl | rfl | rfl <;> rfl

/-- The FP32 operations round once (06 R292). -/
theorem vecLane_fp {op : Nat} (h : op ∈ [0x01, 0x02, 0x03]) (pred a b c : Nat) :
    (vecLane op pred a b c).v = toFp32 (if op = 0x01 then (fp32 a).add (fp32 b)
      else if op = 0x02 then (fp32 a).sub (fp32 b) else (fp32 a).mul (fp32 b)) := by
  simp only [List.mem_cons, List.not_mem_nil, or_false] at h
  rcases h with rfl | rfl | rfl <;> rfl

theorem laneOps_int : ∀ op ∈ [0x20, 0x21, 0x22], (op, fmtInt32) ∈ laneOps := by decide
theorem laneOps_fp : ∀ op ∈ [0x01, 0x02, 0x03], (op, fmtFp32) ∈ laneOps := by decide

/-- A command as its unit performs it, under its number. -/
def issuedCx (s : State) (die core c : Nat) (i : Issue) : Cx := ⟨die, core, c, { i with ord := nextId s }⟩

section issue
variable {s : State} {die core c : Nat} {i : Issue} {course : Course}

theorem row_atCommand (hat : s.atCommand die core c i) : i.row = 0 := by
  obtain ⟨rfl, -, hagain, -⟩ := hat
  simp [State.nextCmd, hagain]

/-- No pre-emption stops a command whose course is smooth. -/
theorem stop_startOf (hat : s.atCommand die core c i) (hsmooth : course.Smooth) :
    (((startOf s die core c i course).flightOf die core c (nextId s)).bind fun f => f.course.stop) = none := by
  rw [flightOf_startOf hat]
  exact hsmooth.1

/-- The issue of a command leaves the numbers in the stores. -/
theorem own_startOf (hs : s.Sound) (hat : s.atCommand die core c i) (d m off n : Nat) :
    (startOf s die core c i course).own d m off n = s.own d m off n := by
  have hstart := started_startOf hs hat course
  rw [State.own, State.le, bytes_congr hs hstart.sound hstart.bytes.1, State.own, State.le]

theorem isVec_laneOps (hat : s.atCommand die core c i) (hop : i.op = 0x30) {ofmt : Nat} (hmode : (i.mode, ofmt) ∈ laneOps) :
    isVec i = true := by
  have hle : ∀ p ∈ laneOps, p.1 ≤ 0x2B := by decide
  rw [isVec, isOp_atCommand hat hop, Bool.true_and]
  exact decide_eq_true (hle _ hmode)

theorem vec_runs (hs : s.Sound) (hat : s.atCommand die core c i) (hsmooth : course.Smooth) (hsuspect : s.suspectStore die core = false)
    (hop : i.op = 0x30) {rows : Nat} (hfits : VecFits ⟨die, core, c, i⟩ rows)
    (hword : ∀ r k, (vecLaneOf s ⟨die, core, c, i⟩ r k).v < 2 ^ 32) :
    let x : Cx := ⟨die, core, c, i⟩
    Runs (.vec die core ⟨c, course⟩) s fun t => s.Computed t die core c i ∧ s.OwnBytesBut t die core (x.la 4) (256 * rows) ∧
      ∀ r k, r < rows → k < 64 → t.own die core (x.la 4 + 256 * r + 4 * k) 4 = (vecLaneOf s x r k).v := by
  intro x
  have hstart := started_startOf hs hat course
  have hlane (r k : Nat) : vecLaneOf (startOf s die core c i course) (issuedCx s die core c i) r k = vecLaneOf s x r k := by
    simp only [vecLaneOf, own_startOf hs hat]
    rfl
  obtain ⟨hmode, hcount, hsr, hscalar, hpos, ha, hb, hd, hapartA, hapartB⟩ := hfits
  have hleads := leads_vec (x := issuedCx s die core c i) (id := nextId s) hstart.sound
    ((hstart.suspectStore ..).trans hsuspect) (stop_startOf hat hsmooth) (show i.row = 0 from row_atCommand hat)
    ⟨hmode, hcount, hsr, hscalar, hpos, ha, hb, hd, hapartA, hapartB⟩
  have hrun := run_issueUnit_rows hs hat hsmooth (isVec_laneOps hat hop hmode) (body := vecBody)
    (fun r k => (congrArg Lane.v (hlane r k)).trans_lt (hword r k)) (writesRow_vecRow _ (issuedCx s die core c i)) hleads
  simp only [hlane] at hrun
  exact ⟨_, rfl, hrun⟩

theorem quant_runs (hs : s.Sound) (hat : s.atCommand die core c i) (hsmooth : course.Smooth) (hsuspect : s.suspectStore die core = false)
    (hop : i.op = 0x31) {rows : Nat} (hfits : QuantFits ⟨die, core, c, i⟩ rows) :
    let x : Cx := ⟨die, core, c, i⟩
    Runs (.quant die core ⟨c, course⟩) s fun t => s.Computed t die core c i ∧ s.OwnBytesBut t die core (x.la 2) (256 * rows) ∧
      ∀ r k, r < rows → k < 64 → t.own die core (x.la 2 + 256 * r + 4 * k) 4 = encode 32 (signed 8 (quantSource s x r k)) := by
  intro x
  have hstart := started_startOf hs hat course
  have hsource (r k : Nat) : quantSource (startOf s die core c i course) (issuedCx s die core c i) r k = quantSource s x r k :=
    own_startOf hs hat ..
  obtain ⟨hforms, hcount, hsrc, hdst, hapart⟩ := hfits
  have hleads := leads_quant (x := issuedCx s die core c i) (id := nextId s) hstart.sound
    ((hstart.suspectStore ..).trans hsuspect) (stop_startOf hat hsmooth) (show i.row = 0 from row_atCommand hat)
    ⟨hforms, hcount, hsrc, hdst, hapart⟩
  have hrun := run_issueUnit_rows hs hat hsmooth (isOp_atCommand hat hop) (body := quantBody) (fun _ _ => encode_lt 32 _)
    (writesRow_quantRow _ (issuedCx s die core c i)) hleads
  simp only [hsource] at hrun
  exact ⟨_, rfl, hrun⟩

end issue

/-- Settles O45: VEC and QUANT compute and write their destination row by row, from operands that no row written meets, by `vec_runs`
and `quant_runs`; each lane of VEC is its operation on two lanes, by `vecLane_int` and `vecLane_fp`. -/
theorem vectorLanes : Obligations.VectorLanes := by
  unfold Obligations.VectorLanes
  intro s course die core c i hs hsmooth hat hsuspect x a
  constructor
  · intro rows b d lane hop hsr hscalar hpos ha hb hd hmeetA hmeetB
    have hruns (hmode : (i.mode, bits (i.w 6) 0 4) ∈ laneOps) := vec_runs hs hat hsmooth hsuspect hop
      ⟨hmode, rfl, hsr, hscalar, hpos, ha, hb, hd, apart_of_rangesMeet hmeetA, apart_of_rangesMeet hmeetB⟩
    constructor
    · intro hmode hfmt
      have hvalue (r k : Nat) := vecLane_int hmode (x.f 6 8 3) (lane a r k) (lane b r k) (lane a r k)
      obtain ⟨t, hexec, hcomputed, hbytes, hown⟩ :=
        hruns (hfmt ▸ laneOps_int _ hmode) fun r k => (hvalue r k).trans_lt (encode_lt 32 _)
      exact ⟨t, hexec, hcomputed, hbytes, fun r k hr hk => (hown r k hr hk).trans (hvalue r k)⟩
    · intro hmode hfmt
      have hvalue (r k : Nat) := vecLane_fp hmode (x.f 6 8 3) (lane a r k) (lane b r k) (lane a r k)
      obtain ⟨t, hexec, hcomputed, hbytes, hown⟩ :=
        hruns (hfmt ▸ laneOps_fp _ hmode) fun r k => (hvalue r k).trans_lt (toFp32_lt _)
      exact ⟨t, hexec, hcomputed, hbytes, fun r k hr hk => (hown r k hr hk).trans (hvalue r k)⟩
  · intro rows d hop hforms _ hsrc hdst hmeet
    exact quant_runs hs hat hsmooth hsuspect hop ⟨hforms, rfl, hsrc, hdst, apart_of_rangesMeet hmeet⟩

end Sys2Proof.Proofs

/-! PROOFS. The statements about searches and gathers (08_sparse_convolution_and_neighbours.md) that fail: the state in which a DIST writes
over its own query, and the state in which a GATHER has no input row and none to gather. -/

namespace Sys2Proof.Proofs

open Sys2Proof Sys2Proof.Machine Sys2Proof.Laws

/-- A range of a core's own stores, by its offset. -/
theorem ownRange_storeAddr {s : State} {x : Cx} {off len : Nat} (hdie : x.die < 8) (hcore : x.core < 32)
    (h : storeRangeOk off len = true) : s.OwnRange x (storeAddr x.die x.core off) len := by
  have hsome : (storeAt off).isSome = true := by
    unfold storeRangeOk at h
    split at h
    · next hat => rw [hat]; rfl
    · cases h
  have hlt := storeAt_lt hsome
  obtain ⟨-, hmib, -, hstore, -, hdieWindow⟩ := map_numerals
  rw [hmib] at hlt
  have haddr : addrOff (storeAddr x.die x.core off) = storeBase + x.core * (16 * mib) + off := by
    simp only [addrOff, storeAddr, pkgAddr, hmib, hstore, hdieWindow]
    omega
  refine ⟨?_, ?_, off, haddr ▸ placeOf_store.2 ⟨hcore, hsome, rfl⟩, h⟩
  · simp only [storeAddr, pkgAddr, hmib, hstore, hdieWindow]
    omega
  · simp only [addrDie, bits, Nat.shiftRight_eq_div_pow, storeAddr, pkgAddr, hmib, hstore, hdieWindow]
    omega

/-! ### A DIST whose index plane lies over its query -/

/-- DIST of one query and 65 candidates of one coordinate in one slot. The query and the last candidate are 1, the others 0; the index plane
begins at the query. -/
def overlaidDist : State :=
  (Act.all [.set .CTX_STATE 0 0 1,
    .put (storeAddr 0 0 0) ([0x124, 0x400000, 0x410000, 0x400000, 0x800000, 1 + 2 ^ 24, 65 + 2 ^ 24].flatMap (toLe 4)),
    .put (storeAddr 0 0 0x400000) [1], .put (storeAddr 0 0 0x411000) [1]]).run State.reset

/-- That DIST. -/
def overlaidCmd : Issue := overlaidDist.nextCmd 0 0 0

theorem overlaidDist_ready : overlaidDist.atCommand 0 0 0 overlaidCmd ∧ overlaidDist.suspectStore 0 0 = false := by
  simp only [State.atCommand]
  decide +kernel

theorem overlaidCmd_fields : overlaidCmd.op = 0x24 ∧ overlaidCmd.mode = 0x01 ∧ bits (overlaidCmd.w 5) 0 24 = 1 ∧
    bits (overlaidCmd.w 5) 24 7 = 1 ∧ bits (overlaidCmd.w 6) 0 24 = 65 ∧ bits (overlaidCmd.w 6) 24 7 = 1 := by decide +kernel

theorem overlaidCmd_operands :
    let x : Cx := ⟨0, 0, 0, overlaidCmd⟩
    x.la 1 = 0x400000 ∧ x.la 2 = 0x410000 ∧ x.la 3 = 0x400000 ∧ x.la 4 = 0x800000 := by decide +kernel

/-- The first block of 64 candidates leaves index 0 where the query was, which measures the last candidate as far as candidate 0. -/
theorem overlaidDist_index : (nextOf (.dist 0 0 ⟨0, {}⟩) overlaidDist).own 0 0 0x400000 4 = 0 := by decide +kernel

/-- Candidate 0 lies at distance 1 of the query as it was, the last one at distance 0. -/
theorem overlaidDist_nearest :
    let byte := fun off => signed 8 (overlaidDist.own 0 0 off 1)
    (byte 0x400000 - byte 0x410000) ^ 2 = 1 ∧ (byte 0x400000 - byte 0x411000) ^ 2 = 0 := by decide +kernel

/-- Refutes O47: the statement lets the planes of a DIST lie over its query. A DIST of more than 64 candidates writes its planes after
each block of 64 (08 R474), so that the next block is measured from another query. -/
theorem not_searchesSelect : ¬ Obligations.SearchesSelect := by
  unfold Obligations.SearchesSelect
  intro h
  obtain ⟨hat, hsuspect⟩ := overlaidDist_ready
  obtain ⟨hop, hmode, hm, hslots, hnc, hd⟩ := overlaidCmd_fields
  obtain ⟨hqry, hcand, hidx, hdist⟩ := overlaidCmd_operands
  obtain ⟨hnear0, hnear64⟩ := overlaidDist_nearest
  obtain ⟨hruns, -⟩ := h overlaidDist {} 0 0 0 overlaidCmd (run_sound _ resetIsSound) ⟨rfl, by simp⟩ hat hsuspect
  simp only [hm, hslots, hnc, hd, hqry, hcand, hidx, hdist] at hruns
  obtain ⟨t, hexec, -, -, hsel⟩ := hruns hop hmode (by decide) (by decide) (by decide) (by decide) (by decide) (by decide) (by decide)
    (by decide) (by decide) (by decide)
  obtain ⟨sel, ⟨hlength, -, -, hbefore⟩, hindex, -⟩ := hsel 0 (by decide)
  obtain rfl := nextOf_eq hexec
  obtain ⟨first, rfl⟩ := List.length_eq_one_iff.1 hlength
  obtain rfl : 0 = first := overlaidDist_index.symm.trans (hindex 0 (by decide))
  have hcloser := hbefore 64 (by decide) (by decide) 0 (List.mem_singleton_self 0)
  simp only [List.range_one, List.map_cons, List.map_nil, List.sum_cons, List.sum_nil, Nat.mul_zero, add_zero] at hcloser
  rw [hnear0, hnear64] at hcloser
  omega

/-! ### A GATHER without input rows -/

/-- The descriptor of a pillar grid of one cell, with one site. -/
def loneGrid : List Byte := [1] ++ toLe 15 0 ++ toLe 2 1 ++ toLe 2 1 ++ toLe 52 0 ++ toLe 8 (storeAddr 0 0 0x50000) ++ toLe 24 0 ++ toLe 4 1

/-- The descriptor of a layer on that grid with two kernel positions along x; the second joins the only site to no cell. -/
def loneConv : List Byte :=
  [2, 1, 1, 1] ++ toLe 4 0 ++ toLe 8 (storeAddr 0 0 0x10000) ++ toLe 8 (storeAddr 0 0 0x10000) ++ toLe 8 0 ++ toLe 8 (storeAddr 0 0 0x30000)

/-- An input operand without rows, and an output operand of one row. -/
def noInput : Od := ⟨0, 0, 0, fmtInt8, false, 0, 0⟩
def oneOutput : Od := ⟨storeAddr 0 0 0x400000, 1, 64, fmtInt8, false, 0, 1⟩

/-- The bytes of a raw operand descriptor (10 R442). -/
def rawBytes (d : Od) : List Byte := toLe 8 d.base ++ toLe 4 d.rows ++ toLe 2 d.rowBytes ++ toLe 2 d.fmt ++ toLe 8 0 ++ toLe 4 d.cols

/-- GATHER of one output site by the second kernel position of that layer. -/
def loneGather : State :=
  (Act.all [.set .CTX_STATE 0 0 1,
    .put (storeAddr 0 0 0) ([0x220, 0x20000, 0x02000000, 1, 0x40000, 0, 1, 0x40020].flatMap (toLe 4)),
    .put (storeAddr 0 0 0x10000) loneGrid, .put (storeAddr 0 0 0x20000) loneConv, .put (storeAddr 0 0 0x30000) (toLe 8 (storeAddr 0 0 0x10000)),
    .put (storeAddr 0 0 0x40000) (rawBytes noInput), .put (storeAddr 0 0 0x40020) (rawBytes oneOutput)]).run State.reset

/-- That GATHER. -/
def loneCmd : Issue := loneGather.nextCmd 0 0 0

/-- It is performed as a command of context 0. -/
def loneCx : Cx := ⟨0, 0, 0, loneCmd⟩

theorem loneGather_ready : loneGather.atCommand 0 0 0 loneCmd ∧ loneGather.suspectStore 0 0 = false := by
  simp only [State.atCommand]
  decide +kernel

theorem loneCmd_fields : loneCmd.op = 0x20 ∧ bits loneCmd.mode 0 2 = 2 ∧ bits (loneCmd.w 3) 0 7 = 1 ∧ bits (loneCmd.w 5) 0 24 = 0 ∧
    bits (loneCmd.w 6) 0 24 = 1 ∧ loneCx.paOf (loneCmd.w 1) (loneCmd.w 2) 1 = .ok (storeAddr 0 0 0x20000) := by decide +kernel

theorem loneCx_operands : loneGather.RawOd loneCx 4 noInput ∧ loneGather.RawOd loneCx 7 oneOutput := by
  simp only [State.RawOd]
  decide +kernel

/-- The layer, as the GATHER reads it. -/
abbrev loneLayer : ConvLayer := loneGather.convAt (storeAddr 0 0 0x20000)

/-- The site of the grid, and the layer. -/
theorem loneLayer_facts :
    let l := loneLayer
    l.out.cells = 1 ∧ l.conv.kv = 2 ∧ l.out.geo.listBase = storeAddr 0 0 0x50000 ∧
      l.conv.inIndex = storeAddr 0 0 0x30000 ∧ l.conv.inGrid = storeAddr 0 0 0x10000 ∧ l.conv.outGrid = storeAddr 0 0 0x10000 ∧
      l.conv.suppress = 0 := by decide +kernel

/-- The second kernel position joins no site. -/
theorem loneLayer_joins : ∀ r < 1,
    loneLayer.conv.inputCell loneLayer.inp.geo (cellOf (loneGather.siteEntry loneLayer.out.geo (0 + r)).key) 1 = none := by
  decide +kernel

theorem loneLayer_fits :
    let l := loneLayer
    l.conv.fieldsOk = true ∧ l.conv.gridsOk l.inp.geo l.out.geo (l.mask.map fun g => g.geo) = true ∧
      loneGather.le (storeAddr 0 0 0x30000) 8 = l.inp.addr ∧ loneGather.le (storeAddr 0 0 0x30000 + 8) 4 = l.inp.build := by decide +kernel

theorem loneGather_ownRange {off len : Nat} (h : storeRangeOk off len = true) : loneGather.OwnRange loneCx (storeAddr 0 0 off) len :=
  ownRange_storeAddr (x := loneCx) (by decide) (by decide) h

/-- A range of the core's own stores that the output row does not meet. -/
theorem loneGather_sees {off len : Nat} (hrange : storeRangeOk off len = true) (hoff : off + len ≤ 0x400000) :
    loneGather.Sees loneCx oneOutput.base 1 (storeAddr 0 0 off) len := by
  have hbelow : storeAddr 0 0 off + len ≤ oneOutput.base := by
    show storeAddr 0 0 off + len ≤ storeAddr 0 0 0x400000
    unfold storeAddr pkgAddr
    omega
  refine .inr ⟨loneGather_ownRange hrange, ?_⟩
  rw [rangesMeet, decide_eq_false (p := oneOutput.base < _) (Nat.not_lt.2 hbelow), Bool.and_false]

theorem loneGather_seesConv : loneGather.seesConv loneCx oneOutput.base 1 (storeAddr 0 0 0x20000) := by
  obtain ⟨-, -, -, -, hin, hout, hsuppress⟩ := loneLayer_facts
  obtain ⟨hfields, hgrids, -⟩ := loneLayer_fits
  refine ⟨loneGather_sees (by decide) (by decide), hfields, ?_, ?_, fun h => ?_, hgrids⟩
  · rw [hin]; exact loneGather_sees (by decide) (by decide)
  · rw [hout]; exact loneGather_sees (by decide) (by decide)
  · rw [hsuppress] at h; cases h

/-- No row is gathered, and none is counted. -/
theorem loneGather_rows : (nextOf (.gatherNeighbour 0 0 ⟨0, {}⟩) loneGather).rd .NS_GATHER_ROWS 0 0 = 0 ∧
    loneGather.rd .NS_GATHER_ROWS 0 0 = 0 := by decide +kernel

/-- Refutes O50: the statement lets the input operand of a GATHER in neighbour mode have no rows when no output site joins an input site.
A GATHER whose input operand has no rows writes nothing (10 R449): neither the zero rows nor their count. -/
theorem not_gathersCollectRows : ¬ Obligations.GathersCollectRows := by
  unfold Obligations.GathersCollectRows
  intro h
  obtain ⟨hat, hsuspect⟩ := loneGather_ready
  obtain ⟨hop, hmode, hoff, hlo, hcount, ha⟩ := loneCmd_fields
  obtain ⟨hin, hout⟩ := loneCx_operands
  obtain ⟨hcells, hkv, hlist, hindex, -, -, -⟩ := loneLayer_facts
  obtain ⟨-, -, htable, hbuild⟩ := loneLayer_fits
  obtain ⟨-, hmodes⟩ := h loneGather {} 0 0 0 (storeAddr 0 0 0x20000) loneCmd oneOutput (run_sound _ resetIsSound) ⟨rfl, by simp⟩ hat
    hsuspect hop ha hout
  obtain ⟨-, hnear⟩ := hmodes noInput hin rfl (.inl rfl) rfl (by decide)
  simp only [hoff, hlo, hcount, hcells, Nat.sub_zero, Nat.min_self] at hnear
  obtain ⟨t, hexec, ⟨-, hrows⟩, -⟩ := hnear hmode rfl (loneGather_ownRange (by decide)) (by rw [hkv]; decide)
    (loneGather_ownRange (by decide)) loneGather_seesConv
    ⟨by rw [hindex]; exact loneGather_sees (by decide) (by decide), by rw [hindex]; exact htable, by rw [hindex]; exact hbuild⟩
    (by rw [hlist]; exact loneGather_sees (by decide) (by decide)) (by decide) (by decide)
    fun r hr => ⟨fun u hu => absurd hu (by rw [loneLayer_joins r hr]; simp), fun p hp => by rw [loneLayer_joins r hr] at hp; cases hp⟩
  obtain rfl := nextOf_eq hexec
  obtain ⟨hafter, hbefore⟩ := loneGather_rows
  rw [hafter, hbefore] at hrows
  exact absurd hrows (by decide)

end Sys2Proof.Proofs

/-! PROOFS. What the spatial commands read and write by package address (08_sparse_convolution_and_neighbours.md). First a command at work
on a target, and what its reads and writes come to; then grids, layers, index tables and rule books as it reads them. -/

namespace Sys2Proof.Proofs

open Sys2Proof Sys2Proof.Machine Sys2Proof.Laws

/-! ### Bytes that have been written -/

section written
variable {u w : State} {a b n off : Nat} {bs : List Byte}

theorem written_nil (hu : u.Sound) (a : Nat) : Written u u a [] :=
  ⟨hu, List.eq_nil_of_length_eq_zero (length_bytes ..), ⟨fun _ _ => rfl, fun _ => rfl⟩, fun _ _ _ _ _ => rfl, ⟨_, _, _, rfl⟩⟩

/-- Where no byte has been written does not matter. -/
theorem Written.nil_at (h : Written u w b []) (a : Nat) : Written u w a [] :=
  ⟨h.sound, List.eq_nil_of_length_eq_zero (length_bytes ..), ⟨fun j _ => h.other.1 j (Nat.lt_or_ge ..), h.other.2⟩, h.reg, h.aux⟩

theorem Written.bytes_apart (h : Written u w a bs) (hu : u.Sound) (hapart : b + n ≤ a ∨ a + bs.length ≤ b) :
    w.bytes b n = u.bytes b n :=
  bytes_congr_range hu h.sound fun j _ _ => h.other.1 j (by omega)

theorem Written.le_apart (h : Written u w a bs) (hu : u.Sound) (hapart : b + n ≤ a ∨ a + bs.length ≤ b) : w.le b n = u.le b n :=
  congrArg leNat (h.bytes_apart hu hapart)

/-- A number within what has been written. -/
theorem Written.le_part (h : Written u w a bs) (hlen : off + n ≤ bs.length) : w.le (a + off) n = leAt bs off n := by
  rw [← leAt_bytes h.sound hlen, h.read]

theorem Written.byte_part (h : Written u w a bs) {j : Nat} (hj : j < bs.length) : w.byte (a + j) = bs.getD j 0 := by
  have hread := h.read
  rw [bytes_eq h.sound] at hread
  rw [← hread, List.getD_eq_getElem?_getD]
  simp [hj]

theorem Written.byte (h : Written u w a bs) (j : Nat) :
    w.byte j = if a ≤ j ∧ j < a + bs.length then bs.getD (j - a) 0 else u.byte j := by
  split
  · next hj =>
    rw [← h.byte_part (by omega), Nat.add_sub_cancel' hj.1]
  · next hj => exact h.other.1 j (by omega)

theorem Written.le_self {v : Nat} (h : Written u w a (toLe n v)) : w.le a n = v % 256 ^ n := by
  have hpart := h.le_part (off := 0) (n := n) (by rw [length_toLe]; omega)
  rwa [Nat.add_zero, leAt_toLe] at hpart

theorem Written.rd (h : Written u w a bs) {f : Fld} (hf : f ≠ .I_HBM_CNT) (d i : Nat) : w.rd f d i = u.rd f d i := h.reg .vis f d i hf

theorem Written.ctx (h : Written u w a bs) (d c x : Nat) : w.ctx d c x = u.ctx d c x := by
  obtain ⟨_, _, _, haux⟩ := h.aux
  rw [State.ctx, haux, State.ctx]

end written

/-! ### Ranges of a core's own stores -/

section ranges
variable {s : State} {x : Cx} {a n k m dst len : Nat}

theorem storeRangeOk_part {off : Nat} (h : storeRangeOk off n = true) (hk : k < n) (hm : k + m ≤ n) : storeRangeOk (off + k) m = true := by
  have hat : storeAt (off + k) = storeAt off := by
    unfold storeRangeOk at h
    split at h
    · next p start size group hat =>
      have hlen := of_decide_eq_true h
      rw [hat]
      unfold storeAt at hat ⊢
      split_ifs at hat with h0 h1 h2
      · cases hat
        rw [if_pos (by omega)]
      · cases hat
        simp only [Bool.and_eq_true, decide_eq_true_eq] at h1
        rw [if_neg (by omega), if_pos (by simp; omega)]
      · cases hat
        simp only [Bool.and_eq_true, decide_eq_true_eq] at h2
        rw [if_neg (by omega), if_neg (by simp; omega), if_pos (by simp; omega)]
    · cases h
  unfold storeRangeOk at h ⊢
  rw [hat]
  revert h
  cases storeAt off with
  | none => exact id
  | some q =>
    simp only [decide_eq_true_eq]
    omega

theorem ownRange_part (h : s.OwnRange x a n) (hk : k < n) (hm : k + m ≤ n) : s.OwnRange x (a + k) m := by
  obtain ⟨ha, hdie, off, hplace, hrange⟩ := h
  obtain ⟨hat, hsame, haddr⟩ := store_add ha hplace hrange hk
  have hcore := (placeOf_store.1 hat).1
  have hlt := storeAt_lt (placeOf_store.1 hat).2.1
  obtain ⟨-, hmib, -, hstore, -, hdieWindow⟩ := map_numerals
  refine ⟨?_, hsame.trans hdie, off + k, hat, storeRangeOk_part hrange hk hm⟩
  have hdie8 : addrDie a < 8 := Nat.mod_lt _ (by decide)
  rw [← haddr]
  simp only [storeAddr, pkgAddr, hmib, hstore, hdieWindow] at hlt ⊢
  omega

/-- Where a place in an own range lies in the core's stores. -/
theorem own_part (h : s.OwnRange x a n) (hk : k < n) : ∃ off, x.own (a + k) = some off ∧ storeAddr x.die x.core off = a + k := by
  obtain ⟨ha, hdie, off, hplace, hrange⟩ := h
  obtain ⟨hat, hsame, haddr⟩ := store_add ha hplace hrange hk
  refine ⟨off + k, ?_, hdie ▸ haddr⟩
  rw [Cx.own, hat]
  simp [hsame, hdie]

theorem rangeOk_of_ownRange (h : s.OwnRange x a n) : rangeOk (addrOff a) n = true := by
  obtain ⟨-, -, off, hplace, hrange⟩ := h
  unfold rangeOk
  rw [hplace]
  refine decide_eq_true ?_
  simp only [Place.room]
  revert hrange
  unfold storeRangeOk
  cases storeAt off with
  | none => exact nofun
  | some q =>
    simp only [decide_eq_true_eq]
    omega

theorem sees_part (h : s.Sees x dst len a n) (hm : k + m ≤ n) : s.Sees x dst len (a + k) m := by
  rcases Nat.eq_zero_or_pos m with hm0 | hpos
  · exact .inl hm0
  · rcases h with hn | ⟨hown, hmeet⟩
    · omega
    · refine .inr ⟨ownRange_part hown (by omega) hm, ?_⟩
      have hapart := apart_of_rangesMeet hmeet
      simp only [rangesMeet, Bool.and_eq_false_iff, decide_eq_false_iff_not]
      omega

/-- A command that has no target yet sees every range of its own core's stores. -/
theorem sees_of_ownRange (h : s.OwnRange x a n) : s.Sees x 0 0 a n := .inr ⟨h, by simp [rangesMeet]⟩

theorem sees_untargeted (h : s.Sees x dst len a n) : s.Sees x 0 0 a n := h.imp id fun ⟨hown, _⟩ => ⟨hown, by simp [rangesMeet]⟩

theorem Sees.apart (h : s.Sees x dst len a n) : n = 0 ∨ a + n ≤ dst ∨ dst + len ≤ a := h.imp id fun ⟨_, hmeet⟩ => apart_of_rangesMeet hmeet

end ranges

/-! ### A command at work -/

/-- Registers in which a spatial command, its issue and what it writes are counted. -/
def spatialFields : List Fld := issueFields ++ [.I_HBM_CNT, .NS_SCATTER_ROWS, .NS_PAIRS, .NS_PAIRS_DROPPED]

/-- A command that was issued in `s` is at work: it stands in flight and goes on to its end, and has changed no byte outside its target. -/
structure AtWork (s : State) (x : Cx) (id dst len : Nat) (u : State) : Prop where
  origin : s.Sound
  store : s.suspectStore x.die x.core = false
  row : x.cmd.row = 0
  sound : u.Sound
  inFlight : InFlight s u x.die x.core x.ctx x.cmd id none
  stop : ((u.flightOf x.die x.core x.ctx id).bind fun f => f.course.stop) = none
  reg : s.FieldsBut u spatialFields
  bytes : s.BytesBut u dst len
  aux : ∃ ctxs raised bad weak adapted, u.aux =
    { s.aux with ctxs := ctxs, raised := raised, badWords := bad, weakWords := weak, adapted := adapted }

theorem atWork_startOf {s : State} (hs : s.Sound) {die core c : Nat} {i : Issue} (hat : s.atCommand die core c i) {course : Course}
    (hsmooth : course.Smooth) (hsuspect : s.suspectStore die core = false) :
    AtWork s (issuedCx s die core c i) (nextId s) 0 0 (startOf s die core c i course) := by
  have hstart := started_startOf hs hat course
  obtain ⟨ctxs, haux⟩ := hstart.aux
  exact ⟨hs, hsuspect, show i.row = 0 from row_atCommand hat, hstart.sound, hstart.inFlight, stop_startOf hat hsmooth,
    fun l f d n hf => hstart.reg l f d n fun hi => hf (List.mem_append_left _ hi), ⟨fun j _ => hstart.bytes.1 j, hstart.bytes.2⟩,
    ctxs, 0, _, _, _, haux⟩

namespace AtWork
variable {s u w : State} {x : Cx} {id dst len a n k : Nat}

theorem rd (h : AtWork s x id dst len u) {f : Fld} (hf : f ∉ spatialFields) (d i : Nat) : u.rd f d i = s.rd f d i := h.reg .vis f d i hf

theorem ac (h : AtWork s x id dst len u) {f : Fld} (hf : f ∉ spatialFields) (d i : Nat) : u.ac f d i = s.ac f d i := h.reg .act f d i hf

theorem suspectStore (h : AtWork s x id dst len u) : u.suspectStore x.die x.core = false := by
  obtain ⟨_, _, _, _, _, haux⟩ := h.aux
  rw [← h.store]
  simp (disch := decide) only [State.suspectStore, h.rd, haux]

/-- A command that has changed no byte can take any target. -/
theorem target (h : AtWork s x id 0 0 u) (dst len : Nat) : AtWork s x id dst len u :=
  { h with bytes := ⟨fun j _ => h.bytes.1 j (.inr (Nat.zero_le _)), h.bytes.2⟩ }

theorem written (h : AtWork s x id dst len u) {bs : List Byte} (hw : Written u w a bs) (hlo : dst ≤ a)
    (hhi : a + bs.length ≤ dst + len) : AtWork s x id dst len w := by
  have hctx := hw.ctx x.die x.core x.ctx
  obtain ⟨ctxs, raised, _, _, _, haux⟩ := h.aux
  obtain ⟨bad, weak, adapted, hauxw⟩ := hw.aux
  refine ⟨h.origin, h.store, h.row, hw.sound,
    h.inFlight.keep (fun f hf => hw.rd (by revert f; decide)) (by rw [hctx]) (by rw [hctx]), ?_,
    fun l f d i hf => (hw.reg l f d i ?_).trans (h.reg l f d i hf),
    ⟨fun j hj => (hw.other.1 j (by omega)).trans (h.bytes.1 j hj), fun j => (hw.other.2 j).trans (h.bytes.2 j)⟩,
    ctxs, raised, bad, weak, adapted, by rw [hauxw, haux]⟩
  · rw [State.flightOf, hctx]
    exact h.stop
  · rintro rfl
    exact hf (by decide)

theorem counted (h : AtWork s x id dst len u) {f : Fld} (hf : f ∈ [Fld.NS_SCATTER_ROWS, .NS_PAIRS, .NS_PAIRS_DROPPED]) (d i n : Nat) :
    AtWork s x id dst len ((Act.inc f d i n).run u) := by
  have hreg (l : Layer) (g : Fld) (d' i' : Nat) (hg : g ≠ f) : ((Act.inc f d i n).run u).reg l g d' i' = u.reg l g d' i' := by
    show ((Act.set f d i _).run u).reg l g d' i' = _
    rw [reg_run_set h.sound, if_neg fun hk => hg hk.1]
  have hcounters : ∀ g ∈ [Fld.SQ_CMDS, .CTX_CMDS, .CTX_PC], g ∉ [Fld.NS_SCATTER_ROWS, .NS_PAIRS, .NS_PAIRS_DROPPED] := by decide
  refine ⟨h.origin, h.store, h.row, run_sound _ h.sound, h.inFlight.keep (fun g hg d' i' => hreg .vis g d' i' ?_) rfl rfl, h.stop,
    fun l g d' i' hg => (hreg l g d' i' ?_).trans (h.reg l g d' i' hg), h.bytes, h.aux⟩
  · rintro rfl
    exact hcounters g hg hf
  · rintro rfl
    exact hg (List.mem_append_right _ (List.mem_cons_of_mem _ hf))

/-! #### Reads -/

theorem bytes_sees (h : AtWork s x id dst len u) (hsees : s.Sees x dst len a n) : u.bytes a n = s.bytes a n := by
  refine bytes_congr_range h.origin h.sound fun j hlo hhi => h.bytes.1 j ?_
  rcases Sees.apart hsees with hn | hapart <;> omega

theorem gives_readAt (h : AtWork s x id dst len u) (hsees : s.Sees x dst len a n) : Gives u (x.readAt a n) (s.bytes a n) := by
  rw [← h.bytes_sees hsees]
  rcases Nat.eq_zero_or_pos n with rfl | hn
  · have hnil : u.bytes a 0 = [] := List.eq_nil_of_length_eq_zero (length_bytes ..)
    unfold Cx.readAt
    rw [hnil]
    split
    · next off hown =>
      have hread := gives_readStore (off := off) (len := 0) (owner := 0) h.suspectStore
      rwa [List.eq_nil_of_length_eq_zero (length_bytes u _ 0)] at hread
    · exact leads_pure _
  · obtain ⟨hown, -⟩ := hsees.resolve_left (by omega)
    obtain ⟨off, hat, haddr⟩ := own_part (k := 0) hown hn
    rw [Nat.add_zero] at hat haddr
    unfold Cx.readAt
    rw [hat, ← haddr]
    exact gives_readStore h.suspectStore

theorem gives_le (h : AtWork s x id dst len u) (hsees : s.Sees x dst len a n) : Gives u (x.le a n) (s.le a n) :=
  leads_bind (h.gives_readAt hsees) (leads_pure _)

/-! #### Writes -/

theorem leads_writeStore (h : AtWork s x id dst len u) {off : Nat} {bs : List Byte} (hlo : dst ≤ storeAddr x.die x.core off)
    (hhi : storeAddr x.die x.core off + bs.length ≤ dst + len) :
    ∃ w, Leads u (writeStore x.die x.core off bs) () w ∧ AtWork s x id dst len w ∧ Written u w (storeAddr x.die x.core off) bs :=
  have hw := written_put h.sound (storeAddr x.die x.core off) bs
  ⟨_, Proofs.leads_writeStore h.suspectStore off bs, h.written hw hlo hhi, hw⟩

/-- A write within the target. -/
theorem leads_writeAt (h : AtWork s x id dst len u) (hown : s.OwnRange x dst len) {bs : List Byte} (hk : k + bs.length ≤ len) :
    ∃ w, Leads u (x.writeAt (dst + k) bs) () w ∧ AtWork s x id dst len w ∧ Written u w (dst + k) bs := by
  rcases Nat.lt_or_ge k len with hlt | hge
  · obtain ⟨off, hat, haddr⟩ := own_part hown hlt
    unfold Cx.writeAt
    rw [hat, ← haddr]
    exact h.leads_writeStore (by omega) (by omega)
  · obtain rfl : bs = [] := List.eq_nil_of_length_eq_zero (by omega)
    unfold Cx.writeAt
    split
    · next off hat =>
      have hw := written_put h.sound (storeAddr x.die x.core off) []
      exact ⟨_, Proofs.leads_writeStore h.suspectStore off [], h.written (hw.nil_at dst) le_rfl (Nat.le_add_right ..), hw.nil_at _⟩
    · exact ⟨u, leads_pure _, h, written_nil h.sound _⟩

end AtWork

/-! ### Reads of a vault through the fabric (10 R432, 12 R533, 15 R666) -/

section vault
variable {u : State} {x : Cx} {a n k m : Nat}

/-- The granules of a range make up the range, up to each of them. -/
theorem flatMap_granules (hu : u.Sound) (a n : Nat) : ((granules a n).flatMap fun g => u.bytes (a + g.1) g.2) = u.bytes a n := by
  rcases Nat.eq_zero_or_pos n with rfl | hn
  · exact (List.eq_nil_of_length_eq_zero (length_bytes ..)).symm
  have hupTo : ∀ k ≤ (a + n - 1) / 256 - a / 256 + 1, ((List.range k).flatMap fun i =>
      u.bytes (a + (max a ((a / 256 + i) * 256) - a)) (min (a + n) ((a / 256 + i + 1) * 256) - max a ((a / 256 + i) * 256))) =
      u.bytes a (min (a + n) ((a / 256 + k) * 256) - a) := by
    intro k hk
    induction k with
    | zero =>
      rw [show min (a + n) ((a / 256 + 0) * 256) - a = 0 by omega]
      exact (List.eq_nil_of_length_eq_zero (length_bytes ..)).symm
    | succ k ih =>
      obtain ⟨p, hp⟩ : ∃ p, p = min (a + n) ((a / 256 + k) * 256) - a := ⟨_, rfl⟩
      rw [List.range_succ, List.flatMap_append, ih (by omega), List.flatMap_singleton, ← hp,
        show max a ((a / 256 + k) * 256) - a = p by omega, ← bytes_add hu]
      congr 1
      omega
  have hne : (n == 0) = false := by simp; omega
  simp only [granules, hne, Bool.false_eq_true, if_false, List.flatMap_map]
  rw [hupTo _ le_rfl]
  congr 1
  omega

theorem granules_within {g : Nat × Nat} (hg : g ∈ granules a n) : g.1 < n ∧ g.1 + g.2 ≤ n := by
  unfold granules at hg
  split at hg
  · cases hg
  · next hn =>
    have hpos : n ≠ 0 := by simpa using hn
    obtain ⟨i, hi, rfl⟩ := List.mem_map.1 hg
    have hlt := List.mem_range.1 hi
    dsimp only
    omega

/-- One transaction of a read of a vault of the command's own die. -/
theorem gives_txnRead (h : u.vaultReady x a n) (hk : k < n) (hm : k + m ≤ n) : Gives u (txnRead x.who (a + k) m) (u.bytes (a + k) m) := by
  obtain ⟨ha, hdie, hchecks, hflaky, ⟨v, off, hplace, hlen, hon, hstate⟩, tag, e, htag, he, hvalid, hsafe, hread, -, hbase, hlimit⟩ := h
  obtain ⟨hat, hsame, haddr⟩ := vault_add (j := k) ha hplace (by omega)
  obtain ⟨-, hmib, -, -, -, hwindow⟩ := map_numerals
  have hoff : addrOff (a + k) = addrOff a + k := by
    have h1 := placeOf_vault.1 hat
    have h2 := placeOf_vault.1 hplace
    omega
  rw [hdie] at hsame haddr
  have honAll := hon
  simp only [State.placeOn, Bool.and_eq_true, Bool.not_eq_true'] at honAll
  obtain ⟨⟨⟨hthere, hfailed⟩, hfabric⟩, -⟩ := honAll
  have hadmits : u.admits x.die (addrOff (a + k)) tag false = true := by
    refine List.any_eq_true.2 ⟨e, List.mem_range.2 he, ?_⟩
    have hlo : u.ac .MUL_BASE x.die e ≤ (addrOff a + k) / 4096 := hbase.trans (Nat.div_le_div_right (by omega))
    have hhi : (addrOff a + k) / 4096 ≤ u.ac .MUL_LIMIT x.die e := (Nat.div_le_div_right (by omega)).trans hlimit
    simp [hvalid, hread, hoff, hlo, hhi]
  have hroute (g : Nat) : u.route (requesterDie x.who) x.die g = some [] := by simp [State.route, Cx.who, requesterDie]
  unfold txnRead atPlace overLinks
  refine leads_bind leads_state ?_
  simp only [hsame, hthere, hfailed, hfabric, hroute, Bool.not_true, Bool.or_self, Bool.false_eq_true, if_false]
  refine leads_bind (a := ()) (t := u) ?_ (leads_bind (a := .vault v (off + k)) (t := u) ?_ ?_)
  · unfold checkMullion
    refine leads_bind leads_state ?_
    simp only [htag, hsame]
    exact leads_if hadmits (leads_pure _)
  · unfold needPlace
    refine leads_bind leads_state ?_
    rw [hat, hsame]
    exact leads_if hon (leads_pure _)
  · refine leads_else (by simp only [Place.room]; omega) ?_
    rw [← haddr]
    exact leads_intro (readVault_then (suspectVault_false hchecks hflaky hstate))

theorem gives_readAt_vault (hu : u.Sound) (h : u.vaultReady x a n) : Gives u (x.readAt a n) (u.bytes a n) := by
  have hnone : x.own a = none := by
    obtain ⟨-, -, -, -, ⟨v, off, hplace, -⟩, -⟩ := h
    rw [Cx.own, hplace]
  unfold Cx.readAt
  rw [hnone, ← flatMap_granules hu a n, List.flatMap_def]
  refine leads_bind (gives_collect fun g hg => ?_) (leads_pure _)
  obtain ⟨hlt, hle⟩ := granules_within hg
  exact gives_txnRead h hlt hle

end vault

namespace AtWork
variable {s u w : State} {x : Cx} {id dst len a n k : Nat}

theorem vaultReady (h : AtWork s x id dst len u) (hv : s.vaultReady x a n) : u.vaultReady x a n := by
  obtain ⟨_, _, _, _, _, haux⟩ := h.aux
  simp (disch := decide) only [State.vaultReady, State.placeOn, State.dieThere, State.dies, State.tagOf, State.on, State.acOn, Cx.who,
    h.rd, h.ac, haux]
  exact hv

/-- A read of a vault meets no target in a store. -/
theorem gives_readAt_vault (h : AtWork s x id dst len u) (htarget : len = 0 ∨ s.OwnRange x dst len) (hv : s.vaultReady x a n) :
    Gives u (x.readAt a n) (s.bytes a n) := by
  have hbytes : u.bytes a n = s.bytes a n := by
    refine bytes_congr_range h.origin h.sound fun j hlo hhi => h.bytes.1 j ?_
    rcases htarget with hlen | ⟨ht, -, toff, htplace, htrange⟩
    · omega
    · obtain ⟨ha, -, -, -, ⟨v, off, hplace, hlen, -⟩, -⟩ := hv
      by_contra hmeet
      obtain ⟨hinVault, -⟩ := vault_add (j := j - a) ha hplace (by omega)
      obtain ⟨hinStore, -⟩ := store_add (j := j - dst) ht htplace htrange (by omega)
      rw [show a + (j - a) = dst + (j - dst) by omega, hinStore] at hinVault
      cases hinVault
  exact hbytes ▸ Proofs.gives_readAt_vault h.sound (h.vaultReady hv)

end AtWork
/-! ### Operands (10 R439 to R443) -/

section operands
variable {s u : State} {x : Cx} {id a n len align word : Nat}

/-- The course of an address operand, without the sum that `Cx.paOf` takes. -/
theorem pa_def : @Cx.pa = fun x n len align =>
    match x.paOf (x.w n) (x.w (n + 1)) n with
    | .error e => throw e
    | .ok a =>
      if len == 0 then pure a
      else if a % align != 0 then M.fail codeAlign (n * 256)
      else if rangeOk (addrOff a) len then pure a
      else M.fail codeRange (n * 256) := rfl

theorem gives_pa (hpa : x.paOf (x.w n) (x.w (n + 1)) n = .ok a) (halign : a % align = 0) (hrange : len = 0 ∨ rangeOk (addrOff a) len = true) :
    Gives u (x.pa n len align) a := by
  rw [pa_def]
  dsimp only
  rw [hpa]
  by_cases hlen : len = 0
  · exact leads_if (by simpa using hlen) (leads_pure _)
  · exact leads_else (by simpa using hlen) (leads_else (by simpa using halign) (leads_if (hrange.resolve_left hlen) (leads_pure _)))

/-- A range of the core's own stores is one that a command may name. -/
theorem gives_pa_own (hpa : x.paOf (x.w n) (x.w (n + 1)) n = .ok a) (halign : a % align = 0) (hown : s.OwnRange x a len) :
    Gives u (x.pa n len align) a := gives_pa hpa halign (.inr (rangeOk_of_ownRange hown))

theorem gives_needRange (h : len = 0 ∨ rangeOk (addrOff a) len = true) : Gives u (needRange a len word) () :=
  leads_if (by simpa using h) (leads_pure _)

theorem gives_needState {v : GridView} {st : Nat} (h : v.state = st) : Gives u (v.needState st) () := leads_if (by simpa using h) (leads_pure _)

theorem byteAt_eq_leAt (bs : List Byte) (off : Nat) : byteAt bs off = leAt bs off 1 := by
  rw [byteAt, leAt, List.getD_eq_getElem?_getD]
  cases hbyte : bs[off]? with
  | none => rw [List.drop_of_length_le (List.getElem?_eq_none_iff.1 hbyte)]; rfl
  | some b =>
    obtain ⟨hlt, rfl⟩ := List.getElem?_eq_some_iff.1 hbyte
    rw [List.drop_eq_getElem_cons hlt]
    exact (Nat.add_zero _).symm

/-- One byte of a run of bytes. -/
theorem byteAt_bytes_le (hs : s.Sound) {off : Nat} (h : off < n) : byteAt (s.bytes a n) off = s.le (a + off) 1 := by
  rw [byteAt_eq_leAt, leAt_bytes hs h]

theorem gives_od (h : AtWork s x id 0 0 u) {d : Od} (hd : s.RawOd x word d) : Gives u (x.od word) d := by
  obtain ⟨base, rows, rowBytes, fmt, tiled, hdr, cols⟩ := d
  obtain ⟨halign, hrange, hbase, hrows, hrowBytes, hmod, hfmt, hform, hcols, hzero, htiled, hhdr⟩ := hd
  obtain rfl : tiled = false := htiled
  obtain rfl : hdr = 0 := hhdr
  dsimp only at hbase hrows hrowBytes hmod hfmt hform hcols hzero
  have hle {k n : Nat} (hk : k + n ≤ 32) : leAt (u.bytes (storeAddr x.die x.core (x.la word)) 32) k n = s.own x.die x.core (x.la word + k) n := by
    rw [bytes_congr h.origin h.sound fun j => h.bytes.1 j (.inr (Nat.zero_le _)), leAt_bytes h.origin hk, State.own, storeAddr_add]
  have hlocal : Gives u (x.local word 32 32) (x.la word) := by
    unfold Cx.local
    exact leads_else (by decide) (leads_else (by simpa using halign) (leads_if hrange (leads_pure _)))
  unfold Cx.od
  refine leads_bind hlocal (leads_bind (gives_readStore h.suspectStore) ?_)
  simp (disch := omega) only [byteAt_eq_leAt, hle, hrows, hrowBytes, hfmt, hform, hcols, hzero, hmod]
  generalize x.paOf (s.own x.die x.core (x.la word + 0) 4) (s.own x.die x.core (x.la word + 4) 4) 8 = found at hbase
  obtain rfl := hbase
  refine leads_bind (gives_needField (by decide) _ _) (leads_bind (gives_needField (by decide) _ _) (leads_bind (gives_needField (by decide) _ _) ?_))
  exact leads_if (by decide) (leads_pure _)

end operands

/-! ### Grids, layers and index tables as a command reads them (04 R157, R198, 08 R337 to R351) -/

namespace AtWork
variable {s u : State} {x : Cx} {id dst len a n p table book o : Nat} {g : Geo} {v : GridView} {c : Cell}

theorem gridRec (h : AtWork s x id dst len u) (a : Nat) : u.gridRec a = s.gridRec a := by
  obtain ⟨_, _, _, _, _, haux⟩ := h.aux
  rw [State.gridRec, haux, State.gridRec]

theorem gives_grid (h : AtWork s x id dst len u) (hsees : s.Sees x dst len a 108) : Gives u (x.grid a) (s.gridAt a) := by
  have hle {k n : Nat} (hk : k + n ≤ 108) : leAt (s.bytes a 108) k n = s.le (a + k) n := leAt_bytes h.origin hk
  have htake : (s.bytes a 108).take 80 = s.bytes a 80 := by
    rw [show (108 : Nat) = 80 + 28 from rfl, bytes_add h.origin, List.take_left' (length_bytes ..)]
  unfold Cx.grid
  refine leads_bind (h.gives_readAt hsees) (leads_bind leads_state ?_)
  simp (disch := omega) only [byteAt_eq_leAt, hle, h.gridRec, htake]
  exact leads_pure _

theorem gives_listSlot (h : AtWork s x id dst len u) (hsees : s.Sees x dst len (g.listBase + 16 * p) 16) :
    Gives u (x.listSlot g p) (s.siteEntry g p) := by
  have hle {k n : Nat} (hk : k + n ≤ 16) : leAt (s.bytes (g.listBase + 16 * p) 16) k n = s.le (g.listBase + 16 * p + k) n :=
    leAt_bytes h.origin hk
  unfold Cx.listSlot
  refine leads_bind (h.gives_readAt hsees) ?_
  simp (disch := omega) only [byteAt_eq_leAt, hle, Nat.add_zero]
  exact leads_pure _

/-- An entry of a cell list that lies in sight. -/
theorem gives_listSlot_below (h : AtWork s x id dst len u) (hsees : s.Sees x dst len g.listBase (16 * n)) (hp : p < n) :
    Gives u (x.listSlot g p) (s.siteEntry g p) := h.gives_listSlot (sees_part hsees (by omega))

theorem gives_conv (h : AtWork s x id dst len u) (hsees : s.seesConv x dst len a) : Gives u (x.conv a) (s.convAt a) := by
  obtain ⟨hdesc, hfields, hin, hout, hmask, hgrids⟩ := hsees
  unfold Cx.conv
  simp only [State.convAt] at hfields hin hout hmask hgrids ⊢
  refine leads_bind (h.gives_readAt hdesc) (leads_else (by simpa using hfields) ?_)
  refine leads_bind (h.gives_grid hin) (leads_bind (h.gives_grid hout) ?_)
  by_cases hmasked : ((convOf a (s.bytes a 44)).suppress == 2) = true
  · rw [if_pos hmasked] at hgrids ⊢
    rw [if_pos hmasked]
    exact leads_bind (h.gives_grid (hmask (by simpa using hmasked))) (leads_bind (leads_pure _) (leads_if hgrids (leads_pure _)))
  · rw [if_neg hmasked] at hgrids ⊢
    rw [if_neg hmasked]
    exact leads_bind (leads_pure _) (leads_if hgrids (leads_pure _))

theorem gives_needIndex (h : AtWork s x id dst len u) (hfresh : s.freshIndex x dst len table v) : Gives u (x.needIndex table v) () := by
  obtain ⟨hsees, haddr, hbuild⟩ := hfresh
  unfold Cx.needIndex
  refine leads_bind (h.gives_readAt hsees) (leads_if ?_ (leads_pure _))
  rw [leAt_bytes h.origin (by omega), leAt_bytes h.origin (by omega), Nat.add_zero, haddr, hbuild]
  simp

theorem gives_indexed (h : AtWork s x id 0 0 u) (hsees : s.Sees x 0 0 table 12) (hgrid : s.Sees x 0 0 (s.le table 6) 108) :
    Gives u (x.indexed table) (s.gridAt (s.le table 6)) := by
  unfold Cx.indexed
  refine leads_bind (h.gives_readAt hsees) ?_
  rw [leAt_bytes h.origin (by omega), Nat.add_zero]
  exact h.gives_grid hgrid

/-- The site of an occupied cell of a pillar grid stands in its home slot. -/
theorem gives_siteOf (h : AtWork s x id dst len u) (htarget : len = 0 ∨ s.OwnRange x dst len) (hsees : s.seesSite x dst len table v c)
    (hbit : bit (s.le (v.geo.occBase + c.key / 8) 1) (c.key % 8) = true) : Gives u (x.siteOf table v c) (s.siteAt table v c) := by
  obtain ⟨-, -, hslot⟩ := hsees
  obtain ⟨hready, hbuild, hkey, hentry⟩ := hslot hbit
  have hfind : Gives u (x.find v.geo v.build c.key 16 (v.geo.home c.key))
      (some (slotOf (s.bytes (v.geo.slotBase + 16 * (v.geo.home c.key % 2 ^ v.geo.log2)) 16))) := by
    refine leads_bind (h.gives_readAt_vault htarget hready) ?_
    exact leads_else (by simpa using hbuild) (leads_if (by simpa using hkey) (leads_pure _))
  unfold Cx.siteOf State.siteAt
  rw [if_pos hbit]
  exact leads_bind hfind (leads_bind (h.gives_le hentry) (leads_pure _))

theorem gives_site (h : AtWork s x id dst len u) (htarget : len = 0 ∨ s.OwnRange x dst len) (hsees : s.seesSite x dst len table v c) :
    Gives u (x.site table v c) (s.siteAt table v c) := by
  have hlook := hsees
  obtain ⟨hpillar, hocc, -⟩ := hlook
  have hoccupied : Gives u (x.occupied v.geo c) (bit (s.le (v.geo.occBase + c.key / 8) 1) (c.key % 8)) :=
    leads_if hpillar (leads_bind (h.gives_le hocc) (leads_pure _))
  unfold Cx.site
  refine leads_bind hoccupied ?_
  by_cases hbit : bit (s.le (v.geo.occBase + c.key / 8) 1) (c.key % 8) = true
  · exact leads_if hbit (h.gives_siteOf htarget hsees hbit)
  · refine leads_else hbit ?_
    rw [State.siteAt, if_neg hbit]
    exact leads_pure _

/-! ### Rule books (08 R352 to R354, R362) -/

end AtWork

/-- A run of records of one size, one by one. -/
theorem chunks_bytes {s : State} (hs : s.Sound) (a w n : Nat) :
    chunks w n (s.bytes a (w * n)) = (List.range n).map fun j => s.bytes (a + w * j) w := by
  induction n generalizing a with
  | zero => rfl
  | succ n ih =>
    rw [chunks, Nat.mul_succ, Nat.add_comm, bytes_add hs, List.take_left' (length_bytes ..), List.drop_left' (length_bytes ..), ih,
      List.range_succ_eq_map, List.map_cons, List.map_map]
    refine congrArg _ (List.map_congr_left fun j _ => ?_)
    rw [Function.comp_apply, Nat.mul_succ, Nat.add_assoc, Nat.add_comm w]

theorem pairArea_le {kv o : Nat} (h : o < kv) : 64 + 8 * o + 8 ≤ pairArea kv := by
  unfold pairArea
  omega

namespace AtWork
variable {s u : State} {x : Cx} {id dst len a n p table book o : Nat} {g : Geo} {v : GridView} {c : Cell}

theorem gives_segment (h : AtWork s x id 0 0 u) (hbook : s.seesBook x book o) :
    Gives u (x.segment book o) (s.le book 4, s.bookPairs book o) := by
  obtain ⟨ho, -, hconv, hin, hout, hown⟩ := hbook
  have hsees := sees_of_ownRange hown
  have harea := pairArea_le ho
  have hle {b k n m : Nat} (hk : k + n ≤ m) : leAt (s.bytes b m) k n = s.le (b + k) n := leAt_bytes h.origin hk
  have hhead : s.Sees x 0 0 book 40 := sees_part (k := 0) hsees (by omega)
  have hentry : s.Sees x 0 0 (book + 64 + 8 * o) 8 := by
    rw [Nat.add_assoc]
    exact sees_part hsees (by omega)
  have hpairs : s.Sees x 0 0 (book + pairArea (s.le (book + 20) 1) + 8 * s.le (book + 64 + 8 * o) 4)
      (8 * s.le (book + 64 + 8 * o + 4) 4) := by
    rw [Nat.add_assoc]
    exact sees_part hsees (by omega)
  unfold Cx.segment
  refine leads_bind (h.gives_readAt hhead) ?_
  simp (disch := omega) only [byteAt_eq_leAt, hle, Nat.add_zero]
  refine leads_bind (gives_needField (decide_eq_true ho) ..) (leads_bind (h.gives_conv hconv) ?_)
  refine leads_if (by rw [hin, hout]; simp [State.convAt]) (leads_bind (h.gives_readAt hentry) ?_)
  simp (disch := omega) only [hle, Nat.add_zero]
  refine leads_bind (h.gives_readAt hpairs) ?_
  have hrecords : ((chunks 8 (s.le (book + 64 + 8 * o + 4) 4) (s.bytes (book + pairArea (s.le (book + 20) 1) + 8 * s.le (book + 64 + 8 * o) 4)
      (8 * s.le (book + 64 + 8 * o + 4) 4))).map fun p => (leAt p 0 4, leAt p 4 4)) = s.bookPairs book o := by
    rw [chunks_bytes h.origin, List.map_map]
    refine List.map_congr_left fun j _ => ?_
    rw [Function.comp_apply, hle (by decide), hle (by decide), Nat.add_zero]
  rw [hrecords]
  exact leads_pure _

end AtWork
/-! ### Parts one after the other, and the end of such a command -/

/-- A property that every part carries on holds after all of them. -/
theorem leads_each_keeps {v : State} {n : Nat} {part : Nat → M Unit} {Keeps : Nat → State → Prop} (hv : Keeps 0 v)
    (h : ∀ r < n, ∀ u, Keeps r u → ∃ w, Leads u (part r) () w ∧ Keeps (r + 1) w) :
    ∃ w, Leads v (M.each (List.range n) part) () w ∧ Keeps n w := by
  induction n with
  | zero => exact ⟨v, leads_pure (), hv⟩
  | succ n ih =>
    obtain ⟨u, hfirst, hu⟩ := ih fun r hr => h r (hr.trans n.lt_succ_self)
    obtain ⟨w, hpart, hw⟩ := h n n.lt_succ_self u hu
    have hlast : Leads u (M.each [n] part) () w := leads_bind hpart (leads_pure ())
    rw [List.range_succ]
    exact ⟨w, leads_intro fun k => by rw [then_each_append, leads_then hfirst, onOk_ok, leads_then hlast], hw⟩

/-- Nothing differs in what a command has left: no byte, and no register. -/
structure Left (w t : State) : Prop where
  same : w.SameBytes t
  bytes : ∀ a n, t.bytes a n = w.bytes a n
  le : ∀ a n, t.le a n = w.le a n
  rd : ∀ f d n, t.rd f d n = w.rd f d n

theorem left_endOf (w : State) (die core c id : Nat) (r : Except Err (Option Nat)) : Left w ((endOf die core c id r).run w) := by
  refine ⟨?_, fun a n => ?_, fun a n => ?_, rd_endOf w id r⟩ <;> rw [endOf, run_get, run_seq] <;> rcases r with _ | _ | _
  case refine_1.error | refine_1.ok.none | refine_1.ok.some => exact sameBytes_of_eq rfl rfl
  all_goals rfl

section issue
variable {s u w : State} {die core c flags dst len : Nat} {i : Issue} {course : Course} {mine : Issue → Bool}
  {body : Cx → Nat → M (Option Nat)}

theorem inFlight_flagged {id : Nat} {e : Option Ending} (h : InFlight s w die core c i id e) :
    InFlight s ((endOf die core c id (.ok (some flags))).run w) die core c i id (some (Ending.ok (flags ||| w.aux.raised))) := by
  rw [endOf, run_get, run_seq]
  dsimp only
  rw [endFlight]
  refine h.step (fun _ _ _ _ => rfl) (by rw [ctx_run_ctx_self, ctx_run_raised]) (by rw [ctx_run_ctx_self, ctx_run_raised]) ?_ ?_ ?_ ?_
  · intro f; split <;> rfl
  · intro f; split <;> rfl
  · intro f hf; split <;> exact hf
  · intro f hf _ _; rw [hf, BEq.rfl, if_pos rfl]

/-- A command that its unit takes, and whose work leads to its end, has been computed and leaves what its work had left. -/
theorem runs_of_atWork {instr : Instr} {P : State → Prop}
    (hs : s.Sound) (hat : s.atCommand die core c i) (hsmooth : course.Smooth) (hsuspect : s.suspectStore die core = false)
    (hexec : exec instr s = (issueUnit die core c mine body course).done s) (hmine : mine i = true)
    (hbody : ∀ u, AtWork s (issuedCx s die core c i) (nextId s) 0 0 u → s.FieldsBut u issueFields → ∃ flags dst len w,
      Leads u (body (issuedCx s die core c i) (nextId s)) (some flags) w ∧ AtWork s (issuedCx s die core c i) (nextId s) dst len w ∧
      ∀ t, s.Computed t die core c i → Left w t → P t) : Runs instr s P := by
  obtain ⟨flags, dst, len, w, hleads, hwork, hP⟩ := hbody _ (atWork_startOf hs hat hsmooth hsuspect) (started_startOf hs hat course).reg
  have hrun := run_issueUnit_leads hat hsmooth hmine hleads
  have hin : InFlight s w die core c i (nextId s) none := hwork.inFlight
  refine ⟨(issueUnit die core c mine body course).run s, hexec, ?_⟩
  rw [hrun]
  exact hP _ ⟨_, performed_of_inFlight (inFlight_flagged hin)⟩ (left_endOf ..)

theorem AtWork.left {x : Cx} {id : Nat} {t : State} (h : AtWork s x id dst len w) (ht : Left w t) : s.BytesBut t dst len :=
  bytesBut_of_same (sameBytes_refl s) h.bytes ht.same

theorem isMap_atCommand (hat : s.atCommand die core c i) (hop : i.op = 0x22) {kind : Nat} (hmode : bits i.mode 0 3 = kind) :
    isMap kind i = true := by
  rw [isMap, isOp_atCommand hat hop, hmode, BEq.rfl, Bool.and_self]

theorem isScatter_atCommand (hat : s.atCommand die core c i) (hop : i.op = 0x21) {rows : Bool} (hmode : bit i.mode 0 = rows) :
    isScatter rows i = true := by
  rw [isScatter, isOp_atCommand hat hop, hmode, BEq.rfl, Bool.and_self]

end issue
end Sys2Proof.Proofs

/-! PROOFS. The MAP commands (08_sparse_convolution_and_neighbours.md, R337 to R368). First lists of records in memory; then index tables, rule
books, walks and intersections, and what a command leaves at its end. -/

namespace Sys2Proof.Proofs

open Sys2Proof Sys2Proof.Machine Sys2Proof.Laws

/-! ### Lists of records in memory -/

section records
variable {α : Type} {f : α → List Byte} {ps : List α} {size k j n : Nat} {p : α}

theorem drop_records (hf : ∀ q ∈ ps, (f q).length = size) (hp : ps[k]? = some p) : ∃ rest, (ps.flatMap f).drop (size * k) = f p ++ rest := by
  induction ps generalizing k with
  | nil => cases hp
  | cons q qs ih =>
    obtain ⟨hq, hqs⟩ := List.forall_mem_cons.1 hf
    rw [List.flatMap_cons]
    cases k with
    | zero =>
      obtain rfl : q = p := by simpa using hp
      exact ⟨_, rfl⟩
    | succ k => rw [Nat.mul_succ, Nat.add_comm, ← hq, ← List.drop_drop, List.drop_left, hq]; exact ih hqs hp

/-- A number within a record. -/
theorem leAt_record (hf : ∀ q ∈ ps, (f q).length = size) (hp : ps[k]? = some p) (hj : j + n ≤ size) :
    leAt (ps.flatMap f) (size * k + j) n = leAt (f p) j n := by
  obtain ⟨rest, hdrop⟩ := drop_records hf hp
  rw [leAt, ← List.drop_drop, hdrop, ← leAt, leAt_append_left (by rw [hf p (List.mem_of_getElem? hp)]; exact hj)]

theorem length_records (hf : ∀ q ∈ ps, (f q).length = size) : (ps.flatMap f).length = size * ps.length := by
  rw [List.length_flatMap, List.map_congr_left hf, List.map_const', List.sum_replicate, smul_eq_mul, Nat.mul_comm]

/-- Two numbers of four bytes each. -/
def pairBytes (p : Nat × Nat) : List Byte := toLe 4 p.1 ++ toLe 4 p.2

theorem length_pairBytes (p : Nat × Nat) : (pairBytes p).length = 8 := by rw [pairBytes, List.length_append, length_toLe, length_toLe]

theorem le_pair {u w : State} {a o : Nat} {ps : List (Nat × Nat)} {p : Nat × Nat} (h : Written u w a (ps.flatMap pairBytes))
    (hp : ps[o]? = some p) : w.le (a + 8 * o) 4 = p.1 % 2 ^ 32 ∧ w.le (a + 8 * o + 4) 4 = p.2 % 2 ^ 32 := by
  have hf : ∀ q ∈ ps, (pairBytes q).length = 8 := fun q _ => length_pairBytes q
  have ho := (List.getElem?_eq_some_iff.1 hp).1
  have hlen := length_records hf
  have hfirst := leAt_record (j := 0) (n := 4) hf hp (by decide)
  have hsecond := leAt_record (j := 4) (n := 4) hf hp (by decide)
  rw [pairBytes, leAt_toLe_append] at hfirst
  rw [pairBytes, leAt_toLe_skip le_rfl, leAt_toLe] at hsecond
  rw [Nat.add_assoc, h.le_part (by omega), h.le_part (by omega)]
  exact ⟨hfirst, hsecond⟩

end records

/-! ### What fits a store -/

section fits
variable {s : State} {x : Cx} {a n off : Nat}

theorem storeRangeOk_le (h : storeRangeOk off n = true) : off + n ≤ 2 ^ 24 := by
  unfold storeRangeOk storeAt at h
  split_ifs at h with h0 h1 h2
  all_goals
    have := of_decide_eq_true h
    omega

theorem ownRange_le (h : s.OwnRange x a n) : a < 2 ^ 48 ∧ n ≤ 2 ^ 24 := by
  obtain ⟨ha, -, off, -, hrange⟩ := h
  have := storeRangeOk_le hrange
  omega

theorem le_lt (s : State) (a n : Nat) : s.le a n < 256 ^ n := by
  have h := leNat_lt (s.bytes a n)
  rwa [length_bytes] at h

theorem cells_lt (s : State) (a : Nat) : (s.gridAt a).cells < 2 ^ 32 := le_lt s (a + 104) 4

theorem build_lt (s : State) (a : Nat) : (s.gridAt a).build < 2 ^ 24 := le_lt s (a + 80) 3

end fits

/-! ### MAP INDEX and MAP DILATE of a submanifold layer (08 R340, R349) -/


/-- What MAP INDEX asks of its grid and of its table. -/
structure IndexFits (s : State) (x : Cx) (a tbl : Nat) (v : GridView) : Prop where
  view : s.gridAt a = v
  closed : v.state = 2
  grid : s.OwnRange x a 640
  table : s.OwnRange x tbl (64 + 4 * v.cells)
  list : s.Sees x tbl (64 + 4 * v.cells) v.geo.listBase (16 * v.cells)
  inside : ∀ p < v.cells, (s.siteEntry v.geo p).index < v.cells
  apart : ∀ p q, p < v.cells → q < v.cells → (s.siteEntry v.geo p).index = (s.siteEntry v.geo q).index → p = q

/-- The first `n` sites stand in the index table. -/
def Indexed (s : State) (x : Cx) (no tbl : Nat) (v : GridView) (n : Nat) (u : State) : Prop :=
  AtWork s x no tbl (64 + 4 * v.cells) u ∧ ∀ p < n, u.le (tbl + 64 + 4 * (s.siteEntry v.geo p).index) 4 = p

theorem leads_indexSite {s u : State} {x : Cx} {no a tbl p : Nat} {v : GridView} (hfit : IndexFits s x a tbl v) (hp : p < v.cells)
    (hcells : v.cells < 2 ^ 32) (h : Indexed s x no tbl v p u) :
    ∃ w, Leads u (do
        let e ← x.listSlot v.geo p
        x.writeAt (tbl + 64 + 4 * e.index) (toLe 4 p)) () w ∧ Indexed s x no tbl v (p + 1) w := by
  obtain ⟨hu, hdone⟩ := h
  have hinside := hfit.inside p hp
  obtain ⟨w, hwrite, hw, hwritten⟩ := hu.leads_writeAt hfit.table (k := 64 + 4 * (s.siteEntry v.geo p).index) (bs := toLe 4 p)
    (by rw [length_toLe]; omega)
  rw [← Nat.add_assoc] at hwrite hwritten
  refine ⟨w, leads_bind (hu.gives_listSlot_below hfit.list hp) hwrite, hw, fun q hq => ?_⟩
  rcases Nat.lt_succ_iff_lt_or_eq.1 hq with hlt | rfl
  · have hne : (s.siteEntry v.geo q).index ≠ (s.siteEntry v.geo p).index := fun heq => hlt.ne (hfit.apart q p (hlt.trans hp) hp heq)
    rw [hwritten.le_apart hu.sound, hdone q hlt]
    rw [length_toLe]
    omega
  · rw [hwritten.le_self]
    exact Nat.mod_eq_of_lt (hp.trans hcells)

theorem leads_mapIndex {s u : State} {x : Cx} {no a tbl : Nat} {v : GridView} (h : AtWork s x no 0 0 u)
    (hpa : x.paOf (x.w 1) (x.w 2) 1 = .ok a) (ha : a % 64 = 0) (hpt : x.paOf (x.w 3) (x.w 4) 3 = .ok tbl) (ht : tbl % 64 = 0)
    (hfit : IndexFits s x a tbl v) :
    ∃ w, Leads u (mapIndexBody x no) (some 0) w ∧ w.le tbl 8 = a ∧ w.le (tbl + 8) 4 = v.build ∧ Indexed s x no tbl v v.cells w := by
  have hcells : v.cells < 2 ^ 32 := hfit.view ▸ cells_lt s a
  have hbuild : v.build < 2 ^ 24 := hfit.view ▸ build_lt s a
  have haddr := (ownRange_le hfit.grid).1
  have hgrid : Gives u (x.grid a) v := hfit.view ▸ h.gives_grid (sees_part (k := 0) (sees_of_ownRange hfit.grid) (by decide))
  obtain ⟨w, hloop, hw, hsites⟩ := leads_each_keeps (Keeps := Indexed s x no tbl v) ⟨h.target .., nofun⟩
    fun _ hp _ => leads_indexSite hfit hp hcells
  obtain ⟨t, hhead, ht', hwritten⟩ := hw.leads_writeAt hfit.table (k := 0) (bs := toLe 8 a ++ toLe 4 v.build ++ List.replicate 52 0)
    (by simp [length_toLe])
  have hfield {off n : Nat} (hlen : off + n ≤ 64) := hwritten.le_part (off := off) (n := n) (by simpa [length_toLe] using hlen)
  refine ⟨t, ?_, ?_, ?_, ht', fun p hp => ?_⟩
  · refine leads_bind (gives_pa_own hpa ha hfit.grid) (leads_bind hgrid ?_)
    refine leads_bind (gives_pa_own hpt ht hfit.table) (leads_bind (gives_needState hfit.closed) ?_)
    exact leads_bind hloop (leads_bind hhead (leads_pure _))
  · have hread := hfield (off := 0) (n := 8) (by decide)
    rw [List.append_assoc, leAt_toLe_append] at hread
    exact hread.trans (Nat.mod_eq_of_lt (haddr.trans (by decide)))
  · have hread := hfield (off := 8) (n := 4) (by decide)
    rw [List.append_assoc, leAt_toLe_skip le_rfl, leAt_toLe_append] at hread
    exact hread.trans (Nat.mod_eq_of_lt (hbuild.trans (by decide)))
  · rw [hwritten.le_apart hw.sound, hsites p hp]
    simp only [List.length_append, length_toLe, List.length_replicate]
    omega

theorem leads_mapDilate {s u : State} {x : Cx} {no a : Nat} (h : AtWork s x no 0 0 u) (hpa : x.paOf (x.w 1) (x.w 2) 1 = .ok a) (ha : a % 64 = 0) (hown : s.OwnRange x a 64)
    (hconv : s.seesConv x (a + 44) 20 a) (hsuppress : (s.convAt a).conv.suppress = 1) (hstate : (s.convAt a).inp.state = 2) :
    ∃ w, Leads u (mapDilate x no) (some 0) w ∧ AtWork s x no (a + 44) 20 w ∧
      Written u w (a + 44) (({ admitted := (s.convAt a).inp.cells } : DilateSum).bytes (s.convAt a).inp.cells) := by
  obtain ⟨w, hwrite, hw, hwritten⟩ := (h.target (a + 44) 20).leads_writeAt (ownRange_part hown (by decide) (by decide)) (k := 0)
    (bs := ({ admitted := (s.convAt a).inp.cells } : DilateSum).bytes (s.convAt a).inp.cells)
    (by simp [DilateSum.bytes, length_toLe])
  refine ⟨w, ?_, hw, hwritten⟩
  refine leads_bind (gives_pa_own hpa ha hown) (leads_bind ((h.target ..).gives_conv hconv) (leads_if (by rw [hsuppress]; rfl) ?_))
  exact leads_bind (gives_needState hstate) (leads_bind hwrite (leads_pure _))

/-! ### MAP RULES (08 R352 to R357) -/

section cut
variable {cap start : Nat} {all : List (List (Nat × Nat))} {ns : List Nat} {seg : Nat × Nat}

theorem length_cutPairs : (cutPairs cap all).length = all.length := by
  induction all generalizing cap with
  | nil => rfl
  | cons ps rest ih => exact congrArg Nat.succ ih

theorem length_segments : (segments start ns).length = ns.length := by
  induction ns generalizing start with
  | nil => rfl
  | cons n ns ih => exact congrArg Nat.succ ih

/-- No segment goes beyond the last one. -/
theorem segment_le (h : seg ∈ segments start ns) : seg.1 + seg.2 ≤ start + ns.sum := by
  induction ns generalizing start with
  | nil => cases h
  | cons n ns ih =>
    rw [List.sum_cons]
    rcases List.mem_cons.1 h with rfl | h
    · dsimp only
      omega
    · exact (ih h).trans_eq (Nat.add_assoc ..)

theorem sum_lengths : (all.map List.length).sum = all.flatten.length := List.length_flatten.symm

end cut

/-- The pair that a layer makes of an output site at an offset, when it joins an input site to it. -/
def sitePair (s : State) (l : ConvLayer) (o : Nat) (p : Nat × Cell) : Option (Nat × Nat) :=
  ((l.conv.inputCell l.inp.geo p.2 o).bind (s.siteAt l.conv.inIndex l.inp)).map fun q => (q, p.1)

/-- A rule book: where it lies, the first output site, how many there are, its capacity, and how many pairs found no place. -/
structure Book where
  addr : Nat
  lo : Nat
  n : Nat
  cap : Nat
  dropped : Nat

/-- The header of a rule book of a layer (08 R352). -/
def Book.header (b : Book) (a : Nat) (l : ConvLayer) (kept : List (List (Nat × Nat))) : List Byte :=
  toLe 4 b.lo ++ toLe 4 b.n ++ toLe 4 kept.flatten.length ++ toLe 4 b.cap ++ toLe 4 b.dropped ++ toLe 1 l.conv.kv ++
    toLe 1 (bitIf (b.dropped != 0) 0) ++ toLe 2 0 ++ toLe 8 a ++ toLe 4 l.inp.build ++ toLe 4 l.out.build ++ List.replicate 24 0

/-- The segments of a rule book. -/
def segmentsOf (kept : List (List (Nat × Nat))) : List (Nat × Nat) := segments 0 (kept.map List.length)

/-- What stands in a rule book that has been written. -/
structure BookHolds (w : State) (b : Book) (a : Nat) (l : ConvLayer) (kept : List (List (Nat × Nat))) : Prop where
  header : w.bytes b.addr 64 = b.header a l kept
  segment : ∀ o seg, (segmentsOf kept)[o]? = some seg →
    w.le (b.addr + 64 + 8 * o) 4 = seg.1 % 2 ^ 32 ∧ w.le (b.addr + 64 + 8 * o + 4) 4 = seg.2 % 2 ^ 32
  pair : ∀ k p, kept.flatten[k]? = some p →
    w.le (b.addr + pairArea l.conv.kv + 8 * k) 4 = p.1 % 2 ^ 32 ∧ w.le (b.addr + pairArea l.conv.kv + 8 * k + 4) 4 = p.2 % 2 ^ 32

theorem length_bookHeader (b : Book) (a : Nat) (l : ConvLayer) (kept : List (List (Nat × Nat))) : (b.header a l kept).length = 64 := by
  simp only [Book.header, List.length_append, length_toLe, List.length_replicate]

namespace AtWork
variable {s u : State} {x : Cx} {no a : Nat} {l : ConvLayer} {us : List (Nat × Cell)} {o : Nat}

theorem gives_offsetPairs (h : AtWork s x no 0 0 u)
    (hsees : ∀ p ∈ us, ∀ c, l.conv.inputCell l.inp.geo p.2 o = some c → s.seesSite x 0 0 l.conv.inIndex l.inp c) :
    Gives u (x.offsetPairs l us o) (us.filterMap (sitePair s l o)) := by
  have hone : ∀ p ∈ us, Gives u (match l.conv.inputCell l.inp.geo p.2 o with
      | none => pure none
      | some c => do
        match ← x.site l.conv.inIndex l.inp c with
        | some i => pure (some (i, p.1))
        | none => pure none : M (Option (Nat × Nat))) (sitePair s l o p) := by
    intro p hp
    unfold sitePair
    cases hcell : l.conv.inputCell l.inp.geo p.2 o with
    | none => exact leads_pure _
    | some c =>
      refine leads_bind (h.gives_site (.inl rfl) (hsees p hp c hcell)) ?_
      rw [Option.bind_some]
      cases s.siteAt l.conv.inIndex l.inp c <;> exact leads_pure _
  unfold Cx.offsetPairs
  refine leads_bind (gives_collect hone) ?_
  rw [List.filterMap_map]
  exact leads_pure _

/-- A rule book is written pairs first, then its segments, then its header. -/
theorem leads_writeBook (h : AtWork s x no 0 0 u) {b : Book} {kept : List (List (Nat × Nat))} (hkept : kept.length = l.conv.kv)
    (hown : s.OwnRange x b.addr (pairArea l.conv.kv + 8 * kept.flatten.length)) :
    ∃ w1 w2 w3, Leads u (x.writeAt (b.addr + pairArea l.conv.kv) (kept.flatten.flatMap pairBytes)) () w1 ∧
      Leads w1 (x.writeAt (b.addr + 64) ((segmentsOf kept).flatMap pairBytes)) () w2 ∧
      Leads w2 (x.writeAt b.addr (b.header a l kept)) () w3 ∧
      AtWork s x no b.addr (pairArea l.conv.kv + 8 * kept.flatten.length) w3 ∧ BookHolds w3 b a l kept := by
  have hpairs := length_records (ps := kept.flatten) fun q _ => length_pairBytes q
  have hcount : (segmentsOf kept).length = l.conv.kv := by rw [segmentsOf, length_segments, List.length_map, hkept]
  have hsegments := length_records (ps := segmentsOf kept) fun q _ => length_pairBytes q
  rw [hcount] at hsegments
  have harea : 64 + 8 * l.conv.kv ≤ pairArea l.conv.kv := by unfold pairArea; omega
  have hheader := length_bookHeader b a l kept
  obtain ⟨w1, hlead1, hwork1, hw1⟩ := (h.target b.addr (pairArea l.conv.kv + 8 * kept.flatten.length)).leads_writeAt hown
    (k := pairArea l.conv.kv) (bs := kept.flatten.flatMap pairBytes) (by omega)
  obtain ⟨w2, hlead2, hwork2, hw2⟩ := hwork1.leads_writeAt hown (k := 64) (bs := (segmentsOf kept).flatMap pairBytes) (by omega)
  obtain ⟨w3, hlead3, hwork3, hw3⟩ := hwork2.leads_writeAt hown (k := 0) (bs := b.header a l kept) (by omega)
  refine ⟨w1, w2, w3, hlead1, hlead2, hlead3, hwork3, hheader ▸ hw3.read, fun o seg hseg => ?_, fun k p hp => ?_⟩
  · have ho := (List.getElem?_eq_some_iff.1 hseg).1
    rw [hw3.le_apart hwork2.sound (by omega), hw3.le_apart hwork2.sound (by omega)]
    exact le_pair hw2 hseg
  · have hk := (List.getElem?_eq_some_iff.1 hp).1
    rw [hw3.le_apart hwork2.sound (by omega), hw3.le_apart hwork2.sound (by omega), hw2.le_apart hwork1.sound (by omega),
      hw2.le_apart hwork1.sound (by omega)]
    exact le_pair hw1 hp

end AtWork

/-- Output sites with their cells, from a site on. -/
def sitesFrom (s : State) (l : ConvLayer) (lo n : Nat) : List (Nat × Cell) :=
  (List.range n).map fun k => (lo + k, cellOf (s.siteEntry l.out.geo (lo + k)).key)

/-- The pairs of each offset of a layer. -/
def layerPairs (s : State) (l : ConvLayer) (us : List (Nat × Cell)) : List (List (Nat × Nat)) :=
  (List.range l.conv.kv).map fun o => us.filterMap (sitePair s l o)

/-- What MAP RULES asks of its layer. -/
structure RulesFit (s : State) (x : Cx) (l : ConvLayer) (lo n : Nat) : Prop where
  inp : l.inp.state = 2
  out : l.out.state = 2
  fresh : s.freshIndex x 0 0 l.conv.inIndex l.inp
  list : s.Sees x 0 0 l.out.geo.listBase (16 * (lo + n))
  site : ∀ o k c, o < l.conv.kv → k < n → l.conv.inputCell l.inp.geo (cellOf (s.siteEntry l.out.geo (lo + k)).key) o = some c →
    s.seesSite x 0 0 l.conv.inIndex l.inp c

/-- The rule book that MAP RULES writes. -/
def rulesBook (s : State) (x : Cx) (l : ConvLayer) (book : Nat) : Book :=
  let lo := x.f 6 0 24
  let n := min (x.f 7 0 24) (l.out.cells - lo)
  let all := layerPairs s l (sitesFrom s l lo n)
  ⟨book, lo, n, x.w 5, all.flatten.length - (cutPairs (x.w 5) all).flatten.length⟩

/-- The pairs that it keeps. -/
def rulesKept (s : State) (x : Cx) (l : ConvLayer) : List (List (Nat × Nat)) :=
  let lo := x.f 6 0 24
  cutPairs (x.w 5) (layerPairs s l (sitesFrom s l lo (min (x.f 7 0 24) (l.out.cells - lo))))

namespace AtWork
variable {s u : State} {x : Cx} {no a book lo n : Nat} {l : ConvLayer}

theorem gives_layerPairs (h : AtWork s x no 0 0 u) (hfit : RulesFit s x l lo n) :
    Gives u (M.collect (List.range l.conv.kv) (x.offsetPairs l (sitesFrom s l lo n))) (layerPairs s l (sitesFrom s l lo n)) := by
  refine gives_collect fun o ho => h.gives_offsetPairs fun p hp c hcell => ?_
  obtain ⟨k, hk, rfl⟩ := List.mem_map.1 hp
  exact hfit.site o k c (List.mem_range.1 ho) (List.mem_range.1 hk) hcell

theorem gives_sitesFrom (h : AtWork s x no 0 0 u) (hfit : RulesFit s x l lo n) :
    Gives u (M.collect (List.range n) fun i => do
      let t ← x.listSlot l.out.geo (lo + i)
      pure (lo + i, cellOf t.key)) (sitesFrom s l lo n) :=
  gives_collect fun _ hk => leads_bind (h.gives_listSlot_below hfit.list (Nat.add_lt_add_left (List.mem_range.1 hk) lo)) (leads_pure _)

theorem leads_mapRules (h : AtWork s x no 0 0 u) (hpa : x.paOf (x.w 1) (x.w 2) 1 = .ok a) (ha : a % 64 = 0)
    (hpb : x.paOf (x.w 3) (x.w 4) 3 = .ok book) (hb : book % 64 = 0) (hown : s.OwnRange x a 64) (hconv : s.seesConv x 0 0 a)
    (hfit : RulesFit s x (s.convAt a) (x.f 6 0 24) (min (x.f 7 0 24) ((s.convAt a).out.cells - x.f 6 0 24)))
    (hbook : s.OwnRange x book (pairArea (s.convAt a).conv.kv + 8 * (rulesKept s x (s.convAt a)).flatten.length)) :
    ∃ flags w, Leads u (mapRulesBody x no) (some flags) w ∧
      AtWork s x no book (pairArea (s.convAt a).conv.kv + 8 * (rulesKept s x (s.convAt a)).flatten.length) w ∧
      BookHolds w (rulesBook s x (s.convAt a) book) a (s.convAt a) (rulesKept s x (s.convAt a)) := by
  have hlist := h.gives_sitesFrom hfit
  have hlayer := h.gives_layerPairs hfit
  have hreadConv := h.gives_conv hconv
  generalize s.convAt a = l at *
  have hkept : (rulesKept s x l).length = l.conv.kv := by
    rw [rulesKept, length_cutPairs, layerPairs, List.length_map, List.length_range]
  obtain ⟨w1, w2, w3, hlead1, hlead2, hlead3, hwork, hholds⟩ := h.leads_writeBook (b := rulesBook s x l book) (a := a) hkept hbook
  have hcounted := (hwork.counted (f := .NS_PAIRS) (by decide) x.die x.core (rulesKept s x l).flatten.length).counted
    (f := .NS_PAIRS_DROPPED) (by decide) x.die x.core (rulesBook s x l book).dropped
  refine ⟨flagIf ((rulesBook s x l book).dropped != 0) flagPartial, _, ?_, hcounted, ⟨hholds.header, hholds.segment, hholds.pair⟩⟩
  refine leads_bind (gives_pa_own hpa ha hown) (leads_bind hreadConv ?_)
  refine leads_bind (gives_needState hfit.inp) (leads_bind (gives_needState hfit.out) (leads_bind (h.gives_needIndex hfit.fresh) ?_))
  refine leads_bind hlist (leads_bind hlayer (leads_bind (gives_pa_own hpb hb hbook) ?_))
  exact leads_bind hlead1 (leads_bind hlead2 (leads_bind hlead3 (leads_bind (leads_act _) (leads_bind (leads_act _) (leads_pure _)))))

end AtWork

/-! ### Walking and intersecting (08 R366 to R368) -/

theorem Written.bytes_part {u w : State} {a off n : Nat} {bs : List Byte} (h : Written u w a bs) (hlen : off + n ≤ bs.length) :
    w.bytes (a + off) n = (bs.drop off).take n := by
  obtain ⟨rest, hrest⟩ := Nat.exists_eq_add_of_le hlen
  have hread := h.read
  rw [hrest, bytes_add h.sound, bytes_add h.sound, List.append_assoc] at hread
  rw [← hread, List.drop_left' (length_bytes ..), List.take_left' (length_bytes ..)]

/-- A bit's number stands among the set bits when the bit is set. -/
theorem mem_setBits {bs : List Byte} {i : Nat} : i ∈ setBits bs ↔ i < 8 * bs.length ∧ bit (byteAt bs (i / 8)) (i % 8) = true := by
  have hbyte {q : Byte} {j : Nat} (hq : bs[j]? = some q) : byteAt bs j = q.toNat := by
    rw [byteAt, List.getD_eq_getElem?_getD, hq]
    rfl
  simp only [setBits, List.mem_flatMap, List.mem_map, List.mem_filter, List.mem_range, Prod.exists, List.mem_zipIdx_iff_getElem?]
  constructor
  · rintro ⟨q, j, hq, k, ⟨hk, hbit⟩, rfl⟩
    have hj := (List.getElem?_eq_some_iff.1 hq).1
    rw [show (8 * j + k) / 8 = j by omega, show (8 * j + k) % 8 = k by omega, hbyte hq]
    exact ⟨by omega, hbit⟩
  · rintro ⟨hi, hbit⟩
    have hq : bs[i / 8]? = some bs[i / 8] := List.getElem?_eq_getElem (by omega)
    exact ⟨_, _, hq, i % 8, ⟨Nat.mod_lt _ (by decide), hbyte hq ▸ hbit⟩, Nat.div_add_mod ..⟩

/-- The cells of a pillar grid that its occupancy map holds, row by row. -/
def pillarCells (s : State) (g : Geo) : List Cell :=
  ((List.range g.ny).map fun y => (setBits (s.bytes (g.occBase + 256 * y) 256)).map fun i => (⟨i, y, 0⟩ : Cell)).flatten

theorem contains_pillarCells {s : State} (hs : s.Sound) (v : GridView) {c : Cell} (hc : c.x < 2048) :
    (pillarCells s v.geo).contains c = s.inPillarMap v c := by
  rw [Bool.eq_iff_iff, List.contains_iff_mem, State.inPillarMap, Bool.and_eq_true, decide_eq_true_iff]
  simp only [pillarCells, List.mem_flatten, List.mem_map, List.mem_range, exists_exists_and_eq_and, mem_setBits, length_bytes]
  obtain ⟨i, y, z⟩ := c
  dsimp only at hc
  constructor
  · rintro ⟨y', hy, i', ⟨hi, hbit⟩, heq⟩
    cases heq
    rw [byteAt_bytes_le hs (by omega)] at hbit
    refine ⟨⟨rfl, hy⟩, ?_⟩
    rw [Cell.key, show (i + 2048 * y + 4194304 * 0) / 8 = 256 * y + i / 8 by omega, show (i + 2048 * y + 4194304 * 0) % 8 = i % 8 by omega,
      ← Nat.add_assoc]
    exact hbit
  · rintro ⟨⟨hz, hy⟩, hbit⟩
    obtain rfl : z = 0 := hz
    refine ⟨y, hy, i, ⟨hc, ?_⟩, rfl⟩
    rw [byteAt_bytes_le hs (by omega)]
    rw [Cell.key, show (i + 2048 * y + 4194304 * 0) / 8 = 256 * y + i / 8 by omega, show (i + 2048 * y + 4194304 * 0) % 8 = i % 8 by omega,
      ← Nat.add_assoc] at hbit
    exact hbit

/-- The cell of a site of a grid. -/
def siteCell (s : State) (v : GridView) (p : Nat) : Cell := cellOf (s.siteEntry v.geo p).key

/-- The sites of a pillar grid that its occupancy map holds, with their cells. -/
def pillarSites (s : State) (v : GridView) : List (Nat × Cell) :=
  ((List.range v.cells).map fun p => (p, siteCell s v p)).filter fun p => s.inPillarMap v p.2

namespace AtWork
variable {s u : State} {x : Cx} {no word cap size m : Nat} {v : GridView} {es : List (List Byte)}

theorem gives_pillarCells (h : AtWork s x no 0 0 u) {g : Geo} (hpillar : g.pillar = true) (hsees : s.Sees x 0 0 g.occBase (256 * g.ny)) :
    Gives u (x.occupiedCells g) (pillarCells s g) := by
  have hrow : ∀ y ∈ List.range g.ny, Gives u (do
      let bs ← x.readAt (g.occBase + 256 * y) 256
      pure ((setBits bs).map fun i => (⟨i, y, 0⟩ : Cell))) ((setBits (s.bytes (g.occBase + 256 * y) 256)).map fun i => (⟨i, y, 0⟩ : Cell)) :=
    fun y hy => leads_bind (h.gives_readAt (sees_part hsees (by have := List.mem_range.1 hy; omega))) (leads_pure _)
  exact leads_if hpillar (leads_bind (gives_collect hrow) (leads_pure _))

theorem gives_pillarSites (h : AtWork s x no 0 0 u) (hpillar : v.geo.pillar = true)
    (hocc : s.Sees x 0 0 v.geo.occBase (256 * v.geo.ny)) (hlist : s.Sees x 0 0 v.geo.listBase (16 * v.cells)) :
    Gives u (x.occupiedSites v) (pillarSites s v) := by
  have hsite : ∀ p ∈ List.range v.cells, Gives u (do
      let t ← x.listSlot v.geo p
      pure (p, cellOf t.key)) (p, siteCell s v p) :=
    fun p hp => leads_bind (h.gives_listSlot_below hlist (List.mem_range.1 hp)) (leads_pure _)
  have hfilter : ((List.range v.cells).map fun p => (p, siteCell s v p)).filter (fun p => (pillarCells s v.geo).contains p.2) = pillarSites s v := by
    refine List.filter_congr fun p hp => contains_pillarCells h.origin v ?_
    obtain ⟨k, -, rfl⟩ := List.mem_map.1 hp
    exact Nat.mod_lt _ (by decide)
  refine leads_bind (h.gives_pillarCells hpillar hocc) (leads_bind (gives_collect hsite) ?_)
  rw [hfilter]
  exact leads_pure _

/-- A list of records of one size is written behind its two counts. -/
theorem leads_writeFound (h : AtWork s x no 0 0 u) (hpos : 0 < size) (hsize : ∀ e ∈ es, e.length = size) (hes : es.length ≤ m)
    (hrange : storeRangeOk (x.la word) (8 + size * m) = true) :
    ∃ flags dst len w, Leads u (x.writeFound word cap size es) (some flags) w ∧ AtWork s x no dst len w ∧ w.Found x word cap size es := by
  have hkept : (es.take cap).length = min cap es.length := List.length_take
  have hfits : 8 + size * (es.take cap).length ≤ 8 + size * m := Nat.add_le_add_left (Nat.mul_le_mul_left _ (by omega)) _
  have hstore : storeRangeOk (x.la word) (8 + size * (es.take cap).length) = true :=
    storeRangeOk_part (k := 0) hrange (by omega) (by rwa [Nat.zero_add])
  have hlen : (es.take cap).flatten.length = size * (es.take cap).length := by
    rw [← List.flatMap_id]
    exact length_records fun e he => hsize e (List.mem_of_mem_take he)
  have hcount : (toLe 4 (es.take cap).length ++ toLe 4 es.length).length = 8 := by rw [List.length_append, length_toLe, length_toLe]
  have hat := storeAddr_add (die := x.die) (core := x.core) (x.la word) 8
  obtain ⟨w1, hlead1, hwork1, hw1⟩ := (h.target (storeAddr x.die x.core (x.la word)) (8 + size * (es.take cap).length)).leads_writeStore
    (off := x.la word + 8) (bs := (es.take cap).flatten) (by omega) (by omega)
  obtain ⟨w2, hlead2, hwork2, hw2⟩ := hwork1.leads_writeStore (off := x.la word) (bs := toLe 4 (es.take cap).length ++ toLe 4 es.length)
    le_rfl (by omega)
  refine ⟨_, _, _, w2, leads_bind (gives_local (.inr hstore)) (leads_bind hlead1 (leads_bind hlead2 (leads_pure _))), hwork2, ?_, ?_,
    fun k e hk he => ?_⟩
  · have hread := hw2.le_part (off := 0) (n := 4) (by omega)
    rw [leAt_toLe_append, hkept, Nat.add_zero] at hread
    have hle := storeRangeOk_le hrange
    have hm : m ≤ size * m := Nat.le_mul_of_pos_left m hpos
    exact hread.trans (Nat.mod_eq_of_lt (by omega))
  · have hread := hw2.le_part (off := 4) (n := 4) (by omega)
    rw [leAt_toLe_skip le_rfl, leAt_toLe, storeAddr_add] at hread
    exact hread
  · have hentry : (es.take cap)[k]? = some e := by rw [List.getElem?_take_of_lt hk, he]
    have hone := (List.getElem?_eq_some_iff.1 hentry).1
    have hin : size * k + size ≤ size * (es.take cap).length := by rw [← Nat.mul_succ]; exact Nat.mul_le_mul_left _ hone
    obtain ⟨rest, hdrop⟩ := drop_records (f := fun e => e) (fun q hq => hsize q (List.mem_of_mem_take hq)) hentry
    have hesize := hsize e (List.mem_of_getElem? he)
    rw [Nat.add_assoc, ← storeAddr_add, ← Nat.add_assoc, hat]
    rw [hw2.bytes_apart hwork1.sound (by omega), hw1.bytes_part (by omega), ← List.flatMap_id]
    exact hdrop ▸ List.take_left' hesize

end AtWork

/-! ### The MAP commands as the statement names what they find -/

/-- A site lies inside the box that words 5 to 7 of the command name (08 R366). -/
def inBox (x : Cx) (c : Cell) : Bool :=
  let inside := fun (w k : Nat) => decide (x.f w 0 12 ≤ k ∧ k < x.f w 12 12)
  inside 5 c.x && inside 6 c.y && inside 7 c.z

/-- The sites of a pillar grid inside that box. -/
def boxSites (s : State) (x : Cx) (v : GridView) : List Nat :=
  (List.range v.cells).filter fun p => s.inPillarMap v (siteCell s v p) && inBox x (siteCell s v p)

/-- The two sites of a cell that two grids share. -/
def sharedSite (s : State) (tb : Nat) (w : GridView) (p : Nat × Cell) : Option (List Byte) :=
  (s.siteAt tb w p.2).map fun q => toLe 4 p.1 ++ toLe 4 q

/-- The sites that two pillar grids share. -/
def sharedSites (s : State) (tb : Nat) (v w : GridView) : List (List Byte) :=
  (List.range v.cells).filterMap fun p => if s.inPillarMap v (siteCell s v p) then sharedSite s tb w (p, siteCell s v p) else none

theorem boxSites_eq (s : State) (x : Cx) (v : GridView) :
    (((pillarSites s v).filter fun p => inBox x p.2).map fun p => toLe 4 p.1) = (boxSites s x v).map fun p => toLe 4 p := by
  rw [pillarSites, List.filter_filter, List.filter_map, List.map_map, boxSites]
  exact congrArg _ (List.filter_congr fun p _ => Bool.and_comm ..)

theorem sharedSites_eq (s : State) (tb : Nat) (v w : GridView) :
    ((pillarSites s v).map (sharedSite s tb w)).filterMap id = sharedSites s tb v w := by
  rw [List.filterMap_map, pillarSites, List.filterMap_filter, List.filterMap_map, sharedSites]
  rfl

theorem length_boxSites_le (s : State) (x : Cx) (v : GridView) : (boxSites s x v).length ≤ v.cells :=
  (List.length_filter_le ..).trans_eq List.length_range

theorem length_sharedSites_le (s : State) (tb : Nat) (v w : GridView) : (sharedSites s tb v w).length ≤ v.cells :=
  (List.length_filterMap_le ..).trans_eq List.length_range

theorem length_sharedSite {s : State} {tb : Nat} {v w : GridView} {e : List Byte} (he : e ∈ sharedSites s tb v w) : e.length = 8 := by
  obtain ⟨p, -, hp⟩ := List.mem_filterMap.1 he
  obtain ⟨-, hshared⟩ := Option.ite_none_right_eq_some.1 hp
  obtain ⟨q, -, rfl⟩ := Option.map_eq_some_iff.1 hshared
  rw [List.length_append, length_toLe, length_toLe]

theorem Left.found {w t : State} (h : Left w t) {x : Cx} {word cap size : Nat} {es : List (List Byte)} (hf : w.Found x word cap size es) :
    t.Found x word cap size es := by
  simpa only [State.Found, State.own, h.le, h.bytes] using hf

namespace AtWork
variable {s u : State} {x : Cx} {no a tb : Nat} {v w : GridView}

/-- The grid that a fresh index table names. -/
theorem gives_indexed_grid (h : AtWork s x no 0 0 u) (hv : s.gridAt (s.le a 6) = v) (hfresh : s.freshIndex x 0 0 a v)
    (hgrid : s.Sees x 0 0 v.addr 108) : Gives u (x.indexed a) v := by
  subst hv
  exact h.gives_indexed hfresh.1 hgrid

theorem leads_mapWalk (h : AtWork s x no 0 0 u) (hpa : x.paOf (x.w 1) (x.w 2) 1 = .ok a) (ha : a % 64 = 0) (hown : s.OwnRange x a 64)
    (hzlo : x.f 7 0 12 ≤ 256) (hzhi : x.f 7 12 12 ≤ 256) (hv : s.gridAt (s.le a 6) = v) (hfresh : s.freshIndex x 0 0 a v)
    (hgrid : s.Sees x 0 0 v.addr 108) (hlist : s.Sees x 0 0 v.geo.listBase (16 * v.cells)) (hpillar : v.geo.pillar = true)
    (hocc : s.Sees x 0 0 v.geo.occBase (256 * v.geo.ny)) (hrange : storeRangeOk (x.la 3) (8 + 4 * v.cells) = true) :
    ∃ flags dst len w, Leads u (mapWalkBody x no) (some flags) w ∧ AtWork s x no dst len w ∧
      w.Found x 3 (x.w 4) 4 ((boxSites s x v).map fun p => toLe 4 p) := by
  obtain ⟨flags, dst, len, w, hleads, hw, hfound⟩ := h.leads_writeFound (word := 3) (cap := x.w 4) (size := 4) (m := v.cells)
    (es := (boxSites s x v).map fun p => toLe 4 p) (by decide)
    (fun e he => by obtain ⟨p, -, rfl⟩ := List.mem_map.1 he; exact length_toLe 4 p) (by simpa using length_boxSites_le s x v) hrange
  rw [← boxSites_eq] at hleads
  refine ⟨flags, dst, len, w, ?_, hw, hfound⟩
  refine leads_bind (gives_pa_own hpa ha hown) (leads_bind (gives_needField (decide_eq_true hzlo) ..) ?_)
  refine leads_bind (gives_needField (decide_eq_true hzhi) ..) (leads_bind (h.gives_indexed_grid hv hfresh hgrid) ?_)
  exact leads_bind (h.gives_needIndex hfresh) (leads_bind (h.gives_pillarSites hpillar hocc hlist) hleads)

/-- A cell of one grid is looked up in another of the same geometry. -/
theorem gives_sharedSite (h : AtWork s x no 0 0 u) (hny : v.geo.ny = w.geo.ny) {p : Nat × Cell} (hp : p ∈ pillarSites s v)
    (hsees : s.seesSite x 0 0 tb w p.2) : Gives u (do
      match ← if (pillarCells s w.geo).contains p.2 then x.siteOf tb w p.2 else pure none with
      | some q => pure (some (toLe 4 p.1 ++ toLe 4 q))
      | none => pure none) (sharedSite s tb w p) := by
  obtain ⟨hsite, hmap⟩ := List.mem_filter.1 hp
  have hx : p.2.x < 2048 := by
    obtain ⟨k, -, rfl⟩ := List.mem_map.1 hsite
    exact Nat.mod_lt _ (by decide)
  simp only [State.inPillarMap, Bool.and_eq_true, decide_eq_true_iff] at hmap
  obtain ⟨⟨hz, hy⟩, -⟩ := hmap
  have hcontains : (pillarCells s w.geo).contains p.2 = bit (s.le (w.geo.occBase + p.2.key / 8) 1) (p.2.key % 8) := by
    rw [contains_pillarCells h.origin w hx, State.inPillarMap, decide_eq_true (show p.2.z = 0 ∧ p.2.y < w.geo.ny from ⟨hz, hny ▸ hy⟩),
      Bool.true_and]
  rw [sharedSite, hcontains]
  by_cases hbit : bit (s.le (w.geo.occBase + p.2.key / 8) 1) (p.2.key % 8) = true
  · refine leads_if hbit (leads_bind (h.gives_siteOf (.inl rfl) hsees hbit) ?_)
    cases s.siteAt tb w p.2 <;> exact leads_pure _
  · rw [show s.siteAt tb w p.2 = none from if_neg hbit]
    exact leads_else hbit (leads_bind (leads_pure none) (leads_pure _))

theorem leads_mapAnd (h : AtWork s x no 0 0 u) (hpa : x.paOf (x.w 1) (x.w 2) 1 = .ok a) (ha : a % 64 = 0) (hown : s.OwnRange x a 64)
    (hpb : x.paOf (x.w 3) (x.w 4) 3 = .ok tb) (hb : tb % 64 = 0) (hownb : s.OwnRange x tb 64)
    (hv : s.gridAt (s.le a 6) = v) (hw : s.gridAt (s.le tb 6) = w) (hsame : v.geo.same w.geo = true)
    (hfresh : s.freshIndex x 0 0 a v) (hfreshb : s.freshIndex x 0 0 tb w) (hgrid : s.Sees x 0 0 v.addr 108)
    (hgridb : s.Sees x 0 0 w.addr 108) (hlist : s.Sees x 0 0 v.geo.listBase (16 * v.cells))
    (hocc : s.Sees x 0 0 v.geo.occBase (256 * v.geo.ny)) (hoccb : s.Sees x 0 0 w.geo.occBase (256 * w.geo.ny))
    (hsites : ∀ p < v.cells, s.seesSite x 0 0 tb w (siteCell s v p)) (hpillar : v.geo.pillar = true)
    (hrange : storeRangeOk (x.la 5) (8 + 8 * v.cells) = true) :
    ∃ flags dst len t, Leads u (mapAndBody x no) (some flags) t ∧ AtWork s x no dst len t ∧
      t.Found x 5 (x.w 6) 8 (sharedSites s tb v w) := by
  have hgeo : v.geo.kind = w.geo.kind ∧ v.geo.ny = w.geo.ny := by
    simp only [Geo.same, Bool.and_eq_true, beq_iff_eq] at hsame
    obtain ⟨⟨⟨⟨⟨⟨hkind, -⟩, -⟩, -⟩, -⟩, hny⟩, -⟩ := hsame
    exact ⟨hkind, hny⟩
  have hpillarb : w.geo.pillar = true := by
    rw [← hpillar]
    simp only [Geo.pillar, hgeo.1]
  have hshared : ∀ p ∈ pillarSites s v, _ := fun p hp => h.gives_sharedSite (tb := tb) hgeo.2 hp (by
    obtain ⟨k, hk, rfl⟩ := List.mem_map.1 (List.mem_filter.1 hp).1
    exact hsites k (List.mem_range.1 hk))
  obtain ⟨flags, dst, len, t, hleads, ht, hfound⟩ := h.leads_writeFound (word := 5) (cap := x.w 6) (size := 8) (m := v.cells)
    (es := sharedSites s tb v w) (by decide) (fun e he => length_sharedSite he) (length_sharedSites_le ..) hrange
  rw [← sharedSites_eq] at hleads
  refine ⟨flags, dst, len, t, ?_, ht, hfound⟩
  refine leads_bind (gives_pa_own hpa ha hown) (leads_bind (gives_pa_own hpb hb hownb) ?_)
  refine leads_bind (h.gives_indexed_grid hv hfresh hgrid) (leads_bind (h.gives_indexed_grid hw hfreshb hgridb) (leads_if hsame ?_))
  refine leads_bind (h.gives_needIndex hfresh) (leads_bind (h.gives_needIndex hfreshb) ?_)
  refine leads_bind (h.gives_pillarSites hpillar hocc hlist) (leads_bind (h.gives_pillarCells hpillarb hoccb) ?_)
  exact leads_bind (gives_collect hshared) hleads

end AtWork

/-! ### Operands of the issued command -/

/-- A package address operand, by what it reads of the command: its counters at issue, its core's place and its renamed cores. -/
def paWith (counter : Nat → Nat) (phys : Nat → Nat → Nat) (die core lo hi n : Nat) : Except Err Nat :=
  let v := lo + hi * 2 ^ 32
  let term := counter (bits v 48 3) * 2 ^ bits v 51 5
  let addr := bits v 0 48
  let off := (bits addr 0 24 + term) % 2 ^ 24
  if bits v 58 6 != 0 then .error ⟨codeField, fieldDetail (n + 1) 26⟩
  else
    match bits v 56 2 with
    | 0 => .ok ((addr + term) % 2 ^ 48)
    | 1 =>
      if bits addr 29 16 != 0 then .error ⟨codeField, fieldDetail n 0⟩
      else .ok (storeAddr (addrDie addr) (phys (addrDie addr) (bits addr 24 5)) off)
    | 2 =>
      if bits addr 24 24 != 0 then .error ⟨codeField, fieldDetail n 0⟩
      else .ok (storeAddr die core off)
    | _ => .error ⟨codeField, fieldDetail (n + 1) 24⟩

theorem paOf_def : @Cx.paOf = fun x lo hi n => paWith x.c x.cmd.phys x.die x.core lo hi n := rfl

section issued
variable {s : State} {die core c : Nat} {i : Issue}

/-- The number of its issue is no part of an address operand. -/
theorem paOf_issuedCx (lo hi n : Nat) : (issuedCx s die core c i).paOf lo hi n = Cx.paOf ⟨die, core, c, i⟩ lo hi n := by
  rw [paOf_def]
  rfl

theorem pa_issuedCx {n a : Nat} (h : Cx.paOf ⟨die, core, c, i⟩ (i.w n) (i.w (n + 1)) n = .ok a) :
    (issuedCx s die core c i).paOf ((issuedCx s die core c i).w n) ((issuedCx s die core c i).w (n + 1)) n = .ok a :=
  (paOf_issuedCx ..).trans h

theorem rawOd_issuedCx {word : Nat} {d : Od} (h : s.RawOd ⟨die, core, c, i⟩ word d) : s.RawOd (issuedCx s die core c i) word d := by
  obtain ⟨halign, hrange, hbase, hrest⟩ := h
  exact ⟨halign, hrange, (paOf_issuedCx ..).trans hbase, hrest⟩

end issued

/-! ### The MAP commands -/

section rules
variable {s w : State} {b : Book} {a : Nat} {l : ConvLayer} {kept : List (List (Nat × Nat))}

theorem kv_le (h : l.conv.fieldsOk = true) : l.conv.kv ≤ 125 := by
  simp only [Conv.fieldsOk, Bool.and_eq_true, decide_eq_true_iff] at h
  obtain ⟨⟨⟨⟨-, hx, -, hy, -, hz⟩, -⟩, -⟩, -⟩ := h
  exact Nat.mul_le_mul (Nat.mul_le_mul hx hy) hz

theorem bits_lt (n lo width : Nat) : bits n lo width < 2 ^ width := Nat.mod_lt _ (Nat.two_pow_pos width)

theorem layerPairs_eq (s : State) (l : ConvLayer) (lo n : Nat) :
    layerPairs s l (sitesFrom s l lo n) = (List.range l.conv.kv).map fun o => (List.range n).filterMap fun k =>
      ((l.conv.inputCell l.inp.geo (cellOf (s.siteEntry l.out.geo (lo + k)).key) o).bind (s.siteAt l.conv.inIndex l.inp)).map
        fun q => (q, lo + k) :=
  List.map_congr_left fun _ _ => List.filterMap_map

/-- The header of a rule book reads back. -/
theorem BookHolds.fields (h : BookHolds w b a l kept) (hw : w.Sound) :
    w.le b.addr 4 = b.lo % 2 ^ 32 ∧ w.le (b.addr + 4) 4 = b.n % 2 ^ 32 ∧ w.le (b.addr + 8) 4 = kept.flatten.length % 2 ^ 32 ∧
    w.le (b.addr + 20) 1 = l.conv.kv % 256 ∧ w.le (b.addr + 24) 8 = a % 2 ^ 64 ∧ w.le (b.addr + 32) 4 = l.inp.build % 2 ^ 32 ∧
    w.le (b.addr + 36) 4 = l.out.build % 2 ^ 32 := by
  have hfield {off n : Nat} (hn : off + n ≤ 64) : w.le (b.addr + off) n = leAt (b.header a l kept) off n := by
    rw [← leAt_bytes hw hn, h.header]
  rw [hfield (by decide), hfield (by decide), hfield (by decide), hfield (by decide), hfield (by decide), hfield (by decide),
    ← Nat.add_zero b.addr, hfield (by decide)]
  simp (disch := decide) only [Book.header, List.append_assoc, leAt_toLe_skip, leAt_toLe_append, Nat.reduceSub]
  exact ⟨rfl, rfl, rfl, rfl, rfl, rfl, rfl⟩

end rules

/-- Settles O49: what a MAP command finds it reads before it writes, and its loops write records apart from each other. -/
theorem mapsJoinSites : Obligations.MapsJoinSites := by
  unfold Obligations.MapsJoinSites
  intro s course die core c a i hs hsmooth hat hsuspect hop x mode free hpa ha
  refine ⟨?index, ?dilate, ?rules, ?walk, ?both⟩
  case index =>
    intro tbl hmode hpt ht v len index hstate hown htarget _ hlist hindex
    refine runs_of_atWork hs hat hsmooth hsuspect rfl (isMap_atCommand hat hop hmode) fun u hu _ => ?_
    obtain ⟨w, hleads, haddr, hbuild, hw, hsites⟩ := leads_mapIndex hu (pa_issuedCx hpa) ha (pa_issuedCx hpt) ht
      ⟨rfl, hstate, hown, htarget, hlist, fun p hp => (hindex p p hp hp).1, fun p q hp hq => (hindex p q hp hq).2⟩
    refine ⟨_, _, _, w, hleads, hw, fun t hdone ht => ⟨hdone, ?_, ?_, hw.left ht, fun p hp => ?_⟩⟩
    · exact (ht.le ..).trans haddr
    · exact (ht.le ..).trans hbuild
    · exact (ht.le ..).trans (hsites p hp)
  case dilate =>
    intro hmode hown hconv hsuppress hstate
    refine runs_of_atWork hs hat hsmooth hsuspect rfl (isMap_atCommand hat hop hmode) fun u hu _ => ?_
    obtain ⟨w, hleads, hw, hwritten⟩ := leads_mapDilate hu (pa_issuedCx hpa) ha hown hconv hsuppress hstate
    have hcells : (s.convAt a).inp.cells < 256 ^ 4 := cells_lt ..
    have hfield {k : Nat} (hk : k + 4 ≤ 20) := hwritten.le_part (off := k) (n := 4) (by simpa [DilateSum.bytes, length_toLe] using hk)
    simp only [Nat.add_assoc] at hfield
    refine ⟨_, _, _, w, hleads, hw, fun t hdone ht => ?_⟩
    rw [ht.le, ht.le, ht.le, ht.le, ht.le, hfield (k := 0) (by decide), hfield (k := 4) (by decide), hfield (k := 8) (by decide),
      hfield (k := 12) (by decide), hfield (k := 16) (by decide)]
    simp (disch := decide) only [DilateSum.bytes, List.append_assoc, leAt_toLe_skip, leAt_toLe_append, leAt_toLe, Nat.reduceSub,
      Nat.mod_eq_of_lt hcells, Nat.zero_mod]
    exact ⟨hdone, trivial, trivial, trivial, trivial, trivial, hw.left ht⟩
  case rules =>
    intro book hmode hown hpb hb l cap lo n cell pairs kept size hin hout hconv hfresh hlist hbook hsites
    have hkept : kept = rulesKept s x l := congrArg (cutPairs cap) (layerPairs_eq ..).symm
    change s.OwnRange x book (pairArea l.conv.kv + 8 * kept.flatten.length) at hbook
    have hlayer := hconv
    obtain ⟨-, hfieldsOk, -⟩ := hlayer
    have hkv : l.conv.kv ≤ 125 := kv_le hfieldsOk
    have hlo : lo < 2 ^ 24 := bits_lt ..
    have hn : n < 2 ^ 24 := (Nat.min_le_left ..).trans_lt (bits_lt ..)
    have hinBuild : l.inp.build < 2 ^ 24 := build_lt ..
    have houtBuild : l.out.build < 2 ^ 24 := build_lt ..
    have hsize := (ownRange_le hbook).2
    have haddr := (ownRange_le hown).1
    refine runs_of_atWork hs hat hsmooth hsuspect rfl (isMap_atCommand hat hop hmode) fun u hu _ => ?_
    obtain ⟨flags, w, hleads, hw, hheld⟩ := hu.leads_mapRules (pa_issuedCx hpa) ha (pa_issuedCx hpb) hb hown hconv
      ⟨hin, hout, hfresh, hlist, hsites⟩ (hkept ▸ hbook)
    have hholds : BookHolds w ⟨book, lo, n, cap, _⟩ a l kept := hkept ▸ hheld
    obtain ⟨hfirst, hcount, hpairs, hvolume, hlayerAt, hinp, hout⟩ := hholds.fields hw.sound
    refine ⟨flags, _, _, w, hleads, hw, fun t hdone ht => ?_⟩
    have hleft : s.BytesBut t book (pairArea l.conv.kv + 8 * kept.flatten.length) := hkept ▸ hw.left ht
    simp only [ht.le]
    refine ⟨hdone, hfirst.trans (Nat.mod_eq_of_lt (hlo.trans (by decide))), hcount.trans (Nat.mod_eq_of_lt (hn.trans (by decide))),
      hpairs.trans (Nat.mod_eq_of_lt (by omega)), hvolume.trans (Nat.mod_eq_of_lt (by omega)),
      hlayerAt.trans (Nat.mod_eq_of_lt (by omega)), hinp.trans (Nat.mod_eq_of_lt (by omega)), hout.trans (Nat.mod_eq_of_lt (by omega)),
      fun o seg hseg => ?_, hholds.pair, hleft⟩
    have hle := segment_le (List.mem_of_getElem? hseg)
    rw [sum_lengths] at hle
    obtain ⟨hstart, hlength⟩ := hholds.segment o seg hseg
    exact ⟨hstart.trans (Nat.mod_eq_of_lt (by omega)), hlength.trans (Nat.mod_eq_of_lt (by omega))⟩
  case walk =>
    intro hmode hzlo hzhi hown v cell inside hits hfresh hgrid hlist hpillar hocc hrange
    refine runs_of_atWork hs hat hsmooth hsuspect rfl (isMap_atCommand hat hop hmode) fun u hu _ => ?_
    obtain ⟨flags, dst, len, w, hleads, hw, hfound⟩ := hu.leads_mapWalk (pa_issuedCx hpa) ha hown hzlo hzhi rfl hfresh hgrid hlist hpillar hocc hrange
    refine ⟨flags, dst, len, w, hleads, hw, fun t hdone ht => ⟨hdone, ht.found ?_⟩⟩
    have hhits : hits = boxSites s x v := List.filter_congr fun p _ => by rw [inBox, ← Bool.and_assoc, ← Bool.and_assoc]; rfl
    exact hhits ▸ hfound
  case both =>
    intro tb hmode hown hpb hb hownb v w cell hits hsame hfresh hfreshb hgrid hgridb hlist hocc hoccb hsites hpillar hrange
    refine runs_of_atWork hs hat hsmooth hsuspect rfl (isMap_atCommand hat hop hmode) fun u hu _ => ?_
    obtain ⟨flags, dst, len, t, hleads, ht, hfound⟩ := hu.leads_mapAnd (pa_issuedCx hpa) ha hown (pa_issuedCx hpb) hb hownb rfl rfl hsame hfresh hfreshb hgrid hgridb
      hlist hocc hoccb hsites hpillar hrange
    exact ⟨flags, dst, len, t, hleads, ht, fun t hdone ht => ⟨hdone, ht.found hfound⟩⟩

end Sys2Proof.Proofs

/-! PROOFS. SCATTER_ADD (04 R207 to R213, 08 R358 to R361). First INT8 elements and the adders of a P-store; then rows that are added one by
one, and the two modes. -/

namespace Sys2Proof.Proofs

open Sys2Proof Sys2Proof.Machine Sys2Proof.Laws

/-! ### Bytes and INT8 elements (06 R264) -/

section int8
variable {bs old : List Byte} {n : Nat}

theorem packElements_int8 (vs : List Nat) : packElements fmtInt8 vs = vs.map (BitVec.ofNat 8) := by
  refine (?_ : packElements fmtInt8 vs = vs.flatMap (toLe 1)).trans ?_
  · rfl
  · induction vs with
    | nil => rfl
    | cons v vs ih => exact congrArg (List.cons _) ih

theorem unpackElements_int8 (bs : List Byte) : unpackElements fmtInt8 bs = bs.map BitVec.toNat := by
  induction bs with
  | nil => rfl
  | cons b bs ih =>
    show (0 + b.toNat * 256 ^ 0) :: unpackElements fmtInt8 bs = _
    rw [ih, Nat.zero_add, Nat.pow_zero, Nat.mul_one, List.map_cons]

theorem packedBytes_int8 (n : Nat) : packedBytes fmtInt8 n = n := by
  rw [packedBytes, show fmtBits fmtInt8 = 8 from rfl]
  omega

/-- A row that is filled up with zero elements stands with zero bytes behind it. -/
theorem packElements_padRow (bs : List Byte) (h : bs.length ≤ n) :
    packElements fmtInt8 (padRow n (bs.map BitVec.toNat)) = bs ++ List.replicate (n - bs.length) 0 := by
  rw [packElements_int8, padRow, List.length_map, List.take_of_length_le (by simpa using h), List.map_append, List.map_map,
    List.map_replicate]
  congr 1
  exact (List.map_congr_left fun b _ => (BitVec.ofNat_toNat 8 b).trans (BitVec.setWidth_eq b)).trans (List.map_id' bs)

theorem addInt8_zero (v : Byte) : addInt8 v 0 = v := by
  revert v
  decide

theorem leAt_byte {i : Nat} (hi : i < bs.length) : leAt bs i 1 = bs[i].toNat := by
  rw [← byteAt_eq_leAt, byteAt, List.getD_eq_getElem?_getD, List.getElem?_eq_getElem hi, Option.getD_some]

/-- INT8 elements are added byte by byte. -/
theorem addBytes_int8 (h : old.length = bs.length) : addBytes fmtInt8 old bs = List.zipWith addInt8 old bs := by
  have hbits : fmtBits fmtInt8 = 8 := rfl
  rw [addBytes, packElements_int8, List.map_map, hbits, Nat.mul_div_cancel _ (by decide)]
  refine List.ext_getElem (by simp [h]) fun i hi hi' => ?_
  have hlt : i < bs.length := by simpa using hi
  rw [List.getElem_map, List.getElem_range, List.getElem_zipWith, Function.comp_apply, addInt8, ← leAt_byte hlt, ← leAt_byte (by omega)]
  show BitVec.ofNat 8 (addElement fmtInt8 (leAt old (i * 1) 1) (leAt bs (i * 1) 1)) = _
  rw [Nat.mul_one]
  rfl

end int8

/-! ### The adders of a P-store (11 R494 to R496) -/

section adder
variable {s : State} {x : Cx} {a n off off' k r : Nat}

theorem own_eq_some : x.own a = some off ↔ placeOf (addrOff a) = .store x.core off ∧ addrDie a = x.die := by
  unfold Cx.own
  cases placeOf (addrOff a) with
  | store c o =>
    simp only [Place.store.injEq, Option.ite_none_right_eq_some, Option.some.injEq, Bool.and_eq_true, beq_iff_eq]
    tauto
  | _ => simp

/-- Places in an own range follow each other in the store, up to its end. -/
theorem own_add (h : s.OwnRange x a n) (hat : x.own a = some off) (hk : k ≤ n) (hk' : x.own (a + k) = some off') : off' = off + k := by
  obtain ⟨-, -, o, hplace, hrange⟩ := h
  obtain ⟨hat, -⟩ := own_eq_some.1 hat
  obtain ⟨hat', -⟩ := own_eq_some.1 hk'
  have hle := storeRangeOk_le hrange
  obtain rfl : off = o := by
    rw [hplace] at hat
    cases hat
    rfl
  obtain ⟨hcore, hoff, hbase⟩ := placeOf_store.1 hat
  obtain ⟨-, -, hnext⟩ := placeOf_store.1 hat'
  obtain ⟨-, hmib, -, hstore, -, hwindow⟩ := map_numerals
  simp only [addrOff, hmib, hstore, hwindow] at hbase hnext
  omega

/-- The groups of a P-store that no test suspects are on. -/
theorem groupState_sound (h : s.suspectStore x.die x.core = false) (hlo : 0x800000 ≤ r) (hhi : r < 0x880000) :
    s.groupState x.die x.core r = 0 := by
  have hstate : s.rd .STG_STATE_P x.die x.core = 0 := by
    simp only [State.suspectStore, Bool.or_eq_false_iff, bne_eq_false_iff_eq] at h
    obtain ⟨⟨⟨⟨-, hstate⟩, -⟩, -⟩, -⟩ := h
    exact hstate
  have hat : storeAt r = some (2, 0x800000, 0x80000, 64 * kib) := by
    unfold storeAt
    rw [if_neg (by omega), if_neg (by simp; omega), if_pos (by simp; omega)]
  rw [State.groupState, hat]
  show bits (s.rd .STG_STATE_P x.die x.core) _ 2 = 0
  rw [hstate, bits, Nat.zero_shiftRight, Nat.zero_mod]

theorem rowsOf_within (hr : r ∈ rowsOf off n) : off / 64 * 64 ≤ r ∧ r < off + n := by
  unfold rowsOf at hr
  split at hr
  · cases hr
  · next hn =>
    have hpos : n ≠ 0 := by simpa using hn
    obtain ⟨j, hj, rfl⟩ := List.mem_map.1 hr
    have := List.mem_range.1 hj
    omega

theorem addPieces_nil (es a : Nat) : addPieces es a 0 = [] := rfl

/-- An add at a place of a P-store that is sound is a read and a write of the sums. -/
theorem leads_addStore {u w : State} {fmt : Nat} {bs : List Byte} (h : u.suspectStore x.die x.core = false) (hlo : 0x800000 ≤ off)
    (hhi : off + bs.length ≤ 0x880000)
    (hwrite : Leads u (writeStore x.die x.core off (addBytes fmt (u.bytes (storeAddr x.die x.core off) bs.length) bs)) () w) :
    Leads u (addStore x.die x.core off fmt bs) () w := by
  have hopen : ((rowsOf off bs.length).find? fun r => u.groupState x.die x.core r != 0) = none := by
    refine List.find?_eq_none.2 fun r hr => ?_
    obtain ⟨hfirst, hlast⟩ := rowsOf_within hr
    rw [groupState_sound h (by omega) (by omega)]
    decide
  refine leads_else (by omega) (leads_bind leads_state ?_)
  rw [hopen]
  exact leads_bind (gives_readStore h) hwrite

end adder
/-! ### Adds of INT8 rows (04 R210, R211) -/

section added
variable {s u w : State} {src dst : Nat → Nat} {n m len p b : Nat} {bs : List Byte}

theorem added_zero : s.added 0 len src dst b = s.byte b := rfl

theorem added_succ : s.added (n + 1) len src dst b =
    if dst n ≤ b ∧ b < dst n + len then addInt8 (s.added n len src dst b) (s.byte (src n + (b - dst n))) else s.added n len src dst b := by
  rw [State.added, List.range_succ, List.foldl_append]
  rfl

theorem byte_getD (hs : s.Sound) {a j : Nat} (hj : j < n) : (s.bytes a n).getD j 0 = s.byte (a + j) := by
  rw [bytes_eq hs, List.getD_eq_getElem?_getD]
  simp [hj]

/-- Sums that are written of bytes of one row, with zeros behind them, add that row alone. -/
theorem byte_added (hs : s.Sound) (hu : u.Sound) {a : Nat}
    (h : Written u w p (List.zipWith addInt8 (u.bytes p (n + m)) (s.bytes a n ++ List.replicate m 0))) (b : Nat) :
    w.byte b = if p ≤ b ∧ b < p + n then addInt8 (u.byte b) (s.byte (a + (b - p))) else u.byte b := by
  have hlen : (List.zipWith addInt8 (u.bytes p (n + m)) (s.bytes a n ++ List.replicate m 0)).length = n + m := by simp
  rw [h.byte b, hlen]
  by_cases hb : p ≤ b ∧ b < p + (n + m)
  · obtain ⟨j, rfl⟩ := Nat.exists_eq_add_of_le hb.1
    have hj : j < n + m := by omega
    rw [if_pos hb, Nat.add_sub_cancel_left, List.getD_eq_getElem?_getD, List.getElem?_zipWith, List.getElem?_append]
    have hold : (u.bytes p (n + m))[j]? = some (u.byte (p + j)) := by rw [bytes_eq hu]; simp [hj]
    rw [hold, length_bytes]
    by_cases hrow : j < n
    · have hnew : (s.bytes a n)[j]? = some (s.byte (a + j)) := by rw [bytes_eq hs]; simp [hrow]
      rw [if_pos hrow, hnew, if_pos (by omega)]
      rfl
    · rw [if_neg hrow, if_neg (by omega), List.getElem?_replicate, if_pos (by omega)]
      exact addInt8_zero _
  · rw [if_neg hb, if_neg (by omega)]

end added

namespace AtWork
variable {s u : State} {x : Cx} {no dst len k : Nat} {bs : List Byte}

/-- An add of INT8 elements within a target in the core's own P-store. -/
theorem leads_addAt (h : AtWork s x no dst len u) (hown : s.OwnRange x dst len) {base : Nat} (hat : x.own dst = some base)
    (hP : 0x800000 ≤ base) (hk : k + bs.length ≤ len) :
    ∃ w, Leads u (x.addAt (dst + k) fmtInt8 bs) () w ∧ AtWork s x no dst len w ∧
      Written u w (dst + k) (List.zipWith addInt8 (u.bytes (dst + k) bs.length) bs) := by
  have hstore {off : Nat} (hoff : x.own (dst + k) = some off) : off = base + k := own_add hown hat (by omega) hoff
  have hend : base + len ≤ 0x880000 := by
    obtain ⟨-, -, off, hplace, hrange⟩ := hown
    rw [(own_eq_some.1 hat).1] at hplace
    cases hplace
    unfold storeRangeOk storeAt at hrange
    rw [if_neg (by omega), if_neg (by simp; omega)] at hrange
    split_ifs at hrange
    exact of_decide_eq_true hrange
  have hsum : (List.zipWith addInt8 (u.bytes (dst + k) bs.length) bs).length = bs.length := by simp
  unfold Cx.addAt
  rcases Nat.lt_or_ge k len with hlt | hge
  · obtain ⟨off, hoff, haddr⟩ := own_part hown hlt
    obtain rfl := hstore hoff
    obtain ⟨w, hwrite, hw, hwritten⟩ := h.leads_writeStore (off := base + k) (bs := List.zipWith addInt8 (u.bytes (dst + k) bs.length) bs)
      (by omega) (by omega)
    rw [haddr] at hwritten
    rw [hoff]
    refine ⟨w, leads_addStore h.suspectStore (by omega) (by omega) ?_, hw, hwritten⟩
    rw [haddr, addBytes_int8 (length_bytes ..)]
    exact hwrite
  · obtain rfl : bs = [] := List.eq_nil_of_length_eq_zero (by omega)
    have hnil : List.zipWith addInt8 (u.bytes (dst + k) ([] : List Byte).length) [] = [] := List.zipWith_nil_right
    rw [hnil]
    cases hoff : x.own (dst + k) with
    | none => exact ⟨u, leads_pure _, h, written_nil h.sound _⟩
    | some off =>
      obtain rfl := hstore hoff
      have hw := written_put h.sound (storeAddr x.die x.core (base + k)) []
      refine ⟨_, leads_addStore h.suspectStore (by omega) (by simpa using by omega) ?_, h.written (hw.nil_at dst) le_rfl (Nat.le_add_right ..),
        hw.nil_at _⟩
      rw [addBytes_int8 (length_bytes ..), List.zipWith_nil_right]
      exact Proofs.leads_writeStore h.suspectStore _ []

/-- A row of INT8 elements is read byte by byte. -/
theorem gives_odRow (h : AtWork s x no dst len u) {d : Od} (hfmt : d.fmt = fmtInt8) (htiled : d.tiled = false) {r n : Nat}
    (hsees : s.Sees x dst len (d.base + r * d.rowBytes) n) :
    Gives u (x.odRow d r n) ((s.bytes (d.base + r * d.rowBytes) n).map BitVec.toNat) := by
  unfold Cx.odRow
  rw [htiled, hfmt, packedBytes_int8]
  refine leads_else (by decide) (leads_bind (h.gives_readAt hsees) ?_)
  rw [unpackElements_int8, List.take_of_length_le (by simp)]
  exact leads_pure _

end AtWork

/-! ### Places of the map (04 R207, R208) -/

/-- Cells of the map along an axis of `k` cells. -/
def mapSide (dn k : Nat) : Nat := (k + 2 ^ dn - 1) / 2 ^ dn

/-- Bytes of a map cell of `n` INT8 channels. -/
def mapStride (n : Nat) : Nat := (n + 63) / 64 * 64

/-- Bytes of a map. -/
def mapSize (dn n : Nat) (g : Geo) : Nat := mapSide dn g.nx * mapSide dn g.ny * mapStride n

/-- Offset of the place of a cell in the map. -/
def mapPlace (dn n : Nat) (g : Geo) (u : Cell) : Nat := (u.y / 2 ^ dn * mapSide dn g.nx + u.x / 2 ^ dn) * mapStride n

theorem down_lt_mapSide {dn k m : Nat} (h : k < m) : k / 2 ^ dn < mapSide dn m := by
  have hpos := Nat.two_pow_pos dn
  rw [mapSide, ← Nat.succ_le_iff, Nat.succ_eq_add_one, ← Nat.add_div_right _ hpos]
  exact Nat.div_le_div_right (by omega)

theorem mapPlace_fits {dn n : Nat} {g : Geo} {u : Cell} (hx : u.x < g.nx) (hy : u.y < g.ny) : mapPlace dn n g u + n ≤ mapSize dn n g := by
  have hx' := down_lt_mapSide (dn := dn) hx
  have hy' := down_lt_mapSide (dn := dn) hy
  have hstride : n ≤ mapStride n := by unfold mapStride; omega
  have hcell : u.y / 2 ^ dn * mapSide dn g.nx + u.x / 2 ^ dn + 1 ≤ mapSide dn g.nx * mapSide dn g.ny := by
    calc u.y / 2 ^ dn * mapSide dn g.nx + u.x / 2 ^ dn + 1 ≤ (u.y / 2 ^ dn + 1) * mapSide dn g.nx := by rw [Nat.succ_mul]; omega
      _ ≤ mapSide dn g.ny * mapSide dn g.nx := Nat.mul_le_mul_right _ hy'
      _ = mapSide dn g.nx * mapSide dn g.ny := Nat.mul_comm ..
  calc mapPlace dn n g u + n ≤ (u.y / 2 ^ dn * mapSide dn g.nx + u.x / 2 ^ dn + 1) * mapStride n := by rw [Nat.succ_mul, mapPlace]; omega
    _ ≤ mapSize dn n g := Nat.mul_le_mul_right _ hcell

/-- The last byte of a row lies within the span of its operand. -/
theorem row_fits {d : Od} {n len r : Nat} (hr : r < n) : r * d.rowBytes + len ≤ d.span n len := by
  rw [Od.span, if_neg (by simp; omega)]
  exact Nat.add_le_add_right (Nat.mul_le_mul_right _ (by omega)) _

theorem untiled_of_rawOd {s : State} {x : Cx} {word : Nat} {d : Od} (h : s.RawOd x word d) : d.tiled = false := by
  obtain ⟨-, -, -, -, -, -, -, -, -, -, htiled, -⟩ := h
  exact htiled

/-! ### SCATTER_ADD in map mode (04 R207 to R213) -/

/-- A target in the P-store of the command's core. -/
structure AddsTo (s : State) (x : Cx) (base len : Nat) : Prop where
  own : s.OwnRange x base len
  inP : ∃ off, x.own base = some off ∧ 0x800000 ≤ off

section needs
variable {s u : State} {x : Cx} {base len n : Nat}

theorem gives_needAddFmt (word bit : Nat) : Gives u (needAddFmt fmtInt8 word bit) () :=
  leads_bind (gives_needField (by decide) ..) (leads_if (by decide) (leads_pure _))

theorem gives_needFmt {d : Od} (htiled : d.tiled = false) (hfmt : d.fmt = fmtInt8) : Gives u d.needFmt () :=
  gives_needField (by rw [htiled, hfmt]; decide) ..

theorem gives_needRows {d : Od} (htiled : d.tiled = false) (hfmt : d.fmt = fmtInt8)
    (h : d.span n d.cols = 0 ∨ rangeOk (addrOff d.base) (d.span n d.cols) = true) : Gives u (d.needRows n) () :=
  leads_else (by rw [htiled]; decide) (by rw [hfmt, packedBytes_int8]; exact gives_needRange h)

theorem gives_needAdder (h : AddsTo s x base len) (word : Nat) : Gives u (needAdder base word) () := by
  obtain ⟨off, hat, hP⟩ := h.inP
  unfold needAdder
  rw [(own_eq_some.1 hat).1]
  exact leads_if hP (leads_pure _)

end needs

/-- The first `r` rows have been added to the target, `n` bytes of each. -/
def AddedUpTo (s : State) (x : Cx) (no base len n : Nat) (src dst : Nat → Nat) (r : Nat) (u : State) : Prop :=
  AtWork s x no base len u ∧ ∀ b, u.byte b = s.added r n src dst b

/-- One row is added, with zero elements behind it. -/
theorem leads_addRow {s u : State} {x : Cx} {no base len k m n r a : Nat} {src dst : Nat → Nat} (ht : AddsTo s x base len)
    (h : AddedUpTo s x no base len n src dst r u) (hsrc : src r = a) (hdst : dst r = base + k) (hk : k + m ≤ len) (hm : n ≤ m) :
    ∃ w, Leads u (x.addAt (base + k) fmtInt8 (packElements fmtInt8 (padRow m ((s.bytes a n).map BitVec.toNat)))) () w ∧
      AddedUpTo s x no base len n src dst (r + 1) w ∧ ∀ f d e, f ≠ .I_HBM_CNT → w.rd f d e = u.rd f d e := by
  obtain ⟨hu, hadded⟩ := h
  obtain ⟨off, hat, hP⟩ := ht.inP
  have hlen : (s.bytes a n ++ List.replicate (m - n) (0 : Byte)).length = n + (m - n) := by simp
  rw [packElements_padRow _ (by simpa using hm), length_bytes]
  obtain ⟨w, hadd, hw, hwritten⟩ := hu.leads_addAt ht.own hat hP (k := k) (bs := s.bytes a n ++ List.replicate (m - n) 0) (by omega)
  rw [hlen] at hwritten
  refine ⟨w, hadd, ⟨hw, fun b => ?_⟩, fun f d e hf => hwritten.rd hf d e⟩
  rw [byte_added hu.origin hu.sound hwritten, added_succ, hadded, hsrc, hdst]

/-- What SCATTER_ADD in map mode asks of its command: its channels, its fields, its operands and its grid. -/
structure MapFits (s : State) (x : Cx) (a base n dn first rows : Nat) (d : Od) (v : GridView) : Prop where
  countEq : x.f 6 0 13 = n
  fmtEq : x.f 6 16 4 = fmtInt8
  downEq : x.f 6 20 2 = dn
  firstEq : x.f 7 0 24 = first
  rowsEq : min d.rows (v.cells - first) = rows
  nonempty : 1 ≤ n ∧ 1 ≤ rows
  channels : n ≤ 4096
  shift : dn ≤ 2
  grid : x.paOf (x.w 1) (x.w 2) 1 = .ok a
  aligned : a % 64 = 0
  gridOwn : s.OwnRange x a 640
  view : s.gridAt a = v
  closed : v.state = 2
  pillar : v.geo.pillar = true
  od : s.RawOd x 3 d
  odFmt : d.fmt = fmtInt8
  odOwn : s.OwnRange x d.base (d.span rows d.cols)
  map : x.paOf (x.w 4) (x.w 5) 4 = .ok base
  target : AddsTo s x base (mapSize dn n v.geo)
  list : s.Sees x base (mapSize dn n v.geo) v.geo.listBase (16 * (first + rows))
  inside : ∀ r < rows, (siteCell s v (first + r)).x < v.geo.nx ∧ (siteCell s v (first + r)).y < v.geo.ny ∧
    s.Sees x base (mapSize dn n v.geo) (d.base + r * d.rowBytes) n

/-- Row `r` of the input is added at the place of its cell. -/
theorem leads_scatterCell {s u : State} {x : Cx} {no a base n dn first rows r : Nat} {d : Od} {v : GridView}
    (hfit : MapFits s x a base n dn first rows d v) (hr : r < rows)
    (h : AddedUpTo s x no base (mapSize dn n v.geo) n (fun r => d.base + r * d.rowBytes)
      (fun r => base + mapPlace dn n v.geo (siteCell s v (first + r))) r u) :
    ∃ w, Leads u (do
        let t ← x.listSlot v.geo (first + r)
        let row ← x.odRow d r n
        x.addAt (base + mapPlace dn n v.geo (cellOf t.key)) fmtInt8 (packElements fmtInt8 (padRow n row))) () w ∧
      AddedUpTo s x no base (mapSize dn n v.geo) n (fun r => d.base + r * d.rowBytes)
        (fun r => base + mapPlace dn n v.geo (siteCell s v (first + r))) (r + 1) w := by
  obtain ⟨hx, hy, hsees⟩ := hfit.inside r hr
  obtain ⟨w, hadd, hw, -⟩ := leads_addRow hfit.target h rfl rfl (mapPlace_fits hx hy) le_rfl
  obtain ⟨hu, -⟩ := h
  exact ⟨w, leads_bind (hu.gives_listSlot_below hfit.list (Nat.add_lt_add_left hr first))
    (leads_bind (hu.gives_odRow hfit.odFmt (untiled_of_rawOd hfit.od) hsees) hadd), hw⟩

theorem leads_scatterMap {s u : State} {x : Cx} {no a base n dn first rows : Nat} {d : Od} {v : GridView} (h : AtWork s x no 0 0 u)
    (hfit : MapFits s x a base n dn first rows d v) :
    ∃ w, Leads u (scatterMap x no) (some 0) w ∧ AddedUpTo s x no base (mapSize dn n v.geo) n (fun r => d.base + r * d.rowBytes)
      (fun r => base + mapPlace dn n v.geo (siteCell s v (first + r))) rows w := by
  obtain ⟨w, hloop, hw⟩ := leads_each_keeps ⟨h.target .., fun b => h.bytes.1 b (.inr (Nat.zero_le _))⟩
    fun _ hr _ => leads_scatterCell hfit hr
  refine ⟨w, ?_, hw⟩
  obtain ⟨hcount, hfmt, hdown, hfrom, hrows, ⟨hn, hsome⟩, hchannels, hshift, hgrid, ha, hgridOwn, hview, hclosed, hpillar, hod, hodFmt,
    hodOwn, hmap, htarget, hlist, hinside⟩ := hfit
  have htiled := untiled_of_rawOd hod
  have hnonzero : (n == 0) = false := by simp; omega
  have htotal : (if n == 0 then 0 else min d.rows (v.cells - first)) = rows := by rw [hnonzero, ← hrows]; rfl
  unfold scatterMap
  simp only [hcount, hfmt, hdown, hfrom, packedBytes_int8]
  refine leads_bind (gives_needField (decide_eq_true hchannels) ..) (leads_bind (gives_needAddFmt ..) ?_)
  refine leads_bind (gives_needField (decide_eq_true hshift) ..) (leads_bind (gives_pa_own hgrid ha hgridOwn) ?_)
  refine leads_bind (gives_od h hod) (leads_bind (gives_needFmt htiled hodFmt) (leads_if (by rw [hodFmt]; rfl) ?_))
  refine leads_bind (hview ▸ h.gives_grid (sees_part (k := 0) (sees_of_ownRange hgridOwn) (by decide))) ?_
  refine leads_bind (gives_needState hclosed) (leads_if hpillar (leads_bind (gives_pa_own hmap (Nat.mod_one _) htarget.own) ?_))
  simp only [htotal]
  refine leads_bind (gives_needRows htiled hodFmt (.inr (rangeOk_of_ownRange hodOwn))) ?_
  exact leads_else (by simp; omega) (leads_bind (gives_needAdder htarget 4) (leads_inParts h.stop h.row hloop))

/-! ### SCATTER_ADD in rows mode (08 R358, R360, R361) -/

/-- The output row of a pair of a rule book whose first output site is `lo` (08 R360). -/
def pairRow (pairs : List (Nat × Nat)) (lo j : Nat) : Nat := ((pairs.getD j (0, 0)).2 + 2 ^ 32 - lo) % 2 ^ 32

/-- What SCATTER_ADD in rows mode asks of its command: its rule book, and its operands. -/
structure RowsFit (s : State) (x : Cx) (a : Nat) (d o : Od) (pairs : List (Nat × Nat)) : Prop where
  book : x.paOf (x.w 1) (x.w 2) 1 = .ok a
  seen : s.seesBook x a (x.f 3 0 7)
  pairsEq : s.bookPairs a (x.f 3 0 7) = pairs
  inp : s.RawOd x 4 d
  inpFmt : d.fmt = fmtInt8
  region : d.inRegion d.rows
  out : s.RawOd x 5 o
  outFmt : o.fmt = fmtInt8
  target : AddsTo s x o.base (o.span o.rows o.cols)
  nonempty : 1 ≤ pairs.length
  fits : pairs.length ≤ d.rows
  inside : ∀ j < pairs.length, pairRow pairs (s.le a 4) j < o.rows ∧
    s.Sees x o.base (o.span o.rows o.cols) (d.base + j * d.rowBytes) (min d.cols o.cols)

/-- The rows of the first `j` pairs have been added and counted. -/
def RowsCounted (s : State) (x : Cx) (no a : Nat) (d o : Od) (pairs : List (Nat × Nat)) (j : Nat) (u : State) : Prop :=
  AddedUpTo s x no o.base (o.span o.rows o.cols) (min d.cols o.cols) (fun j => d.base + j * d.rowBytes)
    (fun j => o.base + pairRow pairs (s.le a 4) j * o.rowBytes) j u ∧
  u.rd .NS_SCATTER_ROWS x.die x.core = (s.rd .NS_SCATTER_ROWS x.die x.core + j) % 2 ^ Fld.NS_SCATTER_ROWS.info.width

/-- A pair's row is added, and counted. -/
theorem leads_scatterRow {s u : State} {x : Cx} {no a j : Nat} {d o : Od} {pairs : List (Nat × Nat)} (hfit : RowsFit s x a d o pairs)
    (hj : j < pairs.length) (h : RowsCounted s x no a d o pairs j u) :
    ∃ w, Leads u (do
        if d.rows ≤ j then M.fail codeGatherIndex j else pure ()
        let r := pairRow pairs (s.le a 4) j
        if o.rows ≤ r then M.fail codeGatherIndex r else pure ()
        let row ← x.odRow d j (min d.cols o.cols)
        x.addAt (o.base + r * o.rowBytes) fmtInt8 (packElements fmtInt8 (padRow o.cols row))
        M.act (.inc .NS_SCATTER_ROWS x.die x.core)) () w ∧ RowsCounted s x no a d o pairs (j + 1) w := by
  obtain ⟨hadded, hcount⟩ := h
  obtain ⟨hrow, hsees⟩ := hfit.inside j hj
  obtain ⟨w, hadd, ⟨hw, hbytes⟩, hrd⟩ := leads_addRow hfit.target hadded rfl rfl (row_fits hrow) (Nat.min_le_right ..)
  obtain ⟨hu, -⟩ := hadded
  refine ⟨(Act.inc .NS_SCATTER_ROWS x.die x.core).run w, ?_, ⟨hw.counted (by decide) x.die x.core 1, hbytes⟩, ?_⟩
  · refine leads_else (Nat.not_le.2 (hj.trans_le hfit.fits)) (leads_else (Nat.not_le.2 hrow) ?_)
    exact leads_bind (hu.gives_odRow hfit.inpFmt (untiled_of_rawOd hfit.inp) hsees) (leads_bind hadd (leads_act _))
  · rw [rd_run_inc hw.sound, if_pos ⟨rfl, rfl, rfl⟩, hrd _ _ _ (by decide), hcount, Nat.mod_add_mod, Nat.add_assoc]

theorem leads_scatterRows {s u : State} {x : Cx} {no a : Nat} {d o : Od} {pairs : List (Nat × Nat)} (h : AtWork s x no 0 0 u)
    (hcount : u.rd .NS_SCATTER_ROWS x.die x.core = s.rd .NS_SCATTER_ROWS x.die x.core) (hfit : RowsFit s x a d o pairs) :
    ∃ w, Leads u (scatterAddRowsBody x no) (some 0) w ∧ RowsCounted s x no a d o pairs pairs.length w := by
  obtain ⟨w, hloop, hw⟩ := leads_each_keeps (Keeps := RowsCounted s x no a d o pairs)
    ⟨⟨h.target .., fun b => h.bytes.1 b (.inr (Nat.zero_le _))⟩, hcount.trans (Nat.mod_eq_of_lt (reg_lt h.origin ..)).symm⟩
    fun _ hj _ => leads_scatterRow hfit hj
  obtain ⟨hbook, hseen, rfl, hinp, hinpFmt, hregion, hout, houtFmt, htarget, hnonempty, hfits, hinside⟩ := hfit
  refine ⟨w, ?_, hw⟩
  have htiledIn := untiled_of_rawOd hinp
  have htiledOut := untiled_of_rawOd hout
  have hlook := hseen
  obtain ⟨hseg, haligned, -, -, -, hown⟩ := hlook
  have harea := pairArea_le hseg
  have hbookOwn : s.OwnRange x a 64 := ownRange_part (k := 0) hown (by omega) (by omega)
  have hrows : o.rows ≠ 0 := Nat.ne_of_gt (Nat.zero_lt_of_lt (hinside 0 hnonempty).1)
  have hnone : (d.rows == 0 || o.rows == 0) = false := by simp; omega
  unfold scatterAddRowsBody
  refine leads_bind (gives_pa_own hbook haligned hbookOwn) (leads_bind (gives_od h hinp) (leads_bind (gives_od h hout) ?_))
  simp only [houtFmt, hinpFmt, packedBytes_int8, hnone]
  refine leads_bind (gives_needField (by rw [htiledOut]; rfl) ..) (leads_bind (gives_needAddFmt ..) ?_)
  refine leads_bind (gives_needFmt htiledIn hinpFmt) (leads_if (by decide) (leads_bind (h.gives_segment hseen) ?_))
  refine leads_bind (gives_needRows htiledIn hinpFmt hregion) (leads_bind (gives_needRange (.inr (rangeOk_of_ownRange htarget.own))) ?_)
  refine leads_else (by simpa using List.ne_nil_of_length_pos hnonempty) (leads_bind (gives_needAdder htarget 8) ?_)
  exact leads_inParts h.stop h.row hloop

/-- Settles O51: the loop keeps that each byte is what the rows so far have added to it. -/
theorem scattersAddRows : Obligations.ScattersAddRows := by
  unfold Obligations.ScattersAddRows
  intro s course die core c a i d hs hsmooth hat hsuspect hop x inP hpa hdfmt
  refine ⟨?map, ?rows⟩
  case map =>
    intro base hmode hod hmap v n dn first down up stride rows total cell hn hchannels hfmt hshift ha hown hclosed hpillar htarget hinP
      hrows _ hlist hodOwn hinside
    refine runs_of_atWork hs hat hsmooth hsuspect rfl (isScatter_atCommand hat hop hmode) fun u hu _ => ?_
    obtain ⟨w, hleads, hw, hbytes⟩ := leads_scatterMap (first := first) (rows := rows) hu
      ⟨rfl, hfmt, rfl, rfl, rfl, ⟨hn, hrows⟩, hchannels, hshift, pa_issuedCx hpa, ha, hown, rfl, hclosed, hpillar, rawOd_issuedCx hod, hdfmt,
        hodOwn, pa_issuedCx hmap, ⟨htarget, hinP⟩, hlist, hinside⟩
    exact ⟨0, _, _, w, hleads, hw, fun t hdone ht => ⟨hdone, fun b => (ht.same.1 b).trans (hbytes b)⟩⟩
  case rows =>
    intro o hmode hod hregion hout hofmt hseen pairs lo row len n htarget hinP hnonempty hfits hinside
    refine runs_of_atWork hs hat hsmooth hsuspect rfl (isScatter_atCommand hat hop hmode) fun u hu hreg => ?_
    obtain ⟨w, hleads, ⟨hw, hbytes⟩, hrd⟩ := leads_scatterRows hu (hreg .vis _ _ _ (by decide))
      ⟨pa_issuedCx hpa, hseen, rfl, rawOd_issuedCx hod, hdfmt, hregion, rawOd_issuedCx hout, hofmt, ⟨htarget, hinP⟩, hnonempty, hfits, hinside⟩
    exact ⟨0, _, _, w, hleads, hw, fun t hdone ht => ⟨hdone, (ht.rd ..).trans hrd, fun b => (ht.same.1 b).trans (hbytes b)⟩⟩

end Sys2Proof.Proofs

/-! PROOFS. The statement about the predictor (09_sequence_work.md R405 to R416) that fails: the state in which the fallback that an AUDIT
sets loses the AUDIT itself. -/

namespace Sys2Proof.Proofs

open Sys2Proof Sys2Proof.Machine Sys2Proof.Laws

/-- WAIT_BELL for the source of partition 0's predictor fallbacks (09 R414), from any die. -/
def fallbackWait : Flight := flightOf [0x05, 0x068 + 2 ^ 13] true

/-- AUDIT of one row with predictor 0: the one active neuron is audited and misses, and no miss is allowed in a burst. Context 1 issues
it, while context 0 waits for the source of the fallback, whose target is its sequencer. -/
def watchedAudit : State :=
  (Act.all [.set .CTX_STATE 0 0 2, .set .CTX_STATE 0 1 1, .set .BELL_TGT_KIND 0 0x068 2, .set .BELL_MASK 0 3 0,
    .setAc .PRD_EPS 0 0 0x3F000000, .setAc .PRD_BURST 0 0 0,
    .put (storeAddr 0 0 0) ([0x3930, 0x400000, 0x402000, 0x403000, 0, 1, 0].flatMap (toLe 4)),
    .put (storeAddr 0 0 0x400000) (toLe 4 0xBF800000),
    .put (storeAddr 0 0 0x402000) ([1, 5].flatMap (toLe 4)), .put (storeAddr 0 0 0x403000) ([1, 5].flatMap (toLe 4)),
    .ctx 0 0 0 fun y => { y with flight := [fallbackWait] }]).run State.reset

/-- That AUDIT. -/
def watchedCmd : Issue := watchedAudit.nextCmd 0 0 1

theorem watchedAudit_ready : watchedAudit.atCommand 0 0 1 watchedCmd ∧ watchedAudit.suspectStore 0 0 = false := by
  simp only [State.atCommand]
  decide +kernel

theorem watchedCmd_fields : watchedCmd.op = 0x30 ∧ watchedCmd.mode = 0x39 ∧ bits (watchedCmd.w 5) 0 7 = 1 ∧
    bits (watchedCmd.w 6) 16 4 = 0 := by decide +kernel

theorem watchedCmd_operands :
    let x : Cx := ⟨0, 0, 1, watchedCmd⟩
    x.la 1 = 0x400000 ∧ x.la 2 = 0x402000 ∧ x.la 3 = 0x403000 := by decide +kernel

theorem watchedAudit_lists : watchedAudit.own 0 0 0x402000 4 = 1 ∧ watchedAudit.own 0 0 0x403000 4 = 1 := by decide +kernel

theorem watchedAudit_window : watchedAudit.rd .I_PRD_PREDICTS 0 0 < 16 * 2 ^ min 8 (watchedAudit.ac .PRD_WINDOW_LOG2 0 0) := by
  decide +kernel

/-- The ring of the fallback ends the wait of context 0, which pre-empts context 1 before its AUDIT has been marked as ended. -/
theorem watchedAudit_withdrawn : ((nextOf (.vecAudit 0 0 ⟨1, {}⟩) watchedAudit).ctx 0 0 1).flight = [] := by decide +kernel

/-- Refutes O46: an AUDIT whose misses exceed the burst limit does not always end. The fallback that it sets rings the Bell (09 R414) while
the AUDIT is still under way; a context of higher priority that waits for that source runs again and pre-empts the context of the AUDIT
(10 R430, R455), and a VEC command that is under way is withdrawn from flight. -/
theorem not_predictorCommands : ¬ Obligations.PredictorCommands := by
  unfold Obligations.PredictorCommands
  intro h
  obtain ⟨hat, hsuspect⟩ := watchedAudit_ready
  obtain ⟨hop, hmode, hrows, hentry⟩ := watchedCmd_fields
  obtain ⟨hscores, hactive, haudited⟩ := watchedCmd_operands
  obtain ⟨hna, hnd⟩ := watchedAudit_lists
  obtain ⟨-, -, haudit⟩ := h watchedAudit {} 0 0 1 watchedCmd (run_sound _ resetIsSound) ⟨rfl, by simp⟩ hat hsuspect hop
    (by rw [hrows]; decide)
  simp only [hrows, hentry, hscores, hactive, haudited, hna, hnd, List.length_map, List.length_range] at haudit
  obtain ⟨t, hexec, hcomputed, -⟩ := haudit hmode (by decide) (by decide) (.inr (by decide)) watchedAudit_window
  obtain ⟨_, -, -, f, hflight, -⟩ := hcomputed
  obtain rfl := nextOf_eq hexec
  rw [watchedAudit_withdrawn] at hflight
  cases hflight

end Sys2Proof.Proofs

/-! PROOFS. The statement about decode steps, predictors and links (09_sequence_work.md R388 to R415, 19 R827): first what units read and
write of sound HBM, then the firing of a trigger, the start of a step, its end, and the single events. -/

namespace Sys2Proof.Proofs

open Sys2Proof Sys2Proof.Machine Sys2Proof.Laws

/-! ### What units read and write of sound HBM (12 R543 to R547) -/

theorem sameBytes_trans {s t u : State} (h : s.SameBytes t) (h' : t.SameBytes u) : s.SameBytes u :=
  ⟨fun a => (h'.1 a).trans (h.1 a), fun a => (h'.2 a).trans (h.2 a)⟩

theorem KeeperRead.trans {s t u : State} (h : KeeperRead s t) (h' : KeeperRead t u) : KeeperRead s u :=
  ⟨h'.sound, fun l f d i hf => (h'.reg l f d i hf).trans (h.reg l f d i hf),
    sameBytes_trans h.bytes h'.bytes, h'.aux.trans h.aux⟩

section hbm
variable {s t : State} {a n : Nat} {bs : List Byte}

/-- HBM that is sound stays so while the fields that power it hold and no word turns bad. -/
theorem soundHbm_congr (hrd : ∀ f ∈ [Fld.FUSE_DIES, .FLT_DIE_FAILED, .PWR_DOM_ON, .HBM_STATUS_STATE], ∀ d i, t.rd f d i = s.rd f d i)
    (hwords : ∀ w ∈ t.aux.badWords ++ t.aux.weakWords, w ∈ s.aux.badWords ++ s.aux.weakWords) (h : s.soundHbm a n) : t.soundHbm a n :=
  ⟨openHbm_congr hrd h.1, fun w hw => h.2 w (hwords w hw)⟩

theorem KeeperRead.soundHbm (h : KeeperRead s t) (hsound : s.soundHbm a n) : t.soundHbm a n :=
  soundHbm_congr (fun f hf d i => h.rd (by revert f; decide) d i) (by rw [h.aux]; exact fun _ => id) hsound

/-- A unit reads the bytes of sound HBM. -/
theorem unitBytes_run (hs : s.Sound) (h : s.soundHbm a n) :
    ∃ u, KeeperRead s u ∧ ∀ k : List Byte → Act, (unitBytes a n k).run s = (k (s.bytes a n)).run u := by
  obtain ⟨⟨ha, st, off, hplace, hon, hready, -⟩, hwords⟩ := h
  have haddr := hbmAddr_of_place ha hplace
  obtain ⟨u, hu, hrun⟩ := readHbm_then hs (off := off) (len := n) hready (haddr.symm ▸ hwords)
  refine ⟨u, hu, fun k => ?_⟩
  simp only [unitBytes, unitRead, needPlace, then_bind, then_state, onOk_ok, hplace, hon, if_true, then_pure, hrun, haddr]

/-- What leaves no word bad or weak that was not. -/
def mendReach : Reach where
  regs _ := True
  mem _ := True
  cfg _ := True
  aux x y := ∀ w ∈ y.badWords ++ y.weakWords, w ∈ x.badWords ++ x.weakWords

theorem soundWords_mend (b len : Nat) : Within mendReach (soundWords b len) :=
  (within_aux ..).2 fun _ _ hw => (List.mem_append.1 hw).elim (fun h => List.mem_append_left _ (List.mem_of_mem_filter h))
    fun h => List.mem_append_right _ (List.mem_of_mem_filter h)

theorem noteWrite_mend (b len : Nat) : Within mendReach (noteWrite b len) := by
  rw [noteWrite, within_get]
  intro s
  split
  · exact within_nop _
  · simp only [within_each, within_aux]
    exact fun _ _ _ _ hw => hw

theorem countGranules_mend (die st off len : Nat) : Within mendReach (countGranules die st off len) := by
  simp [countGranules, mendReach]

/-- A unit has written bytes of HBM, and no word has turned bad. -/
structure UnitWrote (s t : State) (a : Nat) (bs : List Byte) : Prop extends Written s t a bs where
  words : ∀ w ∈ t.aux.badWords ++ t.aux.weakWords, w ∈ s.aux.badWords ++ s.aux.weakWords

theorem UnitWrote.soundHbm {b : Nat} (h : UnitWrote s t a bs) (hsound : s.soundHbm b n) : t.soundHbm b n :=
  soundHbm_congr (fun f hf d i => h.reg .vis f d i (by revert f; decide)) h.words hsound

theorem unitWrote_hbm (hs : s.Sound) (h : s.openHbm a bs.length) : UnitWrote s ((unitWrite a bs).anyway.run s) a bs := by
  obtain ⟨ha, st, off, hplace, hon, hready, -⟩ := h
  have hrun : (unitWrite a bs).anyway.run s = (Act.all [countGranules (addrDie a) st off bs.length, .put a bs, noteWrite a bs.length,
      soundWords a bs.length]).run s := by
    simp only [M.anyway, unitWrite, needPlace, writeHbm, then_bind, then_state, onOk_ok, hplace, hon, if_true, then_pure, hready,
      Bool.not_true, Bool.false_eq_true, if_false, then_act, hbmAddr_of_place ha hplace, run_nop]
  rw [hrun]
  refine ⟨written_hbm hs .., ?_⟩
  have hall : Within mendReach (.all [countGranules (addrDie a) st off bs.length, .put a bs, noteWrite a bs.length,
      soundWords a bs.length]) := by
    simp only [within_all_cons, within_all_nil, countGranules_mend, noteWrite_mend, soundWords_mend, within_put, and_true, true_and]
    exact fun _ _ _ => trivial
  exact (within_run hall (fun _ _ hw => hw) (fun _ _ _ h1 h2 w hw => h1 w (h2 w hw)) hs).2.2.2

end hbm

/-! ### Firings of triggers whose jobs have lists (13 R571 to R574) -/

/-- Lists of a trigger's job. -/
def listCount (s : State) (die trigger : Nat) : Nat := min (s.byte (s.ac .JT_DESC die trigger + 8)).toNat 64

/-- A firing finds its trigger valid, of a running partition and with room, and its job's descriptor names lists that can be read. -/
structure Fires (s : State) (f : Firing) : Prop where
  ok : s.triggerOk f.die f.trigger f.kind = true
  runs : s.running (s.ac .JT_PARTITION f.die f.trigger) = true
  room : (s.held f.die f.trigger).length < s.depth f.die f.trigger
  desc : s.soundHbm (s.ac .JT_DESC f.die f.trigger) 64
  lists : listCount s f.die f.trigger ≠ 0
  table : s.soundHbm (s.le (s.ac .JT_DESC f.die f.trigger) 8) (8 * listCount s f.die f.trigger)

/-- A job without bound frames has been created: it is the newest one. -/
structure JobMade (s t : State) (f : Firing) : Prop where
  reg : s.FieldsBut t [.I_HBM_CNT, .I_NEXT_ID, .PT_JSEQ]
  bytes : s.SameBytes t
  aux : ∃ j : Job, t.aux = { s.aux with jobs := s.aux.jobs ++ [j] } ∧ j.kind = f.kind ∧ j.reqSeq = f.reqSeq ∧ j.cls = f.cls

section firing
variable {s : State} {start : Nat → Nat → Act} {f : Firing}

/-- A job with lists does not end before they have run. -/
theorem jobMade_createJobBy (hs : s.Sound) (hkind : f.kind ≠ 0) (h : Fires s f) : JobMade s ((createJobBy start f).run s) f := by
  obtain ⟨u, hu, hread⟩ := unitBytes_run hs h.desc
  have hptr : leAt (s.bytes (s.ac .JT_DESC f.die f.trigger) 64) 0 8 = s.le (s.ac .JT_DESC f.die f.trigger) 8 := leAt_bytes hs (by decide)
  have hcount : min (byteAt (s.bytes (s.ac .JT_DESC f.die f.trigger) 64) 8) 64 = listCount s f.die f.trigger := by
    rw [byteAt_bytes hs (by decide), listCount]
  obtain ⟨v, hv, hreadTable⟩ := unitBytes_run hu.sound (hu.soundHbm h.table)
  have hsv := hu.trans hv
  have hkind' : (f.kind == 0) = false := by simpa using hkind
  have hlists (table : List Byte) : (listEntries table (listCount s f.die f.trigger)).isEmpty = false := by
    simpa [listEntries, List.isEmpty_eq_false_iff] using h.lists
  rw [createJobBy, run_get]
  dsimp only
  rw [hread, hptr, hcount, hreadTable, takeOrd, run_get, run_seq, run_get, hkind', if_neg Bool.false_ne_true, List.map_nil, run_all_cons,
    run_all_cons, run_each_nil, run_all_cons, run_all_cons, run_all_nil, hlists, run_when_false]
  refine ⟨fun l g d i hg => ?_, hsv.bytes, ?_⟩
  · simp only [List.mem_cons, List.not_mem_nil, or_false, not_or] at hg
    obtain ⟨hcnt, hid, hjseq⟩ := hg
    rw [reg_run_aux, reg_run_set (run_sound _ hsv.sound), if_neg fun h => hjseq h.1, reg_run_set hsv.sound, if_neg fun h => hid h.1,
      hsv.reg l g d i hcnt]
  · rw [aux_run_aux, aux_run_set, aux_run_set, hsv.aux]
    exact ⟨_, rfl, rfl, rfl, rfl⟩

theorem jobMade_fireTriggerBy (hs : s.Sound) (hkind : f.kind ≠ 0) (h : Fires s f) : JobMade s ((fireTriggerBy start f).run s) f := by
  rw [fireTriggerBy, run_get, h.ok, h.runs, Bool.not_true, if_neg Bool.false_ne_true, if_neg Bool.false_ne_true,
    if_neg (Nat.not_le.2 h.room)]
  exact jobMade_createJobBy hs hkind h

end firing

/-! ### The start of a step with one request (09 R388 to R395) -/

/-- A request that waits takes a slot. -/
def takeSlot (d : DecReq) (slot : Nat) (e : DecReq) : DecReq := if e == d then { e with slot := some slot } else e

/-- The state in which a request has joined its class in a slot that has been drawn for it. -/
def joined (s : State) (d : DecReq) (slot : Nat) : State :=
  (Act.seq (.eff .drawn) (.aux fun a => { a with decs := a.decs.map (takeSlot d slot) })).run s

/-- What the start of a step fires (09 R393). -/
def stepFiring (s : State) (die cls : Nat) : Firing :=
  let trig := s.ac .BC_TRIGGER die cls
  { die := bits trig 8 3, trigger := bits trig 0 8, kind := 1, channel := s.ac .JT_CHANNEL (bits trig 8 3) (bits trig 0 8),
    reqSeq := s.rd .I_BC_STEP die cls, clsDie := die, cls := cls }

/-- A step of one row is counted and runs. -/
def markStep (s : State) (die cls slot : Nat) (last : List Nat) : Act :=
  .all [
    .set .I_BC_STEP die cls (s.rd .I_BC_STEP die cls + 1),
    .set .BC_STEP_RUNNING die cls 1,
    .aux fun a => { a with steps := a.steps ++ [⟨die, cls, s.rd .I_BC_STEP die cls, [slot], last, s.ac .BC_DESC_BASE die cls⟩] }]

/-- The descriptor of such a step (09 R394). -/
def rowStepBytes (s : State) (die cls slot : Nat) (last : List Nat) : List Byte :=
  stepBytes (s.rd .I_BC_STEP die cls) (2 ^ slot) (2 ^ slot) (slotMask last) (s.now die) 1

section step
variable {s : State} {die cls slot : Nat} {d : DecReq} {start : Nat → Nat → Act}

theorem slotMask_singleton (slot : Nat) : slotMask [slot] = 2 ^ slot := by
  have hclear : bit 0 slot = false := by simp [bit, bits]
  simp [slotMask, putBit, hclear, bitIf]

theorem filter_range_singleton {n slot : Nat} (h : slot < n) : ((List.range n).filter fun i => slot == i) = [slot] := by
  simp only [BEq.comm (a := slot)]
  rw [List.filter_beq, List.count_eq_one_of_mem List.nodup_range (List.mem_range.2 h), List.replicate_one]

theorem joinSlots_run (hslots : s.slotReqs die cls = []) (hwait : s.waitingReqs die cls = [d]) :
    ∃ slot < 64, (joinSlots die cls 1).run s = joined s d slot := by
  have hfree : s.freeSlots die cls = 0 :: List.range' 1 63 := by
    rw [State.freeSlots, hslots]
    rfl
  refine ⟨(Config.freeValue s.fresh).toNat % 64, Nat.mod_lt _ (by decide), ?_⟩
  have hslot : (0 :: List.range' 1 63).getD ((Config.freeValue s.fresh).toNat % 64) 0 = (Config.freeValue s.fresh).toNat % 64 := by
    have hlt := Nat.mod_lt (Config.freeValue s.fresh).toNat (show 0 < 64 by decide)
    rw [show 0 :: List.range' 1 63 = List.range 64 from rfl, List.getD_eq_getElem _ _ (by simpa using hlt), List.getElem_range]
  rw [joinSlots, run_seq, run_get, hwait, hfree]
  simp only [Act.free, run_get, run_seq, List.length_range', joinSlots, run_nop]
  rw [hslot]
  rfl

theorem slotReqs_joined (hslots : s.slotReqs die cls = []) (hwait : s.waitingReqs die cls = [d]) :
    (joined s d slot).slotReqs die cls = [{ d with slot := some slot }] := by
  have hmem : d ∈ s.waitingReqs die cls := hwait ▸ List.mem_singleton_self d
  obtain ⟨⟨hdie, hcls⟩, hnone⟩ : (d.die = die ∧ d.cls = cls) ∧ d.slot = none := by simpa using (List.mem_filter.1 hmem).2
  have hjoins : ∀ e ∈ s.aux.decs, ((takeSlot d slot e).die == die && (takeSlot d slot e).cls == cls &&
      (takeSlot d slot e).slot.isSome) = (e.die == die && e.cls == cls && e.slot.isNone) := by
    intro e he
    by_cases hed : e = d
    · subst hed
      simp [takeSlot, hdie, hcls, hnone]
    · have hnotSlot := Bool.eq_false_iff.2 (List.filter_eq_nil_iff.1 hslots e he)
      have hnotWait := Bool.eq_false_iff.2 fun h => hed (List.mem_singleton.1 (hwait ▸ List.mem_filter.2 ⟨he, h⟩))
      rw [takeSlot, if_neg (by simpa using hed), hnotSlot, hnotWait]
  show (s.aux.decs.map (takeSlot d slot)).filter _ = _
  rw [List.filter_map]
  refine (congrArg _ (List.filter_congr hjoins)).trans ?_
  show (s.waitingReqs die cls).map (takeSlot d slot) = _
  simp [hwait, takeSlot]

/-- A class without a step starts one when the first request has waited for the class's window. -/
theorem run_maybeStartBy (hstep : s.stepOf die cls = none) (hwait : s.waitingReqs die cls = [d])
    (hdue : d.accepted + s.ac .BC_WINDOW_US die cls * 1000 ≤ s.now die) :
    (maybeStartBy start die cls).run s = (startStepBy start die cls).run s := by
  rw [maybeStartBy, run_get, hstep, hwait]
  simp [hdue]

theorem run_startStepBy (hslots : s.slotReqs die cls = []) (hwait : s.waitingReqs die cls = [d])
    (hpending : s.on .BC_COMMIT_PENDING die cls = false) :
    ∃ slot < 64, ∃ last, (startStepBy start die cls).run s =
      (Act.when (s.dieThere (bits (s.ac .BC_TRIGGER die cls) 8 3)) (fireTriggerBy start (stepFiring s die cls))).run
        ((unitWrite (s.ac .BC_DESC_BASE die cls) (rowStepBytes s die cls slot last)).anyway.run
          ((markStep s die cls slot last).run (joined s d slot))) := by
  obtain ⟨slot, hslot, hjoin⟩ := joinSlots_run hslots hwait
  have htake : (bcTake die cls true false).run s = s := by
    rw [bcTake, run_get, hpending, Bool.false_and, run_when_false]
  have hrows : ((List.range 64).filter fun i => [({ d with slot := some slot } : DecReq)].any fun d => d.slot == some i) = [slot] := by
    simpa using filter_range_singleton hslot
  refine ⟨slot, hslot, ?_⟩
  rw [startStepBy, run_seq, htake, run_get, run_seq, hwait, hslots]
  rw [show min 64 [d].length = 1 from rfl, hjoin, run_get]
  simp only [slotReqs_joined hslots hwait, hrows, List.filterMap_nil, List.contains_nil, Bool.not_false, List.filter_true,
    slotMask_singleton]
  exact ⟨_, rfl⟩
end step

section stepStarts
variable {s t : State} {die cls slot : Nat} {last : List Nat} {d : DecReq} {start : Nat → Nat → Act}

theorem length_rowStepBytes : (rowStepBytes s die cls slot last).length = 64 := by
  simp [rowStepBytes, stepBytes, length_toLe]

/-- What the descriptor of the step says: its number, its row, which has just joined, and its start. -/
theorem leAt_rowStepBytes (hslot : slot < 64) :
    let bs := rowStepBytes s die cls slot last
    leAt bs 0 8 = s.rd .I_BC_STEP die cls % 2 ^ 64 ∧ leAt bs 8 8 = 2 ^ slot ∧ leAt bs 16 8 = 2 ^ slot ∧ leAt bs 32 8 = s.now die := by
  have hmask : 2 ^ slot % 256 ^ 8 = 2 ^ slot := Nat.mod_eq_of_lt ((Nat.pow_lt_pow_right (by decide) hslot).trans_eq (by decide))
  have hnow : s.now die % 256 ^ 8 = s.now die := Nat.mod_eq_of_lt (Nat.mod_lt _ (by decide))
  simp only [rowStepBytes, stepBytes, List.append_assoc]
  refine ⟨leAt_toLe_append, ?_, ?_, ?_⟩
  · rw [leAt_toLe_skip (by decide), leAt_toLe_append, hmask]
  · rw [leAt_toLe_skip (by decide), leAt_toLe_skip (by decide), leAt_toLe_append, hmask]
  · rw [leAt_toLe_skip (by decide), leAt_toLe_skip (by decide), leAt_toLe_skip (by decide), leAt_toLe_skip (by decide), leAt_toLe_append,
      hnow]

/-- A step has been counted and runs; registers of no other field, no byte and no job have changed. -/
structure StepMarked (s t : State) (die cls slot : Nat) (d : DecReq) : Prop where
  sound : t.Sound
  step : t.rd .I_BC_STEP die cls = (s.rd .I_BC_STEP die cls + 1) % 2 ^ Fld.I_BC_STEP.info.width
  running : t.rd .BC_STEP_RUNNING die cls = 1
  reg : s.FieldsBut t [.I_BC_STEP, .BC_STEP_RUNNING]
  mem : t.mem = s.mem
  cfg : t.cfg = s.cfg
  aux : ∃ decs steps, t.aux = { s.aux with decs := decs, steps := steps } ∧ { d with slot := some slot } ∈ decs ∧
    ∃ r ∈ steps, r.die = die ∧ r.cls = cls ∧ r.step = s.rd .I_BC_STEP die cls ∧ r.rows = [slot]

theorem sound_joined (hs : s.Sound) (d : DecReq) (slot : Nat) : (joined s d slot).Sound := run_sound _ hs

theorem stepMarked_markStep (hs : s.Sound) (hwait : s.waitingReqs die cls = [d]) :
    StepMarked s ((markStep s die cls slot last).run (joined s d slot)) die cls slot d := by
  have hj := sound_joined hs d slot
  have hstep := run_sound (.set .I_BC_STEP die cls (s.rd .I_BC_STEP die cls + 1)) hj
  have hmem : d ∈ s.aux.decs := (List.mem_filter.1 (hwait ▸ List.mem_singleton_self d : d ∈ s.waitingReqs die cls)).1
  refine ⟨run_sound _ hj, ?_, ?_, fun l f d i hf => ?_, rfl, rfl, _, _, rfl, ?_, _, List.mem_append_right _ (List.mem_singleton_self _),
    rfl, rfl, rfl, rfl⟩
  · simp [markStep, hj]
  · simp [markStep, hj]
    decide
  · simp only [List.mem_cons, List.not_mem_nil, or_false, not_or] at hf
    rw [markStep, run_all_cons, run_all_cons, run_all_cons, run_all_nil, reg_run_aux, reg_run_set hstep, if_neg fun h => hf.2 h.1,
      reg_run_set hj, if_neg fun h => hf.1 h.1]
    rfl
  · exact List.mem_map.2 ⟨d, hmem, by simp [takeSlot]⟩

/-- A firing looks at the registers of its trigger, at the trigger's jobs and at the descriptor of its job. -/
theorem Fires.written {u w : State} {f : Firing} {desc : Nat} {bs : List Byte} (h : Fires s f) (hu : StepMarked s u die cls slot d)
    (hw : UnitWrote u w desc bs) (hjob : rangesMeet (s.ac .JT_DESC f.die f.trigger) 64 desc bs.length = false) : Fires w f := by
  obtain ⟨_, _, hauxu, -⟩ := hu.aux
  obtain ⟨_, _, _, hauxw⟩ := hw.aux
  have hreg {g : Fld} (hg : g ∉ [Fld.I_BC_STEP, .BC_STEP_RUNNING, .I_HBM_CNT]) (l : Layer) (d i : Nat) : w.reg l g d i = s.reg l g d i :=
    (hw.reg l g d i fun h => hg (by simp [h])).trans
      (hu.reg l g d i fun h => hg (List.mem_append_left (as := [Fld.I_BC_STEP, .BC_STEP_RUNNING]) [.I_HBM_CNT] h))
  have hsound {b len : Nat} (hb : s.soundHbm b len) : w.soundHbm b len :=
    hw.soundHbm (soundHbm_congr (fun g hg d i => hu.reg .vis g d i (by revert g; decide)) (by rw [hauxu]; exact fun _ => id) hb)
  have hapart := apart_of_rangesMeet hjob
  have hdesc : w.ac .JT_DESC f.die f.trigger = s.ac .JT_DESC f.die f.trigger := hreg (by decide) ..
  have hptr : w.le (s.ac .JT_DESC f.die f.trigger) 8 = s.le (s.ac .JT_DESC f.die f.trigger) 8 := by
    rw [hw.le_apart hu.sound (by omega), State.le, State.bytes, hu.mem]
    rfl
  have hcount : listCount w f.die f.trigger = listCount s f.die f.trigger := by
    rw [listCount, hdesc, hw.other.1 _ (by omega), State.byte, hu.mem]
    rfl
  refine ⟨?_, ?_, ?_, hdesc ▸ hsound h.desc, hcount ▸ h.lists, ?_⟩
  · rw [State.triggerOk, State.acOn, State.ac, State.ac, hreg (by decide), hreg (by decide)]
    exact h.ok
  · rw [State.running, State.rd, State.ac, hreg (by decide), hreg (by decide)]
    exact h.runs
  · rw [State.held, hauxw, hauxu, State.depth, State.ac, hreg (by decide)]
    exact h.room
  · rw [hdesc, hptr, hcount]
    exact hsound h.table

/-- The window of a class passes while one request waits and no step runs (09 R392): the step starts, its descriptor is written and its
trigger makes a job. -/
theorem batchWindowExpiry_runs (hs : s.Sound) (hdie : s.dieThere die = true) (hstep : s.stepOf die cls = none)
    (hslots : s.slotReqs die cls = []) (hwait : s.waitingReqs die cls = [d]) (hpending : s.on .BC_COMMIT_PENDING die cls = false)
    (hdue : d.accepted + s.ac .BC_WINDOW_US die cls * 1000 ≤ s.now die) (hopen : s.openHbm (s.ac .BC_DESC_BASE die cls) 64)
    (htdie : s.dieThere (stepFiring s die cls).die = true) (hfires : Fires s (stepFiring s die cls))
    (hjob : rangesMeet (s.ac .JT_DESC (stepFiring s die cls).die (stepFiring s die cls).trigger) 64 (s.ac .BC_DESC_BASE die cls) 64 =
      false) :
    let desc := s.ac .BC_DESC_BASE die cls
    let step := s.rd .I_BC_STEP die cls
    Runs (.batchWindowExpiry die cls) s fun t =>
      t.rd .BC_STEP_RUNNING die cls = 1 ∧ t.rd .I_BC_STEP die cls = (step + 1) % 2 ^ Fld.I_BC_STEP.info.width ∧
      s.BytesBut t desc 64 ∧ t.le desc 8 = step % 2 ^ 64 ∧ t.le (desc + 32) 8 = s.now die ∧
      ∃ slot < 64, { d with slot := some slot } ∈ t.aux.decs ∧ t.le (desc + 8) 8 = 2 ^ slot ∧ t.le (desc + 16) 8 = 2 ^ slot ∧
        (∃ st ∈ t.aux.steps, st.die = die ∧ st.cls = cls ∧ st.step = step ∧ st.rows = [slot]) ∧
        ∃ j, t.aux.jobs = s.aux.jobs ++ [j] ∧ j.kind = 1 ∧ j.reqSeq = step ∧ j.cls = cls := by
  intro desc step
  have htdie : s.dieThere (bits (s.ac .BC_TRIGGER die cls) 8 3) = true := htdie
  refine runs_of_done rfl hdie ?_
  obtain ⟨slot, hslot, last, hrun⟩ := run_startStepBy (start := maybeStartIn 256) hslots hwait hpending
  rw [maybeStart, maybeStartIn, run_maybeStartBy hstep hwait hdue, hrun, htdie, run_when_true]
  have hmarked := stepMarked_markStep (slot := slot) (last := last) hs hwait
  generalize (markStep s die cls slot last).run (joined s d slot) = u at hmarked ⊢
  have hlen : (rowStepBytes s die cls slot last).length = 64 := length_rowStepBytes
  have hw := unitWrote_hbm (bs := rowStepBytes s die cls slot last) hmarked.sound
    (hlen ▸ openHbm_congr (fun g hg d i => hmarked.reg .vis g d i (by revert g; decide)) hopen)
  generalize (unitWrite _ _).anyway.run u = w at hw ⊢
  have hmade := jobMade_fireTriggerBy (start := maybeStartIn 256) hw.sound (f := stepFiring s die cls) Nat.one_ne_zero
    (hfires.written hmarked hw (hlen ▸ hjob))
  have ht := run_sound (fireTriggerBy (maybeStartIn 256) (stepFiring s die cls)) hw.sound
  generalize (fireTriggerBy _ _).run w = t at hmade ht ⊢
  obtain ⟨decs, steps, hauxu, hdec, hst⟩ := hmarked.aux
  obtain ⟨_, _, _, hauxw⟩ := hw.aux
  obtain ⟨j, haux, hkind, hreq, hcls⟩ := hmade.aux
  rw [hauxw, hauxu] at haux
  have hle {off : Nat} (hoff : off + 8 ≤ 64) : t.le (desc + off) 8 = leAt (rowStepBytes s die cls slot last) off 8 :=
    (congrArg leNat (bytes_congr hw.sound ht hmade.bytes.1)).trans (hw.le_part (by rw [hlen]; exact hoff))
  obtain ⟨hnumber, hrows, hjoins, hstart⟩ := leAt_rowStepBytes (s := s) (die := die) (cls := cls) (last := last) hslot
  refine ⟨?_, ?_, ?_, (hle (off := 0) (by decide)).trans hnumber, (hle (by decide)).trans hstart, slot, hslot, ?_,
    (hle (by decide)).trans hrows, (hle (by decide)).trans hjoins, ?_, j, ?_, hkind, hreq, hcls⟩
  · exact (hmade.reg .vis _ _ _ (by decide)).trans ((hw.reg .vis _ _ _ (by decide)).trans hmarked.running)
  · exact (hmade.reg .vis _ _ _ (by decide)).trans ((hw.reg .vis _ _ _ (by decide)).trans hmarked.step)
  · exact bytesBut_of_same (sameBytes_of_eq hmarked.mem hmarked.cfg) (hlen ▸ hw.other) hmade.bytes
  · rw [haux]; exact hdec
  · rw [haux]; exact hst
  · rw [haux]

end stepStarts

/-! ### The completion of a step (09 R396, R399) -/

/-- Records after a decode request has been withdrawn: one that has ended has had its result. -/
def withdrawnRecs (s : State) (d : DecReq) (cause : Nat) : List Rec :=
  if d.ended then s.aux.recs else s.aux.recs ++ [s.decRec d recWithdrawn cause]

/-- What closes a step once its rows have ended. -/
def closeStep (r : StepRun) : Act :=
  .all [
    .aux fun a => { a with steps := a.steps.erase r },
    .set .BC_STEP_RUNNING r.die r.cls 0,
    .inc .BC_STEPS r.die r.cls,
    .inc .BC_ROWS r.die r.cls r.rows.length,
    bcTake r.die r.cls false false]

section stepEnds
variable {s : State} {r : StepRun} {d : DecReq} {die cls cause ends n : Nat}

/-- A withdrawn request leaves its class; only the partition's count of withdrawals changes beside. -/
theorem withdrawDec_run (hs : s.Sound) (d : DecReq) (cause : Nat) :
    let t := (withdrawDec d cause).run s
    s.FieldsBut t [.PT_WITHDRAWN] ∧ t.mem = s.mem ∧ t.cfg = s.cfg ∧
      t.aux = { s.aux with decs := s.aux.decs.filter fun e => e.ord != d.ord, recs := withdrawnRecs s d cause } := by
  dsimp only
  rw [withdrawDec, run_get, withdrawnRecs]
  cases d.ended with
  | true => exact ⟨fun _ _ _ _ _ => rfl, rfl, rfl, rfl⟩
  | false => exact ⟨fun l f e i hf => (reg_run_set hs ..).trans (if_neg fun h => hf (List.mem_singleton.2 h.1)), rfl, rfl, rfl⟩

/-- A row ends with its step when its request has ended, or when it ran its last step and its END bit stayed clear (09 R399). -/
theorem run_endRow (hslot : d.slot = some n) (hrow : n ∈ r.rows)
    (hend : d.ended = true ∨ r.last.contains n = true ∧ bit ends n = false) :
    ∃ cause, (endRow r ends d).run s = (withdrawDec d cause).run s ∧ (d.ended = false → cause = causeNoEnd) := by
  have hrow : r.rows.contains n = true := by simpa using hrow
  rw [endRow, hslot]
  cases hended : d.ended with
  | true =>
    refine ⟨causeNoResult, ?_, fun h => by cases h⟩
    simp only [hrow, Bool.not_true, Bool.false_eq_true, if_false, Bool.or_true, if_true]
  | false =>
    obtain ⟨hlast, hbit⟩ := hend.resolve_left (by simp [hended])
    refine ⟨causeNoEnd, ?_, fun _ => rfl⟩
    simp only [hrow, hlast, hbit, Bool.not_true, Bool.or_false, Bool.false_eq_true, if_false, if_true]

/-- A class may take its pending set as a step ends (09 R403); no visible register but the mark of the pending set changes. -/
theorem bcTake_keeps (hs : s.Sound) (atStart atCommit : Bool) :
    let t := (bcTake die cls atStart atCommit).run s
    (∀ f d i, f ≠ .BC_COMMIT_PENDING → t.rd f d i = s.rd f d i) ∧ t.mem = s.mem ∧ t.cfg = s.cfg ∧ t.aux = s.aux := by
  dsimp only
  rw [bcTake, run_get]
  generalize (s.on .BC_COMMIT_PENDING die cls && _) = takes
  cases takes with
  | true =>
    refine ⟨fun f d i hf => ?_, rfl, rfl, rfl⟩
    rw [run_when_true, run_seq, rd_run_set (run_sound _ hs), if_neg fun h => hf h.1, rd_activateSet hs]
  | false => exact ⟨fun _ _ _ _ => rfl, rfl, rfl, rfl⟩

theorem run_maybeStart_idle (hslots : s.slotReqs die cls = []) (hwait : s.waitingReqs die cls = []) :
    (maybeStart die cls).run s = s := by
  rw [maybeStart, maybeStartIn, maybeStartBy, run_get, hslots, hwait]
  simp

/-- The step has been counted with its rows and does not run. -/
theorem closeStep_run (hs : s.Sound) (r : StepRun) :
    let t := (closeStep r).run s
    t.rd .BC_STEP_RUNNING r.die r.cls = 0 ∧ t.rd .BC_STEPS r.die r.cls = (s.rd .BC_STEPS r.die r.cls + 1) % 2 ^ Fld.BC_STEPS.info.width ∧
      t.rd .BC_ROWS r.die r.cls = (s.rd .BC_ROWS r.die r.cls + r.rows.length) % 2 ^ Fld.BC_ROWS.info.width ∧ s.SameBytes t ∧
      t.aux = { s.aux with steps := s.aux.steps.erase r } := by
  have haux := run_sound (.aux fun a => { a with steps := a.steps.erase r }) hs
  have hstop := run_sound (.set .BC_STEP_RUNNING r.die r.cls 0) haux
  have hsteps := run_sound (.inc .BC_STEPS r.die r.cls) hstop
  have hrows := run_sound (.inc .BC_ROWS r.die r.cls r.rows.length) hsteps
  obtain ⟨hrd, hmem, hcfg, hkept⟩ := bcTake_keeps (die := r.die) (cls := r.cls) hrows false false
  refine ⟨(hrd _ _ _ (by decide)).trans ?_, (hrd _ _ _ (by decide)).trans ?_, (hrd _ _ _ (by decide)).trans ?_,
    sameBytes_of_eq hmem hcfg, hkept⟩
  · simp [haux, hstop, hsteps]
  · simp [haux, hstop, hsteps]
  · simp [haux, hstop, hsteps]

/-- BC_DONE with the number of the running step, whose one row ends (09 R396, R399). -/
theorem bcDone_runs (hs : s.Sound) (hdie : s.dieThere die = true) (hstep : s.stepOf die cls = some r)
    (hslots : s.slotReqs die cls = [d]) (hwait : s.waitingReqs die cls = []) (hslot : d.slot = some n) (hrow : n ∈ r.rows)
    (hnext : (s.aux.steps.erase r).find? (fun q => q.die == die && q.cls == cls) = none) (hdesc : s.soundHbm (r.desc + 48) 8)
    (hend : d.ended = true ∨ r.last.contains n = true ∧ bit (s.le (r.desc + 48) 8) n = false) :
    Runs (.bcDone die cls (r.step % 2 ^ 32)) s fun t =>
      t.rd .BC_STEP_RUNNING die cls = 0 ∧ t.rd .BC_STEPS die cls = (s.rd .BC_STEPS die cls + 1) % 2 ^ Fld.BC_STEPS.info.width ∧
      t.rd .BC_ROWS die cls = (s.rd .BC_ROWS die cls + r.rows.length) % 2 ^ Fld.BC_ROWS.info.width ∧ s.SameBytes t ∧
      t.stepOf die cls = none ∧ t.slotReqs die cls = [] ∧
      (d.ended = true → t.aux.recs = s.aux.recs) ∧ (d.ended = false → s.HandsOver t d.channel recWithdrawn causeNoEnd d.reqSeq 0) := by
  obtain ⟨rfl, rfl⟩ : r.die = die ∧ r.cls = cls := by simpa using List.find?_some hstep
  obtain ⟨u, hu, hread⟩ := unitBytes_run hs hdesc
  obtain ⟨cause, hrun, hcause⟩ := run_endRow (s := u) (ends := leNat (s.bytes (r.desc + 48) 8)) hslot hrow hend
  obtain ⟨hreg, hmem, hcfg, haux⟩ := withdrawDec_run hu.sound d cause
  have hv := run_sound (withdrawDec d cause) hu.sound
  have hslotsU : u.slotReqs r.die r.cls = [d] := by rw [State.slotReqs, hu.aux]; exact hslots
  generalize hw : (withdrawDec d cause).run u = w at hreg hmem hcfg haux hv
  obtain ⟨hrun0, hsteps, hrows, hbytes, hclosed⟩ := closeStep_run hv r
  have ht := run_sound (closeStep r) hv
  generalize hx : (closeStep r).run w = t at hrun0 hsteps hrows hbytes hclosed ht
  have hdecs : t.aux.decs = s.aux.decs.filter fun e => e.ord != d.ord := by rw [hclosed, haux, hu.aux]
  have hslotsT : t.slotReqs r.die r.cls = [] := by
    rw [State.slotReqs, hdecs, List.filter_comm]
    exact (congrArg _ hslots).trans (by simp)
  have hwaitT : t.waitingReqs r.die r.cls = [] := by
    rw [State.waitingReqs, hdecs, List.filter_comm]
    exact congrArg _ hwait
  have hcomplete : (bcDoneAct r.die r.cls (r.step % 2 ^ 32)).run s = t := by
    rw [bcDoneAct, run_get, hstep]
    simp only [beq_self_eq_true, if_true]
    rw [completeStep, hread, run_get, hslotsU, run_all_cons, run_each_cons, run_each_nil, hrun, hw]
    show (maybeStart r.die r.cls).run ((closeStep r).run w) = t
    rw [hx, run_maybeStart_idle hslotsT hwaitT]
  refine runs_of_done (a := bcDoneAct r.die r.cls (r.step % 2 ^ 32)) rfl hdie (hcomplete ▸ ?_)
  have hrd {f : Fld} (hf : f ∉ [Fld.PT_WITHDRAWN]) (hcnt : f ≠ .I_HBM_CNT) : w.rd f r.die r.cls = s.rd f r.die r.cls :=
    (hreg .vis f _ _ hf).trans (hu.rd hcnt _ _)
  have hrecs : t.aux.recs = withdrawnRecs u d cause := by rw [hclosed, haux]
  have hclosedSteps : t.aux.steps = s.aux.steps.erase r := by rw [hclosed, haux, hu.aux]
  have hwu : u.SameBytes w := sameBytes_of_eq hmem hcfg
  refine ⟨hrun0, hsteps.trans (by rw [hrd (by decide) (by decide)]), hrows.trans (by rw [hrd (by decide) (by decide)]),
    sameBytes_trans (sameBytes_trans hu.bytes hwu) hbytes, ?_, hslotsT, fun hended => ?_, fun hended => ?_⟩
  · rw [State.stepOf, hclosedSteps]
    exact hnext
  · rw [hrecs, withdrawnRecs, if_pos hended, hu.aux]
  · rw [withdrawnRecs, if_neg (by simp [hended]), hu.aux] at hrecs
    exact ⟨_, hrecs, rfl, rfl, hcause hended, rfl, rfl⟩

end stepEnds

/-! ### Done values of no step, predictors and links (09 R396, R415, 19 R827) -/

section events
variable {s : State} {die cls port value : Nat}

/-- BC_DONE of no step that runs is counted as bad (09 R396). -/
theorem bcDone_bad (hs : s.Sound) (hdie : s.dieThere die = true)
    (hbad : s.stepOf die cls = none ∨ ∃ r, s.stepOf die cls = some r ∧ value ≠ r.step % 2 ^ 32) :
    Runs (.bcDone die cls value) s fun t =>
      t.rd .BC_BAD_DONE die cls = (s.rd .BC_BAD_DONE die cls + 1) % 2 ^ Fld.BC_BAD_DONE.info.width ∧
      s.OnlyRegs t [(.BC_BAD_DONE, die, cls)] := by
  have hrun : (bcDoneAct die cls value).run s = (Act.inc .BC_BAD_DONE die cls).run s := by
    rw [bcDoneAct, run_get]
    obtain hnone | ⟨r, hsome, hne⟩ := hbad
    · rw [hnone]
    · rw [hsome]
      simp only [beq_eq_false_iff_ne.2 hne, Bool.false_eq_true, if_false]
  have hone := (CountedUp.refl hs).inc (f := .BC_BAD_DONE) List.not_mem_nil die cls
  exact runs_of_done rfl hdie (hrun ▸ ⟨hone.rd (List.mem_singleton_self _), hone.only⟩)

theorem prdReenable_runs (hs : s.Sound) (hdie : s.dieThere die = true) (core entry : Nat) :
    Runs (.prdReenable die core entry) s fun t =>
      t.rd .PRD_REENABLE_PENDING die (core * 16 + entry) = 1 ∧
      s.OnlyRegs t [(.PRD_REENABLE_PENDING, die, core * 16 + entry), (.I_PRD_KEEP, die, core * 16 + entry)] :=
  runs_of_writes (a := prdReenableAct die (core * 16 + entry)) hs
    [((.PRD_REENABLE_PENDING, die, core * 16 + entry), 1), ((.I_PRD_KEEP, die, core * 16 + entry), 0)] rfl hdie rfl
    (show [Fld.PRD_REENABLE_PENDING, .I_PRD_KEEP].Nodup by decide)
    fun _ hrd _ honly => ⟨hrd (.head _), honly fun _ hw => List.mem_map_of_mem (f := Prod.fst) hw⟩

/-- What a data port's link shows once it has come up or gone down: no secure channel and no peer. -/
structure LinkSet (s t : State) (die port link speed : Nat) : Prop where
  link : t.rd .ETH_STATUS_LINK die port = link
  speed : t.rd .ETH_STATUS_SPEED die port = speed
  secure : t.rd .ETH_STATUS_SECURE die port = 0
  peers : t.rd .ETH_STATUS_PEERS die port = 0
  bytes : s.SameBytes t

/-- What a data port's link clears as it changes. -/
def linkClears (die port : Nat) : List ((Fld × Nat × Nat) × Nat) :=
  [((.ETH_STATUS_LINK, die, port), 0), ((.ETH_STATUS_SPEED, die, port), 0), ((.ETH_STATUS_SECURE, die, port), 0),
    ((.ETH_STATUS_PEERS, die, port), 0)]

/-- What it writes after that. -/
def linkMarks (die port link speed : Nat) : List ((Fld × Nat × Nat) × Nat) :=
  [((.ETH_STATUS_LINK, die, port), link), ((.ETH_STATUS_SPEED, die, port), speed), ((.I_ETH_SAK, die, port), 0),
    ((.I_MKA_SILENT, die, port), 0)]

theorem setLink_run (hport : port < 2) (link speed : Nat) :
    (setLink die port link speed).run s = (setAll (linkMarks die port link speed)).run ((setAll (linkClears die port)).run s) := by
  rw [setLink, if_neg (by simpa using Nat.ne_of_lt hport)]
  rfl

theorem linkSet_setLink (hs : s.Sound) (hport : port < 2) {link speed : Nat} (hlink : link < 2) (hspeed : speed < 2) :
    LinkSet s ((setLink die port link speed).run s) die port link speed := by
  have hu := run_sound (setAll (linkClears die port)) hs
  have hclears : (linkClears die port).map (fun w => w.1.1) =
    [.ETH_STATUS_LINK, .ETH_STATUS_SPEED, .ETH_STATUS_SECURE, .ETH_STATUS_PEERS] := rfl
  have hmarks : (linkMarks die port link speed).map (fun w => w.1.1) =
    [.ETH_STATUS_LINK, .ETH_STATUS_SPEED, .I_ETH_SAK, .I_MKA_SILENT] := rfl
  have hmark {f : Fld} {v : Nat} (hf : ((f, die, port), v) ∈ linkMarks die port link speed) := rd_setAll hu _ (hmarks ▸ by decide) hf
  have hclear {f : Fld} (hf : ((f, die, port), 0) ∈ linkClears die port)
      (hkept : f ∉ (linkMarks die port link speed).map fun w => w.1.1) :
      ((setAll (linkMarks die port link speed)).run ((setAll (linkClears die port)).run s)).rd f die port = 0 :=
    (rd_setAll_other hu _ hkept ..).trans ((rd_setAll hs _ (hclears ▸ by decide) hf).trans (Nat.zero_mod _))
  rw [setLink_run hport]
  exact ⟨(hmark (.head _)).trans (Nat.mod_eq_of_lt hlink), (hmark (.tail _ (.head _))).trans (Nat.mod_eq_of_lt hspeed),
    hclear (.tail _ (.tail _ (.head _))) (hmarks ▸ by decide),
    hclear (.tail _ (.tail _ (.tail _ (.head _)))) (hmarks ▸ by decide), sameBytes_of_eq rfl rfl⟩

theorem b2n_lt_two (b : Bool) : b2n b < 2 := by cases b <;> decide

end events

/-- Settles O44: a step starts with the request that waits and ends with its row; bad done values count; links come up unsecured. -/
theorem stepsPredictorsAndLinks : Obligations.StepsPredictorsAndLinks := by
  intro s die cls core port value hs hdie desc trig tdie t8 job table n
  refine ⟨fun d hstep hslots hwait hpending hdue hopen htdie hok hruns hroom hjob hn htable hapart _ => ?_, bcDone_bad hs hdie,
    fun r d slot hstep hvalue hslots hwait hslot hrow hnext hdesc hend => ?_, fun entry => prdReenable_runs hs hdie core entry,
    fun hport hlt => ?_, fun hport => done_when_false hport _ s, fun hlt => ?_⟩
  · exact batchWindowExpiry_runs hs hdie hstep hslots hwait hpending hdue hopen htdie ⟨hok, hruns, hroom, hjob, hn, htable⟩ hapart
  · subst hvalue
    exact bcDone_runs hs hdie hstep hslots hwait hslot hrow hnext hdesc hend
  · have hup := linkSet_setLink (die := die) hs hlt Nat.one_lt_two (b2n_lt_two ((s.portEntry die port).any fun p => p.mode == 0))
    exact runs_of_done rfl hport ⟨hup.link, hup.secure, hup.peers, hup.bytes, hup.speed⟩
  · have hdown := linkSet_setLink (die := die) hs hlt Nat.two_pos Nat.two_pos
    refine runs_of_done rfl ?_ ⟨hdown.link, hdown.secure, ?_, hdown.bytes⟩
    · simp [hdie, portThere, hlt]
    · rw [State.portPasses, State.on, hdown.link]
      rfl

end Sys2Proof.Proofs

/-! PROOFS. The statement about PUBLISH (09_sequence_work.md R397, 10 R462, 13 R583 to R589): first the issue of commands that the
sequencer performs, then PUBLISH RESULT, PUBLISH TOKENS, and the error of a PUBLISH TOKENS that names no step. -/

namespace Sys2Proof.Proofs

open Sys2Proof Sys2Proof.Machine Sys2Proof.Laws

/-! ### The issue of a command that the sequencer performs (10 R424, R469) -/

/-- A computation that succeeds or fails as given, and leaves a state. -/
def EndsIn {α : Type} (s : State) (m : M α) (r : Except Err α) (t : State) : Prop := ∀ k, (m.then k).run s = (k r).run t

section endsIn
variable {α β : Type} {s t u : State}

theorem endsIn_of_leads {m : M α} {a : α} (h : Leads s m a t) : EndsIn s m (.ok a) t := leads_then h

theorem endsIn_bind {m : M α} {f : α → M β} {a : α} {r : Except Err β} (hm : Leads s m a t) (hf : EndsIn t (f a) r u) :
    EndsIn s (m >>= f) r u := fun k => by rw [then_bind, leads_then hm, onOk_ok, hf]

theorem endsIn_fail (code detail : Nat) : EndsIn s (M.fail code detail : M α) (.error ⟨code, detail⟩) s := fun _ => rfl

end endsIn

/-- What follows the work of a command that the sequencer performs: it completes, or its context goes on with it in flight. -/
def settleIssue (die core c : Nat) : Act :=
  .get fun t =>
    match (t.ctx die core c).flight.getLast? with
    | some f =>
      match f.ending with
      | some e => completeFlight die core c f e
      | none => settleCtx die core c
    | none => .nop

section settle
variable {s : State} {die core c : Nat}

/-- Without SIGNALs in flight there is no add to send. -/
theorem readySignals_eq_nil {before fs : List Flight} (h : ∀ f ∈ fs, f.cmd.op ≠ 0x04) : s.readySignals die core c before fs = [] := by
  induction fs generalizing before with
  | nil => rfl
  | cons f fs ih =>
    have hop := beq_eq_false_iff_ne.2 (h f (List.mem_cons_self ..))
    rw [State.readySignals, ih fun g hg => h g (List.mem_cons_of_mem _ hg)]
    simp [hop]

/-- A context that does not stop, with neither END nor SIGNAL in flight, has nothing to settle. -/
theorem run_settleCtx_quiet (hstop : (s.ctx die core c).stop = none)
    (hops : ∀ f ∈ (s.ctx die core c).flight, f.cmd.op ≠ 0x02 ∧ f.cmd.op ≠ 0x04) : (settleCtx die core c).run s = s := by
  have hrelease : (releaseSignals die core c).run s = s := by
    rw [releaseSignals, run_get, readySignals_eq_nil fun f hf => (hops f hf).2, run_each_nil]
  rw [settleCtx, run_seq, hrelease, run_get]
  dsimp only
  rw [hstop]
  dsimp only
  split
  · next f hflight =>
    have hop := beq_eq_false_iff_ne.2 (hops f (hflight ▸ List.mem_singleton_self f)).1
    simp [hop]
  · rfl

end settle

section issue
variable {s : State} {die core c : Nat} {i : Issue}

/-- The context of a command that has been issued: its owner and its stop are what they were. -/
theorem ctx_startOf (hat : s.atCommand die core c i) (course : Course) :
    (startOf s die core c i course).ctx die core c = { s.ctx die core c with
      again := (s.ctx die core c).again.drop 1
      flight := [metChecks (issuedFlight s die core i course)]
      loops := (loopNext (i.addr + 32) (s.ctx die core c).loops).2.1 } := by
  obtain ⟨-, -, -, hflight, -⟩ := hat
  have hsame := ctx_countAct s die core c (issuedFlight s die core i course).id
  rw [startOf, beginAct_run, ctx_placeAct (hsame ▸ hflight), hsame]

theorem stop_atCommand (hat : s.atCommand die core c i) : (s.ctx die core c).stop = none := by
  obtain ⟨-, hcan, -⟩ := hat
  simp only [State.canIssue, Bool.and_eq_true, Option.isNone_iff_eq_none] at hcan
  tauto

theorem ctxStop_startOf (hat : s.atCommand die core c i) (course : Course) :
    ((startOf s die core c i course).ctx die core c).stop = none := by
  rw [ctx_startOf hat]
  exact stop_atCommand hat

theorem ctxOwner_startOf (hat : s.atCommand die core c i) (course : Course) :
    ((startOf s die core c i course).ctx die core c).owner = (s.ctx die core c).owner := by rw [ctx_startOf hat]

theorem ctxStop_endOf (w : State) (id : Nat) (r : Except Err (Option Nat)) :
    (((endOf die core c id r).run w).ctx die core c).stop = (w.ctx die core c).stop := by
  rw [endOf, run_get, run_seq]
  rcases r with _ | _ | _ <;> dsimp only <;> simp only [endFlight, Act.flight, ctx_run_ctx_self, ctx_run_raised]

/-- An end of a command's work changes nothing but its context and the flags raised. -/
theorem aux_endOf (w : State) (id : Nat) (r : Except Err (Option Nat)) :
    ∃ ctxs, ((endOf die core c id r).run w).aux = { w.aux with ctxs := ctxs, raised := 0 } := by
  rw [endOf, run_get, run_seq]
  rcases r with _ | _ | _ <;> exact ⟨_, rfl⟩

theorem run_issueSeq (hat : s.atCommand die core c i) {mine : Issue → Bool} (hmine : mine i = true) {body : Cx → Nat → M (Option Nat)}
    {r : Except Err (Option Nat)} {w : State}
    (hbody : EndsIn (startOf s die core c i {}) (body (issuedCx s die core c i) (nextId s)) r w) :
    (issueSeq die core c mine body).run s = (settleIssue die core c).run ((endOf die core c (nextId s) r).run w) := by
  have hrun := (run_issueUnit hat (course := {}) ⟨rfl, by simp⟩ hmine body).trans (hbody _)
  obtain ⟨hnext, hcan, -⟩ := hat
  rw [← hrun, issueSeq, run_get, hnext]
  dsimp only
  rw [hmine, hcan, Bool.true_and, run_when_true]
  rfl

/-- A command that is neither END nor SIGNAL and has not ended stays in flight. -/
theorem run_settleIssue_open {t : State} {id : Nat} (h : InFlight s t die core c i id none) (hstop : (t.ctx die core c).stop = none)
    (hop : i.op ≠ 0x02 ∧ i.op ≠ 0x04) : (settleIssue die core c).run t = t := by
  obtain ⟨-, -, f, hflight, -, -, hend, hcmd⟩ := h
  rw [settleIssue, run_get, hflight, List.getLast?_singleton]
  dsimp only
  rw [hend]
  refine run_settleCtx_quiet hstop fun g hg => ?_
  rw [hflight] at hg
  rw [List.mem_singleton.1 hg, hcmd]
  exact hop

end issue

/-! ### The issue of a PUBLISH (10 R462) -/

section publish
variable {s : State} {die core c p q a kind : Nat} {i : Issue} {j : Job}

/-- A PUBLISH waits for the earlier commands of its context. -/
theorem done_issuePublish_waits (h : (s.ctx die core c).flight ≠ []) (body : Cx → Nat → Job → M (Option Nat)) :
    (issuePublish die core c kind body).done s = .next s := by
  rw [done_eq, issuePublish, run_get, List.isEmpty_eq_false_iff.2 h, run_when_false]

theorem job_startOf (hs : s.Sound) (hat : s.atCommand die core c i) (course : Course) :
    (startOf s die core c i course).job p q = s.job p q := by
  obtain ⟨ctxs, haux⟩ := (started_startOf hs hat course).aux
  rw [State.job, haux, State.job]

theorem run_issuePublish (hs : s.Sound) (hat : s.atCommand die core c i) (hop : i.op = 0x09) (hkind : bits i.mode 0 2 = kind)
    (howner : (s.ctx die core c).owner = .job p q) (hjob : s.job p q = some j) {body : Cx → Nat → Job → M (Option Nat)}
    {r : Except Err (Option Nat)} {w : State}
    (hbody : EndsIn (startOf s die core c i {}) (body (issuedCx s die core c i) (nextId s) j) r w) :
    (issuePublish die core c kind body).run s = (settleIssue die core c).run ((endOf die core c (nextId s) r).run w) := by
  have hmine : (fun i : Issue => isOp 0x09 i && bits i.mode 0 2 == kind) i = true := by
    simp [isOp_atCommand hat hop, hkind]
  have hflight : (s.ctx die core c).flight = [] := by
    obtain ⟨-, -, -, hflight, -⟩ := hat
    exact hflight
  rw [issuePublish, run_get, hflight, List.isEmpty_nil, run_when_true]
  refine run_issueSeq hat hmine (endsIn_bind leads_state ?_)
  rw [ctxOwner_startOf hat, howner]
  dsimp only
  rw [job_startOf hs hat, hjob]
  exact hbody

end publish

/-! ### A PUBLISH at work (10 R462, 13 R583) -/

section work
variable {s w : State} {die core c p q a len kind : Nat} {i : Issue} {j : Job}

/-- A publish without attachments, whose payload lies in its core's own stores, at work. -/
structure PublishWork (s : State) (die core c a : Nat) (i : Issue) : Prop where
  origin : s.Sound
  command : s.atCommand die core c i
  op : i.op = 0x09
  store : s.suspectStore die core = false
  payload : Cx.paOf ⟨die, core, c, i⟩ (i.w 1) (i.w 2) 1 = .ok a
  own : s.OwnRange ⟨die, core, c, i⟩ a (i.w 3)
  count : storeRangeOk (Cx.la ⟨die, core, c, i⟩ 4) 4 = true
  noAttachment : s.le (storeAddr die core (Cx.la ⟨die, core, c, i⟩ 4)) 4 = 0

namespace PublishWork
variable (h : PublishWork s die core c a i)
include h

theorem started : Started s (startOf s die core c i {}) die core c i (nextId s) := started_startOf h.origin h.command {}

theorem atWork : AtWork s (issuedCx s die core c i) (nextId s) 0 0 (startOf s die core c i {}) :=
  atWork_startOf h.origin h.command ⟨rfl, by simp⟩ h.store

theorem gives_payload : Gives (startOf s die core c i {}) (issuedCx s die core c i).payload (s.bytes a (i.w 3)) :=
  leads_bind (gives_pa_own (s := s) (pa_issuedCx h.payload) (Nat.mod_one _) h.own) (h.atWork.gives_readAt (sees_of_ownRange h.own))

theorem gives_attachments : Gives (startOf s die core c i {}) (issuedCx s die core c i).attachments [] := by
  have hcount : Gives (startOf s die core c i {}) ((issuedCx s die core c i).localLe ((issuedCx s die core c i).la 4) 4) 0 := by
    rw [← h.noAttachment, State.le, ← bytes_congr h.origin h.started.sound h.started.bytes.1]
    exact leads_bind (gives_readStore h.atWork.suspectStore) (leads_pure _)
  exact leads_bind (gives_local (.inr h.count)) (leads_bind hcount (leads_bind (gives_needField rfl ..)
    (leads_bind (gives_local (.inr h.count)) (leads_pure []))))

/-- A PUBLISH that has handed over its records stays in flight until they stand in the ring (10 R462). -/
theorem runs_open {body : Cx → Nat → Job → M (Option Nat)} (howner : (s.ctx die core c).owner = .job p q) (hjob : s.job p q = some j)
    (hkind : bits i.mode 0 2 = kind) {w : State} {f : Aux → Aux} (hw : w = (Act.aux f).run (startOf s die core c i {}))
    (hf : ∀ x, (f x).ctxs = x.ctxs ∧ (f x).raised = x.raised)
    (hbody : Leads (startOf s die core c i {}) (body (issuedCx s die core c i) (nextId s) j) none w) :
    let t := (issuePublish die core c kind body).run s
    s.Performed t die core c i none ∧ s.SameBytes t ∧ t.aux.jobs = w.aux.jobs ∧ t.aux.recs = w.aux.recs := by
  have hrun := run_issuePublish h.origin h.command h.op hkind howner hjob (endsIn_of_leads hbody)
  have hstop := ctxStop_startOf h.command {}
  obtain ⟨hctxs, hraised⟩ := hf (startOf s die core c i {}).aux
  have hstart := h.started
  generalize startOf s die core c i {} = v at hrun hstop hstart hctxs hraised hw
  have haux : w.aux = f v.aux := by rw [hw, aux_run_aux]
  have hctx : w.ctx die core c = v.ctx die core c := by rw [State.ctx, haux, hctxs, State.ctx]
  have hin := inFlight_open (hstart.inFlight.keep (w := w) (fun _ _ _ _ => by rw [hw, rd_run_aux]) (by rw [hctx]) (by rw [hctx]))
    (by rw [haux, hraised, hstart.raised]) (flags_atCommand h.command)
  rw [run_settleIssue_open hin ((ctxStop_endOf ..).trans (by rw [hctx, hstop])) (by rw [h.op]; decide)] at hrun
  obtain ⟨ctxs, hend⟩ := aux_endOf (die := die) (core := core) (c := c) w (nextId s) (.ok none)
  have hbytes : v.SameBytes w := hw ▸ sameBytes_of_eq rfl rfl
  have hleft := (left_endOf w die core c (nextId s) (.ok none)).same
  rw [hrun]
  exact ⟨performed_of_inFlight hin, sameBytes_trans (sameBytes_trans hstart.bytes hbytes) hleft, by rw [hend], by rw [hend]⟩

theorem jobCflags_startOf (j : Job) : (startOf s die core c i {}).jobCflags j = s.jobCflags j := by
  simp (disch := decide) only [State.jobCflags, h.started.rd]

theorem frameEntries_startOf (j : Job) : (startOf s die core c i {}).frameEntries j = s.frameEntries j := by
  obtain ⟨ctxs, haux⟩ := h.started.aux
  simp only [State.frameEntries, State.boundFrames, State.frame, haux]

theorem slotBytes_startOf (n : Nat) : (startOf s die core c i {}).slotBytes n = s.slotBytes n := by
  rw [State.slotBytes, State.ac, h.started.reg _ _ _ _ (by decide)]
  rfl

end PublishWork
end work

/-! ### PUBLISH RESULT (13 R583, R588) -/

section result
variable {p q : Nat} {j : Job}

/-- The record that PUBLISH RESULT hands over. -/
def resultRec (v : State) (x : Cx) (id : Nat) (j : Job) (payload : List Byte) : Rec :=
  let r := publishedRec x (v.jobRec j recResult 0 j.late) (v.jobCflags j) [] payload
  { r with rflags := r.rflags ||| bitIf (v.unverified j) 1, pub := some (x.die, x.core, x.ctx, id) }

/-- A job once job `j` has been published. -/
def markPublished (j k : Job) : Job := if k.is j.part j.jseq then { k with published := true } else k

/-- What that leaves: the job has been published, and its record waits for the ring. -/
def handResult (j : Job) (r : Rec) (x : Aux) : Aux :=
  { x with jobs := x.jobs.map (markPublished j), recs := x.recs ++ [r] }

/-- A job that has been published is still there. -/
theorem find_published {js : List Job} (hjob : (js.find? fun k => k.is p q) = some j) :
    ∃ k, ((js.map (markPublished j)).find? fun k => k.is p q) = some k ∧ k.published = true := by
  obtain ⟨rfl, rfl⟩ : j.part = p ∧ j.jseq = q := by simpa [Job.is] using List.find?_some hjob
  have hsame : ((fun k : Job => k.is j.part j.jseq) ∘ markPublished j) = fun k => k.is j.part j.jseq := by
    funext k
    rw [Function.comp, markPublished]
    split <;> rfl
  rw [List.find?_map, hsame, hjob]
  exact ⟨_, rfl, by simp [markPublished, Job.is]⟩

theorem leads_publishResult {v : State} {x : Cx} {id : Nat} {payload : List Byte} (hpublished : j.published = false)
    (hended : j.ended = false) (hpayload : Gives v x.payload payload) (hattach : Gives v x.attachments [])
    (hsize : (resultRec v x id j payload).size ≤ v.slotBytes j.part) :
    Leads v (publishResult x id j) none ((Act.aux (handResult j (resultRec v x id j payload))).run v) := by
  have hfresh : (j.published || j.ended) = false := by rw [hpublished, hended]; rfl
  refine leads_bind hpayload (leads_bind hattach (leads_bind leads_state (leads_else (by rw [hfresh]; decide) ?_)))
  have hslot : Gives v (needSlot v (resultRec v x id j payload)) () := gives_needField (decide_eq_true hsize) ..
  exact leads_bind hslot (leads_bind (leads_act _) (leads_pure none))

end result

namespace PublishWork
variable {s : State} {die core c p q a : Nat} {i : Issue} {j : Job} (h : PublishWork s die core c a i)
include h

/-- PUBLISH RESULT hands over the record of its job, which has then been published (10 R462, 13 R589). -/
theorem publishResult_runs (howner : (s.ctx die core c).owner = .job p q) (hjob : s.job p q = some j) (hkind : bits i.mode 0 2 = 0)
    (hpublished : j.published = false) (hended : j.ended = false) (hsize : 64 + 48 * j.binds.length + i.w 3 ≤ s.slotBytes j.part) :
    Runs (.publishResult die core c) s fun t =>
      s.Performed t die core c i none ∧ (∃ k, t.job p q = some k ∧ k.published = true) ∧ s.SameBytes t ∧
      ∃ r, t.aux.recs = s.aux.recs ++ [r] ∧ r.part = j.part ∧ r.jseq = j.jseq ∧ r.kind = recResult ∧ r.appType = bits (i.w 5) 0 8 ∧
        r.cflags = s.jobCflags j ∧ r.frames = s.frameEntries j ∧ r.attach = [] ∧ r.payload = s.bytes a (i.w 3) := by
  obtain ⟨ctxs, haux⟩ := h.started.aux
  have hcflags := h.jobCflags_startOf j
  have hframes := h.frameEntries_startOf j
  have hslot := h.slotBytes_startOf j.part
  have hpayload := h.gives_payload
  have hattach := h.gives_attachments
  have hopen {w f} := h.runs_open (body := publishResult) (w := w) (f := f) howner hjob hkind
  generalize startOf s die core c i {} = v at haux hcflags hframes hslot hpayload hattach hopen
  have hfits : (resultRec v (issuedCx s die core c i) (nextId s) j (s.bytes a (i.w 3))).size ≤ v.slotBytes j.part := by
    rw [hslot]
    simpa [Rec.size, resultRec, publishedRec, State.jobRec, State.frameEntries, State.boundFrames] using hsize
  obtain ⟨hperformed, hbytes, hjobs, hrecs⟩ := hopen (f := handResult j _) rfl (fun _ => ⟨rfl, rfl⟩)
    (leads_publishResult hpublished hended hpayload hattach hfits)
  rw [aux_run_aux, haux] at hjobs hrecs
  refine ⟨_, rfl, hperformed, ?_, hbytes, _, hrecs, rfl, rfl, rfl, rfl, hcflags, hframes, rfl, rfl⟩
  rw [State.job, hjobs]
  exact find_published hjob

end PublishWork

/-! ### PUBLISH TOKENS (09 R397, 13 R589) -/

/-- One computation for each element of a list, each of which changes nothing. -/
theorem gives_each {α : Type} {v : State} {xs : List α} {f : α → M Unit} (h : ∀ x ∈ xs, Gives v (f x) ()) : Gives v (M.each xs f) () := by
  induction xs with
  | nil => exact leads_pure ()
  | cons x xs ih => exact leads_bind (h x (List.mem_cons_self ..)) (ih fun y hy => h y (List.mem_cons_of_mem _ hy))

/-- Records of which the last one names the command that it completes. -/
def lastCompletes (x : Cx) (id : Nat) : List Rec → List Rec
  | [] => []
  | [r] => [{ r with pub := some (x.die, x.core, x.ctx, id) }]
  | r :: rs => r :: lastCompletes x id rs

theorem map_lastCompletes {β : Type} {x : Cx} {id : Nat} {f : Rec → β} (hf : ∀ (r : Rec) p, f { r with pub := p } = f r) (rs : List Rec) :
    (lastCompletes x id rs).map f = rs.map f := by
  induction rs with
  | nil => rfl
  | cons r rs ih =>
    cases rs with
    | nil => exact congrArg (fun y => [y]) (hf ..)
    | cons r' rs => exact congrArg (f r :: ·) ih

theorem run_handTokens {x : Cx} {id : Nat} (rs : List Rec) (s : State) :
    (handTokens x id rs).run s = (Act.aux fun a => { a with recs := a.recs ++ lastCompletes x id rs }).run s := by
  induction rs generalizing s with
  | nil =>
    show s = { s with aux := { s.aux with recs := s.aux.recs ++ [] } }
    rw [List.append_nil]
  | cons r rs ih =>
    cases rs with
    | nil => rfl
    | cons r' rs =>
      rw [handTokens, run_seq, ih]
      case x_2 => exact nofun
      show _ = { s with aux := { s.aux with recs := s.aux.recs ++ r :: lastCompletes x id (r' :: rs) } }
      rw [List.append_cons]
      rfl

/-- Whether the END bit of a request's row is set. -/
def rowEnds (ends : Nat) (rows : List Nat) (p : Nat × DecReq) : Bool := bit ends (rows.getD p.1 0)

/-- The records of a step's rows, each with its part of the payload. -/
def stepRecs (v : State) (x : Cx) (j : Job) (st : StepRun) (ends size : Nat) (payload : List Byte) : List Rec :=
  (v.stepReqs st).map fun p => publishedRec x (tokenRec v p.2 (rowEnds ends st.rows p) j.jseq) (v.jobCflags j) []
    ((payload.drop (p.1 * size)).take size)

/-- Requests whose END bit is set have ended. -/
def endRequests (v : State) (st : StepRun) (ends : Nat) (a : Aux) : Aux :=
  { a with decs := a.decs.map fun d =>
      if ((v.stepReqs st).filter (rowEnds ends st.rows)).any fun p => p.2.ord == d.ord then { d with ended := true } else d }

/-- What PUBLISH TOKENS leaves: besides, the records wait for the ring. -/
def handStep (v : State) (x : Cx) (id : Nat) (st : StepRun) (ends : Nat) (recs : List Rec) (a : Aux) : Aux :=
  { endRequests v st ends a with recs := a.recs ++ lastCompletes x id recs }

theorem run_handStep {x : Cx} {id : Nat} (v : State) (st : StepRun) (ends : Nat) (recs : List Rec) :
    (Act.seq (.aux (endRequests v st ends)) (handTokens x id recs)).run v = (Act.aux (handStep v x id st ends recs)).run v := by
  rw [run_seq, run_handTokens]
  rfl

section tokens
variable {s v : State} {x : Cx} {id desc : Nat} {j : Job} {st : StepRun} {payload ends : List Byte}

theorem leads_publishTokens (hpayload : Gives v x.payload payload) (hattach : Gives v x.attachments []) (hdesc : Gives v (x.pa 6 64 1) desc)
    (hstep : (v.aux.steps.find? fun r => r.desc == desc) = some st) (hrows : payload.length % st.rows.length = 0)
    (hends : Gives v (x.readAt (desc + 48) 8) ends) (hreqs : v.stepReqs st ≠ [])
    (hslot : ∀ r ∈ v.stepReqs st, 64 + payload.length / st.rows.length ≤ v.slotBytes r.2.part) :
    Leads v (publishTokens x id j) none ((Act.aux (handStep v x id st (leNat ends)
      (stepRecs v x j st (leNat ends) (payload.length / st.rows.length) payload))).run v) := by
  have hfits : ∀ r ∈ stepRecs v x j st (leNat ends) (payload.length / st.rows.length) payload, Gives v (needSlot v r) () := by
    intro r hr
    obtain ⟨p, hp, rfl⟩ := List.mem_map.1 hr
    refine gives_needField (decide_eq_true ?_) ..
    refine le_trans ?_ (hslot p hp)
    simp [Rec.size, publishedRec, tokenRec, State.decRec, State.blankRec]
  have hsome : (stepRecs v x j st (leNat ends) (payload.length / st.rows.length) payload).isEmpty = false := by
    simpa [stepRecs, List.isEmpty_eq_false_iff] using hreqs
  generalize hw : (Act.aux (handStep v x id st _ _)).run v = w
  have hact : Leads v (M.act (.seq (.aux (endRequests v st (leNat ends))) (handTokens x id
      (stepRecs v x j st (leNat ends) (payload.length / st.rows.length) payload)))) () w := by
    rw [← hw, ← run_handStep]
    exact leads_act _
  have hopen : Gives w (pure (if (stepRecs v x j st (leNat ends) (payload.length / st.rows.length) payload).isEmpty then some 0 else none) :
      M (Option Nat)) none := by
    rw [hsome]
    exact leads_pure none
  refine leads_bind hpayload (leads_bind hattach (leads_bind hdesc (leads_bind leads_state ?_)))
  rw [hstep]
  exact leads_bind (gives_needField (beq_iff_eq.2 hrows) ..) (leads_bind hends (leads_bind (gives_each hfits) (leads_bind hact hopen)))

theorem endsIn_publishTokens_noStep (hpayload : Gives v x.payload payload) (hattach : Gives v x.attachments [])
    (hdesc : Gives v (x.pa 6 64 1) desc) (hnone : (v.aux.steps.find? fun r => r.desc == desc) = none) :
    EndsIn v (publishTokens x id j) (.error ⟨codePubNoStep, 0⟩) v := by
  refine endsIn_bind hpayload (endsIn_bind hattach (endsIn_bind hdesc (endsIn_bind leads_state ?_)))
  rw [hnone]
  exact fun k => endsIn_fail codePubNoStep 0 k

end tokens

/-! ### A command that ends with an error under CONT (10 R468, R471) -/

section completes
variable {s t : State} {die core c : Nat} {i : Issue} {f : Flight} {e : Ending}

/-- A semaphore on which no context waits serves none. -/
theorem run_semServe_idle (h : ∀ x < 4, s.ctxState die core x ≠ 2) (sem : Nat) : (semServe die core sem).run s = s := by
  have htake : ∀ x < 4, (semTake die core sem x).run s = s := by
    intro x hx
    have hnone : s.semWaiter die core sem x = none := by
      rw [State.semWaiter, beq_eq_false_iff_ne.2 (h x hx)]
      simp
    rw [semTake, run_get, hnone, run_nop]
  have hwoken : ((List.range 4).filter fun x => s.ctxState die core x == 2 && s.ctxState die core x == 1) = [] :=
    List.filter_eq_nil_iff.2 fun x hx => by simp [h x (List.mem_range.1 hx)]
  rw [semServe, run_get, run_seq, run_upTo_idle htake, run_get]
  dsimp only
  rw [hwoken, run_nop]

/-- A command that signals no waiter changes its semaphore at most. -/
theorem signalDone_keeps (hs : s.Sound) (hno : i.sig = true → ∀ x < 4, s.ctxState die core x ≠ 2) (code : Nat) :
    let t := (signalDone die core i code).run s
    (∀ g d n, g ≠ .SEM_VALUE → t.rd g d n = s.rd g d n) ∧ t.aux = s.aux := by
  dsimp only
  rw [signalDone]
  by_cases hsig : (i.sig && (code == 0 || i.cont)) = true
  · have hidle : ∀ x < 4, ((Act.incSat .SEM_VALUE die (core * 32 + i.sem) 1).run s).ctxState die core x ≠ 2 := fun x hx => by
      rw [State.ctxState, rd_run_incSat hs, if_neg fun h => by cases h.1]
      exact hno (Bool.and_eq_true_iff.1 hsig).1 x hx
    rw [hsig, run_when_true, semAdd, run_seq, run_semServe_idle hidle]
    exact ⟨fun g d n hg => by rw [rd_run_incSat hs, if_neg fun h => hg h.1], rfl⟩
  · rw [Bool.eq_false_iff.2 hsig, run_when_false]
    exact ⟨fun _ _ _ _ => rfl, rfl⟩

/-- An error under CONT is noted in the flags of its list, and counted. -/
theorem noteError_run (hs : s.Sound) (flags : Nat) :
    let t := (Act.inc .SQ_CONT_ERRORS die core).run ((Act.upd .CTX_CFLAGS die (ctxIdx core c) (· ||| flags)).run s)
    t.Sound ∧ (∀ g d n, g ∉ [Fld.CTX_CFLAGS, .SQ_CONT_ERRORS] → t.rd g d n = s.rd g d n) ∧
      t.rd .CTX_CFLAGS die (ctxIdx core c) = (s.rd .CTX_CFLAGS die (ctxIdx core c) ||| flags) % 2 ^ 8 ∧ t.aux = s.aux := by
  have hflags := run_sound (.upd .CTX_CFLAGS die (ctxIdx core c) (· ||| flags)) hs
  refine ⟨run_sound _ hflags, fun g d n hg => ?_, ?_, rfl⟩
  · simp only [List.mem_cons, List.not_mem_nil, or_false, not_or] at hg
    rw [rd_run_inc hflags, if_neg fun h => hg.2 h.1, rd_run_upd hs, if_neg fun h => hg.1 h.1]
  · have hfld : Fld.CTX_CFLAGS ≠ .SQ_CONT_ERRORS := by decide
    rw [rd_run_inc hflags, if_neg fun h => hfld h.1, rd_run_upd hs, if_pos ⟨rfl, rfl, rfl⟩]
    rfl

/-- A command that ends with an error under CONT leaves the flight, and its list goes on. -/
theorem completeFlight_cont (hs : s.Sound) (hflight : (s.ctx die core c).flight = [f]) (hstop : (s.ctx die core c).stop = none)
    (hcont : f.cmd.cont = true) (hcode : e.code ≠ 0) (hno : f.cmd.sig = true → ∀ x < 4, s.ctxState die core x ≠ 2) :
    let t := (completeFlight die core c f e).run s
    (t.ctx die core c).flight = [] ∧ t.aux.recs = s.aux.recs ∧
      (∀ g d n, g ∉ [Fld.CTX_CFLAGS, .SQ_CONT_ERRORS, .SEM_VALUE] → t.rd g d n = s.rd g d n) ∧
      t.rd .CTX_CFLAGS die (ctxIdx core c) = (s.rd .CTX_CFLAGS die (ctxIdx core c) ||| (e.flags ||| flagContErr)) % 2 ^ 8 := by
  dsimp only
  have hbad : (e.code != 0) = true := bne_iff_ne.2 hcode
  rw [completeFlight, hbad, hcont, Bool.and_self, flagIf, if_pos rfl, Bool.not_true, Bool.and_false, run_all_cons, run_all_cons, run_all_cons,
    run_all_cons, run_all_cons, run_all_cons, run_all_nil, run_when_true, run_when_false]
  have hleft := run_sound (.ctx die core c fun y => { y with flight := y.flight.filter fun g => g.id != f.id }) hs
  generalize hu : (Act.ctx die core c fun y => { y with flight := y.flight.filter fun g => g.id != f.id }).run s = u at hleft ⊢
  have hctx : u.ctx die core c = { s.ctx die core c with flight := [] } := by
    rw [← hu, ctx_run_ctx_self, hflight]
    simp
  have hrecs : u.aux.recs = s.aux.recs := by rw [← hu]; rfl
  have hrd (g d n) : u.rd g d n = s.rd g d n := by rw [← hu, rd_run_ctx]
  obtain ⟨hv, hnoted, hcflags, hauxv⟩ := noteError_run (die := die) (core := core) (c := c) hleft (e.flags ||| flagContErr)
  generalize (Act.inc .SQ_CONT_ERRORS die core).run _ = v at hv hnoted hcflags hauxv ⊢
  obtain ⟨hsignal, hauxt⟩ := signalDone_keeps (i := f.cmd) hv
    (fun hsig x hx => ((hnoted _ _ _ (by decide)).trans (hrd ..)).trans_ne (hno hsig x hx)) e.code
  generalize (signalDone die core f.cmd e.code).run v = t at hsignal hauxt ⊢
  have hctxt : t.ctx die core c = { s.ctx die core c with flight := [] } := by rw [← hctx, State.ctx, hauxt, hauxv, State.ctx]
  rw [run_settleCtx_quiet (by rw [hctxt]; exact hstop) (by rw [hctxt]; nofun)]
  refine ⟨by rw [hctxt], by rw [hauxt, hauxv, hrecs], fun g d n hg => ?_, (hsignal _ _ _ (by decide)).trans (hcflags.trans (by rw [hrd]))⟩
  simp only [List.mem_cons, List.not_mem_nil, or_false, not_or] at hg
  exact (hsignal g d n hg.2.2).trans ((hnoted g d n (by simp [hg.1, hg.2.1])).trans (hrd ..))

end completes

theorem inFlight_failed {s w : State} {die core c id : Nat} {i : Issue} {e : Option Ending} (h : InFlight s w die core c i id e)
    (err : Err) : InFlight s ((endOf die core c id (.error err)).run w) die core c i id (some ⟨err.code, w.aux.raised, err.detail⟩) := by
  rw [endOf, run_get, run_seq]
  dsimp only
  rw [endFlight]
  refine h.step (fun _ _ _ _ => rfl) (by rw [ctx_run_ctx_self, ctx_run_raised]) (by rw [ctx_run_ctx_self, ctx_run_raised]) ?_ ?_ ?_ ?_
  · intro f; split <;> rfl
  · intro f; split <;> rfl
  · intro f hf; split <;> exact hf
  · intro f hf _ _; rw [hf, BEq.rfl, if_pos rfl]

/-- A command that has ended completes as its issue settles. -/
theorem run_settleIssue_ended {s t : State} {die core c id : Nat} {i : Issue} {e : Ending} (h : InFlight s t die core c i id (some e)) :
    ∃ f, (t.ctx die core c).flight = [f] ∧ f.cmd = { i with ord := id } ∧
      (settleIssue die core c).run t = (completeFlight die core c f e).run t := by
  obtain ⟨-, -, f, hflight, -, -, hend, hcmd⟩ := h
  refine ⟨f, hflight, hcmd, ?_⟩
  rw [settleIssue, run_get, hflight, List.getLast?_singleton]
  dsimp only
  rw [hend]

/-! ### PUBLISH TOKENS of a step, and of none -/

namespace PublishWork
variable {s : State} {die core c p q a desc : Nat} {i : Issue} {j : Job} (h : PublishWork s die core c a i)
include h

theorem stepReqs_startOf (st : StepRun) : (startOf s die core c i {}).stepReqs st = s.stepReqs st := by
  obtain ⟨ctxs, haux⟩ := h.started.aux
  rw [State.stepReqs, haux, State.stepReqs]

theorem steps_startOf : (startOf s die core c i {}).aux.steps = s.aux.steps := by
  obtain ⟨ctxs, haux⟩ := h.started.aux
  rw [haux]

theorem recs_startOf : (startOf s die core c i {}).aux.recs = s.aux.recs := by
  obtain ⟨ctxs, haux⟩ := h.started.aux
  rw [haux]

omit h in
theorem gives_desc (hpa : Cx.paOf ⟨die, core, c, i⟩ (i.w 6) (i.w 7) 6 = .ok desc) (hown : s.OwnRange ⟨die, core, c, i⟩ desc 64) :
    Gives (startOf s die core c i {}) ((issuedCx s die core c i).pa 6 64 1) desc :=
  gives_pa_own (s := s) (pa_issuedCx hpa) (Nat.mod_one _) hown

/-- PUBLISH TOKENS hands over a record for each row of its step (09 R397, 13 R589). -/
theorem publishTokens_runs (howner : (s.ctx die core c).owner = .job p q) (hjob : s.job p q = some j) (hkind : bits i.mode 0 2 = 1)
    (hpa : Cx.paOf ⟨die, core, c, i⟩ (i.w 6) (i.w 7) 6 = .ok desc) (hown : s.OwnRange ⟨die, core, c, i⟩ desc 64) {st : StepRun}
    (hstep : (s.aux.steps.find? fun r => r.desc == desc) = some st) (hreqs : s.stepReqs st ≠ []) (hrows : i.w 3 % st.rows.length = 0)
    (hsize : ∀ r ∈ s.stepReqs st, 64 + i.w 3 / st.rows.length ≤ s.slotBytes r.2.part) :
    Runs (.publishTokens die core c) s fun t =>
      s.Performed t die core c i none ∧ s.SameBytes t ∧
      ∃ l, t.aux.recs = s.aux.recs ++ l ∧
        l.map (fun r => (r.part, r.channel, r.reqSeq, r.kind, r.payload)) = (s.stepReqs st).map fun r =>
          (r.2.part, r.2.channel, r.2.reqSeq, if bit (s.le (desc + 48) 8) (st.rows.getD r.1 0) then recResult else recToken,
            ((s.bytes a (i.w 3)).drop (r.1 * (i.w 3 / st.rows.length))).take (i.w 3 / st.rows.length)) := by
  have hends := h.atWork.gives_readAt (sees_part (k := 48) (m := 8) (sees_of_ownRange hown) (by decide))
  have hdesc := gives_desc hpa hown
  have hsteps := h.steps_startOf
  have hrecs := h.recs_startOf
  have hstepReqs := h.stepReqs_startOf st
  have hslot := h.slotBytes_startOf
  have hpayload := h.gives_payload
  have hattach := h.gives_attachments
  have hopen {w f} := h.runs_open (body := publishTokens) (w := w) (f := f) howner hjob hkind
  have hlen : (s.bytes a (i.w 3)).length = i.w 3 := length_bytes ..
  generalize startOf s die core c i {} = v at *
  have hleads := leads_publishTokens (j := j) (st := st) (id := nextId s) hpayload hattach hdesc (hsteps ▸ hstep) (by rw [hlen, hrows]) hends
    (hstepReqs ▸ hreqs) fun r hr => by rw [hlen, hslot]; exact hsize r (hstepReqs ▸ hr)
  obtain ⟨hperformed, hbytes, -, hhanded⟩ := hopen (f := handStep v _ _ st _ _) rfl (fun _ => ⟨rfl, rfl⟩) hleads
  refine ⟨_, rfl, hperformed, hbytes, _, hhanded.trans (congrArg (· ++ _) hrecs), ?_⟩
  rw [map_lastCompletes fun _ _ => rfl, stepRecs, List.map_map, hstepReqs, hlen]
  rfl

/-- PUBLISH TOKENS of no step ends with PUB_NO_STEP; with CONT set its list goes on (10 R462, R471). -/
theorem publishTokens_noStep (howner : (s.ctx die core c).owner = .job p q) (hjob : s.job p q = some j) (hkind : bits i.mode 0 2 = 1)
    (hpa : Cx.paOf ⟨die, core, c, i⟩ (i.w 6) (i.w 7) 6 = .ok desc) (hown : s.OwnRange ⟨die, core, c, i⟩ desc 64)
    (hnone : (s.aux.steps.find? fun r => r.desc == desc) = none) (hcont : i.cont = true) (hno : s.noWaiter die core i) :
    Runs (.publishTokens die core c) s fun t =>
      s.Counted t die core c ∧ (t.ctx die core c).flight = [] ∧ t.aux.recs = s.aux.recs ∧
      bit (t.rd .CTX_CFLAGS die (ctxIdx core c)) (Nat.log2 flagContErr) = true := by
  have hbody : EndsIn (startOf s die core c i {}) (publishTokens (issuedCx s die core c i) (nextId s) j) (.error ⟨codePubNoStep, 0⟩)
      (startOf s die core c i {}) :=
    endsIn_publishTokens_noStep h.gives_payload h.gives_attachments (gives_desc hpa hown) (h.steps_startOf ▸ hnone)
  have hrun := run_issuePublish h.origin h.command h.op hkind howner hjob hbody
  have hstart := h.started
  have hstop := ctxStop_startOf h.command {}
  have hrecs := h.recs_startOf
  generalize startOf s die core c i {} = v at *
  have hin := inFlight_failed hstart.inFlight ⟨codePubNoStep, 0⟩
  have hu := run_sound (endOf die core c (nextId s) (.error ⟨codePubNoStep, 0⟩)) hstart.sound
  have hstopU := (ctxStop_endOf (die := die) (core := core) (c := c) v (nextId s) (.error ⟨codePubNoStep, 0⟩)).trans hstop
  have hrd := rd_endOf (die := die) (core := core) (c := c) v (nextId s) (.error ⟨codePubNoStep, 0⟩)
  obtain ⟨_, haux⟩ := aux_endOf (die := die) (core := core) (c := c) v (nextId s) (.error ⟨codePubNoStep, 0⟩)
  generalize (endOf die core c (nextId s) (.error ⟨codePubNoStep, 0⟩)).run v = u at *
  obtain ⟨f, hflight, hcmd, hsettle⟩ := run_settleIssue_ended hin
  have hidle : f.cmd.sig = true → ∀ x < 4, u.ctxState die core x ≠ 2 := by
    rw [hcmd]
    exact fun hsig x hx => ((hrd ..).trans (hstart.rd (by decide) ..)).trans_ne (hno hsig x hx)
  obtain ⟨hempty, hkept, hother, hcflags⟩ := completeFlight_cont (e := ⟨codePubNoStep, v.aux.raised, 0⟩) hu hflight hstopU
    (by rw [hcmd]; exact hcont) (by decide : codePubNoStep ≠ 0) hidle
  obtain ⟨⟨hcmds, hctxCmds⟩, -⟩ := hin
  refine ⟨_, congrArg Host.Outcome.next (hrun.trans hsettle), ⟨(hother _ _ _ (by decide)).trans hcmds,
    (hother _ _ _ (by decide)).trans hctxCmds⟩, hempty, hkept.trans (by rw [haux, hrecs]), ?_⟩
  rw [hcflags, bit_eq_testBit, Nat.testBit_mod_two_pow, Nat.testBit_or, Nat.testBit_or]
  have hbit : flagContErr.testBit (Nat.log2 flagContErr) = true := by decide
  have hwidth : decide (Nat.log2 flagContErr < 8) = true := by decide
  rw [hbit, hwidth, Bool.or_true, Bool.or_true, Bool.and_self]

end PublishWork

/-- Settles O40: each PUBLISH hands over what its list's job or its step has, once nothing else of its context is in flight. -/
theorem publishHandsOverRecords : Obligations.PublishHandsOverRecords := by
  intro s die core c p q a desc i j hs hat hop hsuspect howner hjob x len hpayload hown hcount hnone
  have h : PublishWork s die core c a i := ⟨hs, hat, hop, hsuspect, hpayload, hown, hcount, hnone⟩
  refine ⟨fun hkind hpublished hended hsize => h.publishResult_runs howner hjob hkind hpublished hended hsize,
    fun hkind hpa _ hdesc => ⟨fun st hstep hreqs hrows hsize => ?_, fun hnoStep hcont hno => ?_⟩, fun f hf => ?_⟩
  · exact h.publishTokens_runs howner hjob hkind hpa hdesc hstep hreqs hrows hsize
  · exact h.publishTokens_noStep howner hjob hkind hpa hdesc hnoStep hcont hno
  · exact ⟨done_issuePublish_waits (List.ne_nil_of_mem hf) _, done_issuePublish_waits (List.ne_nil_of_mem hf) _⟩

end Sys2Proof.Proofs
